-- ==== Sys2Proof/Word.lean ====
section
/-! DEFINITION. The words of the Vilcen V9: bytes, 32-bit registers, 64-bit pairs and lane masks (R5, R87, R130),
and the sorted table in which sparse state is held. -/
namespace Sys2Proof

/-- A byte of memory. -/
abbrev Byte := BitVec 8
/-- A 32-bit register or memory word. -/
abbrev Word := BitVec 32
/-- A 64-bit pair, pointer, instruction word or clause header. -/
abbrev DWord := BitVec 64
/-- A set of lanes of a warp, bit t for lane t (R10). -/
abbrev Mask := BitVec 32

/-- Sparse data by key: keys strictly rising, and no entry equal to what an unlisted key reads as. -/
abbrev Tbl (α : Type) := List (Nat × α)

end Sys2Proof
end

