-- ==== Sys2Proof/Config.lean ====
section
/-! DEFINITION. What the manual leaves open: free values, each an opaque constant of which no proof can see a value.
Every one is named in the assumption log. -/
namespace Sys2Proof

/-- A free 32-bit value, by the counter of State (log 2): values the manual calls unspecified (R289, R406). -/
opaque Config.freeWord : Nat → Word

/-- Result of an approximate special function: form code (0 RSQ, 1 LOG2, 2 EXP2, 3 SIN, 4 COS, 5 TANH), format code
(0 f32, 1 f16, 2 bf16) and input encoding (R203: the same on every core; log 10). -/
opaque Config.sfu : Nat → Nat → Word → Word

/-! What the AV1 specification, to which R323 refers, says of a bitstream (log 40). -/

/-- Type of an AV1 frame. -/
inductive Av1Type
  | key | inter | intraOnly | switch
deriving DecidableEq, Repr, Inhabited
/-- A sequence header: whether it could be parsed, and the fields that R323 limits. -/
structure Av1Seq where
  parsed : Bool
  profile : Nat
  depth : Nat
  mono : Bool
  is420 : Bool
  level : Nat
deriving DecidableEq, Repr, Inhabited
/-- A frame: whether its header could be parsed, the slots that it names (as references, as its primary_ref_frame, as shown
instead of a new frame), those it refreshes, its upscaled size, apply_grain, and whether its tile data decode. -/
structure Av1Frame where
  parsed : Bool
  kind : Av1Type
  refs : List Nat
  primary : Option Nat
  refresh : BitVec 8
  shows : Option Nat
  width : Nat
  height : Nat
  grain : Bool
  tilesOk : Bool
deriving DecidableEq, Repr, Inhabited
/-- What a temporal unit holds, in order: OBUs outside the operating point, metadata and padding are left out. -/
inductive Av1Item
  | sequence (h : Av1Seq)
  | frame (f : Av1Frame)
  | tileList
  | unsized
  | broken
deriving DecidableEq, Repr, Inhabited
/-- A temporal unit: its bytes, whether a temporal delimiter follows it, and what it holds. -/
structure Av1Unit where
  bytes : Nat
  closed : Bool
  items : List Av1Item
deriving DecidableEq, Repr, Inhabited
/-- A picture: its size and its samples, plane by plane. -/
structure Av1Pic where
  width : Nat
  height : Nat
  luma : List Nat
  cb : List Nat
  cr : List Nat
deriving DecidableEq, Repr, Inhabited

/-- The temporal unit that bytes begin with, from the engine-private state and the operating point: none while the bytes do not
show its end, and of the bytes that end a bitstream, where they hold none. The last argument says that they end it. -/
opaque Config.av1Parse : List Byte → BitVec 5 → List Byte → Bool → Option Av1Unit
/-- The picture in a slot of a reference store, and the store with a picture in a slot: the layout is the engine's (R329). -/
opaque Config.av1Slot : List Byte → Nat → Av1Pic
opaque Config.av1Keep : List Byte → Nat → Av1Pic → List Byte
/-- The reconstructed picture of item k of a unit, without film grain, from the private state and the pictures of the slots. -/
opaque Config.av1Decode : List Byte → List Av1Pic → List Byte → Nat → Av1Pic
/-- The picture of item k of a unit after film grain synthesis (R328). -/
opaque Config.av1Grain : List Byte → Nat → Av1Pic → Av1Pic
/-- The engine-private state after a unit. -/
opaque Config.av1Private : List Byte → List Byte → List Byte

/-- Zynhal's vendor and device identifiers (R347): the spec states no number. Log 118. -/
opaque Config.vendorId : BitVec 16
@[inherit_doc Config.vendorId] opaque Config.deviceId : BitVec 16
/-- Doublewords of the configuration space past the identifiers (R347): the spec does not lay it out. Log 118. -/
opaque Config.configWord : Nat → Word
/-- The device identity key's modulus and private exponent, which the die's unclonable function gives (R415). -/
opaque Config.idModulus : Nat
@[inherit_doc Config.idModulus] opaque Config.idPrivate : Nat
/-- The 64-byte salt of a signature by the identity key (R417): the spec states none. -/
opaque Config.pssSalt : List Byte → BitVec 512
/-- Key hash in mask ROM (R413), its first byte the most significant. -/
opaque Config.keyHash : BitVec 512
/-- Identity certificate in the board flash (R415). -/
opaque Config.cert : List Byte
/-- Firmware image in the board flash (R408 stage 2). -/
opaque Config.flash : List Byte
/-- Mask ROM (R417 M0). -/
opaque Config.rom : List Byte
/-- Board configuration block (R417 M2). -/
opaque Config.board : List Byte

end Sys2Proof
end

