-- ==== Sys2Proof/Syntax.lean ====
section
/-! DEFINITION. The instructions: one constructor per row of spec/opcode_table.json. Instruction forms carry the operands
of their encoding (R130 to R137 and the X layouts of R173, R215, R229 to R243, R269, R285); device events carry what
the outside world or the scheduler supplies. -/
namespace Sys2Proof

/-- Guard predicate kG and its negation (R130). -/
structure Guard where
  g : BitVec 3
  neg : Bool
deriving DecidableEq, Repr

/-- A 10-bit source operand (R133). -/
inductive Src
  | v (n : BitVec 8)
  | s (n : BitVec 6)
  | sp (n : BitVec 4)
  | q (n : BitVec 3)
  | lit
  | imm (n : BitVec 8)
  | k (n : BitVec 3)
deriving DecidableEq, Repr

/-- Operand type of the T field (R137). -/
inductive Ty
  | i32 | n32 | i64 | n64 | i16x2 | n16x2 | i8x4 | n8x4 | f32 | f16x2 | bf16x2
deriving DecidableEq, Repr

/-- Bits [31:0] of the formats R, K and I (R131). -/
inductive Body
  | r (b c : Src) (t : Ty) (m : BitVec 8)
  | k (w : BitVec 3) (off : BitVec 17) (t : Ty) (m : BitVec 8)
  | i (imm : BitVec 32)
deriving DecidableEq, Repr

/-- A form of the formats R, K or I. -/
structure Rk where
  gd : Guard
  d : BitVec 8
  a : Src
  body : Body
deriving DecidableEq, Repr

/-- BRA (R173). -/
structure BraF where
  gd : Guard
  off : BitVec 32
deriving DecidableEq, Repr

/-- CALL (R173). -/
structure CallF where
  gd : Guard
  vs : BitVec 8
  off : BitVec 32
deriving DecidableEq, Repr

/-- JSET (R173). -/
structure JsetF where
  gd : Guard
  n : BitVec 4
  mask : Src
  off : BitVec 32
deriving DecidableEq, Repr

/-- LOOP (R173). -/
structure LoopF where
  gd : Guard
  lvl : BitVec 2
  count : Src
  stop : BitVec 16
deriving DecidableEq, Repr

/-- LBRK (R173). -/
structure LbrkF where
  gd : Guard
  lvl : BitVec 2
deriving DecidableEq, Repr

/-- The memory word of LD, LD s, ST, ATOM and RED (R215). -/
structure MemF where
  gd : Guard
  d : BitVec 8
  a : Src
  b : Src
  ord : BitVec 2
  scope : BitVec 3
  sz : BitVec 3
  off6 : BitVec 6
  att : BitVec 2
  mod : BitVec 6
deriving DecidableEq, Repr

/-- CAS64 (R229). -/
structure CasF where
  gd : Guard
  d : BitVec 8
  a : Src
  b : Src
  ord : BitVec 2
  scope : BitVec 3
  newS : Bool
  new : BitVec 8
  att : BitVec 2
  lk : Bool
deriving DecidableEq, Repr

/-- FENCE (R230). -/
structure FenceF where
  gd : Guard
  kind : BitVec 2
  scope : BitVec 3
deriving DecidableEq, Repr

/-- PREF (R231) and the CCTL operations (R232). -/
structure LineF where
  gd : Guard
  a : Src
  att : BitVec 2
  l1 : Bool
  w : Bool
deriving DecidableEq, Repr

/-- ACOPY (R233). -/
structure CopyF where
  gd : Guard
  d : BitVec 8
  a : Src
  b : Src
  c : Src
  att : BitVec 2
deriving DecidableEq, Repr

/-- BAR on a named barrier (R236). -/
structure BarF where
  gd : Guard
  a : Src
  no : BitVec 9
  cnt : Bool
deriving DecidableEq, Repr

/-- SYNCSET, SYNCHIT, SYNCHOLD, SYNCDROP (R241), FPUT and FWAIT (R243): the fields of R215 that they fill. -/
structure SyncF where
  gd : Guard
  d : BitVec 8
  a : Src
  b : Src
  scope : BitVec 3
  att : BitVec 2
deriving DecidableEq, Repr

/-- WATCH, WATCH.clr (R247) and DISP (R250). -/
structure ObjF where
  gd : Guard
  d : BitVec 8
  a : Src
  b : Src
  att : BitVec 2
deriving DecidableEq, Repr

/-- The palette-class forms but PLOOK (R269). -/
structure PalF where
  gd : Guard
  d : BitVec 8
  a : Src
  b : Src
  c : Src
  p : BitVec 4
  att : BitVec 2
  mod : Bool
deriving DecidableEq, Repr

/-- PLOOK (R269). -/
structure PlookF where
  gd : Guard
  a : Src
  b : Src
  col : BitVec 8
  p : BitVec 2
  n : BitVec 4
  att : BitVec 2
  km : BitVec 3
  all : Bool
  sat : Bool
  rebuild : Bool
deriving DecidableEq, Repr

/-- SPAWN, EJOB, CSRRD, CSRWR, PERFRD, ICINV and BIAS (R285): num is the CSR or counter number. -/
structure SysF where
  gd : Guard
  d : BitVec 8
  a : Src
  num : BitVec 12
  att : BitVec 2
  host : Bool
deriving DecidableEq, Repr

/-- What a peer package asks of this package's memory (R400). -/
inductive PeerOp
  | load (n : Nat)
  | store (data : List Byte)
  | atom (op : BitVec 4) (ty : BitVec 3) (v : DWord)
  | cas (cmp new : DWord)
  | red (op : BitVec 4) (ty : BitVec 3) (v : DWord)
  | disp
deriving DecidableEq, Repr

/-- Where a peer's access comes from: its package, the port that carried it, and the flits the link retried (R398, R400). -/
structure PeerLink where
  pkg : Nat
  port : Nat
  retries : Nat
deriving DecidableEq, Repr

/-- What the far end of a port reports as it trains: its package and its training identity (R398). -/
structure PortPeer where
  pkg : Nat
  ident : Nat
deriving DecidableEq, Repr

/-- A host read of the line that holds an address, or a MemInv of it, which carries no data (R397). -/
structure LineReq where
  pa : Nat
  inv : Bool
deriving DecidableEq, Repr

/-- A launch's replica: its packet, and the MAXP of its queue (R356, R364). -/
structure Replica where
  pkt : BitVec 1024
  maxp : Nat
deriving DecidableEq, Repr

/-- What a DONE reports beside its status: when the share's first group started, and its exception counters (R357, R365). -/
structure DoneReport where
  tstart : Nat
  counts : Tbl Nat
deriving DecidableEq, Repr

/-- Result of a bring-up stage: fuse and key check, firmware verdict, dies that pass, stacks that train, SerDes (R408). -/
structure StageResult where
  keyOk : Bool
  lbist : BitVec 4
  mbist : BitVec 4
  hbms : BitVec 8
  serdes : Bool
deriving DecidableEq, Repr

/-- One rank's part of a collective, as it crosses Psimel (R403): its rank, what matched jobs must agree in, and its source, each
byte with whether its word was poisoned. -/
structure RankData where
  rank : Nat
  op : Nat
  param : Nat
  nrank : Nat
  pkgs : List Nat
  zs : Nat
  zd : Nat
  data : List (Byte × Bool)
deriving DecidableEq, Repr

/-- The rows of spec/opcode_table.json: 167 instruction rows, then the device events. -/
inductive Instr
  -- integer, vector forms
  | iadd (f : Rk) | isub (f : Rk) | imul (f : Rk) | imulh (f : Rk) | imad (f : Rk) | imadw (f : Rk)
  | iadd64 (f : Rk) | isub64 (f : Rk) | idiv (f : Rk) | irem (f : Rk) | imin (f : Rk) | imax (f : Rk) | iabs (f : Rk)
  | and (f : Rk) | or (f : Rk) | xor (f : Rk) | andn (f : Rk) | shl (f : Rk) | shr (f : Rk) | sar (f : Rk) | rot (f : Rk)
  | bfe (f : Rk) | bfi (f : Rk) | popc (f : Rk) | clz (f : Rk) | ctz (f : Rk) | brev (f : Rk) | lea (f : Rk)
  | icmp (f : Rk) | ipick (f : Rk) | mov (f : Rk) | movi (f : Rk)
  -- cross-lane
  | ltest (f : Rk) | ltestS (f : Rk) | lxch (f : Rk) | lfold (f : Rk) | scan (f : Rk) | lsame (f : Rk)
  | pset (f : Rk) | pmov (f : Rk)
  -- control
  | nop (f : Rk) | bra (f : BraF) | jmp (f : Rk) | call (f : CallF) | ret (f : Rk) | jset (f : JsetF) | jwait (f : Rk)
  | loop (f : LoopF) | lbrk (f : LbrkF) | exit (f : Rk) | yield (f : Rk) | trap (f : Rk) | tret (f : Rk)
  -- integer, scalar forms
  | iaddS (f : Rk) | isubS (f : Rk) | imulS (f : Rk) | imulhS (f : Rk) | imadS (f : Rk) | iadd64S (f : Rk) | isub64S (f : Rk)
  | idivS (f : Rk) | iremS (f : Rk) | iminS (f : Rk) | imaxS (f : Rk) | iabsS (f : Rk) | andS (f : Rk) | orS (f : Rk)
  | xorS (f : Rk) | andnS (f : Rk) | shlS (f : Rk) | shrS (f : Rk) | sarS (f : Rk) | rotS (f : Rk) | bfeS (f : Rk)
  | bfiS (f : Rk) | popcS (f : Rk) | clzS (f : Rk) | ctzS (f : Rk) | brevS (f : Rk) | leaS (f : Rk) | ipickS (f : Rk)
  | movS (f : Rk) | moviS (f : Rk)
  -- floating point
  | fadd (f : Rk) | fsub (f : Rk) | fmul (f : Rk) | ffma (f : Rk) | fmin (f : Rk) | fmax (f : Rk) | fcmp (f : Rk)
  | fpick (f : Rk) | fclass (f : Rk) | frnd (f : Rk) | fscale (f : Rk)
  | fdiv (f : Rk) | rcp (f : Rk) | rsq (f : Rk) | sqrt (f : Rk) | log2 (f : Rk) | exp2 (f : Rk) | sin (f : Rk) | cos (f : Rk)
  | tanh (f : Rk) | cvt (f : Rk) | cvtS (f : Rk) | bpack (f : Rk) | bunpack (f : Rk)
  | faddS (f : Rk) | fsubS (f : Rk) | fmulS (f : Rk) | ffmaS (f : Rk) | fminS (f : Rk) | fmaxS (f : Rk) | fpickS (f : Rk)
  -- memory and synchronisation
  | ld (f : MemF) | ldS (f : MemF) | st (f : MemF) | atom (f : MemF) | red (f : MemF) | cas64 (f : CasF) | fence (f : FenceF)
  | pref (f : LineF) | cctlIvl1 (f : LineF) | cctlIvline (f : LineF) | cctlIvconst (f : LineF) | cctlEvl2 (f : LineF)
  | acopy (f : CopyF) | bar (f : BarF) | barGrid (f : BarF) | gridBarrierRelease (grid : Nat)
  | syncset (f : SyncF) | synchit (f : SyncF) | synchold (f : SyncF) | syncdrop (f : SyncF)
  | fwait (f : SyncF) | fwaitPoll (g w sub : Nat) | fput (f : SyncF)
  | watch (f : ObjF) | watchClr (f : ObjF) | disp (f : ObjF) | qbind (f : Rk) | qeos (f : Rk) | qstat (f : Rk)
  -- palette class
  | pbuild (f : PalF) | bcastCopyInstall (g op : Nat) | plook (f : PlookF) | pinv (f : PalF) | pstat (f : PalF)
  | pspill (f : PalF) | pfill (f : PalF) | azero (f : PalF) | aload (f : PalF) | aread (f : PalF) | aver (f : PalF)
  | adrain (f : PalF) | rfence (f : PalF) | srld (f : PalF) | paletteOpPerform (g op : Nat)
  -- engine and system
  | spawn (f : SysF) | spawnAccept (task : Nat) | give (f : Rk) | claim (f : Rk) | claimdl (g : Nat) | ejob (f : SysF)
  | csrrd (f : SysF) | csrwr (f : SysF) | pkrwr (f : Rk) | tstamp (f : Rk) | perfrd (f : SysF) | sleep (f : Rk)
  | sleepExpiry (g w sub : Nat) | icinv (f : SysF) | bias (f : SysF) | halt (f : Rk)
  -- events of issue
  | clauseStart (g w : Nat) | trapEntry (g w : Nat) | riePromotion (core : Nat) | rieDemotion (g w : Nat)
  | speculativeReplay (g w : Nat) | l1CopyExpiry (core word : Nat) | warpExit (g w : Nat) | groupEnd (g : Nat)
  -- events of queues and launch
  | registerWrite (off : Nat) (v : DWord) | wridxWrite (q : Nat) (v : Word) | crdidxWrite (q : Nat) (v : Word)
  | queueEnable (q : Nat) | queueErrClear (q : Nat) | timeSliceExpiry (q : Nat) | packetRead (q : Nat)
  | placementWaitExpiry (grid : Nat) | arm (pkg origin ctx status : Nat) (rep : Replica) (wins : BitVec 1024)
  | armTimeout (grid : Nat) | go (ctx gen : Nat) | abort (ctx gen : Nat)
  | done (pkg ctx gen : Nat) (status cause : Nat) (rep : DoneReport)
  | completionRecordWrite (grid : Nat)
  -- events of the driver
  | contextSaveWrite (ctx : Nat)
  | pageWalk (core ctx : Nat) (va : DWord)
  -- events of the engines
  | jobAccept (job : Nat) | tileCopyJob (job n : Nat) | decodeLockAcquire (job : Nat) | frameDecodeJob (job : Nat)
  | collectiveJob (job : Nat) (ranks : List RankData) | collectiveTimeout (job : Nat) (late : List RankData) | jobComplete (job : Nat)
  -- events of the host and the fabric
  | hostMemrd (req : LineReq) | hostMemwr (pa : Nat) (data : List Byte) | hostSnoop (die line kind : Nat)
  | birsp (block : Nat) (dirty : Tbl (List Byte)) | biasFlipComplete (page : Nat) | portTrained (port : Nat) (peer : PortPeer) (pport : Nat) (base : DWord)
  | portFailed (port : Nat) | peerUnreachable (pkg : Nat) | slow (origin ctx ratio : Nat)
  -- events of power and recovery
  | powerControlTick (watts : Nat) (temps : Tbl Nat) | thermalEmergencyStart (cluster temp : Nat)
  | thermalEmergencyEnd (cluster temp : Nat) | emergencyRecoveryStep (cluster temp : Nat)
  | droopAlarm (cluster mv : Nat) | droopStretchEnd (cluster : Nat) | droopHoldEnd (cluster : Nat)
  | patrolScrub (e unit word : Nat) (err : Option Bool) | groupRelaunch (g : Nat)
  -- events of bring-up and the mailbox
  | bringupStageComplete (r : StageResult) | unitFailure (kind idx code : Nat)
  | longLatencyCompletion (g w idx : Nat) | peerAccess (link : PeerLink) (op : PeerOp) (pa : Nat)
  -- events without operands
  | queueSlotSelect | groupPlacement | invpg | invctx | invall | ptfence | reply | preempt | resume | kill | brkset
  | hcont | faultRecordWrite | trip | powerOnReset | safeStateEntry | status | getcert | attest | fwload | svnraise
  | reset
deriving DecidableEq, Repr

end Sys2Proof
end

