-- ==== Sys2Proof/WellFormed.lean ====
section
/-! DEFINITION. Which instructions have a word: the form properties of R151 and the checks of steps 1 and 4 to 7 of
R154, stated on the syntax. An instruction that fails one of them has no encoding and its word traps with ILLOP. -/
namespace Sys2Proof

/-- Class of the destination field (R135, R151). -/
inductive DCls
  | none | vec | vecEven | sca | scaOnly | scaEven | pred
deriving DecidableEq, Repr

/-- Home class of a form (R121, R123). -/
inductive Home
  | alu | mem | pal | sfu | sys | ctl
deriving DecidableEq, Repr

/-- One row of R151. `types` is empty where the form takes no type; `scalar` marks the forms of R153. -/
structure Form where
  op : Nat
  d : DCls
  r : Bool
  k : Bool
  i : Bool
  nsrc : Nat
  types : List Ty
  home : Home
  long : Bool
  last : Bool
  scalar : Bool
deriving DecidableEq, Repr

/-- An instruction sorted by its word layout (R131, R173, R215 to R250, R269, R285). -/
inductive Enc
  | rk (op : Nat) (f : Rk)
  | bra (f : BraF) | call (f : CallF) | jset (f : JsetF) | loop (f : LoopF) | lbrk (f : LbrkF)
  | mem (op : Nat) (f : MemF) | cas (f : CasF) | fence (f : FenceF) | pref (f : LineF) | cctl (code : Nat) (f : LineF)
  | acopy (f : CopyF) | bar (grid : Bool) (f : BarF) | sync (op : Nat) (f : SyncF) | obj (op : Nat) (clr : Bool) (f : ObjF)
  | pal (op : Nat) (f : PalF) | plook (f : PlookF) | sys (op : Nat) (f : SysF)
  | event
deriving DecidableEq, Repr

/-- The opcode (R149) and layout of each instruction; an event has no word. -/
def Instr.enc : Instr → Enc
  | .iadd f => .rk 0x01 f | .isub f => .rk 0x02 f | .imul f => .rk 0x03 f | .imulh f => .rk 0x04 f
  | .imad f => .rk 0x05 f | .imadw f => .rk 0x06 f | .iadd64 f => .rk 0x07 f | .isub64 f => .rk 0x08 f
  | .idiv f => .rk 0x09 f | .irem f => .rk 0x0A f | .imin f => .rk 0x0B f | .imax f => .rk 0x0C f
  | .iabs f => .rk 0x0D f | .and f => .rk 0x0E f | .or f => .rk 0x0F f | .xor f => .rk 0x10 f | .andn f => .rk 0x11 f
  | .shl f => .rk 0x12 f | .shr f => .rk 0x13 f | .sar f => .rk 0x14 f | .rot f => .rk 0x15 f | .bfe f => .rk 0x16 f
  | .bfi f => .rk 0x17 f | .popc f => .rk 0x18 f | .clz f => .rk 0x19 f | .ctz f => .rk 0x1A f | .brev f => .rk 0x1B f
  | .lea f => .rk 0x1C f | .icmp f => .rk 0x1D f | .ipick f => .rk 0x1E f | .mov f => .rk 0x1F f | .movi f => .rk 0x20 f
  | .ltest f => .rk 0x21 f | .ltestS f => .rk 0x22 f | .lxch f => .rk 0x23 f | .lfold f => .rk 0x24 f
  | .scan f => .rk 0x25 f | .lsame f => .rk 0x26 f | .pset f => .rk 0x27 f | .pmov f => .rk 0x28 f
  | .nop f => .rk 0x30 f | .bra f => .bra f | .jmp f => .rk 0x32 f | .call f => .call f | .ret f => .rk 0x34 f
  | .jset f => .jset f | .jwait f => .rk 0x36 f | .loop f => .loop f | .lbrk f => .lbrk f | .exit f => .rk 0x39 f
  | .yield f => .rk 0x3A f | .trap f => .rk 0x3B f | .tret f => .rk 0x3C f
  | .iaddS f => .rk 0x41 f | .isubS f => .rk 0x42 f | .imulS f => .rk 0x43 f | .imulhS f => .rk 0x44 f
  | .imadS f => .rk 0x45 f | .iadd64S f => .rk 0x47 f | .isub64S f => .rk 0x48 f | .idivS f => .rk 0x49 f
  | .iremS f => .rk 0x4A f | .iminS f => .rk 0x4B f | .imaxS f => .rk 0x4C f | .iabsS f => .rk 0x4D f
  | .andS f => .rk 0x4E f | .orS f => .rk 0x4F f | .xorS f => .rk 0x50 f | .andnS f => .rk 0x51 f | .shlS f => .rk 0x52 f
  | .shrS f => .rk 0x53 f | .sarS f => .rk 0x54 f | .rotS f => .rk 0x55 f | .bfeS f => .rk 0x56 f | .bfiS f => .rk 0x57 f
  | .popcS f => .rk 0x58 f | .clzS f => .rk 0x59 f | .ctzS f => .rk 0x5A f | .brevS f => .rk 0x5B f | .leaS f => .rk 0x5C f
  | .ipickS f => .rk 0x5E f | .movS f => .rk 0x5F f | .moviS f => .rk 0x60 f
  | .fadd f => .rk 0x70 f | .fsub f => .rk 0x71 f | .fmul f => .rk 0x72 f | .ffma f => .rk 0x73 f | .fmin f => .rk 0x74 f
  | .fmax f => .rk 0x75 f | .fcmp f => .rk 0x76 f | .fpick f => .rk 0x77 f | .fclass f => .rk 0x78 f | .frnd f => .rk 0x79 f
  | .fscale f => .rk 0x7A f
  | .fdiv f => .rk 0x80 f | .rcp f => .rk 0x81 f | .rsq f => .rk 0x82 f | .sqrt f => .rk 0x83 f | .log2 f => .rk 0x84 f
  | .exp2 f => .rk 0x85 f | .sin f => .rk 0x86 f | .cos f => .rk 0x87 f | .tanh f => .rk 0x88 f | .cvt f => .rk 0x89 f
  | .cvtS f => .rk 0x8C f | .bpack f => .rk 0x8A f | .bunpack f => .rk 0x8B f
  | .faddS f => .rk 0x90 f | .fsubS f => .rk 0x91 f | .fmulS f => .rk 0x92 f | .ffmaS f => .rk 0x93 f
  | .fminS f => .rk 0x94 f | .fmaxS f => .rk 0x95 f | .fpickS f => .rk 0x97 f
  | .ld f => .mem 0xB0 f | .ldS f => .mem 0xB1 f | .st f => .mem 0xB2 f | .atom f => .mem 0xB3 f | .red f => .mem 0xB4 f
  | .cas64 f => .cas f | .fence f => .fence f | .pref f => .pref f
  | .cctlIvl1 f => .cctl 0 f | .cctlIvline f => .cctl 1 f | .cctlIvconst f => .cctl 2 f | .cctlEvl2 f => .cctl 3 f
  | .acopy f => .acopy f | .bar f => .bar false f | .barGrid f => .bar true f
  | .syncset f => .sync 0xBB f | .synchit f => .sync 0xBC f | .synchold f => .sync 0xBD f | .syncdrop f => .sync 0xBE f
  | .fwait f => .sync 0xBF f | .fput f => .sync 0xC0 f
  | .watch f => .obj 0xC1 false f | .watchClr f => .obj 0xC1 true f | .disp f => .obj 0xC2 false f
  | .qbind f => .rk 0xC3 f | .qeos f => .rk 0xC4 f | .qstat f => .rk 0xC5 f
  | .pbuild f => .pal 0xD0 f | .plook f => .plook f | .pinv f => .pal 0xD2 f | .pstat f => .pal 0xD3 f
  | .pspill f => .pal 0xD4 f | .pfill f => .pal 0xD5 f | .azero f => .pal 0xD6 f | .aload f => .pal 0xD7 f
  | .aread f => .pal 0xD8 f | .aver f => .pal 0xD9 f | .adrain f => .pal 0xDA f | .rfence f => .pal 0xDB f
  | .srld f => .pal 0xDC f
  | .spawn f => .sys 0xE0 f | .give f => .rk 0xE1 f | .claim f => .rk 0xE2 f | .ejob f => .sys 0xE3 f
  | .csrrd f => .sys 0xE4 f | .csrwr f => .sys 0xE5 f | .pkrwr f => .rk 0xE6 f | .tstamp f => .rk 0xE7 f
  | .perfrd f => .sys 0xE8 f | .sleep f => .rk 0xE9 f | .icinv f => .sys 0xEA f | .bias f => .sys 0xEB f | .halt f => .rk 0xEC f
  | .gridBarrierRelease _ | .fwaitPoll _ _ _ | .bcastCopyInstall _ _ | .paletteOpPerform _ _ | .spawnAccept _
  | .claimdl _ | .sleepExpiry _ _ _ | .clauseStart _ _ | .trapEntry _ _ | .riePromotion _ | .rieDemotion _ _
  | .speculativeReplay _ _ | .l1CopyExpiry _ _ | .warpExit _ _ | .groupEnd _ | .registerWrite _ _ | .wridxWrite _ _
  | .crdidxWrite _ _ | .queueEnable _ | .queueErrClear _ | .timeSliceExpiry _ | .packetRead _
  | .placementWaitExpiry _ | .arm _ _ _ _ _ _ | .armTimeout _ | .go _ _ | .abort _ _ | .done _ _ _ _ _ _
  | .completionRecordWrite _ | .contextSaveWrite _ | .pageWalk _ _ _ | .jobAccept _ | .tileCopyJob _ _
  | .decodeLockAcquire _ | .frameDecodeJob _ | .collectiveJob _ _ | .collectiveTimeout _ _ | .jobComplete _
  | .hostMemrd _ | .hostMemwr _ _ | .hostSnoop _ _ _ | .birsp _ _ | .biasFlipComplete _ | .portTrained _ _ _ _
  | .portFailed _ | .peerUnreachable _ | .slow _ _ _ | .powerControlTick _ _ | .thermalEmergencyStart _ _
  | .thermalEmergencyEnd _ _ | .emergencyRecoveryStep _ _ | .droopAlarm _ _ | .droopStretchEnd _ | .droopHoldEnd _
  | .patrolScrub _ _ _ _ | .groupRelaunch _ | .bringupStageComplete _ | .unitFailure _ _ _
  | .longLatencyCompletion _ _ _ | .peerAccess _ _ _ | .queueSlotSelect | .groupPlacement | .invpg | .invctx
  | .invall | .ptfence | .reply | .preempt | .resume | .kill | .brkset | .hcont | .faultRecordWrite | .trip
  | .powerOnReset | .safeStateEntry | .status | .getcert | .attest | .fwload | .svnraise | .reset => .event

/-! The rows of R151 for the formats R, K and I. -/

def tyNone : List Ty := []
def tyI32 : List Ty := [.i32, .n32]
def tyInt : List Ty := [.i32, .n32, .i64, .n64]
def tyI64 : List Ty := [.i64, .n64]
def tyElem : List Ty := [.i32, .n32, .i16x2, .n16x2, .i8x4, .n8x4]
def tyMul : List Ty := [.i32, .n32, .i16x2, .n16x2]
def tyFold : List Ty := [.i32, .n32, .i64, .n64, .f32]
def tyCmp : List Ty := [.i32, .n32, .i64, .n64, .i16x2, .n16x2, .i8x4, .n8x4]
def tyFp : List Ty := [.f32, .f16x2, .bf16x2]
def tyAll : List Ty := [.i32, .n32, .i64, .n64, .i16x2, .n16x2, .i8x4, .n8x4, .f32, .f16x2, .bf16x2]

/-- A form of formats R and K. -/
def rkForm (op : Nat) (d : DCls) (nsrc : Nat) (types : List Ty) (home : Home) (long scalar : Bool) : Form :=
  ⟨op, d, true, true, false, nsrc, types, home, long, false, scalar⟩
/-- A form of format R only. -/
def rForm (op : Nat) (d : DCls) (nsrc : Nat) (types : List Ty) (home : Home) (long last scalar : Bool) : Form :=
  ⟨op, d, true, false, false, nsrc, types, home, long, last, scalar⟩

/-- R151, integer forms with a vector, predicate or pair destination. -/
def formsInt : List Form :=
  [rkForm 0x01 .vec 2 tyElem .alu false false, rkForm 0x02 .vec 2 tyElem .alu false false,
   rkForm 0x03 .vec 2 tyMul .alu false false, rkForm 0x04 .vec 2 tyMul .alu false false,
   rForm 0x05 .vec 3 tyMul .alu false false false, rForm 0x06 .vecEven 3 tyI32 .alu false false false,
   rkForm 0x07 .vecEven 2 tyI64 .alu false false, rkForm 0x08 .vecEven 2 tyI64 .alu false false,
   rkForm 0x09 .vec 2 tyInt .alu true false, rkForm 0x0A .vec 2 tyInt .alu true false,
   rkForm 0x0B .vec 2 tyElem .alu false false, rkForm 0x0C .vec 2 tyElem .alu false false,
   rkForm 0x0D .vec 1 [.i32, .i16x2, .i8x4] .alu false false,
   rkForm 0x0E .vec 2 tyNone .alu false false, rkForm 0x0F .vec 2 tyNone .alu false false,
   rkForm 0x10 .vec 2 tyNone .alu false false, rkForm 0x11 .vec 2 tyNone .alu false false,
   rkForm 0x12 .vec 2 tyElem .alu false false, rkForm 0x13 .vec 2 tyElem .alu false false,
   rkForm 0x14 .vec 2 tyElem .alu false false, rkForm 0x15 .vec 2 tyElem .alu false false,
   rkForm 0x16 .vec 2 tyI32 .alu false false, rForm 0x17 .vec 3 tyNone .alu false false false,
   rkForm 0x18 .vec 1 tyNone .alu false false, rkForm 0x19 .vec 1 tyNone .alu false false,
   rkForm 0x1A .vec 1 tyNone .alu false false, rkForm 0x1B .vec 1 tyNone .alu false false,
   rkForm 0x1C .vecEven 2 tyNone .alu false false, rkForm 0x1D .pred 2 tyCmp .alu false false,
   rForm 0x1E .vec 3 tyNone .alu false false false, rkForm 0x1F .vec 1 [.i32, .i64, .n64] .alu false false,
   ⟨0x20, .vec, false, false, true, 0, tyNone, .alu, false, false, false⟩]

/-- R151, cross-lane and control forms. -/
def formsLane : List Form :=
  [rForm 0x21 .pred 1 tyNone .alu false false false, rForm 0x22 .sca 1 tyNone .alu false false false,
   rForm 0x23 .vec 3 tyNone .alu false false false, rForm 0x24 .sca 1 tyFold .alu false false false,
   rForm 0x25 .vec 1 tyFold .alu false false false, rForm 0x26 .vec 1 tyI32 .alu false false false,
   rForm 0x27 .pred 2 tyNone .alu false false false, rForm 0x28 .pred 1 tyNone .alu false false false,
   rForm 0x30 .none 0 tyNone .alu false false false, rForm 0x32 .none 1 tyNone .ctl false true false,
   rForm 0x34 .none 1 tyNone .ctl false true false, rForm 0x36 .none 1 tyNone .ctl false true false,
   rForm 0x39 .none 0 tyNone .ctl false true false, rForm 0x3A .none 0 tyNone .ctl false true false,
   ⟨0x3B, .none, true, false, true, 1, tyNone, .ctl, false, true, false⟩,
   rForm 0x3C .none 0 tyNone .ctl false true false]

/-- R151, R150: integer forms with a scalar destination. -/
def formsSca : List Form :=
  [rkForm 0x41 .sca 2 tyElem .alu false true, rkForm 0x42 .sca 2 tyElem .alu false true,
   rkForm 0x43 .sca 2 tyMul .alu false true, rkForm 0x44 .sca 2 tyMul .alu false true,
   rForm 0x45 .sca 3 tyMul .alu false false true,
   rkForm 0x47 .scaEven 2 tyI64 .alu false true, rkForm 0x48 .scaEven 2 tyI64 .alu false true,
   rkForm 0x49 .sca 2 tyInt .alu true true, rkForm 0x4A .sca 2 tyInt .alu true true,
   rkForm 0x4B .sca 2 tyElem .alu false true, rkForm 0x4C .sca 2 tyElem .alu false true,
   rkForm 0x4D .sca 1 [.i32, .i16x2, .i8x4] .alu false true,
   rkForm 0x4E .sca 2 tyNone .alu false true, rkForm 0x4F .sca 2 tyNone .alu false true,
   rkForm 0x50 .sca 2 tyNone .alu false true, rkForm 0x51 .sca 2 tyNone .alu false true,
   rkForm 0x52 .sca 2 tyElem .alu false true, rkForm 0x53 .sca 2 tyElem .alu false true,
   rkForm 0x54 .sca 2 tyElem .alu false true, rkForm 0x55 .sca 2 tyElem .alu false true,
   rkForm 0x56 .sca 2 tyI32 .alu false true, rForm 0x57 .sca 3 tyNone .alu false false true,
   rkForm 0x58 .sca 1 tyNone .alu false true, rkForm 0x59 .sca 1 tyNone .alu false true,
   rkForm 0x5A .sca 1 tyNone .alu false true, rkForm 0x5B .sca 1 tyNone .alu false true,
   rkForm 0x5C .scaEven 2 tyNone .alu false true, rForm 0x5E .sca 3 tyNone .alu false false true,
   rkForm 0x5F .sca 1 [.i32, .i64, .n64] .alu false true,
   ⟨0x60, .sca, false, false, true, 0, tyNone, .alu, false, false, true⟩]

/-- R151, floating-point, conversion, queue and system forms of the formats R and K. -/
def formsFp : List Form :=
  [rkForm 0x70 .vec 2 tyFp .alu false false, rkForm 0x71 .vec 2 tyFp .alu false false,
   rkForm 0x72 .vec 2 tyFp .alu false false, rForm 0x73 .vec 3 tyFp .alu false false false,
   rkForm 0x74 .vec 2 tyFp .alu false false, rkForm 0x75 .vec 2 tyFp .alu false false,
   rkForm 0x76 .pred 2 tyFp .alu false false, rForm 0x77 .vec 3 tyFp .alu false false false,
   rkForm 0x78 .vec 1 tyFp .alu false false, rkForm 0x79 .vec 1 tyFp .alu false false,
   rkForm 0x7A .vec 2 tyFp .alu false false,
   rkForm 0x80 .vec 2 [.f32] .sfu true false, rkForm 0x81 .vec 1 tyFp .sfu true false,
   rkForm 0x82 .vec 1 tyFp .sfu true false, rkForm 0x83 .vec 1 tyFp .sfu true false,
   rkForm 0x84 .vec 1 tyFp .sfu true false, rkForm 0x85 .vec 1 tyFp .sfu true false,
   rkForm 0x86 .vec 1 tyFp .sfu true false, rkForm 0x87 .vec 1 tyFp .sfu true false,
   rkForm 0x88 .vec 1 tyFp .sfu true false, rkForm 0x89 .vec 1 tyAll .sfu true false,
   rForm 0x8A .scaOnly 1 tyFp .sfu true false false, rForm 0x8B .vec 2 tyFp .sfu true false false,
   rkForm 0x8C .sca 1 tyAll .sfu true true,
   rkForm 0x90 .sca 2 tyFp .alu false true, rkForm 0x91 .sca 2 tyFp .alu false true,
   rkForm 0x92 .sca 2 tyFp .alu false true, rForm 0x93 .sca 3 tyFp .alu false false true,
   rkForm 0x94 .sca 2 tyFp .alu false true, rkForm 0x95 .sca 2 tyFp .alu false true,
   rForm 0x97 .sca 3 tyFp .alu false false true,
   rForm 0xC3 .none 2 tyNone .mem false false false, rForm 0xC4 .none 1 tyNone .mem false false false,
   rForm 0xC5 .sca 1 tyNone .mem false false false,
   rForm 0xE1 .none 1 tyNone .sys false false false, rForm 0xE2 .none 1 tyNone .sys false true false,
   rForm 0xE6 .none 2 tyNone .sys false false false, rForm 0xE7 .scaEven 0 tyNone .sys false false false,
   rForm 0xE9 .none 1 tyNone .sys false true false, rForm 0xEC .none 0 tyNone .sys false false false]

/-- The row of an opcode of format R, K or I (R151). -/
def rkFormOf (op : Nat) : Option Form :=
  let t := if op < 0x21 then formsInt else if op < 0x40 then formsLane else if op < 0x61 then formsSca else formsFp
  t.find? (fun f => f.op == op)

/-! Operand codes (R133). -/

def Src.isZero (a : Src) : Bool := a == .v 0
def Src.isV : Src → Bool
  | .v _ => true
  | _ => false
def Src.isS : Src → Bool
  | .s _ => true
  | _ => false
def Src.isK : Src → Bool
  | .k _ => true
  | _ => false
def Src.isReg (a : Src) : Bool := a.isV || a.isS
/-- Neither a vector code nor `lane` (R153, R173, R258, R284). -/
def Src.uniform : Src → Bool
  | .v _ => false
  | .sp n => n != 0
  | _ => true
/-- Admitted as an operand of a 64-bit type: no queue, special register or k code (R134). -/
def Src.wide : Src → Bool
  | .sp _ => false
  | .k _ => false
  | .q _ => false
  | _ => true
/-- An even scalar pair code; any other is refused at step 7 (R269, R284). -/
def Src.pair : Src → Bool
  | .s n => n.toNat % 2 == 0
  | _ => false
/-- Immediate code 0x200 + n with n below a bound: a join register or a queue named without being read. -/
def Src.immBelow (k : Nat) : Src → Bool
  | .imm n => n.toNat < k
  | _ => false

def Ty.is64 (t : Ty) : Bool := t == .i64 || t == .n64
def Ty.packed : Ty → Bool
  | .i16x2 | .n16x2 | .i8x4 | .n8x4 | .f16x2 | .bf16x2 => true
  | _ => false

/-- Destination number of the class (R135). A pair's parity and the allotments are checked at step 9. -/
def DCls.ok (c : DCls) (d : Nat) (is64 : Bool) : Bool :=
  match c with
  | .none => d == 0
  | .vec | .vecEven => d < 256
  | .sca => d < 64 || (!is64 && 80 ≤ d && d < 88)
  | .scaOnly | .scaEven => d < 64
  | .pred => 1 ≤ d && d < 8

/-- Type code of the second format of CVT: O of R205 against T, by the table of R206. -/
def cvtPair (t : Ty) (o : Nat) : Bool :=
  match t with
  | .i32 | .n32 => o < 3
  | .i64 | .n64 => o < 3 || o == 6 || o == 7
  | .i16x2 | .n16x2 => o == 1 || o == 2
  | .i8x4 | .n8x4 => o == 3 || o == 4
  | .f32 => 1 ≤ o && o < 6
  | .f16x2 | .bf16x2 => 3 ≤ o && o < 6

/-- The modifier bits [5:0] of M, with the type combinations refused at step 6 (R157, R192, R205, R252, R286). -/
def modsOk (op m : Nat) (t : Ty) : Bool :=
  let base := if 0x41 ≤ op && op < 0x61 then op - 0x40 else if 0x90 ≤ op && op < 0x98 then op - 0x20 else op
  if base ∈ [0x01, 0x02, 0x07, 0x08, 0x0D, 0x1E, 0x28, 0x74, 0x75, 0x77] then m < 2
  else if base == 0x1C then m < 16
  else if base == 0x1D then m % 8 < 6 && m < 16 && (m < 8 || t.packed)
  else if base == 0x21 then m < 4
  else if base == 0x22 then m < 5
  else if base == 0x23 then m / 4 % 8 < 5
  else if base == 0x24 || base == 0x25 then
    m % 8 < 6 && m < (if base == 0x24 then 8 else 16) && (t != .f32 || m % 8 < 3)
  else if base == 0x27 then m < 5
  else if base ∈ [0x70, 0x71, 0x72, 0x73, 0x79, 0x7A, 0x80, 0x81, 0x83] then m < 5
  else if base == 0x76 then m % 16 < 14 && m < 32 && (m < 16 || t != .f32)
  else if base == 0x89 || base == 0x8C then cvtPair t (m / 4 % 8)
  else if base == 0x8A || base == 0x8B then m < 16 && (m < 8 || t != .f32)
  else m == 0

/-- CVT reads a 64-bit source: from the T side (R206). -/
def cvtWideSrc (t : Ty) (m : Nat) : Bool := t.is64 && m / 32 % 2 == 1
/-- CVT writes a 64-bit pair: to the T side (R206). -/
def cvtWideDst (t : Ty) (m : Nat) : Bool := t.is64 && m / 32 % 2 == 0

/-- An R, K or I form reads source i (0 A, 1 B, 2 C) as a 64-bit operand (R134, R160, R161, R168, R206). -/
def wideSrc (op : Nat) (t : Ty) (m i : Nat) : Bool :=
  if op == 0x06 then i == 2
  else if op == 0x1C || op == 0x5C || op == 0x32 then i == 0
  else if op == 0x89 || op == 0x8C then cvtWideSrc t m && i == 0
  else t.is64

/-- An R, K or I form writes an even pair (R135, R151, R160, R171, R206). -/
def wideDst (op : Nat) (t : Ty) (m : Nat) : Bool :=
  if op == 0x06 || op == 0x1C || op == 0x5C || op == 0xE7 then true
  else if op == 0x89 || op == 0x8C then cvtWideDst t m
  else if op == 0x1D then false
  else t.is64

/-- Source codes of the R format that one form alone restricts (R168, R170, R173, R190, R212, R214, R252, R286). -/
def srcRule (op m : Nat) (a b c : Src) : Bool :=
  if op == 0x1C then a.isReg
  else if op == 0x5C then a.isS
  else if op ∈ [0x1E, 0x5E, 0x77, 0x97] then c.isK
  else if op == 0x23 then 32 ≤ m || c.isZero
  else if op == 0x27 then a.uniform && (if m == 4 then b.isZero else b.uniform)
  else if op == 0x28 then m == 1 || a.uniform
  else if op == 0x32 then a.isReg
  else if op == 0x34 then a.isV && a != .v 255
  else if op == 0x36 then a.immBelow 16
  else if op ∈ [0x3B, 0xE1, 0xE2, 0xE9] then a.uniform
  else if op == 0xE6 then a.uniform && b.uniform
  else if op == 0xC3 then a.immBelow 8 && b.uniform
  else if op == 0xC4 || op == 0xC5 then a.immBelow 8
  else if op == 0x8A then a.isV
  else if op == 0x8B then a.isS && (match b with | .imm n => m % 8 < n.toNat && n.toNat ≤ 8 | _ => false)
  else true

/-- Steps 4 to 7 of R154 for a form of format R, K or I. -/
def wfRk (op : Nat) (f : Rk) : Bool :=
  match rkFormOf op with
  | none => false
  | some p =>
    match f.body with
    | .i _ => p.i && f.a.isZero && p.d.ok f.d.toNat false
    | .k _ _ t m =>
      let m6 := m.toNat % 64
      p.k && (if p.nsrc == 1 then f.a.isZero else !wideSrc op t m6 0 || f.a.wide)
        && (if p.types == [] then t == .i32 else p.types.contains t)
        && m.toNat / 64 < 3 && (p.long || m.toNat / 64 == 0) && modsOk op m6 t
        && (p.nsrc == 1 || !p.scalar || f.a.uniform) && (p.nsrc == 1 || srcRule op m6 f.a (.v 0) (.v 0))
        && p.d.ok f.d.toNat (wideDst op t m6)
    | .r b c t m =>
      let m6 := m.toNat % 64
      p.r && (1 ≤ p.nsrc || f.a.isZero) && (2 ≤ p.nsrc || b.isZero) && (3 ≤ p.nsrc || c.isZero)
        && (if p.types == [] then t == .i32 else p.types.contains t)
        && m.toNat / 64 < 3 && (p.long || m.toNat / 64 == 0) && modsOk op m6 t
        && (!p.scalar || ((p.nsrc < 1 || f.a.uniform) && (p.nsrc < 2 || b.uniform) && (p.nsrc < 3 || c.uniform)))
        && srcRule op m6 f.a b c
        && (p.nsrc < 1 || !wideSrc op t m6 0 || f.a.wide) && (p.nsrc < 2 || !wideSrc op t m6 1 || b.wide)
        && (p.nsrc < 3 || !wideSrc op t m6 2 || c.wide)
        && p.d.ok f.d.toNat (wideDst op t m6)
        && (op != 0x3C || f.gd == ⟨0, false⟩)

/-- Scalar destination that admits a queue push (R135). -/
def scaOk (d : BitVec 8) : Bool := DCls.sca.ok d.toNat false
/-- Scalar destination that admits no queue push (R135). -/
def scaRegOk (d : BitVec 8) : Bool := d.toNat < 64

/-- MOD of LD, LD s and ST of a plain width: CP and `.lim` (R216). -/
def cpMod (m : Nat) : Bool := m % 4 < 3 && m / 4 % 8 == 0
/-- MOD of the `.bpN` forms: planes no more than n (R216, R223). -/
def bpMod (m : Nat) : Bool := m % 8 ≤ m / 8 % 8
/-- An operation admits a type (R226). -/
def atomTy (op ty : Nat) : Bool :=
  op ≤ 8 && ty < 7 && (op < 3 || op > 5 || ty < 4) && (op < 7 || ty == 1 || ty == 3)

/-- Steps 5 to 7 of R154 for LD, LD s, ST, ATOM and RED (R55, R215 to R223, R226, R228). -/
def wfMem (op : Nat) (f : MemF) : Bool :=
  let m := f.mod.toNat
  let sz := f.sz.toNat
  f.att.toNat < 3 && f.scope.toNat < 7 &&
  (if op == 0xB0 then f.a.isReg && f.b.isZero && f.ord.toNat < 2 && sz < 7 && cpMod m
   else if op == 0xB1 then
     f.a.isS && f.ord.toNat < 2 &&
     (if sz == 7 then bpMod m && f.b.uniform && f.off6 == 0 && scaRegOk f.d
      else f.b.isZero && cpMod m && (scaRegOk f.d || (scaOk f.d && sz ≤ 4)))
   else if op == 0xB2 then
     f.d == 0 && (f.ord == 0 || f.ord == 2) &&
     (if sz == 7 then f.a.isS && bpMod m && f.b.uniform
      else f.a.isReg && cpMod m && sz != 1 && sz != 3 &&
        (if sz == 6 then f.b.isReg else sz != 5 || f.b.wide))
   else if op == 0xB3 then
     f.a.isReg && atomTy (m % 16) sz && ((sz != 2 && sz != 3) || f.b.wide)
   else if op == 0xB4 then
     f.d == 0 && f.a.isReg && (f.ord == 0 || f.ord == 2) && m / 16 % 2 == 0 && atomTy (m % 16) sz
       && ((sz != 2 && sz != 3) || f.b.wide)
   else false)

/-- CAS64 (R229). -/
def wfCas (f : CasF) : Bool := f.att.toNat < 3 && f.scope.toNat < 7 && f.a.isReg && f.b.wide

/-- A CCTL operation (R232): the line forms name an address pair. -/
def wfCctl (code : Nat) (f : LineF) : Bool :=
  f.att.toNat < 3 && !f.l1 && !f.w &&
  (if code == 0 || code == 2 then f.a.isZero else (code == 1 || code == 3) && f.a.isReg)

/-- ACOPY (R233). -/
def wfCopy (f : CopyF) : Bool :=
  f.att.toNat < 3 && scaRegOk f.d && f.a.isS && f.b.isS && f.c.uniform

/-- BAR and BAR.grid (R236). -/
def wfBar (grid : Bool) (f : BarF) : Bool :=
  if grid then f.no == 0 && !f.cnt && f.a.isZero else if f.cnt then f.a.uniform else f.a.isZero

/-- Barrier objects and futures (R241, R243). -/
def wfSync (op : Nat) (f : SyncF) : Bool :=
  f.att.toNat < 3 && f.scope.toNat < 7 &&
  (if op == 0xBB then f.d == 0 && f.a.isS && f.b.uniform
   else if op == 0xBC then scaOk f.d && f.a.isS && f.b.uniform
   else if op == 0xBD then f.d == 0 && f.a.isS && f.b.uniform && f.att == 0
   else if op == 0xBE then f.d == 0 && f.a.isS && f.b.isZero
   else if op == 0xBF then f.a.isReg && f.b.isZero && f.att == 0
   else if op == 0xC0 then f.d == 0 && f.a.isS
   else false)

/-- WATCH, WATCH.clr and DISP (R247, R250). -/
def wfObj (op : Nat) (clr : Bool) (f : ObjF) : Bool :=
  f.att.toNat < 3 &&
  (if op == 0xC1 then scaOk f.d && (if clr then f.a.isZero && f.b.uniform else f.a.isS && f.b.isZero)
   else if op == 0xC2 then scaRegOk f.d && f.a.isS && f.b.isZero && !clr
   else false)

/-- The palette-class forms but PLOOK (R269). -/
def wfPal (op : Nat) (f : PalF) : Bool :=
  let p2 := f.p.toNat < 4
  f.att.toNat < 3 &&
  (if op == 0xD0 then f.d == 0 && f.a.pair && f.b.uniform && (if f.mod then f.c.uniform else f.c.isZero) && p2
   else if op == 0xD2 then f.d == 0 && f.a.isZero && f.b.isZero && f.c.isZero && p2 && f.att == 0 && !f.mod
   else if op == 0xD3 then scaOk f.d && f.a.isZero && f.b.isZero && f.c.isZero && p2 && f.att == 0 && !f.mod
   else if op == 0xD4 || op == 0xD5 then f.d == 0 && f.a.pair && f.b.isZero && f.c.isZero && p2 && !f.mod
   else if op == 0xD6 then f.d == 0 && f.a.isZero && f.b.uniform && f.c.uniform
   else if op == 0xD7 then f.d == 0 && f.a.pair && f.b.uniform && f.c.isZero && !f.mod
   else if op == 0xD8 then f.a.uniform && f.c.uniform && (if f.mod then f.b.uniform else f.b.isZero)
   else if op == 0xD9 then scaOk f.d && f.a.isZero && f.b.isZero && f.c.isZero && f.att == 0 && !f.mod
   else if op == 0xDA then f.d == 0 && f.a.pair && f.b.uniform && f.c.isZero
   else if op == 0xDB then f.d == 0 && (f.a.pair || f.a.isZero) && f.b.isZero && f.c.isZero && f.p == 0 && f.att == 0 && !f.mod
   else if op == 0xDC then f.d == 0 && f.a.pair && f.b.isZero && f.c.isZero && f.p == 0 && !f.mod
   else false)

/-- PLOOK (R269): ALL = 1 with KM ≠ 0 is refused at step 5. -/
def wfPlook (f : PlookF) : Bool :=
  f.att.toNat < 3 && f.a.pair && f.b.uniform && (!f.all || f.km == 0)

/-- CSR numbers of R300. -/
def csrListed (n : Nat) : Bool :=
  n < 2 || (0x10 ≤ n && n < 0x1A) || n == 0x20 || n == 0x21 || (0x30 ≤ n && n < 0x35)

/-- The engine and system forms of X layout (R284, R285, R299, R305). -/
def wfSys (op : Nat) (f : SysF) : Bool :=
  f.att.toNat < 3 &&
  (if op == 0xE0 then f.d == 0 && f.a.pair && f.num == 0 && !f.host
   else if op == 0xE3 then scaRegOk f.d && f.a.pair && f.num == 0 && !f.host
   else if op == 0xE4 then scaOk f.d && csrListed f.num.toNat && f.a.isZero && f.att == 0 && !f.host
   else if op == 0xE5 then csrListed f.num.toNat && f.d == 0 && f.a.uniform && f.att == 0 && !f.host
   else if op == 0xE8 then scaRegOk f.d && f.a.isZero && f.num.toNat < 12 && !f.host
   else if op == 0xEA then f.d == 0 && (f.a.pair || f.a.isZero) && f.num == 0 && !f.host
   else if op == 0xEB then f.d == 0 && f.a.pair && f.num == 0
   else false)

/-- The instruction has a word that passes steps 1 and 4 to 7 of R154. An event has none. -/
def Enc.wf : Enc → Bool
  | .rk op f => wfRk op f
  | .bra _ => true
  | .call f => f.vs != 255
  | .jset f => f.mask.uniform
  | .loop f => f.lvl.toNat < 3 && f.count.uniform
  | .lbrk f => f.lvl.toNat < 3
  | .mem op f => wfMem op f
  | .cas f => wfCas f
  | .fence f => f.scope.toNat < 7
  | .pref f => f.att.toNat < 3 && f.a.isReg
  | .cctl code f => wfCctl code f
  | .acopy f => wfCopy f
  | .bar grid f => wfBar grid f
  | .sync op f => wfSync op f
  | .obj op clr f => wfObj op clr f
  | .pal op f => wfPal op f
  | .plook f => wfPlook f
  | .sys op f => wfSys op f
  | .event => false

/-- A well-formed instruction: one that has a word (R154). -/
def Instr.wf (i : Instr) : Bool := i.enc.wf

end Sys2Proof
end

