-- ==== Sys2Proof/Decode.lean ====
section
/-! DEFINITION. The decoder, total on every 64-bit word, which refuses by name, and after it the encoder (R120 to R122,
R130 to R137, R149 to R154 and the X layouts of the instruction chapters). -/
namespace Sys2Proof

/-- Why a word has no instruction: the step of R154 that fails. Each is an ILLOP trap with tval 0. -/
inductive Reject
  /-- step 1: the opcode is unassigned or a mark -/
  | opcode
  /-- step 4: a format the form does not admit -/
  | format
  /-- step 5: a reserved or unused bit is set -/
  | bits
  /-- step 6: a reserved type code -/
  | type
  /-- step 7: a reserved source code -/
  | source
  /-- steps 4 to 7: the operands fail a check of the form -/
  | operands
deriving DecidableEq, Repr

/-- Bits [lo + n − 1 : lo] of w, with `p` = 2^lo and `q` = 2^n. -/
def bits (w p q : Nat) : Nat := w / p % q

/-- Source field (R133). -/
def Src.ofCode (c : Nat) : Option Src :=
  if c < 0x100 then some (.v (BitVec.ofNat 8 c))
  else if c < 0x140 then some (.s (BitVec.ofNat 6 (c - 0x100)))
  else if c < 0x150 then some (.sp (BitVec.ofNat 4 (c - 0x140)))
  else if c < 0x158 then some (.q (BitVec.ofNat 3 (c - 0x150)))
  else if c = 0x158 then some .lit
  else if c < 0x200 then none
  else if c < 0x300 then some (.imm (BitVec.ofNat 8 (c - 0x200)))
  else if c < 0x308 then some (.k (BitVec.ofNat 3 (c - 0x300)))
  else none

/-- Type field (R137). -/
def Ty.ofCode : Nat → Option Ty
  | 0 => some .i32 | 1 => some .n32 | 2 => some .i64 | 3 => some .n64 | 4 => some .i16x2 | 5 => some .n16x2
  | 6 => some .i8x4 | 7 => some .n8x4 | 8 => some .f32 | 9 => some .f16x2 | 10 => some .bf16x2 | _ => none

/-- Opcode, bits [63:56]. -/
def opOf (w : Nat) : Nat := bits w 0x100000000000000 0x100
/-- Format F, bits [55:54] (R130). -/
def fmtOf (w : Nat) : Nat := bits w 0x40000000000000 4
/-- Guard, bits [53:50]. -/
def guardOf (w : Nat) : Guard := ⟨BitVec.ofNat 3 (bits w 0x8000000000000 8), bits w 0x4000000000000 2 == 1⟩
/-- D, bits [49:42]. -/
def dOf (w : Nat) : Nat := bits w 0x40000000000 0x100
/-- A, bits [41:32]. -/
def aOf (w : Nat) : Nat := bits w 0x100000000 0x400
/-- Bits [31:0]. -/
def loOf (w : Nat) : Nat := w % 0x100000000

/-- A source code, or step 7's refusal. -/
def decSrc (c : Nat) : Except Reject Src :=
  match Src.ofCode c with
  | some s => .ok s
  | none => .error .source
/-- A type code, or step 6's refusal. -/
def decTy (c : Nat) : Except Reject Ty :=
  match Ty.ofCode c with
  | some t => .ok t
  | none => .error .type
/-- A check of step 5. -/
def need (b : Bool) : Except Reject Unit := if b then .ok () else .error .bits

/-- Bits [31:0] of the formats R, K and I (R131). -/
def decBody (w : Nat) : Except Reject Body :=
  let lo := loOf w
  match fmtOf w with
  | 0 => do
    let t ← decTy (bits lo 0x100 0x10)
    let b ← decSrc (bits lo 0x400000 0x400)
    let c ← decSrc (bits lo 0x1000 0x400)
    .ok (.r b c t (BitVec.ofNat 8 (lo % 0x100)))
  | 1 => do
    let t ← decTy (bits lo 0x100 0x10)
    .ok (.k (BitVec.ofNat 3 (bits lo 0x20000000 8)) (BitVec.ofNat 17 (bits lo 0x1000 0x20000)) t
      (BitVec.ofNat 8 (lo % 0x100)))
  | 2 => .ok (.i (BitVec.ofNat 32 lo))
  | _ => .error .format

/-- A word of format R, K or I. -/
def decRk (w : Nat) : Except Reject Rk := do
  let body ← decBody w
  let a ← decSrc (aOf w)
  .ok ⟨guardOf w, BitVec.ofNat 8 (dOf w), a, body⟩

/-- MOD field of a palette form read as its one modifier bit. -/
def decBit (x : Nat) : Except Reject Bool := if x = 0 then .ok false else if x = 1 then .ok true else .error .bits

/-- The fields of R215 shared by the memory and synchronisation forms. -/
def decMem (w : Nat) : Except Reject MemF := do
  let lo := loOf w
  let a ← decSrc (aOf w)
  let b ← decSrc (bits lo 0x400000 0x400)
  .ok ⟨guardOf w, BitVec.ofNat 8 (dOf w), a, b, BitVec.ofNat 2 (bits lo 0x100000 4), BitVec.ofNat 3 (bits lo 0x20000 8),
    BitVec.ofNat 3 (bits lo 0x4000 8), BitVec.ofNat 6 (bits lo 0x100 0x40), BitVec.ofNat 2 (bits lo 0x40 4),
    BitVec.ofNat 6 (lo % 0x40)⟩

/-- CAS64 (R229). -/
def decCas (w : Nat) : Except Reject CasF := do
  let lo := loOf w
  need (lo % 0x10 == 0 && bits lo 0x20 2 == 0)
  let a ← decSrc (aOf w)
  let b ← decSrc (bits lo 0x400000 0x400)
  .ok ⟨guardOf w, BitVec.ofNat 8 (dOf w), a, b, BitVec.ofNat 2 (bits lo 0x100000 4), BitVec.ofNat 3 (bits lo 0x20000 8),
    bits lo 0x10000 2 == 1, BitVec.ofNat 8 (bits lo 0x100 0x100), BitVec.ofNat 2 (bits lo 0x40 4), bits lo 0x10 2 == 1⟩

/-- PREF and CCTL (R231, R232): only A, ATT and MOD. -/
def decLine (w : Nat) : Except Reject (Src × BitVec 2 × Nat) := do
  let lo := loOf w
  need (dOf w == 0 && bits lo 0x100 0x1000000 == 0)
  let a ← decSrc (aOf w)
  .ok (a, BitVec.ofNat 2 (bits lo 0x40 4), lo % 0x40)

/-- ACOPY (R233). -/
def decCopy (w : Nat) : Except Reject CopyF := do
  let lo := loOf w
  need (bits lo 0x100 0x10 == 0 && lo % 0x40 == 0)
  let a ← decSrc (aOf w)
  let b ← decSrc (bits lo 0x400000 0x400)
  let c ← decSrc (bits lo 0x1000 0x400)
  .ok ⟨guardOf w, BitVec.ofNat 8 (dOf w), a, b, c, BitVec.ofNat 2 (bits lo 0x40 4)⟩

/-- BAR and BAR.grid (R236). -/
def decBar (w : Nat) : Except Reject (Bool × BarF) := do
  let lo := loOf w
  need (dOf w == 0 && bits lo 0x1000 0x400 == 0 && lo % 0x800 == 0)
  let a ← decSrc (aOf w)
  .ok (bits lo 0x400000 2 == 1, ⟨guardOf w, a, BitVec.ofNat 9 (bits lo 0x800000 0x200), bits lo 0x800 2 == 1⟩)

/-- Ordering code that a synchronisation form fixes (R241, R243). -/
def syncOrd (op : Nat) : Nat := if op = 0xBC || op = 0xC0 then 2 else if op = 0xBD || op = 0xBF then 1 else 0

/-- SYNCSET, SYNCHIT, SYNCHOLD, SYNCDROP, FWAIT and FPUT (R241, R243). -/
def decSync (op w : Nat) : Except Reject SyncF := do
  let lo := loOf w
  need (bits lo 0x100000 4 == syncOrd op && bits lo 0x100 0x200 == 0 && lo % 0x40 == 0)
  let a ← decSrc (aOf w)
  let b ← decSrc (bits lo 0x400000 0x400)
  .ok ⟨guardOf w, BitVec.ofNat 8 (dOf w), a, b, BitVec.ofNat 3 (bits lo 0x20000 8), BitVec.ofNat 2 (bits lo 0x40 4)⟩

/-- WATCH, WATCH.clr and DISP (R247, R250). -/
def decObj (w : Nat) : Except Reject (Bool × ObjF) := do
  let lo := loOf w
  need (bits lo 0x100 0x4000 == 0)
  let clr ← decBit (lo % 0x40)
  let a ← decSrc (aOf w)
  let b ← decSrc (bits lo 0x400000 0x400)
  .ok (clr, ⟨guardOf w, BitVec.ofNat 8 (dOf w), a, b, BitVec.ofNat 2 (bits lo 0x40 4)⟩)

/-- The palette forms but PLOOK (R269). -/
def decPal (w : Nat) : Except Reject PalF := do
  let lo := loOf w
  let m ← decBit (lo % 0x40)
  let a ← decSrc (aOf w)
  let b ← decSrc (bits lo 0x400000 0x400)
  let c ← decSrc (bits lo 0x1000 0x400)
  .ok ⟨guardOf w, BitVec.ofNat 8 (dOf w), a, b, c, BitVec.ofNat 4 (bits lo 0x100 0x10), BitVec.ofNat 2 (bits lo 0x40 4), m⟩

/-- PLOOK (R269). -/
def decPlook (w : Nat) : Except Reject PlookF := do
  let lo := loOf w
  need (dOf w == 0)
  let a ← decSrc (aOf w)
  let b ← decSrc (bits lo 0x400000 0x400)
  .ok ⟨guardOf w, a, b, BitVec.ofNat 8 (bits lo 0x4000 0x100), BitVec.ofNat 2 (bits lo 0x1000 4),
    BitVec.ofNat 4 (bits lo 0x100 0x10), BitVec.ofNat 2 (bits lo 0x40 4), BitVec.ofNat 3 (bits lo 8 8),
    bits lo 4 2 == 1, bits lo 2 2 == 1, lo % 2 == 1⟩

/-- The engine and system forms of X layout (R285): PERFRD's number lies in [19:12], a CSR's in [31:20]. -/
def decSys (op w : Nat) : Except Reject SysF := do
  let lo := loOf w
  need (bits lo 0x100 0x10 == 0)
  let host ← decBit (lo % 0x40)
  let a ← decSrc (aOf w)
  need (if op = 0xE8 then bits lo 0x100000 0x1000 == 0 else bits lo 0x1000 0x100 == 0)
  .ok ⟨guardOf w, BitVec.ofNat 8 (dOf w), a,
    BitVec.ofNat 12 (if op = 0xE8 then bits lo 0x1000 0x100 else bits lo 0x100000 0x1000),
    BitVec.ofNat 2 (bits lo 0x40 4), host⟩

/-- Bits [49:0] but A must be 0 in FENCE, save KIND and SCOPE (R230). -/
def decFence (w : Nat) : Except Reject FenceF := do
  let lo := loOf w
  need (dOf w == 0 && aOf w == 0 && lo % 0x20000 == 0 && bits lo 0x400000 0x400 == 0)
  .ok ⟨guardOf w, BitVec.ofNat 2 (bits lo 0x100000 4), BitVec.ofNat 3 (bits lo 0x20000 8)⟩

/-- The X-format control words (R173). -/
def decBra (w : Nat) : Except Reject BraF := do
  need (dOf w == 0 && aOf w == 0)
  .ok ⟨guardOf w, BitVec.ofNat 32 (loOf w)⟩
def decCall (w : Nat) : Except Reject CallF := do
  need (dOf w == 0)
  if aOf w < 0x100 then .ok ⟨guardOf w, BitVec.ofNat 8 (aOf w), BitVec.ofNat 32 (loOf w)⟩ else .error .source
def decJset (w : Nat) : Except Reject JsetF := do
  need (dOf w % 0x10 == 0)
  let a ← decSrc (aOf w)
  .ok ⟨guardOf w, BitVec.ofNat 4 (dOf w / 0x10), a, BitVec.ofNat 32 (loOf w)⟩
def decLoop (w : Nat) : Except Reject LoopF := do
  need (dOf w % 0x40 == 0 && loOf w < 0x10000)
  let a ← decSrc (aOf w)
  .ok ⟨guardOf w, BitVec.ofNat 2 (dOf w / 0x40), a, BitVec.ofNat 16 (loOf w)⟩
def decLbrk (w : Nat) : Except Reject LbrkF := do
  need (dOf w % 0x40 == 0 && aOf w == 0 && loOf w == 0)
  .ok ⟨guardOf w, BitVec.ofNat 2 (dOf w / 0x40)⟩

/-- The X layouts are marked F = 11; the opcode selects the layout (R131, R149). -/
def decX (op w : Nat) : Except Reject Enc :=
  if op = 0x31 then (decBra w).map .bra
  else if op = 0x33 then (decCall w).map .call
  else if op = 0x35 then (decJset w).map .jset
  else if op = 0x37 then (decLoop w).map .loop
  else if op = 0x38 then (decLbrk w).map .lbrk
  else if op < 0xB5 then (decMem w).map (.mem op)
  else if op = 0xB5 then (decCas w).map .cas
  else if op = 0xB6 then (decFence w).map .fence
  else if op = 0xB7 then do
    let (a, att, m) ← decLine w
    need (m < 4)
    .ok (.pref ⟨guardOf w, a, att, m % 2 == 1, m / 2 == 1⟩)
  else if op = 0xB8 then do
    let (a, att, m) ← decLine w
    .ok (.cctl m ⟨guardOf w, a, att, false, false⟩)
  else if op = 0xB9 then (decCopy w).map .acopy
  else if op = 0xBA then (decBar w).map (fun x => .bar x.1 x.2)
  else if op < 0xC1 then (decSync op w).map (.sync op)
  else if op < 0xC3 then (decObj w).map (fun x => .obj op x.1 x.2)
  else if op = 0xD1 then (decPlook w).map .plook
  else if op < 0xE0 then (decPal w).map (.pal op)
  else (decSys op w).map (.sys op)

/-- Opcodes of the forms with an X layout (R151). -/
def isXop (op : Nat) : Bool :=
  op == 0x31 || op == 0x33 || op == 0x35 || op == 0x37 || op == 0x38 || (0xB0 ≤ op && op < 0xC3)
    || (0xD0 ≤ op && op < 0xDD) || op == 0xE0 || op == 0xE3 || op == 0xE4 || op == 0xE5 || op == 0xE8 || op == 0xEA || op == 0xEB

/-- The layout of a word, and its fields. -/
def decEnc (w : Nat) : Except Reject Enc :=
  let op := opOf w
  if isXop op then (if fmtOf w = 3 then decX op w else .error .format)
  else match rkFormOf op with
    | none => .error .opcode
    | some _ => (decRk w).map (.rk op)

/-- Forms of format R, K or I by opcode (R149). -/
def rkInt : List (Nat × (Rk → Instr)) :=
  [(0x01, .iadd), (0x02, .isub), (0x03, .imul), (0x04, .imulh), (0x05, .imad), (0x06, .imadw), (0x07, .iadd64),
   (0x08, .isub64), (0x09, .idiv), (0x0A, .irem), (0x0B, .imin), (0x0C, .imax), (0x0D, .iabs), (0x0E, .and), (0x0F, .or),
   (0x10, .xor), (0x11, .andn), (0x12, .shl), (0x13, .shr), (0x14, .sar), (0x15, .rot), (0x16, .bfe), (0x17, .bfi),
   (0x18, .popc), (0x19, .clz), (0x1A, .ctz), (0x1B, .brev), (0x1C, .lea), (0x1D, .icmp), (0x1E, .ipick), (0x1F, .mov),
   (0x20, .movi)]
def rkLane : List (Nat × (Rk → Instr)) :=
  [(0x21, .ltest), (0x22, .ltestS), (0x23, .lxch), (0x24, .lfold), (0x25, .scan), (0x26, .lsame), (0x27, .pset),
   (0x28, .pmov), (0x30, .nop), (0x32, .jmp), (0x34, .ret), (0x36, .jwait), (0x39, .exit), (0x3A, .yield), (0x3B, .trap),
   (0x3C, .tret)]
def rkSca : List (Nat × (Rk → Instr)) :=
  [(0x41, .iaddS), (0x42, .isubS), (0x43, .imulS), (0x44, .imulhS), (0x45, .imadS), (0x47, .iadd64S), (0x48, .isub64S),
   (0x49, .idivS), (0x4A, .iremS), (0x4B, .iminS), (0x4C, .imaxS), (0x4D, .iabsS), (0x4E, .andS), (0x4F, .orS),
   (0x50, .xorS), (0x51, .andnS), (0x52, .shlS), (0x53, .shrS), (0x54, .sarS), (0x55, .rotS), (0x56, .bfeS),
   (0x57, .bfiS), (0x58, .popcS), (0x59, .clzS), (0x5A, .ctzS), (0x5B, .brevS), (0x5C, .leaS), (0x5E, .ipickS),
   (0x5F, .movS), (0x60, .moviS)]
def rkFp : List (Nat × (Rk → Instr)) :=
  [(0x70, .fadd), (0x71, .fsub), (0x72, .fmul), (0x73, .ffma), (0x74, .fmin), (0x75, .fmax), (0x76, .fcmp),
   (0x77, .fpick), (0x78, .fclass), (0x79, .frnd), (0x7A, .fscale), (0x80, .fdiv), (0x81, .rcp), (0x82, .rsq),
   (0x83, .sqrt), (0x84, .log2), (0x85, .exp2), (0x86, .sin), (0x87, .cos), (0x88, .tanh), (0x89, .cvt), (0x8A, .bpack),
   (0x8B, .bunpack), (0x8C, .cvtS), (0x90, .faddS), (0x91, .fsubS), (0x92, .fmulS), (0x93, .ffmaS), (0x94, .fminS),
   (0x95, .fmaxS), (0x97, .fpickS), (0xC3, .qbind), (0xC4, .qeos), (0xC5, .qstat), (0xE1, .give), (0xE2, .claim),
   (0xE6, .pkrwr), (0xE7, .tstamp), (0xE9, .sleep), (0xEC, .halt)]
/-- The constructor of an opcode of format R, K or I. -/
def rkCtor (op : Nat) : Option (Rk → Instr) :=
  (if op < 0x21 then rkInt else if op < 0x40 then rkLane else if op < 0x61 then rkSca else rkFp).lookup op

def memCtor : List (Nat × (MemF → Instr)) := [(0xB0, .ld), (0xB1, .ldS), (0xB2, .st), (0xB3, .atom), (0xB4, .red)]
def cctlCtor : List (Nat × (LineF → Instr)) :=
  [(0, .cctlIvl1), (1, .cctlIvline), (2, .cctlIvconst), (3, .cctlEvl2)]
def syncCtor : List (Nat × (SyncF → Instr)) :=
  [(0xBB, .syncset), (0xBC, .synchit), (0xBD, .synchold), (0xBE, .syncdrop), (0xBF, .fwait), (0xC0, .fput)]
def palCtor : List (Nat × (PalF → Instr)) :=
  [(0xD0, .pbuild), (0xD2, .pinv), (0xD3, .pstat), (0xD4, .pspill), (0xD5, .pfill), (0xD6, .azero), (0xD7, .aload),
   (0xD8, .aread), (0xD9, .aver), (0xDA, .adrain), (0xDB, .rfence), (0xDC, .srld)]
def sysCtor : List (Nat × (SysF → Instr)) :=
  [(0xE0, .spawn), (0xE3, .ejob), (0xE4, .csrrd), (0xE5, .csrwr), (0xE8, .perfrd), (0xEA, .icinv), (0xEB, .bias)]

/-- The instruction of a layout. -/
def Enc.instr : Enc → Option Instr
  | .rk op f => (rkCtor op).map (· f)
  | .bra f => some (.bra f)
  | .call f => some (.call f)
  | .jset f => some (.jset f)
  | .loop f => some (.loop f)
  | .lbrk f => some (.lbrk f)
  | .mem op f => (memCtor.lookup op).map (· f)
  | .cas f => some (.cas64 f)
  | .fence f => some (.fence f)
  | .pref f => some (.pref f)
  | .cctl code f => (cctlCtor.lookup code).map (· f)
  | .acopy f => some (.acopy f)
  | .bar grid f => some (if grid then .barGrid f else .bar f)
  | .sync op f => (syncCtor.lookup op).map (· f)
  | .obj op clr f => if op = 0xC1 then some (if clr then .watchClr f else .watch f) else if clr then none else some (.disp f)
  | .pal op f => (palCtor.lookup op).map (· f)
  | .plook f => some (.plook f)
  | .sys op f => (sysCtor.lookup op).map (· f)
  | .event => none

/-- The decoder: the instruction of a 64-bit word, or the reason it has none (R149 to R154 steps 1 and 4 to 7). -/
def decode (w : Nat) : Except Reject Instr :=
  match decEnc w with
  | .error e => .error e
  | .ok e => if e.wf then (match e.instr with | some i => .ok i | none => .error .bits) else .error .operands

/-- The instruction that the decoder reads from a table word: one 64-bit word, bit 0 its least significant. -/
def decodeTableWord (_nbits w : Nat) : Option Instr :=
  match decode (w % 0x10000000000000000) with
  | .ok i => some i
  | .error _ => none

/-! Clause headers (R121, R122). -/

/-- A clause header. -/
structure Header where
  cls : Nat
  count : Nat
  wait : BitVec 12
  seta : Nat
  setb : Nat
  lit : BitVec 32
deriving DecidableEq, Repr

/-- The header of a word, or none where it raises ILLCL (R122). -/
def decodeHeader (w : Nat) : Option Header :=
  let h : Header := ⟨bits w 0x200000000000000 8, bits w 0x20000000000000 0x10 + 1,
    BitVec.ofNat 12 (bits w 0x20000000000 0x1000), bits w 0x2000000000 0x10, bits w 0x200000000 0x10,
    BitVec.ofNat 32 (loOf w)⟩
  if bits w 0x1000000000000000 0x10 == 10 && h.cls < 6 && (h.seta < 12 || h.seta == 15) && (h.setb < 12 || h.setb == 15)
    && bits w 0x100000000 2 == 0 then some h else none

/-- The clause class that names a home class (R121). -/
def Home.code : Home → Nat
  | .alu => 0 | .mem => 1 | .pal => 2 | .sfu => 3 | .sys => 4 | .ctl => 5

/-- Home class of a layout (R151). -/
def Enc.home : Enc → Home
  | .rk op _ => match rkFormOf op with
    | some f => f.home
    | none => .alu
  | .bra _ | .call _ | .jset _ | .loop _ | .lbrk _ => .ctl
  | .mem _ _ | .cas _ | .fence _ | .pref _ | .cctl _ _ | .acopy _ | .bar _ _ | .sync _ _ | .obj _ _ _ => .mem
  | .pal _ _ | .plook _ => .pal
  | .sys _ _ => .sys
  | .event => .alu

/-- Stands only as the last instruction of its clause (R124). -/
def Enc.last : Enc → Bool
  | .rk op _ => match rkFormOf op with
    | some f => f.last
    | none => false
  | .bra _ | .call _ | .loop _ | .lbrk _ | .bar _ _ => true
  | .sync op _ => op == 0xBD || op == 0xBF
  | _ => false

/-- Long-latency forms (R127, R151). -/
def Enc.long : Enc → Bool
  | .rk op _ => match rkFormOf op with
    | some f => f.long
    | none => false
  | .mem _ _ | .cas _ | .pref _ | .cctl _ _ | .acopy _ | .obj _ _ _ | .plook _ => true
  | .sync op _ => op != 0xBD && op != 0xBF
  | .pal op _ => op != 0xD2 && op != 0xD3 && op != 0xD9 && op != 0xDB
  | .sys op _ => op != 0xE4 && op != 0xE5
  | _ => false

/-- The ATT field (R127, R132). -/
def Enc.att : Enc → Nat
  | .rk _ f => match f.body with
    | .r _ _ _ m => m.toNat / 64
    | .k _ _ _ m => m.toNat / 64
    | .i _ => 0
  | .mem _ f => f.att.toNat
  | .cas f => f.att.toNat
  | .pref f => f.att.toNat
  | .cctl _ f => f.att.toNat
  | .acopy f => f.att.toNat
  | .sync _ f => f.att.toNat
  | .obj _ _ f => f.att.toNat
  | .pal _ f => f.att.toNat
  | .plook f => f.att.toNat
  | .sys _ f => f.att.toNat
  | _ => 0

/-- The guard field. -/
def Enc.guard : Enc → Guard
  | .rk _ f => f.gd
  | .bra f => f.gd
  | .call f => f.gd
  | .jset f => f.gd
  | .loop f => f.gd
  | .lbrk f => f.gd
  | .mem _ f => f.gd
  | .cas f => f.gd
  | .fence f => f.gd
  | .pref f => f.gd
  | .cctl _ f => f.gd
  | .acopy f => f.gd
  | .bar _ f => f.gd
  | .sync _ f => f.gd
  | .obj _ _ f => f.gd
  | .pal _ f => f.gd
  | .plook f => f.gd
  | .sys _ f => f.gd
  | .event => ⟨0, false⟩

/-! The encoder. -/

def Src.code : Src → Nat
  | .v n => n.toNat
  | .s n => 0x100 + n.toNat
  | .sp n => 0x140 + n.toNat
  | .q n => 0x150 + n.toNat
  | .lit => 0x158
  | .imm n => 0x200 + n.toNat
  | .k n => 0x300 + n.toNat

def Ty.code : Ty → Nat
  | .i32 => 0 | .n32 => 1 | .i64 => 2 | .n64 => 3 | .i16x2 => 4 | .n16x2 => 5 | .i8x4 => 6 | .n8x4 => 7
  | .f32 => 8 | .f16x2 => 9 | .bf16x2 => 10

def bit (b : Bool) : Nat := if b then 1 else 0

/-- OP, F, G, GN, D and A placed (R130). -/
def encTop (op fmt : Nat) (g : Guard) (d a lo : Nat) : Nat :=
  op * 0x100000000000000 + fmt * 0x40000000000000 + g.g.toNat * 0x8000000000000 + bit g.neg * 0x4000000000000
    + d * 0x40000000000 + a * 0x100000000 + lo

def Body.fmt : Body → Nat
  | .r _ _ _ _ => 0
  | .k _ _ _ _ => 1
  | .i _ => 2
/-- Bits [31:0] of the formats R, K and I (R131). -/
def Body.lo : Body → Nat
  | .r b c t m => b.code * 0x400000 + c.code * 0x1000 + t.code * 0x100 + m.toNat
  | .k w off t m => w.toNat * 0x20000000 + off.toNat * 0x1000 + t.code * 0x100 + m.toNat
  | .i n => n.toNat

/-- The word of a layout. -/
def Enc.word : Enc → Option Nat
  | .rk op f => some (encTop op f.body.fmt f.gd f.d.toNat f.a.code f.body.lo)
  | .bra f => some (encTop 0x31 3 f.gd 0 0 f.off.toNat)
  | .call f => some (encTop 0x33 3 f.gd 0 f.vs.toNat f.off.toNat)
  | .jset f => some (encTop 0x35 3 f.gd (f.n.toNat * 0x10) f.mask.code f.off.toNat)
  | .loop f => some (encTop 0x37 3 f.gd (f.lvl.toNat * 0x40) f.count.code f.stop.toNat)
  | .lbrk f => some (encTop 0x38 3 f.gd (f.lvl.toNat * 0x40) 0 0)
  | .mem op f => some (encTop op 3 f.gd f.d.toNat f.a.code
      (f.b.code * 0x400000 + f.ord.toNat * 0x100000 + f.scope.toNat * 0x20000 + f.sz.toNat * 0x4000 + f.off6.toNat * 0x100
        + f.att.toNat * 0x40 + f.mod.toNat))
  | .cas f => some (encTop 0xB5 3 f.gd f.d.toNat f.a.code
      (f.b.code * 0x400000 + f.ord.toNat * 0x100000 + f.scope.toNat * 0x20000 + bit f.newS * 0x10000 + f.new.toNat * 0x100
        + f.att.toNat * 0x40 + bit f.lk * 0x10))
  | .fence f => some (encTop 0xB6 3 f.gd 0 0 (f.kind.toNat * 0x100000 + f.scope.toNat * 0x20000))
  | .pref f => some (encTop 0xB7 3 f.gd 0 f.a.code (f.att.toNat * 0x40 + bit f.w * 2 + bit f.l1))
  | .cctl code f => some (encTop 0xB8 3 f.gd 0 f.a.code (f.att.toNat * 0x40 + code))
  | .acopy f => some (encTop 0xB9 3 f.gd f.d.toNat f.a.code (f.b.code * 0x400000 + f.c.code * 0x1000 + f.att.toNat * 0x40))
  | .bar grid f => some (encTop 0xBA 3 f.gd 0 f.a.code (f.no.toNat * 0x800000 + bit grid * 0x400000 + bit f.cnt * 0x800))
  | .sync op f => some (encTop op 3 f.gd f.d.toNat f.a.code
      (f.b.code * 0x400000 + syncOrd op * 0x100000 + f.scope.toNat * 0x20000 + f.att.toNat * 0x40))
  | .obj op clr f => some (encTop op 3 f.gd f.d.toNat f.a.code (f.b.code * 0x400000 + f.att.toNat * 0x40 + bit clr))
  | .pal op f => some (encTop op 3 f.gd f.d.toNat f.a.code
      (f.b.code * 0x400000 + f.c.code * 0x1000 + f.p.toNat * 0x100 + f.att.toNat * 0x40 + bit f.mod))
  | .plook f => some (encTop 0xD1 3 f.gd 0 f.a.code
      (f.b.code * 0x400000 + f.col.toNat * 0x4000 + f.p.toNat * 0x1000 + f.n.toNat * 0x100 + f.att.toNat * 0x40
        + f.km.toNat * 8 + bit f.all * 4 + bit f.sat * 2 + bit f.rebuild))
  | .sys op f => some (encTop op 3 f.gd f.d.toNat f.a.code
      (f.num.toNat * (if op = 0xE8 then 0x1000 else 0x100000) + f.att.toNat * 0x40 + bit f.host))
  | .event => none

/-- The word of a well-formed instruction; a device event has none. -/
def encode (i : Instr) : Option Nat := if i.wf then i.enc.word else none

/-- The word of a clause header (R121). -/
def encodeHeader (h : Header) : Nat :=
  10 * 0x1000000000000000 + h.cls * 0x200000000000000 + (h.count - 1) * 0x20000000000000 + h.wait.toNat * 0x20000000000
    + h.seta * 0x2000000000 + h.setb * 0x200000000 + h.lit.toNat

end Sys2Proof
end

