-- ==== Sys2Proof/Machine/State.lean ====
section
/-! DEFINITION. The state of one package: every piece of state the manual names, as plain data, and the machine right
after power-on reset. Fields named "model's own" are not the manual's; INVENTORY.md lists each with its rule. -/
namespace Sys2Proof.Machine

/-- Why the machine stops with a fault. -/
inductive Fault
  /-- Raised by every instruction of a warp where no sub-group is issuing: nothing executes it. Safe: the manual gives an
  instruction an effect only when a sub-group issues it (R10, R12). -/
  | noIssuer
deriving DecidableEq, Repr

/-- Why an instruction has no meaning. -/
inductive Refusal
  /-- Raised by an arm of the dispatcher whose meaning is not written. Safe. -/
  | notModelled (mnemonic : String)
deriving DecidableEq, Repr

/-! ## Threads and warps -/

/-- Loop state of a sub-group: counters, starts, ends and active bits of levels 0 to 2 (R144). -/
structure LoopState where
  count : List Word
  start : List DWord
  stop : List DWord
  active : BitVec 3
deriving DecidableEq, Repr, Inhabited

/-- A trap as it will be written to the trap CSRs (R310, R311). -/
structure TrapRec where
  cause : BitVec 8
  tpc : DWord
  tinst : DWord
  tmask : Mask
  tval : DWord
  resume : Option DWord
deriving DecidableEq, Repr, Inhabited

/-- What a sub-group does between its clauses (R12, R14). A sub-group in SYNCHOLD, FWAIT or CLAIM stands at that word.
`gridBar n` waits for the grid barrier after n completed ones (R238); `fwait` holds a lane, the physical address and the
address of its future (R245).
`held` marks one that left its clause until palette work of its warp, which waits for a version, is performed (R259, R262,
log 94). -/
inductive SubState
  | ready
  | join (n : Nat)
  | bar (no : Nat)
  | gridBar (n : Nat)
  | syncHold (gid off : Nat) (p : Word) (word tval : Nat)
  | fwait (d : Nat) (lanes : List (Nat × Nat × Nat)) (backoff next : Nat)
  | claim (n word : Nat)
  | sleep (deadline : Nat)
  | parked (fid : Nat)
  | held
deriving DecidableEq, Repr, Inhabited

/-- A started clause (R125): its header's address and word, its instruction words, and the queue values and push entries
reserved for it. -/
structure Clause where
  head : DWord
  word : Nat
  words : List Nat
  pops : List (Nat × List Word)
  pushes : List Nat
deriving DecidableEq, Repr, Inhabited

/-- A sub-group (R11). `pc` is a clause header, or an instruction of the clause whose header is `mid` (R126). Of a clause
that it left early, `owes` holds the flags its unissued words are attached to (R128) and `allot` the vector allotment that
the word at `pc` was accepted under (R292). `brkSkip` is the breakpoint that HCONT passes (R384). -/
structure SubGroup where
  id : Nat
  lanes : Mask
  pc : DWord
  mid : Option DWord
  run : Option Clause
  st : SubState
  loop : LoopState
  pend : Option TrapRec
  handler : Bool
  owes : List Nat
  allot : Nat
  brkSkip : Option DWord
deriving DecidableEq, Repr, Inhabited

/-- A join register (R176). -/
structure Join where
  valid : Bool
  mask : Mask
  arrived : Mask
  pc : DWord
  subs : List Nat
deriving DecidableEq, Repr, Inhabited

/-- What an outstanding long-latency instruction waits for (R127). `free` is one whose effects are all made. -/
inductive OutKind
  | free
  | palette (op : Nat)
  | job (id : Nat)
  | task (id : Nat)
  | flip (page : Nat)
  | parked (sub : Nat)
deriving DecidableEq, Repr, Inhabited

/-- An outstanding long-latency instruction and the flag it is attached to (R127). -/
structure Outst where
  id : Nat
  flag : Option Nat
  kind : OutKind
deriving DecidableEq, Repr, Inhabited

/-- A scalar register that receives an engine job's token (R74): the job, and whether the token has landed. -/
structure Token where
  job : Nat
  landed : Bool
deriving DecidableEq, Repr, Inhabited

/-- One lane of a younger load satisfied before an acquire completes (R32): its address, the physical ranges that a replay
loads, whether all of their words were the core's registered ones, and what its destination held. -/
structure SpecLane where
  lane : Nat
  ptr : Nat
  parts : List (Nat × Nat)
  own : Bool
  old : List Word
deriving DecidableEq, Repr, Inhabited

/-- A younger load satisfied before an acquire completes (R32): its sub-group with the loop state it had, the trap that it
takes where its replay finds poison (R225), its destination and width, and its lanes. -/
structure SpecLoad where
  sub : Nat
  loop : LoopState
  trap : TrapRec
  d : Nat
  size : Nat
  signed : Bool
  lanes : List SpecLane
deriving DecidableEq, Repr, Inhabited

/-- A warp (R9 to R14, R20). -/
structure Warp where
  idx : Nat
  role : Nat
  slot : Nat
  av : Nat
  as : Nat
  vregs : Tbl Word
  sregs : Tbl Word
  preds : Tbl Mask
  joins : Tbl Join
  subs : List SubGroup
  active : Option Nat
  runs : Nat
  live : Mask
  fpmode : Word
  fpflags : Word
  tvec : DWord
  tcause : BitVec 8
  inh : Bool
  tpc : DWord
  tinst : DWord
  tmask : Mask
  tval : DWord
  resume : Option DWord
  pkr : DWord
  locks : Nat
  inRie : Bool
  rieCause : Nat
  rieEnd : Option Nat
  outst : List Outst
  tokens : Tbl Token
  acq : Bool
  spec : List SpecLoad
  priv : Tbl Byte
  privPoison : Tbl Unit
  perf : Tbl DWord
  stopped : Bool
  acc : List TrapRec
  accTiles : List Nat
  accFlags : List Nat
  exited : Bool
  readyAt : Nat
  lockWin : List Bool
deriving DecidableEq, Repr, Inhabited

/-! ## Groups -/

/-- A named barrier (R237): expected count of the phase and whether it came from a count operand, arrived warps. -/
structure NamedBar where
  phase : Nat
  expect : Option Nat
  explicit : Bool
  arrived : Tbl Mask
deriving DecidableEq, Repr, Inhabited

/-- A queue entry (R251): who reserved it, its value once pushed, and the palette operations it still waits for. -/
structure QEntry where
  warp : Nat
  sub : Nat
  val : Option Word
  after : List Nat
deriving DecidableEq, Repr, Inhabited

/-- A queue register (R251 to R254): values reserved at the head by a started clause stand in the clause (R125). -/
structure QueueReg where
  entries : List QEntry
  prod : Nat
  eos : List Nat
  ended : Bool
  dry : List Nat
deriving DecidableEq, Repr, Inhabited

/-- A palette row (R104, R108): e_a, marks, and the 8 × 16 entries. -/
structure PalRow where
  ea : Int
  nonFinite : Bool
  poison : Bool
  t : List Int
deriving DecidableEq, Repr, Inhabited

/-- A build descriptor (R277). -/
structure PalDesc where
  src : DWord
  stride : Nat
  rows : Nat
  fmt : Nat
  rcv : Bool
  member : Nat
  kblk : Nat
deriving DecidableEq, Repr, Inhabited

/-- A palette (R255): its rows, the column-sum rows U of each slab (R109), and the group whose memory holds its source. -/
structure Palette where
  has : Bool
  valid : Bool
  fromFill : Bool
  desc : Option PalDesc
  srcGid : Nat
  rows : List PalRow
  u : List (List Int)
deriving DecidableEq, Repr, Inhabited

/-- An accumulator tile (R256). Elements are keyed 256 · row + column. -/
structure Tile where
  i32 : Bool
  elems : Tbl Word
  pois : Tbl Unit
  chk : Tbl Word
  obs : Tbl Word
  xc : Tbl Word
  ver : BitVec 16
deriving DecidableEq, Repr, Inhabited

/-- A run of bytes in one storage: memory by physical address (and whether its page is not cached), the scratchpad or the
extended local memory of a group, or a thread's private area (R48 to R51, R318). -/
inductive Place
  | phys (pa : Nat) (nc : Bool)
  | scr (gid off : Nat)
  | ext (gid off : Nat)
  | priv (gid warp lane off : Nat)
deriving DecidableEq, Repr

/-- A palette-class operation (R270 to R283), with its shape record. -/
inductive PalKind
  | build (p : Nat) (shape : BitVec 1536) (kb : Nat) (mask : Nat)
  | look (p tile : Nat) (ver : BitVec 16) (shape : BitVec 1536) (k col rows : Nat) (sat rebuild : Bool)
  | spill (p : Nat) (addr : DWord)
  | fill (p : Nat) (addr : DWord) (desc : BitVec 256)
  | zero (tile : Nat) (ver : BitVec 16) (h : Nat) (i32 : Bool)
  | load (tile : Nat) (ver : BitVec 16) (shape : BitVec 1536)
  | read (tile : Nat) (ver : Option (BitVec 16)) (row col d : Nat) (lanes : Mask)
  | drain (tile : Nat) (ver : BitVec 16) (shape : BitVec 1536) (zero : Bool) (word : DWord)
  | copy (p : Nat) (pal : Palette) (owner op : Nat)
  | inv (p : Nat)
deriving DecidableEq, Repr

/-- An accepted palette-class operation not yet completed (R260, R261): the rows, lines or image of its region as they
were translated at issue, the broadcast copies it made, whose installation a performed PBUILD still waits for, and when its
time in the unit is over (R275, log 15). -/
structure PalOp where
  id : Nat
  warp : Nat
  lane : Nat
  pkr : DWord
  kind : PalKind
  rows : List (List (Place × Nat))
  dirty : Bool
  copies : List Nat
  due : Nat
deriving DecidableEq, Repr

/-- A group (R15). -/
structure Group where
  id : Nat
  grid : Nat
  core : Nat
  x : Nat
  y : Nat
  z : Nat
  lin : Nat
  team : Nat
  lent : Option Nat
  admitted : Nat
  warps : List Warp
  pool : Nat
  claims : List (Nat × Nat × Nat)
  scratch : Tbl Byte
  scratchPoison : Tbl Unit
  tags : Tbl Unit
  ext : Tbl Byte
  extPoison : Tbl Unit
  bars : Tbl NamedBar
  queues : Tbl QueueReg
  pals : Tbl Palette
  tiles : Tbl Tile
  palOps : List PalOp
  ooo : BitVec 2
  clkc : Word
  perf : Tbl DWord
  hits : Tbl (List (Nat × Nat) × List (Nat × Nat))
  stop : Option (Nat × Nat)
  killed : Bool
  ended : Bool
  relaunches : Nat
deriving DecidableEq, Repr

/-! ## Grids, tasks and jobs -/

/-- Where a grid stands (R360, R362, R364). -/
inductive GridPhase
  | arming (deadline : Nat)
  | await
  | placing
  | refused
deriving DecidableEq, Repr, Inhabited

/-- A grid accepted on this package: a launch or its replicated share, or a task (R353, R289, R363). -/
structure Grid where
  id : Nat
  pkt : BitVec 1024
  wins : BitVec 1024
  ctx : Nat
  queue : Option Nat
  origin : Nat
  gen : Word
  depth : Nat
  root : Nat
  prio : Nat
  accepted : Nat
  phase : GridPhase
  last : Nat
  next : Nat
  waitSince : Nat
  blocking : Bool
  relaunch : List (Nat × Nat)
  tstart : Nat
  counts : Tbl Nat
  crossed : Tbl Unit
  kill : Option Nat
  status : Option Nat
  dropped : Bool
  gbDone : Nat
  gbNext : Option (Nat × Nat)
  gbSent : Bool
  lastEnd : Nat
  armed : List Nat
  dones : List Nat
  done : Bool
  maxp : Nat
deriving DecidableEq, Repr

/-- A pending task of SPAWN or WATCH (R287, R248, R289). -/
structure Task where
  id : Nat
  die : Nat
  pkt : BitVec 1024
  wins : BitVec 1024
  ctx : Nat
  depth : Nat
  root : Nat
  maxp : Nat
  watch : Option Nat
  addr : DWord
  unread : Bool
  accepted : Bool
  held : Bool
deriving DecidableEq, Repr

/-- State of an engine job (R235, R296, R325, R388). -/
inductive JobState
  | queued
  | accepted
  | locked
  | stalled (fid : Nat)
  | suspended
  | ended
deriving DecidableEq, Repr, Inhabited

/-- An engine job (R293): card, or the copy of an ACOPY (R233), with the keys it captured, the records it has read and its
progress. `lock` says that it holds its stream's LOCK (R325), or that its collective has started (R406); `skipped` counts units
not written (R76); `ranks` holds the parts of a collective that have arrived, its own among them. -/
structure Job where
  id : Nat
  gid : Nat
  warp : Nat
  lane : Nat
  tok : Nat
  engine : Nat
  card : BitVec 2048
  acopy : Bool
  malformed : Bool
  pkr : DWord
  ctx : Nat
  die : Nat
  st : JobState
  seq : Nat
  eng : Nat
  recs : List (BitVec 1536)
  lock : Bool
  unit : Nat
  pois : Bool
  tagHit : Bool
  status : Nat
  corrupt : Nat
  tainted : Nat
  fstat : List Word
  width : Nat
  height : Nat
  off : Nat
  since : Nat
  skipped : Nat
  ranks : List RankData
deriving DecidableEq, Repr

/-! ## Memory system -/

/-- A TLB entry of a core or a die (R378): context, virtual page of 4 KiB, leaf and its level. -/
structure TlbEntry where
  unit : Nat
  pteAt : Nat
  ctx : Nat
  vpn : Nat
  leaf : Nat
  level : Nat
deriving DecidableEq, Repr, Inhabited

/-- An entry held by a walk cache (R378): die, context, level, index prefix and the table entry. -/
structure WalkEntry where
  die : Nat
  ctx : Nat
  level : Nat
  pre : Nat
  pte : Nat
deriving DecidableEq, Repr, Inhabited

/-- A reduction buffer entry (R69). -/
structure RedEntry where
  core : Nat
  pa : Nat
  op : Nat
  ty : Nat
  val : DWord
  scope : Nat
  gids : List Nat
  root : Nat
deriving DecidableEq, Repr, Inhabited

/-- MSI directory state of a line (R395): dies that hold copies, or the die that may write. -/
inductive Msi
  | i
  | s (dies : List Nat)
  | m (die : Nat)
deriving DecidableEq, Repr, Inhabited

/-- State of a 64-byte half-line of host memory in a die's bridge (R396). -/
inductive Half
  | i | s | e | m
deriving DecidableEq, Repr, Inhabited

/-- A cached shape record (R267). -/
structure ShapeEntry where
  core : Nat
  ctx : Nat
  addr : Nat
  shape : BitVec 1536
deriving DecidableEq, Repr, Inhabited

/-- A host request held during a bias flip (R343). -/
inductive HeldReq
  | read (pa : Nat)
  | write (pa : Nat) (data : List Byte)
  | inv (pa : Nat)
deriving DecidableEq, Repr, Inhabited

/-- A bias flip in progress (R83, R344): page, new bias, the blocks of 256 bytes whose BIRsp is still to come, requests held in
order. -/
structure Flip where
  page : Nat
  host : Bool
  birsp : List Nat
  held : List HeldReq
deriving DecidableEq, Repr, Inhabited

/-- A WATCH entry (R247). -/
structure WatchEntry where
  handle : Nat
  ctx : Nat
  pa : Nat
  len : Nat
  mask : Word
  pat : Word
  persist : Bool
  task : DWord
  pending : Option Nat
  root : Nat
  maxp : Nat
  gen : Word
deriving DecidableEq, Repr, Inhabited

/-- A futures wait (R245): the physical address awaited, and the waiting sub-group. -/
structure FutureWait where
  pa : Nat
  gid : Nat
  warp : Nat
  sub : Nat
deriving DecidableEq, Repr, Inhabited

/-! ## Faults and contexts -/

/-- Who waits for a fault's reply (R385). -/
inductive Waiter
  | sub (gid warp sub : Nat) (trap : TrapRec)
  | job (id : Nat)
  | ringRead (q : Nat)
  | ringWrite (grid : Nat)
  | signal (grid : Nat)
deriving DecidableEq, Repr

/-- An event bound for the fault ring (R380), and once written its SEQ and the WAITERS that its record shows (R381). -/
structure FaultEv where
  fid : Nat
  seq : Option Word
  ctx : Nat
  epoch : BitVec 16
  addr : DWord
  kind : Nat
  acc : Nat
  level : Nat
  src : Nat
  unit : Nat
  cause : Nat
  cause2 : Nat
  gen : Word
  gidx : Word
  pc : DWord
  val : DWord
  mask : Word
  inst : DWord
  waiters : List Waiter
  merged : Nat
  wrote : Nat
deriving DecidableEq, Repr

/-- A saved context (R389): its groups and jobs, the grids and held tasks that belong to them, and of the save area the
offsets and lengths of the parts whose bytes R389 does not give, with the free values written there (log 70). -/
structure Image where
  groups : List Group
  jobs : List Job
  grids : List Grid
  tasks : List Task
  gaps : List (Nat × Nat)
  seed : Nat
deriving DecidableEq, Repr, Inhabited

end Sys2Proof.Machine
namespace Sys2Proof

/-- What a save area that this package has not written holds in the parts whose bytes R389 does not give, by the area's bytes
and the first free name: a free value (log 70). -/
opaque Config.savedImage : List Byte → Nat → Machine.Image

end Sys2Proof
namespace Sys2Proof.Machine

/-- What the device holds for one context: breakpoints (R384), that nothing of it is placed and that it is being saved
(R387), its saved groups and jobs, and that they wait for room (R390). -/
structure Ctx where
  id : Nat
  brk : List (Option DWord)
  hold : Bool
  saving : Bool
  image : Option Image
  resuming : Bool
deriving DecidableEq, Repr

/-! ## Queues, power, bring-up -/

/-- State of a launch queue in the mapper (R352). -/
inductive QSt
  | off | idle | ready | active | held | stopped
deriving DecidableEq, Repr, Inhabited

/-- A launch queue beside its registers (R352). -/
structure QueueSt where
  st : QSt
  since : Nat
  slotAt : Nat
deriving DecidableEq, Repr, Inhabited

/-- A cluster's droop response (R340): the stretch, with the stretched cycles left of each core and the ratio they are made
at, its start and whether a hold came before it; or the hold, with its end. -/
inductive Droop
  | stretch (left rates : Tbl Nat) (start : Nat) (held : Bool)
  | hold (stop : Nat)
deriving DecidableEq, Repr, Inhabited

/-- Power control (R407, R420 to R422): the controller's choice of each core's ratio and each cluster's pass count,
emergency caps (cluster, context, eighths), notices received (origin, context, eighths), droop responses, clusters at
TWARN or above, and the instant from which the next recovery step of a cluster is counted. -/
structure Power where
  ratio : Tbl Nat
  passes : Tbl Nat
  caps : List (Nat × Nat × Nat)
  slow : List (Nat × Nat × Nat)
  droop : Tbl Droop
  warned : List Nat
  stepAt : Tbl Nat
deriving DecidableEq, Repr, Inhabited

/-- Bring-up and the mailbox (R408 to R417). -/
structure Bringup where
  phase : Nat
  dieOk : BitVec 4
  stackOk : BitVec 8
  dieRun : BitVec 4
  failU : BitVec 8
  failC : BitVec 8
  failures : List (Nat × Nat)
  fuses : Nat
  svn : Nat
  image : List Byte
  idKey : Bool
  stopping : Bool
  tripped : Bool
  busy : Bool
  doneBit : Bool
  result : Nat
  outLen : Nat
  op : Nat
  inLen : Nat
  buf : Tbl Byte
deriving DecidableEq, Repr, Inhabited

/-- What the package sends outside (R248, R347, R357, R364, R397, R401, R407, R416). -/
inductive Msg
  | data (bytes : List Byte)
  | poison
  | metaValue (any : Bool)
  | msix (v : Nat)
  | rdOwn (half : Nat)
  | rdShared (half : Nat)
  | ncRead (pa n : Nat)
  | ncWrite (pa : Nat) (bytes : List Byte)
  | dirtyEvict (half : Nat) (bytes : List Byte)
  | cleanEvict (half : Nat)
  | snoopResp (half : Nat) (dirty : Bool) (bytes : List Byte)
  | biSnoop (addr : Nat)
  | biConflict (addr : Nat)
  | replicate (pkg ctx maxp : Nat) (pkt wins : BitVec 1024)
  | arm (origin ctx : Nat) (gen : Word) (refusal : Nat)
  | go (pkg ctx : Nat) (gen : Word)
  | abort (pkg ctx : Nat) (gen : Word)
  | done (origin ctx : Nat) (gen : Word) (status cause tstart : Nat) (counts : Tbl Nat)
  | slow (pkg ctx ratio : Nat)
  | peerData (pkg : Nat) (bytes : List Byte)
  | peer (pkg pa : Nat) (op : PeerOp)
  | coll (pkg ctx setid seq : Nat) (part : RankData)
  | timeBase (t : Nat)
  | gridArrive (pkg ctx : Nat) (gen : Word)
  | badTask (ctx : Nat) (addr : DWord)
deriving DecidableEq, Repr

/-- What a quad runs (R29): the warp whose clause is started, the warp of the previous clause, its YIELD mark, when the
passes of its last instruction are over (R39, log 16), the page whose flip its instruction waits for (R83), and the pass count
that it adopted at the boundary where its clause began (R38, R340). -/
structure Quad where
  run : Option (Nat × Nat)
  prev : Option (Nat × Nat)
  skip : Option (Nat × Nat)
  next : Nat
  stall : Option Nat
  passes : Nat
deriving DecidableEq, Repr, Inhabited

/-- A quad that has run nothing. -/
def idleQuad : Quad := ⟨none, none, none, 0, none, 1⟩

/-- Which agent moves next (model's own): an event, the issue of a quad's next word, or time passing in ticks of the
device timer. -/
inductive Move
  | ev (i : Instr)
  | issue (quad : Nat)
  | tick (n : Nat)
deriving DecidableEq, Repr

/-- The machine. -/
structure State where
  timer : Nat
  mem : List Host.Cell
  memPoison : Tbl Unit
  bar : Tbl DWord
  bu : Bringup
  pw : Power
  tlb : List TlbEntry
  walkCache : List WalkEntry
  l1 : Tbl (Word × Nat)
  owner : Tbl (Nat × Nat)
  dir : Tbl Msi
  bridge : Tbl Half
  icache : Tbl DWord
  ccache : Tbl Word
  shapes : List ShapeEntry
  redbuf : List RedEntry
  bias : Tbl Unit
  flips : List Flip
  watches : List WatchEntry
  waits : List FutureWait
  tasks : List Task
  faults : List FaultEv
  ctxs : List Ctx
  slots : List Nat
  queues : Tbl QueueSt
  grids : List Grid
  groups : List Group
  jobs : List Job
  rotor : Nat
  split : Tbl Nat
  edges : Tbl Nat
  clocks : Tbl Nat
  quads : Tbl Quad
  peers : Tbl Bool
  idents : Tbl Nat
  teleq : List (List Byte)
  errs : Tbl Unit
  cur : Option Nat
  agenda : List Move
  out : List Msg
  nextId : Nat
  free : Nat
deriving DecidableEq, Repr

/-- Bring-up state at power-on (R409, R416). -/
def Bringup.reset : Bringup :=
  { phase := 0, dieOk := 0, stackOk := 0, dieRun := 0, failU := 0, failC := 0, failures := [], fuses := 0, svn := 0,
    image := [], idKey := false, stopping := false, tripped := false, busy := false, doneBit := false,
    result := 0, outLen := 0, op := 0, inLen := 0, buf := [] }

/-- Power control at power-on: nothing is held below its ceiling (R419). -/
def Power.reset : Power := { ratio := [], passes := [], caps := [], slow := [], droop := [], warned := [], stepAt := [] }

/-- The machine right after power-on reset: nothing resident, every register at its Reset value (an unlisted register
of `bar` reads its Reset value), memory with nothing listed. The timer, the fuse count, the mailbox buffer and the
contents of memory are DESIGN CHOICES (log 3 to 7). -/
def State.reset : State :=
  { timer := 0, mem := [], memPoison := [], bar := [], bu := Bringup.reset, pw := Power.reset, tlb := [],
    walkCache := [], l1 := [], owner := [], dir := [], bridge := [], icache := [], ccache := [], shapes := [],
    redbuf := [], bias := [], flips := [], watches := [], waits := [], tasks := [], faults := [], ctxs := [],
    slots := [], queues := [], grids := [], groups := [], jobs := [], rotor := 0, split := [], edges := [], clocks := [], quads := [],
    peers := [], idents := [], teleq := [], errs := [], cur := none, agenda := [], out := [], nextId := 1, free := 0 }

end Sys2Proof.Machine
end

