-- ==== Sys2Proof/Machine/Tables.lean ====
section
/-! DEFINITION. Sparse tables with a canonical form, and the bit-field and byte-order helpers (R5). -/
namespace Sys2Proof.Machine

/-- What a table lists for a key. -/
def tfind {α : Type} : Tbl α → Nat → Option α
  | [], _ => none
  | (j, v) :: r, k => if j = k then some v else tfind r k

/-- The table with a key listed, in ascending order. -/
def tins {α : Type} : Tbl α → Nat → α → Tbl α
  | [], k, v => [(k, v)]
  | (j, u) :: r, k, v => if k < j then (k, v) :: (j, u) :: r else if k = j then (k, v) :: r else (j, u) :: tins r k v

/-- The table with a key unlisted. -/
def tdel {α : Type} : Tbl α → Nat → Tbl α
  | [], _ => []
  | (j, u) :: r, k => if j = k then tdel r k else (j, u) :: tdel r k

/-- The value of a key, `d` where it is unlisted. -/
def tget {α : Type} (d : α) (t : Tbl α) (k : Nat) : α := (tfind t k).getD d

/-- Writes a key; writing the default unlists it. -/
def tput {α : Type} [DecidableEq α] (d : α) (t : Tbl α) (k : Nat) (v : α) : Tbl α :=
  if v = d then tdel t k else tins t k v

/-- A key is listed. -/
def thas {α : Type} (t : Tbl α) (k : Nat) : Bool := (tfind t k).isSome

/-- Canonical form: keys strictly rising, and no entry equal to the default. -/
def twf {α : Type} [DecidableEq α] (d : α) : Tbl α → Bool
  | [] => true
  | [(_, v)] => v != d
  | (j, u) :: (k, v) :: r => u != d && j < k && twf d ((k, v) :: r)

/-- Keys strictly rising, for tables without a default. -/
def tsorted {α : Type} : Tbl α → Bool
  | [] => true
  | [_] => true
  | (j, _) :: (k, v) :: r => j < k && tsorted ((k, v) :: r)

/-- Entries with keys in [lo, lo + n) unlisted. -/
def tdelRange {α : Type} (t : Tbl α) (lo n : Nat) : Tbl α := t.filter (fun e => e.1 < lo || lo + n ≤ e.1)

/-- Bits [lo + n − 1 : lo]. -/
def fld (v lo n : Nat) : Nat := v / 2 ^ lo % 2 ^ n
/-- v with bits [lo + n − 1 : lo] replaced. -/
def setFld (v lo n x : Nat) : Nat := v - fld v lo n * 2 ^ lo + (x % 2 ^ n) * 2 ^ lo
/-- Field of a 64-bit register. -/
def dfld (v : DWord) (lo n : Nat) : Nat := fld v.toNat lo n
/-- A 64-bit register with a field replaced. -/
def dset (v : DWord) (lo n x : Nat) : DWord := BitVec.ofNat 64 (setFld v.toNat lo n x)

/-- Two's complement value of the low n bits of v. -/
def sval (v n : Nat) : Int := if v % 2 ^ n < 2 ^ (n - 1) then (v % 2 ^ n : Nat) else (v % 2 ^ n : Nat) - (2 ^ n : Nat)
/-- An integer modulo 2^n. -/
def wrapN (x : Int) (n : Nat) : Nat := (x % (2 ^ n : Nat)).toNat
/-- Clamp to [lo, hi]. -/
def clampI (x lo hi : Int) : Int := if x < lo then lo else if hi < x then hi else x
def cdiv (a b : Nat) : Nat := (a + b - 1) / b
def roundUp (a b : Nat) : Nat := cdiv a b * b

/-- Cluster cycles as device timer ticks, rounded up (R40, R41). -/
def cyclesToNs (n : Nat) : Nat := cdiv (n * 4) 7

/-- Position of the highest one bit plus one; 0 for 0. -/
def bitLen (v : Nat) : Nat := if v = 0 then 0 else Nat.log2 v + 1
/-- Number of one bits among the low n. -/
def popN : Nat → Nat → Nat
  | 0, _ => 0
  | n + 1, v => v % 2 + popN n (v / 2)
/-- Position of the lowest one bit among the low n, or n. -/
def lowN : Nat → Nat → Nat
  | 0, _ => 0
  | n + 1, v => if v % 2 = 1 then 0 else 1 + lowN n (v / 2)

/-- Bytes of a value, lowest address first (R5). -/
def leBytes : Nat → Nat → List Byte
  | 0, _ => []
  | n + 1, v => BitVec.ofNat 8 v :: leBytes n (v / 256)
/-- Value of bytes, lowest address first (R5). -/
def leVal : List Byte → Nat
  | [] => 0
  | b :: r => b.toNat + 256 * leVal r

/-- Insertion into a list sorted by `le`, after equal elements. -/
def insBy {α : Type} (le : α → α → Bool) (x : α) : List α → List α
  | [] => [x]
  | y :: r => if le y x then y :: insBy le x r else x :: y :: r
/-- The list sorted by `le`; equal elements keep their order. -/
def sortBy {α : Type} (le : α → α → Bool) (l : List α) : List α := l.foldl (fun a x => insBy le x a) []

/-- The 32 lanes in ascending order (R53). -/
def lanes : List Nat := List.range 32
/-- Lane t is in the set. -/
def laneIn (m : Mask) (t : Nat) : Bool := m.getLsbD t
/-- Lanes of a set, ascending. -/
def lanesOf (m : Mask) : List Nat := lanes.filter (laneIn m)
/-- The set of the lanes that satisfy a test. -/
def maskOf (p : Nat → Bool) : Mask := BitVec.ofNat 32 (lanes.foldl (fun a t => if p t then a + 2 ^ t else a) 0)
/-- Lowest lane of a set, 32 for the empty set. -/
def lowLane (m : Mask) : Nat := lowN 32 m.toNat

end Sys2Proof.Machine
end

