-- ==== Sys2Proof/Machine/Float.lean ====
section
/-! DEFINITION. The floating formats and exact arithmetic rounded once (R90 to R96, R193 to R202): values are exact
dyadic numbers, and every rounding goes through one function. -/
namespace Sys2Proof.Machine

/-- A floating format (R90): exponent and mantissa bits, bias, and whether it has infinities and NaNs. -/
structure Fmt where
  id : Nat
  eb : Nat
  mb : Nat
  bias : Nat
  hasInf : Bool
  hasNan : Bool
deriving DecidableEq, Repr

def fmtF32 : Fmt := ⟨0, 8, 23, 127, true, true⟩
def fmtF16 : Fmt := ⟨1, 5, 10, 15, true, true⟩
def fmtBf16 : Fmt := ⟨2, 8, 7, 127, true, true⟩
def fmtE4m3 : Fmt := ⟨3, 4, 3, 7, false, true⟩
def fmtE5m2 : Fmt := ⟨4, 5, 2, 15, true, true⟩
def fmtE2m1 : Fmt := ⟨5, 2, 1, 1, false, false⟩

/-- Width in bits. -/
def Fmt.width (f : Fmt) : Nat := 1 + f.eb + f.mb
/-- Element format of a type of R137. -/
def tyFmt : Ty → Fmt
  | .f16x2 => fmtF16
  | .bf16x2 => fmtBf16
  | _ => fmtF32

/-- A value: NaN (signalling or quiet), infinity, or (−1)^neg · m · 2^e exactly. -/
inductive Fp
  | nan (signalling : Bool)
  | inf (neg : Bool)
  | fin (neg : Bool) (m : Nat) (e : Int)
deriving DecidableEq, Repr

/-- Rounding modes (R92, R94). -/
inductive Rm
  | rne | rtz | rdn | rup
deriving DecidableEq, Repr

def Rm.ofFpmode (m : Word) : Rm := match m.toNat % 4 with | 0 => .rne | 1 => .rtz | 2 => .rdn | _ => .rup
/-- The mode of a form: its RND field, or RM of `fpmode` where that is 0 (R191, R192). -/
def Rm.ofRnd (rnd : Nat) (fpmode : Word) : Rm :=
  match rnd with
  | 1 => .rne
  | 2 => .rtz
  | 3 => .rdn
  | 4 => .rup
  | _ => Rm.ofFpmode fpmode
/-- Code of RND in a shape record and in the engines (R265). -/
def Rm.ofCode (c : Nat) : Rm := match c with | 0 => .rne | 1 => .rtz | 2 => .rdn | _ => .rup

/-- Exception bits in the order of `fpflags` (R97). -/
def fNx : Nat := 1
def fUf : Nat := 2
def fOf : Nat := 4
def fDz : Nat := 8
def fIv : Nat := 16

/-- An encoding and the exceptions it raised. -/
structure Res where
  bits : Nat
  fl : Nat
deriving DecidableEq, Repr

/-- Reads an encoding (R90, R91). -/
def Fmt.dec (f : Fmt) (b : Nat) : Fp :=
  let neg := b / 2 ^ (f.eb + f.mb) % 2 == 1
  let e := b / 2 ^ f.mb % 2 ^ f.eb
  let m := b % 2 ^ f.mb
  if f.hasInf && e == 2 ^ f.eb - 1 then (if m = 0 then .inf neg else .nan (m / 2 ^ (f.mb - 1) % 2 == 0))
  else if !f.hasInf && f.hasNan && e == 2 ^ f.eb - 1 && m == 2 ^ f.mb - 1 then .nan false
  else if e = 0 then .fin neg m (1 - (f.bias : Int) - f.mb)
  else .fin neg (2 ^ f.mb + m) ((e : Int) - f.bias - f.mb)

/-- The encoding is subnormal. -/
def Fmt.isSub (f : Fmt) (b : Nat) : Bool := b / 2 ^ f.mb % 2 ^ f.eb == 0 && b % 2 ^ f.mb != 0
/-- Zero of a sign. -/
def Fmt.zero (f : Fmt) (neg : Bool) : Nat := if neg then 2 ^ (f.eb + f.mb) else 0
/-- Canonical NaN of the format (R91); e2m1 has none and gives +0 (R92). -/
def Fmt.qnan (f : Fmt) : Nat :=
  if f.hasInf then (2 ^ f.eb - 1) * 2 ^ f.mb + 2 ^ (f.mb - 1) else if f.hasNan then 2 ^ (f.eb + f.mb) - 1 else 0
/-- Largest finite magnitude, as an encoding. -/
def Fmt.maxEnc (f : Fmt) : Nat :=
  if f.hasInf then (2 ^ f.eb - 1) * 2 ^ f.mb - 1 else if f.hasNan then 2 ^ (f.eb + f.mb) - 2 else 2 ^ (f.eb + f.mb) - 1
/-- Infinity of a sign; where the format has none, its NaN or largest magnitude (R92 step 2). -/
def Fmt.infEnc (f : Fmt) (neg : Bool) : Nat :=
  if f.hasInf then (2 ^ f.eb - 1) * 2 ^ f.mb + f.zero neg else if f.hasNan then f.qnan else f.maxEnc + f.zero neg
/-- An input flushed under R93. -/
def Fmt.flushIn (f : Fmt) (fz : Bool) (b : Nat) : Nat := if fz && f.isSub b then f.zero (b / 2 ^ (f.eb + f.mb) % 2 == 1) else b
def Fp.isNan : Fp → Bool
  | .nan _ => true
  | _ => false
def Fp.isSnan : Fp → Bool
  | .nan s => s
  | _ => false
def Fp.isInf : Fp → Bool
  | .inf _ => true
  | _ => false
def Fp.isFinite : Fp → Bool
  | .fin _ _ _ => true
  | _ => false
def Fp.isZero : Fp → Bool
  | .fin _ m _ => m == 0
  | _ => false
def Fp.neg : Fp → Bool
  | .inf n => n
  | .fin n _ _ => n
  | .nan _ => false

/-- m · 2^(−k) rounded to an integer in a direction, and whether that is inexact. -/
def roundShift (rm : Rm) (neg : Bool) (m k : Nat) : Nat × Bool :=
  let q := m / 2 ^ k
  let r := m % 2 ^ k
  let up := match rm with
    | .rne => 2 * r > 2 ^ k || (2 * r == 2 ^ k && k != 0 && q % 2 == 1)
    | .rtz => false
    | .rdn => neg && r != 0
    | .rup => !neg && r != 0
  (if up then q + 1 else q, r != 0)
/-- m · 2^e rounded to an integer magnitude (R196, R209, R405). -/
def roundInt (rm : Rm) (neg : Bool) (m : Nat) (e : Int) : Nat × Bool :=
  if 0 ≤ e then (m * 2 ^ e.toNat, false) else roundShift rm neg m (-e).toNat

/-- Overflow result of R92 step 2, or ±max under saturation (step 3). -/
def Fmt.overflow (f : Fmt) (rm : Rm) (neg sat : Bool) : Nat :=
  let toMax := match rm with
    | .rne => false
    | .rtz => true
    | .rdn => !neg
    | .rup => neg
  if toMax || sat then f.maxEnc + f.zero neg else f.infEnc neg

/-- R92: the exact value (−1)^neg · m · 2^e rounded into a format, with the exceptions raised; `fz` flushes a tiny result
(R93), `sat` saturates (R92 step 3). Tininess is judged before the format's exponent range (R96). -/
def Fmt.round (f : Fmt) (rm : Rm) (fz sat neg : Bool) (m : Nat) (e : Int) : Res :=
  if m = 0 then ⟨f.zero neg, 0⟩
  else
    let top : Int := (bitLen m : Int) - 1 + e
    let emin : Int := 1 - (f.bias : Int)
    let qn : Int := top - f.mb
    let q : Int := if qn < emin - f.mb then emin - f.mb else qn
    let rnd (q : Int) : Nat × Bool := roundInt rm neg m (e - q)
    let u := rnd qn
    let tiny := top < emin && !(top == emin - 1 && u.1 == 2 ^ (f.mb + 1))
    if fz && tiny then ⟨f.zero neg, fUf + fNx⟩
    else
      let r := rnd q
      let nx := if r.2 then fNx else 0
      let enc : Nat := if r.1 < 2 ^ f.mb then r.1 else ((q + f.mb + f.bias - 1) * (2 ^ f.mb : Nat) + r.1 : Int).toNat
      if f.maxEnc < enc then ⟨f.overflow rm neg sat, fOf + fNx⟩
      else ⟨enc + f.zero neg, nx + (if tiny && r.2 then fUf else 0)⟩

/-- Exact sum; the sign of a zero sum is `zneg` unless both are zeros of that sign (R193). -/
def addFin (rm : Rm) (n1 : Bool) (m1 : Nat) (e1 : Int) (n2 : Bool) (m2 : Nat) (e2 : Int) : Bool × Nat × Int :=
  let e := if e1 < e2 then e1 else e2
  let a := m1 * 2 ^ (e1 - e).toNat
  let b := m2 * 2 ^ (e2 - e).toNat
  if n1 == n2 then (n1, a + b, e)
  else if b < a then (n1, a - b, e)
  else if a < b then (n2, b - a, e)
  else (rm == .rdn, 0, e)

/-- Rounding settings of one element: mode, input flush, result flush, saturation. -/
structure Env where
  rm : Rm
  fzi : Bool
  fzo : Bool
  sat : Bool
deriving DecidableEq, Repr

/-- NaN results of R193: invalid where an input signals or an invalid case holds. -/
def nanRes (f : Fmt) (iv : Bool) : Res := ⟨f.qnan, if iv then fIv else 0⟩

/-- A + B (R193). -/
def fpAdd (f : Fmt) (v : Env) (a b : Nat) : Res :=
  match f.dec (f.flushIn v.fzi a), f.dec (f.flushIn v.fzi b) with
  | .nan s, y => nanRes f (s || y.isSnan)
  | x, .nan s => nanRes f (s || x.isSnan)
  | .inf n, .inf n' => if n == n' then ⟨f.infEnc n, 0⟩ else nanRes f true
  | .inf n, _ => ⟨f.infEnc n, 0⟩
  | _, .inf n => ⟨f.infEnc n, 0⟩
  | .fin n1 m1 e1, .fin n2 m2 e2 =>
    let r := addFin v.rm n1 m1 e1 n2 m2 e2
    f.round v.rm v.fzo v.sat r.1 r.2.1 r.2.2

/-- Sign bit flipped; a NaN stays itself. -/
def Fmt.negate (f : Fmt) (b : Nat) : Nat :=
  if (f.dec b).isNan then b else if b / 2 ^ (f.eb + f.mb) % 2 = 1 then b - 2 ^ (f.eb + f.mb) else b + 2 ^ (f.eb + f.mb)
/-- A − B (R193). -/
def fpSub (f : Fmt) (v : Env) (a b : Nat) : Res := fpAdd f v a (f.negate b)

/-- A · B (R193). -/
def fpMul (f : Fmt) (v : Env) (a b : Nat) : Res :=
  match f.dec (f.flushIn v.fzi a), f.dec (f.flushIn v.fzi b) with
  | .nan s, y => nanRes f (s || y.isSnan)
  | x, .nan s => nanRes f (s || x.isSnan)
  | .inf n, y => if y.isZero then nanRes f true else ⟨f.infEnc (n != y.neg), 0⟩
  | x, .inf n => if x.isZero then nanRes f true else ⟨f.infEnc (n != x.neg), 0⟩
  | .fin n1 m1 e1, .fin n2 m2 e2 => f.round v.rm v.fzo v.sat (n1 != n2) (m1 * m2) (e1 + e2)

/-- A · B + C, fused (R193). -/
def fpFma (f : Fmt) (v : Env) (a b c : Nat) : Res :=
  let x := f.dec (f.flushIn v.fzi a)
  let y := f.dec (f.flushIn v.fzi b)
  let z := f.dec (f.flushIn v.fzi c)
  let bad := (x.isInf && y.isZero) || (x.isZero && y.isInf)
  if x.isNan || y.isNan || z.isNan then nanRes f (x.isSnan || y.isSnan || z.isSnan || bad)
  else if bad then nanRes f true
  else if x.isInf || y.isInf then
    let n := x.neg != y.neg
    if z.isInf && z.neg != n then nanRes f true else ⟨f.infEnc n, 0⟩
  else match x, y, z with
    | _, _, .inf n => ⟨f.infEnc n, 0⟩
    | .fin n1 m1 e1, .fin n2 m2 e2, .fin n3 m3 e3 =>
      let r := addFin v.rm (n1 != n2) (m1 * m2) (e1 + e2) n3 m3 e3
      f.round v.rm v.fzo v.sat r.1 r.2.1 r.2.2
    | _, _, _ => nanRes f true

/-- A / B (R201); also RCP with A = 1 (R202, R204). -/
def fpDivV (f : Fmt) (v : Env) (x y : Fp) : Res :=
  match x, y with
  | .nan s, y => nanRes f (s || y.isSnan)
  | x, .nan s => nanRes f (s || x.isSnan)
  | .inf n, y => if y.isInf then nanRes f true else ⟨f.infEnc (n != y.neg), 0⟩
  | x, .inf n => ⟨f.zero (n != x.neg), 0⟩
  | .fin n1 m1 e1, .fin n2 m2 e2 =>
    if m2 = 0 then (if m1 = 0 then nanRes f true else ⟨f.infEnc (n1 != n2), fDz⟩)
    else
      let k := 64 + bitLen m2
      let q := m1 * 2 ^ k / m2
      let st := if m1 * 2 ^ k % m2 = 0 then 0 else 1
      f.round v.rm v.fzo v.sat (n1 != n2) (2 * q + st) (e1 - e2 - k - 1)
def fpDiv (f : Fmt) (v : Env) (a b : Nat) : Res :=
  fpDivV f v (f.dec (f.flushIn v.fzi a)) (f.dec (f.flushIn v.fzi b))
def fpRcp (f : Fmt) (v : Env) (a : Nat) : Res := fpDivV f v (.fin false 1 0) (f.dec (f.flushIn v.fzi a))

/-- Integer square root by bits, `k` bits still to find. -/
def isqrt : Nat → Nat → Nat → Nat
  | 0, _, r => r
  | k + 1, n, r =>
    let t := r + 2 ^ k
    if t * t ≤ n then isqrt k n t else isqrt k n r
/-- SQRT (R202, R204). -/
def fpSqrt (f : Fmt) (v : Env) (a : Nat) : Res :=
  match f.dec (f.flushIn v.fzi a) with
  | .nan s => nanRes f s
  | .inf n => if n then nanRes f true else ⟨f.infEnc false, 0⟩
  | .fin n m e =>
    if m = 0 then ⟨f.zero n, 0⟩
    else if n then nanRes f true
    else
      let odd : Bool := e % 2 != 0
      let m : Nat := if odd then 2 * m else m
      let e : Int := if odd then e - 1 else e
      let k : Nat := 60
      let s := isqrt 80 (m * 2 ^ (2 * k)) 0
      let st := if s * s = m * 2 ^ (2 * k) then 0 else 1
      f.round v.rm v.fzo v.sat false (2 * s + st) (e / 2 - k - 1)

/-- Order of two values that are not NaN: −0 below +0 (R194). -/
def fpLess (x y : Fp) : Bool :=
  match x, y with
  | .inf n, y => n && !(y == .inf true)
  | x, .inf n => !n && !(x == .inf false)
  | .fin n1 m1 e1, .fin n2 m2 e2 =>
    let e : Int := if e1 < e2 then e1 else e2
    let a : Nat := m1 * 2 ^ (e1 - e).toNat
    let b : Nat := m2 * 2 ^ (e2 - e).toNat
    if n1 && !n2 then true else if !n1 && n2 then false else if n1 then b < a else a < b
  | _, _ => false
/-- Equal values; zeros of either sign are equal (R91). -/
def fpEqual (x y : Fp) : Bool :=
  if x.isZero && y.isZero then true else !x.isNan && !y.isNan && !fpLess x y && !fpLess y x

/-- FMIN and FMAX (R194). -/
def fpMinMax (f : Fmt) (v : Env) (isMax nanp : Bool) (a b : Nat) : Res :=
  let a := f.flushIn v.fzi a
  let b := f.flushIn v.fzi b
  let x := f.dec a
  let y := f.dec b
  let fl := if x.isSnan || y.isSnan then fIv else 0
  if x.isNan && y.isNan then ⟨f.qnan, fl⟩
  else if x.isNan || y.isNan then ⟨if nanp then f.qnan else if x.isNan then b else a, fl⟩
  else if isMax then ⟨if fpLess x y then b else a, fl⟩ else ⟨if fpLess y x then b else a, fl⟩

/-- FSCALE (R195): A · 2^n. -/
def fpScale (f : Fmt) (v : Env) (a : Nat) (n : Int) : Res :=
  match f.dec (f.flushIn v.fzi a) with
  | .nan s => nanRes f s
  | .inf g => ⟨f.infEnc g, 0⟩
  | .fin g m e => f.round v.rm v.fzo v.sat g m (e + n)

/-- FRND (R196): no exception but invalid. -/
def fpRnd (f : Fmt) (v : Env) (a : Nat) : Res :=
  match f.dec (f.flushIn v.fzi a) with
  | .nan s => nanRes f s
  | .inf g => ⟨f.infEnc g, 0⟩
  | .fin g m e => ⟨(f.round .rne false false g (roundInt v.rm g m e).1 0).bits, 0⟩

/-- FCMP (R198): relation code of 0 to 5 on ordered values. -/
def fpRel (c : Nat) (x y : Fp) : Bool :=
  match c with
  | 0 => fpEqual x y
  | 1 => !fpEqual x y
  | 2 => fpLess x y && !fpEqual x y
  | 3 => fpLess x y || fpEqual x y
  | 4 => fpLess y x && !fpEqual x y
  | _ => fpLess y x || fpEqual x y
def fpCmp (f : Fmt) (v : Env) (c a b : Nat) : Bool × Nat :=
  let x := f.dec (f.flushIn v.fzi a)
  let y := f.dec (f.flushIn v.fzi b)
  let un := x.isNan || y.isNan
  let iv := x.isSnan || y.isSnan || (un && 2 ≤ c && c < 6)
  let r := if c = 6 then !un else if c = 7 then un else if c < 6 then !un && fpRel c x y else un || fpRel (c - 8) x y
  (r, if iv then fIv else 0)

/-- FCLASS (R200): the one-hot class of an encoding as stored. -/
def fpClass (f : Fmt) (b : Nat) : Nat :=
  match f.dec b with
  | .nan s => if s then 2 ^ 8 else 2 ^ 9
  | .inf n => if n then 1 else 2 ^ 7
  | .fin n m _ => if m = 0 then (if n then 2 ^ 3 else 2 ^ 4) else if f.isSub b then (if n then 2 ^ 2 else 2 ^ 5) else (if n then 2 else 2 ^ 6)

/-- Floating to floating conversion (R92, R208). -/
def fpCvt (src dst : Fmt) (v : Env) (a : Nat) : Res :=
  match src.dec (src.flushIn v.fzi a) with
  | .nan s => if dst.hasNan then ⟨dst.qnan, if s then fIv else 0⟩ else ⟨0, fIv⟩
  | .inf n =>
    if dst.hasInf then ⟨if v.sat then dst.maxEnc + dst.zero n else dst.infEnc n, 0⟩
    else if dst.hasNan then ⟨if v.sat then dst.maxEnc + dst.zero n else dst.qnan, fIv⟩
    else ⟨dst.maxEnc + dst.zero n, fIv⟩
  | .fin n m e => dst.round v.rm v.fzo v.sat n m e

/-- Floating to integer conversion into [lo, hi] (R209). -/
def fpToInt (src : Fmt) (v : Env) (lo hi : Int) (a : Nat) : Int × Nat :=
  match src.dec (src.flushIn v.fzi a) with
  | .nan _ => (0, fIv)
  | .inf n => (if n then lo else hi, fIv)
  | .fin n m e =>
    let r := roundInt v.rm n m e
    let x : Int := if n then -(r.1 : Int) else r.1
    if x < lo then (lo, fIv) else if hi < x then (hi, fIv) else (x, if r.2 then fNx else 0)

/-- Integer to floating conversion (R210). -/
def fpOfInt (dst : Fmt) (v : Env) (x : Int) : Res := dst.round v.rm v.fzo v.sat (x < 0) x.natAbs 0

/-- RNE without flush or saturation, as the reduction buffers, atomics, palettes and engines round (R71, R106, R226). -/
def plainEnv : Env := ⟨.rne, false, false, false⟩

/-- An approximate form raises underflow whenever its result is tiny, an exact one too (R202). -/
def exactTiny (f : Fmt) (r : Res) : Res := if r.bits % 2 ^ (f.eb + f.mb) < 2 ^ f.mb then ⟨r.bits, r.fl ||| fUf⟩ else r
/-- Special inputs of the approximate forms: an exact result, or none where the value is approximate (R204, R203). -/
def sfuExact (code : Nat) (f : Fmt) (v : Env) (x : Fp) : Option Res :=
  match x with
  | .nan s => some (nanRes f s)
  | .inf n =>
    match code with
    | 0 => some (if n then nanRes f true else ⟨0, 0⟩)
    | 1 => some (if n then nanRes f true else ⟨f.infEnc false, 0⟩)
    | 2 => some (if n then ⟨0, 0⟩ else ⟨f.infEnc false, 0⟩)
    | 5 => some (f.round .rne false false n 1 0)
    | _ => some (nanRes f true)
  | .fin n m e =>
    if m = 0 then
      match code with
      | 0 => some ⟨f.infEnc n, fDz⟩
      | 1 => some ⟨f.infEnc true, fDz⟩
      | 2 => some (f.round .rne false false false 1 0)
      | 4 => some (f.round .rne false false false 1 0)
      | _ => some ⟨f.zero n, 0⟩
    else
      match code with
      | 0 => if n then some (nanRes f true) else none
      | 1 => if n then some (nanRes f true) else if fpEqual (.fin n m e) (.fin false 1 0) then some ⟨0, 0⟩ else none
      | 2 =>
        let k := roundInt .rtz n m e
        if k.2 then none
        else if 10000 < k.1 then none
        else
          let p : Int := if n then -(k.1 : Int) else k.1
          let r := f.round .rne false false false 1 p
          if r.fl = 0 then some (exactTiny f (f.round .rne v.fzo false false 1 p)) else none
      | _ => none

end Sys2Proof.Machine
end

