-- ==== Sys2Proof/Machine/Approx.lean ====
section
/-! DEFINITION. How far an approximate special function may lie from the exact value (R203): the exact values in fixed point with
320 fraction bits, and the test of a result against the stated bounds. -/
namespace Sys2Proof.Machine

/-! ## Exact values in fixed point -/

/-- Fraction bits. -/
def fxBits : Nat := 320
def fxOne : Nat := 2 ^ fxBits
/-- m · 2^e in fixed point. -/
def fx (m : Nat) (e : Int) : Nat :=
  if 0 ≤ e + fxBits then m * 2 ^ (e + fxBits).toNat else m / 2 ^ (-(e + fxBits)).toNat
/-- The inverse hyperbolic tangent of z, at most 1/3, by its series. -/
def fxAtanh (z : Nat) : Nat :=
  ((List.range 110).foldl (fun (x : Nat × Nat) k => (x.1 * z / fxOne * z / fxOne, x.2 + x.1 / (2 * k + 1))) (z, 0)).2
/-- The natural logarithm of t in [1, 2). -/
def fxLn (t : Nat) : Nat := 2 * fxAtanh ((t - fxOne) * fxOne / (t + fxOne))
def fxLn2 : Nat := 2 * fxAtanh (fxOne / 3)
/-- e to the y in [0, 1) by its series. -/
def fxExp (y : Nat) : Nat :=
  ((List.range 90).foldl (fun (x : Nat × Nat) k => (x.1 * y / fxOne / (k + 1), x.2 + x.1)) (fxOne, 0)).2
/-- 2 to the a, for a below 400; 0 where it lies below every bit. -/
def fxExp2 (a : Int) : Nat :=
  let n := a / fxOne
  let v := fxExp ((a % fxOne).toNat * fxLn2 / fxOne)
  if 0 ≤ n then v * 2 ^ n.toNat else if n < -400 then 0 else v / 2 ^ (-n).toNat
/-- The arc tangent of 1/n by its series. -/
def fxAtanInv (n : Nat) : Int :=
  ((List.range 145).foldl (fun (x : Int × Int) (k : Nat) => (-(x.1 / (n * n)), x.2 + x.1 / (2 * k + 1))) ((fxOne / n : Nat), 0)).2
def fxPi : Int := 16 * fxAtanInv 5 - 4 * fxAtanInv 239
/-- A sine or cosine series of r in [0, 2π): its first term, and the first denominator's lower factor. -/
def fxWave (r first : Int) (lo : Nat) : Int :=
  ((List.range 70).foldl (fun (x : Int × Int) (k : Nat) =>
    (-(x.1 * r / fxOne * r / fxOne / ((2 * k + lo) * (2 * k + lo + 1) : Nat)), x.2 + x.1)) (first, 0)).2
/-- The hyperbolic tangent of y, for y from 0 to 100. -/
def fxTanh (y : Nat) : Nat :=
  let z := fxExp2 ((2 * y * fxOne / fxLn2 : Nat) : Int)
  (z - fxOne) * fxOne / (z + fxOne)

/-- log2 of the value is an integer. -/
def isPow2 (m : Nat) : Bool := m == 2 ^ (bitLen m - 1)
/-- The exact value of form 1 LOG2, 2 EXP2, 3 SIN, 4 COS or 5 TANH of ±m · 2^e, within `fxSlack`. -/
def fxValue (code : Nat) (n : Bool) (m : Nat) (e : Int) : Int :=
  let sgn (v : Int) : Int := if n then -v else v
  match code with
  | 1 => ((bitLen m : Int) - 1 + e) * fxOne + (fxLn (m * 2 ^ (fxBits + 1 - bitLen m)) * fxOne / fxLn2 : Nat)
  | 2 => fxExp2 (sgn (fx m e))
  | 3 => let r := (fx m e : Int) % (2 * fxPi); sgn (fxWave r r 2)
  | 4 => let r := (fx m e : Int) % (2 * fxPi); fxWave r fxOne 1
  | _ => sgn (fxTanh (min (fx m e) (100 * fxOne)))
/-- How far `fxValue` may lie from the exact value: 2^-280, and nothing where the value is an integer logarithm. -/
def fxSlack (code m : Nat) : Nat := if code = 1 && isPow2 m then 0 else 2 ^ 40

/-! ## The bounds of R203 -/

/-- The spacing of a format at a value: the subnormal spacing below the smallest normal. -/
def ulpExp (f : Fmt) (v : Int) : Int :=
  max ((bitLen v.natAbs : Int) - 1 - fxBits) (1 - (f.bias : Int)) - f.mb
/-- The absolute bound of a format: of SIN and COS, and of LOG2 for A in [0.5, 2]. -/
def absExp (code : Nat) (f : Fmt) : Int := if f.id = 0 then (if code = 1 then -22 else -21) else if f.id = 1 then -10 else -7
/-- A in [0.5, 2], where LOG2's bound is absolute: DEDUCED, log 10. -/
def nearOne (m : Nat) (e : Int) : Bool := !fpLess (.fin false m e) (.fin false 1 (-1)) && !fpLess (.fin false 1 1) (.fin false m e)
/-- The bound in fixed point. -/
def fxBound (code : Nat) (f : Fmt) (m : Nat) (e v : Int) : Nat :=
  if code = 3 || code = 4 || (code = 1 && nearOne m e) then fx 1 (absExp code f)
  else fx (if f.id = 0 then 2 else 1) (ulpExp f v)
/-- SIN and COS beyond the range in which they are bounded. -/
def farAngle (f : Fmt) (m : Nat) (e : Int) : Bool := fpLess (.fin false 1 (if f.id = 0 then 20 else 10)) (.fin false m e)
/-- Largest exponent of a format. -/
def Fmt.emax (f : Fmt) : Nat := 2 ^ f.eb - 2 - f.bias
/-- An encoding in fixed point; +∞, as a result of EXP2, stands at the first power of two past the format. -/
def fxOf (code : Nat) (f : Fmt) (b : Nat) : Option Int :=
  match f.dec b with
  | .fin n m e => some (if n then -(fx m e : Int) else fx m e)
  | .inf n => if code = 2 && !n then some (fx 1 (f.emax + 1 : Nat)) else none
  | .nan _ => none
/-- The encoding lies within its bound of the exact value (R203). -/
def fxOk (code : Nat) (f : Fmt) (b : Nat) (n : Bool) (m : Nat) (e : Int) : Bool :=
  match fxOf code f b with
  | none => false
  | some c =>
    let v := fxValue code n m e
    (c - v).natAbs + fxSlack code m ≤ fxBound code f m e v
/-- The encoding nearest the exact value. -/
def fxNear (code : Nat) (f : Fmt) (n : Bool) (m : Nat) (e : Int) : Nat :=
  let v := fxValue code n m e
  (f.round .rne false false (v < 0) v.natAbs (-(fxBits : Int))).bits

/-! ## RSQ, whose bounds can be tested exactly -/

/-- 1/√(m · 2^e) rounded to nearest. -/
def rsqNear (f : Fmt) (m : Nat) (e : Int) : Nat :=
  let odd : Bool := e % 2 != 0
  let m : Nat := if odd then 2 * m else m
  let e : Int := if odd then e - 1 else e
  let k : Nat := 100
  let q := isqrt 110 (2 ^ (2 * k) / m) 0
  (f.round .rne false false false (2 * q + 1) (-(e / 2) - k - 1)).bits
/-- Order of c² · x and 1: −1, 0, 1. -/
def rsqOrder (cm : Nat) (ce : Int) (m : Nat) (e : Int) : Int :=
  let p := cm * cm * m
  let q := 2 * ce + e
  if 0 ≤ q then (if p * 2 ^ q.toNat = 1 then 0 else if p = 0 then -1 else 1)
  else if p = 2 ^ (-q).toNat then 0 else if p < 2 ^ (-q).toNat then -1 else 1
/-- The exponent of the largest power of two not above 1/√x. -/
def rsqTop (m : Nat) (e : Int) : Int :=
  let t : Int := (bitLen m : Int) - 1 + e
  if isPow2 m && t % 2 == 0 then -(t / 2) else -((t + 2) / 2)
/-- A finite positive encoding within one unit in the last place of 1/√x, the unit taken at 1/√x (R203). -/
def rsqOk (f : Fmt) (c m : Nat) (e : Int) : Bool :=
  match f.dec c with
  | .fin false cm ce =>
    let u : Int := rsqTop m e - f.mb
    let q : Int := min ce u
    let a := cm * 2 ^ (ce - q).toNat
    let b := 2 ^ (u - q).toNat
    rsqOrder (a - b) q m e ≤ 0 && 0 ≤ rsqOrder (a + b) q m e
  | _ => false

end Sys2Proof.Machine
end

