-- ==== Sys2Proof/Machine/Uses.lean ====
section
/-! DEFINITION. What a word names, read from its encoding alone: its sources in every operand form (R18, R130 to R140), the
registers, queues and units whose numbers step 9 of R154 checks, and its place among palette work (R259, R262). -/
namespace Sys2Proof.Machine

/-- How an immediate or literal source is widened: by a type, into one half-width field (R206), or read as held. -/
inductive Widen
  | ty (t : Ty)
  | one (f : Fmt)
  | raw
deriving DecidableEq, Repr

/-- A source operand of a form. -/
structure Opd where
  src : Src
  w : Widen
  wide : Bool
deriving DecidableEq, Repr

/-! ## Operands of each layout -/

/-- Type in which the source of a CVT is widened (R206). -/
def cvtWiden (t : Ty) (m : Nat) : Widen :=
  if m / 32 % 2 = 1 then .ty t
  else match m / 4 % 8 with
    | 0 => .ty .f32
    | 1 => if t == .i16x2 || t == .n16x2 then .ty .f16x2 else .one fmtF16
    | 2 => if t == .i16x2 || t == .n16x2 then .ty .bf16x2 else .one fmtBf16
    | 6 => .ty .i32
    | 7 => .ty .n32
    | _ => .raw
/-- Widening of source i of an R, K or I form (R134, R160, R168, R206). The exponent of FSCALE is an integer (R195, log 14);
T does not affect FPICK (R199). -/
def rkWiden (op : Nat) (t : Ty) (m i : Nat) : Widen :=
  if op == 0x89 || op == 0x8C then cvtWiden t m
  else if op == 0x06 && i == 2 then (if t == .i32 then .ty .i64 else .ty .n64)
  else if op == 0x7A && i == 1 then .ty (if t == .f32 then .i32 else .i16x2)
  else if op == 0x77 || op == 0x97 then .ty .i32
  else .ty t

/-- Type of an ATOM or RED operand (R216). -/
def atomTyOf (c : Nat) : Ty :=
  match c with
  | 0 => .i32 | 1 => .n32 | 2 => .i64 | 3 => .n64 | 4 => .f32 | 5 => .f16x2 | _ => .bf16x2

def opd (s : Src) : Opd := ⟨s, .ty .i32, false⟩
def opdPair (s : Src) : Opd := ⟨s, .ty .i64, true⟩
def opdNone : Opd := opd (.v 0)

end Sys2Proof.Machine
namespace Sys2Proof
open Machine

/-- Sources A, B and C of a layout. In K format the constant stands for the last source and is not listed here. -/
def Enc.opds : Enc → List Opd
  | .rk op f => match f.body with
    | .r b c t m =>
      let m6 := m.toNat % 64
      [⟨f.a, rkWiden op t m6 0, wideSrc op t m6 0⟩, ⟨b, rkWiden op t m6 1, wideSrc op t m6 1⟩,
       ⟨c, rkWiden op t m6 2, wideSrc op t m6 2⟩]
    | .k _ _ t m => [⟨f.a, rkWiden op t (m.toNat % 64) 0, wideSrc op t (m.toNat % 64) 0⟩]
    | .i _ => []
  | .bra _ => []
  | .call f => [opd (.v f.vs)]
  | .jset f => [opd f.mask]
  | .loop f => [opd f.count]
  | .lbrk _ => []
  | .mem op f =>
    let wide := if op == 0xB2 then f.sz == 5 else (op == 0xB3 || op == 0xB4) && (f.sz == 2 || f.sz == 3)
    let ty := if op == 0xB2 then (if f.sz == 5 then Ty.i64 else .i32) else if op == 0xB3 || op == 0xB4 then atomTyOf f.sz.toNat else .i32
    [opdPair f.a, ⟨f.b, .ty ty, wide⟩]
  | .cas f => [opdPair f.a, opdPair f.b, opdPair (if f.newS then .s (f.new.setWidth 6) else .v f.new)]
  | .fence _ => []
  | .pref f => [opdPair f.a]
  | .cctl _ f => [opdPair f.a]
  | .acopy f => [opdPair f.a, opdPair f.b, opd f.c]
  | .bar _ f => [opd f.a]
  | .sync _ f => [opdPair f.a, opd f.b]
  | .obj _ _ f => [opdPair f.a, opd f.b]
  | .pal op f => [if op == 0xD0 || op == 0xD4 || op == 0xD5 || op == 0xD7 || op == 0xDA || op == 0xDB || op == 0xDC
      then opdPair f.a else opd f.a, opd f.b, opd f.c]
  | .plook f => [opdPair f.a, opd f.b]
  | .sys op f => [if op == 0xE5 then opd f.a else opdPair f.a]
  | .event => []

/-- Window, offset, and 64-bit width of a K-format constant (R139), and the source it stands for. -/
def Enc.kop : Enc → Option (Nat × Nat × Bool × Nat)
  | .rk op f => match f.body with
    | .k w off t m =>
      let i := match rkFormOf op with | some p => if p.nsrc == 1 then 0 else 1 | none => 1
      some (w.toNat, off.toNat, wideSrc op t (m.toNat % 64) i, i)
    | _ => none
  | _ => none

end Sys2Proof
namespace Sys2Proof.Machine

/-- A register, queue or other number that an instruction names. -/
inductive RegUse
  | vec (n count : Nat)
  | sca (n count : Nat)
  | run (lo hi : Nat)
  | lims (n : Nat)
  | queue (n : Nat)
  | bar (n : Nat)
  | pal (n : Nat)
  | tile (n : Nat)
deriving DecidableEq, Repr

/-- A source's use. -/
def Opd.uses (o : Opd) : List RegUse :=
  match o.src with
  | .v n => [.vec n.toNat (if o.wide then 2 else 1)]
  | .s n => [.sca n.toNat (if o.wide then 2 else 1)]
  | .q n => [.queue n.toNat]
  | _ => []
/-- A scalar destination's use: a register run, or a queue (R135). -/
def scaUse (d c : Nat) : RegUse := if d < 64 then .sca d c else .queue (d - 80)

end Sys2Proof.Machine
namespace Sys2Proof
open Machine

/-- Planes of BPACK and BUNPACK (R192). -/
def Rk.planes (f : Rk) : Nat := match f.body with
  | .r _ _ _ m => m.toNat % 8 + 1
  | _ => 1

/-- Destination and other uses before the sources. -/
def Enc.dstUses : Enc → List RegUse
  | .rk op f =>
    let d := f.d.toNat
    let wide := match f.body with
      | .r _ _ t m => wideDst op t (m.toNat % 64)
      | .k _ _ t m => wideDst op t (m.toNat % 64)
      | .i _ => false
    match (rkFormOf op).map Form.d with
    | some .vec => [.vec d (if wide then 2 else 1)]
    | some .vecEven => [.vec d 2]
    | some .sca => [scaUse d (if wide then 2 else 1)]
    | some .scaOnly => [.run d (d + f.planes)]
    | some .scaEven => [.sca d 2]
    | _ => []
  | .mem op f =>
    let d := f.d.toNat
    let n := if f.sz == 5 then 2 else if f.sz == 6 then 4 else 1
    if op == 0xB0 then [.vec d n]
    else if op == 0xB1 then (if f.sz == 7 then [.run d (d + f.mod.toNat % 8 + 1)] else [scaUse d n])
    else if op == 0xB3 then [.vec d (if f.sz == 2 || f.sz == 3 then 2 else 1)]
    else []
  | .cas f => [.vec f.d.toNat 2]
  | .acopy f => [.sca f.d.toNat 1]
  | .sync op f => if op == 0xBC then [scaUse f.d.toNat 1] else if op == 0xBF then [.vec f.d.toNat 1] else []
  | .obj op _ f => if op == 0xC1 then [scaUse f.d.toNat 1] else [.sca f.d.toNat 2]
  | .pal op f => if op == 0xD3 || op == 0xD9 then [scaUse f.d.toNat 1] else if op == 0xD8 then [.vec f.d.toNat 1] else []
  | .sys op f => if op == 0xE3 then [.sca f.d.toNat 1] else if op == 0xE4 then [scaUse f.d.toNat 1]
      else if op == 0xE8 then [.sca f.d.toNat 2] else []
  | _ => []

/-- Source uses in the order A, B, C, then the other numbers the word names. CAS64 gives its new pair's number whole (R229). -/
def Enc.srcUses (e : Enc) : List RegUse :=
  match e with
  | .rk op f => (match f.body, rkFormOf op with
      | .k _ _ _ _, some p => if p.nsrc == 1 then [] else (e.opds.take 1).flatMap Opd.uses
      | _, some p => if op == 0x8B then (match f.a with | .s n => [.run n.toNat (n.toNat + f.planes)] | _ => [])
        else (e.opds.take p.nsrc).flatMap Opd.uses
      | _, none => []) ++ (if op == 0xC3 || op == 0xC4 || op == 0xC5 then (match f.a with | .imm n => [.queue n.toNat] | _ => []) else [])
  | .mem op f =>
    (opdPair f.a).uses ++ (if op == 0xB2 && f.sz == 6 then (match f.b with
        | .v n => [.vec n.toNat 4] | .s n => [.sca n.toNat 4] | _ => []) else ((e.opds.drop 1).flatMap Opd.uses))
      ++ (if f.sz == 7 && op == 0xB2 then [.run f.off6.toNat (f.off6.toNat + f.mod.toNat % 8 + 1)] else [])
      ++ (if !(f.sz == 7 && (op == 0xB1 || op == 0xB2)) && f.mod.getLsbD 5 then [.lims f.off6.toNat] else [])
  | .bar grid f => e.opds.flatMap Opd.uses ++ (if grid then [] else [.bar f.no.toNat])
  | .pal op f => e.opds.flatMap Opd.uses
      ++ (if op == 0xD0 || (0xD2 ≤ op && op ≤ 0xD5) then [.pal f.p.toNat] else if 0xD6 ≤ op && op ≤ 0xDA then [.tile f.p.toNat] else [])
  | .plook f => e.opds.flatMap Opd.uses ++ [.pal f.p.toNat, .tile f.n.toNat]
  | .cas f => (opdPair f.a).uses ++ (opdPair f.b).uses ++ [if f.newS then .sca f.new.toNat 2 else .vec f.new.toNat 2]
  | e => e.opds.flatMap Opd.uses

end Sys2Proof
namespace Sys2Proof.Machine

/-- Scalar registers a word reads or writes, for the interlock on tokens (R74, R128). -/
def RegUse.scalars : RegUse → List Nat
  | .sca n c => (List.range c).map (n + ·)
  | .lims n => [n, n + 1, n + 2, n + 3]
  | .run lo hi => (List.range (hi + 1 - lo)).map (lo + ·)
  | _ => []
end Sys2Proof.Machine
namespace Sys2Proof
open Machine

/-- Scalar registers read. -/
def Enc.readsS (e : Enc) : List Nat := e.srcUses.flatMap RegUse.scalars


/-- Queue numbers a word pops, in the order A, B, C. -/
def Enc.pops (e : Enc) : List Nat :=
  let l := match e with
    | .rk op f => match f.body, rkFormOf op with
      | .k _ _ _ _, some p => if p.nsrc == 1 then [] else e.opds.take 1
      | _, _ => e.opds
    | _ => e.opds
  l.filterMap (fun o => match o.src with | .q n => some n.toNat | _ => none)
/-- The queue a word pushes (R135, R136). -/
def Enc.push (e : Enc) : Option Nat :=
  (e.dstUses.head?).bind (fun u => match u with | .queue n => some n | _ => none)

end Sys2Proof
namespace Sys2Proof.Machine


/-! ## Beside palette work -/

/-- A release, for the points at which ACCCHK is raised (R72, R262). -/
def releases (e : Enc) : Bool :=
  match e with
  | .mem op f => (op == 0xB2 || op == 0xB3 || op == 0xB4) && (f.ord == 2 || f.ord == 3)
  | .cas f => f.ord == 2 || f.ord == 3
  | .fence _ => true
  | .bar _ _ => true
  | .sync op _ => op == 0xBC || op == 0xC0
  | .acopy _ => true
  | .rk op _ => op == 0xC4
  | .sys op _ => op == 0xE0 || op == 0xE3
  | _ => false
/-- An access or release that is made after the warp's earlier palette-class instructions, or EXIT (R259, R262). -/
def afterPalette (e : Enc) : Bool :=
  releases e || (match e with
    | .mem _ _ => true
    | .cas _ => true
    | .sync _ _ => true
    | .obj _ _ _ => true
    | .rk op _ => op == 0x39
    | .sys op _ => op == 0xEA || op == 0xEB
    | _ => false)
/-! ## Accepted operations of the palette unit -/

/-- Tiles of the run that h rows cover from tile n (R257). -/
def runTiles (n h : Nat) : List Nat := (List.range (cdiv h 64)).map (n + ·)
/-- Tiles of an operation's run (R257). -/
def PalKind.tiles : PalKind → List Nat
  | .look _ t _ _ _ _ rows _ _ => runTiles t rows
  | .zero t _ h _ => runTiles t h
  | .load t _ sh => runTiles t (fld sh.toNat 96 16)
  | .read t _ _ _ _ _ => [t]
  | .drain t _ sh _ _ => runTiles t (fld sh.toNat 96 16)
  | _ => []
/-- The version it names (R261). -/
def PalKind.ver : PalKind → Option (BitVec 16)
  | .look _ _ v _ _ _ _ _ _ => some v
  | .zero _ v _ _ => some v
  | .load _ v _ => some v
  | .read _ v _ _ _ _ => v
  | .drain _ v _ _ _ => some v
  | _ => none
/-- It advances the version (R261). -/
def PalKind.incr : PalKind → Bool
  | .read _ _ _ _ _ _ => false
  | k => k.ver.isSome
/-- The palette it reads or writes, and whether it writes it (R260). -/
def PalKind.palUse : PalKind → Option (Nat × Bool)
  | .build p _ _ _ => some (p, true)
  | .look p _ _ _ _ _ _ _ rb => some (p, rb)
  | .spill p _ => some (p, false)
  | .fill p _ _ => some (p, true)
  | .inv p => some (p, false)
  | _ => none
/-- Its region is written. -/
def PalKind.writes : PalKind → Bool
  | .drain _ _ _ _ _ => true
  | .spill _ _ => true
  | _ => false
/-- The TY it sets (R257). -/
def PalKind.setsTy : PalKind → Option Bool
  | .zero _ _ _ i => some i
  | .load _ _ sh => some (fld sh.toNat 68 4 == 9)
  | _ => none
/-- An arriving copy. -/
def PalKind.isCopy : PalKind → Bool
  | .copy _ _ _ _ => true
  | _ => false

end Sys2Proof.Machine
end

