-- ==== Sys2Proof/Machine/Ops.lean ====
section
/-! DEFINITION. The named operations over the state: registers, warps and sub-groups, clause ends, queue reservations,
faults bound for the driver, and taking and leaving a trap (R310 to R314). -/
namespace Sys2Proof.Machine

/-! ## Device registers -/

/-- First key of the notify pages, which lie in BAR2 (R349). -/
def notifyBase : Nat := 0x100000000

/-- Reset value of the 64-bit register at a BAR0 byte offset (R348, R339, R418, R419, R431; others are 0). -/
def barReset (off : Nat) : DWord :=
  if 0x100000 ≤ off ∧ off < 0x110000 ∧ off % 64 = 16 then 0x03E8000000000044
  else if off = 0x400000 then 0x0007D06695F58960
  else if 0x500000 ≤ off ∧ off < 0x560000 then
    (if off % 0x1000 = 0 then 0x80406028 else if off % 0x1000 = 8 then 0x08888881 else if off % 0x1000 = 0x18 then 0x1A else 0)
  else if 0x600000 ≤ off ∧ off < 0x6000B0 ∧ off % 16 = 8 then 0x100000000
  else 0

/-- Value of the register at a byte offset. -/
def State.barGet (s : State) (off : Nat) : DWord := tget (barReset off) s.bar off
/-- Sets it. -/
def State.barSet (s : State) (off : Nat) (v : DWord) : State := { s with bar := tput (barReset off) s.bar off v }
/-- A field of it. -/
def State.barFld (s : State) (off lo n : Nat) : Nat := dfld (s.barGet off) lo n
/-- Sets a field. -/
def State.barPut (s : State) (off lo n x : Nat) : State := s.barSet off (dset (s.barGet off) lo n x)

/-- Notify page index k of queue q: 0 WRIDX, 1 RDIDX, 2 CWRIDX, 3 CRDIDX (R349). -/
def State.idx (s : State) (q k : Nat) : Word :=
  BitVec.ofNat 32 (s.barFld (notifyBase + 4096 * q + 8 * (k / 2)) (32 * (k % 2)) 32)
def State.setIdx (s : State) (q k : Nat) (v : Word) : State :=
  s.barPut (notifyBase + 4096 * q + 8 * (k / 2)) (32 * (k % 2)) 32 v.toNat

/-- Field [lo + n − 1 : lo] of queue q's descriptor (R348). -/
def State.qd (s : State) (q lo n : Nat) : Nat := s.barFld (0x100000 + 64 * q + 8 * (lo / 64)) (lo % 64) n
def State.setQd (s : State) (q lo n x : Nat) : State := s.barPut (0x100000 + 64 * q + 8 * (lo / 64)) (lo % 64) n x

/-- This package's number (R398). -/
def State.pkg (s : State) : Nat := s.barFld 0x300300 0 6
/-- Timer as software reads it (R41). -/
def State.time (s : State) : DWord := BitVec.ofNat 64 s.timer

/-- A message leaves the package. -/
def State.send (s : State) (m : Msg) : State := { s with out := s.out ++ [m] }
/-- A fresh identity (model's own). -/
def State.fresh (s : State) : State := { s with nextId := s.nextId + 1 }
/-- The counter of free values advances (log 2). -/
def State.useFree (s : State) : State := { s with free := s.free + 1 }

/-! ## Places -/

/-- Cluster of a core's global index (R361). -/
def clusterOf (core : Nat) : Nat := core / 6
/-- Die of a core. -/
def dieOf (core : Nat) : Nat := core / 144
/-- Lit cores: (0,0), (0,2) and (1,1) (R27). -/
def isLit (core : Nat) : Bool := core % 6 == 0 || core % 6 == 2 || core % 6 == 4
/-- Lending partner of a lit core (R27). -/
def partnerOf (core : Nat) : Nat := core / 6 * 6 + (if core % 6 = 0 then 1 else if core % 6 = 2 then 5 else 3)

/-! ## Groups, warps and sub-groups -/

def State.group? (s : State) (gid : Nat) : Option Group := s.groups.find? (fun g => g.id == gid)
def State.updGroup (s : State) (gid : Nat) (f : Group → Group) : State :=
  { s with groups := s.groups.map (fun g => if g.id = gid then f g else g) }
def Group.warp? (g : Group) (w : Nat) : Option Warp := g.warps.find? (fun x => x.idx == w)
def Group.updWarp (g : Group) (w : Nat) (f : Warp → Warp) : Group :=
  { g with warps := g.warps.map (fun x => if x.idx = w then f x else x) }
def State.warp? (s : State) (gid w : Nat) : Option Warp := (s.group? gid).bind (fun g => g.warp? w)
def State.updWarp (s : State) (gid w : Nat) (f : Warp → Warp) : State := s.updGroup gid (fun g => g.updWarp w f)
def Warp.sub? (w : Warp) (id : Nat) : Option SubGroup := w.subs.find? (fun u => u.id == id)
def Warp.updSub (w : Warp) (id : Nat) (f : SubGroup → SubGroup) : Warp :=
  { w with subs := w.subs.map (fun u => if u.id = id then f u else u) }
def State.updSub (s : State) (gid w id : Nat) (f : SubGroup → SubGroup) : State :=
  s.updWarp gid w (fun x => x.updSub id f)
def State.sub? (s : State) (gid w id : Nat) : Option SubGroup := (s.warp? gid w).bind (fun x => x.sub? id)

def State.grid? (s : State) (id : Nat) : Option Grid := s.grids.find? (fun g => g.id == id)
def State.updGrid (s : State) (id : Nat) (f : Grid → Grid) : State :=
  { s with grids := s.grids.map (fun g => if g.id = id then f g else g) }
def State.job? (s : State) (id : Nat) : Option Job := s.jobs.find? (fun j => j.id == id)
def State.updJob (s : State) (id : Nat) (f : Job → Job) : State :=
  { s with jobs := s.jobs.map (fun j => if j.id = id then f j else j) }

/-- Field of a launch packet or task descriptor (R353). -/
def pfld (p : BitVec 1024) (lo n : Nat) : Nat := fld p.toNat lo n
/-- Warps of role i (R353). -/
def rolec (p : BitVec 1024) (i : Nat) : Nat := pfld p (448 + 6 * i) 6
/-- Warps of a group: the ROLEC fields before the first 0 (R353). -/
def roleCounts (p : BitVec 1024) : List Nat := ((List.range 8).map (rolec p)).takeWhile (· != 0)
def warpCount (p : BitVec 1024) : Nat := (roleCounts p).foldl (· + ·) 0
/-- Private bytes per thread (R9, R353). -/
def privSize (p : BitVec 1024) : Nat := 16 * pfld p 496 13
/-- Scratchpad footprint in bytes (R24, R353). -/
def scrBytes (p : BitVec 1024) : Nat := 1024 * pfld p 530 10

/-- Packet of a group's grid. -/
def State.pktOf (s : State) (g : Group) : BitVec 1024 :=
  match s.grid? g.grid with
  | some r => r.pkt
  | none => 0
/-- Context of a group. -/
def State.ctxOf (s : State) (g : Group) : Nat :=
  match s.grid? g.grid with
  | some r => r.ctx
  | none => 0

/-! ## Registers of a warp -/

/-- Vector register n of lane t; v255 reads zero (R21). -/
def Warp.readV (w : Warp) (n t : Nat) : Word := if n = 255 then 0 else tget 0 w.vregs (32 * n + t)
/-- Writes it; a write to v255 is discarded (R21). -/
def Warp.writeV (w : Warp) (n t : Nat) (v : Word) : Warp :=
  if n = 255 then w else { w with vregs := tput 0 w.vregs (32 * n + t) v }
/-- Scalar register n. -/
def Warp.readS (w : Warp) (n : Nat) : Word := tget 0 w.sregs n
/-- Writes it; a value other than a token ends its being one (R74). -/
def Warp.writeS (w : Warp) (n : Nat) (v : Word) : Warp :=
  { w with sregs := tput 0 w.sregs n v, tokens := tdel w.tokens n }
/-- Predicate kn; k0 reads all ones (R20). -/
def Warp.readK (w : Warp) (n : Nat) : Mask := if n = 0 then 0xFFFFFFFF else tget 0 w.preds n
/-- Writes it; k0 cannot be written (R135). -/
def Warp.writeK (w : Warp) (n : Nat) (v : Mask) : Warp := if n = 0 then w else { w with preds := tput 0 w.preds n v }

/-- Writes a vector register in the active lanes only (R156). -/
def Warp.writeVs (w : Warp) (n : Nat) (act : Mask) (f : Nat → Word) : Warp :=
  (lanesOf act).foldl (fun x t => x.writeV n t (f t)) w
/-- Writes an even vector pair in the active lanes (R88). -/
def Warp.writeVPair (w : Warp) (n : Nat) (act : Mask) (f : Nat → DWord) : Warp :=
  (w.writeVs n act (fun t => (f t).setWidth 32)).writeVs (n + 1) act (fun t => ((f t) >>> 32).setWidth 32)
/-- Writes bit t of kn for active lanes t only (R156). -/
def Warp.writeKs (w : Warp) (n : Nat) (act : Mask) (p : Nat → Bool) : Warp :=
  w.writeK n ((w.readK n &&& ~~~act) ||| (maskOf p &&& act))
/-- Writes an even scalar pair (R88). -/
def Warp.writeSPair (w : Warp) (n : Nat) (v : DWord) : Warp :=
  (w.writeS n (v.setWidth 32)).writeS (n + 1) ((v >>> 32).setWidth 32)
def Warp.readVPair (w : Warp) (n t : Nat) : DWord := w.readV (n + 1) t ++ w.readV n t
def Warp.readSPair (w : Warp) (n : Nat) : DWord := w.readS (n + 1) ++ w.readS n

/-- Adds to performance counter n of a warp (R305). -/
def Warp.count (w : Warp) (n k : Nat) : Warp :=
  { w with perf := tput 0 w.perf n (tget 0 w.perf n + BitVec.ofNat 64 k) }
/-- Adds to performance counter n of a group (R305). -/
def Group.count (g : Group) (n k : Nat) : Group :=
  { g with perf := tput 0 g.perf n (tget 0 g.perf n + BitVec.ofNat 64 k) }

/-! ## The issuing sub-group -/

/-- The sub-group that issues: quad, group, warp, sub-group, its clause and header. -/
structure Iss where
  q : Nat
  g : Group
  w : Warp
  u : SubGroup
  c : Clause
  h : Header
deriving DecidableEq, Repr

/-- The sub-group whose clause the current quad runs. -/
def State.issuer? (s : State) : Option Iss :=
  match s.cur with
  | none => none
  | some q =>
    match (tget idleQuad s.quads q).run with
    | none => none
    | some (gid, wi) =>
      match s.group? gid with
      | none => none
      | some g =>
        match g.warp? wi with
        | none => none
        | some w =>
          match w.subs.find? (fun u => u.run.isSome) with
          | none => none
          | some u =>
            match u.run with
            | none => none
            | some c =>
              match decodeHeader c.word with
              | none => none
              | some h => some ⟨q, g, w, u, c, h⟩

/-- Address after the issuer's clause (R120). -/
def Iss.succ (i : Iss) : DWord := i.c.head + BitVec.ofNat 64 (8 * (i.h.count + 1))
/-- The issuer's instruction stands last in its clause (R124). -/
def Iss.isLast (i : Iss) : Bool := i.u.pc + 8 == i.succ
/-- Lanes of the issuing sub-group selected by a guard (R130). -/
def Iss.active (i : Iss) (g : Guard) : Mask :=
  let k := i.w.readK g.g.toNat
  i.u.lanes &&& (if g.neg then ~~~k else k)
/-- Updates the issuer's warp. -/
def Iss.upd (i : Iss) (s : State) (f : Warp → Warp) : State := s.updWarp i.g.id i.w.idx f
/-- Updates the issuer's group. -/
def Iss.updG (i : Iss) (s : State) (f : Group → Group) : State := s.updGroup i.g.id f
/-- Updates the issuing sub-group. -/
def Iss.updU (i : Iss) (s : State) (f : SubGroup → SubGroup) : State := s.updSub i.g.id i.w.idx i.u.id f

/-- Sets what a quad runs. -/
def State.setQuad (s : State) (q : Nat) (x : Quad) : State := { s with quads := tput idleQuad s.quads q x }
def State.quad (s : State) (q : Nat) : Quad := tget idleQuad s.quads q
/-- Quad of a warp: slot mod 4 of its core (R29). -/
def quadOf (core slot : Nat) : Nat := 4 * core + slot % 4
/-- The quad of a warp ends the clause it runs. -/
def State.freeQuad (s : State) (gid w : Nat) : State :=
  { s with quads := s.quads.map (fun e => if e.2.run = some (gid, w) then (e.1, ⟨none, some (gid, w), e.2.skip, e.2.next, none, e.2.passes⟩) else e) }

/-! ## Queue registers (R125, R251) -/

def emptyQueue : QueueReg := ⟨[], 1, [], false, []⟩
/-- A pushed value that may be popped: it has a value and no palette work before it (R251). -/
def QEntry.performed (e : QEntry) : Bool := e.val.isSome && e.after.isEmpty
/-- Performed values at the head, before the first entry that is not (R251). -/
def QueueReg.heads (q : QueueReg) : List QEntry := q.entries.takeWhile QEntry.performed
/-- Capacity of a queue register (R251). -/
def queueCap : Nat := 32

/-- Values of queue q reserved by started clauses, over the whole group: they still occupy the queue. -/
def Group.reservedPops (g : Group) (q : Nat) : Nat :=
  g.warps.foldl (fun a w => w.subs.foldl (fun a u => match u.run with
    | some c => c.pops.foldl (fun a p => if p.1 = q then a + p.2.length else a) a
    | none => a) a) 0

/-- Takes the reservations of a clause: n performed values from each queue it pops, and one entry for each push (R125). -/
def QueueReg.take (q : QueueReg) (n : Nat) : List Word × QueueReg :=
  let k := min n q.heads.length
  ((q.entries.take k).map (fun e => e.val.getD 0), { q with entries := q.entries.drop k })
def QueueReg.reserve (q : QueueReg) (w u n : Nat) : QueueReg :=
  { q with entries := q.entries ++ List.replicate n ⟨w, u, none, []⟩ }

/-- Leaving a clause early: values not popped go back to the head, entries not filled are dropped (R125). -/
def Group.release (g : Group) (w u : Nat) (c : Clause) : Group :=
  let g := c.pops.foldl (fun g p =>
    { g with queues := tins g.queues p.1 (let q := tget emptyQueue g.queues p.1
        { q with entries := p.2.map (fun v => ⟨w, u, some v, []⟩) ++ q.entries }) }) g
  { g with queues := g.queues.map (fun e =>
      (e.1, { e.2 with entries := e.2.entries.filter (fun x => !(x.warp == w && x.sub == u && x.val.isNone)) })) }

/-! ## Clause ends (R12, R142, R172) -/

/-- The loop test of R142 at the end of a clause: e is the address after it. -/
def loopLevels (l : LoopState) (e : DWord) : List Nat → DWord × LoopState
  | [] => (e, l)
  | k :: r =>
    if l.active.getLsbD k && l.stop.getD k 0 == e then
      if 1 < (l.count.getD k 0).toNat then (l.start.getD k 0, { l with count := l.count.set k (l.count.getD k 0 - 1) })
      else loopLevels { l with active := l.active &&& ~~~(1#3 <<< k) } e r
    else loopLevels l e r
def loopTest (l : LoopState) (e : DWord) : DWord × LoopState := loopLevels l e [2, 1, 0]

/-- A loop state with level k and every higher level inactive. -/
def LoopState.leave (l : LoopState) (k : Nat) : LoopState := { l with active := l.active &&& (BitVec.ofNat 3 (2 ^ k - 1)) }
/-- A taken BRA or JMP to a target outside an active level leaves that level and every higher one (R143). -/
def LoopState.jump (l : LoopState) (t : DWord) : LoopState :=
  [0, 1, 2].foldl (fun a k =>
    if a.active.getLsbD k && !((l.start.getD k 0).toNat ≤ t.toNat && t.toNat < (l.stop.getD k 0).toNat) then a.leave k else a) l
/-- No level active, counters 0 (R20). -/
def LoopState.clear : LoopState := ⟨[0, 0, 0], [0, 0, 0], [0, 0, 0], 0⟩

/-- Lanes that leave a clause together: where they stand, and how. -/
structure Part where
  lanes : Mask
  pc : DWord
  mid : Option DWord
  loop : LoopState
  st : SubState
deriving DecidableEq, Repr

/-- Lanes with the same next PC form one sub-group, which takes the loop state of the part listed first (R11, R172). -/
def mergeParts : List Part → List Part
  | [] => []
  | p :: r =>
    let r := mergeParts r
    if p.lanes = 0 then r
    else match r.find? (fun x => x.pc == p.pc && x.mid == p.mid && x.st == p.st) with
      | some x => { p with lanes := p.lanes ||| x.lanes } :: r.filter (fun y => !(y.pc == p.pc && y.mid == p.mid && y.st == p.st))
      | none => p :: r
/-- Parts in ascending order of lowest lane. -/
def insertPart (p : Part) : List Part → List Part
  | [] => [p]
  | x :: r => if lowLane p.lanes < lowLane x.lanes then p :: x :: r else x :: insertPart p r
def sortParts (l : List Part) : List Part := l.foldr insertPart []

/-- Sub-groups made of parts; the first keeps the parent's identity, the others take fresh ones. -/
def mkSubs (u : SubGroup) (id : Nat) : List Part → List SubGroup
  | [] => []
  | p :: r => { u with id := id, lanes := p.lanes, pc := p.pc, mid := p.mid, run := none, st := p.st, loop := p.loop,
                       pend := none, owes := [], allot := 0 } :: mkSubs u (id + 1) r
def partSubs (u : SubGroup) (next : Nat) : List Part → List SubGroup
  | [] => []
  | p :: r => { u with lanes := p.lanes, pc := p.pc, mid := p.mid, run := none, st := p.st, loop := p.loop, pend := none,
                       owes := [], allot := 0 } :: mkSubs { u with handler := u.handler } next r

/-- Replaces a sub-group in the list at its position (R11). -/
def replaceSub (id : Nat) (new : List SubGroup) : List SubGroup → List SubGroup
  | [] => []
  | u :: r => if u.id = id then new ++ r else u :: replaceSub id new r
/-- The sub-group listed before one, wrapping to the last. -/
def prevSub (id : Nat) (l : List SubGroup) : Option Nat :=
  match l.takeWhile (fun u => u.id != id) with
  | [] => (l.getLast?).map (fun u => u.id)
  | x => (x.getLast?).map (fun u => u.id)

/-- The sub-group leaves its clause as the given parts. The first of them is active; one that blocks, like a sub-group with no
lane left, lets the next ready one after it be active (R12, R172). -/
def Warp.splitSub (w : Warp) (u : SubGroup) (next : Nat) (parts : List Part) : Warp :=
  match partSubs u next parts with
  | [] => { w with active := prevSub u.id w.subs, runs := 16, subs := replaceSub u.id [] w.subs }
  | [x] => { w with subs := replaceSub u.id [x] w.subs, active := some x.id, runs := if x.st = .ready then w.runs else 16 }
  | x :: r => { w with subs := replaceSub u.id (x :: r) w.subs, active := some x.id, runs := if x.st = .ready then 0 else 16 }

/-! ## Physical addresses (R372) -/

/-- 192 GiB: device memory of one die (R393). -/
def dieBytes : Nat := 192 * 2 ^ 30
/-- Bits [51:48] of a physical address. -/
def paTop (pa : Nat) : Nat := pa / 2 ^ 48 % 16
/-- An own-memory offset that a running die holds (R372, R393, R408). -/
def State.installed (s : State) (pa : Nat) : Bool := pa < 4 * dieBytes && s.bu.dieRun.getLsbD (pa / dieBytes)
/-- Package named by a peer address (R372). -/
def paPkg (pa : Nat) : Nat := pa / 2 ^ 45 % 64
def isOwn (pa : Nat) : Bool := paTop pa == 0
def isPeer (pa : Nat) : Bool := 8 ≤ paTop pa
/-- The one form in which a valid physical address keys memory (R372): own memory under either name is offset PA[47:0];
none for an invalid address or a package not joined. -/
def State.canonPa (s : State) (pa : Nat) : Option Nat :=
  let pa := pa % 2 ^ 52
  if paTop pa = 0 then (if s.installed pa then some pa else none)
  else if paTop pa = 1 then some pa
  else if paTop pa < 8 then none
  else if pa / 2 ^ 40 % 32 != 0 then none
  else if paPkg pa = s.pkg then (if s.installed (pa % 2 ^ 40) then some (pa % 2 ^ 40) else none)
  else if thas s.peers (paPkg pa) then some pa else none
/-- A peer that no path reaches (R401). -/
def State.unreachable (s : State) (pa : Nat) : Bool := isPeer pa && !(tget true s.peers (paPkg pa))
/-- Home die and home slice of own memory (R393). -/
def homeDie (pa : Nat) : Nat := pa / dieBytes
def homeSlice (pa : Nat) : Nat := 24 * homeDie pa + pa / 4096 % 24

/-! ## Faults bound for the driver (R380 to R382) -/

/-- Bytes of a physical range, as the ordering point holds them; an unlisted byte reads 0 (log 4). -/
def State.peek (s : State) (pa n : Nat) : List Byte := (List.range n).map (fun i => tget 0 s.mem (pa + i))
/-- Little-endian value of a physical range. -/
def State.peekN (s : State) (pa n : Nat) : Nat := leVal (s.peek pa n)
/-- Physical address of a context's descriptor (R368). -/
def State.ctxAddr (s : State) (c : Nat) : Nat :=
  let a := s.barFld 0x200000 12 52 * 4096 + 128 * c
  (s.canonPa a).getD a
/-- Field of a context's descriptor (R368); a field lies within one aligned 8-byte part. -/
def State.ctxFld (s : State) (c lo n : Nat) : Nat := fld (s.peekN (s.ctxAddr c + 8 * (lo / 64)) 8) (lo % 64) n
/-- Fault epoch of a context (R368). -/
def State.epoch (s : State) (c : Nat) : BitVec 16 := BitVec.ofNat 16 (s.ctxFld c 80 16)
/-- What the device holds for a context. -/
def emptyCtx (c : Nat) : Ctx := ⟨c, [none, none, none, none], false, false, none, false⟩
def State.ctx (s : State) (c : Nat) : Ctx := (s.ctxs.find? (fun x => x.id == c)).getD (emptyCtx c)
def State.setCtx (s : State) (x : Ctx) : State := { s with ctxs := x :: s.ctxs.filter (fun y => y.id != x.id) }

/-- A fault event of a group, with the fields common to every kind (R380). -/
def State.faultOf (s : State) (g : Group) (kind : Nat) : FaultEv :=
  let c := s.ctxOf g
  { fid := s.nextId, seq := none, ctx := c, epoch := s.epoch c, addr := 0, kind := kind, acc := 0, level := 0, src := 0,
    unit := g.core, cause := 0, cause2 := 0,
    gen := (match s.grid? g.grid with | some r => r.gen | none => 0), gidx := BitVec.ofNat 32 g.lin,
    pc := 0, val := 0, mask := 0, inst := 0, waiters := [], merged := 0, wrote := 0 }

/-- Entries of the fault ring (R367). -/
def State.faultCap (s : State) : Nat := 2 ^ (s.barFld 0x200020 0 4 + 4)
/-- Address of record n of the fault ring (R380). -/
def State.faultAt (s : State) (n : Nat) : Option Nat := s.canonPa (s.barFld 0x200020 12 52 * 4096 + 64 * (n % s.faultCap))
/-- An event reaches the translation block: a kind 1 or 2 fault attaches to an unanswered one of the same context,
epoch, page and kind (R381); any other waits to be written, in order (R382). The identity it gets is returned. -/
def State.pushFault (s : State) (e : FaultEv) : State × Nat :=
  match (if e.kind ≤ 2 then s.faults.find? (fun f => f.kind == e.kind && f.ctx == e.ctx && f.epoch == e.epoch
          && f.addr.toNat / 4096 == e.addr.toNat / 4096) else none) with
  | some f =>
    ({ s with faults := s.faults.map (fun x => if x.fid = f.fid then { x with waiters := x.waiters ++ e.waiters, merged := x.merged + 1 } else x) }, f.fid)
  | none => ({ s with faults := s.faults ++ [{ e with fid := s.nextId, merged := 1 }], nextId := s.nextId + 1 }, s.nextId)

/-! ## Group kill and traps (R310 to R314, R429) -/

/-- Quads that run a clause of the group end it (R427). -/
def State.freeQuads (s : State) (gid : Nat) : State :=
  { s with quads := s.quads.map (fun (e : Nat × Quad) => match e.2.run with
    | some r => if r.1 = gid then (e.1, { e.2 with run := none, stall := none }) else e
    | none => e) }
/-- The group's sub-groups wait for no reply and no future any more. -/
def State.dropWaits (s : State) (gid : Nat) : State :=
  { s with waits := s.waits.filter (fun (x : FutureWait) => x.gid != gid),
           faults := s.faults.map (fun (e : FaultEv) => { e with waiters := e.waiters.filter (fun x => match x with
             | .sub g _ _ _ => g != gid
             | _ => true) }) }
/-- A stopped warp: no lane of it is live, it leaves the RIE (R34), and only jobs it has issued stay outstanding (R427). -/
def Warp.stopAll (w : Warp) : Warp :=
  { w with live := 0, subs := [], active := none, inRie := false, rieEnd := none, acq := false, spec := [], acc := [],
           outst := w.outst.filter (fun o => match o.kind with | .job _ => true | _ => false) }
/-- A group stops: no warp of it issues again, and its work not yet performed is discarded (R427, R429). -/
def State.stopGroup (s : State) (gid : Nat) (why : Nat × Nat) (kill : Bool) : State :=
  ((s.freeQuads gid).dropWaits gid).updGroup gid (fun g =>
    { g with stop := some why, killed := kill, palOps := [], claims := [], warps := g.warps.map Warp.stopAll })

/-- The first kill of a grid names its completion record's CAUSE (R357). -/
def State.noteKill (s : State) (grid cause : Nat) : State :=
  s.updGrid grid (fun r => { r with kill := some (r.kill.getD cause) })

/-- A group is killed by a trap (R312, R314): the driver gets a kind 3 record. cause2 is what was being handled. -/
def State.killTrap (s : State) (g : Group) (t : TrapRec) (cause2 : Nat) : State :=
  let e := { s.faultOf g 3 with cause := t.cause.toNat, cause2 := cause2, pc := t.tpc, val := t.tval, mask := t.tmask, inst := t.tinst }
  let s := (s.pushFault e).1
  (s.stopGroup g.id (t.cause.toNat, 0) true).noteKill g.grid t.cause.toNat

/-- An outstanding instruction that a trap does not wait for (R310): its effects are made, or lanes of it are parked. -/
def Outst.settled (o : Outst) : Bool :=
  match o.kind with
  | .free => true
  | .parked _ => true
  | _ => false

/-- Every earlier instruction of the warp has completed (R310). An access that a bias flip stalls keeps its clause. -/
def trapReady (g : Group) (w : Warp) : Bool :=
  w.outst.all Outst.settled && g.palOps.all (fun o => o.warp != w.idx) && !w.acq

/-- Scalar registers that a word reads. -/
def wordReads (word : DWord) : List Nat :=
  match decode word.toNat with
  | .ok i => i.enc.readsS
  | .error _ => []
/-- ENGJOB clears STATUS of the token that the trapping word read (R234). -/
def Warp.clearToken (w : Warp) (t : TrapRec) : Warp :=
  if t.cause = 0x13 then
    match (wordReads t.tinst).find? (fun n => thas w.tokens n && (w.readS n).toNat == t.tval.toNat) with
    | some n => { w with sregs := tput 0 w.sregs n (w.readS n &&& 0x0FFFFFFF) }
    | none => w
  else w

/-- Trap entry (R310): the trap CSRs are written, INH set, and the sub-group continues at `tvec` with every lane. -/
def Warp.enterTrap (w : Warp) (id : Nat) (t : TrapRec) : Warp :=
  let w := w.clearToken t
  let w := { w with tcause := t.cause, inh := true, tpc := t.tpc, tinst := t.tinst, tmask := t.tmask, tval := t.tval,
                    resume := t.resume, active := some id, runs := 0,
                    outst := w.outst.filter (fun o => match o.kind with | .free => false | .parked k => k != id | _ => true) }
  w.updSub id (fun u => { u with pc := w.tvec, mid := none, run := none, st := .ready, pend := none, handler := true,
                                 owes := [], allot := 0 })

/-- Takes the trap of a sub-group: a double trap or no handler kills the group, else the handler is entered. -/
def State.takeTrap (s : State) (g : Group) (w : Warp) (id : Nat) (t : TrapRec) : State :=
  if w.inh then s.killTrap g t w.tcause.toNat
  else if w.tvec = 0 then s.killTrap g t 0
  else s.updWarp g.id w.idx (fun x => x.enterTrap id t)

/-- A trap is raised on a sub-group: it leaves its clause with its reservations (R125) and takes the trap at once, or
keeps it pending until the warp's earlier instructions have completed (R310, R434). -/
def State.raise (s : State) (gid wi id : Nat) (t : TrapRec) : State :=
  match s.group? gid with
  | none => s
  | some g =>
    match g.warp? wi with
    | none => s
    | some w =>
      match w.sub? id with
      | none => s
      | some u =>
        let s := match u.run with
          | some c => (s.updGroup gid (fun g => g.release wi id c)).freeQuad gid wi
          | none => s
        let s := s.updSub gid wi id (fun u => { u with run := none })
        if w.inh || w.tvec = 0 || trapReady g w then s.takeTrap g w id t
        else s.updWarp gid wi (fun x => { x.updSub id (fun u => { u with pend := some t }) with active := some id })

/-- The clause that holds an address, as the resume clause of a trap or a re-issue: none at a header (R310, R126). -/
def Iss.resumeOf (i : Iss) (pc : DWord) : Option DWord := if pc == i.c.head then none else some i.c.head

/-- fault() of R8: no effect in any lane, the cause raised before the instruction. -/
def Iss.fault (i : Iss) (s : State) (cause : Nat) (word : Nat) (mask : Mask) (val : Nat) : State :=
  s.raise i.g.id i.w.idx i.u.id
    ⟨BitVec.ofNat 8 cause, i.u.pc, BitVec.ofNat 64 word, mask, BitVec.ofNat 64 val, i.resumeOf i.u.pc⟩

/-- A trap taken after TRAP, which stands last: `tpc` is the successor's header, and loop state is unchanged (R143, R183). -/
def Iss.trapPast (i : Iss) (s : State) (cause : Nat) (word : Nat) (mask : Mask) (val : Nat) : State :=
  let pc := i.u.pc + 8
  s.raise i.g.id i.w.idx i.u.id
    ⟨BitVec.ofNat 8 cause, pc, BitVec.ofNat 64 word, mask, BitVec.ofNat 64 val, if i.isLast then none else i.resumeOf pc⟩
/-- Where an instruction that completes goes on: the next word, or at its clause's end what the loop test says (R142). -/
def Iss.nextPc (i : Iss) : DWord × LoopState := if i.isLast then loopTest i.u.loop i.succ else (i.u.pc + 8, i.u.loop)
/-- trap_after() of R8: the instruction has completed, and `tpc` is the next instruction, which at a clause's end the loop
test gives (R98, R142, log 19). -/
def Iss.trapAfter (i : Iss) (s : State) (cause : Nat) (word : Nat) (mask : Mask) (val : Nat) : State :=
  let n := i.nextPc
  (i.updU s (fun u => { u with loop := n.2 })).raise i.g.id i.w.idx i.u.id
    ⟨BitVec.ofNat 8 cause, n.1, BitVec.ofNat 64 word, mask, BitVec.ofNat 64 val, if i.isLast then none else i.resumeOf n.1⟩

/-- Cause codes (R311). -/
def causeIllop : Nat := 0x01
def causeIllcl : Nat := 0x02
def causePriv : Nat := 0x03
def causeMisalign : Nat := 0x04
def causeAperture : Nat := 0x05
def causePageFault : Nat := 0x06
def causeProt : Nat := 0x07
def causeDivZero : Nat := 0x08
def causeFpx : Nat := 0x09
def causePalStale : Nat := 0x0A
def causePalRange : Nat := 0x0B
def causeAccVer : Nat := 0x0C
def causeAccChk : Nat := 0x0D
def causeBarOvr : Nat := 0x0E
def causeClaimDl : Nat := 0x0F
def causeQeos : Nat := 0x10
def causeSpawnDepth : Nat := 0x11
def causeShape : Nat := 0x12
def causeEngJob : Nat := 0x13
def causeSwTrap : Nat := 0x14
def causeEccUe : Nat := 0x15
def causeStackOvf : Nat := 0x16
def causeBounds : Nat := 0x17
def causeBreak : Nat := 0x18

/-- The handler ends (R313): INH is cleared and the other sub-groups may issue again. -/
def Warp.leaveTrap (w : Warp) : Warp :=
  { w with inh := false, resume := none, subs := w.subs.map (fun u => { u with handler := false }) }

/-! ## Ending a clause -/

/-- HALT and BREAK report where the stopped sub-group will resume (R309, R314, R380 kind 4). -/
def State.reportStop (s : State) (g : Group) (cause : Nat) (addr pc : DWord) : State :=
  (s.pushFault { s.faultOf g 4 with cause := cause, addr := addr, pc := pc }).1

/-- The issuing sub-group leaves its clause as the given parts (R11, R12, R172). -/
def Iss.endClause (i : Iss) (s : State) (parts : List Part) : State :=
  let ps := sortParts (mergeParts parts)
  let s' := s.updWarp i.g.id i.w.idx (fun w => w.splitSub i.u s.nextId ps)
  let s' := { s' with nextId := s'.nextId + ps.length }
  s'.freeQuad i.g.id i.w.idx

/-- All lanes fall through to the successor, after the loop test (R120, R142). -/
def Iss.fallPart (i : Iss) (m : Mask) : Part :=
  let n := loopTest i.u.loop i.succ
  ⟨m, n.1, none, n.2, .ready⟩

/-- The instruction completes: the next word of the clause, or the end of the clause (R120). -/
def Iss.next (i : Iss) (s : State) : State :=
  let s := s.updWarp i.g.id i.w.idx (fun w => w.count 1 1)
  if i.isLast then i.endClause s [i.fallPart i.u.lanes]
  else s.updSub i.g.id i.w.idx i.u.id (fun u => { u with pc := u.pc + 8, allot := 0 })

/-- An outstanding instruction is recorded for the flag its ATT names (R127). -/
def Iss.flagOf (i : Iss) (att : Nat) : Option Nat :=
  if att = 1 then (if i.h.seta < 12 then some i.h.seta else none)
  else if att = 2 then (if i.h.setb < 12 then some i.h.setb else none)
  else none
def Iss.outst (i : Iss) (s : State) (att : Nat) (k : OutKind) : State :=
  if (i.flagOf att).isNone && k == .free then s
  else (s.updWarp i.g.id i.w.idx (fun w => { w with outst := w.outst ++ [⟨s.nextId, i.flagOf att, k⟩] })).fresh

end Sys2Proof.Machine
end

