-- ==== Sys2Proof/Machine/Memory.lean ====
section
/-! DEFINITION. The memory system below translation: physical reads and writes at their ordering points, reduction
buffers, L1 copies and registrations, watch matches, telemetry, and the storage of scratchpad, extended local and private
memory (R52 to R71, R77, R80, R111, R112, R248, R393 to R401, R424, R431 to R433). -/
namespace Sys2Proof.Machine

/-- Who performs an access: the core whose L1 may hold copies, the die it comes from, and whether copies are allowed. -/
structure Agent where
  core : Option Nat
  die : Nat
  nc : Bool
deriving DecidableEq, Repr

/-! ## Bytes and poison -/

/-- Poison: 4-byte words of a range (R225, R424). -/
def poisonedIn (t : Tbl Unit) (a n : Nat) : Bool := t.any (fun e => 4 * e.1 < a + n && a < 4 * e.1 + 4)
/-- A write clears the poison of every word it covers whole (R225). -/
def clearPoison (t : Tbl Unit) (a n : Nat) : Tbl Unit := t.filter (fun e => !(a ≤ 4 * e.1 && 4 * e.1 + 4 ≤ a + n))
/-- Poisons every word of a range. -/
def setPoison (t : Tbl Unit) (a n : Nat) : Tbl Unit :=
  if n = 0 then t else (List.range ((a + n - 1) / 4 + 1 - a / 4)).foldl (fun t i => tins t (a / 4 + i) ()) t
/-- Writes bytes into a byte table. -/
def putBytes (t : Tbl Byte) (a : Nat) : List Byte → Tbl Byte
  | [] => t
  | b :: r => putBytes (tput 0 t a b) (a + 1) r
def getBytes (t : Tbl Byte) (a n : Nat) : List Byte := (List.range n).map (fun i => tget 0 t (a + i))

/-- Memory is in canonical form: addresses strictly rising, and no entry equal to what an unlisted address reads as (log 4). -/
def Memory.wf (m : List Host.Cell) : Bool := twf 0 m
/-- Bytes stored at a physical range, with no other effect: what every write does at the ordering point. -/
def State.store (s : State) (pa : Nat) (b : List Byte) : State :=
  { s with mem := putBytes s.mem pa b, memPoison := clearPoison s.memPoison pa b.length }

/-! ## Copies and homes (R393 to R397): none changes a result (R81) -/

/-- Key of a core's copy of a word. -/
def l1Key (core pa : Nat) : Nat := core * 2 ^ 50 + pa / 4
/-- Number of 4-byte words a range touches. -/
def wordsOf (pa n : Nat) : List Nat := if n = 0 then [] else (List.range ((pa + n - 1) / 4 + 1 - pa / 4)).map (fun i => pa / 4 + i)
/-- Starts of the aligned blocks of `b` bytes that a range touches. -/
def blocksOf (b pa n : Nat) : List Nat :=
  if n = 0 then [] else (List.range ((pa + n - 1) / b + 1 - pa / b)).map (fun i => (pa / b + i) * b)
/-- A core discards its unregistered copies: an acquire, or CCTL `.ivl1` (R394, R232). -/
def State.dropL1 (s : State) (core : Nat) : State := { s with l1 := tdelRange s.l1 (core * 2 ^ 50) (2 ^ 50) }
/-- A core discards its copies of a range. -/
def State.dropL1At (s : State) (core pa n : Nat) : State :=
  { s with l1 := tdelRange s.l1 (l1Key core pa) (wordsOf pa n).length }
/-- Every core discards its copies of a range. -/
def State.dropAllL1At (s : State) (pa n : Nat) : State :=
  { s with l1 := s.l1.filter (fun e => !(pa / 4 ≤ e.1 % 2 ^ 50 && 4 * (e.1 % 2 ^ 50) < pa + n)) }

/-- The core that a word is registered by (R394). -/
def State.ownerOf (s : State) (k : Nat) : Option Nat := (tfind s.owner k).map (fun e => e.1)
/-- Tracking slice of a word registered by a core: the slice on the core's die with the number of the home slice (R394). -/
def trackSlice (core k : Nat) : Nat := 24 * dieOf core + 4 * k / 4096 % 24
/-- Registrations that a slice's table holds (R394). -/
def regCap : Nat := 65536
/-- Words that a core's L1 holds: what its split leaves of 640 KiB (R2, R26). -/
def State.l1Words (s : State) (core : Nat) : Nat := 256 * (640 - tget 0 s.split core)
/-- The entry that was made first, the lowest key where several were. -/
def oldest {α : Type} (time : α → Nat) : List (Nat × α) → Option (Nat × α)
  | [] => none
  | e :: r => match oldest time r with
    | some x => if time x.2 < time e.2 then some x else some e
    | none => some e
/-- The oldest registration at a slice whose table is over-full is recalled (R394). -/
def State.fitSlice (s : State) (slice : Nat) : State :=
  let l := s.owner.filter (fun e => trackSlice e.2.1 e.1 == slice)
  if l.length ≤ regCap then s
  else match oldest (fun (x : Nat × Nat) => x.2) l with
    | some e => { s with owner := tdel s.owner e.1 }
    | none => s
/-- A core whose L1 is over-full gives up the copy filled first, or else the word registered first, which it writes back (R394,
log 98). -/
def State.fitL1 (s : State) (core : Nat) : State :=
  let copies := s.l1.filter (fun e => e.1 / 2 ^ 50 == core)
  let regs := s.owner.filter (fun e => e.2.1 == core)
  if copies.length + regs.length ≤ s.l1Words core then s
  else match oldest (fun (x : Word × Nat) => x.2) copies with
    | some e => { s with l1 := tdel s.l1 e.1 }
    | none => match oldest (fun (x : Nat × Nat) => x.2) regs with
      | some e => { s with owner := tdel s.owner e.1 }
      | none => s
/-- A core registers a word that it writes (R394). -/
def State.register (s : State) (core k : Nat) : State :=
  if s.ownerOf k = some core then s
  else (({ s with owner := tins s.owner k (core, s.timer) } : State).fitSlice (trackSlice core k)).fitL1 core
/-- Registrations of the words of a range end; the words are written back (R394). -/
def State.unregister (s : State) (pa n : Nat) : State := { s with owner := tdelRange s.owner (pa / 4) (wordsOf pa n).length }

/-- Cores of a die give up their copies and registrations of a line (R395). -/
def State.dropDieLine (s : State) (die line : Nat) : State :=
  { s with l1 := s.l1.filter (fun e => !(dieOf (e.1 / 2 ^ 50) == die && 4 * (e.1 % 2 ^ 50) / 128 == line)),
           owner := s.owner.filter (fun e => !(dieOf e.2.1 == die && 4 * e.1 / 128 == line)) }
/-- Registrations of a line by cores of a die end; the words are written back (R395). -/
def State.recallDieLine (s : State) (die line : Nat) : State :=
  { s with owner := s.owner.filter (fun e => !(dieOf e.2.1 == die && 4 * e.1 / 128 == line)) }
def State.msi (s : State) (line : Nat) : Msi := tget .i s.dir line
def State.setMsi (s : State) (line : Nat) (m : Msi) : State := { s with dir := tput .i s.dir line m }
/-- A die holds a line homed elsewhere. -/
def Msi.holds (m : Msi) (die : Nat) : Bool :=
  match m with
  | .i => false
  | .s l => l.contains die
  | .m d => d == die
/-- What the directory says of a line that a die has given up. -/
def Msi.without (m : Msi) (die : Nat) : Msi :=
  match m with
  | .s l => if (l.filter (· != die)).isEmpty then .i else .s (l.filter (· != die))
  | .m d => if d = die then .i else .m d
  | .i => .i

/-- An address whose ordering point is the host: host memory, or a page in host bias (R56, R397). -/
def State.viaHost (s : State) (pa : Nat) : Bool := paTop pa == 1 || (isOwn pa && thas s.bias (pa / 4096))
def halfKey (die pa : Nat) : Nat := die * 2 ^ 46 + pa / 64
/-- A die gives up a line: its cores give it up, the directory lists the die no more, and its bridge returns the halves it
holds with DirtyEvict or CleanEvict (R395, R396). -/
def State.evictLine (s : State) (die line : Nat) : State :=
  let s := s.dropDieLine die line
  let s := s.setMsi line ((s.msi line).without die)
  [128 * line, 128 * line + 64].foldl (fun (s : State) pa => match tfind s.bridge (halfKey die pa) with
    | none => s
    | some h => ({ s with bridge := tdel s.bridge (halfKey die pa) } : State).send
        (if h = .m then .dirtyEvict (pa / 64) (s.peek pa 64) else .cleanEvict (pa / 64))) s
/-- Bytes of an L2 slice (R2). -/
def sliceBytes : Nat := 6 * 2 ^ 20
/-- Slice number of a line within its die. -/
def sliceOf (line : Nat) : Nat := 128 * line / 4096 % 24
/-- Lines homed elsewhere that a slice of a die holds: of other dies, and of the host (R395, R396). -/
def State.l2Lines (s : State) (die slice : Nat) : List Nat :=
  (s.dir.filter (fun e => e.2.holds die && sliceOf e.1 == slice)).map (fun e => e.1)
    ++ ((s.bridge.filter (fun e => e.1 / 2 ^ 46 == die && sliceOf (e.1 % 2 ^ 46 / 2) == slice)).map (fun e => e.1 % 2 ^ 46 / 2)).eraseDups
/-- A die takes a line homed elsewhere into its L2; an over-full slice gives up another line (R2, R395, log 98). -/
def State.fitL2 (s : State) (die line : Nat) : State :=
  let l := s.l2Lines die (sliceOf line)
  if 128 * l.length ≤ sliceBytes then s
  else match l.find? (· != line) with
    | some x => s.evictLine die x
    | none => s

/-- A read of an own line by a die (R395). An access without copies leaves none (R377). -/
def State.dirRead (s : State) (die pa : Nat) (nc : Bool) : State :=
  let line := pa / 128
  let other := die != homeDie pa && !nc
  match s.msi line with
  | .i => if other then (s.setMsi line (.s [die])).fitL2 die line else s
  | .s l => if other && !l.contains die then (s.setMsi line (.s (l ++ [die]))).fitL2 die line else s
  | .m d => if d = die then s
    else
      let s := (s.recallDieLine d line).setMsi line (.s (if other then [d, die] else [d]))
      if other then s.fitL2 die line else s
/-- A write of an own line by a die (R395): every other die gives the line up, the home die too. -/
def State.dirWrite (s : State) (die pa : Nat) (nc : Bool) : State :=
  let line := pa / 128
  let home := homeDie pa
  let inv := match s.msi line with
    | .i => [home]
    | .s l => home :: l
    | .m d => if d = die then [] else [home, d]
  let s := (inv.filter (· != die)).foldl (fun (s : State) d => s.dropDieLine d line) s
  if die = home || nc then s.setMsi line .i else (s.setMsi line (.m die)).fitL2 die line

/-- A die's bridge obtains a half-line to read (R396): other bridges keep at most S. -/
def State.bridgeRead (s : State) (die pa : Nat) : State :=
  match tget .i s.bridge (halfKey die pa) with
  | .i => (({ s with bridge := tins ((List.range 4).foldl (fun b d =>
              if thas b (halfKey d pa) then tins b (halfKey d pa) .s else b) s.bridge) (halfKey die pa) .s } : State).send
                (.rdShared (pa / 64))).fitL2 die (pa / 128)
  | _ => s
/-- A die's bridge obtains a half-line to own it (R396), in E until a write is merged into it: other bridges hold it no more. -/
def State.bridgeOwn (s : State) (die pa : Nat) : State :=
  let take (s : State) : State :=
    { s with bridge := tins ((List.range 4).foldl (fun b d => tdel b (halfKey d pa)) s.bridge) (halfKey die pa) .e }
  match tget .i s.bridge (halfKey die pa) with
  | .m => s
  | .e => s
  | _ => ((take s).send (.rdOwn (pa / 64))).fitL2 die (pa / 128)
/-- A write is merged into a half-line, which the bridge then holds in M (R396). -/
def State.bridgeWrite (s : State) (die pa : Nat) : State :=
  let s := s.bridgeOwn die pa
  { s with bridge := tins s.bridge (halfKey die pa) .m }
/-- An access without copies reaches the host's coherence point (R377): no bridge keeps a half that it writes. -/
def State.hostWrite (s : State) (pa : Nat) (b : List Byte) : State :=
  ({ s with bridge := (blocksOf 64 pa b.length).foldl (fun t h => (List.range 4).foldl (fun t d => tdel t (halfKey d h)) t) s.bridge } : State).send
    (.ncWrite pa b)

/-- What reaching the ordering point for a read does to directories and links (R394 to R400). -/
def State.reachRead (s : State) (a : Agent) (pa n : Nat) : State :=
  if s.viaHost pa then (if a.nc then s.send (.ncRead pa n) else (blocksOf 64 pa n).foldl (fun s h => s.bridgeRead a.die h) s)
  else if isPeer pa then s.send (.peer (paPkg pa) pa (.load n))
  else (blocksOf 128 pa n).foldl (fun s l => s.dirRead a.die l a.nc) s
/-- An atomic owns the host lines that it reads (R396). -/
def State.reachOwn (s : State) (a : Agent) (pa n : Nat) : State :=
  if s.viaHost pa && !a.nc then (blocksOf 64 pa n).foldl (fun s h => s.bridgeOwn a.die h) s else s
/-- The same for a write. A core's write registers the words it touches, and every other registration of them ends. -/
def State.reachWrite (s : State) (a : Agent) (pa : Nat) (b : List Byte) : State :=
  let n := b.length
  if isPeer pa then s.send (.peer (paPkg pa) pa (.store b))
  else
    let s := if s.viaHost pa then (if a.nc then s.hostWrite pa b else (blocksOf 64 pa n).foldl (fun s h => s.bridgeWrite a.die h) s)
      else (blocksOf 128 pa n).foldl (fun s l => s.dirWrite a.die l a.nc) s
    match a.core with
    | none => s.unregister pa n
    | some c =>
      let s := s.dropL1At c pa n
      if a.nc then s.unregister pa n else (wordsOf pa n).foldl (fun (s : State) k => s.register c k) s

/-! ## Watch matches (R247, R248) -/

/-- A written word of a watch entry's range satisfies it. -/
def State.watchHit (s : State) (e : WatchEntry) (pa n : Nat) : Bool :=
  (wordsOf pa n).any (fun k => e.pa ≤ 4 * k && 4 * k + 4 ≤ e.pa + e.len
    && (BitVec.ofNat 32 (s.peekN (4 * k) 4) &&& e.mask) == (e.pat &&& e.mask))
/-- A write performed in the range of an entry pushes its task (R248). -/
def State.watchTest (s : State) (pa n : Nat) : State :=
  s.watches.foldl (fun (s : State) (e : WatchEntry) =>
    if s.watchHit e pa n then
      if e.persist && e.pending.isSome then s
      else
        let t : Task := { id := s.nextId, die := homeDie e.pa, pkt := 0, wins := 0, ctx := e.ctx, depth := 0, root := e.root,
                          maxp := e.maxp, watch := some e.handle, addr := e.task, unread := true, accepted := false,
                          held := (s.ctx e.ctx).hold }
        { s with nextId := s.nextId + 1, tasks := s.tasks ++ [t],
                 watches := if e.persist then s.watches.map (fun (x : WatchEntry) => if x.handle = e.handle then { x with pending := some t.id } else x)
                   else s.watches.filter (fun (x : WatchEntry) => x.handle != e.handle) }
    else s) s

/-! ## Telemetry (R431 to R433) -/

/-- MSI-X vector v is raised (R351). -/
def State.msix (s : State) (v : Nat) : State := s.send (.msix v)

/-- One event is written to the ring, or dropped and counted in LOST when the ring is full (R433); none while the page it would
be written to is being flipped (R83). -/
def State.teleWrite (s : State) (b : List Byte) : Option State :=
  let w := s.barFld 0x700010 0 32
  let r := s.barFld 0x700010 32 32
  let n := 2 ^ (s.barFld 0x700008 0 4 + 4)
  if (w + 2 ^ 32 - r) % 2 ^ 32 = n then some (s.barPut 0x700018 32 32 (min (s.barFld 0x700018 32 32 + 1) 0xFFFFFFFF))
  else match s.canonPa (s.barFld 0x700008 12 52 * 4096) with
    | none => some s
    | some base =>
      let pa := base + 32 * (w % n)
      if isOwn pa && s.flips.any (fun f => f.page == pa / 4096) then none
      else
        let s := (((s.reachWrite ⟨none, homeDie pa, true⟩ pa b).store pa b).barPut 0x700010 0 32 (w + 1))
        let s := if isOwn pa then s.watchTest pa b.length else s
        some (if s.barFld 0x700018 8 1 = 1 then s.msix (s.barFld 0x700018 0 8) else s)
/-- Events are written in order, as far as they can be. -/
def State.teleFlush (l : List (List Byte)) (s : State) : State :=
  l.foldl (fun (s : State) b =>
    if s.teleq.isEmpty then (s.teleWrite b).getD { s with teleq := [b] } else { s with teleq := s.teleq ++ [b] }) { s with teleq := [] }
/-- One telemetry event (R433). -/
def State.telemetry (s : State) (ty unit detail ctx queue : Nat) (gen : Word) (idx : Nat) : State :=
  State.teleFlush (s.teleq ++ [leBytes 2 ty ++ leBytes 1 unit ++ leBytes 1 detail ++ leBytes 2 ctx ++ leBytes 2 queue
    ++ leBytes 4 gen.toNat ++ leBytes 4 idx ++ leBytes 8 s.timer ++ leBytes 8 0]) s

/-- Register pair of a store class (R431). -/
def errReg (e : Nat) : Nat := 0x600000 + 16 * e
/-- The threshold event of a count of store class e, once until the count is cleared (R431). -/
def State.testErr (s : State) (e : Nat) (ue : Bool) : State :=
  let lo := if ue then 32 else 0
  let n := s.barFld (errReg e) lo 32
  let th := s.barFld (errReg e + 8) lo 32
  let k := 2 * e + (if ue then 1 else 0)
  if th != 0 && th ≤ n && !thas s.errs k then ({ s with errs := tins s.errs k () }).telemetry 2 e 0 0 0 0 n else s
/-- Counts an error of store class e, corrected or not (R431). -/
def State.countErr (s : State) (e : Nat) (ue : Bool) : State :=
  let lo := if ue then 32 else 0
  (s.barPut (errReg e) lo 32 (min (s.barFld (errReg e) lo 32 + 1) 0xFFFFFFFF)).testErr e ue

/-! ## Exception counters (R111, R112, R432) -/

/-- What one element result adds to the counters of its launch: format, then NaN, infinity, overflow, underflow. -/
structure Count where
  fmt : Nat
  k : List Bool
deriving DecidableEq, Repr

/-- The counts of an element result from its inputs, encodings of `src`, and its result (R111). -/
def countOf (src dst : Fmt) (ins : List Nat) (r : Res) : Count :=
  let d := dst.dec r.bits
  ⟨dst.id, [d.isNan && ins.all (fun x => !(src.dec x).isNan), d.isInf && ins.all (fun x => (src.dec x).isFinite),
    r.fl / fOf % 2 == 1, r.fl / fUf % 2 == 1]⟩

/-- The threshold event of one counter of a launch, when it first reaches its threshold (R432). On a launch over several
packages each tests what it has counted itself: DESIGN CHOICE, log 102. -/
def State.testCount (s : State) (root key : Nat) : State :=
  match s.grid? root with
  | none => s
  | some g =>
    let v := tget 0 g.counts key
    let th := 256 * s.barFld 0x700000 (16 * (key % 4)) 16
    if th != 0 && th ≤ v && !thas g.crossed key then
      (s.updGrid root (fun (g : Grid) => { g with crossed := tins g.crossed key () })).telemetry 1 0 (16 * (key / 4) + key % 4)
        g.ctx (g.queue.getD 0) g.gen v
    else s
/-- Adds to one counter of a launch (R112). -/
def State.countOne (s : State) (root key n : Nat) : State :=
  (s.updGrid root (fun (g : Grid) => { g with counts := tput 0 g.counts key (min (tget 0 g.counts key + n) 0xFFFFFFFF) })).testCount root key
/-- Element results are added to the counters of the root launch (R112). -/
def State.tally (s : State) (root : Nat) (l : List Count) : State :=
  l.foldl (fun s c => (c.k.zipIdx).foldl (fun s x => if x.1 then s.countOne root (4 * c.fmt + x.2) 1 else s) s) s

/-! ## Atomic operations (R226, R71) -/

/-- Width in bytes of an ATOM or RED type (R216). -/
def atomBytes (ty : Nat) : Nat := if ty = 2 || ty = 3 then 8 else 4
/-- Element format of a floating type code. -/
def atomFmt (ty : Nat) : Fmt := if ty = 5 then fmtF16 else if ty = 6 then fmtBf16 else fmtF32

/-- New value of a floating operation on one element, with its result for the counters. -/
def atomElem (f : Fmt) (op a b : Nat) : Res :=
  match op with
  | 0 => fpAdd f plainEnv a b
  | 1 => fpMinMax f plainEnv false false a b
  | 2 => fpMinMax f plainEnv true false a b
  | _ => ⟨b, 0⟩

/-- New value of an atomic operation (R226): old `a`, operand `b`; and the element results it makes. -/
def atomOp (op ty a b : Nat) : Nat × List Count :=
  let w := 8 * atomBytes ty
  let a := a % 2 ^ w
  let b := b % 2 ^ w
  if 4 ≤ ty then
    if op = 6 then (b, [])
    else if ty = 4 then
      let r := atomElem fmtF32 op a b
      (r.bits, [countOf fmtF32 fmtF32 [a, b] r])
    else
      let f := atomFmt ty
      let r0 := atomElem f op (a % 2 ^ 16) (b % 2 ^ 16)
      let r1 := atomElem f op (a / 2 ^ 16) (b / 2 ^ 16)
      (r0.bits + r1.bits * 2 ^ 16, [countOf f f [a % 2 ^ 16, b % 2 ^ 16] r0, countOf f f [a / 2 ^ 16, b / 2 ^ 16] r1])
  else
    let less := if ty % 2 = 0 then decide (sval a w < sval b w) else decide (a < b)
    (match op with
      | 0 => (a + b) % 2 ^ w
      | 1 => if less then a else b
      | 2 => if less then b else a
      | 3 => a &&& b
      | 4 => a ||| b
      | 5 => a ^^^ b
      | 6 => b
      | 7 => if b ≤ a then 0 else a + 1
      | _ => if a = 0 || b < a then b else a - 1, [])

/-! ## Reads and writes at the ordering point -/

/-- A write performed (R56): a write to an unreachable peer is discarded and counted (R401). -/
def State.perform (s : State) (a : Agent) (pa : Nat) (b : List Byte) : State :=
  if s.unreachable pa then s.countErr 10 true
  else
    let s := (s.reachWrite a pa b).store pa b
    if isOwn pa then s.watchTest pa b.length else s

/-- A reduction-buffer entry merges as one atomic write (R70, R71), at the peer's home slice for peer memory (R84, R400). A
poisoned word stays poisoned. Its result counts for the launch that made the entry: DESIGN CHOICE, log 99. -/
def State.mergeEntry (s : State) (e : RedEntry) : State :=
  let n := atomBytes e.ty
  let s := { s with redbuf := s.redbuf.filter (fun (x : RedEntry) => x != e) }
  if s.unreachable e.pa then s.countErr 10 true
  else
    let r := atomOp e.op e.ty (s.peekN e.pa n) e.val.toNat
    let bad := poisonedIn s.memPoison e.pa n
    let s := if isPeer e.pa then (s.send (.peer (paPkg e.pa) e.pa (.red (BitVec.ofNat 4 e.op) (BitVec.ofNat 3 e.ty) e.val))).store e.pa (leBytes n r.1)
      else s.perform ⟨some e.core, dieOf e.core, false⟩ e.pa (leBytes n r.1)
    let s := if bad then { s with memPoison := setPoison s.memPoison e.pa n } else s
    s.tally e.root r.2
/-- Entries that satisfy a test merge, oldest first. -/
def State.mergeWhere (s : State) (p : RedEntry → Bool) : State := (s.redbuf.filter p).foldl State.mergeEntry s
/-- Every core's entries for a range merge before an access to it (R70). -/
def State.mergeAt (s : State) (pa n : Nat) : State := s.mergeWhere (fun e => e.pa < pa + n && pa < e.pa + atomBytes e.ty)
/-- A release on a core at a scope merges the core's entries recorded at most that wide (R70). -/
def State.mergeRelease (s : State) (core scope : Nat) : State := s.mergeWhere (fun e => e.core == core && e.scope ≤ scope)

/-- A write that reaches the ordering point: pending reductions of its words merge first (R70). -/
def State.write (s : State) (a : Agent) (pa : Nat) (b : List Byte) : State := (s.mergeAt pa b.length).perform a pa b

/-- Bytes a read returns at the ordering point, and whether any is poisoned; an unreachable peer gives poison (R401). -/
structure Got where
  bytes : List Byte
  bad : Bool
deriving DecidableEq, Repr

/-- A read at the ordering point (R61): acquires, atomics, engines, the host and the walker. -/
def State.readPoint (s : State) (a : Agent) (pa n : Nat) : Got × State :=
  if s.unreachable pa then (⟨List.replicate n 0, true⟩, s.countErr 10 true)
  else
    let s := (s.mergeAt pa n).reachRead a pa n
    let s := match a.core with
      | some c => s.dropL1At c pa n
      | none => s
    (⟨s.peek pa n, poisonedIn s.memPoison pa n⟩, s)

/-- A core fills copies of the two words of an aligned 8-byte granule, at one instant: not of a word it has registered, nor of a
poisoned one. So two copies in a granule are always of one instant (R52). -/
def State.fillL1 (s : State) (core g : Nat) : State :=
  ([g / 4, g / 4 + 1].foldl (fun (s : State) k =>
    if s.ownerOf k = some core || poisonedIn s.memPoison (4 * k) 4 then { s with l1 := tdel s.l1 (l1Key core (4 * k)) }
    else ({ s with l1 := tins s.l1 (l1Key core (4 * k)) (BitVec.ofNat 32 (s.peekN (4 * k) 4), s.timer) } : State).fitL1 core) s)
/-- Part of a plain load within one aligned 8-byte granule: the core's registered words, older copies, or the ordering point,
which fills copies (R61, R394). A whole granule is read at one instant (R52). -/
def State.readGranule (s : State) (a : Agent) (pa n : Nat) : Got × State :=
  match a.core with
  | none => s.readPoint a pa n
  | some c =>
    let ks := wordsOf pa n
    if a.nc || ks.all (fun k => s.ownerOf k == some c) then s.readPoint a pa n
    else if ks.all (fun k => thas s.l1 (l1Key c (4 * k))) then
      (⟨((ks.flatMap (fun k => leBytes 4 (tget (0, 0) s.l1 (l1Key c (4 * k))).1.toNat)).drop (pa % 4)).take n, false⟩, s)
    else
      let s := (s.readPoint a (pa / 8 * 8) 8).2
      (⟨s.peek pa n, poisonedIn s.memPoison pa n⟩, s.fillL1 c (pa / 8 * 8))
/-- A plain load of a physical range. -/
def State.readPlain (s : State) (a : Agent) (pa n : Nat) : Got × State :=
  if isPeer pa then s.readPoint a pa n
  else (blocksOf 8 pa n).foldl (fun (x : Got × State) g =>
    let lo := max g pa
    let (b, s) := x.2.readGranule a lo (min (g + 8) (pa + n) - lo)
    (⟨x.1.bytes ++ b.bytes, x.1.bad || b.bad⟩, s)) (⟨[], false⟩, s)

/-! ## Storage of a core (R48 to R51, R318) -/

/-- Key of a byte of a thread's private area. -/
def privKey (lane off : Nat) : Nat := lane * 65536 + off

/-- Bytes of one row of a palette's source: 32 elements (R265, R270). -/
def palRowBytes (fmt : Nat) : Nat := if fmt = 1 then 128 else if fmt = 2 || fmt = 3 then 64 else 32
/-- The source of a palette overlaps [off, off + n) of its storage (R77, R270). -/
def PalDesc.overlaps (d : PalDesc) (ext : Bool) (off n : Nat) : Bool :=
  (dfld d.src 56 8 == 0xF2) == ext && (List.range d.rows).any (fun r =>
    let a := (dfld d.src 0 20 + r * d.stride) / 4 * 4
    a < off + n && off < a + roundUp (palRowBytes d.fmt) 4)
/-- A write in a group's storage invalidates every palette, broadcast copies included, that it overlaps (R77, R79). -/
def State.palTouch (s : State) (gid : Nat) (ext : Bool) (off n : Nat) : State :=
  let hit (p : Palette) : Bool := p.srcGid == gid && (match p.desc with | some d => d.overlaps ext off n | none => false)
  { s with groups := s.groups.map (fun (g : Group) =>
      { g with pals := g.pals.map (fun e => (e.1, if hit e.2 then { e.2 with valid := false } else e.2)),
               palOps := g.palOps.map (fun (o : PalOp) => match o.kind with
                 | .copy _ p _ _ => if hit p then { o with dirty := true } else o
                 | _ => o) }) }

/-- Bytes of a place. A plain read of memory may return older copies; `point` reads at the ordering point. -/
def State.readPlace (s : State) (a : Agent) (p : Place) (n : Nat) (point : Bool) : Got × State :=
  match p with
  | .phys pa nc =>
    let a := { a with nc := a.nc || nc }
    if point then s.readPoint a pa n else s.readPlain a pa n
  | .scr gid off => match s.group? gid with
    | some g => (⟨getBytes g.scratch off n, poisonedIn g.scratchPoison off n⟩, s)
    | none => (⟨List.replicate n 0, false⟩, s)
  | .ext gid off => match s.group? gid with
    | some g => (⟨getBytes g.ext off n, poisonedIn g.extPoison off n⟩, s)
    | none => (⟨List.replicate n 0, false⟩, s)
  | .priv gid w l off => match s.warp? gid w with
    | some x => (⟨getBytes x.priv (privKey l off) n, poisonedIn x.privPoison (privKey l off) n⟩, s)
    | none => (⟨List.replicate n 0, false⟩, s)

/-- Writes bytes to a place. -/
def State.writePlace (s : State) (a : Agent) (p : Place) (b : List Byte) : State :=
  match p with
  | .phys pa nc => s.write { a with nc := a.nc || nc } pa b
  | .scr gid off => (s.updGroup gid (fun g =>
      { g with scratch := putBytes g.scratch off b, scratchPoison := clearPoison g.scratchPoison off b.length })).palTouch gid false off b.length
  | .ext gid off => (s.updGroup gid (fun g =>
      { g with ext := putBytes g.ext off b, extPoison := clearPoison g.extPoison off b.length })).palTouch gid true off b.length
  | .priv gid w l off => s.updWarp gid w (fun x =>
      { x with priv := putBytes x.priv (privKey l off) b, privPoison := clearPoison x.privPoison (privKey l off) b.length })

/-- Poisons the words of a place after a poisoned write of them (R110, R225, R234). -/
def State.poisonPlace (s : State) (p : Place) (n : Nat) : State :=
  match p with
  | .phys pa _ => { s with memPoison := setPoison s.memPoison pa n }
  | .scr gid off => s.updGroup gid (fun g => { g with scratchPoison := setPoison g.scratchPoison off n })
  | .ext gid off => s.updGroup gid (fun g => { g with extPoison := setPoison g.extPoison off n })
  | .priv gid w l off => s.updWarp gid w (fun x => { x with privPoison := setPoison x.privPoison (privKey l off) n })

/-- A place overlaps a word tagged as a barrier object (R80, R240). -/
def State.tagged (s : State) (p : Place) (n : Nat) : Bool :=
  match p with
  | .scr gid off => match s.group? gid with
    | some g => g.tags.any (fun e => 16 * e.1 < off + n && off < 16 * e.1 + 16)
    | none => false
  | _ => false

end Sys2Proof.Machine
end

