-- ==== Sys2Proof/Machine/Translate.lean ====
section
/-! DEFINITION. Translation of global addresses: page tables, TLBs, walk caches, the checks at a leaf, and the Accessed
and Dirty bits (R367 to R379). -/
namespace Sys2Proof.Machine

/-! ## Page-table entries (R370) -/

def pteV (e : Nat) : Bool := e % 2 == 1
def pteT (e : Nat) : Bool := fld e 1 1 == 1
def pteR (e : Nat) : Bool := fld e 2 1 == 1
def pteW (e : Nat) : Bool := fld e 3 1 == 1
def pteX (e : Nat) : Bool := fld e 4 1 == 1
def pteA (e : Nat) : Bool := fld e 5 1 == 1
def pteD (e : Nat) : Bool := fld e 6 1 == 1
def pteG (e : Nat) : Bool := fld e 7 1 == 1
def pteOk (e : Nat) : Nat := fld e 8 2
def pteEf (e : Nat) : Nat := fld e 10 4
def pteBg (e : Nat) : Nat := fld e 14 2
def ptePk (e : Nat) : Nat := fld e 16 5
def pteCt (e : Nat) : Bool := fld e 21 1 == 1
def pteNc (e : Nat) : Bool := fld e 22 1 == 1
/-- Physical address field of a leaf or a table entry. -/
def ptePa (e : Nat) : Nat := e / 2 ^ 24 % 2 ^ 40 * 4096

/-- Bytes that one entry of a level maps (R369). -/
def levelBytes (l : Nat) : Nat := 2 ^ (45 - 11 * l)
/-- Bytes a leaf maps: 64 KiB under CT (R371). -/
def leafBytes (leaf level : Nat) : Nat := if level = 3 && pteCt leaf then 65536 else levelBytes level
/-- Physical address of a virtual address through a leaf. -/
def leafPa (leaf level va : Nat) : Nat :=
  let n := leafBytes leaf level
  ptePa leaf / n * n + va % n

/-- A malformed entry at a level (R369, R371, R375). -/
def malformed (e level va : Nat) : Bool :=
  if pteT e then level == 3 || fld e 2 22 != 0 || ptePa e % 16384 != 0
  else level == 0 || fld e 23 1 == 1 || 8 ≤ pteEf e || pteOk e == 3 || ptePa e % (if level = 3 then 4096 else levelBytes level) != 0
    || (pteCt e && (level != 3 || ptePa e / 4096 % 16 != va / 4096 % 16))

/-- The page of an own physical address whose bias is being flipped: device accesses to it stall (R83, R345). -/
def State.flipAt (s : State) (pa : Nat) : Option Nat :=
  if isOwn pa && s.flips.any (fun f => f.page == pa / 4096) then some (pa / 4096) else none
/-- A page of [a, a + n) is being flipped: a write there stalls (R83). -/
def State.flipIn (s : State) (a n : Nat) : Bool := isOwn a && s.flips.any (fun f => f.page * 4096 < a + n && a < f.page * 4096 + 4096)
/-- The context's descriptor lies on such a page. -/
def State.ctxFlips (s : State) (c : Nat) : Bool := s.flipIn (s.ctxAddr c) 128
/-- End of a walk: a leaf with its level and its address, an invalid entry, PROT (R375), or an entry on a page that is being
flipped (R83). -/
inductive Walk
  | leaf (leaf level at' : Nat)
  | absent (level : Nat)
  | malformed
  | stall (page : Nat)
deriving DecidableEq, Repr

/-- Unit number of a die's shared TLB and walker. -/
def dieUnit (die : Nat) : Nat := 576 + die

/-- A core, or an engine of a die, and the context it translates for. -/
structure Mmu where
  core : Option Nat
  die : Nat
  ctx : Nat
deriving DecidableEq, Repr
/-- The walker's own agent: it reads at the ordering point (R373). -/
def Mmu.walker (m : Mmu) : Agent := ⟨none, m.die, true⟩
def Mmu.agent (m : Mmu) (nc : Bool) : Agent := ⟨m.core, m.die, nc⟩
def Mmu.units (m : Mmu) : List Nat := (match m.core with | some c => [c] | none => []) ++ [dieUnit m.die]

/-- Reads entries downward from a table (R369, R373); table entries go to the walk cache (R378). -/
def State.walkFrom (m : Mmu) (va : Nat) : State → List Nat → Nat → Walk × State
  | s, [], _ => (.malformed, s)
  | s, l :: r, base =>
    match s.canonPa (base + 8 * (va / levelBytes l % 2048)) with
    | none => (.malformed, s)
    | some pa =>
      match s.flipAt pa with
      | some page => (.stall page, s)
      | none =>
      let (g, s) := s.readPoint m.walker pa 8
      let e := leVal g.bytes
      if !pteV e then (.absent l, s)
      else if malformed e l va then (.malformed, s)
      else if pteT e then
        let old := s.walkCache.filter (fun x => !(x.die == m.die && x.ctx == m.ctx && x.level == l && x.pre == va / levelBytes l))
        State.walkFrom m va { s with walkCache := ⟨m.die, m.ctx, l, va / levelBytes l, e⟩ :: old } r (ptePa e)
      else (.leaf e l pa, s)

/-- Root table of a context (R368). -/
def State.rootOf (s : State) (ctx : Nat) : Nat := s.ctxFld ctx 0 64

/-- A walk from the first level not held in the walk cache (R378). -/
def State.walk (s : State) (m : Mmu) (va : Nat) : Walk × State :=
  let hit (l : Nat) := s.walkCache.find? (fun x => x.die == m.die && x.ctx == m.ctx && x.level == l && x.pre == va / levelBytes l)
  match hit 2 with
  | some e => s.walkFrom m va [3] (ptePa e.pte)
  | none => match hit 1 with
    | some e => s.walkFrom m va [2, 3] (ptePa e.pte)
    | none => match hit 0 with
      | some e => s.walkFrom m va [1, 2, 3] (ptePa e.pte)
      | none => s.walkFrom m va [0, 1, 2, 3] (s.rootOf m.ctx)
/-- A walk from level 0 (R374). -/
def State.walkFresh (s : State) (m : Mmu) (va : Nat) : Walk × State := s.walkFrom m va [0, 1, 2, 3] (s.rootOf m.ctx)

/-- A TLB entry translates an address: its page, or its 64 KiB block under CT (R371, R378). -/
def TlbEntry.covers (e : TlbEntry) (m : Mmu) (va : Nat) : Bool :=
  m.units.contains e.unit && e.ctx == m.ctx && e.vpn * 4096 / leafBytes e.leaf e.level == va / leafBytes e.leaf e.level
/-- A leaf enters the TLB of the core and the shared TLB of the die (R378). -/
def State.fillTlb (s : State) (m : Mmu) (va leaf level at' : Nat) : State :=
  { s with tlb := m.units.map (fun u => ⟨u, at', m.ctx, va / 4096, leaf, level⟩)
      ++ s.tlb.filter (fun (e : TlbEntry) => !(m.units.contains e.unit && e.ctx == m.ctx && e.vpn == va / 4096)) }
/-- Entries read from one table entry leave every TLB. -/
def State.dropTlbAt (s : State) (at' : Nat) : State := { s with tlb := s.tlb.filter (fun (e : TlbEntry) => e.pteAt != at') }

/-- Translation through a TLB, or a walk that fills it. -/
def State.translate (s : State) (m : Mmu) (va : Nat) : Walk × State :=
  match s.tlb.find? (fun e => e.covers m va) with
  | some e => (.leaf e.leaf e.level e.pteAt, s)
  | none => match s.walk m va with
    | (.leaf l v at', s) => (.leaf l v at', s.fillTlb m va l v at')
    | r => r

/-! ## Checks at the leaf (R375 to R377) -/

/-- What an access asks of a leaf: reads, writes, fetches, the keys it is checked with, and the format rule it adds. -/
structure Want where
  rd : Bool
  wr : Bool
  fetch : Bool
  pkr : Option DWord
  fmt : Nat → Bool

/-- A translation asked for without any permission. -/
def wantAny : Want := ⟨false, false, false, none, fun _ => true⟩
def wantLoad (pkr : Option DWord) : Want := ⟨true, false, false, pkr, fun _ => true⟩
def wantStore (pkr : Option DWord) : Want := ⟨false, true, false, pkr, fun _ => true⟩
def wantAtomic (pkr : Option DWord) : Want := ⟨true, true, false, pkr, fun _ => true⟩

/-- A key disables a read (R302). -/
def rdOff (p : DWord) (k : Nat) : Bool := p.getLsbD (2 * k)
/-- A key disables a write (R302). -/
def wdOff (p : DWord) (k : Nat) : Bool := p.getLsbD (2 * k + 1)

/-- A translated part of an access. -/
structure Xlat where
  pa : Nat
  leaf : Nat
  at' : Nat
deriving DecidableEq, Repr

/-- What translation and its checks decide for one part of an access. -/
inductive Tr
  | ok (x : Xlat)
  | prot
  | absent (level : Nat)
  | writeProtect
  | stall (page : Nat)
deriving DecidableEq, Repr

/-- A leaf whose A, or whose D on a write, is still 0 (R374). -/
def staleAd (leaf : Nat) (wr : Bool) : Bool := !pteA leaf || (wr && !pteD leaf)

/-- The rows of R375 that a leaf decides. Where A or D must be set in an entry on a page that is being flipped, the access
stalls (R83, R374). -/
def State.leafCheck (s : State) (m : Mmu) (w : Want) (va leaf level at' : Nat) : Tr :=
  match s.canonPa (leafPa leaf level va) with
  | none => .prot
  | some pa =>
    if (w.rd && !pteR leaf) || (w.fetch && !pteX leaf) then .prot
    else if w.wr && !pteW leaf && s.ctxFld m.ctx 65 1 != 1 then .prot
    else if (match w.pkr with
      | some p => (w.rd && rdOff p (ptePk leaf)) || (w.wr && wdOff p (ptePk leaf))
      | none => false) then .prot
    else if !w.fmt leaf then .prot
    else if w.wr && !pteW leaf then .writeProtect
    else match (if staleAd leaf w.wr then s.flipAt at' else none) with
      | some page => .stall page
      | none => .ok ⟨pa, leaf, at'⟩

/-- Translation and checks of one part within a page. A leaf whose A or D must be set is compared with its entry, and a
changed entry is walked again from level 0 (R374). -/
def State.resolve (s : State) (m : Mmu) (w : Want) (va : Nat) : Tr × State :=
  let judge (r : Walk × State) : Tr × State :=
    match r with
    | (.malformed, s) => (.prot, s)
    | (.absent l, s) => (.absent l, s)
    | (.stall p, s) => (.stall p, s)
    | (.leaf l v at', s) => (s.leafCheck m w va l v at', s)
  match s.translate m va with
  | (.leaf l v at', s) =>
    match s.leafCheck m w va l v at' with
    | .ok x =>
      if staleAd l w.wr && s.peekN at' 8 != l then
        let s := s.dropTlbAt at'
        match s.walkFrom m va [0, 1, 2, 3] (s.rootOf m.ctx) with
        | (.leaf l v at', s) => judge (.leaf l v at', s.fillTlb m va l v at')
        | r => judge r
      else (.ok x, s)
    | r => (r, s)
  | r => judge r

/-- An entry with A and D set. -/
def fullAd (e : Nat) : Nat := setFld (setFld e 5 1 1) 6 1 1
/-- The walker sets A, and D on a write, in the entry an access used (R374). An atomic has set A when it sets D. -/
def State.touch (s : State) (m : Mmu) (x : Xlat) (wr : Bool) : State :=
  let cur := s.peekN x.at' 8
  if staleAd x.leaf wr && staleAd cur wr && fullAd cur == fullAd x.leaf then
    let e := setFld (setFld cur 5 1 1) 6 1 (if wr then 1 else fld cur 6 1)
    let s := s.perform m.walker x.at' (leBytes 8 e)
    { s with tlb := s.tlb.map (fun (t : TlbEntry) => if t.pteAt = x.at' then { t with leaf := e } else t) }
  else s

/-- Parts of [va, va + n) within 4 KiB pages, `k` pages at most. -/
def pageParts : Nat → Nat → Nat → List (Nat × Nat)
  | 0, _, _ => []
  | k + 1, va, n =>
    if n = 0 then []
    else
      let m := 4096 - va % 4096
      if n ≤ m then [(va, n)] else (va, m) :: pageParts k (va + m) (n - m)

/-- A range translated and checked part by part (R67): its parts in order, or the first failure with its address. -/
inductive Range
  | ok (l : List (Xlat × Nat))
  | prot (va : Nat)
  | absent (va level kind : Nat)
  | stall (page : Nat)
deriving DecidableEq, Repr

/-- Translates a range. PROT of any part outranks an absent page (R218), and a part whose walk stalls outranks that. -/
def State.resolveRange (s : State) (m : Mmu) (w : Want) (va n : Nat) : Range × State :=
  (pageParts (n / 4096 + 2) va n).foldl (fun (r : Range × State) p =>
    match r.1 with
    | .prot a => (.prot a, r.2)
    | _ =>
      let (t, s) := r.2.resolve m w p.1
      (match t, r.1 with
        | .prot, _ => .prot p.1
        | .stall page, _ => .stall page
        | .ok x, .ok l => .ok (l ++ [(x, p.2)])
        | .absent lv, .ok _ => .absent p.1 lv 1
        | .writeProtect, .ok _ => .absent p.1 0 2
        | _, q => q, s)) (.ok [], s)

/-- Entries that an invalidation removes (R383): a range of a context, a context but its G leaves, or everything. -/
def State.invalidate (s : State) (p : TlbEntry → Bool) (q : WalkEntry → Bool) : State :=
  { s with tlb := s.tlb.filter (fun e => !p e), walkCache := s.walkCache.filter (fun e => !q e) }

end Sys2Proof.Machine
end

