-- ==== Sys2Proof/Machine/Access.lean ====
section
/-! DEFINITION. The accesses of an instruction's lanes: apertures, alignment, limits, private size, permissions, tags and
translation in the order of R218, lanes that split off or park (R14, R219), and reading and writing what remains. -/
namespace Sys2Proof.Machine

/-- Team size of a group's launch (R16, R353). -/
def State.teamSize (s : State) (g : Group) : Nat := pfld (s.pktOf g) 565 3
/-- The member of a group's team with an index (R16). -/
def State.member? (s : State) (g : Group) (m : Nat) : Option Group :=
  let t := s.teamSize g
  s.groups.find? (fun x => x.grid == g.grid && x.y == g.y && x.z == g.z && x.x / t == g.x / t && x.team == m)
/-- Lent size of extended local memory (R318). -/
def extBytes : Nat := 0xF0000

/-- Where a pointer's bytes lie: translated, in a storage, or nowhere (R46 to R51). -/
inductive Loc
  | global
  | place (p : Place)
  | bad
deriving DecidableEq, Repr

/-- The aperture of a pointer, with its offset field and extent (R46 to R51; the private size is a later check). -/
def State.locate (s : State) (g : Group) (warp lane ptr n : Nat) : Loc :=
  let off := ptr % 2 ^ 56
  let scr := scrBytes (s.pktOf g)
  match ptr / 2 ^ 56 with
  | 0 => if ptr + n ≤ 2 ^ 56 then .global else .bad
  | 0xF0 => if off < 2 ^ 20 && off + n ≤ scr then .place (.scr g.id off) else .bad
  | 0xF1 => if off < 2 ^ 16 then .place (.priv g.id warp lane off) else .bad
  | 0xF2 => if off < 2 ^ 20 && g.lent.isSome && off + n ≤ extBytes then .place (.ext g.id off) else .bad
  | 0xF3 =>
    let m := off / 2 ^ 21
    let o := off % 2 ^ 20
    if off < 2 ^ 24 && fld off 20 1 == 0 && 2 ≤ s.teamSize g && m < s.teamSize g && o + n ≤ scr then
      match s.member? g m with
      | some x => .place (.scr x.id o)
      | none => .bad
    else .bad
  | _ => .bad

/-- One lane's access. -/
structure Req where
  lane : Nat
  ptr : Nat
  size : Nat
deriving DecidableEq, Repr

/-- A checked access: its parts in order, what translated them, and whether each page orders (R64 to R66). -/
structure Ready where
  req : Req
  parts : List (Place × Nat)
  xs : List Xlat
deriving DecidableEq, Repr

/-- How an instruction accesses memory. `lim` is the window of R219. -/
structure Mode where
  want : Want
  natural : Bool
  lim : Option (Nat × Nat)

/-- Alignment (R52): atomics naturally, plain accesses to the local apertures to their width or 16 bytes. -/
def aligned (natural : Bool) (r : Req) : Bool :=
  if natural then r.ptr % r.size == 0
  else r.ptr / 2 ^ 56 == 0 || r.ptr % (min r.size 16) == 0

/-- Beyond the private size (R49). -/
def State.overPriv (s : State) (g : Group) (r : Req) : Bool :=
  r.ptr / 2 ^ 56 == 0xF1 && privSize (s.pktOf g) < r.ptr % 2 ^ 56 + r.size

/-- Result of the checks: the instruction has ended (it trapped, or its whole sub-group parked), or lanes remain. -/
inductive Acc
  | stop (s : State)
  | go (s : State) (i : Iss) (l : List Ready)
deriving Repr

/-- The core's translation unit for a group. -/
def State.mmuOf (s : State) (g : Group) : Mmu := ⟨some g.core, dieOf g.core, s.ctxOf g⟩
def Iss.mmu (i : Iss) (s : State) : Mmu := s.mmuOf i.g
def Iss.agent (i : Iss) (nc : Bool) : Agent := ⟨some i.g.core, dieOf i.g.core, nc⟩

/-- A lane's access resolved: ready, PROT, an absent page with level and record kind, or a walk that a flip stalls. -/
inductive Lane
  | ready (r : Ready)
  | prot (r : Req)
  | absent (r : Req) (va level kind : Nat)
  | stall (page : Nat)
deriving DecidableEq, Repr

def State.resolveLane (s : State) (g : Group) (warp : Nat) (m : Mmu) (w : Want) (r : Req) : Lane × State :=
  match s.locate g warp r.lane r.ptr r.size with
  | .place p => (.ready ⟨r, [(p, r.size)], []⟩, s)
  | .bad => (.prot r, s)
  | .global => match s.resolveRange m w r.ptr r.size with
    | (.ok l, s) => (.ready ⟨r, l.map (fun x => (.phys x.1.pa (pteNc x.1.leaf), x.2)), l.map (fun x => x.1)⟩, s)
    | (.prot _, s) => (.prot r, s)
    | (.absent va lv k, s) => (.absent r va lv k, s)
    | (.stall p, s) => (.stall p, s)
def State.resolveLanes (s : State) (g : Group) (warp : Nat) (m : Mmu) (w : Want) (l : List Req) : List Lane × State :=
  l.foldl (fun (x : List Lane × State) r => let (a, s) := x.2.resolveLane g warp m w r; (x.1 ++ [a], s)) ([], s)

/-! ## Lanes that leave the issuing sub-group -/

/-- A new sub-group in the list: just after its parent (R219), or by its lowest lane (R11). -/
def insertSub (id : Nat) (new : SubGroup) (after : Bool) : List SubGroup → List SubGroup
  | [] => [new]
  | u :: r => if u.id = id then
      (if after || lowLane (u.lanes &&& ~~~new.lanes) < lowLane new.lanes then { u with lanes := u.lanes &&& ~~~new.lanes } :: new :: r
        else new :: { u with lanes := u.lanes &&& ~~~new.lanes } :: r)
    else u :: insertSub id new after r
/-- Flags that the words of the issuer's clause not yet completed are attached to (R128). -/
def Iss.owing (i : Iss) : List Nat :=
  (i.c.words.drop ((i.u.pc.toNat - i.c.head.toNat) / 8 - 1)).filterMap (fun w => match decode w with
    | .ok x => i.flagOf x.enc.att
    | .error _ => none)
/-- Lanes form a sub-group of their own at the instruction, with a copy of the loop state (R14, R144, R219). The instruction
keeps the allotment it was accepted under (R292, log 110). -/
def Iss.detach (i : Iss) (s : State) (m : Mask) (st : SubState) (pend : Option TrapRec) (after : Bool) : State :=
  let new := { i.u with id := s.nextId, lanes := m, mid := some i.c.head, run := none, st := st, pend := pend,
                        owes := i.owing, allot := max i.u.allot i.w.av }
  (i.upd s (fun w => { w with subs := insertSub i.u.id new after w.subs })).fresh
/-- The whole sub-group leaves its clause at the instruction, with its reservations (R14, R125). One that parks or is held
keeps the allotment its instruction was accepted under (R292, log 110), and lets the next ready one be active (R12). -/
def Iss.leave (i : Iss) (s : State) (st : SubState) : State :=
  let s := s.updGroup i.g.id (fun g => g.release i.w.idx i.u.id i.c)
  let s := i.updU s (fun u => { u with mid := some i.c.head, run := none, st := st, owes := i.owing,
                                       allot := if st = .ready then u.allot else max u.allot i.w.av })
  let s := if st = .ready then s else i.upd s (fun w => { w with runs := 16 })
  s.freeQuad i.g.id i.w.idx

/-- A lane that found a page absent. -/
structure Miss where
  req : Req
  va : Nat
  level : Nat
  kind : Nat
deriving DecidableEq, Repr

/-- Lanes park (R14): one event for each page they miss, and the sub-group waits on the first (log 8). -/
def Iss.park (i : Iss) (s : State) (word flag : Nat) (act : Mask) (acc : Nat) (l : List Miss) (whole : Bool) : State :=
  let m := maskOf (fun t => l.any (fun x => x.req.lane == t))
  let sid := if whole then i.u.id else s.nextId
  let s := if whole then i.leave s (.parked 0) else i.detach s m (.parked 0) none false
  let low := (l.find? (fun x => x.req.lane == lowLane m)).map (fun x => x.req.ptr)
  let trap : TrapRec := ⟨BitVec.ofNat 8 causePageFault, i.u.pc, BitVec.ofNat 64 word,
    if whole then act else m, BitVec.ofNat 64 (low.getD 0), i.resumeOf i.u.pc⟩
  let keys := (l.map (fun x => (x.va / 4096, x.kind))).eraseDups
  let r := keys.foldl (fun (r : State × Option Nat) k =>
    let of := l.filter (fun x => x.va / 4096 == k.1 && x.kind == k.2)
    match of with
    | [] => r
    | x :: _ =>
      let e := { r.1.faultOf i.g k.2 with
        addr := BitVec.ofNat 64 x.va, acc := acc, level := x.level, pc := i.u.pc,
        mask := maskOf (fun t => of.any (fun y => y.req.lane == t)),
        waiters := [.sub i.g.id i.w.idx sid trap] }
      let (s, fid) := r.1.pushFault e
      (s, some (r.2.getD fid))) (s, none)
  let s := r.1.updSub i.g.id i.w.idx sid (fun u => { u with st := .parked (r.2.getD 0) })
  (i.upd s (fun w => { w with outst := w.outst ++ [⟨s.nextId, i.flagOf flag, .parked sid⟩] })).fresh

/-- Access kind of a fault record (R380). -/
def accOf (w : Want) : Nat := if w.fetch then 3 else if w.rd && w.wr then 2 else if w.wr then 1 else 0

/-- The page of a part whose bias is being flipped: device accesses to it stall (R83, R345). -/
def State.inFlip (s : State) (p : Place × Nat) : Option Nat :=
  match p.1 with
  | .phys pa _ => s.flipAt pa
  | _ => none
/-- The instruction waits in its clause until a page's bias flip is over: nothing of it is performed (R83, R345). -/
def Iss.awaitFlip (i : Iss) (s : State) (page : Nat) : State := s.setQuad i.q { s.quad i.q with stall := some page }
/-- The checks of R218, orders 4 to 7, over lanes that are within the window; `act` is the trap's lane set and `att` the
flag field. -/
def Iss.accessIn (i : Iss) (s : State) (word att : Nat) (act : Mask) (md : Mode) (reqs : List Req) : Acc :=
  match reqs.find? (s.overPriv i.g) with
  | some r => .stop (i.fault s causeStackOvf word act (r.ptr % 2 ^ 56))
  | none =>
  let (ls, s) := s.resolveLanes i.g i.w.idx (i.mmu s) md.want reqs
  match ls.findSome? (fun l => match l with | .stall page => some page | _ => none) with
  | some page => .stop (i.awaitFlip s page)
  | none =>
  match ls.findSome? (fun l => match l with | .prot r => some r | _ => none) with
  | some r => .stop (i.fault s causeProt word act r.ptr)
  | none =>
  let ready := ls.filterMap (fun l => match l with | .ready r => some r | _ => none)
  match (if md.want.wr then ready.find? (fun r => r.parts.any (fun p => s.tagged p.1 p.2)) else none) with
  | some r => .stop (i.fault s causeBarOvr word act r.req.ptr)
  | none =>
  let miss := ls.filterMap (fun l => match l with | .absent r va lv k => some (⟨r, va, lv, k⟩ : Miss) | _ => none)
  let ready := ready.filter (fun (r : Ready) => !miss.any (fun x => x.req.lane == r.req.lane))
  match ready.findSome? (fun r => r.parts.findSome? (s.inFlip)) with
  | some page => .stop (i.awaitFlip s page)
  | none =>
  if miss.isEmpty then .go s i ready
  else if ready.isEmpty then .stop (i.park s word att act (accOf md.want) miss true)
  else
    let s := i.park s word att act (accOf md.want) miss false
    .go s ((s.issuer?).getD i) ready
/-- Accesses outside the window of R219. -/
def Mode.outside (md : Mode) (reqs : List Req) : List Req :=
  match md.lim with
  | some (lo, hi) => reqs.filter (fun (r : Req) => !(lo ≤ r.ptr && r.ptr + r.size ≤ hi))
  | none => []
/-- Lanes outside the window leave, with a pending BOUNDS trap (R219). -/
def Iss.dropOut (i : Iss) (s : State) (word : Nat) (out : List Req) : State :=
  let m := maskOf (fun t => out.any (fun (r : Req) => r.lane == t))
  i.detach s m .ready (some ⟨BitVec.ofNat 8 causeBounds, i.u.pc, BitVec.ofNat 64 word, m,
    BitVec.ofNat 64 (((out.head?).map (fun (r : Req) => r.ptr)).getD 0), i.resumeOf i.u.pc⟩) true
/-- The checks of R218, orders 3 to 7, over the given lanes. -/
def Iss.accessFrom (i : Iss) (s : State) (word att : Nat) (act : Mask) (md : Mode) (reqs : List Req) : Acc :=
  let out := md.outside reqs
  if out.isEmpty then i.accessIn s word att act md reqs
  else if out.length = reqs.length then .stop (i.fault s causeBounds word act (((out.head?).map (fun (r : Req) => r.ptr)).getD 0))
  else
    let s := i.dropOut s word out
    ((s.issuer?).getD i).accessIn s word att (act &&& ~~~maskOf (fun t => out.any (fun (r : Req) => r.lane == t))) md
      (reqs.filter (fun r => !out.contains r))
/-- Every check of R218, orders 1 to 7. -/
def Iss.access (i : Iss) (s : State) (word att : Nat) (act : Mask) (md : Mode) (reqs : List Req) : Acc :=
  match reqs.find? (fun r => s.locate i.g i.w.idx r.lane r.ptr r.size == .bad) with
  | some r => .stop (i.fault s causeAperture word act r.ptr)
  | none => match reqs.find? (fun r => !aligned md.natural r) with
    | some r => .stop (i.fault s causeMisalign word act r.ptr)
    | none => i.accessFrom s word att act md reqs

/-! ## Reading and writing a checked access -/

/-- Reads the parts of an access; A is set in the leaves used. -/
def State.readReady (s : State) (m : Mmu) (nc point : Bool) (r : Ready) : Got × State :=
  let s := r.xs.foldl (fun (s : State) x => s.touch m x false) s
  r.parts.foldl (fun (x : Got × State) p =>
    let (g, s) := x.2.readPlace (m.agent nc) p.1 p.2 point
    (⟨x.1.bytes ++ g.bytes, x.1.bad || g.bad⟩, s)) (⟨[], false⟩, s)
/-- Writes the parts of an access; A and D are set in the leaves used. -/
def State.writeReady (s : State) (m : Mmu) (nc : Bool) (r : Ready) (b : List Byte) : State :=
  let s := r.xs.foldl (fun (s : State) x => s.touch m x true) s
  (r.parts.foldl (fun (x : State × List Byte) p =>
    (x.1.writePlace (m.agent nc) p.1 (x.2.take p.2), x.2.drop p.2)) (s, b)).1
/-- Reads every lane in order. -/
def State.readAll (s : State) (m : Mmu) (nc point : Bool) (l : List Ready) : List Got × State :=
  l.foldl (fun (x : List Got × State) r => let (g, s) := x.2.readReady m nc point r; (x.1 ++ [g], s)) ([], s)
/-- The lowest lane that read poison (R218 order 8). -/
def firstBad : List Ready → List Got → Option Nat
  | r :: l, g :: k => if g.bad then some r.req.ptr else firstBad l k
  | _, _ => none

/-- Any page of an access orders as OK says (R64 to R66): 0 release-consistent, 1 strong, 2 unordered. -/
def Ready.oks (r : Ready) : List Nat := if r.xs.isEmpty then [0] else r.xs.map (fun x => pteOk x.leaf)
/-- An access that acquires: coded so on an ordering page, or any load of a strongly ordered page (R65, R66). -/
def Ready.acquires (r : Ready) (coded : Bool) : Bool := r.oks.any (fun k => k == 1 || (k == 0 && coded))
/-- Some part lies on a strongly ordered page (R65). -/
def Ready.strong (r : Ready) : Bool := r.oks.contains 1

/-- Two runs share a byte. -/
def placeHit (p q : Place × Nat) : Bool :=
  match p.1, q.1 with
  | .phys a _, .phys b _ => a < b + q.2 && b < a + p.2
  | .scr g a, .scr h b => g == h && a < b + q.2 && b < a + p.2
  | .ext g a, .ext h b => g == h && a < b + q.2 && b < a + p.2
  | _, _ => false
def rowsHit (l m : List (List (Place × Nat))) : Bool := l.any (fun a => a.any (fun p => m.any (fun b => b.any (placeHit p))))

/-- One record or operand block read for an instruction outside its lanes' own accesses: read at the ordering point or
through the L1 like a plain load, after the checks of R218. -/
inductive Blk
  | stop (s : State)
  | go (s : State) (i : Iss) (b : List Byte)
deriving Repr

/-- The plain read of a record of n bytes as the lowest active lane's access. -/
def Iss.readBlock (i : Iss) (s : State) (word att : Nat) (act : Mask) (w : Want) (ptr n : Nat) : Blk :=
  match i.access s word att act ⟨w, false, none⟩ [⟨lowLane act, ptr, n⟩] with
  | .stop s => .stop s
  | .go s i l =>
    let (gs, s) := s.readAll (i.mmu s) false false l
    match firstBad l gs with
    | some p => .stop (i.fault s causeEccUe word act p)
    | none => .go s i ((gs.map (fun g => g.bytes)).flatten)

end Sys2Proof.Machine
end

