-- ==== Sys2Proof/Machine/Operands.lean ====
section
/-! DEFINITION. Every operand form (R18, R130 to R140), the dynamic steps of R154 in their order, engine tokens as operands
(R74, R234), queue pops and pushes (R125, R136, R253), and the shell in which every instruction of a warp runs. -/
namespace Sys2Proof.Machine

/-! ## Widening (R134, R206) -/

/-- The integer value of an immediate in a floating format. -/
def immFp (f : Fmt) (n : BitVec 8) : Nat := (fpOfInt f plainEnv n.toInt).bits
/-- Signed 8-bit immediate widened (R134). -/
def widenImm (w : Widen) (n : BitVec 8) : DWord :=
  match w with
  | .raw => (n.signExtend 32).setWidth 64
  | .one f => BitVec.ofNat 64 (immFp f n)
  | .ty t => match t with
    | .i64 | .n64 => n.signExtend 64
    | .i32 | .n32 => (n.signExtend 32).setWidth 64
    | .i16x2 | .n16x2 => (n.signExtend 16 ++ n.signExtend 16).setWidth 64
    | .i8x4 | .n8x4 => (n ++ n ++ n ++ n).setWidth 64
    | .f32 => BitVec.ofNat 64 (immFp fmtF32 n)
    | .f16x2 => BitVec.ofNat 64 (immFp fmtF16 n * 65537)
    | .bf16x2 => BitVec.ofNat 64 (immFp fmtBf16 n * 65537)
/-- Clause literal widened (R134). -/
def widenLit (w : Widen) (l : BitVec 32) : DWord := if w == .ty .i64 then l.signExtend 64 else l.setWidth 64

/-- Special register n of lane t of a warp (R18). -/
def State.special (s : State) (g : Group) (w : Warp) (n t : Nat) : Nat :=
  let p := s.pktOf g
  match n with
  | 0 => t
  | 1 => w.idx
  | 2 => warpCount p
  | 3 => w.role
  | 4 => g.x
  | 5 => g.y
  | 6 => g.z
  | 7 => pfld p 320 31
  | 8 => pfld p 352 16
  | 9 => pfld p 368 16
  | 10 => g.team
  | 11 => g.core % 6
  | 12 => g.core / 6
  | 13 => dieOf g.core
  | 14 => s.pkg
  | _ => match s.grid? g.grid with
    | some r => r.gen.toNat
    | none => 0

/-- Value of a source in lane t; `q` is the value popped for a queue source. -/
def Iss.value (i : Iss) (s : State) (o : Opd) (q : Word) (t : Nat) : DWord :=
  match o.src with
  | .v n => if o.wide then i.w.readVPair n.toNat t else (i.w.readV n.toNat t).setWidth 64
  | .s n => if o.wide then i.w.readSPair n.toNat else (i.w.readS n.toNat).setWidth 64
  | .sp n => BitVec.ofNat 64 (s.special i.g i.w n.toNat t % 2 ^ 32)
  | .q _ => q.setWidth 64
  | .lit => widenLit o.w i.h.lit
  | .imm n => widenImm o.w n
  | .k n => (i.w.readK n.toNat).setWidth 64

/-! ## Step 9 of R154 -/

/-- Vector allotment that the issuer's word is checked against: one accepted before a GIVE keeps its own (R292, log 110). -/
def Iss.av (i : Iss) : Nat := max i.w.av i.u.allot
/-- The failing number of a use, if it fails: allotments, even pairs, groups of four (R21, R88, R217, R219, R223, R236,
R251, R255, R256). -/
def Iss.regBad (i : Iss) (s : State) : RegUse → Option Nat
  | .vec n c =>
    if c = 1 then (if n = 255 || n < i.av then none else some n)
    else if n % c != 0 || (c = 2 && n = 254) || i.av ≤ n then some n else none
  | .sca n c => if n % c != 0 || i.w.as ≤ n then some n else none
  | .run _ n => if n < i.w.as then none else some n
  | .lims n => if n % 2 = 1 then some n else if i.w.as ≤ n + 3 then some (n + 3) else none
  | .queue n => if n < pfld (s.pktOf i.g) 561 4 then none else some n
  | .bar n => if n < pfld (s.pktOf i.g) 551 10 then none else some n
  | .pal n => if n < pfld (s.pktOf i.g) 544 3 then none else some n
  | .tile n => if n < pfld (s.pktOf i.g) 547 4 || (8 ≤ n && i.g.lent.isSome) then none else some n

/-- A register the word names waits for an engine job (R74, R128). -/
def Iss.stalled (i : Iss) (e : Enc) : Bool :=
  (e.readsS ++ e.dstUses.flatMap RegUse.scalars).any (fun n => match tfind i.w.tokens n with
    | some t => !t.landed
    | none => false)
/-- The word reads a completed token: an acquire of the job's writes (R74). -/
def Iss.readsToken (i : Iss) (e : Enc) : Bool := e.readsS.any (fun n => thas i.w.tokens n)
/-- A completed token with STATUS 1, 2, 4, 5 or 6 that the word reads (R234, R298). -/
def Iss.badToken (i : Iss) (e : Enc) : Option Word :=
  (e.readsS.find? (fun n => match tfind i.w.tokens n with
    | some t => t.landed && fld (i.w.readS n).toNat 28 4 != 0 && fld (i.w.readS n).toNat 28 4 != 3
    | none => false)).map i.w.readS

/-- Takes the next reserved value of queue n, or 0 past the end of an ended queue, which marks DRY (R253). -/
def popOne (pops : List (Nat × List Word)) (n : Nat) : Word × List (Nat × List Word) × Bool :=
  match pops with
  | [] => (0, [], true)
  | (m, l) :: r =>
    if m = n then (match l with
      | [] => (0, (m, []) :: r, true)
      | v :: l => (v, (m, l) :: r, false))
    else let x := popOne r n; (x.1, (m, l) :: x.2.1, x.2.2)
/-- Pops in order: the values, what stays reserved, and the queues found dry. -/
def popAll : List Nat → List (Nat × List Word) → List Word × List (Nat × List Word) × List Nat
  | [], p => ([], p, [])
  | n :: r, p =>
    let x := popOne p n
    let y := popAll r x.2.1
    (x.1 :: y.1, y.2.1, if x.2.2 then n :: y.2.2 else y.2.2)

/-- Value of source k of the issuer's word in lane t. A queue source takes the values popped in the order A, B, C. -/
def Iss.operand (i : Iss) (s : State) (e : Enc) (k t : Nat) : DWord :=
  let nq := ((e.opds.take k).filter (fun o => match o.src with | .q _ => true | _ => false)).length
  i.value s (e.opds.getD k opdNone) ((popAll e.pops i.c.pops).1.getD nq 0) t

/-! ## The issue of an instruction -/

/-- An instruction that has passed its checks: its active lanes, word, source values, and the queue state it commits. -/
structure Rdy where
  i : Iss
  e : Enc
  act : Mask
  word : Nat
  a : Nat → DWord
  b : Nat → DWord
  c : Nat → DWord
  pops : List (Nat × List Word)
  dry : List Nat

/-- The checks end the instruction, or it goes on. -/
inductive Gate
  | halt (s : State)
  | go (s : State) (r : Rdy)

/-- CSR numbers whose fields are all read-only (R155, R299, R300). -/
def csrAllRo (n : Nat) : Bool :=
  [0x012, 0x015, 0x016, 0x017, 0x018, 0x019, 0x020, 0x021, 0x031, 0x032, 0x034].contains n
/-- Step 8 of R154. -/
def Iss.privBad (i : Iss) (s : State) (e : Enc) : Bool :=
  match e with
  | .sys op f => (op == 0xEB && pfld (s.pktOf i.g) 574 1 == 0) || (op == 0xE5 && csrAllRo f.num.toNat)
  | .rk op _ => op == 0xEC && pfld (s.pktOf i.g) 574 1 == 0
  | _ => false

/-- A constant read (R139, R140): the value, or a trap or a park. -/
inductive Const
  | stop (s : State)
  | ok (s : State) (i : Iss) (v : DWord)

/-- A constant word of a core's cache, or from memory, which fills it (R140). -/
def State.constWord (s : State) (core pa : Nat) : Got × State :=
  let k := core * 2 ^ 62 + pa / 4
  match tfind s.ccache k with
  | some v => (⟨leBytes 4 v.toNat, false⟩, s)
  | none =>
    let (g, s) := s.readPlain ⟨none, dieOf core, false⟩ pa 4
    (g, if g.bad then s else { s with ccache := tins s.ccache k (BitVec.ofNat 32 (leVal g.bytes)) })

/-- Reads the words of a constant's checked access, through the core's cache of constants (R140). -/
def Iss.takeConst (i : Iss) (s : State) (r : Ready) : Got × State :=
  let s := r.xs.foldl (fun (s : State) x => s.touch (i.mmu s) x false) s
  r.parts.foldl (fun (x : Got × State) p => match p.1 with
    | .phys pa _ => (wordsOf pa p.2).foldl (fun (x : Got × State) k =>
        let g := x.2.constWord i.g.core (4 * k)
        (⟨x.1.bytes ++ g.1.bytes, x.1.bad || g.1.bad⟩, g.2)) x
    | _ =>
      let g := x.2.readPlace (i.agent false) p.1 p.2 false
      (⟨x.1.bytes ++ g.1.bytes, x.1.bad || g.1.bad⟩, g.2)) (⟨[], false⟩, s)

/-- Constant windows of the issuer's grid (R139). -/
def Iss.wins (i : Iss) (s : State) : Nat := match s.grid? i.g.grid with
  | some r => r.wins.toNat
  | none => 0

/-- Step 10 of R154 and the read of the constant, as one access for the active lanes (R139, R140). An odd offset of a
64-bit constant that is also beyond the window gives BOUNDS: DESIGN CHOICE, log 104. -/
def Iss.const (i : Iss) (s : State) (e : Enc) (word : Nat) (act : Mask) (w off : Nat) (wide : Bool) : Const :=
  let base := fld (i.wins s) (128 * w) 64
  let size := fld (i.wins s) (128 * w + 64) 32
  if act = 0 then .ok s i 0
  else if size ≤ off then .stop (i.fault s causeBounds word act (w * 2 ^ 17 + off))
  else if wide && off % 2 == 1 then .stop (i.fault s causeIllop word act 0)
  else if wide && size ≤ off + 1 then .stop (i.fault s causeBounds word act (w * 2 ^ 17 + off + 1))
  else
    let ptr := (base + 4 * off) % 2 ^ 64
    let reqs := (lanesOf act).map (fun t => (⟨t, ptr, if wide then 8 else 4⟩ : Req))
    let want : Want := { wantLoad (some i.w.pkr) with fmt := fun l => pteEf l == 0 }
    match i.access s word e.att act ⟨want, false, none⟩ reqs with
    | .stop s => .stop s
    | .go s i l => match l with
      | [] => .ok s i 0
      | r :: _ =>
        let x := i.takeConst s r
        if x.1.bad then .stop (i.fault x.2 causeEccUe word act ptr)
        else .ok x.2 i (BitVec.ofNat 64 (leVal x.1.bytes))

/-- A push that R253 forbids: by a warp in the ended set, or to an ENDED queue. -/
def Iss.pushEnded (i : Iss) (e : Enc) : Option Nat :=
  match e.push with
  | some n =>
    let q := tget emptyQueue i.g.queues n
    if q.ended || q.eos.contains i.w.idx then some n else none
  | none => none

/-- Tiles an outstanding ADRAIN of the warp still covers (R262). -/
def drainTiles (g : Group) (w : Nat) : List Nat :=
  g.palOps.flatMap (fun o => match o.kind with
    | .drain t _ sh _ _ => if o.warp = w then runTiles t (fld sh.toNat 96 16) else []
    | _ => [])
/-- Vector registers that an outstanding AREAD of the warp will write (R128, R280). -/
def Iss.pendingV (i : Iss) : List Nat :=
  i.g.palOps.filterMap (fun o => match o.kind with
    | .read _ _ _ _ d _ => if o.warp = i.w.idx && d != 255 then some d else none
    | _ => none)
/-- Rows of the shape record at a pointer, as the core holds it or memory stands. -/
def State.peekShape (s : State) (g : Group) (ptr : Nat) : Option Nat :=
  match s.shapes.find? (fun (e : ShapeEntry) => e.core == g.core && e.ctx == s.ctxOf g && e.addr == ptr) with
  | some e => some (fld e.shape.toNat 96 16)
  | none => match (s.resolve (s.mmuOf g) wantAny ptr).1 with
    | .ok x => some (fld (s.peekN x.pa 16) 96 16)
    | _ => none
/-- Rows of a palette once the writers accepted so far have been performed (R260). -/
def Group.rowsAhead (g : Group) (p : Nat) : Nat :=
  g.palOps.foldl (fun (n : Nat) o => match o.kind with
    | .build q sh _ _ => if q = p then fld sh.toNat 96 16 else n
    | .fill q _ d => if q = p then fld d.toNat 96 8 + 1 else n
    | _ => n) ((((tfind g.pals p).bind (fun x => x.desc)).map (fun d => d.rows)).getD 0)
/-- Tiles of h rows from tile n; the one named where h is no height of a run. -/
def runOf (n h : Nat) : List Nat := if h = 0 || 256 < h then [n] else runTiles n h
/-- Tiles of the run that a palette-class word names (R257, R262), its operands read in the lowest of its lanes. -/
def Iss.namedRun (i : Iss) (s : State) (e : Enc) (act : Mask) : List Nat :=
  let at' (k : Nat) : Nat := (i.operand s e k (lowLane act)).toNat
  match e with
  | .pal op f =>
    let n := f.p.toNat
    if op == 0xD6 then runOf n (at' 2 % 2 ^ 32)
    else if op == 0xD7 || op == 0xDA then runOf n ((s.peekShape i.g (at' 0)).getD 0)
    else if op == 0xD8 || op == 0xD9 then [n]
    else []
  | .plook f => runOf f.n.toNat (i.g.rowsAhead f.p.toNat)
  | _ => []
/-- Where the bytes at a pointer lie, as far as they translate. -/
def State.partsAt (s : State) (g : Group) (warp lane ptr n : Nat) : List (Place × Nat) :=
  match s.locate g warp lane ptr n with
  | .place p => [(p, n)]
  | .global => match (s.resolveRange (s.mmuOf g) wantAny ptr n).1 with
    | .ok l => l.map (fun x => (.phys x.1.pa (pteNc x.1.leaf), x.2))
    | _ => []
  | .bad => []
/-- What a palette-class word reads at issue: its shape record, unless the core caches it, or the header of an image
(R259, R267, R276). -/
def Iss.readsAtIssue (i : Iss) (s : State) (e : Enc) (act : Mask) : List (Place × Nat) :=
  let ptr := (i.operand s e 0 (lowLane act)).toNat
  let at' (n : Nat) : List (Place × Nat) := s.partsAt i.g i.w.idx (lowLane act) ptr n
  let record : List (Place × Nat) :=
    if s.shapes.any (fun (x : ShapeEntry) => x.core == i.g.core && x.ctx == s.ctxOf i.g && x.addr == ptr) then [] else at' 192
  match e with
  | .pal op _ =>
    if op == 0xD5 then at' 32
    else if op == 0xD0 || op == 0xD7 || op == 0xDA || op == 0xDC then record
    else []
  | .plook _ => record
  | _ => []
/-- Registers that a GIVE within its limits would give (R290). -/
def Iss.gives (i : Iss) (s : State) (e : Enc) (act : Mask) (d : Nat) : Bool :=
  match e with
  | .rk op _ =>
    let n := (i.operand s e 0 (lowLane act)).toNat % 2 ^ 32
    op == 0xE1 && n % 8 == 0 && 8 ≤ n && n + 8 ≤ i.w.av && i.w.av ≤ d + n
  | _ => false
/-- The word stays behind palette work of its own warp (R128, R259, R262, R290). -/
def Iss.behindPalette (i : Iss) (s : State) (e : Enc) (act : Mask) : Bool :=
  (afterPalette e && i.g.palOps.any (fun o => o.warp == i.w.idx))
    || i.pendingV.any (fun d => i.gives s e act d || (e.dstUses ++ e.srcUses).any (fun u => match u with
      | .vec n c => n ≤ d && d < n + c
      | _ => false))
    || (i.namedRun s e act).any (fun t => (drainTiles i.g i.w.idx).contains t)
    || i.g.palOps.any (fun o => o.warp == i.w.idx && o.kind.writes && rowsHit [i.readsAtIssue s e act] o.rows)
/-- Versions that accepted operations will bring tile t to, one after another (R261). -/
def Group.reach (g : Group) (t : Nat) : Nat :=
  (List.range g.palOps.length).foldl (fun n _ =>
    if g.palOps.any (fun o => o.kind.incr && o.kind.tiles.contains t
        && o.kind.ver == some ((((tfind g.tiles t).map (fun x => x.ver)).getD 0) + BitVec.ofNat 16 n)) then n + 1 else n) 0
/-- Palette work of the group, or of another that its copies wait for, waits for a version that no accepted operation
brings (R261, R271). -/
def State.versionWait (s : State) (g : Group) : Bool :=
  (s.groups.filter (fun (h : Group) => h.grid == g.grid)).any (fun h => h.palOps.any (fun o => match o.kind.ver with
    | some v => o.kind.tiles.any (fun t => h.reach t < (v - ((tfind h.tiles t).map (fun x => x.ver)).getD 0).toNat)
    | none => false))
/-- The word waits inside its clause for palette work, which completes without any further issue (R125). Where that work
waits for a version the sub-group leaves the clause instead (log 94). -/
def Iss.palStall (i : Iss) (s : State) (e : Enc) : Bool :=
  i.active e.guard != 0 && i.behindPalette s e (i.active e.guard) && !s.versionWait i.g

/-- Width in bytes of an LD or ST (R216). -/
def szBytes (sz : Nat) : Nat := if sz < 2 then 1 else if sz < 4 then 2 else 2 ^ (sz - 2)
/-- Accesses of a BP block: the scale byte, then k plane words (R223). -/
def bpReqs (lane base nb blk k : Nat) : List Req :=
  ⟨lane, (base + blk) % 2 ^ 64, 1⟩ ::
    (List.range k).map (fun p => ⟨lane, (base + roundUp nb 16 + 4 * (p * nb + blk)) % 2 ^ 64, 4⟩)
end Sys2Proof.Machine
namespace Sys2Proof
open Machine

/-- Effective address of a lane from its base (R217). -/
def MemF.ea (f : MemF) (a : DWord) (size : Nat) : Nat :=
  if f.mod.getLsbD 5 then a.toNat else wrapN (a.toNat + f.off6.toInt * size) 64
end Sys2Proof
namespace Sys2Proof.Machine

/-- The writing accesses of a store, atomic or reduction. -/
def Iss.writesTo (i : Iss) (s : State) (e : Enc) (act : Mask) : List Req :=
  match e with
  | .mem op f =>
    let a (t : Nat) : DWord := i.operand s e 0 t
    if op == 0xB2 && f.sz == 7 then
      let geom := (i.operand s e 1 (lowLane act)).toNat % 2 ^ 32
      bpReqs (lowLane act) (a (lowLane act)).toNat (geom / 2 ^ 16) (geom % 2 ^ 16) (f.mod.toNat % 8 + 1)
    else if op == 0xB2 || op == 0xB3 || op == 0xB4 then
      let n := if op == 0xB2 then szBytes f.sz.toNat else atomBytes f.sz.toNat
      (lanesOf act).map (fun t => ⟨t, f.ea (a t) n, n⟩)
    else []
  | .cas _ => (lanesOf act).map (fun t => ⟨t, (i.operand s e 0 t).toNat, 8⟩)
  | _ => []
/-- An access lies on a strongly ordered page, so that the word is a release whatever it is coded (R65). -/
def Iss.onStrong (i : Iss) (s : State) (e : Enc) (act : Mask) : Bool :=
  (i.writesTo s e act).any (fun r => r.ptr / 2 ^ 56 == 0 && (match (s.resolveRange (i.mmu s) wantAny r.ptr r.size).1 with
    | .ok l => l.any (fun x => pteOk x.1.leaf == 1)
    | _ => false))
/-- Position of the detected ACCCHK that the word raises: at a release, a FENCE, EXIT, or a word that names a tile of its
run (R262). -/
def Iss.accPoint (i : Iss) (s : State) (e : Enc) (act : Mask) : Option Nat :=
  if i.w.acc.isEmpty then none
  else if releases e || i.onStrong s e act || (match e with | .rk op _ => op == 0x39 | _ => false) then some 0
  else (List.range i.w.acc.length).find? (fun k => (i.namedRun s e act).any (fun t => (i.w.accTiles.getD k 0) / 2 ^ t % 2 == 1))
/-- Removes the k-th detected ACCCHK. -/
def Warp.dropAcc (w : Warp) (k : Nat) : Warp :=
  { w with acc := w.acc.eraseIdx k, accTiles := w.accTiles.eraseIdx k, accFlags := w.accFlags.eraseIdx k }
/-- The detected ACCCHK is raised before the word (R262). -/
def Iss.raiseAcc (i : Iss) (s : State) (k : Nat) (act : Mask) : State :=
  match i.w.acc[k]? with
  | none => s
  | some t =>
    (i.upd s (fun w => w.dropAcc k)).raise i.g.id i.w.idx i.u.id
      { t with tpc := i.u.pc, tmask := act, resume := i.resumeOf i.u.pc }

/-- Every active lane of a load may read what it names: none would trap, park or wait. -/
def Iss.loadClear (i : Iss) (s : State) (e : Enc) (f : MemF) : Bool :=
  let n := szBytes f.sz.toNat
  let lo := (i.w.readSPair f.off6.toNat).toNat
  let hi := (i.w.readSPair (f.off6.toNat + 2)).toNat
  (lanesOf (i.active e.guard)).all (fun t =>
    let r : Req := ⟨t, f.ea (i.operand s e 0 t) n, n⟩
    aligned false r && !s.overPriv i.g r && (!f.mod.getLsbD 5 || (lo ≤ r.ptr && r.ptr + n ≤ hi))
      && (match (s.resolveLane i.g i.w.idx (i.mmu s) (wantLoad (some i.w.pkr)) r).1 with
        | .ready q => q.parts.all (fun p => (s.inFlip p).isNone)
        | _ => false))
/-- Registers of the RIE's rename pool (R2), and those of a core's pool that loads satisfied early hold (R32). -/
def renamePool : Nat := 512
def State.renamed (s : State) (core : Nat) : Nat :=
  (s.groups.filter (fun g => g.core == core)).foldl (fun a g => g.warps.foldl (fun a w => w.spec.foldl (fun a x => a + cdiv x.size 4) a) a) 0
/-- While an acquire of a warp in the RIE completes, only younger plain loads are satisfied, while the rename pool lasts, and of
them none that would leave its clause, or that shares a register with the destination of a load satisfied so far (R2, R32; DESIGN CHOICE,
log 111). -/
def Iss.behindAcquire (i : Iss) (s : State) (e : Enc) : Bool :=
  i.w.acq && (match e with
    | .mem op f => !(op == 0xB0 && f.ord == 0 && s.renamed i.g.core + cdiv (szBytes f.sz.toNat) 4 ≤ renamePool
        && i.loadClear s e f && !i.w.spec.any (fun x =>
        (e.dstUses ++ e.srcUses).any (fun u => match u with
          | .vec n c => x.d < n + c && n < x.d + cdiv x.size 4
          | _ => false)))
    | _ => true)

/-- A clause holds a reservation on queue n. -/
def SubGroup.reserves (u : SubGroup) (n : Nat) : Bool :=
  match u.run with
  | some c => c.pops.any (fun p => p.1 == n && !p.2.isEmpty) || c.pushes.contains n
  | none => false
/-- QBIND waits until no other started clause holds a reservation on its queue (R252, log 11). -/
def Iss.bindWaits (i : Iss) (e : Enc) : Bool :=
  match e with
  | .rk op f => op == 0xC3 && (match f.a with
    | .imm n => i.g.warps.any (fun w => w.subs.any (fun u => !(w.idx == i.w.idx && u.id == i.u.id) && u.reserves n.toNat))
    | _ => false)
  | _ => false
/-- The word waits inside its started clause (R74, R125, R128, R252). -/
def Iss.mustWait (i : Iss) (s : State) (e : Enc) : Bool := i.stalled e || i.behindAcquire s e || i.bindWaits e
/-- The quad does not issue the word now: it waits as above, for palette work, or for a bias flip (R83, R125). -/
def Iss.idles (i : Iss) (s : State) (e : Enc) : Bool := i.mustWait s e || i.palStall s e || (s.quad i.q).stall.isSome

/-- A word that passes its checks begins: no lane of its sub-group is parked any more (R14), and a read of a token is an
acquire (R74). -/
def Iss.begin (i : Iss) (s : State) (e : Enc) : State :=
  let s := i.upd s (fun (w : Warp) => { w with outst := w.outst.filter (fun o => o.kind != .parked i.u.id) })
  if i.readsToken e then s.dropL1 i.g.core else s

/-- Every check of R154 and every operand read, in order: an instruction that fails traps with no effect, one that waits
for a token stays. A failed token and a push to an ended queue come before step 10: DESIGN CHOICE, log 106. -/
def State.gate (s : State) (i : Iss) (e : Enc) : Gate :=
  let word := e.word.getD 0
  let act := i.active e.guard
  let ill (v : Nat) : Gate := .halt (i.fault s causeIllop word act v)
  if !e.wf then ill 0
  else if e.home != .alu && e.home.code != i.h.cls then ill 0
  else if e.last && !i.isLast then ill 0
  else if i.privBad s e then .halt (i.fault s causePriv word act 0)
  else match (e.dstUses ++ e.srcUses).findSome? (i.regBad s) with
  | some n => ill n
  | none =>
  if i.mustWait s e || i.palStall s e then .halt s
  else if act != 0 && i.behindPalette s e act then .halt (i.leave s .held)
  else match (if act = 0 then none else i.accPoint s e act) with
  | some k => .halt (i.raiseAcc s k act)
  | none =>
  match (if act = 0 then none else i.badToken e) with
  | some v => .halt (i.fault s causeEngJob word act v.toNat)
  | none =>
  match i.pushEnded e with
  | some n => .halt (i.fault s causeQeos word act n)
  | none =>
  let s := i.begin s e
  let i := (s.issuer?).getD i
  match e.kop with
  | none =>
    let p := popAll e.pops i.c.pops
    .go s ⟨i, e, act, word, i.operand s e 0, i.operand s e 1, i.operand s e 2, p.2.1, p.2.2⟩
  | some (w, off, wide, k) =>
    match i.const s e word act w off wide with
    | .stop s => .halt s
    | .ok s i v =>
      let p := popAll e.pops i.c.pops
      let a (t : Nat) : DWord := if k = 0 then v else i.operand s e 0 t
      .go s ⟨i, e, i.active e.guard, word, a, fun _ => v, fun _ => 0, p.2.1, p.2.2⟩

/-- Runs an instruction of a warp: there is no issuing sub-group, its checks end it, or its effect follows. -/
def State.issue (s : State) (ins : Instr) (f : State → Rdy → State) : Host.Outcome State Fault Refusal :=
  match s.issuer? with
  | none => .fault .noIssuer
  | some i => match s.gate i ins.enc with
    | .halt s => .next s
    | .go s r => .next (f s r)

/-! ## Completion -/

/-- The queue values the instruction popped leave the reservation, and a pop past the end marks DRY (R253). A pop is an
acquire at `.grp` of pushes of the same core. -/
def Rdy.commit (r : Rdy) (s : State) : State :=
  if r.e.pops.isEmpty then s
  else
    let s := r.i.updU s (fun u => { u with run := u.run.map (fun c => { c with pops := r.pops }) })
    r.i.updG s (fun g => { g with queues := r.dry.foldl (fun t n =>
      tins t n (let q := tget emptyQueue t n; { q with dry := if q.dry.contains r.i.w.idx then q.dry else q.dry ++ [r.i.w.idx] })) g.queues })
/-- Fills the clause's next reserved entry of queue n (R251). -/
def fillEntry (w u : Nat) (v : Word) (after : List Nat) : List QEntry → List QEntry
  | [] => []
  | e :: r => if e.warp == w && e.sub == u && e.val.isNone then { e with val := some v, after := after } :: r
    else e :: fillEntry w u v after r
/-- A push (R251): a release at `.grp`, whose entry is filled and waits for the warp's earlier palette work (R70, R72). -/
def Rdy.pushQ (r : Rdy) (s : State) (n : Nat) (v : Word) : State :=
  r.i.updG (s.mergeRelease r.i.g.core 2) (fun g =>
    let after := (g.palOps.filter (fun o => o.warp == r.i.w.idx)).map (fun o => o.id)
    { g with queues := tins g.queues n (let q := tget emptyQueue g.queues n
        { q with entries := fillEntry r.i.w.idx r.i.u.id v after q.entries }) })

/-- The instruction completes (R120). -/
def Rdy.done (r : Rdy) (s : State) : State :=
  let s := r.commit s
  match s.issuer? with
  | some i => i.next s
  | none => s
/-- The instruction traps before execution: nothing it popped is lost (R125). -/
def Rdy.fault (r : Rdy) (s : State) (cause val : Nat) : State := r.i.fault s cause r.word r.act val
/-- The same with the lanes its rule names. -/
def Rdy.faultOn (r : Rdy) (s : State) (cause : Nat) (m : Mask) (val : Nat) : State := r.i.fault s cause r.word m val
/-- The sub-group leaves its clause as the given parts (R172). -/
def Rdy.leaveAs (r : Rdy) (s : State) (parts : List Part) : State :=
  let s := (r.commit s).updWarp r.i.g.id r.i.w.idx (fun w => w.count 1 1)
  match s.issuer? with
  | some i => i.endClause s parts
  | none => s

end Sys2Proof.Machine
namespace Sys2Proof
open Machine

/-- Destination field as a number. -/
def Rk.dn (f : Rk) : Nat := f.d.toNat
/-- M[5:0] of an R or K word (R132). -/
def Rk.m6 (f : Rk) : Nat := match f.body with
  | .r _ _ _ m => m.toNat % 64
  | .k _ _ _ m => m.toNat % 64
  | .i _ => 0
/-- Type of an R or K word. -/
def Rk.ty (f : Rk) : Ty := match f.body with
  | .r _ _ t _ => t
  | .k _ _ t _ => t
  | .i _ => .i32
/-- C source code. -/
def Rk.csrc (f : Rk) : Src := match f.body with
  | .r _ c _ _ => c
  | _ => .v 0
/-- B source code. -/
def Rk.bsrc (f : Rk) : Src := match f.body with
  | .r b _ _ _ => b
  | _ => .v 0
/-- IMM32 of an I word. -/
def Rk.imm (f : Rk) : Word := match f.body with
  | .i n => n
  | _ => 0

end Sys2Proof
namespace Sys2Proof.Machine

/-- Writes a scalar destination (R136, R153): a queue receives lane 0's result, or 0; a register is written when a lane
is active. -/
def Rdy.putS (r : Rdy) (s : State) (d : Nat) (v : Word) : State :=
  if 64 ≤ d then r.pushQ s (d - 80) (if laneIn r.act 0 then v else 0)
  else if r.act = 0 then s
  else r.i.upd s (fun w => w.writeS d v)
/-- Writes a scalar pair when a lane is active. -/
def Rdy.putSPair (r : Rdy) (s : State) (d : Nat) (v : DWord) : State :=
  if r.act = 0 then s else r.i.upd s (fun w => w.writeSPair d v)
/-- Writes a vector register, or a pair, in the active lanes (R156). -/
def Rdy.putV (r : Rdy) (s : State) (d : Nat) (f : Nat → Word) : State := r.i.upd s (fun w => w.writeVs d r.act f)
def Rdy.putVPair (r : Rdy) (s : State) (d : Nat) (f : Nat → DWord) : State := r.i.upd s (fun w => w.writeVPair d r.act f)
/-- Writes bits of a predicate for the active lanes (R156). -/
def Rdy.putK (r : Rdy) (s : State) (d : Nat) (p : Nat → Bool) : State := r.i.upd s (fun w => w.writeKs d r.act p)
/-- Lowest active lane, in which a uniform operand may be read. -/
def Rdy.low (r : Rdy) : Nat := if r.act = 0 then 0 else lowLane r.act

end Sys2Proof.Machine
end

