-- ==== Sys2Proof/Machine/Flags.lean ====
section
/-! DEFINITION. Floating exceptions of an instruction: sticky flags, counters, and the FPX trap (R93 to R98, R111). -/
namespace Sys2Proof.Machine

/-- Flush bit of a format's group (R93, R94). -/
def fzOf (f : Fmt) (fpmode : Word) : Bool :=
  if f.id = 0 then fpmode.getLsbD 2 else if f.id ≤ 2 then fpmode.getLsbD 3 else fpmode.getLsbD 4
/-- Settings of an element operation within one format. -/
def envOf (f : Fmt) (fpmode : Word) (rm : Rm) (sat : Bool) : Env := ⟨rm, fzOf f fpmode, fzOf f fpmode, sat⟩

/-- What a floating instruction raised: exceptions of each lane, and what it counts. -/
structure Raised where
  fl : List (Nat × Nat)
  cnt : List Count
deriving DecidableEq, Repr

/-- OR of the exceptions of some lanes. -/
def orFl (l : List (Nat × Nat)) : Nat := l.foldl (fun a x => a ||| x.2) 0
/-- Exceptions whose enable is set (R94). -/
def enabled (fpmode : Word) (fl : Nat) : Nat := fl &&& fld fpmode.toNat 8 5

/-- Root launch of a group's grid, whose counters its results enter (R112). -/
def State.rootOfGroup (s : State) (g : Group) : Nat :=
  match s.grid? g.grid with
  | some r => r.root
  | none => g.grid

/-- A floating instruction completes: the sticky flags and counters, then the next word, or FPX after it (R97, R98). -/
def Rdy.fpDone (r : Rdy) (s : State) (x : Raised) : State :=
  let mode := r.i.w.fpmode
  let s := r.i.upd s (fun w => { w with fpflags := w.fpflags ||| BitVec.ofNat 32 (orFl x.fl) })
  let s := s.tally (s.rootOfGroup r.i.g) x.cnt
  let bad := x.fl.filter (fun e => enabled mode e.2 != 0)
  if bad.isEmpty then r.done s
  else
    let s := (r.commit s).updWarp r.i.g.id r.i.w.idx (fun w => w.count 1 1)
    match s.issuer? with
    | some i => i.trapAfter s causeFpx r.word (maskOf (fun t => bad.any (fun e => e.1 == t))) (enabled mode (orFl bad))
    | none => s

end Sys2Proof.Machine
end

