-- ==== Sys2Proof/Machine/Integer.lean ====
section
/-! DEFINITION. Integer forms, vector and scalar (R156 to R171): one meaning for each opcode, over shared operations. -/
namespace Sys2Proof.Machine

/-! ## Elements (R87) -/

/-- Element width and count of an integer type. -/
def tyElems : Ty → Nat × Nat
  | .i32 | .n32 => (32, 1)
  | .i64 | .n64 => (64, 1)
  | .i16x2 | .n16x2 => (16, 2)
  | .i8x4 | .n8x4 => (8, 4)
  | .f32 => (32, 1)
  | .f16x2 | .bf16x2 => (16, 2)
def tySigned : Ty → Bool
  | .i32 | .i64 | .i16x2 | .i8x4 => true
  | _ => false
/-- Element e of a value. -/
def elem (w v e : Nat) : Nat := v / 2 ^ (w * e) % 2 ^ w
/-- Exact integer value of an element (R87). -/
def elemInt (signed : Bool) (w v : Nat) : Int := if signed then sval v w else (v % 2 ^ w : Nat)
/-- A function of the elements of up to three operands, packed again. -/
def mapElems (ty : Ty) (f : Nat → Nat → Nat → Nat → Nat) (a b c : DWord) : DWord :=
  let (w, n) := tyElems ty
  BitVec.ofNat 64 ((List.range n).foldl (fun r e =>
    r + f w (elem w a.toNat e) (elem w b.toNat e) (elem w c.toNat e) % 2 ^ w * 2 ^ (w * e)) 0)
/-- Range of an element type. -/
def tyMin (signed : Bool) (w : Nat) : Int := if signed then -(2 ^ (w - 1) : Nat) else 0
def tyMax (signed : Bool) (w : Nat) : Int := if signed then (2 ^ (w - 1) : Nat) - 1 else (2 ^ w : Nat) - 1
/-- An exact result wrapped, or saturated to the element type (R158, R159). -/
def wrapSat (sat signed : Bool) (w : Nat) (x : Int) : Nat :=
  wrapN (if sat then clampI x (tyMin signed w) (tyMax signed w) else x) w

/-- A form of exact arithmetic per element (R158). -/
def arith (ty : Ty) (sat : Bool) (op : Int → Int → Int → Int) : DWord → DWord → DWord → DWord :=
  mapElems ty (fun w a b c =>
    let g := tySigned ty
    wrapSat sat g w (op (elemInt g w a) (elemInt g w b) (elemInt g w c)))
def mulHigh (ty : Ty) : DWord → DWord → DWord → DWord :=
  mapElems ty (fun w a b _ =>
    let g := tySigned ty
    wrapN ((elemInt g w a * elemInt g w b) / (2 ^ w : Nat)) w)
def minInt (x y : Int) : Int := if x < y then x else y
def maxInt (x y : Int) : Int := if x < y then y else x

/-- 32-bit logic (R163). -/
def logic (op : Word → Word → Word) (a b _c : DWord) : DWord := (op (a.setWidth 32) (b.setWidth 32)).setWidth 64

/-- Shifts (R164): the count is bits [7:0] of the element of B. -/
def shiftElem (code w a b : Nat) : Nat :=
  let c := b % 256
  match code with
  | 0 => if c < w then a * 2 ^ c else 0
  | 1 => if c < w then a / 2 ^ c else 0
  | 2 => wrapN (sval a w / (2 ^ (min c w) : Nat)) w
  | _ => a * 2 ^ (c % w) + a / 2 ^ (w - c % w)
def shift (ty : Ty) (code : Nat) : DWord → DWord → DWord → DWord := mapElems ty (fun w a b _ => shiftElem code w a b)

/-- BFE (R165). -/
def bfe (signed : Bool) (a b : Nat) : Nat :=
  let pos := fld b 0 8
  let len := min (fld b 8 8) 32
  let x : Int := if signed then sval a 32 else (a % 2 ^ 32 : Nat)
  if len = 0 then 0
  else
    let v := wrapN (x / (2 ^ pos : Nat)) len
    if signed then wrapN (sval v len) 32 else v
/-- BFI (R166). -/
def bfi (a b c : Nat) : Nat :=
  let pos := fld c 0 8
  let len := min (fld c 8 8) 32
  if 32 ≤ pos then a
  else
    let n := min len (32 - pos)
    setFld (a % 2 ^ 32) pos n (b % 2 ^ n)

def revBits : Nat → Nat → Nat → Nat
  | 0, _, r => r
  | n + 1, v, r => revBits n (v / 2) (2 * r + v % 2)
/-- POPC, CLZ, CTZ and BREV (R167). -/
def bitOp (code : Nat) (a _b _c : DWord) : DWord :=
  let v := a.toNat % 2 ^ 32
  BitVec.ofNat 64 (match code with
    | 0 => popN 32 v
    | 1 => 32 - bitLen v
    | 2 => lowN 32 v
    | _ => revBits 32 v 0)

/-- LEA (R168). -/
def lea (m : Nat) (a b _c : DWord) : DWord :=
  let x := if m / 8 % 2 = 1 then (b.setWidth 32).setWidth 64 else (b.setWidth 32).signExtend 64
  a + (x <<< (m % 8))
/-- IMADW (R160). -/
def imadw (ty : Ty) (a b c : DWord) : DWord :=
  let g := tySigned ty
  BitVec.ofInt 64 (elemInt g 32 a.toNat * elemInt g 32 b.toNat + c.toInt)

/-- Quotient or remainder (R162). -/
def divRem (ty : Ty) (isRem : Bool) (a b _c : DWord) : DWord :=
  let w := (tyElems ty).1
  let g := tySigned ty
  let x := elemInt g w a.toNat
  let y := elemInt g w b.toNat
  let q := Int.tdiv x y
  BitVec.ofNat 64 (wrapN (if isRem then x - q * y else q) w)

/-- Comparison codes of ICMP (R157, R169). -/
def icmpElem (code : Nat) (signed : Bool) (w a b : Nat) : Bool :=
  let x := elemInt signed w a
  let y := elemInt signed w b
  match code with
  | 0 => x == y
  | 1 => x != y
  | 2 => x < y
  | 3 => x ≤ y
  | 4 => y < x
  | _ => y ≤ x
def icmp (ty : Ty) (m : Nat) (a b : DWord) : Bool :=
  let (w, n) := tyElems ty
  let l := (List.range n).map (fun e => icmpElem (m % 8) (tySigned ty) w (elem w a.toNat e) (elem w b.toNat e))
  if m / 8 % 2 = 1 then l.any id else l.all id

/-! ## Shells -/

/-- A vector form whose effect is one value per active lane (R156). -/
def vecForm (ins : Rk → Instr) (f : Rk) (s : State) (op : DWord → DWord → DWord → DWord) : Host.Outcome State Fault Refusal :=
  s.issue (ins f) (fun s r => r.done (if f.ty.is64 then r.putVPair s f.dn (fun t => op (r.a t) (r.b t) (r.c t))
    else r.putV s f.dn (fun t => (op (r.a t) (r.b t) (r.c t)).setWidth 32)))
/-- A vector form that always writes a pair (R160, R168). -/
def pairForm (ins : Rk → Instr) (f : Rk) (s : State) (op : DWord → DWord → DWord → DWord) : Host.Outcome State Fault Refusal :=
  s.issue (ins f) (fun s r => r.done (r.putVPair s f.dn (fun t => op (r.a t) (r.b t) (r.c t))))
/-- A scalar form: the same effect once, on uniform operands (R153, R156). -/
def scaForm (ins : Rk → Instr) (f : Rk) (s : State) (op : DWord → DWord → DWord → DWord) : Host.Outcome State Fault Refusal :=
  s.issue (ins f) (fun s r =>
    let v := op (r.a r.low) (r.b r.low) (r.c r.low)
    r.done (if f.ty.is64 then r.putSPair s f.dn v else r.putS s f.dn (v.setWidth 32)))

/-- Lanes whose divisor is zero (R162). -/
def zeroLanes (r : Rdy) (ty : Ty) : Mask := maskOf (fun t => r.b t % BitVec.ofNat 64 (if ty.is64 then 0 else 2 ^ 32) == 0) &&& r.act
/-- IDIV and IREM, vector (R162): long-latency, so the instruction is outstanding for its flag until it completes. -/
def divForm (ins : Rk → Instr) (f : Rk) (s : State) (isRem : Bool) : Host.Outcome State Fault Refusal :=
  s.issue (ins f) (fun s r =>
    let z := zeroLanes r f.ty
    if z != 0 then r.faultOn s causeDivZero z (lowLane z)
    else
      let op := divRem f.ty isRem
      let s := r.i.outst s r.e.att .free
      r.done (if f.ty.is64 then r.putVPair s f.dn (fun t => op (r.a t) (r.b t) (r.c t))
        else r.putV s f.dn (fun t => (op (r.a t) (r.b t) (r.c t)).setWidth 32)))
/-- IDIV and IREM, scalar (R162). -/
def divFormS (ins : Rk → Instr) (f : Rk) (s : State) (isRem : Bool) : Host.Outcome State Fault Refusal :=
  s.issue (ins f) (fun s r =>
    if r.act != 0 && laneIn (zeroLanes r f.ty) r.low then r.faultOn s causeDivZero 1 0
    else
      let v := if r.act = 0 then 0 else divRem f.ty isRem (r.a r.low) (r.b r.low) 0
      let s := r.i.outst s r.e.att .free
      r.done (if f.ty.is64 then r.putSPair s f.dn v else r.putS s f.dn (v.setWidth 32)))

/-! ## Vector and scalar meanings -/

/-- IADD (R158, R159), vector. -/
def execIadd (f : Rk) (s : State) : Host.Outcome State Fault Refusal := vecForm .iadd f s (arith f.ty (f.m6 == 1) (fun x y _ => x + y))
/-- IADD (R158, R159), scalar. -/
def execIaddS (f : Rk) (s : State) : Host.Outcome State Fault Refusal := scaForm .iaddS f s (arith f.ty (f.m6 == 1) (fun x y _ => x + y))
/-- ISUB (R158, R159), vector. -/
def execIsub (f : Rk) (s : State) : Host.Outcome State Fault Refusal := vecForm .isub f s (arith f.ty (f.m6 == 1) (fun x y _ => x - y))
/-- ISUB (R158, R159), scalar. -/
def execIsubS (f : Rk) (s : State) : Host.Outcome State Fault Refusal := scaForm .isubS f s (arith f.ty (f.m6 == 1) (fun x y _ => x - y))
/-- IMUL (R158), vector. -/
def execImul (f : Rk) (s : State) : Host.Outcome State Fault Refusal := vecForm .imul f s (arith f.ty false (fun x y _ => x * y))
/-- IMUL (R158), scalar. -/
def execImulS (f : Rk) (s : State) : Host.Outcome State Fault Refusal := scaForm .imulS f s (arith f.ty false (fun x y _ => x * y))
/-- IMULH (R158), vector. -/
def execImulh (f : Rk) (s : State) : Host.Outcome State Fault Refusal := vecForm .imulh f s (mulHigh f.ty)
/-- IMULH (R158), scalar. -/
def execImulhS (f : Rk) (s : State) : Host.Outcome State Fault Refusal := scaForm .imulhS f s (mulHigh f.ty)
/-- IMAD (R158), vector. -/
def execImad (f : Rk) (s : State) : Host.Outcome State Fault Refusal := vecForm .imad f s (arith f.ty false (fun x y z => x * y + z))
/-- IMAD (R158), scalar. -/
def execImadS (f : Rk) (s : State) : Host.Outcome State Fault Refusal := scaForm .imadS f s (arith f.ty false (fun x y z => x * y + z))
/-- IMADW (R160). -/
def execImadw (f : Rk) (s : State) : Host.Outcome State Fault Refusal := pairForm .imadw f s (imadw f.ty)
/-- IADD64 (R161), vector. -/
def execIadd64 (f : Rk) (s : State) : Host.Outcome State Fault Refusal := vecForm .iadd64 f s (arith f.ty (f.m6 == 1) (fun x y _ => x + y))
/-- IADD64 (R161), scalar. -/
def execIadd64S (f : Rk) (s : State) : Host.Outcome State Fault Refusal := scaForm .iadd64S f s (arith f.ty (f.m6 == 1) (fun x y _ => x + y))
/-- ISUB64 (R161), vector. -/
def execIsub64 (f : Rk) (s : State) : Host.Outcome State Fault Refusal := vecForm .isub64 f s (arith f.ty (f.m6 == 1) (fun x y _ => x - y))
/-- ISUB64 (R161), scalar. -/
def execIsub64S (f : Rk) (s : State) : Host.Outcome State Fault Refusal := scaForm .isub64S f s (arith f.ty (f.m6 == 1) (fun x y _ => x - y))
/-- IDIV (R162), vector. -/
def execIdiv (f : Rk) (s : State) : Host.Outcome State Fault Refusal := divForm .idiv f s false
/-- IDIV (R162), scalar. -/
def execIdivS (f : Rk) (s : State) : Host.Outcome State Fault Refusal := divFormS .idivS f s false
/-- IREM (R162), vector. -/
def execIrem (f : Rk) (s : State) : Host.Outcome State Fault Refusal := divForm .irem f s true
/-- IREM (R162), scalar. -/
def execIremS (f : Rk) (s : State) : Host.Outcome State Fault Refusal := divFormS .iremS f s true
/-- IMIN (R158), vector. -/
def execImin (f : Rk) (s : State) : Host.Outcome State Fault Refusal := vecForm .imin f s (arith f.ty false (fun x y _ => minInt x y))
/-- IMIN (R158), scalar. -/
def execIminS (f : Rk) (s : State) : Host.Outcome State Fault Refusal := scaForm .iminS f s (arith f.ty false (fun x y _ => minInt x y))
/-- IMAX (R158), vector. -/
def execImax (f : Rk) (s : State) : Host.Outcome State Fault Refusal := vecForm .imax f s (arith f.ty false (fun x y _ => maxInt x y))
/-- IMAX (R158), scalar. -/
def execImaxS (f : Rk) (s : State) : Host.Outcome State Fault Refusal := scaForm .imaxS f s (arith f.ty false (fun x y _ => maxInt x y))
/-- IABS (R158, R159), vector. -/
def execIabs (f : Rk) (s : State) : Host.Outcome State Fault Refusal := vecForm .iabs f s (arith f.ty (f.m6 == 1) (fun x _ _ => x.natAbs))
/-- IABS (R158, R159), scalar. -/
def execIabsS (f : Rk) (s : State) : Host.Outcome State Fault Refusal := scaForm .iabsS f s (arith f.ty (f.m6 == 1) (fun x _ _ => x.natAbs))
/-- AND (R163), vector. -/
def execAnd (f : Rk) (s : State) : Host.Outcome State Fault Refusal := vecForm .and f s (logic (fun x y => x &&& y))
/-- AND (R163), scalar. -/
def execAndS (f : Rk) (s : State) : Host.Outcome State Fault Refusal := scaForm .andS f s (logic (fun x y => x &&& y))
/-- OR (R163), vector. -/
def execOr (f : Rk) (s : State) : Host.Outcome State Fault Refusal := vecForm .or f s (logic (fun x y => x ||| y))
/-- OR (R163), scalar. -/
def execOrS (f : Rk) (s : State) : Host.Outcome State Fault Refusal := scaForm .orS f s (logic (fun x y => x ||| y))
/-- XOR (R163), vector. -/
def execXor (f : Rk) (s : State) : Host.Outcome State Fault Refusal := vecForm .xor f s (logic (fun x y => x ^^^ y))
/-- XOR (R163), scalar. -/
def execXorS (f : Rk) (s : State) : Host.Outcome State Fault Refusal := scaForm .xorS f s (logic (fun x y => x ^^^ y))
/-- ANDN (R163), vector. -/
def execAndn (f : Rk) (s : State) : Host.Outcome State Fault Refusal := vecForm .andn f s (logic (fun x y => x &&& ~~~y))
/-- ANDN (R163), scalar. -/
def execAndnS (f : Rk) (s : State) : Host.Outcome State Fault Refusal := scaForm .andnS f s (logic (fun x y => x &&& ~~~y))
/-- SHL (R164), vector. -/
def execShl (f : Rk) (s : State) : Host.Outcome State Fault Refusal := vecForm .shl f s (shift f.ty 0)
/-- SHL (R164), scalar. -/
def execShlS (f : Rk) (s : State) : Host.Outcome State Fault Refusal := scaForm .shlS f s (shift f.ty 0)
/-- SHR (R164), vector. -/
def execShr (f : Rk) (s : State) : Host.Outcome State Fault Refusal := vecForm .shr f s (shift f.ty 1)
/-- SHR (R164), scalar. -/
def execShrS (f : Rk) (s : State) : Host.Outcome State Fault Refusal := scaForm .shrS f s (shift f.ty 1)
/-- SAR (R164), vector. -/
def execSar (f : Rk) (s : State) : Host.Outcome State Fault Refusal := vecForm .sar f s (shift f.ty 2)
/-- SAR (R164), scalar. -/
def execSarS (f : Rk) (s : State) : Host.Outcome State Fault Refusal := scaForm .sarS f s (shift f.ty 2)
/-- ROT (R164), vector. -/
def execRot (f : Rk) (s : State) : Host.Outcome State Fault Refusal := vecForm .rot f s (shift f.ty 3)
/-- ROT (R164), scalar. -/
def execRotS (f : Rk) (s : State) : Host.Outcome State Fault Refusal := scaForm .rotS f s (shift f.ty 3)
/-- BFE (R165), vector. -/
def execBfe (f : Rk) (s : State) : Host.Outcome State Fault Refusal := vecForm .bfe f s (fun a b _ => BitVec.ofNat 64 (bfe (tySigned f.ty) a.toNat b.toNat))
/-- BFE (R165), scalar. -/
def execBfeS (f : Rk) (s : State) : Host.Outcome State Fault Refusal := scaForm .bfeS f s (fun a b _ => BitVec.ofNat 64 (bfe (tySigned f.ty) a.toNat b.toNat))
/-- BFI (R166), vector. -/
def execBfi (f : Rk) (s : State) : Host.Outcome State Fault Refusal := vecForm .bfi f s (fun a b c => BitVec.ofNat 64 (bfi (a.toNat % 2 ^ 32) b.toNat c.toNat))
/-- BFI (R166), scalar. -/
def execBfiS (f : Rk) (s : State) : Host.Outcome State Fault Refusal := scaForm .bfiS f s (fun a b c => BitVec.ofNat 64 (bfi (a.toNat % 2 ^ 32) b.toNat c.toNat))
/-- POPC (R167), vector. -/
def execPopc (f : Rk) (s : State) : Host.Outcome State Fault Refusal := vecForm .popc f s (bitOp 0)
/-- POPC (R167), scalar. -/
def execPopcS (f : Rk) (s : State) : Host.Outcome State Fault Refusal := scaForm .popcS f s (bitOp 0)
/-- CLZ (R167), vector. -/
def execClz (f : Rk) (s : State) : Host.Outcome State Fault Refusal := vecForm .clz f s (bitOp 1)
/-- CLZ (R167), scalar. -/
def execClzS (f : Rk) (s : State) : Host.Outcome State Fault Refusal := scaForm .clzS f s (bitOp 1)
/-- CTZ (R167), vector. -/
def execCtz (f : Rk) (s : State) : Host.Outcome State Fault Refusal := vecForm .ctz f s (bitOp 2)
/-- CTZ (R167), scalar. -/
def execCtzS (f : Rk) (s : State) : Host.Outcome State Fault Refusal := scaForm .ctzS f s (bitOp 2)
/-- BREV (R167), vector. -/
def execBrev (f : Rk) (s : State) : Host.Outcome State Fault Refusal := vecForm .brev f s (bitOp 3)
/-- BREV (R167), scalar. -/
def execBrevS (f : Rk) (s : State) : Host.Outcome State Fault Refusal := scaForm .brevS f s (bitOp 3)
/-- LEA (R168), vector. -/
def execLea (f : Rk) (s : State) : Host.Outcome State Fault Refusal := pairForm .lea f s (lea f.m6)
/-- LEA (R168), scalar. -/
def execLeaS (f : Rk) (s : State) : Host.Outcome State Fault Refusal :=
  s.issue (.leaS f) (fun s r => r.done (r.putSPair s f.dn (lea f.m6 (r.a r.low) (r.b r.low) 0)))
/-- ICMP (R169). -/
def execIcmp (f : Rk) (s : State) : Host.Outcome State Fault Refusal :=
  s.issue (.icmp f) (fun s r => r.done (r.putK s f.dn (fun t => icmp f.ty f.m6 (r.a t) (r.b t))))
/-- Bit of the selecting predicate, inverted under `.not` (R170). -/
def pickBit (f : Rk) (r : Rdy) (t : Nat) : Bool := laneIn ((r.c t).setWidth 32) t != (f.m6 == 1)
/-- IPICK (R170), vector. -/
def execIpick (f : Rk) (s : State) : Host.Outcome State Fault Refusal :=
  s.issue (.ipick f) (fun s r => r.done (r.putV s f.dn (fun t => ((if pickBit f r t then r.a t else r.b t)).setWidth 32)))
/-- IPICK (R170), scalar: the bit of the lowest active lane. -/
def execIpickS (f : Rk) (s : State) : Host.Outcome State Fault Refusal :=
  s.issue (.ipickS f) (fun s r =>
    r.done (r.putS s f.dn ((if pickBit f r r.low then r.a r.low else r.b r.low).setWidth 32)))
/-- MOV (R171), vector. -/
def execMov (f : Rk) (s : State) : Host.Outcome State Fault Refusal := vecForm .mov f s (fun a _ _ => a)
/-- MOV (R171), scalar. -/
def execMovS (f : Rk) (s : State) : Host.Outcome State Fault Refusal := scaForm .movS f s (fun a _ _ => a)
/-- MOVI (R171), vector. -/
def execMovi (f : Rk) (s : State) : Host.Outcome State Fault Refusal := vecForm .movi f s (fun _ _ _ => f.imm.setWidth 64)
/-- MOVI (R171), scalar. -/
def execMoviS (f : Rk) (s : State) : Host.Outcome State Fault Refusal := scaForm .moviS f s (fun _ _ _ => f.imm.setWidth 64)

end Sys2Proof.Machine
end

