-- ==== Sys2Proof/Machine/Lanes.lean ====
section
/-! DEFINITION. Cross-lane forms (R185 to R190). -/
namespace Sys2Proof.Machine

/-- The condition of a source in a lane: its bit of a k register, or a value that is not zero (R185, R186). -/
def laneCond (src : Src) (v : DWord) (t : Nat) : Bool := if src.isK then v.getLsbD t else v.setWidth 32 != (0 : Word)
/-- Active lanes whose condition holds (R186). -/
def condMask (f : Rk) (r : Rdy) : Mask := maskOf (fun t => laneCond f.a (r.a t) t) &&& r.act
/-- Value of LTEST: 0 every, 1 some, 2 same, 3 mask, 4 count (R186). -/
def ltestVal (mode : Nat) (b act : Mask) : Word :=
  match mode with
  | 0 => if b = act then 1 else 0
  | 1 => if b = 0 then 0 else 1
  | 2 => if b = 0 || b = act then 1 else 0
  | 3 => b
  | _ => BitVec.ofNat 32 (popN 32 b.toNat)
/-- LTEST to a predicate (R186). -/
def execLtest (f : Rk) (s : State) : Host.Outcome State Fault Refusal :=
  s.issue (.ltest f) (fun s r =>
    let v := ltestVal f.m6 (condMask f r) r.act
    if r.act = 0 then r.done s
    else if f.m6 = 3 then r.done (r.i.upd s (fun w => w.writeK f.dn v))
    else r.done (r.putK s f.dn (fun _ => v == 1)))
/-- LTEST to a scalar register or queue (R186). -/
def execLtestS (f : Rk) (s : State) : Host.Outcome State Fault Refusal :=
  s.issue (.ltestS f) (fun s r => r.done (r.putS s f.dn (ltestVal f.m6 (condMask f r) r.act)))

/-- Source lane of LXCH in lane t: 0 at, 1 rise, 2 sink, 3 xor; segments of w lanes (R187). -/
def lxchFrom (mode w t c : Nat) : Option Nat :=
  let base := t - t % w
  let k := t % w
  match mode with
  | 0 => some (base + c % w)
  | 1 => if k < c then none else some (t - c)
  | 2 => if w ≤ k + c then none else some (t + c)
  | _ => some (base + (k ^^^ (c % w)))
/-- LXCH (R187). -/
def execLxch (f : Rk) (s : State) : Host.Outcome State Fault Refusal :=
  s.issue (.lxch f) (fun s r =>
    let w := 2 ^ (5 - f.m6 / 4 % 8)
    r.done (r.putV s f.dn (fun t =>
      (match (lxchFrom (f.m6 % 4) w t (r.b t).toNat).filter (laneIn r.act) with
        | some j => r.a j
        | none => if 32 ≤ f.m6 then r.c t else r.a t).setWidth 32)))

/-- One combining step of LFOLD or SCAN: 0 add, 1 min, 2 max, 3 and, 4 or, 5 xor; with what an f32 step raises (R188). -/
def foldStep (ty : Ty) (op : Nat) (fpmode : Word) (x y : DWord) : DWord × Nat × List Count :=
  if ty == .f32 then
    let v := envOf fmtF32 fpmode (Rm.ofFpmode fpmode) false
    let a := x.toNat % 2 ^ 32
    let b := y.toNat % 2 ^ 32
    let r := if op = 0 then fpAdd fmtF32 v a b else fpMinMax fmtF32 v (op == 2) false a b
    (BitVec.ofNat 64 r.bits, r.fl, [countOf fmtF32 fmtF32 [a, b] r])
  else
    (match op with
      | 0 => arith ty false (fun x y _ => x + y) x y 0
      | 1 => arith ty false (fun x y _ => minInt x y) x y 0
      | 2 => arith ty false (fun x y _ => maxInt x y) x y 0
      | 3 => x &&& y
      | 4 => x ||| y
      | _ => x ^^^ y, 0, [])
/-- Identity of an operation (R188). -/
def foldIdent (ty : Ty) (op : Nat) : DWord :=
  let w := (tyElems ty).1
  let g := tySigned ty
  match op with
  | 1 => if ty == .f32 then 0x7F800000 else BitVec.ofNat 64 (wrapN (tyMax g w) w)
  | 2 => if ty == .f32 then 0xFF800000 else BitVec.ofNat 64 (wrapN (tyMin g w) w)
  | 3 => BitVec.ofNat 64 (2 ^ w - 1)
  | _ => 0

/-- State of a fold: the accumulator once a lane is taken, each lane's value before and after, and what the steps raised. -/
structure FoldSt where
  acc : Option DWord
  before : Tbl DWord
  after : Tbl DWord
  fl : List (Nat × Nat)
  cnt : List Count
/-- Combines the active lanes in ascending order (R188). -/
def foldLanes (ty : Ty) (op : Nat) (fpmode : Word) (a : Nat → DWord) (l : List Nat) : FoldSt :=
  l.foldl (fun x t =>
    let (v, fl, c) := match x.acc with
      | none => (a t, 0, [])
      | some p => foldStep ty op fpmode p (a t)
    ⟨some v, tins x.before t (x.acc.getD (foldIdent ty op)), tins x.after t v, x.fl ++ [(t, fl)], x.cnt ++ c⟩)
    ⟨none, [], [], [], []⟩
/-- LFOLD (R188): its exceptions belong to lane 0. -/
def execLfold (f : Rk) (s : State) : Host.Outcome State Fault Refusal :=
  s.issue (.lfold f) (fun s r =>
    let x := foldLanes f.ty (f.m6 % 8) r.i.w.fpmode r.a (lanesOf r.act)
    let v := x.acc.getD 0
    r.fpDone (if f.ty.is64 then r.putSPair s f.dn v else r.putS s f.dn (v.setWidth 32)) ⟨[(0, orFl x.fl)], x.cnt⟩)
/-- SCAN (R188): a step's exceptions belong to the lane whose value it produced. -/
def execScan (f : Rk) (s : State) : Host.Outcome State Fault Refusal :=
  s.issue (.scan f) (fun s r =>
    let x := foldLanes f.ty (f.m6 % 8) r.i.w.fpmode r.a (lanesOf r.act)
    let g (t : Nat) : DWord := tget 0 (if 8 ≤ f.m6 then x.before else x.after) t
    r.fpDone (if f.ty.is64 then r.putVPair s f.dn g else r.putV s f.dn (fun t => (g t).setWidth 32)) ⟨x.fl, x.cnt⟩)

/-- LSAME (R189). -/
def execLsame (f : Rk) (s : State) : Host.Outcome State Fault Refusal :=
  s.issue (.lsame f) (fun s r =>
    r.done (r.putV s f.dn (fun t => maskOf (fun u => (r.a u).setWidth 32 == ((r.a t).setWidth 32 : Word)) &&& r.act)))

/-- PSET (R190). -/
def execPset (f : Rk) (s : State) : Host.Outcome State Fault Refusal :=
  s.issue (.pset f) (fun s r =>
    let a : Mask := (r.a r.low).setWidth 32
    let b : Mask := (r.b r.low).setWidth 32
    let v : Mask := match f.m6 with
      | 0 => a &&& b
      | 1 => a ||| b
      | 2 => a ^^^ b
      | 3 => a &&& ~~~b
      | _ => ~~~a
    r.done (r.putK s f.dn (laneIn v)))
/-- PMOV (R190). -/
def execPmov (f : Rk) (s : State) : Host.Outcome State Fault Refusal :=
  s.issue (.pmov f) (fun s r =>
    if f.m6 = 1 then r.done (r.putK s f.dn (fun t => laneCond f.a (r.a t) t))
    else if r.act = 0 then r.done s
    else r.done (r.i.upd s (fun w => w.writeK f.dn ((r.a r.low).setWidth 32))))

end Sys2Proof.Machine
end

