-- ==== Sys2Proof/Machine/FloatOps.lean ====
section
/-! DEFINITION. Floating forms and special functions (R191 to R204), vector and scalar. -/
namespace Sys2Proof.Machine

/-- Elements of a floating type: format and count. -/
def fpElems (ty : Ty) : Fmt × Nat := (tyFmt ty, (tyElems ty).2)
/-- A floating operation on every element of the operands, of which the first k are floating: the packed result, what it
raised, what it counts. -/
def fpLane (k : Nat) (ty : Ty) (op : Nat → Nat → Nat → Res) (a b c : DWord) : Nat × Nat × List Count :=
  let (f, n) := fpElems ty
  let w := f.width
  (List.range n).foldl (fun (x : Nat × Nat × List Count) e =>
    let p := elem w a.toNat e
    let q := elem w b.toNat e
    let u := elem w c.toNat e
    let r := op p q u
    (x.1 + r.bits % 2 ^ w * 2 ^ (w * e), x.2.1 ||| r.fl, x.2.2 ++ [countOf f f ([p, q, u].take k) r])) (0, 0, [])

/-- Rounding mode of a form with a RND field (R191, R192). -/
def fpMode (f : Rk) (r : Rdy) : Rm := Rm.ofRnd (f.m6 % 8) r.i.w.fpmode
/-- Settings of a form in its own type. -/
def fpEnv (f : Rk) (r : Rdy) : Env := envOf (tyFmt f.ty) r.i.w.fpmode (fpMode f r) false

/-- A vector floating form of k floating sources: one value per active lane (R191). -/
def fpForm (k : Nat) (ins : Rk → Instr) (f : Rk) (s : State) (op : Fmt → Env → Nat → Nat → Nat → Res) : Host.Outcome State Fault Refusal :=
  s.issue (ins f) (fun s r =>
    let g (t : Nat) := fpLane k f.ty (op (tyFmt f.ty) (fpEnv f r)) (r.a t) (r.b t) (r.c t)
    r.fpDone (r.putV s f.dn (fun t => BitVec.ofNat 32 (g t).1))
      ⟨(lanesOf r.act).map (fun t => (t, (g t).2.1)), (lanesOf r.act).flatMap (fun t => (g t).2.2)⟩)
/-- A long-latency vector floating form of k sources (R127). -/
def fpLong (k : Nat) (ins : Rk → Instr) (f : Rk) (s : State) (op : Fmt → Env → Nat → Nat → Nat → Res) : Host.Outcome State Fault Refusal :=
  s.issue (ins f) (fun s r =>
    let g (t : Nat) := fpLane k f.ty (op (tyFmt f.ty) (fpEnv f r)) (r.a t) (r.b t) (r.c t)
    r.fpDone (r.putV (r.i.outst s r.e.att .free) f.dn (fun t => BitVec.ofNat 32 (g t).1))
      ⟨(lanesOf r.act).map (fun t => (t, (g t).2.1)), (lanesOf r.act).flatMap (fun t => (g t).2.2)⟩)
/-- A scalar floating form of k sources: it raises as lane 0, whenever some lane is active (R153). DESIGN CHOICE, log 105: the
spec does not say what it raises where lane 0 itself is guarded off. -/
def fpFormS (k : Nat) (ins : Rk → Instr) (f : Rk) (s : State) (op : Fmt → Env → Nat → Nat → Nat → Res) : Host.Outcome State Fault Refusal :=
  s.issue (ins f) (fun s r =>
    let g := fpLane k f.ty (op (tyFmt f.ty) (fpEnv f r)) (r.a r.low) (r.b r.low) (r.c r.low)
    r.fpDone (r.putS s f.dn (BitVec.ofNat 32 g.1)) (if r.act = 0 then ⟨[], []⟩ else ⟨[(0, g.2.1)], g.2.2⟩))

/-- Operations of two and three operands as element functions. -/
def opAdd (f : Fmt) (v : Env) (a b _c : Nat) : Res := fpAdd f v a b
def opSub (f : Fmt) (v : Env) (a b _c : Nat) : Res := fpSub f v a b
def opMul (f : Fmt) (v : Env) (a b _c : Nat) : Res := fpMul f v a b
def opFma (f : Fmt) (v : Env) (a b c : Nat) : Res := fpFma f v a b c
def opMin (nanp : Bool) (f : Fmt) (v : Env) (a b _c : Nat) : Res := fpMinMax f v false nanp a b
def opMax (nanp : Bool) (f : Fmt) (v : Env) (a b _c : Nat) : Res := fpMinMax f v true nanp a b
def opRnd (f : Fmt) (v : Env) (a _b _c : Nat) : Res := fpRnd f v a
def opScale (f : Fmt) (v : Env) (a b _c : Nat) : Res := fpScale f v a (sval b f.width)
def opDiv (f : Fmt) (v : Env) (a b _c : Nat) : Res := fpDiv f v a b
def opRcp (f : Fmt) (v : Env) (a _b _c : Nat) : Res := fpRcp f v a
def opSqrt (f : Fmt) (v : Env) (a _b _c : Nat) : Res := fpSqrt f v a

/-! ## Approximate forms (R202 to R204) -/

/-- An approximate result: a free encoding where it lies within the bounds of R203, and the nearest one where it does not
(log 10). -/
def sfuPick (code : Nat) (f : Fmt) (raw : Nat) (n : Bool) (m : Nat) (e : Int) : Nat :=
  let raw := raw % 2 ^ f.width
  if code = 0 then (if rsqOk f raw m e then raw else rsqNear f m e)
  else if (code = 3 || code = 4) && farAngle f m e then
    match f.dec raw with
    | .fin _ p q => if fpLess (.fin false 1 0) (.fin false p q) then f.zero false else raw
    | _ => f.zero false
  else if fxOk code f raw n m e then raw else fxNear code f n m e
/-- The encoding equals the exact value: 1/√x, or log2 of a power of two; the others are irrational (R202). -/
def sfuIsExact (code : Nat) (f : Fmt) (r m : Nat) (e : Int) : Bool :=
  match code, f.dec r with
  | 0, .fin false cm ce => rsqOrder cm ce m e == 0
  | 1, .fin n cm ce => isPow2 m && fpEqual (.fin n cm ce) (.fin ((bitLen m : Int) - 1 + e < 0) ((bitLen m : Int) - 1 + e).natAbs 0)
  | _, _ => false
/-- A value at or above a natural number. -/
def geNat (neg : Bool) (m : Nat) (e : Int) (n : Nat) : Bool := !neg && !fpLess (.fin false m e) (.fin false n 0)

/-- An approximate form on one element: 0 RSQ, 1 LOG2, 2 EXP2, 3 SIN, 4 COS, 5 TANH (R202 to R204). -/
def sfu (code : Nat) (f : Fmt) (v : Env) (a : Nat) : Res :=
  let a := f.flushIn v.fzi a
  let x := f.dec a
  match sfuExact code f v x with
  | some r => r
  | none => match x with
    | .fin n m e =>
      let raw := (Config.sfu code f.id (BitVec.ofNat 32 a)).toNat % 2 ^ f.width
      let r := if code = 2 && geNat n m e (f.emax + 1) then f.infEnc false else sfuPick code f raw n m e
      if code = 2 && r = f.infEnc false then ⟨r, fOf + fNx⟩
      else
        let nx := if sfuIsExact code f r m e then 0 else fNx
        let tiny := r % 2 ^ (f.eb + f.mb) < 2 ^ f.mb && nx != 0
        if tiny && code != 1 then ⟨if v.fzo then f.zero (r / 2 ^ (f.eb + f.mb) % 2 == 1) else r, nx + fUf⟩
        else if tiny && r % 2 ^ (f.eb + f.mb) != 0 then ⟨if v.fzo then f.zero (r / 2 ^ (f.eb + f.mb) % 2 == 1) else r, nx + fUf⟩
        else ⟨r, nx⟩
    | _ => nanRes f false
def opSfu (code : Nat) (f : Fmt) (v : Env) (a _b _c : Nat) : Res := sfu code f v a

/-! ## Meanings -/

/-- FADD (R193), vector. -/
def execFadd (f : Rk) (s : State) : Host.Outcome State Fault Refusal := fpForm 2 .fadd f s opAdd
/-- FADD (R193), scalar. -/
def execFaddS (f : Rk) (s : State) : Host.Outcome State Fault Refusal := fpFormS 2 .faddS f s opAdd
/-- FSUB (R193), vector. -/
def execFsub (f : Rk) (s : State) : Host.Outcome State Fault Refusal := fpForm 2 .fsub f s opSub
/-- FSUB (R193), scalar. -/
def execFsubS (f : Rk) (s : State) : Host.Outcome State Fault Refusal := fpFormS 2 .fsubS f s opSub
/-- FMUL (R193), vector. -/
def execFmul (f : Rk) (s : State) : Host.Outcome State Fault Refusal := fpForm 2 .fmul f s opMul
/-- FMUL (R193), scalar. -/
def execFmulS (f : Rk) (s : State) : Host.Outcome State Fault Refusal := fpFormS 2 .fmulS f s opMul
/-- FFMA (R193), vector. -/
def execFfma (f : Rk) (s : State) : Host.Outcome State Fault Refusal := fpForm 3 .ffma f s opFma
/-- FFMA (R193), scalar. -/
def execFfmaS (f : Rk) (s : State) : Host.Outcome State Fault Refusal := fpFormS 3 .ffmaS f s opFma
/-- FMIN (R194), vector. -/
def execFmin (f : Rk) (s : State) : Host.Outcome State Fault Refusal := fpForm 2 .fmin f s (opMin (f.m6 == 1))
/-- FMIN (R194), scalar. -/
def execFminS (f : Rk) (s : State) : Host.Outcome State Fault Refusal := fpFormS 2 .fminS f s (opMin (f.m6 == 1))
/-- FMAX (R194), vector. -/
def execFmax (f : Rk) (s : State) : Host.Outcome State Fault Refusal := fpForm 2 .fmax f s (opMax (f.m6 == 1))
/-- FMAX (R194), scalar. -/
def execFmaxS (f : Rk) (s : State) : Host.Outcome State Fault Refusal := fpFormS 2 .fmaxS f s (opMax (f.m6 == 1))
/-- FRND (R196). -/
def execFrnd (f : Rk) (s : State) : Host.Outcome State Fault Refusal := fpForm 1 .frnd f s opRnd
/-- FSCALE (R195). -/
def execFscale (f : Rk) (s : State) : Host.Outcome State Fault Refusal := fpForm 1 .fscale f s opScale
/-- FDIV (R201). -/
def execFdiv (f : Rk) (s : State) : Host.Outcome State Fault Refusal := fpLong 2 .fdiv f s opDiv
/-- RCP (R202, R204). -/
def execRcp (f : Rk) (s : State) : Host.Outcome State Fault Refusal := fpLong 1 .rcp f s opRcp
/-- SQRT (R202, R204). -/
def execSqrt (f : Rk) (s : State) : Host.Outcome State Fault Refusal := fpLong 1 .sqrt f s opSqrt
/-- RSQ (R202 to R204). -/
def execRsq (f : Rk) (s : State) : Host.Outcome State Fault Refusal := fpLong 1 .rsq f s (opSfu 0)
/-- LOG2 (R202 to R204). -/
def execLog2 (f : Rk) (s : State) : Host.Outcome State Fault Refusal := fpLong 1 .log2 f s (opSfu 1)
/-- EXP2 (R202 to R204). -/
def execExp2 (f : Rk) (s : State) : Host.Outcome State Fault Refusal := fpLong 1 .exp2 f s (opSfu 2)
/-- SIN (R202 to R204). -/
def execSin (f : Rk) (s : State) : Host.Outcome State Fault Refusal := fpLong 1 .sin f s (opSfu 3)
/-- COS (R202 to R204). -/
def execCos (f : Rk) (s : State) : Host.Outcome State Fault Refusal := fpLong 1 .cos f s (opSfu 4)
/-- TANH (R202 to R204). -/
def execTanh (f : Rk) (s : State) : Host.Outcome State Fault Refusal := fpLong 1 .tanh f s (opSfu 5)
/-- FCMP (R197, R198). -/
def execFcmp (f : Rk) (s : State) : Host.Outcome State Fault Refusal :=
  s.issue (.fcmp f) (fun s r =>
    let (fm, n) := fpElems f.ty
    let v := envOf fm r.i.w.fpmode .rne false
    let g (t : Nat) : List (Bool × Nat) := (List.range n).map (fun e =>
      fpCmp fm v (f.m6 % 16) (elem fm.width (r.a t).toNat e) (elem fm.width (r.b t).toNat e))
    r.fpDone (r.putK s f.dn (fun t => if 16 ≤ f.m6 then (g t).any (fun x => x.1) else (g t).all (fun x => x.1)))
      ⟨(lanesOf r.act).map (fun t => (t, orFl ((g t).map (fun x => (0, x.2))))), []⟩)
/-- FPICK (R199), vector. -/
def execFpick (f : Rk) (s : State) : Host.Outcome State Fault Refusal :=
  s.issue (.fpick f) (fun s r => r.done (r.putV s f.dn (fun t => (if pickBit f r t then r.a t else r.b t).setWidth 32)))
/-- FPICK (R199), scalar: the bit of the lowest active lane. -/
def execFpickS (f : Rk) (s : State) : Host.Outcome State Fault Refusal :=
  s.issue (.fpickS f) (fun s r =>
    r.done (r.putS s f.dn ((if pickBit f r r.low then r.a r.low else r.b r.low).setWidth 32)))
/-- FCLASS (R200). -/
def execFclass (f : Rk) (s : State) : Host.Outcome State Fault Refusal :=
  s.issue (.fclass f) (fun s r =>
    let (fm, n) := fpElems f.ty
    r.done (r.putV s f.dn (fun t => BitVec.ofNat 32 ((List.range n).foldl (fun x e =>
      x + fpClass fm (elem fm.width (r.a t).toNat e) * 2 ^ (16 * e)) 0))))

end Sys2Proof.Machine
end

