-- ==== Sys2Proof/Machine/Convert.lean ====
section
/-! DEFINITION. Conversions and bit-plane packing (R205 to R214). -/
namespace Sys2Proof.Machine

/-- A side of a conversion: a floating format, or an integer type. -/
inductive Side
  | fp (f : Fmt)
  | int (signed : Bool) (w : Nat)
deriving DecidableEq, Repr
def Side.width : Side → Nat
  | .fp f => f.width
  | .int _ w => w
/-- The T side (R205). -/
def sideT (t : Ty) : Side :=
  match t with
  | .f32 | .f16x2 | .bf16x2 => .fp (tyFmt t)
  | _ => .int (tySigned t) (tyElems t).1
/-- The O side (R205). -/
def sideO (o : Nat) : Side :=
  match o with
  | 0 => .fp fmtF32
  | 1 => .fp fmtF16
  | 2 => .fp fmtBf16
  | 3 => .fp fmtE4m3
  | 4 => .fp fmtE5m2
  | 5 => .fp fmtE2m1
  | 6 => .int true 32
  | _ => .int false 32

/-- One element converted (R208 to R211), with what it counts. -/
def cvtElem (src dst : Side) (rm : Rm) (sat : Bool) (fpmode : Word) (a : Nat) : Res × List Count :=
  match src, dst with
  | .fp f, .fp g =>
    let r := fpCvt f g ⟨rm, fzOf f fpmode, fzOf g fpmode, sat⟩ a
    (r, [countOf f g [a] r])
  | .fp f, .int g w =>
    let r := fpToInt f ⟨rm, fzOf f fpmode, false, sat⟩ (tyMin g w) (tyMax g w) a
    (⟨wrapN r.1 w, r.2⟩, [])
  | .int g w, .fp f =>
    let r := fpOfInt f ⟨rm, false, fzOf f fpmode, sat⟩ (elemInt g w a)
    (r, [countOf fmtF32 f [] r])
  | .int g w, .int g' w' => (⟨wrapSat sat g' w' (elemInt g w a), 0⟩, [])
/-- A whole conversion: the packed result, what it raised, what it counts. -/
def cvtVal (f : Rk) (fpmode : Word) (a : DWord) : Nat × Nat × List Count :=
  let dir := f.m6 / 32 % 2
  let t := sideT f.ty
  let o := sideO (f.m6 / 4 % 8)
  let (src, dst) := if dir = 1 then (t, o) else (o, t)
  let rm := if f.m6 % 2 = 1 then Rm.rtz else Rm.ofFpmode fpmode
  (List.range (tyElems f.ty).2).foldl (fun (x : Nat × Nat × List Count) e =>
    let r := cvtElem src dst rm (f.m6 / 2 % 2 == 1) fpmode (elem src.width a.toNat e)
    (x.1 + r.1.bits % 2 ^ dst.width * 2 ^ (dst.width * e), x.2.1 ||| r.1.fl, x.2.2 ++ r.2)) (0, 0, [])

/-- CVT (R205 to R211), vector. -/
def execCvt (f : Rk) (s : State) : Host.Outcome State Fault Refusal :=
  s.issue (.cvt f) (fun s r =>
    let g (t : Nat) := cvtVal f r.i.w.fpmode (r.a t)
    let s := r.i.outst s r.e.att .free
    r.fpDone (if cvtWideDst f.ty f.m6 then r.putVPair s f.dn (fun t => BitVec.ofNat 64 (g t).1)
        else r.putV s f.dn (fun t => BitVec.ofNat 32 (g t).1))
      ⟨(lanesOf r.act).map (fun t => (t, (g t).2.1)), (lanesOf r.act).flatMap (fun t => (g t).2.2)⟩)
/-- CVT (R205 to R211), scalar: it raises as lane 0 (R153). -/
def execCvtS (f : Rk) (s : State) : Host.Outcome State Fault Refusal :=
  s.issue (.cvtS f) (fun s r =>
    let g := cvtVal f r.i.w.fpmode (r.a r.low)
    let s := r.i.outst s r.e.att .free
    r.fpDone (if cvtWideDst f.ty f.m6 then r.putSPair s f.dn (BitVec.ofNat 64 g.1) else r.putS s f.dn (BitVec.ofNat 32 g.1))
      (if r.act = 0 then ⟨[], []⟩ else ⟨[(0, g.2.1)], g.2.2⟩))

/-! ## Bit planes (R99, R212 to R214) -/

/-- A lane's element: value, or none for a non-finite one. -/
def finOf (f : Fmt) (b : Nat) : Option (Bool × Nat × Int) :=
  match f.dec b with
  | .fin n m e => some (n, m, e)
  | _ => none
/-- m · 2^e ≤ k · 2^s. -/
def leScaled (m : Nat) (e : Int) (k : Nat) (s : Int) : Bool :=
  let d := if e < s then e else s
  m * 2 ^ (e - d).toNat ≤ k * 2 ^ (s - d).toNat
/-- The scale of R213: the smallest s from −127 with (2^n − 1) · 2^s ≥ M, at most 127, among `k` candidates from `s`. -/
def bpScale (n : Nat) (big : List (Nat × Int)) : Nat → Int → Int
  | 0, s => s
  | k + 1, s => if big.all (fun x => leScaled x.1 x.2 (2 ^ n - 1) s) then s else bpScale n big k (s + 1)
/-- Code of an element at a scale, whether it was clamped, and whether its value differs (R213). -/
def bpCode (n : Nat) (s : Int) (neg : Bool) (m : Nat) (e : Int) : Int × Bool × Bool :=
  -- (x·2^(−s) − 1)/2 = (±m·2^(e−s) − 1)/2 over the common unit 2^d
  let d : Int := if e - s < 0 then e - s else 0
  let one : Nat := 2 ^ (-d).toNat
  let x : Int := (if neg then -1 else 1) * (m * 2 ^ (e - s - d).toNat : Nat) - (one : Nat)
  let q := roundShift .rne false x.natAbs ((-d).toNat + 1)
  let c : Int := if x < 0 then -(q.1 : Int) else q.1
  let lo : Int := -(2 ^ (n - 1) : Nat)
  let hi : Int := (2 ^ (n - 1) : Nat) - 1
  let k := clampI c lo hi
  (k, k != c, (2 * k + 1) * (one : Nat) != x + (one : Nat))

/-- A packed block: scale and codes of the 32 lanes, and each active lane's exceptions (R213). -/
structure BpBlock where
  scale : Int
  codes : List Int
  fl : List (Nat × Nat)
/-- The block of exact values, one for each lane; none stands for a value that is not finite (R213). -/
def bpPackV (n : Nat) (act : Mask) (v : Nat → Option (Bool × Nat × Int)) : BpBlock :=
  let l := lanesOf act
  let zero : List Int := List.replicate 32 0
  if l.any (fun t => (v t).isNone) then
    ⟨-128, zero, l.map (fun t => (t, match v t with
      | none => fIv
      | some (_, m, _) => if m = 0 then 0 else fNx))⟩
  else
    let big := (l.filterMap v).map (fun v => (v.2.1, v.2.2))
    if big.all (fun v => v.1 == 0) then ⟨-128, zero, l.map (fun t => (t, 0))⟩
    else
      let s := bpScale n big 254 (-127)
      let g (t : Nat) : Int × Bool × Bool := match v t with
        | some (neg, m, e) => bpCode n s neg m e
        | none => (0, false, false)
      ⟨s, lanes.map (fun t => if laneIn act t then (g t).1 else 0),
        l.map (fun t => (t, (if (g t).2.2 then fNx else 0) + (if (g t).2.1 then fOf else 0)))⟩
def bpPack (f : Fmt) (n : Nat) (act : Mask) (x : Nat → Nat) : BpBlock := bpPackV n act (fun t => finOf f (x t))
/-- Plane p of codes of n bits (R99). -/
def bpPlane (n p : Nat) (codes : List Int) : Word :=
  BitVec.ofNat 32 (codes.zipIdx.foldl (fun a c => a + wrapN c.1 n / 2 ^ (n - 1 - p) % 2 * 2 ^ c.2) 0)

/-- BPACK (R212, R213). -/
def execBpack (f : Rk) (s : State) : Host.Outcome State Fault Refusal :=
  s.issue (.bpack f) (fun s r =>
    if r.act = 0 then r.done s
    else
      let fm := tyFmt f.ty
      let n := f.planes
      let x (t : Nat) : Nat := fm.flushIn (fzOf fm r.i.w.fpmode) (elem fm.width (r.a t).toNat (f.m6 / 8))
      let b := bpPack fm n r.act x
      let s := r.i.upd (r.i.outst s r.e.att .free) (fun w => (List.range n).foldl (fun w p => w.writeS (f.dn + 1 + p) (bpPlane n p b.codes))
        (w.writeS f.dn (BitVec.ofInt 32 b.scale)))
      r.fpDone s ⟨b.fl, []⟩)

/-- Code of lane t in k planes read from a base register (R214). -/
def Warp.bpCodeAt (w : Warp) (base k t : Nat) : Int :=
  sval ((List.range k).foldl (fun a p => 2 * a + (if (w.readS (base + 1 + p)).getLsbD t then 1 else 0)) 0) k
/-- BUNPACK (R214). -/
def execBunpack (f : Rk) (s : State) : Host.Outcome State Fault Refusal :=
  s.issue (.bunpack f) (fun s r =>
    let fm := tyFmt f.ty
    let base := match f.a with | .s n => n.toNat | _ => 0
    let n := match f.bsrc with | .imm n => n.toNat | _ => 0
    let k := f.planes
    let hi := f.m6 / 8
    let sc := sval (r.i.w.readS base).toNat 8
    let g (t : Nat) : Res :=
      let c := 2 * r.i.w.bpCodeAt base k t + 1
      if sc = -128 then ⟨0, 0⟩
      else fm.round (Rm.ofFpmode r.i.w.fpmode) (fzOf fm r.i.w.fpmode) false (c < 0) c.natAbs (sc + n - k)
    let s := r.putV (r.i.outst s r.e.att .free) f.dn (fun t =>
      BitVec.ofNat 32 (if f.ty == .f32 then (g t).bits else setFld (r.i.w.readV f.dn t).toNat (16 * hi) 16 (g t).bits))
    r.fpDone s ⟨(lanesOf r.act).map (fun t => (t, (g t).fl)), (lanesOf r.act).map (fun t => countOf fm fm [] (g t))⟩)

end Sys2Proof.Machine
end

