-- ==== Sys2Proof/Machine/Waits.lean ====
section
/-! DEFINITION. Waits that another sub-group, warp or group ends: joins (R13, R178), named barriers (R237), blocked
CLAIMs (R22), and what the exit of lanes does to them (R181). -/
namespace Sys2Proof.Machine

/-! ## Joins -/

def emptyJoin : Join := ⟨false, 0, 0, 0, []⟩
/-- Join register n. -/
def Warp.join (w : Warp) (n : Nat) : Join := tget emptyJoin w.joins n
def Warp.setJoin (w : Warp) (n : Nat) (j : Join) : Warp := { w with joins := tput emptyJoin w.joins n j }
/-- Every lane of the mask has arrived or exited (R178). -/
def Warp.joinFull (w : Warp) (n : Nat) : Bool :=
  (w.join n).valid && (w.join n).mask &&& ~~~((w.join n).arrived ||| ~~~w.live) == 0
/-- The first waiting sub-group becomes the arrived lanes; the others waiting there leave the list (R13). -/
def releaseJoin (n : Nat) (m : Mask) (pc : DWord) : List SubGroup → List SubGroup
  | [] => []
  | u :: r => if u.st = .join n then
      { u with lanes := m, pc := pc, mid := none, st := .ready } :: r.filter (fun x => x.st != .join n)
    else u :: releaseJoin n m pc r
/-- The sub-group from whose place R12 goes on where sub-group `a` has left the list: the nearest one listed before it that
is still there, wrapping. -/
def nearest (a : Nat) (old new : List SubGroup) : Option Nat :=
  (((old.takeWhile (fun u => u.id != a)).reverse ++ ((old.dropWhile (fun u => u.id != a)).drop 1).reverse).find?
    (fun u => new.any (fun x => x.id == u.id))).map (fun u => u.id)
/-- A release leaves the given list: an active sub-group that is still there stays active, and starts afresh if it is the one
released; else the next ready one after its place becomes active (R12, R172). -/
def Warp.relist (w : Warp) (n : Nat) (new : List SubGroup) : Warp :=
  match w.active with
  | none => { w with subs := new }
  | some a =>
    if new.any (fun u => u.id == a) then
      { w with subs := new, runs := if w.subs.any (fun u => u.id == a && u.st == .join n) then 0 else w.runs }
    else { w with subs := new, active := nearest a w.subs new, runs := 16 }
/-- The release of R178, when the condition holds. -/
def Warp.tryJoin (w : Warp) (n : Nat) : Warp :=
  if w.joinFull n then
    let j := w.join n
    (w.relist n (releaseJoin n j.arrived j.pc w.subs)).setJoin n emptyJoin
  else w
/-- Every join is tried after lanes exit (R13). -/
def Warp.tryJoins (w : Warp) : Warp := (List.range 16).foldl Warp.tryJoin w

/-! ## Named barriers -/

def emptyBar : NamedBar := ⟨0, none, false, []⟩
def Group.nbar (g : Group) (n : Nat) : NamedBar := tget emptyBar g.bars n
/-- Warps of a group that have not exited (R237). -/
def Group.liveWarps (g : Group) : List Warp := g.warps.filter (fun w => w.live != 0)
/-- A warp has arrived: each lane that has not exited has (R237). -/
def NamedBar.hasWarp (b : NamedBar) (w : Warp) : Bool :=
  w.live != 0 && w.live &&& ~~~(tget 0 b.arrived w.idx) == 0
/-- Expected count in force: a default one counts the warps that have not exited (R237). -/
def Group.expect (g : Group) (b : NamedBar) : Option Nat :=
  match b.expect with
  | none => none
  | some e => some (if b.explicit then e else min e g.liveWarps.length)
/-- A phase with its expected arrivals completes: the lanes of the arrived warps continue (R237). -/
def Group.tryBar (g : Group) (n : Nat) : Group :=
  let b := g.nbar n
  match g.expect b with
  | none => g
  | some e =>
    let l := (g.warps.filter b.hasWarp).map (fun w => w.idx)
    if l.length < e then g
    else
      { g with
        bars := tput emptyBar g.bars n { phase := b.phase + 1, expect := none, explicit := false,
                                         arrived := b.arrived.filter (fun x => !l.contains x.1) },
        warps := g.warps.map (fun w => if l.contains w.idx then
          { w with subs := w.subs.map (fun u => if u.st = .bar n then { u with st := .ready } else u) } else w) }
/-- Every barrier is tried after a warp exits (R237). -/
def Group.tryBars (g : Group) : Group := (g.bars.map (fun e => e.1)).foldl Group.tryBar g

/-- A sub-group blocked at the last word of its clause goes on after it (R120, R142). -/
def goOn (u : SubGroup) : SubGroup :=
  let n := loopTest u.loop (u.pc + 8)
  { u with pc := n.1, loop := n.2, mid := none, st := .ready }

/-! ## Claims -/

/-- A blocked CLAIM is met: the allotment grows by registers that read zero, and the sub-group goes on (R22, R291). -/
def Warp.grow (w : Warp) (n : Nat) : Warp := { w with av := w.av + n, vregs := tdelRange w.vregs (32 * w.av) (32 * n) }
/-- One CLAIM of the list is met. The limit of 256 vector registers, which R22 has checked when a CLAIM issues, is not checked
again here: DESIGN CHOICE, log 100. -/
def Group.grant (g : Group) (c : Nat × Nat × Nat) : Group :=
  { (g.updWarp c.1 (fun w => (w.grow c.2.2).updSub c.2.1 goOn)) with pool := g.pool - c.2.2 }
/-- Blocked CLAIMs are met in the order they blocked while the pool lasts (R22). -/
def grantAll : List (Nat × Nat × Nat) → Group → Group
  | [], g => { g with claims := [] }
  | c :: r, g => if c.2.2 ≤ g.pool then grantAll r (g.grant c) else { g with claims := c :: r }
def Group.tryClaims (g : Group) : Group := grantAll g.claims g

/-! ## Exit of lanes -/

/-- Lanes exit (R181): they leave every sub-group, their loop state ends, and joins count them as arrived. A handler
whose lanes have all exited ends (R312), and a warp that has exited leaves the RIE (R34). -/
def Warp.exitLanes (w : Warp) (m : Mask) : Warp :=
  let w := { w with live := w.live &&& ~~~m,
                    subs := (w.subs.map (fun (u : SubGroup) => { u with lanes := u.lanes &&& ~~~m })).filter (fun u => u.lanes != 0) }
  let w := if w.inh && w.subs.all (fun u => !u.handler) then w.leaveTrap else w
  let w := if w.live = 0 then { w with inRie := false, rieEnd := none } else w
  w.tryJoins
/-- The barriers of a group after lanes of a warp exit (R237). -/
def State.afterExit (s : State) (gid : Nat) : State := s.updGroup gid (fun g => g.tryBars)

end Sys2Proof.Machine
end

