-- ==== Sys2Proof/Machine/Control.lean ====
section
/-! DEFINITION. Control forms (R141 to R145, R172 to R184). -/
namespace Sys2Proof.Machine

/-- H + 8 · n for a signed word offset (R173). -/
def Iss.target (i : Iss) (off : BitVec 32) : DWord := i.c.head + (off.signExtend 64 <<< 3)
/-- Lanes of the issuing sub-group that are not active. -/
def Rdy.rest (r : Rdy) : Mask := r.i.u.lanes &&& ~~~r.act
/-- Lanes that take a transfer: it leaves loop levels under R143 where `leave` says so. -/
def Rdy.taken (r : Rdy) (m : Mask) (pc : DWord) (leave : Bool) : Part :=
  ⟨m, pc, none, if leave then r.i.u.loop.jump pc else r.i.u.loop, .ready⟩
/-- Lanes that fall through apply the loop test (R172). -/
def Rdy.falls (r : Rdy) : Part := r.i.fallPart r.rest

/-- The lowest lane whose address is no target: MISALIGN or APERTURE (R174). -/
def badTarget (l : List Nat) (f : Nat → DWord) : Option (Nat × Nat) :=
  l.findSome? (fun t => if dfld (f t) 0 3 != 0 then some (causeMisalign, (f t).toNat)
    else if dfld (f t) 56 8 != 0 then some (causeAperture, (f t).toNat) else none)
/-- Target range of BRA, CALL and JSET (R173). -/
def offGlobal (pc : DWord) : Bool := dfld pc 56 8 != 0

/-- BRA (R174). -/
def execBra (f : BraF) (s : State) : Host.Outcome State Fault Refusal :=
  s.issue (.bra f) (fun s r =>
    let pc := r.i.target f.off
    if r.act = 0 then r.done s
    else if offGlobal pc then r.fault s causeAperture pc.toNat
    else r.leaveAs s [r.taken r.act pc true, r.falls])
/-- JMP (R174). -/
def execJmp (f : Rk) (s : State) : Host.Outcome State Fault Refusal :=
  s.issue (.jmp f) (fun s r =>
    let l := lanesOf r.act
    match badTarget l r.a with
    | some (c, v) => r.fault s c v
    | none => if r.act = 0 then r.done s
      else r.leaveAs s (l.map (fun t => r.taken (maskOf (· == t)) (r.a t) true) ++ [r.falls]))

/-- A stack slot outside the private area: misaligned, or beyond its size (R175). -/
def State.badStack (s : State) (r : Rdy) (sp : Nat → Nat) : Option (Nat × Nat) :=
  let l := lanesOf r.act
  match l.find? (fun t => sp t % 8 != 0) with
  | some t => some (causeMisalign, sp t)
  | none => match l.find? (fun t => privSize (s.pktOf r.i.g) < sp t + 8) with
    | some t => some (causeStackOvf, sp t)
    | none => none
/-- Private place of a lane's stack slot. -/
def Rdy.slot (r : Rdy) (t off : Nat) : Place := .priv r.i.g.id r.i.w.idx t off

/-- CALL (R175). -/
def execCall (f : CallF) (s : State) : Host.Outcome State Fault Refusal :=
  s.issue (.call f) (fun s r =>
    let pc := r.i.target f.off
    let sp (t : Nat) : Nat := ((r.a t).setWidth 32 - 8 : Word).toNat
    if r.act = 0 then r.done s
    else if offGlobal pc then r.fault s causeAperture pc.toNat
    else match s.badStack r sp with
    | some (c, v) => r.fault s c v
    | none =>
      let s := (lanesOf r.act).foldl (fun (s : State) t => s.writePlace (r.i.agent false) (r.slot t (sp t)) (leBytes 8 r.i.succ.toNat)) s
      let s := r.putV s f.vs.toNat (fun t => BitVec.ofNat 32 (sp t))
      r.leaveAs s [r.taken r.act pc false, r.falls])
/-- RET (R175). -/
def execRet (f : Rk) (s : State) : Host.Outcome State Fault Refusal :=
  s.issue (.ret f) (fun s r =>
    let sp (t : Nat) : Nat := ((r.a t).setWidth 32 : Word).toNat
    let l := lanesOf r.act
    let get (t : Nat) : Got := (s.readPlace (r.i.agent false) (r.slot t (sp t)) 8 false).1
    let ra (t : Nat) : DWord := BitVec.ofNat 64 (leVal (get t).bytes)
    match s.badStack r sp with
    | some (c, v) => r.fault s c v
    | none => match l.find? (fun t => (get t).bad) with
    | some t => r.fault s causeEccUe (0xF1 * 2 ^ 56 + sp t)
    | none => match badTarget l ra with
    | some (c, v) => r.fault s c v
    | none => if r.act = 0 then r.done s
      else
        let parts := l.map (fun t => r.taken (maskOf (· == t)) (ra t) false) ++ [r.falls]
        let s := r.putV s (match f.a with | .v n => n.toNat | _ => 255) (fun t => (r.a t).setWidth 32 + 8)
        r.leaveAs s parts)

/-- JSET (R177). -/
def execJset (f : JsetF) (s : State) : Host.Outcome State Fault Refusal :=
  s.issue (.jset f) (fun s r =>
    let pc := r.i.target f.off
    if r.act = 0 then r.done s
    else if offGlobal pc then r.fault s causeAperture pc.toNat
    else r.done (r.i.upd s (fun w =>
      let n := f.n.toNat
      (w.setJoin n { w.join n with valid := true, mask := (r.a r.low).setWidth 32 &&& w.live, pc := pc }).tryJoin n)))
/-- JWAIT (R178). -/
def execJwait (f : Rk) (s : State) : Host.Outcome State Fault Refusal :=
  s.issue (.jwait f) (fun s r =>
    let n := match f.a with | .imm n => n.toNat | _ => 0
    let j := r.i.w.join n
    if r.act = 0 then r.done s
    else if !j.valid then r.fault s causeIllop n
    else
      let here := r.act &&& j.mask
      let s := r.leaveAs s [⟨here, j.pc, none, r.i.u.loop, .join n⟩, r.taken (r.act &&& ~~~j.mask) j.pc false, r.falls]
      s.updWarp r.i.g.id r.i.w.idx (fun w =>
        (w.setJoin n { w.join n with arrived := (w.join n).arrived ||| here }).tryJoin n))

/-- The checks of LOOP (R142, R179). -/
def loopBad (l : LoopState) (k : Nat) (st en : DWord) : Bool :=
  en.toNat ≤ st.toNat || 256 < (en.toNat - st.toNat) / 8
    || [0, 1, 2].any (fun j => k ≤ j && l.active.getLsbD j)
    || [0, 1, 2].any (fun j => j < k && l.active.getLsbD j && (l.stop.getD j 0).toNat < en.toNat)
/-- LOOP (R142, R179). -/
def execLoop (f : LoopF) (s : State) : Host.Outcome State Fault Refusal :=
  s.issue (.loop f) (fun s r =>
    let k := f.lvl.toNat
    let st := r.i.succ
    let en := r.i.c.head + BitVec.ofNat 64 (8 * f.stop.toNat)
    let l := r.i.u.loop
    let n : Word := (r.a r.low).setWidth 32
    let skip (m : Mask) : Part := ⟨m, en, none, l, .ready⟩
    if r.act != 0 && loopBad l k st en then r.fault s causeIllop k
    else if r.act = 0 || n = 0 then r.leaveAs s [skip r.i.u.lanes]
    else
      let l' : LoopState := { count := l.count.set k n, start := l.start.set k st, stop := l.stop.set k en,
                              active := l.active ||| (1#3 <<< k) }
      r.leaveAs s [⟨r.act, st, none, l', .ready⟩, skip r.rest])
/-- LBRK (R180). -/
def execLbrk (f : LbrkF) (s : State) : Host.Outcome State Fault Refusal :=
  s.issue (.lbrk f) (fun s r =>
    let k := f.lvl.toNat
    let l := r.i.u.loop
    if r.act = 0 then r.done s
    else if !l.active.getLsbD k then r.fault s causeIllop k
    else r.leaveAs s [⟨r.act, l.stop.getD k 0, none, l.leave k, .ready⟩, r.falls])

/-- NOP (R182). -/
def execNop (f : Rk) (s : State) : Host.Outcome State Fault Refusal := s.issue (.nop f) (fun s r => r.done s)
/-- The sub-group leaves its clause and the next ready one is to be active (R12). -/
def Rdy.yielded (r : Rdy) (s : State) : State :=
  let s := r.leaveAs s [r.i.fallPart r.i.u.lanes]
  s.updWarp r.i.g.id r.i.w.idx (fun w => { w with runs := 16 })
/-- YIELD (R182). -/
def execYield (f : Rk) (s : State) : Host.Outcome State Fault Refusal :=
  s.issue (.yield f) (fun s r =>
    let s := r.yielded s
    if r.act = 0 then s else s.setQuad r.i.q { s.quad r.i.q with skip := some (r.i.g.id, r.i.w.idx) })

/-- TRAP (R183). -/
def execTrap (f : Rk) (s : State) : Host.Outcome State Fault Refusal :=
  s.issue (.trap f) (fun s r =>
    let code : Word := match f.body with
      | .i n => n
      | _ => (r.a r.low).setWidth 32
    if r.act = 0 then r.done s
    else
      let s := (r.commit s).updWarp r.i.g.id r.i.w.idx (fun w => w.count 1 1)
      r.i.trapPast s causeSwTrap r.word r.act code.toNat)
/-- TRET (R184, R313). -/
def execTret (f : Rk) (s : State) : Host.Outcome State Fault Refusal :=
  s.issue (.tret f) (fun s r =>
    if !r.i.w.inh then r.fault s causeIllop 0
    else
      let s := r.leaveAs s [⟨r.i.u.lanes, r.i.w.tpc, r.i.w.resume, r.i.u.loop, .ready⟩]
      s.updWarp r.i.g.id r.i.w.idx (fun w => w.leaveTrap))

/-- EXIT (R181): joins, barriers and the handler see the lanes gone. -/
def execExit (f : Rk) (s : State) : Host.Outcome State Fault Refusal :=
  s.issue (.exit f) (fun s r =>
    if r.act = 0 then r.done s
    else
      let s := r.leaveAs s [r.falls]
      (s.updWarp r.i.g.id r.i.w.idx (fun w => { w.exitLanes r.act with runs := 16 })).afterExit r.i.g.id)

end Sys2Proof.Machine
end

