-- ==== Sys2Proof/Machine/MemOps.lean ====
section
/-! DEFINITION. Loads, stores, atomics, reductions, fences, cache operations and ACOPY (R215 to R235), with the ordering
they carry (R55 to R71). -/
namespace Sys2Proof.Machine

/-! ## Addresses (R215 to R219) -/

/-- The window of `.lim` (R219). -/
def Rdy.window (r : Rdy) (f : MemF) : Option (Nat × Nat) :=
  if f.mod.getLsbD 5 then some ((r.i.w.readSPair f.off6.toNat).toNat, (r.i.w.readSPair (f.off6.toNat + 2)).toNat) else none
/-- Effective address of a lane (R217). -/
def Rdy.ea (r : Rdy) (f : MemF) (size t : Nat) : Nat :=
  f.ea (r.a t) size
/-- The accesses of the given lanes. -/
def Rdy.memReqs (r : Rdy) (f : MemF) (size : Nat) (l : List Nat) : List Req := l.map (fun t => ⟨t, r.ea f size t, size⟩)
/-- Lanes of a list of accesses. -/
def readyLanes (l : List Ready) : Mask := maskOf (fun t => l.any (fun x => x.req.lane == t))
/-- The instruction goes on in the lanes whose access remains. -/
def Rdy.on (r : Rdy) (i : Iss) (l : List Ready) : Rdy := { r with i := i, act := readyLanes l }
/-- The value that the k-th access of a list read. -/
def gotOf (l : List Ready) (gs : List Got) (t : Nat) : Nat :=
  match (l.zip gs).find? (fun x => x.1.req.lane == t) with
  | some x => leVal x.2.bytes
  | none => 0

/-! ## Acquires and releases (R58, R64 to R66, R70, R394) -/

/-- An acquire discards the core's unregistered copies; in the RIE it completes at SPECULATIVE_REPLAY (R32). -/
def Iss.acquire (i : Iss) (s : State) : State :=
  if i.w.inRie then i.upd s (fun w => { w with acq := true }) else s.dropL1 i.g.core
/-- The accesses' acquires. -/
def Iss.acquireAll (i : Iss) (s : State) (l : List Ready) (coded : Bool) : State :=
  if l.any (fun r => r.acquires coded) then i.acquire s else s
/-- The accesses' releases merge the core's reduction entries of at most their scope. -/
def Iss.releaseAll (i : Iss) (s : State) (l : List Ready) (coded : Bool) (scope : Nat) : State :=
  if l.any (fun r => r.acquires coded) then s.mergeRelease i.g.core scope else s

/-- A physical range that the core's L1 holds, registered or not. -/
def State.l1Hit (s : State) (core pa n : Nat) : Bool :=
  (wordsOf pa n).all (fun k => thas s.l1 (l1Key core (4 * k)) || s.ownerOf k == some core)
/-- Counters 5 and 6: lane accesses that hit and miss the L1 (R305). -/
def Iss.countL1 (i : Iss) (s : State) (l : List Ready) : State :=
  let g := l.filter (fun r => !r.xs.isEmpty)
  let hit := (g.filter (fun r => r.parts.all (fun p => match p.1 with
    | .phys pa nc => !nc && s.l1Hit i.g.core pa p.2
    | _ => true))).length
  i.upd s (fun w => (w.count 5 hit).count 6 (g.length - hit))

/-! ## LD and LD s (R220, R221) -/

/-- The register value of a load: 8 and 16 bits extended by the width code (R220). -/
def loadExt (sz v : Nat) : Nat :=
  if sz = 1 then wrapN (sval v 8) 32 else if sz = 3 then wrapN (sval v 16) 32 else v
/-- Word k of a value. -/
def wordAt (v k : Nat) : Word := BitVec.ofNat 32 (v / 2 ^ (32 * k))
/-- Loads n bytes in each lane's access. Poison ends the instruction, if any lane read it (R225). -/
def Rdy.loadAll (r : Rdy) (s : State) (f : MemF) (l : List Ready) (k : State → (Nat → Nat) → State) : State :=
  let s1 := r.i.countL1 s l
  let x := l.foldl (fun (x : List Got × State) q =>
    let (g, s) := x.2.readReady (r.i.mmu x.2) (f.mod.toNat % 4 == 1) (q.acquires (f.ord == 1)) q
    (x.1 ++ [g], s)) ([], s1)
  match firstBad l x.1 with
  | some p => r.fault x.2 causeEccUe p
  | none => k (r.i.acquireAll x.2 l (f.ord == 1)) (gotOf l x.1)

/-- Every word of a list of physical ranges belongs to the core, so that no acquire discards it (R394). -/
def State.rangesOwned (s : State) (core : Nat) (l : List (Nat × Nat)) : Bool :=
  l.all (fun p => (wordsOf p.1 p.2).all (fun k => s.ownerOf k == some core))
/-- What the replay of a load needs that an acquire of the RIE has not waited for (R32). -/
def Rdy.specLoad (r : Rdy) (s : State) (f : MemF) (l : List Ready) : SpecLoad :=
  let n := szBytes f.sz.toNat
  { sub := r.i.u.id, loop := r.i.u.loop, d := f.d.toNat, size := n, signed := f.sz == 1 || f.sz == 3,
    trap := ⟨BitVec.ofNat 8 causeEccUe, r.i.u.pc, BitVec.ofNat 64 r.word, r.act, 0, r.i.resumeOf r.i.u.pc⟩,
    lanes := l.map (fun q =>
      let parts := q.parts.filterMap (fun p => match p.1 with
        | .phys pa _ => some (pa, p.2)
        | _ => none)
      ⟨q.req.lane, q.req.ptr, parts, s.rangesOwned r.i.g.core parts,
        (List.range (cdiv n 4)).map (fun k => r.i.w.readV (f.d.toNat + k) q.req.lane)⟩) }
/-- LD (R220). -/
def execLd (f : MemF) (s : State) : Host.Outcome State Fault Refusal :=
  s.issue (.ld f) (fun s r =>
    let sz := f.sz.toNat
    let n := szBytes sz
    if r.act = 0 then r.done s
    else match r.i.access s r.word f.att.toNat r.act ⟨wantLoad (some r.i.w.pkr), false, r.window f⟩ (r.memReqs f n (lanesOf r.act)) with
    | .stop s => s
    | .go s i l =>
      let r := r.on i l
      r.loadAll s f l (fun s v =>
        let s := if r.i.w.acq then r.i.upd s (fun w => { w with spec := w.spec ++ [r.specLoad s f l] }) else s
        let s := (List.range (cdiv n 4)).foldl (fun (s : State) k =>
          r.putV s (f.d.toNat + k) (fun t => wordAt (loadExt sz (v t)) k)) s
        r.done (r.i.outst s f.att.toNat .free)))

/-! ## The block forms (R223) -/

/-- The format rule of R223. -/
def bpFmt (leaf : Nat) : Bool := pteEf leaf == 7 && pteBg leaf < 2
/-- The checks of a BP form, as the lowest active lane's thread. -/
def Rdy.bpAccess (r : Rdy) (s : State) (f : MemF) (w : Want) : Acc :=
  let lane := r.low
  let base := (r.a lane).toNat
  let geom := ((r.b lane).setWidth 32 : Word).toNat
  let nb := geom / 2 ^ 16
  let blk := geom % 2 ^ 16
  let k := f.mod.toNat % 8 + 1
  if s.locate r.i.g r.i.w.idx lane base 1 == .bad then .stop (r.fault s causeAperture base)
  else if base % 16 != 0 then .stop (r.fault s causeMisalign base)
  else if nb = 0 || nb ≤ blk then .stop (r.fault s causeBounds geom)
  else r.i.access s r.word f.att.toNat r.act ⟨{ w with fmt := bpFmt }, true, none⟩ (bpReqs lane base nb blk k)

/-- LD s (R221), and its BP form (R223). -/
def execLdS (f : MemF) (s : State) : Host.Outcome State Fault Refusal :=
  s.issue (.ldS f) (fun s r =>
    let sz := f.sz.toNat
    let n := szBytes sz
    let d := f.d.toNat
    if r.act = 0 then r.done (if 64 ≤ d then r.putS s d 0 else s)
    else if sz = 7 then
      match r.bpAccess s f (wantLoad (some r.i.w.pkr)) with
      | .stop s => s
      | .go s i l =>
        let r := { r with i := i }
        let x := l.foldl (fun (x : List Got × State) q =>
          let (g, s) := x.2.readReady (i.mmu x.2) false (q.acquires (f.ord == 1)) q
          (x.1 ++ [g], s)) ([], i.countL1 s l)
        match firstBad l x.1 with
        | some p => r.fault x.2 causeEccUe p
        | none =>
          let s := i.acquireAll x.2 l (f.ord == 1)
          let s := i.upd s (fun w => x.1.zipIdx.foldl (fun (w : Warp) g =>
            w.writeS (d + g.2) (BitVec.ofNat 32 (if g.2 = 0 then wrapN (sval (leVal g.1.bytes) 8) 32 else leVal g.1.bytes))) w)
          r.done (i.outst s f.att.toNat .free)
    else match r.i.access s r.word f.att.toNat r.act ⟨wantLoad (some r.i.w.pkr), false, r.window f⟩ (r.memReqs f n [r.low]) with
    | .stop s => s
    | .go s i l =>
      let r := { r with i := i }
      r.loadAll s f l (fun s v =>
        let x := loadExt sz (v r.low)
        let s := if 64 ≤ d then r.putS s d (wordAt x 0)
          else i.upd s (fun w => (List.range (cdiv n 4)).foldl (fun (w : Warp) k => w.writeS (d + k) (wordAt x k)) w)
        r.done (i.outst s f.att.toNat .free)))

/-! ## ST (R222) -/

/-- Words of the data operand: four registers for `.b128`, else the operand's value (R217, R222). -/
def Rdy.stData (r : Rdy) (f : MemF) (t : Nat) : Nat :=
  if f.sz == 6 then
    (List.range 4).foldl (fun a k => a + (match f.b with
      | .v n => r.i.w.readV (n.toNat + k) t
      | .s n => r.i.w.readS (n.toNat + k)
      | _ => 0).toNat * 2 ^ (32 * k)) 0
  else (r.b t).toNat

/-- Stores a value in each lane's access, ascending, so the highest lane's bytes remain (R53). -/
def Rdy.storeAll (r : Rdy) (s : State) (nc : Bool) (l : List Ready) (v : Nat → Nat) : State :=
  l.foldl (fun (s : State) q => s.writeReady (r.i.mmu s) nc q (leBytes q.req.size (v q.req.lane))) s

/-- ST (R222), and its BP form (R223). -/
def execSt (f : MemF) (s : State) : Host.Outcome State Fault Refusal :=
  s.issue (.st f) (fun s r =>
    let n := szBytes f.sz.toNat
    let rel := f.ord == 2
    if r.act = 0 then r.done s
    else if f.sz == 7 then
      match r.bpAccess s f (wantStore (some r.i.w.pkr)) with
      | .stop s => s
      | .go s i l =>
        let s := i.releaseAll (i.countL1 s l) l rel f.scope.toNat
        let s := l.zipIdx.foldl (fun (s : State) q =>
          s.writeReady (i.mmu s) false q.1 (leBytes q.1.req.size (i.w.readS (f.off6.toNat + q.2)).toNat)) s
        { r with i := i }.done (i.outst s f.att.toNat .free)
    else match r.i.access s r.word f.att.toNat r.act ⟨wantStore (some r.i.w.pkr), false, r.window f⟩ (r.memReqs f n (lanesOf r.act)) with
    | .stop s => s
    | .go s i l =>
      let r := r.on i l
      let s := i.releaseAll (i.countL1 s l) l rel f.scope.toNat
      r.done (i.outst (r.storeAll s (f.mod.toNat % 4 == 1) l (r.stData f)) f.att.toNat .free))

/-! ## Atomics (R226 to R229) -/

/-- `.lk` (R227): the word goes from zero to nonzero, or back. -/
def lkStep (old new k : Nat) : Nat :=
  if old = 0 && new != 0 then min (k + 1) 65535 else if old != 0 && new = 0 then k - 1 else k
/-- The address of an access to the memory of a peer package. -/
def Ready.peer? (q : Ready) : Option Nat :=
  q.parts.findSome? (fun p => match p.1 with
    | .phys pa _ => if isPeer pa then some pa else none
    | _ => none)
/-- One lane's read-modify-write at the ordering point, of which it writes n bytes: the old value and the element results it
counts. One on peer memory is carried to the peer's home slice whole and performed there (R84, R400). -/
def State.rmw (s : State) (i : Iss) (q : Ready) (n : Nat) (op : PeerOp) (f : Nat → Option Nat × List Count) : Nat × Option Nat × State :=
  match q.peer? with
  | some pa =>
    let s := q.xs.foldl (fun (s : State) x => s.touch (i.mmu s) x false) s
    let s := (s.mergeAt pa q.req.size).send (.peer (paPkg pa) pa op)
    let old := s.peekN pa q.req.size
    let x := f old
    (match x.1 with
    | some v =>
      let s := q.xs.foldl (fun (s : State) x => s.touch (i.mmu s) x true) s
      (old, some v, (s.store pa (leBytes n v)).tally (s.rootOfGroup i.g) x.2)
    | none => (old, none, s))
  | none =>
    let s := q.parts.foldl (fun (s : State) p => match p.1 with
      | .phys pa nc => s.reachOwn (i.agent nc) pa p.2
      | _ => s) s
    let (g, s) := s.readReady (i.mmu s) false true q
    let old := leVal g.bytes
    let x := f old
    match x.1 with
    | some v => (old, some v, (s.writeReady (i.mmu s) false { q with parts := q.parts.map (fun p => (p.1, n)) } (leBytes n v)).tally
        (s.rootOfGroup i.g) x.2)
    | none => (old, none, s)
/-- Every lane in ascending order (R53): the old values, and the lock count. -/
def Iss.rmwAll (i : Iss) (s : State) (l : List Ready) (lk : Bool) (op : Nat → PeerOp) (f : Nat → Nat → Option Nat × List Count) :
    (Nat → Nat) × State :=
  let x := l.foldl (fun (x : List (Nat × Nat) × State) q =>
    let (old, new, s) := x.2.rmw i q q.req.size (op q.req.lane) (f q.req.lane)
    let s := match lk, new with
      | true, some v => i.upd s (fun w => { w with locks := lkStep old v w.locks })
      | _, _ => s
    (x.1 ++ [(q.req.lane, old)], s)) ([], s)
  (fun t => (x.1.lookup t).getD 0, x.2)
/-- The lowest lane whose bytes are poisoned, before any lane is performed (R218 order 8), with the errors that the reads
counted (R401). -/
def Iss.poisoned (i : Iss) (s : State) (l : List Ready) : Option (Nat × State) :=
  let x := s.readAll (i.mmu s) false true l
  (firstBad l x.1).map (fun p => (p, x.2))

/-- ATOM (R226, R227). -/
def execAtom (f : MemF) (s : State) : Host.Outcome State Fault Refusal :=
  s.issue (.atom f) (fun s r =>
    let ty := f.sz.toNat
    let n := atomBytes ty
    if r.act = 0 then r.done s
    else match r.i.access s r.word f.att.toNat r.act ⟨wantAtomic (some r.i.w.pkr), true, r.window f⟩ (r.memReqs f n (lanesOf r.act)) with
    | .stop s => s
    | .go s i l =>
      let r := r.on i l
      match i.poisoned s l with
      | some (p, s) => r.fault s causeEccUe p
      | none =>
        let s := i.releaseAll (i.countL1 s l) l (f.ord == 2 || f.ord == 3) f.scope.toNat
        let (old, s) := i.rmwAll s l (f.mod.getLsbD 4) (fun t => .atom (f.mod.setWidth 4) f.sz (r.b t)) (fun t a =>
          let x := atomOp (f.mod.toNat % 16) ty a (r.b t).toNat
          (some x.1, x.2))
        let s := i.acquireAll s l (f.ord == 1 || f.ord == 3)
        let s := if n = 8 then r.putVPair s f.d.toNat (fun t => BitVec.ofNat 64 (old t))
          else r.putV s f.d.toNat (fun t => BitVec.ofNat 32 (old t))
        r.done (i.outst s f.att.toNat .free))

/-- CAS64 (R229): a lane whose comparison fails only reads. -/
def execCas64 (f : CasF) (s : State) : Host.Outcome State Fault Refusal :=
  s.issue (.cas64 f) (fun s r =>
    if r.act = 0 then r.done s
    else match r.i.access s r.word f.att.toNat r.act ⟨wantAtomic (some r.i.w.pkr), true, none⟩
        ((lanesOf r.act).map (fun t => ⟨t, (r.a t).toNat, 8⟩)) with
    | .stop s => s
    | .go s i l =>
      let r := r.on i l
      match i.poisoned s l with
      | some (p, s) => r.fault s causeEccUe p
      | none =>
        let s := i.releaseAll (i.countL1 s l) l (f.ord == 2 || f.ord == 3) f.scope.toNat
        let (old, s) := i.rmwAll s l f.lk (fun t => .cas (r.b t) (r.c t)) (fun t a => if a = (r.b t).toNat then (some (r.c t).toNat, []) else (none, []))
        let s := i.acquireAll s l (f.ord == 1 || f.ord == 3)
        let s := r.putVPair s f.d.toNat (fun t => BitVec.ofNat 64 (old t))
        r.done (i.outst s f.att.toNat .free))

/-! ## RED (R228, R69 to R71) -/

/-- Capacity of a core's reduction buffer (R69). -/
def redCap : Nat := 256
/-- One contribution enters the core's reduction buffer (R69, R71). -/
def State.redEnter (s : State) (core gid root pa op ty scope v : Nat) : State :=
  let n := atomBytes ty
  let same (e : RedEntry) : Bool := e.core == core && e.pa == pa && e.op == op && e.ty == ty
  let s := s.mergeWhere (fun e => e.core == core && e.pa < pa + n && pa < e.pa + atomBytes e.ty && !same e)
  let s := s.dropL1At core pa n
  match s.redbuf.find? same with
  | some e =>
    let x := atomOp op ty e.val.toNat v
    let e' : RedEntry :=
      { e with val := BitVec.ofNat 64 x.1, scope := max e.scope scope,
               gids := if e.gids.contains gid then e.gids else e.gids ++ [gid] }
    ({ s with redbuf := s.redbuf.map (fun (y : RedEntry) => if same y then e' else y) }).tally root x.2
  | none =>
    let mine := s.redbuf.filter (fun (e : RedEntry) => e.core == core)
    let s := if mine.length < redCap then s else (match mine with | e :: _ => s.mergeEntry e | [] => s)
    { s with redbuf := s.redbuf ++ [⟨core, pa, op, ty, BitVec.ofNat 64 v, scope, [gid], root⟩] }
/-- A RED that may be buffered: a plain one of a buffered operation to a global page that is not strongly ordered. -/
def redBuffered (f : MemF) (q : Ready) : Bool :=
  f.ord == 0 && f.mod.toNat % 16 < 6 && !q.xs.isEmpty && !q.strong

/-- RED (R228). -/
def execRed (f : MemF) (s : State) : Host.Outcome State Fault Refusal :=
  s.issue (.red f) (fun s r =>
    let ty := f.sz.toNat
    let n := atomBytes ty
    let op := f.mod.toNat % 16
    if r.act = 0 then r.done s
    else match r.i.access s r.word f.att.toNat r.act ⟨wantAtomic (some r.i.w.pkr), true, r.window f⟩ (r.memReqs f n (lanesOf r.act)) with
    | .stop s => s
    | .go s i l =>
      let r := r.on i l
      match i.poisoned s (l.filter (fun q => !redBuffered f q)) with
      | some (p, s) => r.fault s causeEccUe p
      | none =>
        let s := i.releaseAll (i.countL1 s l) l (f.ord == 2) f.scope.toNat
        let s := l.foldl (fun (s : State) q =>
          let v := (r.b q.req.lane).toNat % 2 ^ (8 * n)
          match redBuffered f q, q.parts, q.xs with
          | true, [(.phys pa _, _)], [x] =>
            (s.touch (i.mmu s) x true).redEnter i.g.core i.g.id (s.rootOfGroup i.g) pa op ty f.scope.toNat v
          | _, _, _ => (s.rmw i q n (.red (BitVec.ofNat 4 op) f.sz (r.b q.req.lane)) (fun a => let y := atomOp op ty a v; (some y.1, y.2))).2.2) s
        r.done (i.outst s f.att.toNat .free))

/-! ## FENCE, PREF and CCTL (R230 to R232) -/

/-- FENCE (R230, R58, R59). -/
def execFence (f : FenceF) (s : State) : Host.Outcome State Fault Refusal :=
  s.issue (.fence f) (fun s r =>
    if r.act = 0 then r.done s
    else
      let s := if f.kind == 1 then s else s.mergeRelease r.i.g.core f.scope.toNat
      r.done (if f.kind == 2 then s else r.i.acquire s))

/-- Lines of the active lanes that translate and may be read (R231), and whether they may be copied (R377): a lane that would
fault is dropped. A page whose flip stalls the lanes' walks or lines comes with them (R83, R345). -/
def Rdy.lines (r : Rdy) (s : State) : List (Nat × Bool) × Option Nat × State :=
  (lanesOf r.act).foldl (fun (x : List (Nat × Bool) × Option Nat × State) t =>
    let va := (r.a t).toNat
    if va / 2 ^ 56 != 0 then x
    else match x.2.2.resolve (r.i.mmu x.2.2) (wantLoad (some r.i.w.pkr)) va with
      | (.ok y, s) => (x.1 ++ [(y.pa / 128 * 128, pteNc y.leaf)], x.2.1 <|> s.flipAt y.pa, s)
      | (.stall page, s) => (x.1, x.2.1 <|> some page, s)
      | (_, s) => (x.1, x.2.1, s)) ([], none, s)

/-- PREF (R231): the lines come to L2, and under `.l1` to the L1. No copy is kept of peer memory (R400) or through an NC leaf
(R377). -/
def execPref (f : LineF) (s : State) : Host.Outcome State Fault Refusal :=
  s.issue (.pref f) (fun s r =>
    let (l, stall, s') := r.lines s
    match stall with
    | some page => r.i.awaitFlip s page
    | none =>
      let a := r.i.agent false
      let s := (l.filter (fun x => !x.2 && !isPeer x.1)).foldl (fun (s : State) x =>
        if f.l1 then (s.readPlain a x.1 128).2 else s.reachRead a x.1 128) s'
      r.done (r.i.outst s f.att.toNat .free))
/-- CCTL `.ivl1` (R232). -/
def execCctlIvl1 (f : LineF) (s : State) : Host.Outcome State Fault Refusal :=
  s.issue (.cctlIvl1 f) (fun s r =>
    r.done (r.i.outst (if r.act = 0 then s else s.dropL1 r.i.g.core) f.att.toNat .free))
/-- CCTL `.ivline` (R232). -/
def execCctlIvline (f : LineF) (s : State) : Host.Outcome State Fault Refusal :=
  s.issue (.cctlIvline f) (fun s r =>
    let (l, stall, s') := r.lines s
    match stall with
    | some page => r.i.awaitFlip s page
    | none =>
      let s := l.foldl (fun (s : State) x => s.dropL1At r.i.g.core x.1 128) s'
      r.done (r.i.outst s f.att.toNat .free))
/-- CCTL `.ivconst` (R232, R140). -/
def execCctlIvconst (f : LineF) (s : State) : Host.Outcome State Fault Refusal :=
  s.issue (.cctlIvconst f) (fun s r =>
    let s := if r.act = 0 then s else { s with ccache := tdelRange s.ccache (r.i.g.core * 2 ^ 62) (2 ^ 62) }
    r.done (r.i.outst s f.att.toNat .free))
/-- CCTL `.evl2` (R232): time only, so the lines' copies leave the core's die and nothing else changes. -/
def execCctlEvl2 (f : LineF) (s : State) : Host.Outcome State Fault Refusal :=
  s.issue (.cctlEvl2 f) (fun s r =>
    let (l, stall, s') := r.lines s
    match stall with
    | some page => r.i.awaitFlip s page
    | none =>
      let s := l.foldl (fun (s : State) x => s.evictLine (dieOf r.i.g.core) (x.1 / 128)) s'
      r.done (r.i.outst s f.att.toNat .free))

/-! ## ACOPY (R233 to R235) -/

/-- Card of an ACOPY job: source, destination and length. -/
def copyCard (src dst len : Nat) : BitVec 2048 := BitVec.ofNat 2048 (src + dst * 2 ^ 64 + len * 2 ^ 128)
/-- A job is issued (R74, R235, R293): it enters the core's port, and its token register waits for it. -/
def Rdy.issueJob (r : Rdy) (s : State) (engine d att : Nat) (card : BitVec 2048) (acopy malformed : Bool) : State :=
  let id := s.nextId
  let j : Job :=
    { id := id, gid := r.i.g.id, warp := r.i.w.idx, lane := r.low, tok := d, engine := engine, card := card,
      acopy := acopy, malformed := malformed, pkr := r.i.w.pkr, ctx := s.ctxOf r.i.g, die := dieOf r.i.g.core, st := .queued,
      seq := 0, eng := 0, recs := [], lock := false, unit := 0, pois := false, tagHit := false, status := 0, corrupt := 0,
      tainted := 0, fstat := [], width := 0, height := 0, off := 0, since := s.timer, skipped := 0, ranks := [] }
  let s := ({ s with jobs := s.jobs ++ [j] }).fresh
  let s := r.i.upd s (fun w => { w with tokens := tins w.tokens d ⟨id, false⟩ })
  r.i.outst s att (.job id)
/-- An address of a copy in an aperture that admits it, and within its extent (R233). -/
def State.copyOk (s : State) (r : Rdy) (p n : Nat) : Bool :=
  match s.locate r.i.g r.i.w.idx r.low p n with
  | .bad => false
  | .place (.priv _ _ _ _) => false
  | _ => true

/-- ACOPY (R233). -/
def execAcopy (f : CopyF) (s : State) : Host.Outcome State Fault Refusal :=
  s.issue (.acopy f) (fun s r =>
    let dst := (r.a r.low).toNat
    let src := (r.b r.low).toNat
    let len := ((r.c r.low).setWidth 32 : Word).toNat
    if r.act = 0 then r.done s
    else match [dst, src].find? (fun p => !s.copyOk r p len) with
    | some p => r.fault s causeAperture p
    | none => match [dst, src].find? (fun p => p % 16 != 0) with
    | some p => r.fault s causeMisalign p
    | none =>
      if len % 16 != 0 || len < 16 || 2 ^ 20 < len then r.fault s causeBounds len
      else r.done (r.issueJob s 0 f.d.toNat f.att.toNat (copyCard src dst len) true false))

end Sys2Proof.Machine
end

