-- ==== Sys2Proof/Machine/Sync.lean ====
section
/-! DEFINITION. Barriers, barrier objects, futures, watchpoints, the dispenser and queue registers (R236 to R254). -/
namespace Sys2Proof.Machine

/-! ## Named barriers (R236, R237) -/

/-- The sub-group's active lanes block at a wait that another agent ends; the others go on (R12, R237). -/
def Rdy.block (r : Rdy) (s : State) (p : Part) : State := r.leaveAs s [p, r.i.fallPart (r.i.u.lanes &&& ~~~r.act)]
/-- Active lanes of a warp arrive at barrier n of its group, and the phase takes its expected count (R237). -/
def Group.arrive (g : Group) (n w : Nat) (m : Mask) (count : Option Nat) : Group :=
  let b := g.nbar n
  let e := match b.expect, count with
    | some e, _ => (some e, b.explicit)
    | none, some c => (some c, true)
    | none, none => (some g.liveWarps.length, false)
  { g with bars := tput emptyBar g.bars n { b with expect := e.1, explicit := e.2,
                                                   arrived := tins b.arrived w (tget 0 b.arrived w ||| m) } }

/-- BAR (R236, R237). -/
def execBar (f : BarF) (s : State) : Host.Outcome State Fault Refusal :=
  s.issue (.bar f) (fun s r =>
    let n := f.no.toNat
    let c := ((r.a r.low).setWidth 32 : Word).toNat
    if r.act = 0 then r.done s
    else if f.cnt && (c = 0 || r.i.g.warps.length < c) then r.fault s causeIllop c
    else if f.cnt && (match r.i.g.expect (r.i.g.nbar n) with | some e => e != c | none => false) then r.fault s causeIllop c
    else
      let s := s.mergeRelease r.i.g.core 2
      let s := r.block s { r.i.fallPart r.act with st := .bar n }
      s.updGroup r.i.g.id (fun g => (g.arrive n r.i.w.idx r.act (if f.cnt then some c else none)).tryBar n))

/-! ## Grid barriers (R238, R239) -/

/-- Every lane of the group that has not exited waits at the grid barrier after n completed ones (R238). -/
def Group.atGridBar (n : Nat) (g : Group) : Bool :=
  g.warps.all (fun w => w.live == 0 || (w.live &&& ~~~(w.subs.foldl (fun m u => if u.st = .gridBar n then m ||| u.lanes else m) 0)) == 0)
/-- Some lane of the group waits at that barrier. -/
def Group.waitsGrid (n : Nat) (g : Group) : Bool := g.warps.any (fun w => w.subs.any (fun u => u.st == .gridBar n))
/-- Groups of a grid that run on this package. -/
def State.runsOf (s : State) (grid : Nat) : List Group := s.groups.filter (fun g => g.grid == grid && !g.ended)
/-- Every group of the grid on this package has arrived at its next barrier, no earlier release runs, and a lane waits. -/
def State.gridArrived (s : State) (grid : Nat) : Bool :=
  match s.grid? grid with
  | some d => d.gbNext.isNone && (s.runsOf grid).all (Group.atGridBar d.gbDone) && (s.runsOf grid).any (Group.waitsGrid d.gbDone)
  | none => false
/-- The share of a grid on this package is saved: its barriers complete no more until it resumes (R391). -/
def State.shareSaved (s : State) (d : Grid) : Bool :=
  match (s.ctx d.ctx).image with
  | some im => im.groups.any (fun g => g.grid == d.id)
  | none => false
/-- Packages that take part in a launch, as a bit set (R353). -/
def State.pkgSet (s : State) (p : BitVec 1024) : Nat := if pfld p 256 64 = 0 then 2 ^ s.pkg else pfld p 256 64
/-- Package numbers of a set. -/
def setBits (n m : Nat) : List Nat := (List.range n).filter (fun i => m / 2 ^ i % 2 == 1)

/-- Packages of a launch besides this one. -/
def State.others (s : State) (p : BitVec 1024) : List Nat := (setBits 64 (s.pkgSet p)).filter (fun k => k != s.pkg)
/-- BAR `.grid` (R238). While a release runs, an arrival counts at the barrier after it. -/
def execBarGrid (f : BarF) (s : State) : Host.Outcome State Fault Refusal :=
  s.issue (.barGrid f) (fun s r =>
    let p := s.pktOf r.i.g
    if r.act = 0 then r.done s
    else if pfld p 573 1 = 0 then r.fault s causeIllop 0
    else
      let s := s.mergeRelease r.i.g.core (if (s.others p).isEmpty then 5 else 6)
      let n := match s.grid? r.i.g.grid with
        | some d => d.gbDone + (if d.gbNext.isSome then 1 else 0)
        | none => 0
      r.block s { r.i.fallPart r.act with st := .gridBar n })

/-- Lanes of a warp that wait at the grid barrier go on. -/
def Warp.passGrid (n : Nat) (w : Warp) : Warp :=
  { w with subs := w.subs.map (fun (u : SubGroup) => if u.st = .gridBar n then { u with st := .ready } else u) }
/-- Clusters whose groups of a grid are still to be released, ascending from G mod 96 (R239). -/
def State.gridHeld (s : State) (d : Grid) : List Nat :=
  ((List.range 96).map (fun k => (d.gen.toNat + d.gbDone + k) % 96)).filter (fun c =>
    (s.runsOf d.id).any (fun g => clusterOf g.core == c && g.waitsGrid d.gbDone))
/-- A window of the slew limiter (R239): the next eight clusters that hold groups of the grid are released, which acquires. -/
def State.gridWindow (s : State) (d : Grid) (x : Nat × Nat) : State :=
  let now := (s.gridHeld d).take 8
  let go (g : Group) : Bool := g.grid == d.id && !g.ended && now.contains (clusterOf g.core)
  let s' := { s with groups := s.groups.map (fun (g : Group) =>
    if go g then { g with warps := g.warps.map (Warp.passGrid d.gbDone) } else g) }
  let s' := (s.groups.filter go).foldl (fun (s : State) g => s.dropL1 g.core) s'
  s'.updGrid d.id (fun d =>
    if (s.gridHeld d).length ≤ 8 then { d with gbNext := none, gbDone := d.gbDone + 1, gbSent := false }
    else { d with gbNext := some (x.1, x.2 + 1) })
/-- A release of the grid barrier can go on: every group has arrived and no share is saved, or the next window opens, window k
64k cluster cycles after the first (R238, R239, R391). -/
def State.gridOpens (s : State) (d : Grid) : Bool :=
  !s.shareSaved d && (match d.gbNext with
    | none => s.gridArrived d.id
    | some x => x.1 + cyclesToNs (64 * x.2) ≤ s.timer)
/-- GRID_BARRIER_RELEASE (R238, R239). When this package's groups have all arrived it tells the other packages of the grid.
The barrier completes when every package has arrived: on several packages the agenda says so, by this event again. -/
def execGridBarrierRelease (grid : Nat) (s : State) : Host.Outcome State Fault Refusal :=
  match s.grid? grid with
  | none => .next s
  | some d =>
    if !s.gridOpens d then .next s
    else if d.gbNext.isNone && !d.gbSent && !(s.others d.pkt).isEmpty then
      .next ((s.others d.pkt).foldl (fun (s : State) k => s.send (.gridArrive k d.ctx d.gen))
        (s.updGrid grid (fun d => { d with gbSent := true })))
    else .next (s.gridWindow d (d.gbNext.getD (s.timer, 0)))

/-! ## Barrier objects (R240 to R242) -/

/-- Fields of an object's 16 bytes. -/
structure BarObj where
  expect : Nat
  pending : Nat
  phase : Nat
deriving DecidableEq, Repr
def barObjOf (b : List Byte) : BarObj :=
  let v := leVal b
  ⟨fld v 0 16, fld v 32 16, fld v 64 32⟩
def barObjBytes (o : BarObj) : List Byte := leBytes 16 (o.expect % 2 ^ 16 + o.pending % 2 ^ 16 * 2 ^ 32 + o.phase % 2 ^ 32 * 2 ^ 64)
/-- n arrivals as one operation (R241). -/
def BarObj.hit (o : BarObj) (n : Nat) : BarObj :=
  if n < o.pending then { o with pending := o.pending - n }
  else
    let k := n - o.pending
    { o with phase := (o.phase + 1 + k / o.expect) % 2 ^ 32, pending := o.expect - k % o.expect }
/-- The condition of SYNCHOLD (R241). -/
def holdMet (phase : Nat) (p : Word) : Bool :=
  let d := (phase + 2 ^ 32 - p.toNat) % 2 ^ 32
  1 ≤ d && d < 2 ^ 31

/-- The object at an offset of a group's scratchpad. -/
def State.barObj (s : State) (gid off : Nat) : BarObj :=
  match s.group? gid with
  | some g => barObjOf (getBytes g.scratch off 16)
  | none => ⟨0, 0, 0⟩
/-- The words of an object are tagged. -/
def State.isObj (s : State) (gid off : Nat) : Bool :=
  match s.group? gid with
  | some g => thas g.tags (off / 16)
  | none => false
/-- Sub-groups held at an object whose condition holds go on, with an acquire (R242). -/
def State.wakeHolds (s : State) (gid off : Nat) : State :=
  let phase := (s.barObj gid off).phase
  let ok (u : SubGroup) : Bool := match u.st with
    | .syncHold g o p _ _ => g == gid && o == off && holdMet phase p
    | _ => false
  let s := s.groups.foldl (fun (s : State) g =>
    if g.warps.any (fun w => w.subs.any ok) then s.dropL1 g.core else s) s
  { s with groups := s.groups.map (fun (g : Group) => { g with warps := g.warps.map (fun (w : Warp) =>
      { w with subs := w.subs.map (fun u => if ok u then goOn u else u) }) }) }
/-- Phases that n arrivals complete, and the arrivals that count in the phase they leave (R241). -/
def BarObj.phases (o : BarObj) (n : Nat) : Nat × Nat :=
  if n < o.pending then (0, n) else (1 + (n - o.pending) / o.expect, (n - o.pending) % o.expect)
/-- Warps that arrived in the previous and in the current phase, after arrivals by `who` that complete k phases and leave
`rest` in the new one: of several, each but the first holds only these arrivals (R241, R242). -/
def hitBy (h : List (Nat × Nat) × List (Nat × Nat)) (who : List (Nat × Nat)) (k rest : Nat) : List (Nat × Nat) × List (Nat × Nat) :=
  let cur := h.2 ++ who.filter (fun w => !h.2.contains w)
  if k = 0 then (h.1, cur) else (if k = 1 then cur else who, if rest = 0 then [] else who)
/-- n arrivals at a tagged object; an engine's arrival names no warp (R75, R241, R242). -/
def State.hitObj (s : State) (gid off n : Nat) (who : Option (Nat × Nat)) : State :=
  let o := s.barObj gid off
  let o' := o.hit n
  let s := s.writePlace ⟨none, 0, true⟩ (.scr gid off) (barObjBytes o')
  let k := o.phases n
  let s := s.updGroup gid (fun g => { g with hits := tput ([], []) g.hits (off / 16) (hitBy (tget ([], []) g.hits (off / 16)) who.toList k.1 k.2) })
  s.wakeHolds gid off

/-- Where an object's pointer lies: a scratchpad of the group or of its team (R240). -/
def State.objPlace (s : State) (i : Iss) (ptr : Nat) : Option (Nat × Nat) :=
  if ptr / 2 ^ 56 = 0xF0 || ptr / 2 ^ 56 = 0xF3 then
    (match s.locate i.g i.w.idx 0 ptr 16 with
      | .place (.scr gid off) => some (gid, off)
      | _ => none)
  else none
/-- The address checks of the barrier-object forms, then the effect (R218 orders 1 and 2, R240). -/
def Rdy.onObj (r : Rdy) (s : State) (k : Nat → Nat → Nat → State) : State :=
  let ptr := (r.a r.low).toNat
  match s.objPlace r.i ptr with
  | none => r.fault s causeAperture ptr
  | some (gid, off) => if ptr % 16 != 0 then r.fault s causeMisalign ptr else k gid off ptr
/-- `tval` of R241: bits [55:0] of the pointer. -/
def objVal (ptr : Nat) : Nat := ptr % 2 ^ 56

/-- SYNCSET (R241). A tagged word is found before a count out of range: DESIGN CHOICE, log 107. -/
def execSyncset (f : SyncF) (s : State) : Host.Outcome State Fault Refusal :=
  s.issue (.syncset f) (fun s r =>
    let e := ((r.b r.low).setWidth 32 : Word).toNat
    if r.act = 0 then r.done s
    else r.onObj s (fun gid off ptr =>
      if s.isObj gid off then r.fault s causeBarOvr ptr
      else if e = 0 || 65535 < e then r.fault s causeIllop e
      else
        let s := s.writePlace (r.i.agent false) (.scr gid off) (barObjBytes ⟨e, e, 0⟩)
        let s := s.updGroup gid (fun g => { g with tags := tins g.tags (off / 16) (), hits := tdel g.hits (off / 16) })
        r.done (r.i.outst s f.att.toNat .free)))
/-- SYNCHIT (R241, R242). An untagged word is found before a count of 0: DESIGN CHOICE, log 107. -/
def execSynchit (f : SyncF) (s : State) : Host.Outcome State Fault Refusal :=
  s.issue (.synchit f) (fun s r =>
    let n := ((r.b r.low).setWidth 32 : Word).toNat
    let d := f.d.toNat
    if r.act = 0 then r.done (if 64 ≤ d then r.putS s d 0 else s)
    else r.onObj s (fun gid off ptr =>
      if !s.isObj gid off then r.fault s causeIllop (objVal ptr)
      else if n = 0 then r.fault s causeIllop 0
      else
        let s := s.mergeRelease r.i.g.core f.scope.toNat
        let old := (s.barObj gid off).phase
        let s := s.hitObj gid off n (some (r.i.g.id, r.i.w.idx))
        r.done (r.i.outst (r.putS s d (BitVec.ofNat 32 old)) f.att.toNat .free)))
/-- SYNCHOLD (R241, R242). -/
def execSynchold (f : SyncF) (s : State) : Host.Outcome State Fault Refusal :=
  s.issue (.synchold f) (fun s r =>
    let p : Word := (r.b r.low).setWidth 32
    if r.act = 0 then r.done s
    else r.onObj s (fun gid off ptr =>
      if !s.isObj gid off then r.fault s causeIllop (objVal ptr)
      else if holdMet (s.barObj gid off).phase p then r.done (s.dropL1 r.i.g.core)
      else r.block s ⟨r.act, r.i.u.pc, some r.i.c.head, r.i.u.loop, .syncHold gid off p r.word (objVal ptr)⟩))
/-- A sub-group held at an object that SYNCDROP untags: its ILLOP is pending (R242, R434). -/
def dropHeld (gid off : Nat) (u : SubGroup) : SubGroup :=
  match u.st with
  | .syncHold g o _ word v => if g = gid && o = off then
      { u with st := .ready, pend := some ⟨BitVec.ofNat 8 causeIllop, u.pc, BitVec.ofNat 64 word, u.lanes, BitVec.ofNat 64 v, u.mid⟩ }
    else u
  | _ => u
/-- SYNCDROP (R241, R242). -/
def execSyncdrop (f : SyncF) (s : State) : Host.Outcome State Fault Refusal :=
  s.issue (.syncdrop f) (fun s r =>
    if r.act = 0 then r.done s
    else r.onObj s (fun gid off ptr =>
      if !s.isObj gid off then r.fault s causeIllop (objVal ptr)
      else
        let s := s.updGroup gid (fun g => { g with tags := tdel g.tags (off / 16), hits := tdel g.hits (off / 16) })
        let s := { s with groups := s.groups.map (fun (g : Group) => { g with warps := g.warps.map (fun (w : Warp) =>
            { w with subs := w.subs.map (dropHeld gid off) }) }) }
        r.done (r.i.outst s f.att.toNat .free)))

/-! ## Futures (R243 to R245) -/

/-- Entries of a home slice's wait table (R245). -/
def waitCap : Nat := 4096
/-- FULL is set in the future at a physical address. -/
def State.full (s : State) (pa : Nat) : Bool := fld (s.peekN pa 8) 63 1 == 1
/-- A future of a wait lies on a page that is being flipped, which stalls its reads (R83). -/
def State.futStalls (s : State) (l : List (Nat × Nat × Nat)) : Bool := l.any (fun x => (s.flipAt x.2.1).isSome)
/-- The reads of a wait's futures end it: all are full, or one is poisoned (R245, R225). -/
def State.futMet (s : State) (l : List (Nat × Nat × Nat)) : Bool :=
  l.any (fun x => poisonedIn s.memPoison x.2.1 8) || l.all (fun x => s.full x.2.1)
/-- The wait ends when every future of the sub-group is full: each lane takes its VALUE, by an acquire (R245). A word
found poisoned sends the sub-group back to its FWAIT, which raises it (R225). -/
def State.tryFuture (s : State) (gid w sub : Nat) : State :=
  match s.sub? gid w sub, s.group? gid with
  | some u, some g => match u.st with
    | .fwait d l _ _ =>
      let free (s : State) : State := { s with waits := s.waits.filter (fun (x : FutureWait) => !(x.gid == gid && x.warp == w && x.sub == sub)) }
      if s.futStalls l then s
      else if l.any (fun x => poisonedIn s.memPoison x.2.1 8) then free (s.updSub gid w sub (fun u => { u with st := .ready }))
      else if l.all (fun x => s.full x.2.1) then
        let s' := (free s).updWarp gid w (fun x => l.foldl (fun (x : Warp) y => x.writeV d y.1 (BitVec.ofNat 32 (s.peekN y.2.1 4))) x)
        (s'.updSub gid w sub goOn).dropL1 g.core
      else s
    | _ => s
  | _, _ => s
/-- A put wakes the waits of its word (R245). -/
def State.futWake (s : State) (pa : Nat) : State :=
  (s.waits.filter (fun x => x.pa == pa)).foldl (fun (s : State) x => s.tryFuture x.gid x.warp x.sub) s

/-- A non-global address of a future, a dispenser or a watch record (R243, R246, R250). -/
def offGlob (l : List Req) : Option Nat := (l.find? (fun r => r.ptr / 2 ^ 56 != 0)).map (fun r => r.ptr)

/-- FPUT (R244). Of a vector source the lowest active lane's value is stored: DESIGN CHOICE, log 108. -/
def execFput (f : SyncF) (s : State) : Host.Outcome State Fault Refusal :=
  s.issue (.fput f) (fun s r =>
    let req : List Req := [⟨r.low, (r.a r.low).toNat, 8⟩]
    let v := ((r.b r.low).setWidth 32 : Word).toNat
    if r.act = 0 then r.done s
    else match offGlob req with
    | some p => r.fault s causeAperture p
    | none => match r.i.access s r.word f.att.toNat r.act ⟨wantStore (some r.i.w.pkr), true, none⟩ req with
    | .stop s => s
    | .go s i l =>
      let r := { r with i := i }
      let s := i.releaseAll s l true f.scope.toNat
      let s := r.storeAll s false l (fun _ => v + 2 ^ 63)
      let s := l.foldl (fun (s : State) q => q.xs.foldl (fun (s : State) x => s.futWake x.pa) s) s
      r.done (i.outst s f.att.toNat .free))

/-- The wait tables of the home slices have room for waits at the addresses; a peer's word has no entry here (R245). -/
def State.waitRoom (s : State) (pas : List Nat) : Bool :=
  pas.all (fun pa => isOwn pa
    && (s.waits.filter (fun x => homeSlice x.pa == homeSlice pa)).length
        + (pas.filter (fun y => homeSlice y == homeSlice pa)).length ≤ waitCap)
/-- FWAIT (R245). -/
def execFwait (f : SyncF) (s : State) : Host.Outcome State Fault Refusal :=
  s.issue (.fwait f) (fun s r =>
    let reqs := (lanesOf r.act).map (fun t => (⟨t, (r.a t).toNat, 8⟩ : Req))
    if r.act = 0 then r.done s
    else match offGlob reqs with
    | some p => r.fault s causeAperture p
    | none => match r.i.access s r.word 0 r.act ⟨wantLoad (some r.i.w.pkr), true, none⟩ reqs with
    | .stop s => s
    | .go s i l =>
      let r := r.on i l
      let (gs, s) := s.readAll (i.mmu s) false true l
      match firstBad l gs with
      | some p => r.fault s causeEccUe p
      | none =>
        let v := gotOf l gs
        if gs.all (fun g => fld (leVal g.bytes) 63 1 == 1) then
          r.done (i.acquireAll (r.putV s f.d.toNat (fun t => BitVec.ofNat 32 (v t))) l true)
        else
          let lp := l.filterMap (fun q => (q.xs.head?).map (fun x => (q.req.lane, x.pa, q.req.ptr)))
          let pas := (lp.map (fun x => x.2.1)).eraseDups
          let room := s.waitRoom pas
          let st : SubState := if room then .fwait f.d.toNat lp 0 0
            else .fwait f.d.toNat lp 64 (s.timer + cyclesToNs 64)
          let low := lowLane r.act
          let s := r.block s ⟨r.act, i.u.pc, some i.c.head, i.u.loop, st⟩
          match (s.warp? i.g.id i.w.idx).bind (fun w => w.subs.find? (fun u => laneIn u.lanes low)) with
          | some u => if room then { s with waits := s.waits ++ pas.map (fun pa => ⟨pa, i.g.id, i.w.idx, u.id⟩) } else s
          | none => s)

/-- A wait is looked at again: a parked one when a write has ended it, one without an entry when its backoff ends (R245). -/
def State.fwaitDue (s : State) (l : List (Nat × Nat × Nat)) (b n : Nat) : Bool :=
  !s.futStalls l && (if b = 0 then s.futMet l else n ≤ s.timer)
/-- FWAIT_POLL (R245): the write that fills a future of a parked wait wakes it, whoever made it; a waiter that found the wait
table full reads its futures again, and doubles its backoff. -/
def execFwaitPoll (gid w sub : Nat) (s : State) : Host.Outcome State Fault Refusal :=
  match s.sub? gid w sub with
  | none => .next s
  | some u => match u.st with
    | .fwait d l b n =>
      if !s.fwaitDue l b n then .next s
      else if b = 0 then .next (s.tryFuture gid w sub)
      else
        let s := s.updWarp gid w (fun x => x.count 10 1)
        let b' := min (2 * b) 4096
        let s := s.updSub gid w sub (fun u => { u with st := .fwait d l b' (s.timer + cyclesToNs b') })
        .next ((l.foldl (fun (s : State) x => s.mergeAt x.2.1 8) s).tryFuture gid w sub)
    | _ => .next s

/-! ## Watchpoints (R246, R247) -/

/-- Result words of WATCH (R247). -/
def watchFail (why : Nat) : Word := BitVec.ofNat 32 (2 ^ 31 + why * 2 ^ 28)
/-- A malformed record (R246). -/
def watchBad (rec : Nat) : Bool :=
  let base := fld rec 0 64
  let len := fld rec 64 32
  fld rec 161 31 != 0 || len % 4 != 0 || len < 4 || 4096 < len || base % 4 != 0 || 2 ^ 56 ≤ base || 4096 < base % 4096 + len
/-- The page whose flip stalls the translation of a record's range (R83). -/
def State.watchStall (s : State) (i : Iss) (rec : Nat) : Option Nat :=
  match (s.resolve (i.mmu s) (wantLoad (some i.w.pkr)) (fld rec 0 64)).1 with
  | .stall page => if watchBad rec then none else some page
  | _ => none
/-- Registration of a record (R247): the lowest free entry of the range's home slice. -/
def State.watchSet (s : State) (i : Iss) (rec : Nat) : Word × State :=
  if watchBad rec then (watchFail 2, s)
  else match s.resolve (i.mmu s) (wantLoad (some i.w.pkr)) (fld rec 0 64) with
  | (.ok x, s) =>
    if !isOwn x.pa then (watchFail 5, s)
    else
      let sl := homeSlice x.pa
      match (List.range 64).find? (fun k => !s.watches.any (fun e => e.handle == 64 * sl + k)) with
      | none => (watchFail 1, s)
      | some k =>
        let d := s.grid? i.g.grid
        (BitVec.ofNat 32 (64 * sl + k),
          { s with watches := s.watches ++ [⟨64 * sl + k, s.ctxOf i.g, x.pa, fld rec 64 32, BitVec.ofNat 32 (fld rec 96 32),
              BitVec.ofNat 32 (fld rec 128 32), fld rec 160 1 == 1, BitVec.ofNat 64 (fld rec 192 64), none,
              s.rootOfGroup i.g, (d.map (fun d => d.maxp)).getD 0, (d.map (fun d => d.gen)).getD 0⟩] })
  | (_, s) => (watchFail 3, s)

/-- A record read for an instruction at a global, aligned address (R246, R250). -/
def Rdy.record (r : Rdy) (s : State) (att ptr n align : Nat) (k : State → Rdy → List Byte → State) : State :=
  if ptr / 2 ^ 56 != 0 then r.fault s causeAperture ptr
  else if ptr % align != 0 then r.fault s causeMisalign ptr
  else match r.i.readBlock s r.word att r.act (wantLoad (some r.i.w.pkr)) ptr n with
  | .stop s => s
  | .go s i b => k s { r with i := i } b

/-- WATCH (R247). -/
def execWatch (f : ObjF) (s : State) : Host.Outcome State Fault Refusal :=
  s.issue (.watch f) (fun s r =>
    let d := f.d.toNat
    if r.act = 0 then r.done (if 64 ≤ d then r.putS s d 0 else s)
    else r.record s f.att.toNat (r.a r.low).toNat 32 32 (fun s r b =>
      match s.watchStall r.i (leVal b) with
      | some page => r.i.awaitFlip s page
      | none =>
      let (v, s) := s.watchSet r.i (leVal b)
      r.done (r.i.outst (r.putS s d v) f.att.toNat .free)))
/-- WATCH `.clr` (R247): any thread of the entry's context may clear it. -/
def execWatchClr (f : ObjF) (s : State) : Host.Outcome State Fault Refusal :=
  s.issue (.watchClr f) (fun s r =>
    let d := f.d.toNat
    let h := ((r.b r.low).setWidth 32 : Word).toNat
    let own := s.watches.any (fun e => e.handle == h && e.ctx == s.ctxOf r.i.g)
    if r.act = 0 then r.done (if 64 ≤ d then r.putS s d 0 else s)
    else
      let s := if own then { s with watches := s.watches.filter (fun (e : WatchEntry) => e.handle != h) } else s
      r.done (r.i.outst (r.putS s d (if own then BitVec.ofNat 32 h else watchFail 4)) f.att.toNat .free))

/-! ## The dispenser (R249, R250) -/

/-- What one DISP hands out: the start, the size, and the new NEXT and REMAIN if the object changes. -/
def dispStep (o : Nat) : Nat × Nat × Option (Nat × Nat) :=
  let next := fld o 0 32
  let rem := fld o 32 32
  let p := fld o 64 32
  let lo := fld o 96 16
  let hi := fld o 112 16
  if p = 0 || lo = 0 || hi < lo then (2 ^ 32 - 1, 0, none)
  else if rem = 0 then (next, 0, none)
  else
    let c := min (min (max (cdiv rem (2 * p)) lo) hi) rem
    (next, c, some ((next + c) % 2 ^ 32, rem - c))
/-- DISP (R250). -/
def execDisp (f : ObjF) (s : State) : Host.Outcome State Fault Refusal :=
  s.issue (.disp f) (fun s r =>
    let req : List Req := [⟨r.low, (r.a r.low).toNat, 16⟩]
    if r.act = 0 then r.done s
    else match offGlob req with
    | some p => r.fault s causeAperture p
    | none => match r.i.access s r.word f.att.toNat r.act ⟨wantAtomic (some r.i.w.pkr), true, none⟩ req with
    | .stop s => s
    | .go s i l =>
      let r := { r with i := i }
      match i.poisoned s l with
      | some (p, s) => r.fault s causeEccUe p
      | none =>
        let (old, s) := l.foldl (fun (x : Nat × State) q =>
          let y := x.2.rmw i q 8 .disp (fun o => ((dispStep o).2.2.map (fun p => p.1 + p.2 * 2 ^ 32), []))
          (y.1, y.2.2)) (0, s)
        let s := r.putSPair s f.d.toNat (BitVec.ofNat 64 ((dispStep old).1 + (dispStep old).2.1 * 2 ^ 32))
        r.done (i.outst s f.att.toNat .free))

/-! ## Queue registers (R252 to R254) -/

/-- Queue number that a word names in A (R252). -/
def queueNo (f : Rk) : Nat := match f.a with
  | .imm n => n.toNat
  | _ => 0
/-- QBIND (R252): acts whatever the guard. -/
def execQbind (f : Rk) (s : State) : Host.Outcome State Fault Refusal :=
  s.issue (.qbind f) (fun s r =>
    let p := ((r.b r.low).setWidth 32 : Word).toNat
    if p = 0 || 32 < p then r.fault s causeIllop p
    else r.done (r.i.updG s (fun g =>
      let keep := (tget emptyQueue g.queues (queueNo f)).entries.filter (fun e =>
        e.warp == r.i.w.idx && e.sub == r.i.u.id && e.val.isNone)
      { g with queues := tins g.queues (queueNo f) ⟨keep, p, [], false, []⟩ })))
/-- QEOS (R252, R253): acts whatever the guard. -/
def execQeos (f : Rk) (s : State) : Host.Outcome State Fault Refusal :=
  s.issue (.qeos f) (fun s r =>
    let q := tget emptyQueue r.i.g.queues (queueNo f)
    if q.ended || q.eos.contains r.i.w.idx then r.fault s causeQeos (queueNo f)
    else
      let eos := q.eos ++ [r.i.w.idx]
      r.done (r.i.updG (s.mergeRelease r.i.g.core 2) (fun g =>
        { g with queues := tins g.queues (queueNo f) { tget emptyQueue g.queues (queueNo f) with eos := eos, ended := q.prod ≤ eos.length } })))
/-- QSTAT (R254). -/
def queueWord (q : QueueReg) (reserved warp : Nat) : Nat :=
  (if q.eos.contains warp then 2 ^ 20 else 0) + q.prod * 2 ^ 14 + q.eos.length * 2 ^ 8
    + (if q.dry.contains warp then 2 ^ 7 else 0) + (if q.ended then 2 ^ 6 else 0)
    + ((q.entries.filter QEntry.performed).length + reserved)
def execQstat (f : Rk) (s : State) : Host.Outcome State Fault Refusal :=
  s.issue (.qstat f) (fun s r =>
    let v : Word := BitVec.ofNat 32 (queueWord (tget emptyQueue r.i.g.queues (queueNo f)) (r.i.g.reservedPops (queueNo f)) r.i.w.idx)
    let d := f.d.toNat
    r.done (if 64 ≤ d then r.pushQ s (d - 80) (if laneIn r.act 0 then v else 0)
      else r.i.upd s (fun w => w.writeS d v)))

end Sys2Proof.Machine
end

