-- ==== Sys2Proof/Machine/Rie.lean ====
section
/-! DEFINITION. The reorder issue engine: triggers, promotion, demotion, and the replay of loads satisfied before an
acquire (R32 to R37). -/
namespace Sys2Proof.Machine

/-- MODE of `ooo` (R37): 0 automatic, 1 forbid, 2 force. -/
def Group.mode (g : Group) : Nat := g.ooo.toNat
/-- An issuing warp has lanes that have not exited, and its group runs. -/
def warpLives (g : Group) (w : Warp) : Bool := w.live != 0 && g.stop.isNone && !g.ended

/-- A named barrier of the group has three quarters of its arrivals, and the warp's is missing (R33, R237). -/
def Group.barTrigger (g : Group) (w : Warp) : Bool :=
  g.bars.any (fun e => match g.expect e.2 with
    | some n =>
      let k := (g.warps.filter e.2.hasWarp).length
      3 * n ≤ 4 * k && k < n && !e.2.hasWarp w
    | none => false)
/-- The same for a barrier object whose previous phase the warp arrived in (R33, R242). -/
def State.objTrigger (s : State) (g : Group) (w : Warp) : Bool :=
  s.groups.any (fun h => h.hits.any (fun e =>
    e.2.1.contains (g.id, w.idx) && !e.2.2.contains (g.id, w.idx)
      && (let o := s.barObj h.id (16 * e.1)
          3 * o.expect ≤ 4 * (o.expect - o.pending) && o.pending != 0)))
/-- Groups of a grid still to be placed on this package. -/
def Grid.unplaced (d : Grid) : Bool := d.next < d.last || !d.relaunch.isEmpty
/-- The core holds four or fewer warps of the grid, which has no unplaced groups (R33). -/
def State.tailTrigger (s : State) (g : Group) : Bool :=
  let n := (s.groups.filter (fun h => h.core == g.core && h.grid == g.grid && !h.ended)).foldl (fun a h => a + h.liveWarps.length) 0
  n ≤ 4 && (match s.grid? g.grid with
    | some d => !d.unplaced
    | none => true)
/-- The trigger that makes a warp a promotion candidate, as CAUSE of R37; 0 for none (R33). Of several that hold, CAUSE is the
lowest code: DESIGN CHOICE, log 97. -/
def State.trigger (s : State) (g : Group) (w : Warp) : Nat :=
  if g.mode = 1 then 0
  else if 0 < w.locks then 1
  else if g.barTrigger w || s.objTrigger g w then 2
  else if s.tailTrigger g then 3
  else if g.mode = 2 then 4
  else 0

/-- Slots of the RIE (R34). -/
def rieSlots : Nat := 4
/-- Warps of a core with their groups, oldest first (R30). -/
def State.coreWarps (s : State) (core : Nat) : List (Group × Warp) :=
  let l := (s.groups.filter (fun g => g.core == core && !g.ended)).flatMap (fun g => g.warps.map (fun w => (g, w)))
  sortBy (fun a b => a.1.admitted < b.1.admitted || (a.1.admitted == b.1.admitted && a.2.slot ≤ b.2.slot)) l
/-- The oldest candidate of a core that the RIE does not hold. -/
def State.rieNext (s : State) (core : Nat) : Option (Group × Warp) :=
  (s.coreWarps core).find? (fun p => !p.2.inRie && warpLives p.1 p.2 && s.trigger p.1 p.2 != 0)
/-- The candidate that a free slot takes at its clause boundary. -/
def State.riePick (s : State) (core : Nat) : Option (Group × Warp) :=
  if ((s.coreWarps core).filter (fun p => p.2.inRie)).length < rieSlots then
    (match s.rieNext core with
      | some p => if p.2.subs.all (fun u => u.run.isNone) then some p else none
      | none => none)
  else none
/-- RIE_PROMOTION (R34). -/
def execRiePromotion (core : Nat) (s : State) : Host.Outcome State Fault Refusal :=
  match s.riePick core with
  | none => .next s
  | some p => .next (s.updWarp p.1.id p.2.idx (fun (w : Warp) =>
      ({ w with inRie := true, rieCause := s.trigger p.1 p.2, rieEnd := none }).count 3 1))

/-- A lane of a load that was not, or is no longer, satisfied from the core's registered words is loaded again (R32). -/
def State.mustReplay (s : State) (core : Nat) (l : SpecLane) : Bool := !(l.own && s.rangesOwned core l.parts)
/-- A page that a replay must read is being flipped, so that the replay waits (R83). -/
def State.replayStalls (s : State) (core : Nat) (w : Warp) : Bool :=
  w.spec.any (fun l => l.lanes.any (fun x => s.mustReplay core x && x.parts.any (fun p => (s.inFlip (.phys p.1 false, p.2)).isSome)))
/-- Loads a lane again at the ordering point. -/
def State.reload (s : State) (core : Nat) (l : SpecLane) : Got × State :=
  l.parts.foldl (fun (x : Got × State) p =>
    let (g, s) := x.2.readPoint ⟨some core, dieOf core, false⟩ p.1 p.2
    (⟨x.1.bytes ++ g.bytes, x.1.bad || g.bad⟩, s)) (⟨[], false⟩, s)
/-- Writes the destination of a lane. -/
def Warp.writeLane (w : Warp) (d lane : Nat) (v : List Word) : Warp :=
  v.zipIdx.foldl (fun (w : Warp) x => w.writeV (d + x.2) lane x.1) w
/-- A load's words from the bytes that a lane read. -/
def SpecLoad.words (l : SpecLoad) (b : List Byte) : List Word :=
  let v := if !l.signed then leVal b else if l.size = 1 then wrapN (sval (leVal b) 8) 32 else wrapN (sval (leVal b) 16) 32
  (List.range (cdiv l.size 4)).map (wordAt v)
/-- Loads are discarded, the youngest first: their destinations hold again what they held before (R32). -/
def Warp.undo (w : Warp) (l : List SpecLoad) : Warp :=
  l.reverse.foldl (fun (w : Warp) x => x.lanes.foldl (fun (w : Warp) y => w.writeLane x.d y.lane y.old) w) w
/-- Replays loads, the oldest first. One that reads poison traps with the younger ones discarded, as the IIE would (R32, R36,
R225). -/
def State.replayLoads (gid wi core : Nat) : List SpecLoad → State → State
  | [], s => s
  | l :: r, s =>
    let x := (l.lanes.filter (s.mustReplay core)).foldl (fun (x : List (SpecLane × Got) × State) q =>
      let y := x.2.reload core q
      (x.1 ++ [(q, y.1)], y.2)) ([], s)
    match x.1.find? (fun q => q.2.bad) with
    | some q =>
      let s := x.2.updWarp gid wi (fun w => (w.undo (l :: r)).updSub l.sub (fun u => { u with loop := l.loop, pend := none }))
      s.raise gid wi l.sub { l.trap with tval := BitVec.ofNat 64 q.1.ptr }
    | none => State.replayLoads gid wi core r
        (x.2.updWarp gid wi (fun w => x.1.foldl (fun (w : Warp) q => w.writeLane l.d q.1.lane (l.words q.2.bytes)) w))
/-- The acquire of a warp in the RIE completes: the core discards its unregistered copies, and each younger load that
one of them satisfied is loaded again (R32). -/
def State.replay (s : State) (gid wi : Nat) : State :=
  match s.group? gid, s.warp? gid wi with
  | some g, some w =>
    let n := (w.spec.filter (fun l => l.lanes.any (s.mustReplay g.core))).length
    let s := (s.dropL1 g.core).updWarp gid wi (fun (w : Warp) => { w with acq := false, spec := [] }.count 4 n)
    State.replayLoads gid wi g.core w.spec s
  | _, _ => s
/-- The acquire of a warp can complete. -/
def State.replayDue (s : State) (g : Group) (w : Warp) : Bool := w.acq && !s.replayStalls g.core w
/-- SPECULATIVE_REPLAY (R32). -/
def execSpeculativeReplay (gid wi : Nat) (s : State) : Host.Outcome State Fault Refusal :=
  match s.group? gid, s.warp? gid wi with
  | some g, some w => if s.replayDue g w then .next (s.replay gid wi) else .next s
  | _, _ => .next s

/-- A warp leaves the RIE: its in-flight instructions retire first (R35). A replay that waits for a flip keeps its warp from
starting a clause. -/
def State.demote (s : State) (gid wi : Nat) : State :=
  let s := match s.group? gid, s.warp? gid wi with
    | some g, some w => if s.replayDue g w then s.replay gid wi else s
    | _, _ => s
  s.updWarp gid wi (fun w => { w with inRie := false, rieEnd := none })
/-- RIE_DEMOTION (R34): the end of the last trigger is noted, a trigger that holds again clears it, and 256 cycles after
it the warp is demoted. -/
def execRieDemotion (gid wi : Nat) (s : State) : Host.Outcome State Fault Refusal :=
  match s.group? gid, s.warp? gid wi with
  | some g, some w =>
    if !w.inRie then .next s
    else if s.trigger g w != 0 then .next (s.updWarp gid wi (fun w => { w with rieEnd := none }))
    else match w.rieEnd with
      | none => .next (s.updWarp gid wi (fun w => { w with rieEnd := some (s.timer + cyclesToNs 256) }))
      | some t => if t ≤ s.timer then .next (s.demote gid wi) else .next s
  | _, _ => .next s
/-- A RIE_DEMOTION of the warp would change something. -/
def State.rieDue (s : State) (g : Group) (w : Warp) : Bool :=
  w.inRie && (if s.trigger g w != 0 then w.rieEnd.isSome else (match w.rieEnd with
    | none => true
    | some t => t ≤ s.timer))
/-- A write of forbid to MODE demotes the group's promoted warps at once (R34). -/
def State.demoteAll (s : State) (g : Group) : State :=
  (g.warps.filter (fun w => w.inRie)).foldl (fun (s : State) w => s.demote g.id w.idx) s

end Sys2Proof.Machine
end

