-- ==== Sys2Proof/Machine/Packet.lean ====
section
/-! DEFINITION. Launch packets, task descriptors and job cards: the rules of R288, R294, R295, R353 to R355 and R366. -/
namespace Sys2Proof.Machine

/-- A code address that ENTRY or TVEC may hold (R355). -/
def codeOk (a : Nat) : Bool := a % 8 == 0 && a / 2 ^ 56 == 0
/-- The ROLEC fields (R355): a count above 32, or a nonzero one after a 0. -/
def rolesBad (p : BitVec 1024) : Bool :=
  let l := (List.range 8).map (rolec p)
  rolec p 0 == 0 || l.any (32 < ·) || (l.dropWhile (· != 0)).any (· != 0) || 32 < warpCount p
/-- Vector registers of one group (R22, R355). -/
def vecReserve (p : BitVec 1024) : Nat := warpCount p * 8 * (pfld p 512 5 + 1) + 8 * pfld p 520 10
/-- Scalar registers of one warp (R353). -/
def scaAllot (p : BitVec 1024) : Nat := 8 * (pfld p 517 3 + 1)
/-- Footprint fields outside their ranges (R355). -/
def sizesBad (p : BitVec 1024) : Bool :=
  let scr := pfld p 530 10
  let carve := pfld p 540 4
  4096 < vecReserve p || 512 < pfld p 520 10 || 576 < scr || (carve != 0 && (carve < cdiv scr 64 || 9 < carve)) || 4096 < pfld p 496 13
    || 4 < pfld p 544 3 || 8 < pfld p 547 4 || 512 < pfld p 551 10 || 8 < pfld p 561 4
    || pfld p 565 3 == 0 || 6 < pfld p 565 3
/-- Reserved bits of `fpmode` (R94). -/
def fpmodeBad (v : Nat) : Bool := fld v 5 3 != 0 || fld v 13 19 != 0
/-- A window of the table breaks R354 or R355. -/
def winBad (w : BitVec 1024) (k : Nat) : Bool :=
  let v := w.toNat
  fld v (128 * k) 64 % 4 != 0 || fld v (128 * k + 56) 8 != 0 || 131072 < fld v (128 * k + 64) 32 || fld v (128 * k + 96) 32 != 0
/-- A malformed packet (R355); `prv` says whether a privileged launch is permitted, and `own` is the submitting package. -/
def packetBad (own : Nat) (prv : Bool) (p w : BitVec 1024) : Bool :=
  let entry := pfld p 0 64
  let tvec := pfld p 64 64
  let sig := pfld p 640 64
  let mask := pfld p 256 64
  let team := pfld p 565 3
  entry == 0 || !codeOk entry || !codeOk tvec || pfld p 128 64 % 64 != 0 || !codeOk sig
    || pfld p 320 31 == 0 || pfld p 352 16 == 0 || pfld p 368 16 == 0
    || rolesBad p || sizesBad p || pfld p 320 31 % team != 0
    || pfld p 568 2 == 3 || (pfld p 568 2 == 2 && 3 < team)
    || (pfld p 574 1 == 1 && !prv)
    || (mask != 0 && mask / 2 ^ own % 2 == 0)
    || pfld p 351 1 != 0 || pfld p 509 3 != 0 || pfld p 768 256 != 0 || fpmodeBad (pfld p 416 32)
    || (List.range 8).any (winBad w)
/-- A malformed task descriptor (R288, R366). -/
def taskBad (own : Nat) (prv : Bool) (p w : BitVec 1024) : Bool :=
  let mask := pfld p 256 64
  packetBad own prv p w || (mask != 0 && mask != 2 ^ own) || pfld p 573 1 == 1
    || pfld p 384 32 != 0 || pfld p 575 1 == 1 || pfld p 576 64 != 0

/-- Address of the constant window table (R353). -/
def cwtOf (p : BitVec 1024) : Nat := pfld p 128 64
/-- The table is read: it is named and aligned (R287, R354). -/
def cwtRead (p : BitVec 1024) : Bool := cwtOf p != 0 && cwtOf p % 64 == 0

/-! ## Context descriptors (R368) -/

/-- The context may be used by queues and commands. -/
def State.ctxValid (s : State) (c : Nat) : Bool := c < s.barFld 0x200008 0 17 && s.ctxFld c 64 1 == 1
/-- The device writes a field of a context's descriptor, as one store at its ordering point. -/
def State.ctxPut (s : State) (c lo n x : Nat) : State :=
  match s.canonPa (s.ctxAddr c + 8 * (lo / 64)) with
  | none => s
  | some pa => s.perform ⟨none, 0, true⟩ pa (leBytes 8 (setFld (s.peekN pa 8) (lo % 64) n x))
/-- STATE of a context: 0 idle, 1 resident, 2 saving, 3 saved. -/
def State.ctxState (s : State) (c : Nat) : Nat := s.ctxFld c 96 2
/-- STATE returns to idle when no group, held task or suspended job of the context remains; every job belongs to a
resident group (R368). -/
def State.ctxRest (s : State) (c : Nat) : State :=
  if s.ctxState c = 1 && s.groups.all (fun g => g.ended || s.ctxOf g != c) && s.tasks.all (fun t => !(t.held && t.ctx == c))
  then s.ctxPut c 96 2 0 else s

/-! ## Job cards (R294, R295) -/

/-- Field of a job card. -/
def cfld (c : BitVec 2048) (lo n : Nat) : Nat := fld c.toNat lo n
/-- Base and length of region i; 0 to 3 are read regions, 4 to 7 write regions (R294). -/
def cardRegion (c : BitVec 2048) (i : Nat) : Nat × Nat := (cfld c (256 + 128 * i) 64, cfld c (320 + 128 * i) 32)
/-- The apertures of regions and of copied rows. -/
def jobAperture (a : Nat) : Bool := [0x00, 0xF0, 0xF2, 0xF3].contains (a / 2 ^ 56)
/-- A PARAM, record or ENG field that R295 does not allow the operation (log 60). -/
def cardFieldsBad (c : BitVec 2048) : Bool :=
  let p := cfld c 32 32
  let a := cfld c 128 64
  let b := cfld c 192 64
  match cfld c 0 4, cfld c 4 4 with
  | 1, 3 => a != 0 || b == 0 || cfld c 1280 768 != 0
  | 1, op => p != 0 || a == 0 || b == 0 || (if op = 0 then cfld c 1280 768 != 0 else cfld c 1344 704 != 0)
  | 2, _ => p % 32 == 0 || fld p 5 3 != 0 || fld p 9 23 != 0 || a == 0 || cfld c 1504 544 != 0
  | _, _ => p % 16 == 0 || 8 < p % 16 || 2 < fld p 4 4 || fld p 11 21 != 0 || (p % 16 != 7 && fld p 8 3 != 0) || a == 0 || b == 0 || cfld c 1344 704 != 0
/-- A malformed card (R294). -/
def cardBad (c : BitVec 2048) : Bool :=
  let e := cfld c 0 4
  let op := cfld c 4 4
  !((e == 1 && op < 4) || (e == 2 && op == 0) || (e == 3 && op < 3)) || cfld c 8 24 != 0
    || (List.range 8).any (fun i => cfld c (352 + 128 * i) 32 != 0
        || ((cardRegion c i).2 != 0 && !jobAperture (cardRegion c i).1))
    || cardFieldsBad c

end Sys2Proof.Machine
end

