-- ==== Sys2Proof/Machine/PalUnit.lean ====
section
/-! DEFINITION. The palette unit: builds, lookups, tiles and their checks (R99 to R110, R255 to R257, R276 to R283), the
order in which accepted operations are performed (R259 to R264), and their completion. -/
namespace Sys2Proof.Machine

/-! ## Palettes and tiles -/

def emptyPal : Palette := ⟨false, false, false, none, 0, [], []⟩
def emptyTile : Tile := ⟨false, [], [], [], [], [], 0⟩
def Group.pal (g : Group) (p : Nat) : Palette := tget emptyPal g.pals p
def Group.setPal (g : Group) (p : Nat) (x : Palette) : Group := { g with pals := tins g.pals p x }
def Group.tile (g : Group) (n : Nat) : Tile := tget emptyTile g.tiles n
def Group.setTile (g : Group) (n : Nat) (x : Tile) : Group := { g with tiles := tput emptyTile g.tiles n x }

/-- Key of an element of a tile. -/
def elemKey (row col : Nat) : Nat := 256 * row + col
/-- A word written into a tile keeps the check column (R110). -/
def Tile.put (t : Tile) (row col : Nat) (v : Word) : Tile :=
  let o := tget 0 t.elems (elemKey row col)
  { t with elems := tput 0 t.elems (elemKey row col) v, xc := tput 0 t.xc row (tget 0 t.xc row ^^^ o ^^^ v) }
/-- XOR of the 256 words of a row (R110). -/
def Tile.rowXor (t : Tile) (row : Nat) : Word := (List.range 256).foldl (fun a c => a ^^^ tget 0 t.elems (elemKey row c)) 0
/-- A reset tile keeps its version (R278). -/
def Tile.clear (t : Tile) (i32 : Bool) : Tile := { emptyTile with i32 := i32, ver := t.ver }
/-- The version advances (R261). -/
def Tile.bump (t : Tile) : Tile := { t with ver := t.ver + 1 }

/-! ## Block arithmetic (R99 to R105) -/

/-- Element formats of a shape record (R265). -/
def shapeFmt (f : Nat) : Fmt :=
  match f with
  | 2 => fmtF16 | 3 => fmtBf16 | 4 => fmtE4m3 | 5 => fmtE5m2 | 6 => fmtE2m1 | _ => fmtF32
/-- Bytes of an element of a shape format. -/
def shapeSize (f : Nat) : Nat := if f = 1 || f = 9 then 4 else if f = 2 || f = 3 then 2 else 1

/-- Step 1 (R103): block exponent, mantissas, and the non-finite mark. -/
def blockIn (fmt : Nat) (a : List Nat) : Int × List Int × Bool :=
  if fmt = 8 then (10, a.map (fun v => sval v 8), false)
  else
    let x := a.map (shapeFmt fmt).dec
    let bad := x.any (fun v => !v.isFinite)
    let top (v : Fp) : Option Int := match v with
      | .fin _ m e => if m = 0 then none else some ((bitLen m : Int) - 1 + e)
      | _ => none
    match x.filterMap top with
    | [] => (-127, a.map (fun _ => 0), bad)
    | h :: r =>
      let ea := r.foldl (fun p q => if p < q then q else p) h
      (ea, x.map (fun v => match v with
        | .fin n m e =>
          let k := (roundInt .rne n m (e + 10 - ea)).1
          clampI (if n then -(k : Int) else k) (-2047) 2047
        | _ => 0), bad)
/-- Step 2 (R104): the 8 × 16 entries. -/
def palTable (m : List Int) : List Int :=
  (List.range 128).map (fun k => (List.range 4).foldl (fun s i =>
    if k % 16 / 2 ^ i % 2 = 1 then s + m.getD (4 * (k / 16) + i) 0 else s) 0)
/-- Step 3 (R105): the lookup sum of a table with k planes. -/
def lookupSum (t : List Int) (planes : List Nat) (k : Nat) : Int :=
  (List.range 8).foldl (fun s g =>
    s + 2 * ((planes.zipIdx).foldl (fun a p =>
        a + (if p.2 = 0 then -(2 ^ (k - 1) : Nat) else (2 ^ (k - 1 - p.2) : Nat) : Int) * t.getD (16 * g + p.1 / 2 ^ (4 * g) % 16) 0) 0)
      + t.getD (16 * g + 15) 0) 0
/-- Entries of several rows added (R109). -/
def sumRows (l : List PalRow) : List Int := l.foldl (fun a r => (List.range 128).map (fun k => a.getD k 0 + r.t.getD k 0)) (List.replicate 128 0)
/-- Rows 64 s to 64 s + 63 (R109). -/
def slab {α : Type} (l : List α) (s : Nat) : List α := (l.drop (64 * s)).take 64
/-- A row from the bytes of its block and whether a word of it was poisoned. -/
def palRow (fmt : Nat) (b : List Byte) (bad : Bool) : PalRow :=
  let n := shapeSize fmt
  let x := blockIn fmt ((List.range 32).map (fun i => leVal ((b.drop (n * i)).take n)))
  ⟨x.1, x.2.2, bad, palTable x.2.1⟩

/-! ## Regions -/

def shiftPlace (p : Place) (o : Nat) : Place :=
  match p with
  | .phys pa nc => .phys (pa + o) nc
  | .scr g off => .scr g (off + o)
  | .ext g off => .ext g (off + o)
  | .priv g w l off => .priv g w l (off + o)
/-- n bytes from offset o of the parts of a row. -/
def subParts : List (Place × Nat) → Nat → Nat → List (Place × Nat)
  | [], _, _ => []
  | (p, m) :: r, o, n =>
    if n = 0 then []
    else if m ≤ o then subParts r (o - m) n
    else (shiftPlace p o, min n (m - o)) :: subParts r 0 (n - min n (m - o))
/-- Reads parts in order, as plain loads (R259). -/
def State.readParts (s : State) (a : Agent) (l : List (Place × Nat)) : Got × State :=
  l.foldl (fun (x : Got × State) p =>
    let (g, s) := x.2.readPlace a p.1 p.2 false
    (⟨x.1.bytes ++ g.bytes, x.1.bad || g.bad⟩, s)) (⟨[], false⟩, s)

/-! ## Builds (R270, R275) -/

/-- Where a descriptor's row r lies (R77, R271, R277). -/
def srcPart (p : Palette) (d : PalDesc) (r : Nat) : List (Place × Nat) :=
  let off := (dfld d.src 0 20 + r * d.stride) % 2 ^ 20
  [(if dfld d.src 56 8 = 0xF2 then .ext p.srcGid off else .scr p.srcGid off, palRowBytes d.fmt)]
/-- Reads the rows of a source and makes the contents. -/
def State.buildRows (s : State) (a : Agent) (fmt : Nat) (l : List (List (Place × Nat))) : List PalRow × State :=
  l.foldl (fun (x : List PalRow × State) p =>
    let (g, s) := x.2.readParts a p
    (x.1 ++ [palRow fmt g.bytes g.bad], s)) ([], s)
/-- The column-sum row of each slab (R109). -/
def slabSums (rows : List PalRow) : List (List Int) := (List.range (cdiv rows.length 64)).map (fun k => sumRows (slab rows k))
/-- A broadcast copy whose source is the builder's extended local memory cannot be rebuilt (R271). -/
def Palette.canRebuild (p : Palette) : Bool :=
  match p.desc with
  | some d => !(d.rcv && dfld d.src 56 8 == 0xF2)
  | none => false
/-- The rebuild of R275. -/
def State.rebuild (s : State) (g : Group) (p : Nat) : State :=
  let x := g.pal p
  match x.desc with
  | none => s
  | some d =>
    let (rows, s) := s.buildRows ⟨some g.core, dieOf g.core, false⟩ d.fmt ((List.range d.rows).map (srcPart x d))
    s.updGroup g.id (fun g => (g.setPal p { x with valid := true, rows := rows, u := slabSums rows }).count 8 1)

/-! ## Lookups (R106 to R109, R274) -/

/-- One weight block of a line: scale, planes read, and whether any of its words was poisoned. -/
structure WBlock where
  scale : Int
  planes : List Nat
  bad : Bool
deriving DecidableEq, Repr
def WBlock.zero (w : WBlock) : Bool := w.scale == -128
/-- Reads block b of a line of nb blocks, k planes of it (R101). -/
def State.readBlockOf (s : State) (a : Agent) (line : List (Place × Nat)) (nb b k : Nat) : WBlock × State :=
  let (g, s) := s.readParts a (subParts line b 1)
  let x := (List.range k).foldl (fun (x : List Nat × Bool × State) p =>
    let (h, s) := x.2.2.readParts a (subParts line (roundUp nb 16 + 4 * (p * nb + b)) 4)
    (x.1 ++ [leVal h.bytes], x.2.1 || h.bad, s)) ([], g.bad, s)
  (⟨sval (leVal g.bytes) 8, x.1, x.2.1⟩, x.2.2)

/-- f32 update of one element: one rounding of the exact sum (R106). -/
def accF32 (acc : Nat) (sum e : Int) : Res :=
  match fmtF32.dec acc with
  | .fin n m x =>
    let r := addFin .rne n m x (sum < 0) sum.natAbs e
    fmtF32.round .rne false false r.1 r.2.1 r.2.2
  | .inf n => ⟨fmtF32.infEnc n, 0⟩
  | .nan _ => ⟨fmtF32.qnan, 0⟩
/-- i32 update of one element (R107). -/
def accI32 (sat : Bool) (acc : Nat) (sum : Int) : Nat :=
  let x := sval acc 32 + sum
  wrapN (if sat then clampI x (-(2 ^ 31)) (2 ^ 31 - 1) else x) 32

/-- One row of a tile under one weight block (R106 to R108): the tile, its S if it is not marked, and what it counts. -/
def rowStep (t : Tile) (row col : Nat) (p : PalRow) (w : WBlock) (k n : Nat) (sat : Bool) : Tile × Int × List Count :=
  let old := (tget 0 t.elems (elemKey row col)).toNat
  if p.nonFinite || p.poison || w.bad then
    let t := { t with pois := tins t.pois (elemKey row col) () }
    if t.i32 then (t, 0, [])
    else (t.put row col 0x7FC00000, 0, [countOf fmtF32 fmtF32 [old] ⟨0x7FC00000, 0⟩])
  else if w.zero then (t, 0, [])
  else
    let x := lookupSum p.t w.planes k
    if t.i32 then (t.put row col (BitVec.ofNat 32 (accI32 sat old x)), x, [])
    else if x = 0 then (t, 0, [])
    else
      let r := accF32 old x (p.ea - 10 + w.scale + n - k)
      (t.put row col (BitVec.ofNat 32 r.bits), x, [countOf fmtF32 fmtF32 [old] r])
/-- One weight block against the slab of a tile, with both checks (R109). A marked row counts as S = 0 in each. -/
def slabStep (t : Tile) (col : Nat) (rows : List PalRow) (u : List Int) (w : WBlock) (k n : Nat) (sat : Bool) : Tile × List Count :=
  let x := rows.zipIdx.foldl (fun (x : Tile × Int × List Count) p =>
    let y := rowStep x.1 p.2 col p.1 w k n sat
    (y.1, x.2.1 + y.2.1, x.2.2 ++ y.2.2)) (t, 0, [])
  if w.bad || w.zero then (x.1, x.2.2)
  else
    let marked := sumRows (rows.filter (fun p => p.nonFinite || p.poison))
    let c := lookupSum ((List.range 128).map (fun i => u.getD i 0 - marked.getD i 0)) w.planes k
    let add (tb : Tbl Word) (v : Int) : Tbl Word := tput 0 tb col (tget 0 tb col + BitVec.ofInt 32 v)
    ({ x.1 with chk := add x.1.chk c, obs := add x.1.obs x.2.1 }, x.2.2)

/-! ## Accepted operations -/

/-- Cycles an operation takes in the unit (R275, log 15). -/
def PalKind.cycles (g : Group) : PalKind → Nat
  | .build _ sh _ _ => cdiv (fld sh.toNat 96 16) 2 + 8
  | .look p _ _ sh k _ _ _ _ => cdiv (((g.pal p).desc.map (fun d => d.rows)).getD 0 * fld sh.toNat 96 16 * 8 * k) 8192 + 12
  | .zero _ _ h _ => 64 * cdiv h 64
  | .load _ _ sh => 64 * cdiv (fld sh.toNat 96 16) 64
  | .drain _ _ sh _ _ => 64 * cdiv (fld sh.toNat 96 16) 64
  | _ => 0

/-- Increments of tile n after which an incrementing operation naming version v is performed, behind the accepted ones given:
each that names the same version puts it off by a full turn (R261). -/
def Group.verDist (g : Group) (n : Nat) (before : List PalOp) (v : BitVec 16) : Nat :=
  (v - (g.tile n).ver).toNat
    + 2 ^ 16 * before.countP (fun o => o.kind.incr && o.kind.tiles.contains n && o.kind.ver == some v)
/-- TY that tile n will hold when an incrementing operation naming version v is performed (R257). -/
def Group.tyAt (g : Group) (n : Nat) (v : BitVec 16) : Bool :=
  (g.palOps.zipIdx.foldl (fun (x : Bool × Nat) o =>
    match o.1.kind.setsTy, o.1.kind.ver with
    | some ty, some w =>
      let d := g.verDist n (g.palOps.take o.2) w
      if o.1.kind.tiles.contains n && x.2 ≤ d && d < g.verDist n g.palOps v then (ty, d) else x
    | _, _ => x) ((g.tile n).i32, 0)).1

/-- A performed PBUILD that waits for its copies only (R271). -/
def PalOp.performed (o : PalOp) : Bool := !o.copies.isEmpty
/-- A PLOOK is performed behind a PBUILD of its palette that waits for its copies only: as if it carried `.rebuild` (R78). -/
def Group.early (g : Group) (o : PalOp) (p : Nat) : Bool :=
  (g.palOps.takeWhile (fun e => e.id != o.id)).any (fun e => e.performed && e.kind.palUse == some (p, true))
/-- The source that a PLOOK which rebuilds an invalid palette will read (R275). -/
def Group.lookSource (g : Group) (o : PalOp) : List (List (Place × Nat)) :=
  match o.kind with
  | .look p _ _ _ _ _ _ _ rb =>
    let x := g.pal p
    match x.desc with
    | some d => if !x.valid && (rb || g.early o p) then (List.range d.rows).map (srcPart x d) else []
    | none => []
  | _ => []
/-- o must be performed after the earlier e (R259, R260, R261). -/
def palAfter (g : Group) (o e : PalOp) : Bool :=
  (!e.performed && (match o.kind.palUse, e.kind.palUse with
    | some a, some b => a.1 == b.1 && (a.2 || b.2)
    | _, _ => false))
  || (o.warp == e.warp && (
      (o.kind.tiles.any (fun t => e.kind.tiles.contains t) && (o.kind.ver.isNone || e.kind.ver.isNone))
      || ((o.kind.writes || e.kind.writes) && rowsHit (o.rows ++ g.lookSource o) (e.rows ++ g.lookSource e))))
  || (o.kind.incr && e.kind.incr && o.kind.ver == e.kind.ver
      && o.kind.tiles.any (fun t => e.kind.tiles.contains t && e.kind.ver == some (g.tile t).ver))
/-- An accepted operation may be performed now (R260, R261). -/
def Group.palReady (g : Group) (o : PalOp) : Bool :=
  !o.performed && !o.kind.isCopy
    && (match o.kind.ver with
      | some v => o.kind.tiles.all (fun t => (g.tile t).ver == v)
      | none => true)
    && (g.palOps.takeWhile (fun e => e.id != o.id)).all (fun e => !palAfter g o e)
    && (!o.kind.incr || g.palOps.all (fun e => match e.kind with
      | .read t (some v) _ _ _ _ => !(o.kind.tiles.contains t && some v == o.kind.ver)
      | _ => true))
/-- An arriving copy may be installed: no reader or writer of its palette is outstanding on the core (R260). -/
def Group.copyReady (g : Group) (o : PalOp) : Bool :=
  match o.kind with
  | .copy p _ _ _ => g.palOps.all (fun e => match e.kind.palUse with
      | some u => u.1 != p
      | none => true)
    && (g.palOps.takeWhile (fun e => e.id != o.id)).all (fun e => match e.kind with
      | .copy q _ _ _ => q != p
      | _ => true)
  | _ => false

/-- An operation completes: it leaves the unit, its flag's instruction has completed, queue entries and held sub-groups
behind it go on (R127, R251, R259). -/
def Group.palDone (g : Group) (o : PalOp) : Group :=
  { g with palOps := g.palOps.filter (fun e => e.id != o.id),
           queues := g.queues.map (fun q => (q.1, { q.2 with entries := q.2.entries.map (fun e =>
             { e with after := e.after.filter (· != o.id) }) })),
           warps := g.warps.map (fun (w : Warp) => if w.idx = o.warp then
             { w with outst := (w.outst.map (fun (x : Outst) => if x.kind = .palette o.id then { x with kind := .free } else x)).filter
                        (fun x => !(x.kind == .free && x.flag.isNone)),
                      subs := w.subs.map (fun (u : SubGroup) => if u.st = .held then { u with st := .ready } else u) }
             else w) }

/-! ## Performing -/

def Group.unitAgent (g : Group) : Agent := ⟨some g.core, dieOf g.core, false⟩
def Group.mapTiles (g : Group) (l : List Nat) (f : Tile → Tile) : Group := l.foldl (fun g n => g.setTile n (f (g.tile n))) g

/-- A PBUILD completes with its palette invalid: the lookups held behind it are performed as if they carried `.rebuild`
(R78). -/
def Group.staleBehind (g : Group) (p b : Nat) : Group :=
  let rest := (g.palOps.dropWhile (fun e => e.id != b)).drop 1
  let hit := (rest.takeWhile (fun e => e.kind.palUse != some (p, true))).map (fun e => e.id)
  { g with palOps := g.palOps.map (fun (e : PalOp) => if hit.contains e.id then
      { e with kind := match e.kind with
          | .look q t v sh k c h sat rb => .look q t v sh k c h sat (rb || q == p)
          | x => x } else e) }
/-- PBUILD (R270, R271): the palette, invalid where its source was written meanwhile (R78), and a copy sent to each receiver. -/
def State.doBuild (s : State) (g : Group) (o : PalOp) (p : Nat) (sh : BitVec 1536) (kb mask : Nat) : State :=
  let fmt := fld sh.toNat 68 4
  let size := shapeSize fmt
  let (rows, s) := s.buildRows g.unitAgent fmt o.rows
  let base := (fld sh.toNat 0 64 + 32 * kb * size) % 2 ^ 64
  let d : PalDesc := ⟨BitVec.ofNat 64 base, fld sh.toNat 128 32, fld sh.toNat 96 16, fmt, false, g.team, kb⟩
  let x : Palette := ⟨true, !o.dirty, false, some d, g.id, rows, slabSums rows⟩
  let rcv := (setBits' mask).filterMap (fun m => if m = g.team then none else (s.member? g m).filter (fun r => !r.ended && r.stop.isNone))
  let s := s.updGroup g.id (fun g => g.setPal p x)
  if rcv.isEmpty then s.updGroup g.id (fun g => (if o.dirty then g.staleBehind p o.id else g).palDone o)
  else
    let s := rcv.foldl (fun (s : State) r =>
      let op : PalOp := { id := s.nextId, warp := 255, lane := 0, pkr := o.pkr, rows := [], dirty := false, copies := [], due := s.timer,
                          kind := .copy p { x with desc := some { d with rcv := true } } g.id o.id }
      (s.updGroup r.id (fun r => { r with palOps := r.palOps ++ [op] })).fresh) s
    s.updGroup g.id (fun g => { g with palOps := g.palOps.map (fun (e : PalOp) => if e.id = o.id then { e with copies := rcv.map (fun r => r.id) } else e) })
where
  /-- Team members of a mask. -/
  setBits' (m : Nat) : List Nat := (List.range 6).filter (fun i => m / 2 ^ i % 2 == 1)

/-- PLOOK (R274, R275). Behind a PBUILD that has not completed it is performed as if it carried `.rebuild` (R78). -/
def State.doLook (s : State) (g : Group) (o : PalOp) (p tile : Nat) (sh : BitVec 1536) (k col rows : Nat) (sat rb : Bool) : State :=
  let s := if !(g.pal p).valid && (rb || g.early o p) && (g.pal p).canRebuild then s.rebuild g p else s
  let x := ((s.group? g.id).getD g).pal p
  let nb := fld sh.toNat 112 16 / 32
  let n := fld sh.toNat 72 3 + 1
  let b := match x.desc with | some d => d.kblk | none => 0
  let run := runTiles tile rows
  let y := o.rows.zipIdx.foldl (fun (y : List Tile × List Count × State) line =>
    let (w, s) := y.2.2.readBlockOf g.unitAgent line.1 nb b k
    let z := y.1.zipIdx.foldl (fun (z : List Tile × List Count) t =>
      let q := slabStep t.1 (col + line.2) (slab x.rows t.2) (x.u.getD t.2 []) w k n sat
      (z.1 ++ [q.1], z.2 ++ q.2)) ([], y.2.1)
    (z.1, z.2, s)) (run.map g.tile, [], s)
  let s := y.2.2.updGroup g.id (fun g =>
    (((run.zip y.1).foldl (fun (g : Group) t => g.setTile t.1 t.2.bump) g).count 7 (o.rows.length * rows)).palDone o)
  s.tally (s.rootOfGroup g) y.2.1

/-- The build descriptor as it stands in an image (R277). -/
def descBits (x : Palette) (d : PalDesc) : Nat :=
  d.src.toNat + d.stride % 2 ^ 32 * 2 ^ 64 + (d.rows - 1) % 2 ^ 8 * 2 ^ 96 + d.fmt % 16 * 2 ^ 104
    + (if x.valid then 2 ^ 108 else 0) + (if d.rcv then 2 ^ 109 else 0) + d.member % 8 * 2 ^ 112 + d.kblk % 2 ^ 16 * 2 ^ 128
/-- Image of a palette (R276). -/
def palImage (x : Palette) : List Byte :=
  leBytes 32 ((x.desc.map (descBits x)).getD 0)
    ++ (x.u.flatMap (fun u => (List.range 128).flatMap (fun i => leBytes 4 (wrapN (u.getD i 0) 32))))
    ++ (x.rows.flatMap (fun r => leBytes 2 (wrapN r.ea 16) ++ leBytes 1 ((if r.nonFinite then 1 else 0) + (if r.poison then 2 else 0))
        ++ List.replicate 13 0 ++ (List.range 128).flatMap (fun i => leBytes 2 (wrapN (r.t.getD i 0) 16))))
/-- Bytes of an image of h rows. -/
def imageBytes (h : Nat) : Nat := 32 + 512 * cdiv h 64 + 272 * h
/-- Writes a row's bytes part by part; a word tagged since issue is not written (R282). -/
def State.writeParts (s : State) (a : Agent) (l : List (Place × Nat)) (b : List Byte) : State :=
  (l.foldl (fun (x : State × List Byte) p =>
    let cut := (List.range (cdiv (p.2 + 16) 16)).filterMap (fun i =>
      let o := roundUp (placeOff p.1 + 1) 16 - placeOff p.1
      let lo := if i = 0 then 0 else o + 16 * (i - 1)
      let hi := min p.2 (o + 16 * i)
      if lo < hi then some (lo, hi - lo) else none)
    let s := if x.1.tagged p.1 p.2 then
        cut.foldl (fun (s : State) c => if s.tagged (shiftPlace p.1 c.1) c.2 then s
          else s.writePlace a (shiftPlace p.1 c.1) ((x.2.drop c.1).take c.2)) x.1
      else x.1.writePlace a p.1 (x.2.take p.2)
    (s, x.2.drop p.2)) (s, b)).1
where
  /-- Offset of a run in its storage. -/
  placeOff : Place → Nat
    | .phys pa _ => pa
    | .scr _ off => off
    | .ext _ off => off
    | .priv _ _ _ off => off

/-- PFILL (R276): the image's contents; a poisoned word of a row marks it. -/
def State.doFill (s : State) (g : Group) (o : PalOp) (p : Nat) (desc : BitVec 256) : State :=
  let d := desc.toNat
  let h := fld d 96 8 + 1
  let m := cdiv h 64
  let parts := o.rows.headD []
  let (u, s) := s.readParts g.unitAgent (subParts parts 32 (512 * m))
  let (rows, s) := (List.range h).foldl (fun (x : List PalRow × State) r =>
    let (b, s) := x.2.readParts g.unitAgent (subParts parts (32 + 512 * m + 272 * r) 272)
    let k := leVal ((b.bytes.drop 2).take 1)
    (x.1 ++ [⟨sval (leVal (b.bytes.take 2)) 16, k % 2 == 1, b.bad || k / 2 % 2 == 1,
      (List.range 128).map (fun i => sval (leVal ((b.bytes.drop (16 + 2 * i)).take 2)) 16)⟩], s)) ([], s)
  let us := (List.range m).map (fun i => (List.range 128).map (fun j => sval (leVal ((u.bytes.drop (512 * i + 4 * j)).take 4)) 32))
  let src := (s.member? g (fld d 112 3)).map (fun x => x.id)
  let x : Palette := ⟨true, fld d 108 1 == 1, true,
    some ⟨BitVec.ofNat 64 (fld d 0 64), fld d 64 32, h, fld d 104 4, fld d 109 1 == 1, fld d 112 3, fld d 128 16⟩,
    if fld d 109 1 = 1 then src.getD g.id else g.id, rows, us⟩
  s.updGroup g.id (fun g => (g.setPal p x).palDone o)

/-- ALOAD (R279): elements widened, poison bits, and the check column recomputed. -/
def State.doLoad (s : State) (g : Group) (o : PalOp) (tile : Nat) (sh : BitVec 1536) : State :=
  let fmt := fld sh.toNat 68 4
  let size := shapeSize fmt
  let len := fld sh.toNat 112 16
  let run := runTiles tile (fld sh.toNat 96 16)
  let fresh := run.map (fun n => (g.tile n).clear (fmt == 9))
  let y := o.rows.zipIdx.foldl (fun (y : List Tile × State) row =>
    let x := (List.range len).foldl (fun (x : Tile × State) e =>
      let (b, s) := x.2.readParts g.unitAgent (subParts row.1 (size * e) size)
      let v := leVal b.bytes
      let w := if fmt = 9 || fmt = 1 then v else (fpCvt (shapeFmt fmt) fmtF32 plainEnv v).bits
      let t := x.1.put (row.2 % 64) e (BitVec.ofNat 32 (if b.bad && fmt != 9 then 0x7FC00000 else w))
      (if b.bad then { t with pois := tins t.pois (elemKey (row.2 % 64) e) () } else t, s)) (y.1.getD (row.2 / 64) emptyTile, y.2)
    (y.1.set (row.2 / 64) x.1, x.2)) (fresh, s)
  y.2.updGroup g.id (fun g => ((run.zip y.1).foldl (fun (g : Group) t => g.setTile t.1 t.2.bump) g).palDone o)

/-- One drained element (R282): its encoding, and what it counts. -/
def drainElem (sh : BitVec 1536) (i32 : Bool) (x : Nat) : Nat × List Count :=
  let fmt := fld sh.toNat 68 4
  if fmt = 9 then (x, [])
  else
    let f := shapeFmt fmt
    let v : Env := ⟨Rm.ofCode (fld sh.toNat 76 2), false, false, fld sh.toNat 75 1 == 1⟩
    let scl := sval (fld sh.toNat 80 8) 8
    if i32 then
      let r := f.round v.rm false v.sat (sval x 32 < 0) (sval x 32).natAbs scl
      (r.bits, [countOf fmtF32 f [0] r])
    else
      let r := match fmtF32.dec x with
        | .fin n m e => f.round v.rm false v.sat n m (e + scl)
        | _ => fpCvt fmtF32 f v x
      (r.bits, [countOf fmtF32 f [x] r])
/-- Mismatches of a tile (R283): the lowest column of the checksum row and the lowest row of the check column. -/
def Tile.mismatch (t : Tile) : Option Nat × Option Nat :=
  ((List.range 256).find? (fun c => tget 0 t.chk c != tget 0 t.obs c), (List.range 64).find? (fun r => t.rowXor r != tget 0 t.xc r))
/-- `tval` of ACCCHK (R262): the kind, the lowest failing tile, and its lowest failing column or row. -/
def chkVal (run : List Nat) (m : List (Option Nat × Option Nat)) : Option Nat :=
  match (run.zip m).find? (fun x => x.2.1.isSome || x.2.2.isSome) with
  | none => none
  | some f =>
    let k := (if m.any (fun x => x.1.isSome) then 1 else 0) + (if m.any (fun x => x.2.isSome) then 2 else 0)
    some (k * 2 ^ 30 + f.1 * 2 ^ 24 + (f.2.1.getD (f.2.2.getD 0)))
/-- ADRAIN (R282, R283). -/
def State.doDrain (s : State) (g : Group) (o : PalOp) (tile : Nat) (sh : BitVec 1536) (zero : Bool) (word : DWord) : State :=
  let fmt := fld sh.toNat 68 4
  let size := shapeSize fmt
  let len := fld sh.toNat 112 16
  let run := runTiles tile (fld sh.toNat 96 16)
  let mis := run.map (fun n => (g.tile n).mismatch)
  let y := o.rows.zipIdx.foldl (fun (y : State × List Count) row =>
    let t := g.tile (run.getD (row.2 / 64) tile)
    let m := mis.getD (row.2 / 64) (none, none)
    let out := (List.range len).map (fun e =>
      let x := (tget 0 t.elems (elemKey (row.2 % 64) e)).toNat
      if m.1.isSome || m.2.isSome || thas t.pois (elemKey (row.2 % 64) e) then
        (if fmt = 9 then x else (shapeFmt fmt).qnan, ([] : List Count), true)
      else ((drainElem sh t.i32 x).1, (drainElem sh t.i32 x).2, false))
    let s := y.1.writeParts g.unitAgent row.1 (out.flatMap (fun e => leBytes size e.1))
    let s := out.zipIdx.foldl (fun (s : State) e => if e.1.2.2 then
        (subParts row.1 (size * e.2) size).foldl (fun (s : State) p => if s.tagged p.1 p.2 then s else s.poisonPlace p.1 p.2) s
      else s) s
    (s, y.2 ++ out.flatMap (fun e => e.2.1))) (s, [])
  let s := y.1.tally (y.1.rootOfGroup g) y.2
  let s := s.updGroup g.id (fun g => g.mapTiles run (fun t => (if zero then t.clear t.i32 else t).bump))
  let s := match chkVal run mis with
    | none => s
    | some v =>
      let t : TrapRec := ⟨BitVec.ofNat 8 causeAccChk, 0, word, 0, BitVec.ofNat 64 v, none⟩
      s.updWarp g.id o.warp (fun (w : Warp) =>
        let fl := ((w.outst.find? (fun (x : Outst) => x.kind == OutKind.palette o.id)).bind (fun (x : Outst) => x.flag)).getD 12
        { w with acc := w.acc ++ [t], accTiles := w.accTiles ++ [run.foldl (fun a n => a + 2 ^ n) 0],
                 accFlags := w.accFlags ++ [fl] })
  s.updGroup g.id (fun g => g.palDone o)

/-- AREAD (R280). -/
def State.doRead (s : State) (g : Group) (o : PalOp) (tile row col d : Nat) (m : Mask) : State :=
  let t := g.tile tile
  let v (k : Nat) : Word :=
    if row < 64 then tget 0 t.elems (elemKey row (col + k))
    else if row = 256 then tget 0 t.chk (col + k)
    else if row = 257 then tget 0 t.obs (col + k)
    else tget 0 t.xc (col + k)
  (s.updWarp g.id o.warp (fun w => w.writeVs d m v)).updGroup g.id (fun g => g.palDone o)

/-- An accepted operation is performed (R261). -/
def State.perfOp (s : State) (g : Group) (o : PalOp) : State :=
  match o.kind with
  | .build p sh kb mask => s.doBuild g o p sh kb mask
  | .look p t _ sh k col rows sat rb => s.doLook g o p t sh k col rows sat rb
  | .spill p _ => (s.writeParts g.unitAgent (o.rows.headD []) (palImage (g.pal p))).updGroup g.id (fun g => g.palDone o)
  | .fill p _ d => s.doFill g o p d
  | .zero t _ h i => s.updGroup g.id (fun g => (g.mapTiles (runTiles t h) (fun x => (x.clear i).bump)).palDone o)
  | .load t _ sh => s.doLoad g o t sh
  | .read t _ row col d m => s.doRead g o t row col d m
  | .drain t _ sh z word => s.doDrain g o t sh z word
  | .inv p => s.updGroup g.id (fun g => (g.setPal p { g.pal p with valid := false }).palDone o)
  | .copy _ _ _ _ => s

/-- An operation's time in the unit is not over, or it would meet a page whose bias is flipping: it stalls (R275, R343). -/
def State.opStalls (s : State) (o : PalOp) : Bool := s.timer < o.due || o.rows.any (fun l => l.any (fun p => (s.inFlip p).isSome))

/-- PALETTE_OP_PERFORM (R261, R282): an accepted operation whose versions are there and whose turn it is. -/
def execPaletteOpPerform (gid op : Nat) (s : State) : Host.Outcome State Fault Refusal :=
  match s.group? gid with
  | none => .next s
  | some g => match g.palOps.find? (fun o => o.id == op) with
    | none => .next s
    | some o => if g.palReady o && !s.opStalls o then .next (s.perfOp g o) else .next s

/-- BCAST_COPY_INSTALL (R260, R271): a copy replaces the receiver's palette; the last one completes the PBUILD. -/
def execBcastCopyInstall (gid op : Nat) (s : State) : Host.Outcome State Fault Refusal :=
  match s.group? gid with
  | none => .next s
  | some g => match g.palOps.find? (fun o => o.id == op) with
    | none => .next s
    | some o => match o.kind with
      | .copy p x owner b =>
        if g.copyReady o then
          let s := s.updGroup gid (fun g => (g.setPal p { x with valid := x.valid && !o.dirty }).palDone o)
          .next (s.updGroup owner (fun r => match r.palOps.find? (fun e => e.id == b) with
            | some e =>
              let e' := { e with copies := e.copies.filter (· != gid) }
              if e'.copies.isEmpty then (if (r.pal p).valid then r else r.staleBehind p b).palDone e
              else { r with palOps := r.palOps.map (fun (y : PalOp) => if y.id = b then e' else y) }
            | none => r))
        else .next s
      | _ => .next s

end Sys2Proof.Machine
end

