-- ==== Sys2Proof/Machine/System.lean ====
section
/-! DEFINITION. Task, engine and system instructions (R284 to R309), and the events that end their waits. -/
namespace Sys2Proof.Machine

/-- Low 32 bits of a uniform operand. -/
def u32 (v : DWord) : Nat := v.toNat % 2 ^ 32
/-- A record read at issue under orders 1, 2, 5 and 7 of R218 (R287, R293). -/
def Rdy.block256 (r : Rdy) (s : State) (att ptr n : Nat) (k : State → Rdy → List Byte → State) : State :=
  match r.i.accessFrom s r.word att r.act ⟨wantLoad (some r.i.w.pkr), false, none⟩ [⟨r.low, ptr, n⟩] with
  | .stop s => s
  | .go s i l =>
    let (gs, s) := s.readAll (i.mmu s) false false l
    k s { r with i := i } ((gs.map (fun g => g.bytes)).flatten)

/-! ## Spawning (R287 to R289) -/

/-- Generations of the unfinished grids of a context on this package (R289, R364). -/
def State.gensHeld (s : State) (ctx : Nat) : List Word :=
  (s.grids.filter (fun d => d.ctx == ctx && !d.done)).map (fun d => d.gen)
/-- The first of a run of values that is not in a list. -/
def firstFree (l : List Word) (v : Word) : Nat → Word
  | 0 => v
  | n + 1 => if l.contains v then firstFree l (v + 1) n else v
/-- The generation of a child or watch task: a free value that no unfinished grid of the context holds (R289, log 2). -/
def State.pickGen (s : State) (ctx : Nat) : Word :=
  let l := s.gensHeld ctx
  firstFree l (Config.freeWord s.free) (l.length + 1)
/-- Pending tasks that a die holds (R289). -/
def taskCap : Nat := 1024
/-- Groups of a packet's whole grid (R17). -/
def gridGroups (p : BitVec 1024) : Nat := pfld p 320 31 * pfld p 352 16 * pfld p 368 16
/-- The grid of an accepted task: a grid of its own, on this package (R19, R289, R366). -/
def State.taskGrid (s : State) (t : Task) : Grid :=
  { id := t.id, pkt := t.pkt, wins := t.wins, ctx := t.ctx, queue := none, origin := s.pkg, gen := s.pickGen t.ctx,
    depth := t.depth, root := t.root, prio := min (pfld t.pkt 570 2) t.maxp, accepted := s.nextId, phase := .placing,
    last := gridGroups t.pkt, next := 0, waitSince := s.timer, blocking := false, relaunch := [], tstart := 0,
    counts := [], crossed := [], kill := none, status := none, dropped := false, gbDone := 0,
    gbNext := none, gbSent := false, lastEnd := 0, armed := [], dones := [], done := false, maxp := t.maxp }

/-- SPAWN (R287, R288). -/
def execSpawn (f : SysF) (s : State) : Host.Outcome State Fault Refusal :=
  s.issue (.spawn f) (fun s r =>
    let ptr := (r.a r.low).toNat
    let att := f.att.toNat
    if r.act = 0 then r.done s
    else if ptr / 2 ^ 56 != 0 || 2 ^ 56 < ptr + 128 then r.fault s causeAperture ptr
    else if ptr % 64 != 0 then r.fault s causeMisalign ptr
    else r.block256 s att ptr 128 (fun s r b =>
      let p : BitVec 1024 := BitVec.ofNat 1024 (leVal b)
      let go (s : State) (r : Rdy) (w : BitVec 1024) : State :=
        match s.grid? r.i.g.grid with
        | none => r.done s
        | some d =>
          if 7 ≤ d.depth then r.fault s causeSpawnDepth 7
          else if taskBad s.pkg (pfld d.pkt 574 1 == 1) p w then r.fault s causeShape (7 * 2 ^ 24 + ptr % 2 ^ 24)
          else
            let s := s.mergeRelease r.i.g.core 5
            let t : Task := { id := s.nextId, die := dieOf r.i.g.core, pkt := p, wins := w, ctx := d.ctx, depth := d.depth + 1,
                              root := d.root, maxp := d.maxp, watch := none, addr := BitVec.ofNat 64 ptr, unread := false,
                              accepted := false, held := (s.ctx d.ctx).hold }
            let s := ({ s with tasks := s.tasks ++ [t] }).fresh
            r.done (r.i.outst s att (.task t.id))
      if !cwtRead p then go s r 0
      else if cwtOf p / 2 ^ 56 != 0 then r.fault s causeAperture (cwtOf p)
      else r.block256 s att (cwtOf p) 128 (fun s r c => go s r (BitVec.ofNat 1024 (leVal c)))))

/-- The instruction that waits for something completes its wait: its effects are made (R127). -/
def State.settle (s : State) (k : OutKind) : State :=
  { s with groups := s.groups.map (fun (g : Group) => { g with warps := g.warps.map (fun (w : Warp) =>
      { w with outst := (w.outst.map (fun (x : Outst) => if x.kind = k then { x with kind := .free } else x)).filter
                 (fun x => !(x.kind == .free && x.flag.isNone)) }) }) }

/-! ## Registers (R290 to R292) -/

/-- GIVE (R290): the gate has seen every outstanding write of the registers given land. -/
def execGive (f : Rk) (s : State) : Host.Outcome State Fault Refusal :=
  s.issue (.give f) (fun s r =>
    let n := u32 (r.a r.low)
    let a := r.i.w.av
    if r.act = 0 then r.done s
    else if n % 8 != 0 || n < 8 || a < n + 8 then r.fault s causeIllop n
    else
      let s := r.i.upd s (fun w => { w with av := a - n, vregs := tdelRange w.vregs (32 * (a - n)) (32 * n) })
      r.done (r.i.updG s (fun g => ({ g with pool := g.pool + n } : Group).tryClaims)))
/-- CLAIM (R291): met at once, or the sub-group blocks behind the group's earlier blocked claims. -/
def execClaim (f : Rk) (s : State) : Host.Outcome State Fault Refusal :=
  s.issue (.claim f) (fun s r =>
    let n := u32 (r.a r.low)
    if r.act = 0 then r.done s
    else if n % 8 != 0 || n < 8 || 256 < r.i.w.av + n then r.fault s causeIllop n
    else if r.i.g.claims.isEmpty && n ≤ r.i.g.pool then
      r.done (r.i.updG s (fun g => { g.updWarp r.i.w.idx (fun w => w.grow n) with pool := g.pool - n }))
    else
      let s := r.leaveAs s [⟨r.i.u.lanes, r.i.u.pc, some r.i.c.head, r.i.u.loop, .claim n r.word⟩]
      s.updGroup r.i.g.id (fun g => { g with claims := g.claims ++ [(r.i.w.idx, r.i.u.id, n)] }))

/-- Lanes of a set that a word's guard selects. -/
def Warp.guarded (w : Warp) (m : Mask) (word : Nat) : Mask :=
  match decode word with
  | .ok i =>
    let k := w.readK i.enc.guard.g.toNat
    m &&& (if i.enc.guard.neg then ~~~k else k)
  | .error _ => m
/-- Every warp of the group that has not exited is blocked in CLAIM, and none in another way (R23). -/
def Group.claimDead (g : Group) : Bool :=
  !g.liveWarps.isEmpty && g.liveWarps.all (fun w => !w.inh && !w.stopped && w.subs.all (fun u => match u.st with
    | .claim _ _ => u.pend.isNone
    | _ => false))
/-- CLAIMDL (R23): each such warp traps once, at the claim of it that blocked first, which leaves the order. A claim that then
stands first and fits the pool is met (R22). -/
def execClaimdl (gid : Nat) (s : State) : Host.Outcome State Fault Refusal :=
  match s.group? gid with
  | none => .next s
  | some g =>
    if !g.claimDead then .next s
    else
      let first := g.liveWarps.filterMap (fun w => g.claims.find? (fun c => c.1 == w.idx))
      let s := s.updGroup gid (fun g => { g with claims := g.claims.filter (fun c => !first.contains c) })
      let s := first.foldl (fun (s : State) c =>
        match s.warp? gid c.1, s.sub? gid c.1 c.2.1 with
        | some w, some u => match u.st with
          | .claim n word =>
            let t : TrapRec := ⟨BitVec.ofNat 8 causeClaimDl, u.pc, BitVec.ofNat 64 word, w.guarded u.lanes word, BitVec.ofNat 64 n, u.mid⟩
            (s.updSub gid c.1 u.id (fun u => { u with st := .ready })).raise gid c.1 u.id t
          | _ => s
        | _, _ => s) s
      .next (s.updGroup gid Group.tryClaims)

/-! ## Engine jobs (R293) -/

/-- EJOB (R293). -/
def execEjob (f : SysF) (s : State) : Host.Outcome State Fault Refusal :=
  s.issue (.ejob f) (fun s r =>
    let ptr := (r.a r.low).toNat
    let top := ptr / 2 ^ 56
    if r.act = 0 then r.done s
    else if !(top == 0 || top == 0xF0) || s.locate r.i.g r.i.w.idx r.low ptr 256 == .bad then r.fault s causeAperture ptr
    else if ptr % 64 != 0 then r.fault s causeMisalign ptr
    else r.block256 s f.att.toNat ptr 256 (fun s r b =>
      let c : BitVec 2048 := BitVec.ofNat 2048 (leVal b)
      r.done (r.issueJob s (cfld c 0 4) f.d.toNat f.att.toNat c false (cardBad c))))

/-! ## Control and status registers (R299 to R302) -/

/-- Register of a cluster's management block (R419). -/
def clusterReg (cluster o : Nat) : Nat := 0x500000 + 0x1000 * cluster + o
/-- The ceiling of a core's ratio in eighths from every source of R420 but the controller's choice: heat class, RCAP,
notices, caps, reduced service. -/
def State.ratioCeil (s : State) (core : Nat) : Nat :=
  let l := s.groups.filter (fun g => g.core == core && !g.ended)
  let lows := ((s.pw.slow ++ s.pw.caps).filter (fun x => l.any (fun g => s.ctxOf g == x.2.1))).map (fun x => x.2.2)
  let base := if s.bu.phase = 4 then 4 else if l.any (fun g => pfld (s.pktOf g) 568 2 == 2) then 10 else 8
  max 4 (lows.foldl min (min base (min 10 (s.barFld (clusterReg (clusterOf core) 0x18) 0 4))))
/-- Controller's choice of a core's ratio; 10 restrains nothing (R421). -/
def State.ratioPick (s : State) (core : Nat) : Nat := tget 10 s.pw.ratio core
/-- Slice clock ratio of a core in eighths (R40, R420). -/
def State.ratio (s : State) (core : Nat) : Nat := max 4 (min (s.ratioPick core) (s.ratioCeil core))
/-- Floor of a cluster's pass count from every source of R420 but the controller's choice: PFLOOR, a droop hold, an
emergency. -/
def State.passFloor (s : State) (cluster : Nat) : Nat :=
  let f := s.barFld (clusterReg cluster 0x18) 4 3
  let f := if f = 2 || f = 4 then f else 1
  let f := match tfind s.pw.droop cluster with
    | some (.hold _) => max f 2
    | some (.stretch _ _ _ true) => max f 2
    | _ => f
  if s.barFld (clusterReg cluster 8) 3 1 = 1 then max f 4 else f
/-- Pass count of a cluster (R39, R420). -/
def State.passes (s : State) (cluster : Nat) : Nat := max (tget 1 s.pw.passes cluster) (s.passFloor cluster)
/-- Some quad of a core is inside a clause. -/
def State.runsClause (s : State) (core : Nat) : Bool := (List.range 4).any (fun k => (s.quad (4 * core + k)).run.isSome)
/-- Ratio at which a core's slice clock runs: a change takes effect at its next clause boundary (R38, R420). -/
def State.clock (s : State) (core : Nat) : Nat :=
  if s.runsClause core then (tfind s.clocks core).getD (s.ratio core) else s.ratio core
/-- Pass count that a quad issues with: inside a clause, the one adopted at its boundary (R38, R340). -/
def State.passesOn (s : State) (q : Nat) : Nat :=
  if (s.quad q).run.isSome then (s.quad q).passes else s.passes (clusterOf (q / 4))
/-- A clause starts on a quad: the core's ratio and the quad's pass count are those in force (R38). -/
def State.adopt (s : State) (q : Nat) (gid w : Nat) : State :=
  { s.setQuad q { s.quad q with run := some (gid, w), skip := none, stall := none, passes := s.passes (clusterOf (q / 4)) } with
    clocks := tins s.clocks (q / 4) (s.ratio (q / 4)) }
/-- Stretched cycles that a core has still to make, and the ratio they are made at (R340). -/
def State.stretchLeft (s : State) (core : Nat) : Nat × Nat :=
  match tfind s.pw.droop (clusterOf core) with
  | some (.stretch l r _ _) => (tget 0 l (core % 6), tget 8 r (core % 6))
  | _ => (0, 8)
/-- What n ticks of the device timer give a core: stretched edges, edges in all, and the rest of a period. One tick is 7/32
of an edge for each eighth of the ratio, and a stretched cycle spans two periods, at the ratio of its alarm (R40, R340, R341). -/
def edgesOf (rest ratio : Nat) (left : Nat × Nat) (n : Nat) : Nat × Nat × Nat :=
  if left.1 = 0 then (0, (rest + n * 7 * ratio) / 32, (rest + n * 7 * ratio) % 32)
  else
    let u := rest + n * 7 * left.2
    if u < 64 * left.1 then (u / 64, u / 64, u % 64)
    else
      let v := (u - 64 * left.1) * ratio / left.2
      (left.1, left.1 + v / 32, v % 32)
/-- Ticks until a core has made n more edges of its slice clock (R39, R40). -/
def State.passNs (s : State) (core n : Nat) : Nat :=
  let rest := tget 0 s.edges core
  let r := s.clock core
  let l := s.stretchLeft core
  if n ≤ l.1 then cdiv (64 * n - rest) (7 * l.2)
  else cdiv ((64 * l.1) * r + 32 * (n - l.1) * l.2 - rest * (if l.1 = 0 then l.2 else r)) (7 * l.2 * r)
/-- Nanoseconds of n slice cycles of a core, rounded up (R40). -/
def State.sliceNs (s : State) (core n : Nat) : Nat := cdiv (n * 32) (7 * s.clock core)
/-- `heat` (R42). -/
def heatWord (s : State) (g : Group) : Nat :=
  s.clock g.core * 2 ^ 8 + (match g.lent with | some p => p % 6 * 2 ^ 4 + 8 | none => 0)
    + (if isLit g.core then 4 else 0) + pfld (s.pktOf g) 568 2
/-- `lcfg` (R145). -/
def lcfgWord (l : LoopState) : Nat :=
  l.active.toNat * 2 ^ 24 + ([0, 1, 2].foldl (fun a k =>
    if l.active.getLsbD k then a + (((l.stop.getD k 0).toNat - (l.start.getD k 0).toNat) / 8 - 1) % 256 * 2 ^ (8 * k) else a) 0)
/-- `ooo` as a warp reads it (R37). -/
def oooWord (g : Group) (w : Warp) : Nat :=
  min w.locks 65535 * 2 ^ 16 + w.rieCause * 2 ^ 8 + (if w.inRie then 4 else 0) + g.mode
/-- A CSR as the issuing sub-group reads it (R300). -/
def Iss.csr (i : Iss) (s : State) (n : Nat) : Word :=
  let lo (v : DWord) : Word := v.setWidth 32
  let hi (v : DWord) : Word := (v >>> 32).setWidth 32
  let w := i.w
  match n with
  | 0x000 => w.fpmode
  | 0x001 => w.fpflags
  | 0x010 => lo w.tvec
  | 0x011 => hi w.tvec
  | 0x012 => (if w.inh then 0x100 else 0) ||| w.tcause.setWidth 32
  | 0x013 => lo w.tpc
  | 0x014 => hi w.tpc
  | 0x015 => lo w.tinst
  | 0x016 => hi w.tinst
  | 0x017 => w.tmask
  | 0x018 => lo w.tval
  | 0x019 => hi w.tval
  | 0x020 => lo w.pkr
  | 0x021 => hi w.pkr
  | 0x030 => BitVec.ofNat 32 (oooWord i.g w)
  | 0x031 => BitVec.ofNat 32 (heatWord s i.g)
  | 0x032 => BitVec.ofNat 32 (s.passesOn i.q)
  | 0x033 => i.g.clkc
  | _ => BitVec.ofNat 32 (lcfgWord i.u.loop)
/-- CSRRD (R299). -/
def execCsrrd (f : SysF) (s : State) : Host.Outcome State Fault Refusal :=
  s.issue (.csrrd f) (fun s r => r.done (r.putS s f.d.toNat (r.i.csr s f.num.toNat)))

/-- Defined bits of `fpmode` (R94). -/
def fpmodeMask : Word := 0x1F1F
def setLo (v : DWord) (x : Word) : DWord := (v >>> 32).setWidth 32 ++ x
def setHi (v : DWord) (x : Word) : DWord := x ++ v.setWidth 32
/-- A CSR written by the issuing warp (R299): RW fields are set, W1C bits cleared, others kept. -/
def Iss.setCsr (i : Iss) (s : State) (n : Nat) (v : Word) : State :=
  match n with
  | 0x000 => i.upd s (fun w => { w with fpmode := v &&& fpmodeMask })
  | 0x001 => i.upd s (fun w => { w with fpflags := w.fpflags &&& ~~~v })
  | 0x010 => i.upd s (fun w => { w with tvec := setLo w.tvec v })
  | 0x011 => i.upd s (fun w => { w with tvec := setHi w.tvec v })
  | 0x013 => i.upd s (fun w => { w with tpc := setLo w.tpc v })
  | 0x014 => i.upd s (fun w => { w with tpc := setHi w.tpc v })
  | 0x030 =>
    if fld v.toNat 0 2 = 3 then s
    else
      let s := i.updG s (fun g => { g with ooo := v.setWidth 2 })
      if fld v.toNat 0 2 = 1 then s.demoteAll i.g else s
  | 0x033 => i.updG s (fun g => { g with clkc := v })
  | _ => s
/-- CSRWR (R299). -/
def execCsrwr (f : SysF) (s : State) : Host.Outcome State Fault Refusal :=
  s.issue (.csrwr f) (fun s r =>
    if r.act = 0 then r.done s else r.done (r.i.setCsr s f.num.toNat ((r.a r.low).setWidth 32)))

/-- `pkr` with the two bits of a key set (R302, R303). -/
def setKey (p : DWord) (k b : Nat) : DWord := dset p (2 * k) 2 b
/-- PKRWR (R303). -/
def execPkrwr (f : Rk) (s : State) : Host.Outcome State Fault Refusal :=
  s.issue (.pkrwr f) (fun s r =>
    let k := u32 (r.a r.low)
    let b := u32 (r.b r.low)
    if r.act = 0 then r.done s
    else if 31 < k then r.fault s causeIllop k
    else if 3 < b then r.fault s causeIllop b
    else r.done (r.i.upd s (fun w => { w with pkr := setKey w.pkr k b })))

/-! ## Time, counters and sleep (R304 to R306) -/

/-- When the passes of the word that a quad issued last are over (R39). -/
def State.doneAt (s : State) (q : Nat) : DWord := BitVec.ofNat 64 (max s.timer (s.quad q).next)
/-- TSTAMP (R304): the timer is read when its last pass is over, so that a `clkc` read next is of the same instant (R341, log 120). -/
def execTstamp (f : Rk) (s : State) : Host.Outcome State Fault Refusal :=
  s.issue (.tstamp f) (fun s r => r.done (r.putSPair s f.dn (s.doneAt r.i.q)))
/-- Counter n of R305. Of the instructions issued, those still outstanding have not completed (R127). -/
def perfVal (g : Group) (w : Warp) (n : Nat) : DWord :=
  if [7, 8, 9, 11].contains n then tget 0 g.perf n
  else if n = 1 then tget 0 w.perf 1 - BitVec.ofNat 64 (w.outst.filter (fun o => match o.kind with | .parked _ => false | _ => true)).length
  else tget 0 w.perf n
/-- PERFRD (R305). -/
def execPerfrd (f : SysF) (s : State) : Host.Outcome State Fault Refusal :=
  s.issue (.perfrd f) (fun s r =>
    r.done (r.i.outst (r.putSPair s f.d.toNat (perfVal r.i.g r.i.w f.num.toNat)) f.att.toNat .free))
/-- SLEEP (R306). -/
def execSleep (f : Rk) (s : State) : Host.Outcome State Fault Refusal :=
  s.issue (.sleep f) (fun s r =>
    let n := u32 (r.a r.low)
    if r.act = 0 then r.done s
    else if n = 0 then
      let s := r.yielded s
      s.setQuad r.i.q { s.quad r.i.q with skip := some (r.i.g.id, r.i.w.idx) }
    else r.leaveAs s [{ r.i.fallPart r.i.u.lanes with st := .sleep (s.timer + n) }])
/-- SLEEP_EXPIRY (R306). -/
def execSleepExpiry (gid w sub : Nat) (s : State) : Host.Outcome State Fault Refusal :=
  match s.sub? gid w sub with
  | none => .next s
  | some u => match u.st with
    | .sleep d => if d ≤ s.timer then .next (s.updSub gid w sub (fun u => { u with st := .ready })) else .next s
    | _ => .next s

/-! ## Code, bias and halt (R307 to R309) -/

/-- Key of an instruction cache word: the core and the physical address. -/
def icKey (core pa : Nat) : Nat := core * 2 ^ 64 + pa
/-- ICINV (R307). -/
def execIcinv (f : SysF) (s : State) : Host.Outcome State Fault Refusal :=
  s.issue (.icinv f) (fun s r =>
    let ptr := (r.a r.low).toNat
    let core := r.i.g.core
    let fin (s : State) : State := r.done (r.i.outst s f.att.toNat .free)
    if r.act = 0 then r.done s
    else match f.a with
    | .s _ =>
      if ptr / 2 ^ 56 != 0 then r.fault s causeAperture ptr
      else match s.resolve (r.i.mmu s) wantAny ptr with
        | (.ok x, s) => fin { s with icache := tdelRange s.icache (icKey core (x.pa / 128 * 128)) 128 }
        | (.stall page, s) => r.i.awaitFlip s page
        | (_, s) => fin s
    | _ => fin { s with icache := tdelRange s.icache (icKey core 0) (2 ^ 64) })

/-- Steps 1 to 3 of a flip (R83, R344): reductions of the page merge, registered words and dirty copies return, and
toward device bias the host is snooped in sixteen blocks. The fault records and telemetry of the device wait too. -/
def State.startFlip (s : State) (page : Nat) (host : Bool) : State :=
  let pa := 4096 * page
  let s := (s.mergeAt pa 4096).dropAllL1At pa 4096
  let s := { s with owner := tdelRange s.owner (pa / 4) 1024, dir := tdelRange s.dir (pa / 128) 32,
                    bridge := s.bridge.filter (fun e => e.1 % 2 ^ 46 / 64 != page),
                    flips := s.flips ++ [⟨page, host, if host then [] else List.range 16, []⟩] }
  if host then s else (List.range 16).foldl (fun (s : State) k => s.send (.biSnoop (pa + 256 * k))) s
/-- BIAS (R308). -/
def execBias (f : SysF) (s : State) : Host.Outcome State Fault Refusal :=
  s.issue (.bias f) (fun s r =>
    let ptr := (r.a r.low).toNat
    if r.act = 0 then r.done s
    else if ptr / 2 ^ 56 != 0 then r.fault s causeAperture ptr
    else if ptr % 4096 != 0 then r.fault s causeMisalign ptr
    else match r.i.accessFrom s r.word f.att.toNat r.act ⟨wantAny, false, none⟩ [⟨r.low, ptr, 4096⟩] with
    | .stop s => s
    | .go s i l =>
      let r := { r with i := i }
      match (l.flatMap (fun q => q.xs)).head? with
      | none => r.done s
      | some x =>
        if !isOwn x.pa then r.fault s causeProt ptr
        else if thas s.bias (x.pa / 4096) == f.host then r.done (i.outst s f.att.toNat .free)
        else r.done (i.outst (s.startFlip (x.pa / 4096) f.host) f.att.toNat (.flip (x.pa / 4096))))
/-- HALT (R309): the warp starts no further clause, and the driver learns where the sub-group will resume (R380). -/
def execHalt (f : Rk) (s : State) : Host.Outcome State Fault Refusal :=
  s.issue (.halt f) (fun s r =>
    if r.act = 0 then r.done s
    else
      let s := s.reportStop r.i.g 0 (loopTest r.i.u.loop r.i.succ).1 r.i.u.pc
      r.done (r.i.upd s (fun w => { w with stopped := true })))

/-! ## Completion (R127) -/

/-- LONG_LATENCY_COMPLETION (R127): an outstanding instruction whose effects are all made completes. -/
def execLongLatencyCompletion (gid w idx : Nat) (s : State) : Host.Outcome State Fault Refusal :=
  .next (s.updWarp gid w (fun (x : Warp) => { x with outst := x.outst.filter (fun (o : Outst) => !(o.id == idx && o.kind == .free)) }))

end Sys2Proof.Machine
end

