-- ==== Sys2Proof/Machine/Issue.lean ====
section
/-! DEFINITION. Issue: fetching clauses, choosing and starting them, their words, pending traps, and the end of warps and
groups (R12, R28 to R31, R62, R120 to R128, R235, R260, R261, R310, R377, R384, R434). -/
namespace Sys2Proof.Machine

/-! ## Fetch -/

/-- The cores of a die that is released for service and not held in reset issue (R408, R412, R423). -/
def State.coreRuns (s : State) (core : Nat) : Bool := s.bu.dieRun.getLsbD (dieOf core) && !s.bu.tripped
def wantFetch : Want := ⟨false, false, true, none, fun _ => true⟩

/-- A fetched word, or why there is none (R377, R225). -/
inductive Fetched
  | ok (w : Nat)
  | prot
  | poisoned
  | absent (level : Nat)
  | stall
deriving DecidableEq, Repr

/-- Fetches the word at a virtual address: through the core's instruction cache, which ICINV alone empties (R307). -/
def State.fetchWord (s : State) (g : Group) (va : Nat) : Fetched × State :=
  let m := s.mmuOf g
  if va / 2 ^ 56 != 0 then (.prot, s)
  else match s.resolve m wantFetch va with
    | (.absent l, s) => (.absent l, s)
    | (.stall _, s) => (.stall, s)
    | (.ok x, s) =>
      if (s.inFlip (.phys x.pa false, 8)).isSome then (.stall, s)
      else match tfind s.icache (icKey g.core x.pa) with
        | some w => (.ok w.toNat, s.touch m x false)
        | none =>
          let (b, s) := (s.touch m x false).readPoint ⟨none, dieOf g.core, false⟩ x.pa 8
          if b.bad then (.poisoned, s)
          else (.ok (leVal b.bytes), { s with icache := tins s.icache (icKey g.core x.pa) (BitVec.ofNat 64 (leVal b.bytes)) })
    | (_, s) => (.prot, s)

/-- A fetched clause, or what its fetch ends in. -/
inductive Fetch
  | ok (head : DWord) (h : Header) (word : Nat) (words : List Nat)
  | park (va level : Nat)
  | trap (cause val inst : Nat)
  | stall
deriving DecidableEq, Repr

/-- A word that was not fetched, at an address. -/
def Fetched.fail (f : Fetched) (va : Nat) : Fetch :=
  match f with
  | .absent l => .park va l
  | .poisoned => .trap causeEccUe va 0
  | .stall => .stall
  | _ => .trap causeProt va 0
/-- The words of a clause after its header, in order. -/
def State.fetchRest (g : Group) (head : DWord) (h : Header) (word : Nat) : Nat → Nat → List Nat → State → Fetch × State
  | 0, _, l, s => (.ok head h word l, s)
  | n + 1, va, l, s => match s.fetchWord g va with
    | (.ok w, s) => State.fetchRest g head h word n (va + 8) (l ++ [w]) s
    | (f, s) => (f.fail va, s)
/-- The clause whose header stands at an address (R120, R122). -/
def State.fetchAt (s : State) (g : Group) (head : DWord) : Fetch × State :=
  let va := head.toNat
  if va % 8 != 0 || va / 2 ^ 56 != 0 then (.trap causeIllcl 0 0, s)
  else match s.fetchWord g va with
    | (.ok w, s) => match decodeHeader w with
      | none => (.trap causeIllcl 0 w, s)
      | some h => s.fetchRest g head h w h.count (va + 8) []
    | (f, s) => (f.fail va, s)
/-- An address is an instruction of the clause. -/
def inClause (head : DWord) (h : Header) (pc : DWord) : Bool :=
  head.toNat < pc.toNat && pc.toNat ≤ head.toNat + 8 * h.count && (pc.toNat - head.toNat) % 8 == 0
/-- A clause starts inside the body of an active loop and ends after the body (R141). -/
def SubGroup.overruns (u : SubGroup) (head : DWord) (h : Header) : Bool :=
  [0, 1, 2].any (fun l => u.loop.active.getLsbD l && (u.loop.start.getD l 0).toNat ≤ head.toNat
    && head.toNat < (u.loop.stop.getD l 0).toNat && (u.loop.stop.getD l 0).toNat < head.toNat + 8 * (h.count + 1))
/-- The clause whose header is a sub-group's PC. -/
def State.fetchHead (s : State) (g : Group) (u : SubGroup) : Fetch × State :=
  match s.fetchAt g u.pc with
  | (.ok head h w l, s') => if u.overruns head h then (.trap causeIllcl 0 w, s') else (.ok head h w l, s')
  | r => r
/-- The next clause of a sub-group: the clause its PC stands inside, if it does, else the one whose header is its PC
(R126, R313). The header at which its fetch fails comes first. -/
def State.fetchClause (s : State) (g : Group) (u : SubGroup) : DWord × Fetch × State :=
  match u.mid with
  | none => (u.pc, s.fetchHead g u)
  | some h => match s.fetchAt g h with
    | (.ok hd d w l, s') => if inClause hd d u.pc then (h, .ok hd d w l, s') else (u.pc, s.fetchHead g u)
    | (.trap c v i, s') => if c = causeIllcl then (u.pc, s.fetchHead g u) else (h, .trap c v i, s')
    | r => (h, r)

/-! ## Start conditions (R125, R128, R235, R260, R261) -/

/-- The instructions of a list of words that decode. -/
def insOf (l : List Nat) : List Instr := l.filterMap (fun w => match decode w with | .ok i => some i | .error _ => none)
/-- Words of a started clause that have not issued. -/
def restOf (u : SubGroup) : List Nat :=
  match u.run with
  | some c => c.words.drop ((u.pc.toNat - c.head.toNat) / 8 - 1)
  | none => []
def Instr.isJob (i : Instr) : Bool :=
  match i.enc with
  | .acopy _ => true
  | .sys op _ => op == 0xE3
  | _ => false
/-- The palette an instruction is a writer of (R260). -/
def palWriter (i : Instr) : Option Nat :=
  match i.enc with
  | .pal op f => if op == 0xD0 || op == 0xD5 then some f.p.toNat else none
  | .plook f => if f.rebuild then some f.p.toNat else none
  | _ => none

/-- Scalar registers an instruction writes. -/
def scalarDst (i : Instr) : List Nat := i.enc.dstUses.flatMap RegUse.scalars
/-- What the sources of a clause are read from at its start: the group, the warp, the sub-group, its header, and the queue
values it reserved where it has started. -/
structure AtStart where
  g : Group
  w : Warp
  u : SubGroup
  h : Header
  pops : Option (List (Nat × List Word))
/-- An instruction of a list writes predicate n. -/
def writesK (l : List Instr) (n : Nat) : Bool :=
  l.any (fun i => match i.enc with
    | .rk op f => (rkFormOf op).map Form.d == some .pred && f.d.toNat == n
    | _ => false)
/-- The next value of queue q after k pops of it: one reserved by the started clause, or one at the head of the queue. -/
def AtStart.queueVal (x : AtStart) (q k : Nat) : Option Nat :=
  match x.pops with
  | some l => (((l.lookup q).getD [])[k]?).map BitVec.toNat
  | none => ((tget emptyQueue x.g.queues q).heads[k]?).bind (fun e => e.val.map BitVec.toNat)
/-- A uniform source of an instruction as it is known at the clause start, behind the instructions `before` of its clause,
and the first `k` of its own sources (R261). -/
def State.knownSrc (s : State) (x : AtStart) (before : List Instr) (i : Instr) (k : Nat) (a : Src) : Option Nat :=
  match a with
  | .imm n => some ((n.signExtend 32).toNat)
  | .lit => some x.h.lit.toNat
  | .s n => if before.any (fun i => (scalarDst i).contains n.toNat) || (match tfind x.w.tokens n.toNat with | some t => !t.landed | none => false)
      then none else some (x.w.readS n.toNat).toNat
  | .k n => if writesK before n.toNat then none else some (x.w.readK n.toNat).toNat
  | .sp n =>
    let gd := i.enc.guard
    if n = 0 && writesK before gd.g.toNat then none
    else
      let p := x.w.readK gd.g.toNat
      some (s.special x.g x.w n.toNat (lowLane (x.u.lanes &&& (if gd.neg then ~~~p else p))) % 2 ^ 32)
  | .q n => x.queueVal n.toNat (((before.flatMap (fun j => j.enc.pops)).count n.toNat)
      + ((i.enc.opds.take k).filter (fun o => match o.src with | .q m => m == n | _ => false)).length)
  | .v _ => none
/-- Rows of the record that an ALOAD or ADRAIN names, as they stand at the clause start. -/
def State.peekRows (s : State) (x : AtStart) (before : List Instr) (i : Instr) (a : Src) : Option Nat :=
  match a with
  | .s n =>
    match s.knownSrc x before i 0 (.s n), s.knownSrc x before i 0 (.s (n + 1)) with
    | some lo, some hi => s.peekShape x.g (lo + 2 ^ 32 * hi)
    | _, _ => none
  | _ => none
/-- Rows that a palette will have after the writers earlier in the clause; none where one of them is a fill or build. -/
def palRowsAt (g : Group) (before : List Instr) (p : Nat) : Option Nat :=
  if before.any (fun i => match i.enc with | .pal op f => (op == 0xD0 || op == 0xD5) && f.p.toNat == p | _ => false) then none
  else some (g.rowsAhead p)
/-- First tile, version operand and rows of a versioned instruction. -/
def State.versioned (s : State) (x : AtStart) (before : List Instr) (i : Instr) : Option (Nat × Option Nat × Option Nat) :=
  match i.enc with
  | .plook f => some (f.n.toNat, s.knownSrc x before i 1 f.b, palRowsAt x.g before f.p.toNat)
  | .pal op f =>
    if op == 0xD6 then some (f.p.toNat, s.knownSrc x before i 1 f.b, s.knownSrc x before i 2 f.c)
    else if op == 0xD7 || op == 0xDA then some (f.p.toNat, s.knownSrc x before i 1 f.b, s.peekRows x before i f.a)
    else if op == 0xD8 && f.mod then some (f.p.toNat, s.knownSrc x before i 1 f.b, some 1)
    else none
  | _ => none
/-- Queue entries that the words of a clause need: the tile, and whether the current version is named (R261). -/
def State.tileNeeds (s : State) (x : AtStart) (rest : List Nat) : List (Nat × Bool) :=
  let g := x.g
  let l := insOf rest
  (List.range l.length).flatMap (fun k => match l[k]? with
    | none => []
    | some i => match s.versioned x (l.take k) i with
      | none => []
      | some (t, v, n) =>
        let n := match n with | some n => if n = 0 || 256 < n then 1 else n | none => 256
        ((runTiles t n).filter (· ≤ 15)).map (fun t => (t, v.map (fun x => x % 2 ^ 16) == some (g.tile t).ver.toNat)))
/-- Entries of a tile's wait queue that are taken: by accepted operations and by started clauses. -/
def State.tileTaken (s : State) (g : Group) (t : Nat) : Nat :=
  (g.palOps.filter (fun o => o.kind.ver.isSome && o.kind.tiles.contains t)).length
    + (g.warps.flatMap (fun w => w.subs.flatMap (fun u => match u.run with
        | some c => match decodeHeader c.word with
          | some h => s.tileNeeds ⟨g, w, u, h, some c.pops⟩ (restOf u)
          | none => []
        | none => []))).countP (fun x => x.1 == t)
/-- Every tile has the entries a clause needs; one is held back for its current version. -/
def State.tilesFree (s : State) (g : Group) (need : List (Nat × Bool)) : Bool :=
  ((need.map (fun x => x.1)).eraseDups).all (fun t =>
    let a := need.countP (fun x => x.1 == t && !x.2)
    let c := need.countP (fun x => x.1 == t && x.2)
    let q := s.tileTaken g t
    a + c + q ≤ 16 && (a == 0 || a + q ≤ 15))

/-- Entries of a core's job port (R235). -/
def portCap : Nat := 8
/-- Job port entries taken or reserved. -/
def State.portTaken (s : State) (core : Nat) : Nat :=
  let mine := s.groups.filter (fun g => g.core == core)
  (s.jobs.filter (fun j => j.st == .queued && mine.any (fun g => g.id == j.gid))).length
    + (mine.flatMap (fun g => g.warps.flatMap (fun w => w.subs.flatMap (fun u => (insOf (restOf u)).filter Instr.isJob)))).length

/-- Queue reservations of a clause (R125): the values taken and the entries reserved, or none if it must wait. -/
def State.reserveQueues (s : State) (g : Group) (w u : Nat) (l : List Instr) : Option (Group × List (Nat × List Word) × List Nat) :=
  let n := pfld (s.pktOf g) 561 4
  let pops := (l.flatMap (fun i => i.enc.pops)).filter (· < n)
  let push := (l.filterMap (fun i => i.enc.push)).filter (· < n)
  let q (k : Nat) : QueueReg := tget emptyQueue g.queues k
  if pops.any (fun k => !((q k).ended || pops.count k ≤ (q k).heads.length))
      || push.any (fun k => queueCap < (q k).entries.length + g.reservedPops k + push.count k) then none
  else
    let x := (pops.eraseDups).foldl (fun (x : Group × List (Nat × List Word)) k =>
      let y := (tget emptyQueue x.1.queues k).take (pops.count k)
      ({ x.1 with queues := tins x.1.queues k y.2 }, x.2 ++ [(k, y.1)])) (g, [])
    let g := (push.eraseDups).foldl (fun (g : Group) k =>
      { g with queues := tins g.queues k ((tget emptyQueue g.queues k).reserve w u (push.count k)) }) x.1
    some (g, x.2, push)

/-! ## Starting a clause -/

/-- What becomes of a sub-group whose turn it is: it waits, its clause starts, or it parks or traps at its header. -/
inductive Start
  | wait
  | go (s : State)
  | other (s : State)

/-- The sub-group parks on a fetch, at the clause header (R377, log 109), and lets the next ready one be active (R12). -/
def State.parkFetch (s : State) (g : Group) (w : Warp) (u : SubGroup) (head : DWord) (va level : Nat) : State :=
  let t : TrapRec := ⟨BitVec.ofNat 8 causePageFault, head, 0, u.lanes, BitVec.ofNat 64 va, none⟩
  let e := { s.faultOf g 1 with addr := BitVec.ofNat 64 va, acc := 3, level := level, pc := head, mask := u.lanes,
                                waiters := [.sub g.id w.idx u.id t] }
  let (s, fid) := s.pushFault e
  s.updWarp g.id w.idx (fun (x : Warp) =>
    { x with active := some u.id, runs := 16 }.updSub u.id (fun u => { u with st := .parked fid }))

/-- A WAIT field names the flag of an outstanding instruction of the warp, or of one that stands unissued in a clause which
another sub-group fetched and left early (R128). -/
def flagWaits (w : Warp) (id : Nat) (h : Header) : Bool :=
  w.outst.any (fun o => match o.flag with | some f => h.wait.getLsbD f | none => false)
    || w.subs.any (fun u => u.id != id && u.owes.any (fun f => h.wait.getLsbD f))
/-- A detected ACCCHK whose ADRAIN is attached to a flag of the WAIT field (R262). -/
def flagAcc (w : Warp) (h : Header) : Option Nat :=
  (List.range w.acc.length).find? (fun k => h.wait.getLsbD (w.accFlags.getD k 12) && w.accFlags.getD k 12 < 12)

/-- One sub-group tries to start its next clause. A fetch that fails is reported at the clause's header, also for a sub-group
that would go on inside it (log 109). -/
def State.tryStart (s : State) (g : Group) (w : Warp) (u : SubGroup) : Start :=
  match s.fetchClause g u with
  | (_, .stall, _) => .wait
  | (hd, .park va l, s) => .other (s.parkFetch g w u hd va l)
  | (hd, .trap c v i, s) => .other (s.raise g.id w.idx u.id ⟨BitVec.ofNat 8 c, hd, BitVec.ofNat 64 i, u.lanes, BitVec.ofNat 64 v, none⟩)
  | (_, .ok head h word words, s) =>
    let mid := u.pc != head
    let l := if mid then words.drop ((u.pc.toNat - head.toNat) / 8 - 1) else words
    let ins := insOf l
    if !mid && flagWaits w u.id h then .wait
    else match (if mid then none else flagAcc w h) with
    | some k => match w.acc[k]? with
      | none => .wait
      | some t => .other ((s.updWarp g.id w.idx (fun w => w.dropAcc k)).raise g.id w.idx u.id { t with tpc := u.pc, tmask := u.lanes, resume := none })
    | none =>
      if ins.any (fun i => match palWriter i with
          | some p => g.palOps.any (fun o => match o.kind.palUse with | some x => x.1 == p | none => false)
          | none => false) then .wait
      else if (let n := (ins.filter Instr.isJob).length
               n != 0 && portCap < s.portTaken g.core + n) then .wait
      else if !s.tilesFree g (s.tileNeeds ⟨g, w, u, h, none⟩ l) then .wait
      else match s.reserveQueues g w.idx u.id ins with
      | none => .wait
      | some (g', pops, push) =>
        let s := s.updGroup g.id (fun x => { x with queues := g'.queues })
        let c : Clause := { head := head, word := word, words := words, pops := pops, pushes := push }
        let s := s.updWarp g.id w.idx (fun (x : Warp) =>
          ({ x with active := some u.id, runs := if x.active = some u.id then x.runs else 0, readyAt := s.timer }.count 0 1).updSub u.id
            (fun u => { u with run := some c, pc := if mid then u.pc else head + 8, mid := none, owes := [] }))
        .go (s.adopt (quadOf g.core w.slot) g.id w.idx)

/-- A sub-group whose turn may come (R12, R310). -/
def SubGroup.mayIssue (u : SubGroup) (inh : Bool) : Bool := u.st == .ready && u.pend.isNone && (!inh || u.handler)
/-- Sub-groups in the order in which R12 tries them. -/
def Warp.turns (w : Warp) : List SubGroup :=
  match w.active with
  | none => w.subs
  | some a =>
    let before := w.subs.takeWhile (fun u => u.id != a)
    match w.subs.dropWhile (fun u => u.id != a) with
    | [] => w.subs
    | x :: after => if w.runs < 16 then x :: (after ++ before) else after ++ before ++ [x]
/-- The warp may start a clause at all: it stands at a clause boundary, is not stopped, has no trap to take first, and no
acquire of it is completing. -/
def State.mayStart (s : State) (g : Group) (w : Warp) : Bool :=
  s.coreRuns g.core && warpLives g w && !w.stopped && !w.acq && !(s.ctx (s.ctxOf g)).saving
    && w.subs.all (fun u => u.run.isNone) && (w.inh || w.subs.all (fun u => u.pend.isNone))
/-- What the ready sub-groups of a warp would do next, in the order in which R12 tries them. -/
def State.readySubs (s : State) (g : Group) (w : Warp) : List Start :=
  w.turns.filterMap (fun u => if u.mayIssue w.inh then (match s.tryStart g w u with | .wait => none | x => some x) else none)
/-- What the warp would do next, if it is ready. A clause counts among the active sub-group's consecutive ones while another
sub-group is ready (R12). -/
def State.nextStart (s : State) (g : Group) (w : Warp) : Option Start :=
  if s.mayStart g w then
    (match s.readySubs g w with
      | .go s' :: r => some (.go (s'.updWarp g.id w.idx (fun (x : Warp) => { x with runs := if r.isEmpty then 0 else x.runs + 1 })))
      | x :: _ => some x
      | [] => none)
  else none

/-- Warps bound to a quad, oldest first (R29, R30). -/
def State.bound (s : State) (q : Nat) : List (Group × Warp) :=
  (s.coreWarps (q / 4)).filter (fun p => p.2.slot % 4 == q % 4 && !p.2.exited)
/-- A lock holder that has received fewer than 8 of the last 64 clause starts (R30, R44). -/
def owed (w : Warp) : Bool := 0 < w.locks && (w.lockWin.filter id).length < 8
/-- Launch priority of a group (R356). -/
def State.prioOf (s : State) (g : Group) : Nat :=
  match s.grid? g.grid with
  | some d => d.prio
  | none => 0
/-- Since when a warp of a quad has been ready without issuing: the warp of the previous clause, since its last word's passes
were over (log 95). -/
def Quad.readySince (x : Quad) (g : Group) (w : Warp) : Nat :=
  if x.prev == some (g.id, w.idx) then max w.readyAt x.next else w.readyAt
/-- The choice of R30 among the ready warps of a quad, listed oldest first. Of several ready warps of the RIE an owed lock
holder goes first (R44), else the one longest ready (R43, log 96). -/
def State.choose (s : State) (q : Nat) (l : List (Group × Warp × Start)) : Option (Group × Warp × Start) :=
  let x := s.quad q
  let iie := l.filter (fun p => !p.2.1.inRie)
  let rie := l.filter (fun p => p.2.1.inRie)
  match iie.find? (fun p => owed p.2.1) with
  | some p => some p
  | none =>
  match iie.find? (fun p => x.readySince p.1 p.2.1 + s.sliceNs p.1.core 512 ≤ s.timer) with
  | some p => some p
  | none =>
  match rie.find? (fun p => owed p.2.1) with
  | some p => some p
  | none =>
  match sortBy (fun a b => x.readySince a.1 a.2.1 ≤ x.readySince b.1 b.2.1) rie with
  | p :: _ => some p
  | [] =>
  match iie.find? (fun p => x.prev == some (p.1.id, p.2.1.idx) && x.skip != some (p.1.id, p.2.1.idx)) with
  | some p => some p
  | none => (sortBy (fun a b => s.prioOf b.1 ≤ s.prioOf a.1) iie).head?
/-- Ready warps of a quad. -/
def State.readyOn (s : State) (q : Nat) : List (Group × Warp × Start) :=
  (s.bound q).filterMap (fun p => (s.nextStart p.1 p.2).map (fun x => (p.1, p.2, x)))
/-- The clause start that is due on a quad at its clause boundary. -/
def State.pick (s : State) (q : Nat) : Option (Group × Warp × Start) :=
  if (s.quad q).run.isSome then none else s.choose q (s.readyOn q)

/-- CLAUSE_START (R125, R30): the warp that R30 chooses on its quad starts its next clause, or parks or traps at its
header. -/
def execClauseStart (gid wi : Nat) (s : State) : Host.Outcome State Fault Refusal :=
  match s.group? gid, s.warp? gid wi with
  | some g, some w =>
    let q := quadOf g.core w.slot
    match s.pick q with
    | some (h, x, st) =>
      if h.id = gid && x.idx = wi then
        let ready := (s.readyOn q).map (fun p => (p.1.id, p.2.1.idx))
        let quad := s.quad q
        let note (s : State) : State := (s.bound q).foldl (fun (s : State) p =>
          if ready.contains (p.1.id, p.2.idx) then s.updWarp p.1.id p.2.idx (fun (w : Warp) =>
            { w with lockWin := (w.lockWin ++ [(p.1.id, p.2.idx) == (gid, wi)]).drop (w.lockWin.length - 63),
                     readyAt := if (p.1.id, p.2.idx) = (gid, wi) then s.timer else quad.readySince p.1 w })
          else s.updWarp p.1.id p.2.idx (fun (w : Warp) => { w with readyAt := s.timer })) s
        match st with
        | .go s => .next (note s)
        | .other s => .next s
        | .wait => .next s
      else .next s
    | none => .next s
  | _, _ => .next s

/-! ## The words of a clause -/

/-- The next word of a quad's clause: nothing to issue, the issue ends before execution, or an instruction. -/
inductive Word1
  | idle
  | stop (s : State)
  | run (i : Instr) (s : State)

/-- A breakpoint stops the warp at the instruction (R314, R384). -/
def Iss.breakAt (i : Iss) (s : State) : State :=
  let s := i.leave s .ready
  let s := s.reportStop i.g causeBreak i.u.pc i.u.pc
  i.updU (i.upd s (fun w => { w with stopped := true })) (fun u => { u with brkSkip := some i.u.pc })
/-- A breakpoint of the context matches an address. -/
def State.isBreak (s : State) (g : Group) (pc : DWord) : Bool := (s.ctx (s.ctxOf g)).brk.contains (some pc)
/-- Address of the issuer's next word in its clause. -/
def Iss.word? (i : Iss) : Option Nat := i.c.words[(i.u.pc.toNat - i.c.head.toNat) / 8 - 1]?
/-- The next word of a quad decoded (R154): an illegal one traps before execution. An instruction takes one slice cycle for
each pass (R39). -/
def State.nextWord (s : State) (q : Nat) : Word1 :=
  let s := { s with cur := some q }
  match s.issuer? with
  | none => .idle
  | some i =>
    if !s.coreRuns i.g.core then .idle
    else if s.isBreak i.g i.u.pc && i.u.brkSkip != some i.u.pc then .stop (i.breakAt s)
    else match i.word? with
      | none => .idle
      | some w => match decode w with
        | .error _ => .stop (i.fault s causeIllop w (i.active (guardOf w)) 0)
        | .ok ins => .run ins (if i.idles s ins.enc then s
          else i.updU (s.setQuad q { s.quad q with next := s.timer + s.passNs i.g.core (s.passesOn q) })
            (fun u => { u with brkSkip := none }))
/-- The next word of the quad waits (R125). -/
def State.quadWaits (s : State) (q : Nat) : Bool :=
  match s.nextWord q with
  | .run ins s' => (match s'.issuer? with
    | some i => i.idles s' ins.enc
    | none => true)
  | .idle => true
  | .stop _ => false

/-! ## Pending traps (R310, R434) -/

/-- The pending trap that is taken next: no sub-group runs a clause, the handler has ended, and the warp's earlier
instructions have completed. -/
def State.trapDue (s : State) (g : Group) (w : Warp) : Option (SubGroup × TrapRec) :=
  if !s.coreRuns g.core || !warpLives g w || w.inh || w.stopped || w.subs.any (fun u => u.run.isSome) then none
  else if w.tvec != 0 && !trapReady g w then none
  else match w.subs.find? (fun u => u.pend.isSome) with
    | some u => u.pend.map (fun t => (u, t))
    | none => none
/-- TRAP_ENTRY (R310, R434). -/
def execTrapEntry (gid wi : Nat) (s : State) : Host.Outcome State Fault Refusal :=
  match s.group? gid, s.warp? gid wi with
  | some g, some w => match s.trapDue g w with
    | some (u, t) => .next (s.takeTrap g w u.id t)
    | none => .next s
  | _, _ => .next s

/-! ## Ends (R28, R62) -/

/-- L1_COPY_EXPIRY (R62): a core discards its unregistered copy of a word. -/
def execL1CopyExpiry (core word : Nat) (s : State) : Host.Outcome State Fault Refusal :=
  .next { s with l1 := tdel s.l1 (core * 2 ^ 50 + word) }

/-- The scoreboard of an exited warp is empty (R28): its outstanding instructions, tokens and palette work are done. -/
def warpDrained (g : Group) (w : Warp) : Bool :=
  w.live == 0 && !w.exited && w.outst.all (fun o => o.kind == .free) && w.tokens.all (fun t => t.2.landed)
    && g.palOps.all (fun o => o.warp != w.idx) && w.subs.isEmpty
/-- WARP_EXIT (R22, R28): the allotment joins the claim pool, and the slot and scalar registers are free. -/
def execWarpExit (gid wi : Nat) (s : State) : Host.Outcome State Fault Refusal :=
  match s.group? gid, s.warp? gid wi with
  | some g, some w =>
    if warpDrained g w then
      .next (s.updGroup gid (fun (g : Group) =>
        ({ g.updWarp wi (fun (w : Warp) =>
            { w with exited := true, av := 0, vregs := [], sregs := [], tokens := [], outst := [], inRie := false, priv := [], privPoison := [] })
           with pool := g.pool + w.av } : Group).tryClaims))
    else .next s
  | _, _ => .next s

/-- A core discards its copies of instructions (R86). -/
def State.forgetCode (s : State) (core : Nat) : State := { s with icache := tdelRange s.icache (icKey core 0) (2 ^ 64) }
/-- Members of a group's team that it was placed with. -/
def State.teamOf (s : State) (g : Group) : List Group :=
  let t := s.teamSize g
  s.groups.filter (fun x => x.grid == g.grid && x.y == g.y && x.z == g.z && x.x / t == g.x / t)
/-- The warps have exited, the jobs have completed, and no copy waits to be installed (R28); the context's STATE can be written. -/
def State.groupOver (s : State) (g : Group) : Bool :=
  !g.ended && g.warps.all (fun w => w.exited) && s.jobs.all (fun j => j.gid != g.id || j.st == .ended) && g.palOps.isEmpty
    && !s.ctxFlips (s.ctxOf g)
/-- A builder no longer waits for a copy to an ended member (R271). -/
def Group.noCopy (g : Group) (gid : Nat) : Group :=
  g.palOps.foldl (fun (g : Group) e =>
    if e.copies.contains gid then
      let e' := { e with copies := e.copies.filter (· != gid) }
      if e'.copies.isEmpty then g.palDone e
      else { g with palOps := g.palOps.map (fun (y : PalOp) => if y.id = e.id then e' else y) }
    else g) g
/-- What an ended group holds no more. The scratchpad of a team member stays until every member has ended. -/
def Group.freed (g : Group) (all : Bool) : Group :=
  let g := { g with ended := true, warps := [], pool := 0, ext := [], extPoison := [], bars := [], queues := [], pals := [],
                    tiles := [], lent := none }
  if all then { g with scratch := [], scratchPoison := [], tags := [], hits := [] } else g
/-- A group stopped by a core store error may run again (R428): with its whole team, all of it stopped so. -/
def State.relaunchable (s : State) (g : Group) : Bool :=
  let p := s.pktOf g
  pfld p 572 1 == 1 && pfld p 573 1 == 0 && (s.teamOf g).all (fun x => x.stop.isSome && !x.killed && x.relaunches < 3)
/-- The telemetry event of a core store error: 1 relaunched, 2 killed (R433). -/
def State.storeEvent (s : State) (g : Group) (detail : Nat) : State :=
  match s.grid? g.grid with
  | some d => s.telemetry 3 (clusterOf g.core) detail d.ctx (d.queue.getD 0) d.gen (g.lin % 2 ^ 32)
  | none => s
/-- A group stopped by a core store error that is not relaunched is killed (R427). -/
def State.storeKill (s : State) (g : Group) : State :=
  match g.stop with
  | some (e, off) =>
    if g.killed || s.relaunchable g then s
    else
      let v := e * 2 ^ 56 + off % 2 ^ 32
      let s := (s.pushFault { s.faultOf g 3 with cause := causeEccUe, val := BitVec.ofNat 64 v }).1
      ((s.updGroup g.id (fun g => { g with killed := true })).noteKill g.grid causeEccUe).storeEvent g 2
  | none => s
/-- GROUP_END (R28): the group's reductions have merged, and its resources are free. -/
def execGroupEnd (gid : Nat) (s : State) : Host.Outcome State Fault Refusal :=
  match s.group? gid with
  | none => .next s
  | some g =>
    if s.groupOver g then
      let s := (s.mergeWhere (fun e => e.gids.contains gid)).storeKill g
      let team := (s.teamOf g).filter (fun x => x.id != gid)
      let all := team.all (fun x => x.ended)
      let s := { s with jobs := s.jobs.filter (fun j => j.gid != gid),
                        groups := s.groups.map (fun (x : Group) =>
                          if x.id = gid then x.freed all
                          else if all && team.any (fun y => y.id == x.id) then x.freed true
                          else x.noCopy gid) }
      .next (((s.updGrid g.grid (fun d => { d with lastEnd := s.nextId })).fresh).ctxRest (s.ctxOf g))
    else .next s

end Sys2Proof.Machine
end

