-- ==== Sys2Proof/Machine/Queues.lean ====
section
/-! DEFINITION. Launch queues: their descriptors, indices and errors, and the mapper's slots (R348 to R352). -/
namespace Sys2Proof.Machine

/-! ## Descriptors and indices -/

def emptyQ : QueueSt := ⟨.off, 0, 0⟩
/-- A queue as the mapper holds it. -/
def State.queue (s : State) (q : Nat) : QueueSt := tget emptyQ s.queues q
def State.setQueue (s : State) (q : Nat) (x : QueueSt) : State := { s with queues := tput emptyQ s.queues q x }
/-- Queues of the package. -/
def queueCount : Nat := 1024
/-- RLOG and CLOG: other values act as 4 (R348). -/
def ringLog (n : Nat) : Nat := if n < 4 then 4 else n
def State.rlog (s : State) (q : Nat) : Nat := ringLog (s.qd q 128 4)
def State.clog (s : State) (q : Nat) : Nat := ringLog (s.qd q 132 4)
def State.qEn (s : State) (q : Nat) : Bool := s.qd q 154 1 == 1
def State.qErr (s : State) (q : Nat) : Bool := s.qd q 157 1 == 1
/-- Distance of two free-running indices (R350). -/
def ahead (a b : Word) : Nat := (a - b).toNat
/-- Packets wait in the launch ring. -/
def State.hasPacket (s : State) (q : Nat) : Bool := s.idx q 0 != s.idx q 1
/-- The host's registers answer: not in the safe state (R412). -/
def State.answers (s : State) : Bool := s.bu.phase != 15
/-- Queue intake runs: reduced or full service, not stopped by a unit failure (R410, R411). -/
def State.intake (s : State) : Bool := (s.bu.phase == 4 || s.bu.phase == 5) && !s.bu.stopping

/-- An access waits for the reply to its fault. -/
def State.waitsReply (s : State) (w : Waiter) : Bool := s.faults.any (fun e => e.waiters.contains w)
/-- The read of the queue's head packet has begun, and waits for a reply (R350, R352). -/
def State.midRead (s : State) (q : Nat) : Bool := s.waitsReply (.ringRead q)
/-- The queue leaves its slot. -/
def State.leaveSlot (s : State) (q : Nat) : State := { s with slots := s.slots.filter (· != q) }
/-- A queue that waits for the mapper: IDLE, or READY from now on (R352). -/
def State.restQueue (s : State) (q : Nat) : State :=
  s.setQueue q { s.queue q with st := if s.hasPacket q then .ready else .idle, since := if s.hasPacket q then s.timer else 0 }
/-- An error stops the queue (R350, R352): no packet is read, and the slot is free. -/
def State.stopQueue (s : State) (q code : Nat) : State :=
  let s := ((s.setQd q 157 1 1).setQd q 168 8 code).leaveSlot q
  if (s.queue q).st = .off then s
  else if !s.qEn q then s.setQueue q emptyQ
  else s.setQueue q { s.queue q with st := .stopped }
/-- EN goes from 0 to 1: the indices are 0, and the queue is IDLE, or STOPPED while ERR is set (R348, R352). -/
def State.enableQueue (s : State) (q : Nat) : State :=
  let s := [0, 1, 2, 3].foldl (fun (s : State) k => s.setIdx q k 0) ((s.setQd q 154 1 1).leaveSlot q)
  s.setQueue q { s.queue q with st := if s.qErr q then .stopped else .idle, since := 0 }
/-- EN goes to 0: the queue is OFF at its next packet boundary (R352), which is now unless a packet's read waits. -/
def State.disableQueue (s : State) (q : Nat) : State :=
  let s := s.setQd q 154 1 0
  if s.midRead q then s else (s.leaveSlot q).setQueue q emptyQ
/-- ERR is cleared, and ERRC with it; an enabled queue resumes from its indices (R348, R350, R352). -/
def State.clearErr (s : State) (q : Nat) : State :=
  let s := (s.setQd q 157 1 0).setQd q 168 8 0
  if (s.queue q).st = .stopped && s.qEn q then s.restQueue q else s

/-- WRIDX_WRITE (R350). -/
def execWridxWrite (q : Nat) (v : Word) (s : State) : Host.Outcome State Fault Refusal :=
  .next (if queueCount ≤ q || !s.answers || v = s.idx q 0 then s
    else if 2 ^ s.rlog q < ahead v (s.idx q 1) then s.stopQueue q 1
    else
      let s := s.setIdx q 0 v
      if (s.queue q).st = .idle then s.restQueue q else s)
/-- CRDIDX_WRITE (R350). -/
def execCrdidxWrite (q : Nat) (v : Word) (s : State) : Host.Outcome State Fault Refusal :=
  .next (if queueCount ≤ q || !s.answers then s
    else if ahead (s.idx q 2) (s.idx q 3) < ahead v (s.idx q 3) then s.stopQueue q 4
    else s.setIdx q 3 v)
/-- QUEUE_ENABLE (R348, R352). -/
def execQueueEnable (q : Nat) (s : State) : Host.Outcome State Fault Refusal :=
  .next (if queueCount ≤ q || !s.answers || s.qEn q then s else s.enableQueue q)
/-- QUEUE_ERR_CLEAR (R350). -/
def execQueueErrClear (q : Nat) (s : State) : Host.Outcome State Fault Refusal :=
  .next (if queueCount ≤ q || !s.answers then s else s.clearErr q)

/-! ## Slots (R352) -/

/-- Active slots. -/
def slotCount : Nat := 32
/-- Time since the queue last became READY. -/
def State.waited (s : State) (q : Nat) : Nat := s.timer - (s.queue q).since
/-- Effective priority of a READY queue. -/
def State.effPrio (s : State) (q : Nat) : Nat := min 3 (s.qd q 152 2 + s.waited q / 4000000)
def State.readyQueues (s : State) : List Nat := (s.queues.filter (fun e => e.2.st == .ready)).map (fun e => e.1)
/-- The READY queue that the mapper selects: highest effective priority, then longest wait, then lowest number. -/
def State.selected (s : State) : Option Nat :=
  (sortBy (fun a b => s.effPrio b < s.effPrio a || (s.effPrio a == s.effPrio b && s.waited b ≤ s.waited a)) s.readyQueues).head?
/-- The queue that QUEUE_SLOT_SELECT would give a slot. -/
def State.slotDue (s : State) : Option Nat := if s.intake && s.slots.length < slotCount then s.selected else none
/-- QUEUE_SLOT_SELECT (R352). -/
def execQueueSlotSelect (s : State) : Host.Outcome State Fault Refusal :=
  match s.slotDue with
  | some q => .next (({ s with slots := s.slots ++ [q] }).setQueue q { s.queue q with st := .active, slotAt := s.timer })
  | none => .next s

/-- Time slice in ticks of the device timer: SLICE µs, 0 acting as 1. -/
def State.slice (s : State) (q : Nat) : Nat := max 1 (s.qd q 176 16) * 1000
/-- The slice has ended, a READY queue of at least the queue's priority waits, and no packet is being read. -/
def State.sliceDue (s : State) (q : Nat) : Bool :=
  s.slots.contains q && !s.midRead q && (s.queue q).slotAt + s.slice q ≤ s.timer
    && s.readyQueues.any (fun r => s.qd q 152 2 ≤ s.effPrio r)
/-- TIME_SLICE_EXPIRY (R352). -/
def execTimeSliceExpiry (q : Nat) (s : State) : Host.Outcome State Fault Refusal :=
  if s.sliceDue q then .next ((s.leaveSlot q).setQueue q { s.queue q with st := .ready, since := s.timer }) else .next s

end Sys2Proof.Machine
end

