-- ==== Sys2Proof/Machine/Launch.lean ====
section
/-! DEFINITION. Grids: reading launch packets, accepting tasks, placing groups, and the start barrier of grids on several
packages (R16, R17, R24 to R29, R289, R316, R317, R353 to R366). -/
namespace Sys2Proof.Machine

/-! ## The queue mapper's accesses (R350, R376, R380) -/

/-- What one access of the queue mapper ends in. -/
inductive QAcc
  | ok (pa : Nat)
  | bad
  | absent (level kind : Nat)
  | stall
deriving DecidableEq, Repr
/-- The queue mapper's agent and translation; it ignores protection keys. -/
def mapperMmu (ctx : Nat) : Mmu := ⟨none, 0, ctx⟩
def mapperAgent : Agent := ⟨none, 0, false⟩
/-- Translates an access of the queue mapper within one page. -/
def State.queueAccess (s : State) (ctx va n : Nat) (wr : Bool) : QAcc × State :=
  if va / 2 ^ 56 != 0 then (.bad, s)
  else match s.resolve (mapperMmu ctx) (if wr then wantStore none else wantLoad none) va with
    | (.ok x, s) => if (s.inFlip (.phys x.pa false, n)).isSome then (.stall, s) else (.ok x.pa, s.touch (mapperMmu ctx) x wr)
    | (.absent l, s) => (.absent l 1, s)
    | (.writeProtect, s) => (.absent 0 2, s)
    | (.stall _, s) => (.stall, s)
    | (.prot, s) => (.bad, s)
/-- A replayable fault of the queue mapper: SRC 4, UNIT 0, GEN 0. -/
def State.queueFault (s : State) (ctx va level kind : Nat) (wr : Bool) (w : Waiter) : State :=
  (s.pushFault { fid := 0, seq := none, ctx := ctx, epoch := s.epoch ctx, addr := BitVec.ofNat 64 va, kind := kind,
                 acc := if wr then 1 else 0, level := level, src := 4, unit := 0, cause := 0, cause2 := 0, gen := 0, gidx := 0,
                 pc := 0, val := 0, mask := 0, inst := 0, waiters := [w], merged := 0, wrote := 0 }).1
/-- A read of the queue mapper, translated page by page (R354): its bytes, with the poison among them, or what stops it. -/
inductive QRead
  | ok (b : List Byte) (bad : Bool)
  | bad
  | absent (va level kind : Nat)
  | stall
deriving DecidableEq, Repr
/-- Reads the parts of a range, once all of them are translated. -/
def State.queueRead (ctx : Nat) : List (Nat × Nat) → State → QRead × State
  | [], s => (.ok [] false, s)
  | p :: r, s => match s.queueAccess ctx p.1 p.2 false with
    | (.ok pa, s) => (match State.queueRead ctx r s with
      | (.ok b bad, s) =>
        let (g, s) := s.readPoint mapperAgent pa p.2
        (.ok (g.bytes ++ b) (g.bad || bad), s)
      | x => x)
    | (.bad, s) => (.bad, s)
    | (.absent l k, s) => (.absent p.1 l k, s)
    | (.stall, s) => (.stall, s)

/-! ## Where a group fits (R25 to R27, R316, R317) -/

/-- Groups that hold a core. -/
def State.onCore (s : State) (c : Nat) : List Group := s.groups.filter (fun g => g.core == c && !g.ended)
/-- KiB of scratchpad on a core that ended team members still hold (R28). -/
def State.keptKiB (s : State) (c : Nat) : Nat :=
  (s.groups.filter (fun g => g.core == c && g.ended && (s.teamOf g).any (fun x => !x.ended))).foldl (fun a g => a + pfld (s.pktOf g) 530 10) 0
/-- Sum of a footprint field over the groups of a core. -/
def State.used (s : State) (c : Nat) (f : BitVec 1024 → Nat) : Nat := (s.onCore c).foldl (fun a g => a + f (s.pktOf g)) 0
/-- The core holds no group, and no scratchpad of an ended one. -/
def State.emptyCore (s : State) (c : Nat) : Bool := (s.onCore c).isEmpty && s.keptKiB c == 0
/-- A hot group borrows from the core. -/
def State.lends (s : State) (c : Nat) : Bool := s.groups.any (fun g => !g.ended && g.lent == some c)
/-- Scratchpad of a core in KiB (R26). -/
def State.splitOf (s : State) (c : Nat) : Nat := tget 0 s.split c
def heatOf (p : BitVec 1024) : Nat := pfld p 568 2
def scaReserve (p : BitVec 1024) : Nat := warpCount p * scaAllot p
/-- A group that a lending partner may hold (R317). -/
def partnerOk (p : BitVec 1024) : Bool := heatOf p == 0 && pfld p 530 10 == 0 && pfld p 544 3 == 0 && pfld p 547 4 == 0
/-- A lit core's partner can lend (R27, R317). -/
def State.canLend (s : State) (d : Nat) : Bool :=
  s.coreRuns d && !s.lends d && (s.onCore d).all (fun g => partnerOk (s.pktOf g)) && s.used d vecReserve ≤ 1024 && s.keptKiB d == 0
    && ((s.onCore d).isEmpty || s.splitOf d == 576)
/-- A core admits a group of a packet (R25): its footprint fits in what the groups there leave. -/
def State.admits (s : State) (c : Nat) (p : BitVec 1024) : Bool :=
  let lent := s.lends c
  s.coreRuns c
    && s.used c warpCount + warpCount p ≤ 64
    && s.used c vecReserve + vecReserve p ≤ (if lent then 1024 else 4096)
    && s.used c scaReserve + scaReserve p ≤ 2048
    && s.used c (pfld · 544 3) + pfld p 544 3 ≤ 4
    && s.used c (pfld · 547 4) + pfld p 547 4 ≤ 8
    && s.used c (pfld · 551 10) + pfld p 551 10 ≤ 512
    && s.used c (pfld · 561 4) + pfld p 561 4 ≤ 8
    && (!lent || partnerOk p)
    && (s.emptyCore c || s.used c (pfld · 530 10) + s.keptKiB c + pfld p 530 10 ≤ s.splitOf c)
    && (heatOf p != 2 || (isLit c && (s.onCore c).all (fun g => heatOf (s.pktOf g) != 2) && s.canLend (partnerOf c)))

/-- Scratchpad that an empty core takes (R26): CARVE, or SCR, in 64 KiB steps. -/
def carveKiB (p : BitVec 1024) : Nat := max (64 * pfld p 540 4) (roundUp (pfld p 530 10) 64)

/-! ## Where the next unit goes (R361) -/

/-- Cores of the package and clusters of it (R2). -/
def coreCount : Nat := 576
def clusterCount : Nat := 96
def teamT (p : BitVec 1024) : Nat := max 1 (pfld p 565 3)
/-- The cores that the next unit of a packet takes: one group, or a team on one cluster. -/
def State.findUnit (s : State) (p : BitVec 1024) : Option (List Nat) :=
  if teamT p = 1 then
    ((List.range coreCount).find? (fun k => s.admits ((s.rotor + k) % coreCount) p)).map (fun k => [(s.rotor + k) % coreCount])
  else
    (List.range clusterCount).findSome? (fun k =>
      let cl := (s.rotor / 6 + k) % clusterCount
      let l := ((List.range 6).map (fun i => 6 * cl + i)).filter (fun c => s.admits c p)
      if teamT p ≤ l.length then some (l.take (teamT p)) else none)
/-- The rotor after a unit is placed. -/
def nextRotor (p : BitVec 1024) (cores : List Nat) : Nat :=
  let last := (cores.getLast?).getD 0
  if teamT p = 1 then (last + 1) % coreCount else (clusterOf last + 1) % clusterCount * 6

/-! ## A group's start (R20, R22, R29, R360) -/

/-- Free warp slots of a core, ascending. -/
def State.freeSlots (s : State) (c : Nat) : List Nat :=
  let taken := (s.onCore c).flatMap (fun g => (g.warps.filter (fun w => !w.exited)).map (fun w => w.slot))
  (List.range 64).filter (fun k => !taken.contains k)
/-- Role of warp i (R20). -/
def roleOf : List Nat → Nat → Nat
  | [], _ => 0
  | n :: r, i => if i < n then 0 else 1 + roleOf r (i - n)
/-- A warp at its start. -/
def newWarp (p : BitVec 1024) (i slot sub now : Nat) : Warp :=
  { idx := i, role := roleOf (roleCounts p) i, slot := slot, av := 8 * (pfld p 512 5 + 1), as := scaAllot p, vregs := [],
    sregs := [], preds := [], joins := [],
    subs := [{ id := sub, lanes := 0xFFFFFFFF, pc := BitVec.ofNat 64 (pfld p 0 64), mid := none, run := none, st := .ready,
               loop := LoopState.clear, pend := none, handler := false, owes := [], allot := 0, brkSkip := none }],
    active := none, runs := 0, live := 0xFFFFFFFF, fpmode := BitVec.ofNat 32 (pfld p 416 32), fpflags := 0,
    tvec := BitVec.ofNat 64 (pfld p 64 64), tcause := 0, inh := false, tpc := 0, tinst := 0, tmask := 0, tval := 0, resume := none,
    pkr := BitVec.ofNat 64 (pfld p 192 64), locks := 0, inRie := false, rieCause := 0, rieEnd := none, outst := [], tokens := [],
    acq := false, spec := [], priv := [], privPoison := [], perf := [], stopped := false, acc := [],
    accTiles := [], accFlags := [], exited := false, readyAt := now, lockWin := [] }
/-- A group at its start on a core: linear index `lin` of grid d, relaunched `again` times. -/
def State.newGroup (s : State) (d : Grid) (lin core again : Nat) : Group :=
  let p := d.pkt
  let nx := pfld p 320 31
  let ny := pfld p 352 16
  let slots := s.freeSlots core
  { id := s.nextId, grid := d.id, core := core, x := lin % nx, y := lin / nx % ny, z := lin / (nx * ny), lin := lin,
    team := lin % nx % teamT p, lent := if heatOf p = 2 then some (partnerOf core) else none, admitted := s.nextId,
    warps := (List.range (warpCount p)).map (fun i => newWarp p i (slots.getD i 0) (s.nextId + 1 + i) s.timer),
    pool := 8 * pfld p 520 10, claims := [], scratch := [], scratchPoison := [], tags := [], ext := [], extPoison := [],
    bars := [], queues := [], pals := [], tiles := [], palOps := [], ooo := 0, clkc := 0, perf := [], hits := [],
    stop := none, killed := false, ended := false, relaunches := again }
/-- A core's L1 holds no more than its split leaves (R394). -/
def State.trimL1 (s : State) (core : Nat) : State := (List.range (s.l1.length + s.owner.length)).foldl (fun (s : State) _ => s.fitL1 core) s
/-- A group comes to its core (R26, R317): an empty core takes its split, and a hot group's empty partner 576 KiB. The
core's constant cache holds nothing of an earlier launch (R140), and its L1 no copy older than what happens-before the
group's first instruction: SPAWN, a WATCH match, the WRIDX write, an earlier launch under SERIAL (R72, R85, R351, R359). -/
def State.seat (s : State) (p : BitVec 1024) (g : Group) : State :=
  let split := if s.emptyCore g.core && !s.lends g.core then tput 0 s.split g.core (carveKiB p) else s.split
  let split := match g.lent with
    | some k => if (s.onCore k).isEmpty then tput 0 split k 576 else split
    | none => split
  let s := ({ s with groups := s.groups ++ [g], split := split,
                     ccache := tdelRange s.ccache (g.core * 2 ^ 62) (2 ^ 62) } : State).dropL1 g.core
  match g.lent with
  | some k => (s.trimL1 g.core).trimL1 k
  | none => s.trimL1 g.core
/-- Places one group of a grid (R361). -/
def State.placeGroup (s : State) (d : Grid) (lin core again : Nat) : State :=
  let s' := s.seat d.pkt (s.newGroup d lin core again)
  { s' with nextId := s'.nextId + 1 + warpCount d.pkt }

/-! ## Units of a grid (R17, R360, R428) -/

/-- The next unit: relaunched groups go first. Each group with its linear index and how often it was relaunched. -/
def Grid.nextUnit (d : Grid) : List (Nat × Nat) :=
  let t := teamT d.pkt
  if d.relaunch.isEmpty then (List.range t).map (fun m => (d.next + m, 0)) else d.relaunch.take t
def Grid.tookUnit (d : Grid) : Grid :=
  let t := teamT d.pkt
  if d.relaunch.isEmpty then { d with next := d.next + t } else { d with relaunch := d.relaunch.drop t }
/-- A task has started, or never will: a persistent watch entry may push its next one (R248). -/
def State.startedTask (s : State) (id : Nat) : State :=
  { s with tasks := s.tasks.filter (fun (x : Task) => x.id != id),
           watches := s.watches.map (fun (e : WatchEntry) => if e.pending = some id then { e with pending := none } else e) }
/-- Places the next unit of a grid, or finds no room. -/
def State.placeUnit (s : State) (id : Nat) : Option State :=
  match s.grid? id with
  | none => none
  | some d => match s.findUnit d.pkt with
    | none => none
    | some cores =>
      let s := (cores.zip d.nextUnit).foldl (fun (s : State) x => s.placeGroup d x.2.1 x.1 x.2.2) s
      let s := (s.startedTask id).updGrid id (fun (d : Grid) =>
        { d.tookUnit with waitSince := s.timer, blocking := false, tstart := if d.tstart = 0 then s.timer else d.tstart })
      some { s with rotor := nextRotor d.pkt cores }
/-- Places n units, or none of them. -/
def State.placeUnits (id : Nat) : Nat → State → Option State
  | 0, s => some s
  | n + 1, s => match s.placeUnit id with
    | some s => State.placeUnits id n s
    | none => none
/-- Units of a grid not yet placed. -/
def Grid.units (d : Grid) : Nat := (d.last - d.next) / teamT d.pkt + d.relaunch.length / teamT d.pkt
def isCoop (p : BitVec 1024) : Bool := pfld p 573 1 == 1
/-- Most groups that a package can hold: its warp slots. -/
def groupCap : Nat := 36864
/-- A cooperative share fits the package with no other work resident (R362). -/
def State.fitsEmpty (s : State) (d : Grid) : Bool :=
  d.units ≤ groupCap && (({ s with groups := [], split := [], rotor := 0, grids := [d] } : State).placeUnits d.id d.units).isSome

/-! ## The distributor (R360, R362) -/

/-- The grid has units to place: it is not held, dropped, killed or refused. -/
def State.wants (s : State) (d : Grid) : Bool :=
  d.phase == .placing && !d.done && !d.dropped && d.status.isNone && d.unplaced && !(s.ctx d.ctx).hold && !s.ctxFlips d.ctx
/-- Grids in the distributor's order. -/
def State.servedGrids (s : State) : List Grid :=
  sortBy (fun a b => b.prio < a.prio || (a.prio == b.prio && a.accepted ≤ b.accepted)) (s.grids.filter s.wants)
/-- What a grid places at once: its whole share if it is cooperative, else its next unit. -/
def State.placeNext (s : State) (d : Grid) : Option State :=
  if isCoop d.pkt then (if d.units ≤ groupCap then s.placeUnits d.id d.units else none) else s.placeUnit d.id
/-- Priority up to which a context that waits to resume blocks placement (R390). -/
def State.resumeBlock (s : State) : Option Nat :=
  (s.ctxs.filter (fun c => c.resuming)).foldl (fun a c => match c.image with
    | none => a
    | some im => im.groups.foldl (fun a g => max a (match s.grid? g.grid with | some d => some d.prio | none => none)) a) none
/-- STATE of a context becomes resident at its first placement (R368). -/
def State.ctxResident (s : State) (c : Nat) : State := if s.ctxState c = 0 then s.ctxPut c 96 2 1 else s
/-- The first placement that the distributor can make. A grid that waits as a cooperative one, or that has waited 1 ms,
blocks every grid after it. -/
def State.placeFirst (s : State) : List Grid → Option State
  | [] => none
  | d :: r => match s.placeNext d with
    | some s' => some (s'.ctxResident d.ctx)
    | none => if d.blocking || isCoop d.pkt then none else s.placeFirst r
/-- The placement that is due. -/
def State.placement (s : State) : Option State :=
  if s.bu.tripped then none
  else s.placeFirst (s.servedGrids.filter (fun d => match s.resumeBlock with | some p => p < d.prio | none => true))
/-- GROUP_PLACEMENT (R17, R25 to R29, R360 to R362). -/
def execGroupPlacement (s : State) : Host.Outcome State Fault Refusal :=
  match s.placement with
  | some s' => .next s'
  | none => .next s

/-- A unit's wait after which its grid blocks the others: 1 ms (R360). -/
def waitLimit : Nat := 1000000
def State.waitDue (s : State) (d : Grid) : Bool := s.wants d && !d.blocking && d.waitSince + waitLimit ≤ s.timer
/-- PLACEMENT_WAIT_EXPIRY (R360). -/
def execPlacementWaitExpiry (grid : Nat) (s : State) : Host.Outcome State Fault Refusal :=
  match s.grid? grid with
  | some d => if s.waitDue d then .next (s.updGrid grid (fun d => { d with blocking := true })) else .next s
  | none => .next s

/-! ## Shares of a grid on several packages (R363) -/

/-- First and last (exclusive) linear index of the share of the package of rank k among n. -/
def shareOf (p : BitVec 1024) (k n : Nat) : Nat × Nat :=
  let t := teamT p
  let nt := gridGroups p / t
  (t * (k * nt / n), t * ((k + 1) * nt / n))
/-- Packages of a launch, ascending. -/
def State.pkgs (s : State) (p : BitVec 1024) : List Nat := setBits 64 (s.pkgSet p)
/-- The grid that a packet makes on this package. -/
def State.newGrid (s : State) (p w : BitVec 1024) (ctx : Nat) (queue : Option Nat) (origin prio maxp : Nat) (ph : GridPhase) : Grid :=
  let l := s.pkgs p
  let sh := shareOf p (l.takeWhile (· != s.pkg)).length l.length
  { id := s.nextId, pkt := p, wins := w, ctx := ctx, queue := queue, origin := origin, gen := BitVec.ofNat 32 (pfld p 384 32),
    depth := 0, root := s.nextId, prio := prio, accepted := s.nextId, phase := ph, last := sh.2, next := sh.1,
    waitSince := s.timer, blocking := false, relaunch := [], tstart := 0, counts := [], crossed := [], kill := none,
    status := none, dropped := false, gbDone := 0, gbNext := none, gbSent := false, lastEnd := s.nextId, armed := [], dones := [],
    done := false, maxp := maxp }
def State.addGrid (s : State) (d : Grid) : State := { s with grids := s.grids ++ [d], nextId := s.nextId + 1 }

/-- Why a package does not start a launch (R355, R358, R362, R364): 0 for none, else the STATUS. -/
def State.refusal (s : State) (d : Grid) (prv : Bool) : Nat :=
  if packetBad s.pkg prv d.pkt d.wins then 1
  else if (s.gensHeld d.ctx).contains d.gen then 6
  else if isCoop d.pkt && !s.fitsEmpty d then 2
  else 0

/-! ## Reading a packet (R350 to R356, R364) -/

/-- The packet at the head of a queue's ring has been read (R350, R352): a queue disabled meanwhile is OFF. -/
def State.passPacket (s : State) (q : Nat) : State :=
  let s := s.setIdx q 1 (s.idx q 1 + 1)
  if !s.qEn q then (s.leaveSlot q).setQueue q emptyQ
  else if s.hasPacket q then s else (s.leaveSlot q).setQueue q { s.queue q with st := .idle, since := 0 }
/-- A launch accepted from queue q that starts nowhere: its record carries a STATUS (R358). -/
def State.failLaunch (s : State) (q : Nat) (p w : BitVec 1024) (status : Nat) : State :=
  let d := s.newGrid p w (s.qd q 136 16) (some q) s.pkg 0 (s.qd q 152 2) .refused
  s.addGrid { d with status := some status }
/-- A launch is accepted (R356, R364): it starts here, or is replicated over Psimel and arms. The queue's MAXP goes with the
replica, so that every package clamps the launch's priority and its tasks' (R356, R366; log 112). -/
def State.acceptLaunch (s : State) (q : Nat) (p w : BitVec 1024) : State :=
  let maxp := s.qd q 152 2
  let ctx := s.qd q 136 16
  let prv := s.qd q 155 1 == 1
  let others := s.others p
  let d := s.newGrid p w ctx (some q) s.pkg (min (pfld p 570 2) maxp) maxp .placing
  let bad := packetBad s.pkg prv p w
  if others.isEmpty || bad then
    (match (if bad then 1 else s.refusal d prv) with
      | 0 => s.addGrid d
      | n => s.failLaunch q p w n)
  else if s.bu.phase == 4 || others.any (fun k => !(tget false s.peers k)) then s.failLaunch q p w 5
  else
    let s := others.foldl (fun (s : State) k => s.send (.replicate k ctx maxp p w)) s
    match s.refusal d prv with
    | 0 => s.addGrid { d with phase := .arming (s.timer + 10000000), armed := [s.pkg] }
    | n => (others.foldl (fun (s : State) k => s.send (.abort k ctx d.gen)) s).failLaunch q p w n
/-- Unfinished launches of a queue: their records are not yet written. -/
def State.openLaunches (s : State) (q : Nat) : Bool := s.grids.any (fun d => d.queue == some q && !d.done)
/-- The next packet of a queue can be read. -/
def State.packetDue (s : State) (q : Nat) : Bool :=
  s.intake && s.slots.contains q && (s.queue q).st == .active && s.hasPacket q && !s.waitsReply (.ringRead q)
/-- PACKET_READ (R350 to R356): the packet at RDIDX, and its window table. A SERIAL packet that must wait is read again
later (R356). -/
def execPacketRead (q : Nat) (s : State) : Host.Outcome State Fault Refusal :=
  if !s.packetDue q then .next s
  else
    let ctx := s.qd q 136 16
    if !s.ctxValid ctx then .next ((s.failLaunch q 0 0 7).passPacket q)
    else
      let va := s.qd q 0 64 + 128 * ((s.idx q 1).toNat % 2 ^ s.rlog q)
      match s.queueRead ctx (pageParts 2 va 128) with
      | (.stall, _) => .next s
      | (.bad, s) => .next (s.stopQueue q 2)
      | (.absent a l k, s) => .next (s.queueFault ctx a l k false (.ringRead q))
      | (.ok b bad, s) =>
        let p : BitVec 1024 := BitVec.ofNat 1024 (leVal b)
        if bad then .next (s.stopQueue q 2)
        else if pfld p 575 1 = 1 && s.openLaunches q then .next (s.setQueue q { s.queue q with st := .held })
        else if !cwtRead p then .next ((s.acceptLaunch q p 0).passPacket q)
        else match s.queueRead ctx (pageParts 2 (cwtOf p) 128) with
          | (.stall, _) => .next s
          | (.bad, s) => .next ((s.failLaunch q p 0 7).passPacket q)
          | (.absent a l k, s) => .next (s.queueFault ctx a l k false (.ringRead q))
          | (.ok b bad, s) => .next ((if bad then s.failLaunch q p 0 7 else s.acceptLaunch q p (BitVec.ofNat 1024 (leVal b))).passPacket q)

/-! ## Tasks (R248, R288, R289, R366) -/

/-- Accepted tasks of a die that have placed no group. -/
def State.accepted (s : State) (die : Nat) : Nat := (s.tasks.filter (fun t => t.accepted && t.die == die)).length
/-- What SPAWN_ACCEPT can do for a task: read the descriptor of one that a watch entry pushed, or accept it; after a unit
failure, drop it (R411). -/
def State.taskDue (s : State) (t : Task) : Bool :=
  !t.accepted && (s.bu.stopping || t.unread || (!t.held && s.accepted t.die < taskCap))
/-- A watch task that cannot be read, or is malformed, is reported to the driver, and no task starts (R248, R289). -/
def State.badTask (s : State) (t : Task) : State := (s.startedTask t.id).send (.badTask t.ctx t.addr)
/-- A task becomes a grid of its own (R289): its waiting SPAWN completes. -/
def State.takeTask (s : State) (t : Task) : State :=
  let s := { s with tasks := s.tasks.map (fun (x : Task) => if x.id = t.id then { t with accepted := true } else x),
                    grids := s.grids ++ [s.taskGrid t] }
  (s.useFree.settle (.task t.id)).fresh
/-- Reads a watch task's descriptor and window table, in its context: none where one is unreadable or waits. -/
def State.readTask (s : State) (t : Task) : Option (BitVec 1024 × BitVec 1024) × Bool × State :=
  match s.queueRead t.ctx (pageParts 2 t.addr.toNat 128) with
  | (.stall, s) => (none, true, s)
  | (.ok b bad, s) =>
    let p : BitVec 1024 := BitVec.ofNat 1024 (leVal b)
    if bad then (none, false, s)
    else if !cwtRead p then (some (p, 0), false, s)
    else (match s.queueRead t.ctx (pageParts 2 (cwtOf p) 128) with
      | (.stall, s) => (none, true, s)
      | (.ok c bad, s) => (if bad then none else some (p, BitVec.ofNat 1024 (leVal c)), false, s)
      | (_, s) => (none, false, s))
  | (_, s) => (none, false, s)
/-- The launch that registered a watch entry is privileged (R288). -/
def State.rootPriv (s : State) (t : Task) : Bool := match s.grid? t.root with
  | some d => pfld d.pkt 574 1 == 1
  | none => false
/-- A task is dropped (R411): its SPAWN waits no longer. -/
def State.dropTask (s : State) (t : Task) : State := (s.settle (.task t.id)).startedTask t.id
/-- SPAWN_ACCEPT (R248, R289, R411). -/
def execSpawnAccept (task : Nat) (s : State) : Host.Outcome State Fault Refusal :=
  match s.tasks.find? (fun t => t.id == task) with
  | none => .next s
  | some t =>
    if !s.taskDue t then .next s
    else if s.bu.stopping then .next (s.dropTask t)
    else if !t.unread then .next (s.takeTask t)
    else match s.readTask t with
      | (none, true, _) => .next s
      | (none, false, s) => .next (s.badTask t)
      | (some (p, w), _, s) =>
        if taskBad s.pkg (s.rootPriv t) p w then .next (s.badTask t)
        else .next { s with tasks := s.tasks.map (fun (x : Task) => if x.id = task then { t with pkt := p, wins := w, unread := false } else x) }

/-! ## The start barrier (R364) -/

/-- A grid on several packages by its stamp. -/
def State.stamped (s : State) (ctx : Nat) (gen : Word) : Option Grid :=
  s.grids.find? (fun d => d.ctx == ctx && d.gen == gen && !d.done && !(s.others d.pkt).isEmpty)
/-- The origin aborts a launch: nothing is placed anywhere. -/
def State.abortLaunch (s : State) (d : Grid) (status : Nat) : State :=
  let s := (s.others d.pkt).foldl (fun (s : State) k => s.send (.abort k d.ctx d.gen)) s
  ({ s with nextId := s.nextId + 1 } : State).updGrid d.id (fun d => { d with phase := .refused, status := some status, lastEnd := s.nextId })
/-- ARM (R364): at another package than the origin, a replicated launch is checked, and armed or refused; at the origin,
an ARM or a refusal arrives, and the last ARM sends GO. The replica carries its queue's MAXP (log 112). -/
def execArm (pkg origin ctx status : Nat) (rep : Replica) (wins : BitVec 1024) (s : State) : Host.Outcome State Fault Refusal :=
  let gen : Word := BitVec.ofNat 32 (pfld rep.pkt 384 32)
  if origin != s.pkg then
    if pkg != s.pkg then .next s
    else
      let d := s.newGrid rep.pkt wins ctx none origin (min (pfld rep.pkt 570 2) rep.maxp) rep.maxp .await
      let r := if !s.ctxValid ctx then 7 else if s.bu.phase != 5 then 5 else s.refusal d true
      if r = 0 then .next ((s.addGrid d).send (.arm origin ctx gen 0)) else .next (s.send (.arm origin ctx gen r))
  else match s.stamped ctx gen with
    | none => .next s
    | some d => match d.phase with
      | .arming _ =>
        if !(s.others d.pkt).contains pkg then .next s
        else if status != 0 then .next (s.abortLaunch d status)
        else
          let l := if d.armed.contains pkg then d.armed else d.armed ++ [pkg]
          if (s.pkgs d.pkt).all l.contains then
            let s := (s.others d.pkt).foldl (fun (s : State) k => s.send (.go k ctx gen)) s
            .next (s.updGrid d.id (fun d => { d with armed := l, phase := .placing, waitSince := s.timer }))
          else .next (s.updGrid d.id (fun d => { d with armed := l }))
      | _ => .next s
/-- An ARM is missing 10 ms after replication. -/
def State.armDue (s : State) (d : Grid) : Bool := match d.phase with
  | .arming t => t ≤ s.timer && !d.done
  | _ => false
/-- ARM_TIMEOUT (R364). -/
def execArmTimeout (grid : Nat) (s : State) : Host.Outcome State Fault Refusal :=
  match s.grid? grid with
  | some d => if s.armDue d then .next (s.abortLaunch d 5) else .next s
  | none => .next s
/-- GO (R364): this package begins to place its share. -/
def execGo (ctx gen : Nat) (s : State) : Host.Outcome State Fault Refusal :=
  match s.stamped ctx (BitVec.ofNat 32 gen) with
  | some d => if d.phase = .await then .next (s.updGrid d.id (fun d => { d with phase := .placing, waitSince := s.timer })) else .next s
  | none => .next s
/-- ABORT (R364): this package places nothing of the launch. -/
def execAbort (ctx gen : Nat) (s : State) : Host.Outcome State Fault Refusal :=
  match s.stamped ctx (BitVec.ofNat 32 gen) with
  | some d => if d.phase = .await then .next (s.updGrid d.id (fun d => { d with phase := .refused, done := true })) else .next s
  | none => .next s

end Sys2Proof.Machine
end

