-- ==== Sys2Proof/Machine/Palette.lean ====
section
/-! DEFINITION. The palette and accumulator instructions at issue: shape records, regions, checks and acceptance (R255 to
R283). -/
namespace Sys2Proof.Machine

/-! ## Shape records (R265 to R267) -/

/-- Fields of a shape record (R265). -/
def shBase (sh : BitVec 1536) : Nat := fld sh.toNat 0 64
def shKind (sh : BitVec 1536) : Nat := fld sh.toNat 64 4
def shFmt (sh : BitVec 1536) : Nat := fld sh.toNat 68 4
def shPln (sh : BitVec 1536) : Nat := fld sh.toNat 72 3
def shRows (sh : BitVec 1536) : Nat := fld sh.toNat 96 16
def shLen (sh : BitVec 1536) : Nat := fld sh.toNat 112 16
def shStride (sh : BitVec 1536) : Nat := fld sh.toNat 128 32
/-- Bytes of a row, or of a line under R101. -/
def shRowBytes (sh : BitVec 1536) : Nat :=
  if shKind sh = 2 then roundUp (shLen sh / 32) 16 + 4 * (shPln sh + 1) * (shLen sh / 32) else shLen sh * shapeSize (shFmt sh)
/-- Address of row r (R266). -/
def shRow (sh : BitVec 1536) (r : Nat) : Nat := (shBase sh + r * shStride sh) % 2 ^ 64

/-- The lowest SHAPE reason of R263 that a record of kinds 1 to 3 meets, for an instruction that accepts the given kind
and formats; 0 if none. A drain may fill SCL, RND, SAT and PLN. -/
def shapeReason (sh : BitVec 1536) (kind : Nat) (fmts : List Nat) (drain : Bool) : Nat :=
  let v := sh.toNat
  let len := shLen sh
  let al := if kind = 2 then 16 else 4
  let need := if kind = 2 then roundUp (shRowBytes sh) 16 else shRowBytes sh
  if shKind sh != kind then 1
  else if !fmts.contains (shFmt sh) then 2
  else if shRows sh = 0 || 256 < shRows sh || len = 0
      || (if kind = 3 then 256 < len else len % 32 != 0 || 65504 < len) then 3
  else if shBase sh % al != 0 || shStride sh % al != 0 || shStride sh < need then 4
  else if fld v 78 2 != 0 || fld v 88 8 != 0 || fld v 160 1376 != 0 then 5
  else if drain then (if shFmt sh = 9 && fld v 80 8 != 0 then 6 else 0)
  else if fld v 75 3 != 0 || fld v 80 8 != 0 || (kind != 2 && shPln sh != 0) then 6
  else 0

/-- Capacity of a core's record cache (R267). -/
def shapeCap : Nat := 64
/-- A record read enters the core's cache, the oldest leaving a full one. -/
def State.cacheShape (s : State) (e : ShapeEntry) : State :=
  let mine := s.shapes.filter (fun (x : ShapeEntry) => x.core == e.core)
  let l := if mine.length < shapeCap then s.shapes else
    (match mine with | o :: _ => s.shapes.filter (fun (x : ShapeEntry) => x != o) | [] => s.shapes)
  { s with shapes := l ++ [e] }
/-- The record an instruction names: the core's cached copy, or one read from memory (R265, R267). -/
def Rdy.shape (r : Rdy) (s : State) (att ptr : Nat) (k : State → Rdy → BitVec 1536 → State) : State :=
  let ctx := s.ctxOf r.i.g
  match s.shapes.find? (fun (e : ShapeEntry) => e.core == r.i.g.core && e.ctx == ctx && e.addr == ptr) with
  | some e => k s r e.shape
  | none =>
    if ptr / 2 ^ 56 != 0 || 2 ^ 56 < ptr + 192 then r.fault s causeAperture ptr
    else if ptr % 16 != 0 then r.fault s causeMisalign ptr
    else match r.i.accessFrom s r.word att r.act ⟨wantLoad (some r.i.w.pkr), false, none⟩ [⟨r.low, ptr, 192⟩] with
    | .stop s => s
    | .go s i l =>
      let (gs, s) := s.readAll (i.mmu s) false false l
      let sh : BitVec 1536 := BitVec.ofNat 1536 (leVal ((gs.map (fun g => g.bytes)).flatten))
      k (s.cacheShape ⟨i.g.core, ctx, ptr, sh⟩) { r with i := i } sh

/-- A pointer in an aperture that admits it, within its extent (R46 to R51, R266, R276); `own` admits 0xF3 for the
issuer only. -/
def State.regionOk (s : State) (r : Rdy) (glob own : Bool) (a n : Nat) : Bool :=
  (s.locate r.i.g r.i.w.idx r.low a n != .bad)
    && (if a / 2 ^ 56 = 0 then glob
        else if a / 2 ^ 56 = 0xF3 then !own || fld a 21 3 == r.i.g.team
        else a / 2 ^ 56 = 0xF0 || a / 2 ^ 56 = 0xF2)
/-- Checks 3 and 4 of R266 on a region of ranges: apertures and extents, then translation. The accessed leaves are
marked. -/
def Rdy.region (r : Rdy) (s : State) (att : Nat) (glob own : Bool) (w : Want) (l : List (Nat × Nat))
    (k : State → Rdy → List (List (Place × Nat)) → State) : State :=
  match l.find? (fun a => !s.regionOk r glob own a.1 a.2) with
  | some a => r.fault s causeAperture a.1
  | none => match r.i.accessFrom s r.word att r.act ⟨w, false, none⟩ (l.map (fun a => ⟨r.low, a.1, a.2⟩)) with
    | .stop s => s
    | .go s i l =>
      let s := l.foldl (fun (s : State) q => q.xs.foldl (fun (s : State) x => s.touch (i.mmu s) x w.wr) s) s
      k s { r with i := i } (l.map (fun q => q.parts))

/-- `tval` of R263. -/
def palVal (reason detail : Nat) : Nat := reason * 2 ^ 24 + detail % 2 ^ 24
/-- A record's checks of R266 in order, and its rows as they translate. -/
def Rdy.rowsOf (r : Rdy) (s : State) (att ptr : Nat) (sh : BitVec 1536) (kind : Nat) (fmts : List Nat) (drain : Bool) (w : Want)
    (k : State → Rdy → List (List (Place × Nat)) → State) : State :=
  let why := shapeReason sh kind fmts drain
  if why != 0 then r.fault s causeShape (palVal why ptr)
  else r.region s att (kind == 3) (kind == 1) w ((List.range (shRows sh)).map (fun n => (shRow sh n, shRowBytes sh))) k

/-! ## Acceptance (R258 to R261) -/

/-- What the last accepted writer of a palette will leave (R260): HAS, VALID, K block, rows, and whether it can be
rebuilt. -/
structure PalView where
  has : Bool
  valid : Bool
  kb : Nat
  rows : Nat
  can : Bool
deriving DecidableEq, Repr
def Palette.view (x : Palette) : PalView :=
  ⟨x.has, x.valid, (x.desc.map (fun d => d.kblk)).getD 0, (x.desc.map (fun d => d.rows)).getD 0, x.canRebuild⟩
def Group.view (g : Group) (p : Nat) : PalView :=
  g.palOps.foldl (fun (v : PalView) o => match o.kind with
    | .build q sh kb _ => if q = p then ⟨true, true, kb, shRows sh, true⟩ else v
    | .fill q _ d => if q = p then
        ⟨true, fld d.toNat 108 1 == 1, fld d.toNat 128 16, fld d.toNat 96 8 + 1,
          !(fld d.toNat 109 1 == 1 && fld d.toNat 56 8 == 0xF2)⟩ else v
    | .look q _ _ _ _ _ _ _ true => if q = p then { v with valid := v.valid || v.can } else v
    | _ => v) (g.pal p).view
/-- A writer of the palette is outstanding (R273). -/
def Group.palPend (g : Group) (p : Nat) : Bool :=
  g.palOps.any (fun o => match o.kind with
    | .copy q _ _ _ => q == p
    | k => k.palUse == some (p, true))

/-- The instruction is accepted by the palette unit, which performs it later; the issuer goes on. -/
def Rdy.accept (r : Rdy) (s : State) (att : Nat) (k : PalKind) (rows : List (List (Place × Nat))) : State :=
  let id := s.nextId
  let o : PalOp := { id := id, warp := r.i.w.idx, lane := r.low, pkr := r.i.w.pkr, kind := k, rows := rows, dirty := false, copies := [],
                     due := s.timer + s.sliceNs r.i.g.core (k.cycles r.i.g) }
  let s := (s.updGroup r.i.g.id (fun g => { g with palOps := g.palOps ++ [o] })).fresh
  r.done (r.i.outst s att (.palette id))

/-- A reader of the palette stands earlier in the clause (R260). -/
def Iss.readBefore (i : Iss) (p : Nat) : Bool :=
  (i.c.words.take ((i.u.pc.toNat - i.c.head.toNat) / 8 - 1)).any (fun w => match decode w with
    | .ok (.plook f) => f.p.toNat == p
    | .ok (.pspill f) => f.p.toNat == p
    | .ok (.pstat f) => f.p.toNat == p
    | .ok (.pinv f) => f.p.toNat == p
    | _ => false)
/-- A writer of pX: ILLOP behind a reader of its clause (R260). -/
def Rdy.writer (r : Rdy) (s : State) (p : Nat) (k : State) : State :=
  if r.i.readBefore p then r.fault s causeIllop p else k

/-- Tiles a group may name (R256), and a run that stays within them (R257). -/
def State.runOk (s : State) (g : Group) (l : List Nat) : Bool :=
  l.all (fun n => n ≤ 15 && ((n < pfld (s.pktOf g) 547 4 && n < 8) || (8 ≤ n && g.lent.isSome)))
    && !(l.any (· < 8) && l.any (8 ≤ ·))
/-- The first tile of a run whose version is past v (R261). -/
def Group.verBad (g : Group) (l : List Nat) (v : BitVec 16) : Option Nat :=
  (l.find? (fun n => 2 ^ 15 ≤ (v - (g.tile n).ver).toNat)).map (fun n => n * 2 ^ 16 + (g.tile n).ver.toNat)
/-- Low 16 bits of a uniform operand, as a version (R261). -/
def verOf (v : DWord) : BitVec 16 := v.setWidth 16
/-- Low 32 bits of a uniform operand. -/
def w32 (v : DWord) : Nat := v.toNat % 2 ^ 32

/-! ## The instructions -/

/-- PBUILD (R270, R271). -/
def execPbuild (f : PalF) (s : State) : Host.Outcome State Fault Refusal :=
  s.issue (.pbuild f) (fun s r =>
    let p := f.p.toNat
    let ptr := (r.a r.low).toNat
    let kb := w32 (r.b r.low)
    if r.act = 0 then r.done s
    else r.writer s p (r.shape s f.att.toNat ptr (fun s r sh =>
      r.rowsOf s f.att.toNat ptr sh 1 [1, 2, 3, 4, 5, 8] false (wantLoad (some r.i.w.pkr)) (fun s r rows =>
        let m := if f.mod then w32 (r.c r.low) % 64 else 0
        let n := shapeSize (shFmt sh)
        if shLen sh / 32 ≤ kb then r.fault s causePalRange (palVal 1 kb)
        else if m / 2 ^ s.teamSize r.i.g != 0 then r.fault s causePalRange (palVal 6 m)
        else r.accept s f.att.toNat (.build p sh kb m) (rows.map (fun l => subParts l (32 * kb * n) (32 * n)))))))

/-- PLOOK (R274, R275). -/
def execPlook (f : PlookF) (s : State) : Host.Outcome State Fault Refusal :=
  s.issue (.plook f) (fun s r =>
    let p := f.p.toNat
    let n := f.n.toNat
    let ptr := (r.a r.low).toNat
    let v := verOf (r.b r.low)
    if r.act = 0 then r.done s
    else
      let k := r.shape s f.att.toNat ptr (fun s r sh =>
        r.rowsOf s f.att.toNat ptr sh 2 [7] false (wantLoad (some r.i.w.pkr)) (fun s r rows =>
          let x := r.i.g.view p
          let planes := if f.all then shPln sh + 1 else f.km.toNat + 1
          let run := runTiles n x.rows
          let last := n + cdiv x.rows 64 - 1
          let col := f.col.toNat + shRows sh
          if !x.has || (!x.valid && !(f.rebuild && x.can)) then r.fault s causePalStale p
          else if shLen sh / 32 ≤ x.kb then r.fault s causePalRange (palVal 1 x.kb)
          else if !s.runOk r.i.g run then r.fault s causePalRange (palVal 2 last)
          else if 256 < col then r.fault s causePalRange (palVal 3 col)
          else if shPln sh + 1 < planes then r.fault s causePalRange (palVal 4 planes)
          else
            let ty := run.map (fun t => r.i.g.tyAt t v)
            if (ty.any id && !ty.all id) || (f.sat && !ty.all id) then r.fault s causePalRange (palVal 5 n)
            else match r.i.g.verBad run v with
            | some t => r.fault s causeAccVer t
            | none => r.accept s f.att.toNat (.look p n v sh planes f.col.toNat x.rows f.sat f.rebuild) rows))
      if f.rebuild then r.writer s p k else k)

/-- PINV (R272). -/
def execPinv (f : PalF) (s : State) : Host.Outcome State Fault Refusal :=
  s.issue (.pinv f) (fun s r =>
    let p := f.p.toNat
    if r.act = 0 then r.done s
    else
      let pend := r.i.g.palOps.any (fun o => o.kind.palUse == some (p, true))
      let s := s.updGroup r.i.g.id (fun g => g.setPal p { g.pal p with valid := false })
      if pend then r.accept s 0 (.inv p) [] else r.done s)

/-- PSTAT's word (R273). -/
def palWord (g : Group) (p : Nat) : Nat :=
  let x := g.pal p
  let c := match x.desc with
    | some d => d.kblk % 2 ^ 16 * 2 ^ 16 + (d.rows - 1) % 2 ^ 8 * 2 ^ 8 + d.member % 8 * 2 ^ 4 + (if d.rcv then 8 else 0)
    | none => 0
  c + (if g.palPend p then 4 else 0) + (if x.has then 2 else 0) + (if x.valid then 1 else 0)
/-- PSTAT (R273). -/
def execPstat (f : PalF) (s : State) : Host.Outcome State Fault Refusal :=
  s.issue (.pstat f) (fun s r => r.done (r.putS s f.d.toNat (BitVec.ofNat 32 (palWord r.i.g f.p.toNat))))

/-- The palettes whose source ranges a region overlaps become invalid (R77), and those that an accepted PBUILD will leave
(R78, R259). -/
def State.touchPals (s : State) (rows : List (List (Place × Nat))) : State :=
  let s := { s with groups := s.groups.map (fun (g : Group) => { g with palOps := g.palOps.map (fun (o : PalOp) => match o.kind with
      | .build _ _ _ _ => if rowsHit o.rows rows then { o with dirty := true } else o
      | _ => o) }) }
  rows.flatten.foldl (fun (s : State) q => match q.1 with
    | .scr g off => s.palTouch g false off q.2
    | .ext g off => s.palTouch g true off q.2
    | _ => s) s

/-- PSPILL (R276): the palette it will find fixes the image's size; its invalidations take effect now (R259). -/
def execPspill (f : PalF) (s : State) : Host.Outcome State Fault Refusal :=
  s.issue (.pspill f) (fun s r =>
    let p := f.p.toNat
    let a := (r.a r.low).toNat
    let x := r.i.g.view p
    if r.act = 0 then r.done s
    else if !x.has then r.fault s causePalStale p
    else if !s.regionOk r true false a (imageBytes x.rows) then r.fault s causeAperture a
    else if a % 16 != 0 then r.fault s causeMisalign a
    else r.region s f.att.toNat true false (wantStore (some r.i.w.pkr)) [(a, imageBytes x.rows)] (fun s r rows =>
      r.accept (s.touchPals rows) f.att.toNat (.spill p (BitVec.ofNat 64 a)) rows))

/-- A malformed build descriptor (R277). -/
def descBad (d : Nat) : Bool :=
  fld d 110 2 != 0 || fld d 115 13 != 0 || fld d 144 112 != 0 || !(List.contains [1, 2, 3, 4, 5, 8] (fld d 104 4)) || fld d 64 32 % 4 != 0
/-- PFILL (R276): the descriptor is read and checked at issue. -/
def execPfill (f : PalF) (s : State) : Host.Outcome State Fault Refusal :=
  s.issue (.pfill f) (fun s r =>
    let p := f.p.toNat
    let a := (r.a r.low).toNat
    let w := wantLoad (some r.i.w.pkr)
    if r.act = 0 then r.done s
    else r.writer s p (
      if !s.regionOk r true false a 32 then r.fault s causeAperture a
      else if a % 16 != 0 then r.fault s causeMisalign a
      else match r.i.accessFrom s r.word f.att.toNat r.act ⟨w, false, none⟩ [⟨r.low, a, 32⟩] with
      | .stop s => s
      | .go s i l =>
        let (gs, s) := s.readAll (i.mmu s) false false l
        let r := { r with i := i }
        let d := leVal ((gs.map (fun g => g.bytes)).flatten)
        if descBad d then r.fault s causeShape (palVal 5 a)
        else r.region s f.att.toNat true false w [(a, imageBytes (fld d 96 8 + 1))] (fun s r rows =>
          r.accept s f.att.toNat (.fill p (BitVec.ofNat 64 a) (BitVec.ofNat 256 d)) rows)))

/-- AZERO (R278). -/
def execAzero (f : PalF) (s : State) : Host.Outcome State Fault Refusal :=
  s.issue (.azero f) (fun s r =>
    let n := f.p.toNat
    let v := verOf (r.b r.low)
    let h := w32 (r.c r.low)
    let run := runTiles n h
    if r.act = 0 then r.done s
    else if h = 0 || 256 < h then r.fault s causePalRange (palVal 8 h)
    else if !s.runOk r.i.g run then r.fault s causePalRange (palVal 2 (n + cdiv h 64 - 1))
    else match r.i.g.verBad run v with
      | some t => r.fault s causeAccVer t
      | none => r.accept s f.att.toNat (.zero n v h f.mod) [])

/-- ALOAD (R279). -/
def execAload (f : PalF) (s : State) : Host.Outcome State Fault Refusal :=
  s.issue (.aload f) (fun s r =>
    let n := f.p.toNat
    let ptr := (r.a r.low).toNat
    let v := verOf (r.b r.low)
    if r.act = 0 then r.done s
    else r.shape s f.att.toNat ptr (fun s r sh =>
      r.rowsOf s f.att.toNat ptr sh 3 [1, 2, 3, 9] false (wantLoad (some r.i.w.pkr)) (fun s r rows =>
        let run := runTiles n (shRows sh)
        if !s.runOk r.i.g run then r.fault s causePalRange (palVal 2 (n + cdiv (shRows sh) 64 - 1))
        else match r.i.g.verBad run v with
          | some t => r.fault s causeAccVer t
          | none => r.accept s f.att.toNat (.load n v sh) rows)))

/-- AREAD (R280). -/
def execAread (f : PalF) (s : State) : Host.Outcome State Fault Refusal :=
  s.issue (.aread f) (fun s r =>
    let n := f.p.toNat
    let row := w32 (r.a r.low)
    let col := w32 (r.c r.low)
    let v := verOf (r.b r.low)
    if r.act = 0 then r.done s
    else if !(row < 64 || (256 ≤ row && row ≤ 258)) || (if row = 258 then 32 else 224) < col then
      r.fault s causePalRange (palVal 7 row)
    else match (if f.mod then r.i.g.verBad [n] v else none) with
    | some t => r.fault s causeAccVer t
    | none => r.accept s f.att.toNat (.read n (if f.mod then some v else none) row col f.d.toNat r.act) [])

/-- AVER's word (R281). -/
def tileWord (g : Group) (n : Nat) : Nat :=
  let t := g.tile n
  let q := (g.palOps.filter (fun o => o.kind.ver.isSome && o.kind.tiles.contains n)).length
  min q 16 * 2 ^ 24 + (if t.pois.isEmpty then 0 else 2 ^ 17) + (if t.i32 then 2 ^ 16 else 0) + t.ver.toNat
/-- AVER (R281). -/
def execAver (f : PalF) (s : State) : Host.Outcome State Fault Refusal :=
  s.issue (.aver f) (fun s r => r.done (r.putS s f.d.toNat (BitVec.ofNat 32 (tileWord r.i.g f.p.toNat))))

/-- ADRAIN (R282): its invalidations take effect at acceptance (R259). -/
def execAdrain (f : PalF) (s : State) : Host.Outcome State Fault Refusal :=
  s.issue (.adrain f) (fun s r =>
    let n := f.p.toNat
    let ptr := (r.a r.low).toNat
    let v := verOf (r.b r.low)
    if r.act = 0 then r.done s
    else r.shape s f.att.toNat ptr (fun s r sh =>
      r.rowsOf s f.att.toNat ptr sh 3 (if r.i.g.tyAt n v then [1, 9] else [1, 2, 3, 4, 5]) true (wantStore (some r.i.w.pkr))
        (fun s r rows =>
          let run := runTiles n (shRows sh)
          if !s.runOk r.i.g run then r.fault s causePalRange (palVal 2 (n + cdiv (shRows sh) 64 - 1))
          else
            let ty := run.map (fun t => r.i.g.tyAt t v)
            if ty.any id && !ty.all id then r.fault s causePalRange (palVal 5 n)
            else match r.i.g.verBad run v with
            | some t => r.fault s causeAccVer t
            | none => r.accept (s.touchPals rows) f.att.toNat (.drain n v sh f.mod (BitVec.ofNat 64 r.word)) rows)))

/-- RFENCE (R267). -/
def execRfence (f : PalF) (s : State) : Host.Outcome State Fault Refusal :=
  s.issue (.rfence f) (fun s r =>
    let ptr := (r.a r.low).toNat
    let ctx := s.ctxOf r.i.g
    if r.act = 0 then r.done s
    else match f.a with
    | .s _ =>
      if ptr / 2 ^ 56 != 0 then r.fault s causeAperture ptr
      else if ptr % 16 != 0 then r.fault s causeMisalign ptr
      else r.done { s with shapes := s.shapes.filter (fun (e : ShapeEntry) => !(e.core == r.i.g.core && e.ctx == ctx && e.addr == ptr)) }
    | _ => r.done { s with shapes := s.shapes.filter (fun (e : ShapeEntry) => e.core != r.i.g.core) })

/-- SRLD (R267): the record enters the cache, and its checks follow its KIND. -/
def execSrld (f : PalF) (s : State) : Host.Outcome State Fault Refusal :=
  s.issue (.srld f) (fun s r =>
    let ptr := (r.a r.low).toNat
    if r.act = 0 then r.done s
    else r.shape s f.att.toNat ptr (fun s r sh =>
      let k := shKind sh
      let w := wantLoad (some r.i.w.pkr)
      let done (s : State) (r : Rdy) (_ : List (List (Place × Nat))) : State := r.done (r.i.outst s f.att.toNat .free)
      if k = 0 || 5 < k then r.fault s causeShape (palVal 1 ptr)
      else if k = 1 then r.rowsOf s f.att.toNat ptr sh 1 [1, 2, 3, 4, 5, 8] false w done
      else if k = 2 then r.rowsOf s f.att.toNat ptr sh 2 [7] false w done
      else if k = 3 then r.rowsOf s f.att.toNat ptr sh 3 [1, 2, 3, 4, 5, 9] true w done
      else done s r []))

end Sys2Proof.Machine
end

