-- ==== Sys2Proof/Machine/Engines.lean ====
section
/-! DEFINITION. Engine jobs: acceptance, their accesses and records, the tile copy engine, and completion (R73 to R76,
R233 to R235, R242, R293 to R298). -/
namespace Sys2Proof.Machine

/-! ## Acceptance (R73, R235) -/

/-- The engine that a job goes to: 1 tile copy, 2 frame decode, 3 collective. -/
def Job.kind (j : Job) : Nat := if j.acopy then 1 else j.engine
/-- Outstanding jobs that an engine holds for a die. -/
def engineCap : Nat := 64
/-- An accepted job that has not ended. -/
def Job.running (j : Job) : Bool := j.st != .queued && j.st != .ended
/-- The engine can accept the job: it is the first of its warp in the port, and the engine has room. -/
def State.acceptDue (s : State) (j : Job) : Bool :=
  j.st == .queued && s.jobs.all (fun e => !(e.gid == j.gid && e.warp == j.warp && e.st == .queued && e.id < j.id))
    && (s.jobs.filter (fun e => e.die == j.die && e.kind == j.kind && e.running)).length < engineCap
/-- JOB_ACCEPT (R73, R127, R235): the instruction's outstanding period ends. A malformed card ends the job at once (R293). -/
def execJobAccept (job : Nat) (s : State) : Host.Outcome State Fault Refusal :=
  match s.job? job with
  | none => .next s
  | some j =>
    if !s.acceptDue j then .next s
    else
      let s := (s.updJob job (fun j => { j with
        st := if j.malformed then .ended else .accepted, status := if j.malformed then 4 else 0, seq := s.nextId })).fresh
      .next ((s.updGroup j.gid (fun g => g.count 11 1)).settle (.job job))

/-- A team pointer to the group's own scratchpad, in the form of its scratchpad aperture. -/
def ownPtr (g : Group) (p : Nat) : Nat :=
  if p / 2 ^ 56 = 0xF3 && fld p 21 3 == g.team then 0xF0 * 2 ^ 56 + p % 2 ^ 20 else p
/-- Declared regions of a job: address, length, and whether it is written (R233, R294). -/
def Job.regions (j : Job) : List (Nat × Nat × Bool) :=
  if j.acopy then [(cfld j.card 0 64, cfld j.card 128 64, false), (cfld j.card 64 64, cfld j.card 128 64, true)]
  else ((List.range 8).map (fun i => ((cardRegion j.card i).1, (cardRegion j.card i).2, decide (4 ≤ i)))).filter (fun r => r.2.1 != 0)
/-- A region that one of two jobs writes overlaps a region of the other (R73). -/
def jobsHit (g : Group) (a b : Job) : Bool :=
  a.regions.any (fun r => b.regions.any (fun q =>
    (r.2.2 || q.2.2) && ownPtr g r.1 < ownPtr g q.1 + q.2.1 && ownPtr g q.1 < ownPtr g r.1 + r.2.1))
/-- An earlier accepted job of the group must end first (R73). -/
def State.jobWaits (s : State) (g : Group) (j : Job) : Bool :=
  s.jobs.any (fun e => e.gid == j.gid && e.running && e.seq < j.seq && jobsHit g e j)

/-! ## Accesses (R233, R296) -/

/-- What the checks of one access of a job end in: parts, a STATUS that stops the job, an absent page, or a flip. -/
inductive EngAcc
  | ok (l : List (Place × Nat)) (xs : List Xlat)
  | bad (status : Nat)
  | absent (va level kind : Nat)
  | stall
deriving DecidableEq, Repr

def Job.mmu (j : Job) : Mmu := ⟨none, j.die, j.ctx⟩
def Job.agent (j : Job) : Agent := ⟨none, j.die, false⟩
/-- An access lies within one declared region of its direction (R296). -/
def Job.inRegion (j : Job) (wr : Bool) (p n : Nat) : Bool :=
  j.acopy || j.regions.any (fun r => r.2.2 == wr && r.1 ≤ p && p + n ≤ r.1 + r.2.1)
/-- Checks one access of a job. `decl` says that it must lie in a region. -/
def State.engAccess (s : State) (j : Job) (g : Group) (decl wr : Bool) (p n : Nat) : EngAcc × State :=
  if decl && !j.inRegion wr p n then (.bad 5, s)
  else match s.locate g j.warp j.lane p n with
    | .place x => (.ok [(x, n)] [], s)
    | .bad => (.bad 1, s)
    | .global => match s.resolveRange j.mmu (if wr then wantStore (some j.pkr) else wantLoad (some j.pkr)) p n with
      | (.ok l, s) =>
        let parts := l.map (fun x => (Place.phys x.1.pa (pteNc x.1.leaf), x.2))
        if parts.any (fun q => (s.inFlip q).isSome) then (.stall, s) else (.ok parts (l.map (fun x => x.1)), s)
      | (.prot _, s) => (.bad 1, s)
      | (.stall _, s) => (.stall, s)
      | (.absent va lv k, s) => (.absent va lv k, s)

/-- A byte as an engine moves it, and whether its word was poisoned. -/
abbrev EByte := Byte × Bool
/-- The byte of a place is poisoned. -/
def State.badAt (s : State) (p : Place) : Bool :=
  match p with
  | .phys pa _ => s.unreachable pa || poisonedIn s.memPoison pa 1
  | .scr gid off => (s.group? gid).any (fun g => poisonedIn g.scratchPoison off 1)
  | .ext gid off => (s.group? gid).any (fun g => poisonedIn g.extPoison off 1)
  | .priv gid w l off => (s.warp? gid w).any (fun x => poisonedIn x.privPoison (privKey l off) 1)
/-- Reads checked parts at the ordering point; A is set. -/
def State.engRead (s : State) (j : Job) (l : List (Place × Nat)) (xs : List Xlat) : List EByte × State :=
  let s := xs.foldl (fun (s : State) x => s.touch j.mmu x false) s
  l.foldl (fun (x : List EByte × State) p =>
    let (b, s) := x.2.readPlace j.agent p.1 p.2 true
    (x.1 ++ b.bytes.zipIdx.map (fun e => (e.1, b.bad && s.badAt (shiftPlace p.1 e.2))), s)) ([], s)
/-- Writes bytes to one part: words tagged as barrier objects are left out (R76), and poisoned bytes stay poisoned. -/
def State.engPut (s : State) (j : Job) (p : Place × Nat) (b : List EByte) : State :=
  let s := if !s.tagged p.1 p.2 then s.writePlace j.agent p.1 (b.map (fun e => e.1))
    else
      let s := s.updJob j.id (fun j => { j with tagHit := true, skipped := j.skipped + 1 })
      b.zipIdx.foldl (fun (s : State) e => let q := shiftPlace p.1 e.2
                                           if s.tagged q 1 then s else s.writePlace j.agent q [e.1.1]) s
  b.zipIdx.foldl (fun (s : State) e => let q := shiftPlace p.1 e.2
                                       if e.1.2 && !s.tagged q 1 then s.poisonPlace q 1 else s) s
/-- Writes checked parts; A and D are set. -/
def State.engWrite (s : State) (j : Job) (l : List (Place × Nat)) (xs : List Xlat) (b : List EByte) : State :=
  let s := xs.foldl (fun (s : State) x => s.touch j.mmu x true) s
  (l.foldl (fun (x : State × List EByte) p => (x.1.engPut j p (x.2.take p.2), x.2.drop p.2)) (s, b)).1

/-- A job stops with a STATUS (R298). -/
def State.endJob (s : State) (id status : Nat) : State := s.updJob id (fun j => { j with st := .ended, status := status })
/-- A replayable fault stalls the job until its reply (R233, R296, R380). `acc` is ACC of its record. -/
def State.stallJob (s : State) (j : Job) (g : Group) (acc va level kind : Nat) : State :=
  let e := { s.faultOf g kind with addr := BitVec.ofNat 64 va, acc := acc, level := level, src := j.kind,
                                   unit := 4 * j.die + j.eng, waiters := [.job j.id] }
  let (s, fid) := s.pushFault e
  s.updJob j.id (fun j => { j with st := .stalled fid })
/-- What an access that is not ready does to its job. -/
def State.engFail (s : State) (j : Job) (g : Group) (acc : Nat) (a : EngAcc) : State :=
  match a with
  | .bad n => s.endJob j.id n
  | .absent va lv k => s.stallJob j g acc va lv k
  | _ => s
/-- One read of a job, then what follows it. -/
def State.engLoad (s : State) (j : Job) (g : Group) (decl : Bool) (p n : Nat) (k : State → List EByte → State) : State :=
  match s.engAccess j g decl false p n with
  | (.ok l xs, s) => let (b, s) := s.engRead j l xs; k s b
  | (a, s) => s.engFail j g 0 a
/-- One write of a job, then what follows it. -/
def State.engStore (s : State) (j : Job) (g : Group) (p : Nat) (b : List EByte) (k : State → State) : State :=
  match s.engAccess j g true true p b.length with
  | (.ok l xs, s) => k (s.engWrite j l xs b)
  | (a, s) => s.engFail j g 1 a
/-- One atomic of a job, which reads n bytes and writes what `f` gives of them, or nothing, then what follows it. -/
def State.engRmw (s : State) (j : Job) (g : Group) (p n : Nat) (f : Nat → Option Nat) (k : State → Nat → State) : State :=
  match s.engAccess j g true true p n with
  | (.ok l xs, s) =>
    let (b, s) := s.engRead j l xs
    let v := leVal (b.map (fun e => e.1))
    (match f v with
      | some w => k (s.engWrite j l xs ((leBytes n w).map (fun x => (x, false)))) v
      | none => k s v)
  | (a, s) => s.engFail j g 2 a
/-- Poisoned data was copied (R234, R298). -/
def State.notePoison (s : State) (id : Nat) (b : List EByte) : State :=
  if b.any (fun e => e.2) then s.updJob id (fun j => { j with pois := true }) else s
def plainBytes (b : List EByte) : List Byte := b.map (fun e => e.1)

/-! ## Records (R265, R297) -/

/-- Reserved bits, and PLN, SCL, RND and SAT, of a record are 0. -/
def recZeros (sh : BitVec 1536) : Bool := fld sh.toNat 72 24 == 0 && fld sh.toNat 160 96 == 0
/-- A kind 4 record within its limits. -/
def copyRecOk (sh : BitVec 1536) : Bool :=
  shKind sh == 4 && shFmt sh == 0 && shRows sh != 0 && shLen sh != 0 && shLen sh ≤ shStride sh && recZeros sh
    && fld sh.toNat 256 1280 == 0 && jobAperture (shBase sh)
/-- Reads the record at an address, part of the card: 16-byte aligned and global, or STATUS 4. -/
def State.readRec (s : State) (j : Job) (g : Group) (p : Nat) (k : State → BitVec 1536 → State) : State :=
  if p % 16 != 0 || p / 2 ^ 56 != 0 then s.endJob j.id 4
  else s.engLoad j g false p 192 (fun s b => k s (BitVec.ofNat 1536 (leVal (plainBytes b))))
/-- Keeps the records that a job has read. -/
def State.setRecs (s : State) (id : Nat) (l : List (BitVec 1536)) : State := s.updJob id (fun j => { j with recs := l })

/-! ## The tile copy engine (R233, R295) -/

/-- A job may go on: accepted, and no earlier job of its group that it overlaps is outstanding. -/
def State.jobReady (s : State) (j : Job) (g : Group) : Bool := j.st == .accepted && !s.jobWaits g j
/-- SHAPEA and SHAPEB are read and checked before the first region access (R297). -/
def State.copyRecs (s : State) (j : Job) (g : Group) : State :=
  if j.acopy || !j.recs.isEmpty then s
  else if cfld j.card 4 4 = 3 then
    s.readRec j g (cfld j.card 192 64) (fun s b => if copyRecOk b then s.setRecs j.id [b] else s.endJob j.id 4)
  else
    s.readRec j g (cfld j.card 128 64) (fun s a => s.readRec j g (cfld j.card 192 64) (fun s b =>
      if copyRecOk a && copyRecOk b && shRows a == shRows b && shLen a == shLen b then s.setRecs j.id [a, b] else s.endJob j.id 4))
/-- Units of a job: 16-byte units, or rows. -/
def Job.total (j : Job) : Nat :=
  if j.acopy then cfld j.card 128 64 / 16 else match j.recs.getLast? with | some b => shRows b | none => 0
/-- One more unit is done; the last one ends the job. -/
def State.unitDone (s : State) (id : Nat) : State :=
  s.updJob id (fun j => { j with unit := j.unit + 1, st := if j.unit + 1 = j.total then .ended else j.st })
/-- Moves n bytes. -/
def State.engMove (s : State) (j : Job) (g : Group) (src dst n : Nat) : State :=
  s.engLoad j g true src n (fun s b => (s.notePoison j.id b).engStore j g dst b (fun s => s.unitDone j.id))
/-- The next unit of a tile copy job (R233, R295). -/
def State.copyUnit (s : State) (j : Job) (g : Group) : State :=
  let k := j.unit
  if j.acopy then s.engMove j g (cfld j.card 0 64 + 16 * k) (cfld j.card 64 64 + 16 * k) 16
  else match cfld j.card 4 4, j.recs with
    | 3, [b] =>
      let pat := cfld j.card 32 32
      s.engStore j g (shRow b k) ((List.range (shLen b)).map (fun i => (BitVec.ofNat 8 (fld pat (8 * (i % 4)) 8), false))) (fun s => s.unitDone j.id)
    | 0, [a, b] => s.engMove j g (shRow a k) (shRow b k) (shLen a)
    | op, [a, b] => s.engLoad j g true (cfld j.card 1280 64 + 4 * k) 4 (fun s x =>
        let i := leVal (plainBytes x)
        if shRows a ≤ i then s.endJob j.id 5
        else if op = 1 then s.engMove j g (shRow a i) (shRow b k) (shLen a)
        else s.engMove j g (shRow a k) (shRow b i) (shLen a))
    | _, _ => s
/-- The next units of a job, while it is neither ended nor stalled. -/
def State.copyRun (id : Nat) : Nat → State → State
  | 0, s => s
  | n + 1, s => match s.job? id with
    | none => s
    | some j => match s.group? j.gid with
      | none => s
      | some g => if s.jobReady j g then State.copyRun id n (s.copyUnit j g) else s
/-- TILE_COPY_JOB (R233, R295): the next n units of the job, ascending. -/
def execTileCopyJob (job n : Nat) (s : State) : Host.Outcome State Fault Refusal :=
  match s.job? job with
  | none => .next s
  | some j => match s.group? j.gid with
    | none => .next s
    | some g => if j.kind = 1 && s.jobReady j g then .next (State.copyRun job n (s.copyRecs j g)) else .next s

/-! ## Completion (R74, R75, R234, R242, R296, R298) -/

/-- UNITS of a token: of ACOPY, the units written (R234). -/
def Job.units (j : Job) : Nat := if j.acopy then (j.unit - j.skipped) % 2 ^ 17 else if j.kind = 2 then j.unit * 2 ^ 10 + j.corrupt * 2 ^ 5 + j.tainted else j.unit % 2 ^ 17
/-- STATUS of a token: a condition that stopped the job, else 2, 3 or 0 (R298). -/
def Job.final (j : Job) : Nat :=
  if j.status != 0 then j.status else if j.tagHit then 2 else if j.pois || j.corrupt != 0 then 3 else 0
/-- The engine's arrival of count 1 on ARRIVE; one that meets no tagged word is an overlap. -/
def State.jobArrive (s : State) (j : Job) (g : Group) : Job × State :=
  let p := cfld j.card 64 64
  if j.acopy || p = 0 || j.status = 4 then (j, s)
  else
    let miss : Job × State := ({ j with tagHit := true }, s)
    if p / 2 ^ 56 != 0xF0 && p / 2 ^ 56 != 0xF3 then miss
    else match s.locate g j.warp j.lane p 16 with
      | .place (.scr gid off) => if off % 16 = 0 && s.isObj gid off then (j, s.hitObj gid off 1 none) else miss
      | _ => miss
/-- JOB_COMPLETE (R74, R75, R234, R298): the arrival, then the token. -/
def execJobComplete (job : Nat) (s : State) : Host.Outcome State Fault Refusal :=
  match s.job? job with
  | none => .next s
  | some j => match s.group? j.gid with
    | none => .next s
    | some g =>
      if j.st != .ended then .next s
      else
        let (j, s) := s.jobArrive j g
        let v : Word := BitVec.ofNat 32 (j.final * 2 ^ 28 + j.units)
        let s := { s with jobs := s.jobs.filter (fun (e : Job) => e.id != job) }
        let s := s.updWarp j.gid j.warp (fun (w : Warp) =>
          match tfind w.tokens j.tok with
          | some t => if t.job = job then { w with sregs := tput 0 w.sregs j.tok v, tokens := tins w.tokens j.tok ⟨job, true⟩ } else w
          | none => w)
        .next (s.ctxRest j.ctx)

end Sys2Proof.Machine
end

