-- ==== Sys2Proof/Machine/Collective.lean ====
section
/-! DEFINITION. The collective engine (R402 to R406). Each package sends its rank's part to the others, and
theirs arrive over Psimel with the event. -/
namespace Sys2Proof.Machine

/-! ## The peer set record (R402, R403) -/

/-- Fields of a peer set record. -/
def peerN (p : Nat) : Nat := fld p 0 8
def peerRank (p : Nat) : Nat := fld p 8 8
def peerPkg (p r : Nat) : Nat := fld p (128 + 8 * r) 8
/-- Packages of the ranks. -/
def peerPkgs (p : Nat) : List Nat := (List.range (peerN p)).map (peerPkg p)
/-- A malformed record (R402). -/
def peerBad (own p : Nat) : Bool :=
  let n := peerN p
  n < 2 || 64 < n || n ≤ peerRank p || peerPkg p (peerRank p) != own || (peerPkgs p).eraseDups.length != n
    || fld p 16 16 != 0 || fld p 640 384 != 0 || fld p (128 + 8 * n) (8 * (64 - n)) != 0
/-- The record that a started job has read, and its key (R403). -/
def Job.peer (j : Job) : Nat := match j.recs with | [_, _, p] => p.toNat | _ => 0
def Job.collKey (j : Job) : Nat × Nat × Nat := (j.ctx, fld j.peer 32 32, fld j.peer 64 32)

/-! ## Formats and sizes (R403, R404) -/

def Job.collFmt (j : Job) : Nat := cfld j.card 32 4
def Job.collOp (j : Job) : Nat := cfld j.card 36 4
/-- Planes of a BP block. -/
def Job.collPlanes (j : Job) : Nat := cfld j.card 40 3 + 1
/-- Bits of an element. -/
def collBits (f : Nat) : Nat := match f with
  | 2 | 3 => 16
  | 4 | 5 => 8
  | 6 => 4
  | _ => 32
/-- Bytes of a unit. -/
def Job.unitBytes (j : Job) : Nat := if j.collFmt = 7 then 4 + 4 * j.collPlanes else 4 * collBits j.collFmt
/-- Bytes of a record's rows. -/
def recBytes (sh : BitVec 1536) : Nat := shRows sh * shLen sh
/-- Sizes that R404 allows the operation. -/
def Job.sizesOk (j : Job) (zs zd n : Nat) : Bool :=
  match cfld j.card 4 4 with
  | 0 => zd == zs && zs % j.unitBytes == 0
  | 1 => zs % (n * j.unitBytes) == 0 && zd * n == zs
  | _ => zd == n * zs && j.collOp == 0

/-! ## Reduction of one unit (R405) -/

/-- Element format of a floating code. -/
def collFloat (f : Nat) : Fmt := match f with
  | 1 => fmtF32
  | 2 => fmtF16
  | 3 => fmtBf16
  | 4 => fmtE4m3
  | 5 => fmtE5m2
  | _ => fmtE2m1
/-- An exact dyadic value. -/
abbrev Dyadic := Bool × Nat × Int
/-- floor(log2 |x|) of a nonzero value. -/
def topExp (x : Dyadic) : Int := (bitLen x.2.1 : Int) - 1 + x.2.2
/-- The largest of a list. -/
def greatest : List Int → Option Int
  | [] => none
  | x :: r => match greatest r with | none => some x | some y => some (if x < y then y else x)
/-- q · 2^(E − 40), the sum of terms rounded to that grid. -/
def gridSum (e : Int) (l : List Dyadic) : Dyadic :=
  let q := l.foldl (fun (a : Int) x =>
    let r : Int := (roundInt .rne x.1 x.2.1 (x.2.2 + 40 - e)).1
    if x.1 then a - r else a + r) 0
  (q < 0, q.natAbs, e - 40)
/-- Sum of one element's encodings, one for each rank, under the unit's exponent. -/
def sumElem (f : Fmt) (e : Option Int) (l : List Nat) : Res :=
  let x := l.map f.dec
  if x.any Fp.isNan || (x.contains (.inf false) && x.contains (.inf true)) then ⟨f.qnan, 0⟩
  else if x.contains (.inf false) then ⟨f.infEnc false, 0⟩
  else if x.contains (.inf true) then ⟨f.infEnc true, 0⟩
  else match e with
    | none => ⟨0, 0⟩
    | some e => let y := gridSum e (x.filterMap (fun v => match v with | .fin n m k => some (n, m, k) | _ => none))
                f.round .rne false false y.1 y.2.1 y.2.2
/-- Encodings of a unit, 32 elements of w bits. -/
def unitElems (w : Nat) (b : List Byte) : List Nat := (List.range 32).map (fun i => fld (leVal b) (w * i) w)
def packElems (w : Nat) (l : List Nat) : List Byte := leBytes (4 * w) (l.zipIdx.foldl (fun a x => a + x.1 * 2 ^ (w * x.2)) 0)
/-- A floating unit reduced, with its element results (R111). -/
def reduceFloat (code op : Nat) (l : List (List Byte)) : List Byte × List Count :=
  let f := collFloat code
  let w := collBits code
  let us := l.map (unitElems w)
  let e := greatest ((us.flatten.map f.dec).filterMap (fun v => match v with
    | .fin n m k => if m = 0 then none else some (topExp (n, m, k))
    | _ => none))
  let rs := (List.range 32).map (fun i =>
    let xs := us.map (fun u => u.getD i 0)
    let r := if op = 0 then sumElem f e xs else match xs with
      | [] => ⟨0, 0⟩
      | x :: r => r.foldl (fun (a : Res) y => fpMinMax f plainEnv (op == 1) false a.bits y) ⟨x, 0⟩
    (r, countOf f f xs r))
  (packElems w (rs.map (fun x => x.1.bits)), rs.map (fun x => x.2))
/-- An i32 unit reduced: wrapping sum, signed largest or smallest. -/
def reduceI32 (op : Nat) (l : List (List Byte)) : List Byte :=
  let us := l.map (unitElems 32)
  packElems 32 ((List.range 32).map (fun i =>
    let xs := us.map (fun u => sval (u.getD i 0) 32)
    wrapN (if op = 0 then xs.foldl (· + ·) 0 else match xs with
      | [] => 0
      | x :: r => r.foldl (fun a y => if (if op = 1 then a < y else y < a) then y else a) x) 32))
/-- The values of a BP block of n planes (R99). -/
def bpValues (n : Nat) (b : List Byte) : List Dyadic :=
  let v := leVal b
  let s := sval (fld v 0 8) 8
  (List.range 32).map (fun i =>
    if s = -128 then (false, 0, 0)
    else
      let c := 2 * sval ((List.range n).foldl (fun a p => 2 * a + fld v (32 + 32 * p + i) 1) 0) n + 1
      (decide (c < 0), c.natAbs, s))
/-- One exact value is below another. -/
def dyadicLess (x y : Dyadic) : Bool :=
  let e := if x.2.2 < y.2.2 then x.2.2 else y.2.2
  let v (z : Dyadic) : Int := (if z.1 then -1 else 1) * (z.2.1 * 2 ^ (z.2.2 - e).toNat : Nat)
  v x < v y
/-- A BP unit reduced. -/
def reduceBp (n op : Nat) (l : List (List Byte)) : List Byte :=
  let us := l.map (bpValues n)
  let e := greatest (l.filterMap (fun b => let s := sval (fld (leVal b) 0 8) 8
                                         if s = -128 then none else some (s + n - 1)))
  let y (i : Nat) : Dyadic :=
    let xs := us.map (fun u => u.getD i (false, 0, 0))
    if op = 0 then (match e with | none => (false, 0, 0) | some e => gridSum e xs)
    else match xs with
      | [] => (false, 0, 0)
      | x :: r => r.foldl (fun a z => if (if op = 1 then dyadicLess a z else dyadicLess z a) then z else a) x
  let b := bpPackV n 0xFFFFFFFF (fun i => some (y i))
  leBytes 4 (wrapN b.scale 8) ++ (List.range n).flatMap (fun p => leBytes 4 (bpPlane n p b.codes).toNat)
/-- A unit of the reduction, from the units of the ranks in order. -/
def Job.reduceUnit (j : Job) (l : List (List Byte)) : List Byte × List Count :=
  if j.collFmt = 7 then (reduceBp j.collPlanes j.collOp l, [])
  else if j.collFmt = 8 then (reduceI32 j.collOp l, [])
  else reduceFloat j.collFmt j.collOp l
/-- The destination of rank r from the sources of all ranks (R404). -/
def Job.reduce (j : Job) (r : Nat) (src : List (List EByte)) : List EByte × List Count :=
  match cfld j.card 4 4 with
  | 2 => (src.flatten, [])
  | op =>
    let u := j.unitBytes
    let n := src.length
    let units := (src.headD []).length / u
    let part := if op = 1 then (List.range (units / n)).map (fun k => r * (units / n) + k) else List.range units
    part.foldl (fun (a : List EByte × List Count) k =>
      let x := src.map (fun b => (b.drop (k * u)).take u)
      let y := j.reduceUnit (x.map plainBytes)
      (a.1 ++ y.1.map (fun b => (b, x.any (fun b => b.any (fun e => e.2)))), a.2 ++ y.2)) ([], [])

/-! ## The job (R402, R405, R406) -/

/-- Rows of a record with their addresses. -/
def recRows (sh : BitVec 1536) : List Nat := (List.range (shRows sh)).map (shRow sh)
/-- Reads rows in order, then what follows. -/
def State.loadRows (j : Job) (g : Group) (n : Nat) (k : State → List EByte → State) : List Nat → List EByte → State → State
  | [], b, s => k s b
  | p :: r, b, s => s.engLoad j g true p n (fun s x => State.loadRows j g n k r (b ++ x) s)
/-- Every row can be written; else the job stops, stalls or waits before any write. -/
def State.checkRows (j : Job) (g : Group) (n : Nat) (k : State → State) : List Nat → State → State
  | [], s => k s
  | p :: r, s => match s.engAccess j g true true p n with
    | (.ok _ _, s) => State.checkRows j g n k r s
    | (a, s) => s.engFail j g 1 a
/-- Writes a byte string over rows of n bytes. -/
def State.writeRows (j : Job) (g : Group) (n : Nat) : List Nat → List EByte → State → State
  | [], _, s => s
  | p :: r, b, s =>
    let s := match s.engAccess j g true true p n with
      | (.ok l xs, s) => s.engWrite j l xs (b.take n)
      | (_, s) => s
    State.writeRows j g n r (b.drop n) s

/-- This rank's part of a collective: what matched jobs must agree in, and the source (R403). -/
def Job.part (j : Job) (mine : List EByte) : RankData :=
  let (zs, zd) := match j.recs with
    | a :: b :: _ => (recBytes a, recBytes b)
    | _ => (0, 0)
  ⟨peerRank j.peer, cfld j.card 4 4, cfld j.card 32 32, peerN j.peer, peerPkgs j.peer, zs, zd, mine⟩
/-- The records are read and checked, the source is read, and the job starts: its part goes to the other packages (R402 to
R404). -/
def State.startColl (s : State) (j : Job) (g : Group) : State :=
  let pp := cfld j.card 1280 64
  s.readRec j g (cfld j.card 128 64) (fun s a => s.readRec j g (cfld j.card 192 64) (fun s b =>
    if !(copyRecOk a && copyRecOk b) || pp % 64 != 0 || pp / 2 ^ 56 != 0 then s.endJob j.id 4
    else s.engLoad j g true pp 128 (fun s x =>
      let p := leVal (plainBytes x)
      let j' := { j with recs := [a, b, BitVec.ofNat 1536 p] }
      if peerBad s.pkg p || !j.sizesOk (recBytes a) (recBytes b) (peerN p)
          || s.jobs.any (fun e => e.id != j.id && e.kind == 3 && e.lock && e.running && e.collKey == j'.collKey) then s.endJob j.id 4
      else State.loadRows j g (shLen a) (fun s mine =>
        let part : RankData := j'.part mine
        let s := ((peerPkgs p).filter (fun k => k != s.pkg)).foldl (fun (s : State) k =>
          s.send (.coll k j.ctx (fld p 32 32) (fld p 64 32) part)) s
        s.updJob j.id (fun j => { j with recs := j'.recs, lock := true, since := s.timer, ranks := [part] })) (recRows a) [] s)))
/-- The ranks whose parts have not arrived (R406). -/
def Job.missingRanks (j : Job) : List Nat := (List.range (peerN j.peer)).filter (fun r => !j.ranks.any (fun d => d.rank == r))
/-- A matched job's part agrees with this job's (R403). -/
def Job.agrees (j : Job) (d : RankData) : Bool :=
  let own := j.part []
  d.op == own.op && d.param == own.param && d.nrank == own.nrank && d.pkgs == own.pkgs && d.zs == own.zs && d.zd == own.zd
    && d.data.length == d.zs && d.rank < own.nrank
/-- Parts that arrive at a started job: one that does not agree, or carries a rank again, ends it (R403). -/
def State.takeParts (id : Nat) : List RankData → State → State
  | [], s => s
  | d :: r, s => match s.job? id with
    | none => s
    | some j =>
      if !j.lock || j.st != .accepted then s
      else if !j.agrees d || j.ranks.any (fun e => e.rank == d.rank) then s.endJob id 4
      else State.takeParts id r (s.updJob id (fun j => { j with ranks := j.ranks ++ [d] }))
/-- The collective of a started job once every rank's part has arrived. -/
def State.runColl (s : State) (j : Job) (g : Group) : State :=
  match j.recs with
  | [_, b, _] =>
    if !j.missingRanks.isEmpty then s
    else
      let n := peerN j.peer
      let src := (List.range n).filterMap (fun r => (j.ranks.find? (fun d => d.rank == r)).map (fun d => d.data))
      let out := j.reduce (peerRank j.peer) src
      State.checkRows j g (shLen b) (fun s =>
        let s := State.writeRows j g (shLen b) (recRows b) out.1 (s.notePoison j.id out.1)
        let s := match s.grid? g.grid with | some d => s.tally d.root out.2 | none => s
        s.updJob j.id (fun j => { j with unit := n, st := .ended, status := 0, lock := false })) (recRows b) s
  | _ => s
/-- COLLECTIVE_JOB (R403 to R405): the job starts and sends its part, the given parts of other ranks arrive, and once all are there
it reduces or gathers. -/
def execCollectiveJob (job : Nat) (ranks : List RankData) (s : State) : Host.Outcome State Fault Refusal :=
  match s.job? job with
  | none => .next s
  | some j => match s.group? j.gid with
    | none => .next s
    | some g =>
      if j.kind != 3 || !s.jobReady j g then .next s
      else
        let s := if j.lock then s else s.startColl j g
        match s.job? job with
        | some j =>
          let s := if j.lock && j.st == .accepted then State.takeParts job ranks s else s
          (match s.job? job with
            | some j => if j.lock && j.st == .accepted then .next (s.runColl j g) else .next s
            | none => .next s)
        | none => .next s

/-- TIMEOUT in ticks of the device timer: µs, 0 standing for a second. -/
def Job.collTimeout (j : Job) : Nat := (if fld j.peer 96 32 = 0 then 1000000 else fld j.peer 96 32) * 1000
/-- A started collective, some rank of which has not started, whose time is over, or one of whose packages no path reaches (R401,
R406). -/
def State.collDue (s : State) (j : Job) : Bool :=
  j.kind == 3 && j.lock && j.st == .accepted && !j.missingRanks.isEmpty && (j.since + j.collTimeout ≤ s.timer
    || (peerPkgs j.peer).any (fun k => k != s.pkg && !(tget false s.peers k)))
/-- COLLECTIVE_TIMEOUT (R406): STATUS 6, and free bytes in the destination; UNITS counts the parts that have arrived, the
last ones with the event. -/
def execCollectiveTimeout (job : Nat) (late : List RankData) (s : State) : Host.Outcome State Fault Refusal :=
  let s := match s.job? job with
    | some j => if j.kind = 3 then State.takeParts job late s else s
    | none => s
  match s.job? job with
  | none => .next s
  | some j => match s.group? j.gid with
    | none => .next s
    | some g =>
      if !s.collDue j then .next s
      else match j.recs with
        | [_, b, _] =>
          let free := (List.range (recBytes b)).map (fun i => ((Config.freeWord (s.free + i)).setWidth 8, false))
          let s := State.writeRows j g (shLen b) (recRows b) free { s with free := s.free + recBytes b }
          .next (s.updJob job (fun j => { j with unit := j.ranks.length, st := .ended, status := 6, lock := false }))
        | _ => .next s

end Sys2Proof.Machine
end

