-- ==== Sys2Proof/Machine/Complete.lean ====
section
/-! DEFINITION. The end of grids: reports of packages to the origin, completion records and SIGNAL stores (R112, R357 to
R359, R365, R366, R411). -/
namespace Sys2Proof.Machine

/-! ## When a grid has ended -/

/-- Every group of the grid placed here has ended, none waits to be relaunched, and none is still to be placed, unless
the rest was dropped or the driver ended the grid (R28, R357, R411). -/
def State.shareOver (s : State) (d : Grid) : Bool :=
  let mine := s.groups.filter (fun g => g.grid == d.id)
  (d.phase == .placing && (!d.unplaced || d.dropped || d.status.isSome) && mine.all (fun g => g.ended && !(g.stop.isSome && !g.killed))
    && (s.ctx d.ctx).image.all (fun im => !im.groups.any (fun g => g.grid == d.id && !g.ended)))
/-- STATUS of a share that has ended (R358, R411). -/
def Grid.result (d : Grid) : Nat :=
  if d.dropped then 8
  else match d.status with
    | some n => n
    | none => if d.kill.isSome then 3 else 0
/-- The packages whose reports are still missing (R365). -/
def State.missing (s : State) (d : Grid) : List Nat := if d.origin = s.pkg then (s.others d.pkt).filter (fun k => !d.dones.contains k) else []
/-- The whole grid has ended, or starts nowhere. -/
def State.gridOver (s : State) (d : Grid) : Bool :=
  !d.done && d.origin == s.pkg && (d.phase == .refused || (s.shareOver d && (s.missing d).isEmpty))

/-! ## Reports (R365) -/

/-- Counters of two packages, each saturating (R112). -/
def addCounts (a b : Tbl Nat) : Tbl Nat := b.foldl (fun t e => tput 0 t e.1 (min (tget 0 t e.1 + e.2) 0xFFFFFFFF)) a
/-- This package's report is due. -/
def State.doneDue (s : State) (d : Grid) : Bool := !d.done && d.origin != s.pkg && s.shareOver d
/-- The earlier of two starts; 0 is none. -/
def firstStart (a b : Nat) : Nat := if a = 0 then b else if b = 0 then a else min a b
/-- DONE (R365): this package reports that its share has ended, with when its first group started (R357); or, at the origin,
the report of another arrives. What the share's tasks add to its counters later reaches no record: DESIGN CHOICE, log 103. -/
def execDone (pkg ctx gen : Nat) (status cause : Nat) (rep : DoneReport) (s : State) : Host.Outcome State Fault Refusal :=
  match s.stamped ctx (BitVec.ofNat 32 gen) with
  | none => .next s
  | some d =>
    if pkg = s.pkg then
      if s.doneDue d then
        let s := { s with groups := s.groups.filter (fun (g : Group) => g.grid != d.id) }
        .next ((s.updGrid d.id (fun d => { d with done := true })).send (.done d.origin ctx d.gen d.result (d.kill.getD 0) d.tstart d.counts))
      else .next s
    else if d.origin = s.pkg && (s.missing d).contains pkg then
      .next (({ s with nextId := s.nextId + 1 } : State).updGrid d.id (fun d =>
        { d with dones := d.dones ++ [pkg], tstart := firstStart d.tstart rep.tstart, lastEnd := s.nextId,
                 counts := addCounts d.counts rep.counts, dropped := d.dropped || status == 8,
                 kill := if status = 3 && d.kill.isNone then some cause else d.kill,
                 status := if status = 4 && d.status.isNone then some 4 else d.status }))
    else .next s

/-! ## Completion (R357) -/

/-- VEC is raised if INTR is set. -/
def State.notify (s : State) (q : Nat) : State := if s.qd q 156 1 = 1 then s.msix (s.qd q 160 8) else s
/-- Queue state after the SIGNAL store of a launch: VEC, or nothing for a task. -/
def State.afterSignal (s : State) (d : Grid) : State := match d.queue with
  | some q => s.notify q
  | none => s
/-- Context that SIGNAL is stored in. -/
def State.signalCtx (s : State) (d : Grid) : Nat := match d.queue with
  | some q => s.qd q 136 16
  | none => d.ctx
/-- SIGNAL names a word: a malformed one does not (R355). -/
def signalOk (p : BitVec 1024) : Bool := pfld p 640 64 != 0 && codeOk (pfld p 640 64)
/-- The SIGNAL store (R357), made at completion and again after a reply. -/
def State.storeSignal (s : State) (d : Grid) : State :=
  if !signalOk d.pkt then s.afterSignal d
  else
    let drop (s : State) : State := match d.queue with
      | some q => (s.notify q).stopQueue q 5
      | none => s
    let va := pfld d.pkt 640 64
    let c := s.signalCtx d
    if !s.ctxValid c then drop s
    else match s.queueAccess c va 8 true with
      | (.ok pa, s) => (s.write mapperAgent pa (leBytes 8 (pfld d.pkt 704 64))).afterSignal d
      | (.absent l k, s) => s.queueFault c va l k true (.signal d.id)
      | (_, s) => drop s
/-- The SIGNAL store of a grid would meet a page whose bias is flipping: it waits (R343). -/
def State.signalStalls (s : State) (d : Grid) : Bool :=
  signalOk d.pkt && (match (s.queueAccess (s.signalCtx d) (pfld d.pkt 640 64) 8 true).1 with
    | .stall => true
    | _ => false)

/-- A completion record (R357). -/
def State.record (s : State) (d : Grid) : List Byte :=
  let st := d.result
  leBytes 8 (pfld d.pkt 576 64) ++ leBytes 8 (st + (if st = 3 then d.kill.getD 0 else 0) * 2 ^ 8 + d.gen.toNat * 2 ^ 32)
    ++ leBytes 8 d.tstart ++ leBytes 8 s.timer
    ++ (List.range 24).flatMap (fun k => leBytes 4 (tget 0 d.counts k))
/-- A HELD queue goes on once every launch accepted earlier has its record (R352, R356). -/
def State.unholdQueue (s : State) (q : Nat) : State :=
  if (s.queue q).st = .held && !s.openLaunches q then s.setQueue q { s.queue q with st := .active } else s
/-- The grid is the first of its queue's ended ones to have completed: their records are written in that order, a failed one
again before any later (R350, R357). -/
def State.firstEnded (s : State) (d : Grid) : Bool :=
  d.queue.isNone || s.grids.all (fun e => !(e.queue == d.queue && s.gridOver e) || d.lastEnd ≤ e.lastEnd)
/-- A record of the grid can be written, or its task ended. -/
def State.recordDue (s : State) (d : Grid) : Bool :=
  s.gridOver d && s.firstEnded d && !s.bu.tripped && s.answers && !s.waitsReply (.ringWrite d.id) && (match d.queue with
    | some q => ahead (s.idx q 2) (s.idx q 3) < 2 ^ s.clog q && !(s.qErr q && s.qd q 168 8 == 3)
    | none => true)
/-- COMPLETION_RECORD_WRITE (R357, R359): the record, CWRIDX, the SIGNAL store and VEC, in that order. A task has the
SIGNAL store alone (R366). -/
def execCompletionRecordWrite (grid : Nat) (s : State) : Host.Outcome State Fault Refusal :=
  match s.grid? grid with
  | none => .next s
  | some d =>
    if !s.recordDue d || s.signalStalls d then .next s
    else
      let fin (s : State) : State := { s.updGrid grid (fun d => { d with done := true }) with
                                       groups := s.groups.filter (fun (g : Group) => g.grid != grid) }
      match d.queue with
      | none => .next ((fin s).storeSignal d)
      | some q =>
        let c := s.qd q 136 16
        let va := s.qd q 64 64 + 128 * ((s.idx q 2).toNat % 2 ^ s.clog q)
        if !s.ctxValid c then .next (s.stopQueue q 3)
        else match s.queueAccess c va 128 true with
        | (.stall, _) => .next s
        | (.bad, s) => .next (s.stopQueue q 3)
        | (.absent l k, s) => .next (s.queueFault c va l k true (.ringWrite grid))
        | (.ok pa, s) =>
          let s := s.write mapperAgent pa (s.record d)
          let s := (List.range 24).foldl (fun (s : State) k => s.testCount grid k) s
          let s := (fin (s.setIdx q 2 (s.idx q 2 + 1))).unholdQueue q
          .next (s.storeSignal d)

end Sys2Proof.Machine
end

