-- ==== Sys2Proof/Machine/Video.lean ====
section
/-! DEFINITION. The frame decode engine (R323 to R334). What the AV1 specification says of a bitstream is a free function of
Config (log 40); what the manual says of limits, streams, slots, grain, windows and status is modelled here. -/
namespace Sys2Proof.Machine

/-! ## Records and the stream context (R297, R324) -/

/-- A finite f32 encoding. -/
def finF32 (b : Nat) : Bool := (fmtF32.dec b).isFinite
/-- A kind 5 record within its limits (R297, R326). -/
def frameRecOk (sh : BitVec 1536) : Bool :=
  shKind sh == 5 && [2, 3, 8, 10].contains (shFmt sh) && shRows sh != 0 && shLen sh != 0
    && shLen sh * shapeSize (shFmt sh) ≤ shStride sh && recZeros sh && fld sh.toNat 320 1216 == 0
    && [0xF0, 0xF2, 0xF3].contains (shBase sh / 2 ^ 56) && finF32 (fld sh.toNat 256 32) && finF32 (fld sh.toNat 288 32)
/-- Pointers of the card's ENG area: stream context, bitstream, its bytes, reference store (R295). -/
def Job.stream (j : Job) : Nat := cfld j.card 1280 64
def Job.bits (j : Job) : Nat := cfld j.card 1344 64
def Job.bitLen (j : Job) : Nat := cfld j.card 1408 32
def Job.store (j : Job) : Nat := cfld j.card 1440 64
/-- Frames that the card asks for, and film grain. -/
def Job.frames (j : Job) : Nat := cfld j.card 32 5
def Job.grain (j : Job) : Bool := cfld j.card 40 1 == 1
/-- A stream context with a nonzero reserved field, or an odd window origin (R324, R326). -/
def streamBad (c : Nat) : Bool :=
  fld c 38 26 != 0 || fld c 96 32 != 0 || fld c 352 32 != 0 || fld c 1376 32 != 0 || fld c 64 1 == 1 || fld c 80 1 == 1
/-- Reads the luma record and, if named, the chroma record (R297). -/
def State.frameRecs (s : State) (j : Job) (g : Group) (k : State → State) : State :=
  if !j.recs.isEmpty then k s
  else
    s.readRec j g (cfld j.card 128 64) (fun s a =>
      if !frameRecOk a then s.endJob j.id 4
      else if cfld j.card 192 64 = 0 then k (s.setRecs j.id [a])
      else s.readRec j g (cfld j.card 192 64) (fun s b =>
        if frameRecOk b && shLen b % 2 == 0 then k (s.setRecs j.id [a, b]) else s.endJob j.id 4))

/-! ## The lock (R325) -/

/-- Frame decode engines of a die (R2). -/
def decoderCount : Nat := 4
/-- Decoders of a die that hold a lock. -/
def State.busyDecoders (s : State) (die : Nat) : List Nat := (s.jobs.filter (fun e => e.die == die && e.kind == 2 && e.lock && e.st != .suspended)).map (fun e => e.eng)
/-- Value of LOCK while held: not 0, otherwise free (log 2). -/
def State.lockValue (s : State) : Word := Config.freeWord s.free ||| 1
/-- DECODE_LOCK_ACQUIRE (R325): the job takes LOCK and an engine; it waits while either is held. A resumed job has kept
LOCK and takes an engine alone (R388). -/
def execDecodeLockAcquire (job : Nat) (s : State) : Host.Outcome State Fault Refusal :=
  match s.job? job with
  | none => .next s
  | some j => match s.group? j.gid with
    | none => .next s
    | some g =>
      let busy := s.busyDecoders j.die
      let eng := ((List.range decoderCount).find? (fun e => !busy.contains e)).getD 0
      if decoderCount ≤ busy.length then .next s
      else if j.st = .suspended then .next (s.updJob job (fun j => { j with st := .locked, eng := eng }))
      else if j.kind != 2 || !s.jobReady j g then .next s
      else .next (s.frameRecs j g (fun s =>
        if j.stream % 64 != 0 then s.endJob job 4
        else s.engLoad j g true j.stream 512 (fun s b =>
          if streamBad (leVal (plainBytes b)) then s.endJob job 4
          else
            let v := s.lockValue.toNat
            s.engRmw j g j.stream 4 (fun o => if o = 0 then some v else none) (fun s o =>
              if o != 0 then s else s.useFree.updJob job (fun j => { j with st := .locked, lock := true, eng := eng })))))

/-! ## Samples (R326, R327) -/

/-- Conversion of a sample (R327). -/
def convSample (sh : BitVec 1536) (x : Nat) : Nat :=
  match fmtF32.dec (fld sh.toNat 256 32), fmtF32.dec (fld sh.toNat 288 32) with
  | .fin n1 m1 e1, .fin n2 m2 e2 =>
    let y := addFin .rne n1 (m1 * x) e1 n2 m2 e2
    let neg := y.1 && y.2.1 != 0
    let i : Int := if neg then -(roundInt .rne neg y.2.1 y.2.2).1 else (roundInt .rne neg y.2.1 y.2.2).1
    (match shFmt sh with
      | 2 => (fmtF16.round .rne false true neg y.2.1 y.2.2).bits
      | 3 => (fmtBf16.round .rne false true neg y.2.1 y.2.2).bits
      | 8 => wrapN (clampI i (-128) 127) 8
      | _ => wrapN (clampI i 0 255) 8)
  | _, _ => 0
/-- A sample of a plane, 0 beyond it. -/
def planeAt (l : List Nat) (w h x y : Nat) : Nat := if x < w && y < h then l.getD (y * w + x) 0 else 0
/-- The bytes of row r of a window, for the sample of each element. -/
def windowRow (sh : BitVec 1536) (bad : Bool) (f : Nat → Nat) : List EByte :=
  (List.range (shLen sh)).flatMap (fun e =>
    (leBytes (shapeSize (shFmt sh)) (if bad then 0 else convSample sh (f e))).map (fun b => (b, bad)))
/-- The rows of frame i's windows with their addresses (R326, R331). Of a corrupt frame every element is 0 and poisoned. -/
def frameRows (c : Nat) (recs : List (BitVec 1536)) (i depth : Nat) (mono : Bool) (u : Av1Pic) (bad : Bool) : List (Nat × List EByte) :=
  let ox := fld c 64 16
  let oy := fld c 80 16
  let rows (sh : BitVec 1536) (step : Nat) (f : Nat → Nat → Nat) : List (Nat × List EByte) :=
    (List.range (shRows sh)).map (fun r => ((shRow sh r + i * step) % 2 ^ 64, windowRow sh bad (f r)))
  match recs with
  | [a] => rows a (fld c 128 32) (fun r e => planeAt u.luma u.width u.height (ox + e) (oy + r))
  | [a, b] =>
    let w := (u.width + 1) / 2
    let h := (u.height + 1) / 2
    rows a (fld c 128 32) (fun r e => planeAt u.luma u.width u.height (ox + e) (oy + r))
      ++ rows b (fld c 160 32) (fun r e =>
        if mono then 2 ^ (depth - 1) else planeAt (if e % 2 = 0 then u.cb else u.cr) w h (ox / 2 + e / 2) (oy / 2 + r))
  | _ => []
/-- Writes rows in order, then what follows. -/
def State.storeRows (j : Job) (g : Group) (k : State → State) : List (Nat × List EByte) → State → State
  | [], s => k s
  | (p, b) :: r, s => s.engStore j g p b (fun s => State.storeRows j g k r s)

/-! ## Sequences, slots and frame status (R323, R329 to R332) -/

/-- A sequence header within the limits of R323. -/
def seqSupported (h : Av1Seq) : Bool :=
  h.profile == 0 && (h.depth == 8 || h.depth == 10) && (h.mono || h.is420) && (h.level ≤ 17 || h.level == 31)
/-- Picture-size limits of level 6.1, as the AV1 specification gives them: PRESUMED, log 114. -/
def pictureFits (w h : Nat) : Bool := w ≤ 16384 && h ≤ 8704 && w * h ≤ 35651584
/-- FTYPE of a frame (R330). -/
def typeCode : Av1Type → Nat
  | .key => 0
  | .inter => 1
  | .intraOnly => 2
  | .switch => 3

/-- A decoder between frames, as the model lays STATE out (log 41). `slots` holds for each slot 0 empty, 1 good, 2 tainted or 3
corrupt, with the ERR it became corrupt with above; `seq` 0 no sequence yet, 1 a valid one, 2 and 3 an unsupported or unparsable
one, 4 and 5 a valid one after such, whose key frame is still to come; then depth and mono_chrome; then the reference store.
Of the temporal unit: the first ERR that arose, taint, and the last frame with its item and its picture. -/
structure Decoder where
  slots : List (Nat × Nat)
  seq : Nat
  depth : Nat
  mono : Bool
  store : List Byte
  err : Nat
  taint : Bool
  last : Option (Av1Frame × Nat)
  pic : Av1Pic
def emptyPic : Av1Pic := ⟨0, 0, [], [], []⟩
/-- The decoder that the bytes of STATE describe, and the engine's private bytes. -/
def decoderOf (st store : List Byte) : Decoder :=
  { slots := (List.range 8).map (fun k => ((st.getD k 0).toNat % 16, (st.getD k 0).toNat / 16)), seq := (st.getD 8 0).toNat,
    depth := (st.getD 9 0).toNat, mono := st.getD 10 0 != 0, store := store, err := 0, taint := false, last := none, pic := emptyPic }
def statePrivate (st : List Byte) : List Byte := st.drop 11
def Decoder.bytes (x : Decoder) : List Byte :=
  x.slots.map (fun e => BitVec.ofNat 8 (e.1 + 16 * e.2)) ++ leBytes 1 x.seq ++ leBytes 1 x.depth ++ leBytes 1 (if x.mono then 1 else 0)
/-- A slot's state. -/
def Decoder.slot (x : Decoder) (k : Nat) : Nat × Nat := x.slots.getD k (0, 0)
/-- The picture that a slot predicts as: all zero where it is corrupt (R331). -/
def Decoder.slotPic (x : Decoder) (k : Nat) : Av1Pic :=
  let p := Config.av1Slot x.store k
  if (x.slot k).1 = 3 then { p with luma := p.luma.map (fun _ => 0), cb := p.cb.map (fun _ => 0), cr := p.cr.map (fun _ => 0) } else p
/-- A sequence header (R331). -/
def Decoder.sequence (x : Decoder) (h : Av1Seq) : Decoder :=
  if !h.parsed then { x with seq := 3 }
  else if !(seqSupported h) then { x with seq := 2 }
  else { x with seq := if x.seq = 2 || x.seq = 4 then 4 else if x.seq = 3 || x.seq = 5 then 5 else 1, depth := h.depth, mono := h.mono }
/-- ERR of the sequence for a frame: 8 without a valid header, else that of the invalid one until a valid one's key frame. -/
def Decoder.seqErr (x : Decoder) (f : Av1Frame) : Nat :=
  match x.seq with
  | 1 => 0
  | 2 => 2
  | 4 => if f.kind = .key && f.shows.isNone then 0 else 2
  | 5 => if f.kind = .key && f.shows.isNone then 0 else 8
  | _ => 8
/-- REQ of R329. -/
def storeNeed (w h : Nat) (mono : Bool) : Nat :=
  let a := roundUp w 64 * roundUp h 64
  9 * ((if mono then 2 * a else 3 * a) + a / 4 + 4096)
/-- Slots that a frame predicts from: those of ref_frame_idx and primary_ref_frame (R332). -/
def frameSources (f : Av1Frame) : List Nat := (if f.kind = .inter || f.kind = .switch then f.refs else []) ++ f.primary.toList
/-- ERR of a frame (R330, R331). Of several the first in this order: DESIGN CHOICE, log 113. -/
def Decoder.frameErr (x : Decoder) (f : Av1Frame) (bad : Bool) (rsize : Nat) : Nat :=
  if !f.parsed then 1
  else if x.seqErr f != 0 then x.seqErr f
  else if !pictureFits f.width f.height then 5
  else if bad then 6
  else if rsize < storeNeed f.width f.height x.mono then 4
  else match f.shows with
    | some k => if (x.slot k).1 = 0 then 3 else if (x.slot k).1 = 3 then max 1 (min 8 (x.slot k).2) else 0
    | none => if (frameSources f).any (fun k => (x.slot k).1 == 0) then 3 else if f.tilesOk then 0 else 7
/-- A frame is tainted (R332). -/
def Decoder.tainted (x : Decoder) (f : Av1Frame) : Bool :=
  match f.shows with
  | some k => (x.slot k).1 == 2
  | none => (f.kind = .inter || f.kind = .switch) && (frameSources f).any (fun k => (x.slot k).1 == 2 || (x.slot k).1 == 3)
/-- One frame of a unit (R331, R332): its picture goes, without grain (R328), to the slots that it refreshes. -/
def Decoder.frame (x : Decoder) (prv unit : List Byte) (bad : Bool) (rsize : Nat) (f : Av1Frame) (i : Nat) : Decoder :=
  let err := x.frameErr f bad rsize
  let taint := err == 0 && x.tainted f
  let pic := if err != 0 then emptyPic else match f.shows with
    | some k => x.slotPic k
    | none => Config.av1Decode prv ((List.range 8).map x.slotPic) unit i
  let hit (k : Nat) : Bool := if f.parsed then f.refresh.getLsbD k else true
  { x with
    slots := (List.range 8).map (fun k => if hit k then (if err != 0 then (3, err) else (if taint then 2 else 1, 0)) else x.slot k),
    store := if err != 0 then x.store else (List.range 8).foldl (fun st k => if hit k then Config.av1Keep st k pic else st) x.store,
    seq := if err = 0 && (x.seq = 4 || x.seq = 5) then 1 else x.seq,
    err := if x.err != 0 then x.err else err, taint := taint, last := some (f, i), pic := pic }
/-- One item of a unit. A tile list and an OBU without a size are unsupported; what cannot be parsed is a header not parsed. -/
def Decoder.item (x : Decoder) (prv unit : List Byte) (bad : Bool) (rsize : Nat) (a : Av1Item × Nat) : Decoder :=
  let fail (n : Nat) : Decoder := { x with err := if x.err != 0 then x.err else n }
  match a.1 with
  | .sequence h => x.sequence h
  | .frame f => x.frame prv unit bad rsize f a.2
  | .tileList => fail 2
  | .unsized => fail 2
  | .broken => { fail 1 with slots := List.replicate 8 (3, 1) }
/-- The unit's output frame has an ERR: a unit without a frame has one. -/
def Decoder.outErr (x : Decoder) : Nat := if x.err = 0 && x.last.isNone then 1 else x.err
/-- The output after film grain synthesis, where the job asks for it and the header applies it (R328). -/
def Decoder.output (x : Decoder) (unit : List Byte) (grain : Bool) : Av1Pic :=
  match x.last with
  | some (f, i) => if grain && f.grain then Config.av1Grain unit i x.pic else x.pic
  | none => x.pic
/-- FSTAT of a unit's frame (R330). -/
def Decoder.stat (x : Decoder) (grain : Bool) (ordinal : Nat) : Word :=
  let err := x.outErr
  BitVec.ofNat 32 (2 ^ 31 + (if err != 0 then 2 ^ 30 else 0) + (if err == 0 && x.taint then 2 ^ 29 else 0)
    + (match x.last with
        | some (f, _) => (if grain && f.grain && err == 0 then 2 ^ 28 else 0) + (if f.parsed then typeCode f.kind else 15) * 2 ^ 16
        | none => 15 * 2 ^ 16)
    + err * 2 ^ 24 + ordinal % 2 ^ 16)

/-! ## One temporal unit (R325) -/

def okBytes (b : List Byte) : List EByte := b.map (fun x => (x, false))
/-- LOCK is released (R325). -/
def State.unlock (s : State) (j : Job) (g : Group) : State :=
  let s := match s.engAccess j g true true j.stream 4 with
    | (.ok l xs, s) => s.engWrite j l xs (okBytes (leBytes 4 0))
    | (_, s) => s
  s.updJob j.id (fun j => { j with lock := false })
/-- The job has no more frames to decode: CONSUMED, FCOUNT, WIDTH, HEIGHT and FSTAT, then LOCK (R325 steps 4 and 5). -/
def State.endDecode (s : State) (j : Job) (g : Group) (c : Nat) : State :=
  let size := if j.unit = 0 then leBytes 2 (fld c 320 16) ++ leBytes 2 (fld c 336 16) else leBytes 2 j.width ++ leBytes 2 j.height
  let head := leBytes 4 j.off ++ leBytes 4 (fld c 288 32 + j.unit) ++ size
  let stats := (List.range 31).flatMap (fun i => leBytes 4 (j.fstat.getD i 0).toNat)
  s.engStore j g (j.stream + 32) (okBytes head) (fun s => s.engStore j g (j.stream + 48) (okBytes stats) (fun s =>
    s.endJob j.id 0))
/-- Decodes one temporal unit: its windows, the reference store, and STATE. -/
def State.decodeUnit (s : State) (j : Job) (g : Group) (c : Nat) (store : List Byte) (u : Av1Unit) (b : List EByte) : State :=
  let st := (leBytes 512 c).drop 176
  let rsize := fld c 192 64
  let bad := b.any (fun e => e.2)
  let x := u.items.zipIdx.foldl (fun (x : Decoder) a => x.item (statePrivate st) (plainBytes b) bad rsize a) (decoderOf st store)
  let err := x.outErr
  let after := x.bytes ++ ((Config.av1Private (statePrivate st) (plainBytes b) ++ List.replicate 325 0).take 325)
  let size := match x.last with
    | some (f, _) => if f.parsed then some (f.width, f.height) else none
    | none => none
  let fin (s : State) : State := s.engStore j g (j.stream + 176) (okBytes after) (fun s =>
    s.updJob j.id (fun j => { j with unit := j.unit + 1, off := j.off + b.length,
                                     corrupt := j.corrupt + (if err != 0 then 1 else 0),
                                     tainted := j.tainted + (if err == 0 && x.taint then 1 else 0),
                                     fstat := j.fstat ++ [x.stat j.grain (fld c 288 32 + j.unit)],
                                     width := (size.getD (if j.unit = 0 then fld c 320 16 else j.width, 0)).1,
                                     height := (size.getD (0, if j.unit = 0 then fld c 336 16 else j.height)).2 }))
  s.storeRows j g (fun s => if rsize = 0 then fin s
    else s.engStore j g j.store (okBytes ((x.store ++ List.replicate rsize 0).take rsize)) fin)
    (frameRows c j.recs j.unit x.depth x.mono (x.output (plainBytes b) j.grain) (err != 0))
/-- Reads the bitstream on, byte by byte, until the bytes show the next temporal unit or `n` more have been read: a byte outside
every read region stops the job, and one that is not mapped stalls it, only when the unit needs it (R325, R334). -/
def State.readUnit (j : Job) (g : Group) (st : List Byte) (op : BitVec 5) (k : State → List EByte → Option Av1Unit → State) :
    Nat → List EByte → State → State
  | 0, b, s => k s b (Config.av1Parse st op (plainBytes b) true)
  | n + 1, b, s => match Config.av1Parse st op (plainBytes b) false with
    | some u => k s b (some u)
    | none => s.engLoad j g true (j.bits + j.off + b.length) 1 (fun s x => State.readUnit j g st op k n (b ++ x) s)
/-- The next step of a decode job that holds its lock: the next temporal unit, or the end of the job. -/
def State.decodeStep (s : State) (j : Job) (g : Group) : State :=
  s.engLoad j g true j.stream 512 (fun s b =>
    let c := leVal (plainBytes b)
    let rsize := fld c 192 64
    let run (s : State) (store : List Byte) : State :=
      State.readUnit j g (statePrivate ((leBytes 512 c).drop 176)) (BitVec.ofNat 5 (fld c 32 5)) (fun s b u =>
        let s := s.notePoison j.id b
        match u with
        | none => s.endDecode j g c
        | some u =>
          if !u.closed && fld c 37 1 = 0 then s.endDecode j g c
          else match s.engAccess j g true true j.stream 512 with
            | (.ok _ _, s) => s.decodeUnit j g c store u (b.take u.bytes)
            | (a, s) => s.engFail j g 1 a) (j.bitLen - j.off) [] s
    if j.frames ≤ j.unit then s.endDecode j g c
    else if rsize = 0 then run s []
    else s.engLoad j g true j.store rsize (fun s x => match s.engAccess j g true true j.store rsize with
      | (.ok _ _, s) => run s (plainBytes x)
      | (a, s) => s.engFail j g 1 a))
/-- FRAME_DECODE_JOB (R325): one temporal unit, or the end of the job. A job that has ended holds no lock. -/
def execFrameDecodeJob (job : Nat) (s : State) : Host.Outcome State Fault Refusal :=
  match s.job? job with
  | none => .next s
  | some j => match s.group? j.gid with
    | none => .next s
    | some g =>
      if j.st != .locked || j.kind != 2 then .next s
      else
        let s := s.decodeStep j g
        .next (if (s.job? job).any (fun j => j.st == .ended) then s.unlock j g else s)

end Sys2Proof.Machine
end

