-- ==== Sys2Proof/Machine/Save.lean ====
section
/-! DEFINITION. The save area of a context: what a pre-emption saves, the bytes that it writes, and what a resume reads back
from them (R86, R264, R387 to R390). -/
namespace Sys2Proof.Machine

/-- Address of the save area of a context (R368). -/
def State.saveAt (s : State) (c : Nat) : Option Nat := s.canonPa (s.ctxFld c 128 64)
/-- Entries that the reply log holds, and what its header says are there (R389). -/
def logCap : Nat := 252
def State.logCount (s : State) (a : Nat) : Nat := s.peekN (a + 16) 4
/-- An entry of the reply log fails a SEQ. -/
def State.logFails (s : State) (c : Nat) (seq : Word) : Bool :=
  match s.saveAt c with
  | none => false
  | some a => (List.range (min logCap (s.logCount a))).any (fun i =>
      s.peekN (a + 256 + 16 * i) 4 == seq.toNat && s.peekN (a + 260 + 16 * i) 1 % 2 == 1)

/-! ## What is saved (R387) -/

/-- Groups of a context that have not ended. -/
def State.ctxGroups (s : State) (c : Nat) : List Group := s.groups.filter (fun g => !g.ended && s.ctxOf g == c)
/-- Groups that a save takes: those, and ended members of a team whose scratchpad is still held (R28, R389). -/
def State.savedGroups (s : State) (c : Nat) : List Group :=
  s.groups.filter (fun g => s.ctxOf g == c && (!g.ended || (1 < s.teamSize g && (s.teamOf g).any (fun x => !x.ended))))
/-- Grids of a context with groups still to place. -/
def State.heldGrids (s : State) (c : Nat) : List Grid := s.grids.filter (fun d => d.ctx == c && !d.done && d.unplaced && d.status.isNone)

/-- An outstanding instruction of a saved warp: done, parked, waiting for a version, or a task now held (R264, R387). -/
def outSaved (o : Outst) : Bool :=
  match o.kind with
  | .free => true
  | .parked _ => true
  | .palette _ => true
  | .task _ => true
  | _ => false
/-- The drain of R387 step 4 is over for a group. What stands behind a palette operation that waits for a version, and cannot go
on before it, is carried across the save with it: DESIGN CHOICE, log 101. -/
def State.groupDrained (s : State) (g : Group) : Bool :=
  g.stop.isNone
    && g.warps.all (fun w => w.subs.all (fun u => u.run.isNone) && !w.acq && w.outst.all outSaved)
    && g.palOps.all (fun o => !g.palReady o && !g.copyReady o)
    && s.jobs.all (fun j => j.gid != g.id || (j.st != .queued && j.st != .ended && j.kind != 3))
/-- Stopped groups have ended, and those to be relaunched are held as unplaced (R428). -/
def State.stopsSettled (s : State) (c : Nat) : Bool :=
  s.groups.all (fun g => s.ctxOf g != c || !(g.ended && g.stop.isSome && !g.killed))
/-- The passes of the last instruction that a warp of the context issued are over on every quad (R39). -/
def State.passesOver (s : State) (c : Nat) : Bool :=
  s.quads.all (fun e => e.2.next ≤ s.timer || (match e.2.prev with
    | some p => (s.group? p.1).all (fun g => s.ctxOf g != c)
    | none => true))
/-- Step 4 of R387 is over. -/
def State.drained (s : State) (c : Nat) : Bool := s.stopsSettled c && (s.ctxGroups c).all s.groupDrained && s.passesOver c


/-! ## The parts of the area (R389) -/

/-- A piece of the save area: its size, its bytes where R389 gives them, and how a resume takes them back. -/
structure SavePiece where
  size : Nat
  bytes : Option (List Byte)
  load : List Byte → Image → Image
/-- Bytes whose place R389 gives, with no more than their own meaning. -/
def stated (b : List Byte) : SavePiece := ⟨b.length, some b, fun _ im => im⟩
/-- Bytes whose layout R389 does not give: free values (log 70). -/
def hidden (n : Nat) : SavePiece := ⟨n, none, fun _ im => im⟩
/-- Bytes of one group, read back into it. -/
def ofGroup (g : Group) (b : List Byte) (load : List Byte → Group → Group) : SavePiece :=
  ⟨b.length, some b, fun b im => { im with groups := im.groups.map (fun (x : Group) => if x.id = g.id then load b x else x) }⟩
/-- Bytes of one warp, read back into it. -/
def ofWarp (g : Group) (w : Warp) (b : List Byte) (load : List Byte → Warp → Warp) : SavePiece :=
  ofGroup g b (fun b x => x.updWarp w.idx (load b))

/-- Table of a run of values, in canonical form. -/
def tblOf {α : Type} [DecidableEq α] (d : α) (base : Nat) (l : List α) : Tbl α :=
  (l.zipIdx.filter (fun x => x.1 != d)).map (fun x => (base + x.2, x.1))
/-- Little-endian words of bytes, and their bytes. -/
def wordList : List Byte → List Word
  | a :: b :: c :: d :: r => BitVec.ofNat 32 (leVal [a, b, c, d]) :: wordList r
  | _ => []
def tblBytes (t : Tbl Word) (n : Nat) : List Byte := (List.range n).flatMap (fun k => leBytes 4 (tget 0 t k).toNat)
/-- Bit sets in bytes, bit 0 of the first byte first. -/
def bitBytes (n : Nat) (t : Tbl Unit) : List Byte :=
  (List.range n).map (fun i => BitVec.ofNat 8 ((List.range 8).foldl (fun a j => if thas t (8 * i + j) then a + 2 ^ j else a) 0))
def bitKeys (b : List Byte) : Tbl Unit :=
  ((b.flatMap (fun x => (List.range 8).map (fun i => x.getLsbD i))).zipIdx.filter (fun x => x.1)).map (fun x => (x.2, ()))

/-- A tile: elements row by row, poison bits, checksum row, observed row and check column; then TY, version and the waiting
operations, which R389 places without a layout. -/
def tilePieces (g : Group) (n : Nat) : List SavePiece :=
  let x := g.tile n
  [ofGroup g (tblBytes x.elems 16384) (fun b g => g.setTile n { g.tile n with elems := tblOf 0 0 (wordList b) }),
   ofGroup g (bitBytes 2048 x.pois) (fun b g => g.setTile n { g.tile n with pois := bitKeys b }),
   ofGroup g (tblBytes x.chk 256) (fun b g => g.setTile n { g.tile n with chk := tblOf 0 0 (wordList b) }),
   ofGroup g (tblBytes x.obs 256) (fun b g => g.setTile n { g.tile n with obs := tblOf 0 0 (wordList b) }),
   ofGroup g (tblBytes x.xc 64) (fun b g => g.setTile n { g.tile n with xc := tblOf 0 0 (wordList b) }),
   hidden 3840]
/-- Tiles that a group may name (R256). -/
def Group.tileNames (p : BitVec 1024) (g : Group) : List Nat :=
  List.range (pfld p 547 4) ++ (if g.lent.isSome then (List.range 8).map (fun i => 8 + i) else [])
/-- A palette that a waiting operation names (R264). -/
def Group.palNamed (g : Group) (p : Nat) : Bool := g.palOps.any (fun o => match o.kind.palUse with
  | some u => u.1 == p
  | none => false)
/-- A palette that cannot be rebuilt: an installed one, or a copy of the builder's extended local memory (R264). -/
def Palette.fixed (x : Palette) : Bool := x.fromFill || !x.canRebuild
/-- A palette's build descriptor (R277), then HAS and KBLK. -/
def palPieces (g : Group) (n : Nat) : List SavePiece :=
  [stated (leBytes 32 (((g.pal n).desc.map (descBits (g.pal n))).getD 0)), hidden 16]
/-- The scratchpad and its bitmap of tagged words. -/
def scrPieces (p : BitVec 1024) (g : Group) : List SavePiece :=
  [ofGroup g (getBytes g.scratch 0 (scrBytes p)) (fun b g => { g with scratch := tblOf 0 0 b }),
   ofGroup g (bitBytes (8 * pfld p 530 10) g.tags) (fun b g => { g with tags := bitKeys b })]
/-- Private memory of a warp, lane 0 first. -/
def privBytes (n : Nat) (w : Warp) : List Byte := (List.range 32).flatMap (fun l => getBytes w.priv (privKey l 0) n)
def privOf (n : Nat) (b : List Byte) : Tbl Byte := (List.range 32).flatMap (fun l => tblOf 0 (privKey l 0) ((b.drop (l * n)).take n))
/-- Parts of a warp block. -/
def warpParts (p : BitVec 1024) (g : Group) (w : Warp) : List (List SavePiece) :=
  [[hidden 1024], [hidden 2048], [hidden 288],
   [ofWarp g w (tblBytes w.sregs w.as) (fun b w => { w with sregs := tblOf 0 0 (wordList b) })],
   [ofWarp g w (tblBytes w.vregs (32 * w.av)) (fun b w => { w with vregs := tblOf 0 0 (wordList b) })],
   [ofWarp g w (privBytes (privSize p) w) (fun b w => { w with priv := privOf (privSize p) b })]]
/-- Parts of a group block: of an ended member of a team, its header and scratchpad only. -/
def groupParts (p : BitVec 1024) (g : Group) : List (List SavePiece) :=
  if g.ended then [[hidden 512], scrPieces p g]
  else
    [[hidden 512], [hidden (8 * pfld p 551 10)], [hidden (144 * pfld p 561 4)],
      (List.range (pfld p 544 3)).flatMap (palPieces g)
        ++ (g.pals.filter (fun e => g.palNamed e.1 && e.2.fixed)).map (fun e => stated (palImage e.2)),
      (g.tileNames p).flatMap (tilePieces g), scrPieces p g]
    ++ (if g.lent.isSome then [[ofGroup g (getBytes g.ext 0 extBytes) (fun b g => { g with ext := tblOf 0 0 b })]] else [])
    ++ (g.warps.filter (fun w => !w.exited)).flatMap (warpParts p g)

/-- Cooperative grids of a context on this package. -/
def State.coopGrids (s : State) (c : Nat) : List Grid := s.grids.filter (fun d => d.ctx == c && !d.done && isCoop d.pkt)
def State.heldTasks (s : State) (c : Nat) : List Task := s.tasks.filter (fun t => t.ctx == c && !t.accepted)
def State.ctxJobs (s : State) (c : Nat) : List Job := s.jobs.filter (fun j => j.ctx == c)
/-- Records in the held tasks part. -/
def State.heldCount (s : State) (c : Nat) : Nat := (s.heldTasks c).length + (s.heldGrids c).length
/-- A held task: its descriptor or packet up to SIGVAL; the count of groups still to place has no stated place. -/
def heldPieces (p : BitVec 1024) : List SavePiece := [stated (leBytes 96 (pfld p 0 768)), hidden 32]
/-- A suspended job: its card first. -/
def jobPieces (j : Job) : List SavePiece :=
  [⟨256, some (leBytes 256 j.card.toNat), fun b im =>
      { im with jobs := im.jobs.map (fun (x : Job) => if x.id = j.id then { x with card := BitVec.ofNat 2048 (leVal b) } else x) }⟩, hidden 256]
/-- All parts, from the header, the held packets, the jobs, the count of grid records and the groups in order. -/
def areaParts (head : List Byte) (held : List (BitVec 1024)) (jobs : List Job) (coop : Nat) (groups : List (BitVec 1024 × Group)) :
    List (List SavePiece) :=
  [[stated head], [stated (List.replicate 4032 0)], held.flatMap heldPieces, jobs.flatMap jobPieces, [hidden (64 * coop)]]
    ++ groups.flatMap (fun x => groupParts x.1 x.2)

/-- Pieces of a part, from an offset, and parts in order, each from a 256-byte boundary. -/
def layPieces (a : Nat) : List SavePiece → List (Nat × SavePiece)
  | [] => []
  | p :: r => (a, p) :: layPieces (a + p.size) r
def partSize (l : List SavePiece) : Nat := l.foldl (fun a p => a + p.size) 0
def layParts (a : Nat) : List (List SavePiece) → List (Nat × SavePiece)
  | [] => []
  | l :: r => layPieces (roundUp a 256) l ++ layParts (roundUp a 256 + partSize l) r
/-- Bytes that the parts take. -/
def areaBytes (l : List (List SavePiece)) : Nat := l.foldl (fun a p => roundUp a 256 + partSize p) 0

/-! ## What a save writes and keeps -/

/-- Groups to save, in ascending `gridgen` and linear index. -/
def State.saveOrder (s : State) (c : Nat) : List Group :=
  let gen (g : Group) : Nat := match s.grid? g.grid with
    | some d => d.gen.toNat
    | none => 0
  sortBy (fun a b => decide (gen a < gen b) || (gen a == gen b && decide (a.lin ≤ b.lin))) (s.savedGroups c)
/-- The parts that a save writes after a header. -/
def State.saveParts (s : State) (c : Nat) (head : List Byte) : List (List SavePiece) :=
  areaParts head ((s.heldTasks c).map (fun t => t.pkt) ++ (s.heldGrids c).map (fun d => d.pkt)) (s.ctxJobs c) (s.coopGrids c).length
    ((s.saveOrder c).map (fun g => (s.pktOf g, g)))
/-- Bytes that a save takes. -/
def State.saveBytes (s : State) (c : Nat) : Nat := areaBytes (s.saveParts c (List.replicate 64 0))
/-- The header of the save area. -/
def State.saveHeader (s : State) (c : Nat) : List Byte :=
  leBytes 2 1 ++ leBytes 2 (s.epoch c).toNat ++ leBytes 4 (s.savedGroups c).length ++ leBytes 8 (s.saveBytes c)
    ++ leBytes 4 0 ++ leBytes 4 (s.ctxJobs c).length ++ leBytes 4 (s.heldCount c) ++ leBytes 36 0
/-- Free bytes, from a count on. -/
def freeBytes (from' n : Nat) : List Byte := (List.range n).map (fun i => (Config.freeWord (from' + i)).setWidth 8)
/-- A piece is written at its place. -/
def State.writePiece (s : State) (x : Nat × SavePiece) : State :=
  match x.2.bytes with
  | some b => s.perform ⟨none, 0, true⟩ x.1 b
  | none =>
    let s' := s.perform ⟨none, 0, true⟩ x.1 (freeBytes s.free x.2.size)
    { s' with free := s.free + x.2.size }
/-- The area is written (R389). -/
def State.writeSave (s : State) (c a : Nat) : State :=
  (layParts 0 (s.saveParts c (s.saveHeader c))).foldl (fun (s : State) x => s.writePiece (a + x.1, x.2)) s
/-- A sub-group as it is saved: one that was kept behind palette work issues its instruction again. -/
def SubGroup.saved (u : SubGroup) : SubGroup :=
  match u.st with
  | .held => { u with st := .ready }
  | _ => u
/-- A group as it is saved: palettes are invalid but for those it needs as images (R264), and no flag waits (R129). -/
def Group.saved (g : Group) : Group :=
  { g with
    warps := g.warps.map (fun (w : Warp) =>
      { w with subs := w.subs.map SubGroup.saved,
               outst := (w.outst.map (fun (o : Outst) => { o with flag := none })).filter (fun (o : Outst) => match o.kind with
                 | .palette _ => true
                 | .parked _ => true
                 | _ => false) }),
    pals := g.pals.map (fun e => if g.palNamed e.1 && e.2.fixed then e else (e.1, { e.2 with valid := false, rows := [], u := [] })) }
/-- Copies, registrations, shape records and waits that the saved groups leave behind (R245, R267, R387, R394). -/
def State.leaveCore (s : State) (c : Nat) (ids cores : List Nat) : State :=
  { s with waits := s.waits.filter (fun (x : FutureWait) => !ids.contains x.gid),
           shapes := s.shapes.filter (fun (e : ShapeEntry) => e.ctx != c),
           owner := s.owner.filter (fun e => !cores.contains e.2.1) }
/-- What a save keeps of a context, with its area's parts whose bytes are free from `seed` on. -/
def State.imageOf (s : State) (c seed : Nat) (l : List Group) : Image :=
  { groups := l.filterMap (fun g => (s.group? g.id).map Group.saved), jobs := s.ctxJobs c,
    grids := s.grids.filter (fun d => l.any (fun g => g.grid == d.id)), tasks := [],
    gaps := ((layParts 0 (s.saveParts c (List.replicate 64 0))).filter (fun x => x.2.bytes.isNone)).map (fun x => (x.1, x.2.size)),
    seed := seed }
/-- The groups and jobs of a context leave the package (R387 steps 5 to 7). -/
def State.saveGroups (s : State) (c seed : Nat) : State :=
  let l := s.saveOrder c
  let ids := l.map (fun g => g.id)
  let s := s.mergeWhere (fun e => e.gids.any ids.contains)
  let s := s.setCtx { s.ctx c with image := some (s.imageOf c seed l) }
  let s := s.leaveCore c ids (l.map (fun g => g.core))
  { s with groups := s.groups.filter (fun (g : Group) => !ids.contains g.id), jobs := s.jobs.filter (fun (j : Job) => j.ctx != c) }
/-- Nothing of a context is to be saved. -/
def State.nothingSaved (s : State) (c : Nat) : Bool := (s.savedGroups c).isEmpty && s.heldCount c == 0
/-- The save area is large enough (log 73). -/
def State.saveFits (s : State) (c : Nat) : Bool := (s.saveAt c).isSome && s.saveBytes c ≤ 4096 * s.ctxFld c 192 32
/-- Writing the area, or the context's descriptor, would meet a page that is being flipped. -/
def State.saveStalls (s : State) (c : Nat) : Bool := s.ctxFlips c || (s.saveAt c).any (fun a => s.flipIn a (s.saveBytes c))

/-! ## What a resume reads (R390) -/

/-- The area at `a` still holds the free bytes that the save of an image wrote. -/
def State.kept (s : State) (a : Nat) (im : Image) : Bool :=
  im.gaps.flatMap (fun x => s.peek (a + x.1) x.2) == freeBytes im.seed (im.gaps.foldl (fun n x => n + x.2) 0)
/-- Greatest name that an image uses. -/
def Image.top (im : Image) : Nat :=
  let groups := im.groups.flatMap (fun g => g.id :: g.palOps.map (fun o => o.id)
    ++ g.warps.flatMap (fun w => w.subs.map (fun u => u.id) ++ w.outst.map (fun o => o.id)))
  (groups ++ im.jobs.map (fun j => j.id) ++ im.grids.map (fun d => d.id) ++ im.tasks.map (fun t => t.id)).foldl max 0
/-- The image that the area stands for: the one saved here, or, where the area is another's, one read from its bytes. -/
def State.imageAt (s : State) (c a : Nat) : Image :=
  let other : Image := { Config.savedImage (s.peek a (s.peekN (a + 8) 8)) s.nextId with gaps := [] }
  match (s.ctx c).image with
  | some im => if s.kept a im then im else other
  | none => other
/-- What the image's footprints say the area holds, with what is read back from it. -/
def State.reread (s : State) (a : Nat) (im : Image) : Image :=
  let pkt (g : Group) : BitVec 1024 := match im.grids.find? (fun d => d.id == g.grid) with
    | some d => d.pkt
    | none => s.pktOf g
  let parts := areaParts (List.replicate 64 0) (List.replicate (s.peekN (a + 24) 4) 0) im.jobs (im.grids.filter (fun d => isCoop d.pkt)).length
    (im.groups.map (fun g => (pkt g, g)))
  (layParts 0 parts).foldl (fun (x : Image) y => if y.2.bytes.isSome then y.2.load (s.peek (a + y.1) y.2.size) x else x) im
/-- The image is taken into the context, with the grids and tasks that this package does not know. -/
def State.takeImage (s : State) (c : Nat) (im : Image) : State :=
  let s := s.setCtx { s.ctx c with image := some im }
  { s with nextId := max s.nextId (im.top + 1),
           grids := s.grids ++ im.grids.filter (fun d => !s.grids.any (fun e => e.id == d.id)),
           tasks := s.tasks ++ im.tasks.filter (fun t => !s.tasks.any (fun e => e.id == t.id)) }

/-- What is held goes on. -/
def State.unhold (s : State) (c : Nat) : State :=
  let s := s.setCtx { s.ctx c with hold := false, saving := false, resuming := false, image := none }
  { s with tasks := s.tasks.map (fun (t : Task) => if t.ctx = c then { t with held := false } else t),
           grids := s.grids.map (fun (d : Grid) => if d.ctx = c && d.unplaced then { d with waitSince := s.timer, blocking := false } else d) }
end Sys2Proof.Machine
end

