-- ==== Sys2Proof/Machine/Driver.lean ====
section
/-! DEFINITION. The driver: its commands, replies to faults, pre-emption and resume, breakpoints, the fault ring and walks
(R309, R314, R367, R378 to R392). -/
namespace Sys2Proof.Machine

/-! ## The command ring (R367, R383) -/

/-- A command. -/
structure Cmd where
  op : Nat
  flags : Nat
  ctx : Nat
  arg0 : Nat
  va : Nat
  arg1 : Nat
  rest : Nat
deriving DecidableEq, Repr

def State.cmdRead (s : State) : Nat := s.barFld 0x200018 32 32
/-- The command at CRD, while CWR is ahead of it and the registers answer. -/
def State.headCmd (s : State) : Option (Cmd × State) :=
  if !s.answers || s.barFld 0x200018 0 32 = s.cmdRead then none
  else match s.canonPa (s.barFld 0x200010 12 52 * 4096 + 32 * (s.cmdRead % 2 ^ (s.barFld 0x200010 0 4 + 4))) with
    | none => none
    | some pa =>
      if s.flipIn pa 32 then none else
      let (b, s) := s.readPoint ⟨none, 0, true⟩ pa 32
      let v := leVal b.bytes
      some (⟨fld v 0 8, fld v 8 8, fld v 16 16, fld v 32 32, fld v 64 64, fld v 128 64, fld v 192 64⟩, s)
/-- The command at CRD completes: code 0, or the code of its error. -/
def State.cmdDone (s : State) (code : Nat) : State :=
  let n := s.cmdRead
  let s := if code = 0 then s else ((s.barPut 0x200038 0 32 n).barPut 0x200038 32 8 code).barPut 0x200038 40 1 1
  let s := s.barPut 0x200018 32 32 (n + 1)
  if s.barFld 0x200030 24 1 = 1 then s.msix (s.barFld 0x200030 16 8) else s

/-- A command that completes with code 1: an unlisted OP, a nonzero reserved byte, or a CTX that no command may name
(R383, R368, log 71). -/
def State.cmdBad (s : State) (c : Cmd) : Bool :=
  c.op == 0 || 10 < c.op || c.rest != 0 || (c.op != 3 && c.op != 4 && !s.ctxValid c.ctx)
/-- The command at CRD, if it has OP `op` or none that is listed. It waits while its context's descriptor lies on a page that is
being flipped (R83). -/
def State.command (s : State) (op : Nat) (k : Cmd → State → State) : State :=
  match s.headCmd with
  | none => s
  | some (c, s') =>
    if c.op != op && 1 ≤ c.op && c.op ≤ 10 then s
    else if s'.cmdBad c then s'.cmdDone 1
    else if s'.ctxFlips c.ctx then s
    else k c s'

/-! ## Invalidation (R378, R379, R383) -/

/-- Ranges [a, a + n) and [b, b + m) overlap. -/
def meets (a n b m : Nat) : Bool := 0 < n && a < b + m && b < a + n
/-- A TLB entry translates an address of a range. -/
def TlbEntry.within (e : TlbEntry) (a n : Nat) : Bool :=
  let k := leafBytes e.leaf e.level
  meets a n (e.vpn * 4096 / k * k) k
/-- A walk cache entry maps an address of a range. -/
def WalkEntry.within (e : WalkEntry) (a n : Nat) : Bool := meets a n (e.pre * levelBytes e.level) (levelBytes e.level)
/-- INVPG (R383): the range is taken in whole pages (log 72). -/
def execInvpg (s : State) : Host.Outcome State Fault Refusal :=
  .next (s.command 1 (fun c s =>
    let a := c.va / 4096 * 4096
    let n := roundUp (c.va + c.arg1) 4096 - a
    (s.invalidate (fun e => e.ctx == c.ctx && e.within a n) (fun e => e.ctx == c.ctx && e.within a n)).cmdDone 0))
/-- INVCTX (R377, R383). -/
def execInvctx (s : State) : Host.Outcome State Fault Refusal :=
  .next (s.command 2 (fun c s =>
    (s.invalidate (fun e => e.ctx == c.ctx && !pteG e.leaf) (fun e => e.ctx == c.ctx)).cmdDone 0))
/-- INVALL (R383). -/
def execInvall (s : State) : Host.Outcome State Fault Refusal :=
  .next (s.command 3 (fun _ s => (s.invalidate (fun _ => true) (fun _ => true)).cmdDone 0))
/-- PTFENCE (R383): a walk is one step, so none is in progress. -/
def execPtfence (s : State) : Host.Outcome State Fault Refusal :=
  .next (s.command 4 (fun _ s => { s with walkCache := [] }.cmdDone 0))
/-- PAGE_WALK (R378): a walk that no access has needed yet fills the TLBs; A and D are left alone (R374). -/
def execPageWalk (core ctx : Nat) (va : DWord) (s : State) : Host.Outcome State Fault Refusal :=
  .next (if core < coreCount && s.coreRuns core && s.ctxValid ctx && va.toNat / 2 ^ 56 == 0
    then (s.translate ⟨some core, dieOf core, ctx⟩ va.toNat).2 else s)

/-! ## Replies (R385, R386) -/

/-- What a waiter does on the reply to its fault. -/
def State.answer (s : State) (fail : Bool) (w : Waiter) : State :=
  match w with
  | .sub g wi u t => s.updSub g wi u (fun (x : SubGroup) => match x.st with
    | .parked _ => { x with st := .ready, pend := if fail then some t else none }
    | _ => x)
  | .job id => match s.job? id with
    | none => s
    | some j => match j.st with
      | .stalled _ =>
        if fail then
          let s := s.endJob id 1
          (match s.group? j.gid with
            | some g => if j.kind = 2 && j.lock then s.unlock j g else s
            | none => s)
        else s.updJob id (fun (j : Job) => { j with st := if j.kind = 2 && j.lock then .locked else .accepted })
      | _ => s
  | .ringRead q => if fail then s.stopQueue q 2 else s
  | .ringWrite d => if fail then (match (s.grid? d).bind (fun d => d.queue) with
      | some q => s.stopQueue q 3
      | none => s) else s
  | .signal d => match s.grid? d with
    | none => s
    | some d => if !fail then s.storeSignal d
      else (match d.queue with
        | some q => (s.notify q).stopQueue q 5
        | none => s)
/-- A re-issued SIGNAL store would meet a page whose bias is flipping. -/
def State.waiterStalls (s : State) (w : Waiter) : Bool :=
  match w with
  | .signal d => (s.grid? d).any s.signalStalls
  | _ => false

/-- A reply is appended to the log. -/
def State.logReply (s : State) (c seq : Nat) (fail : Bool) : State :=
  match s.saveAt c with
  | none => s.cmdDone 5
  | some a =>
    let n := s.logCount a
    if logCap ≤ n then s.cmdDone 5
    else
      let s := s.perform ⟨none, 0, true⟩ (a + 256 + 16 * n) (leBytes 8 (seq + (if fail then 2 ^ 32 else 0)) ++ leBytes 8 0)
      (s.perform ⟨none, 0, true⟩ (a + 16) (leBytes 4 (n + 1))).cmdDone 0
/-- REPLY (R385): applied, logged, or discarded. -/
def execReply (s : State) : Host.Outcome State Fault Refusal :=
  .next (s.command 5 (fun c s0 =>
    let fail := c.flags % 2 == 1
    let e : BitVec 16 := BitVec.ofNat 16 c.arg1
    match s0.faults.find? (fun f => f.seq == some (BitVec.ofNat 32 c.arg0) && f.ctx == c.ctx && f.epoch == e && f.kind ≤ 2) with
    | some f =>
      if s0.ctxState c.ctx = 1 && e = s0.epoch c.ctx then
        if !fail && f.waiters.any s0.waiterStalls then s
        else (f.waiters.foldl (fun (s : State) w => s.answer fail w)
          { s0 with faults := s0.faults.filter (fun (x : FaultEv) => x.fid != f.fid) }).cmdDone 0
      else if 2 ≤ s0.ctxState c.ctx && e = s0.epoch c.ctx - 1 then
        (if s0.saveStalls c.ctx then s else s0.logReply c.ctx c.arg0 fail)
      else s0.cmdDone 2
    | none =>
      if 2 ≤ s0.ctxState c.ctx && e = s0.epoch c.ctx - 1 then
        (if s0.saveStalls c.ctx then s else s0.logReply c.ctx c.arg0 fail)
      else s0.cmdDone 2))

/-! ## Pre-emption (R387) -/

/-- PREEMPT (R387, steps 1 to 3): nothing more of the context is placed, its tasks are held, it is saving, and its warps
stop at their next clause boundary, outside the reorder issue engine. -/
def execPreempt (s : State) : Host.Outcome State Fault Refusal :=
  .next (s.command 6 (fun c s0 =>
    let x := s0.ctx c.ctx
    if x.saving then s
    else if 2 ≤ s0.ctxState c.ctx then s0.cmdDone 3
    else
      let s := s0.setCtx { x with hold := true, saving := true }
      let s := { s with tasks := s.tasks.map (fun (t : Task) => if t.ctx = c.ctx && !t.accepted then { t with held := true } else t) }
      let s := (s.ctxGroups c.ctx).foldl (fun (s : State) g => s.demoteAll g) s
      s.ctxPut c.ctx 96 2 2))

/-- CONTEXT_SAVE_WRITE (R387, R389). -/
def execContextSaveWrite (c : Nat) (s : State) : Host.Outcome State Fault Refusal :=
  if !(s.ctx c).saving || !s.drained c || s.saveStalls c then .next s
  else
    let s := (s.heldTasks c).foldl (fun (s : State) t => s.settle (.task t.id)) s
    if s.nothingSaved c then
      .next (((s.unhold c).ctxPut c 80 16 ((s.epoch c).toNat + 1)).ctxPut c 96 2 0 |>.cmdDone 0)
    else if !s.saveFits c then .next (((s.unhold c).ctxPut c 96 2 1).ctxRest c |>.cmdDone 4)
    else match s.saveAt c with
      | none => .next s
      | some a =>
        let s := (s.writeSave c a).saveGroups c s.free
        let s := s.setCtx { s.ctx c with saving := false }
        .next ((s.ctxPut c 80 16 ((s.epoch c).toNat + 1)).ctxPut c 96 2 3 |>.cmdDone 0)

/-! ## Resume (R390 to R392) -/

/-- Warps that have not exited take slots in order. -/
def giveSlots (now : Nat) : List Warp → List Nat → List Warp
  | [], _ => []
  | w :: r, l => if w.exited then w :: giveSlots now r l
    else { w with slot := l.headD 0, readyAt := now } :: giveSlots now r (l.drop 1)
/-- A saved group comes to a core, which keeps no older copy of memory and none of an instruction: what an ICINV discarded for the
group is gone there too (R86). -/
def State.reseat (s : State) (g : Group) (core : Nat) : State :=
  let g' := { g with core := core, lent := if g.lent.isSome then some (partnerOf core) else none,
                     warps := giveSlots s.timer g.warps (s.freeSlots core) }
  s.seat (s.pktOf g) g' |>.forgetCode core
/-- The groups placed together with a saved group: its team (R16). -/
def Image.unit (im : Image) (t : Nat) (g : Group) : List Group :=
  sortBy (fun a b => a.team ≤ b.team) (im.groups.filter (fun x => x.grid == g.grid && x.y == g.y && x.z == g.z && x.x / t == g.x / t))
/-- Places the saved units one after another, or finds no room for one. -/
def State.reseatAll (im : Image) : List Group → State → Option State
  | [], s => some s
  | g :: r, s => match s.findUnit (s.pktOf g) with
    | none => none
    | some cores =>
      let s' := ((im.unit (s.teamSize g) g).zip cores).foldl (fun (s : State) x => s.reseat x.1 x.2) s
      State.reseatAll im r { s' with rotor := nextRotor (s.pktOf g) cores }
/-- The saved groups at their new places, if all of them fit. -/
def State.placeImage (s : State) (im : Image) : Option State := State.reseatAll im (im.groups.filter (fun g => g.team == 0)) s
/-- A jobs' die follows its group; a decode job that held LOCK waits for an engine (R388). -/
def State.jobBack (s : State) (j : Job) : Job := { j with die := match s.group? j.gid with | some g => dieOf g.core | none => j.die }
def Job.relock (j : Job) : Job := if j.kind = 2 && j.lock && j.st == .locked then { j with st := .suspended } else j
/-- Palettes that waiting lookups need are rebuilt (R264). -/
def State.rebuildNamed (s : State) (g : Group) : State :=
  g.pals.foldl (fun (s : State) e => if g.palNamed e.1 && !e.2.fixed then s.rebuild ((s.group? g.id).getD g) e.1 else s) s
/-- The physical addresses that a wait's addresses have now; none where an access would fault or stall. -/
def State.futuresAt (m : Mmu) (want : Want) : List (Nat × Nat × Nat) → State → Option (List (Nat × Nat × Nat)) × State
  | [], s => (some [], s)
  | x :: r, s => match s.resolve m want x.2.2 with
    | (.ok t, s) => (match State.futuresAt m want r s with
      | (some l, s) => (some ((x.1, t.pa, x.2.2) :: l), s)
      | (none, s) => (none, s))
    | (_, s) => (none, s)
/-- A futures wait is registered again, at the addresses its futures have now (R245, R390). Where one faults, the sub-group issues
its FWAIT again. -/
def State.rewait (s : State) (gid w sub : Nat) : State :=
  match s.group? gid, s.warp? gid w, s.sub? gid w sub with
  | some g, some x, some u => match u.st with
    | .fwait d l _ _ => match State.futuresAt ⟨some g.core, dieOf g.core, s.ctxOf g⟩ (wantLoad (some x.pkr)) l s with
      | (some l, s) =>
        let pas := (l.map (fun y => y.2.1)).eraseDups
        if s.waitRoom pas then
          { s.updSub gid w sub (fun u => { u with st := .fwait d l 0 0 }) with
              waits := s.waits ++ pas.map (fun pa => ⟨pa, gid, w, sub⟩) }
        else s.updSub gid w sub (fun u => { u with st := .fwait d l 64 s.timer })
      | (none, s) => s.updSub gid w sub (fun u => { u with st := .ready })
    | _ => s
  | _, _, _ => s
/-- The sub-groups of a group, by warp and identity. -/
def State.subsOf (s : State) (gid : Nat) : List (Nat × Nat) :=
  match s.group? gid with
  | some g => g.warps.flatMap (fun w => w.subs.map (fun u => (w.idx, u.id)))
  | none => []
/-- A parked sub-group whose fault no record of this package knows: the log alone answers it (R390). -/
def State.answerLogged (s : State) (c gid w sub : Nat) : State :=
  match s.sub? gid w sub with
  | some u => match u.st with
    | .parked f => if s.faults.any (fun e => e.fid == f) then s
      else if s.logFails c (BitVec.ofNat 32 f) then
        s.updSub gid w sub (fun u => { u with st := .ready, pend := some ⟨BitVec.ofNat 8 causePageFault, u.pc, 0, u.lanes, 0, u.mid⟩ })
      else s.updSub gid w sub (fun u => { u with st := .ready })
    | _ => s
  | none => s
/-- The reply log is applied to every fault of the saved residency, and each other waiter re-issues. -/
def State.applyLog (s : State) (c : Nat) : State :=
  let old := s.faults.filter (fun f => f.ctx == c && f.kind ≤ 2 && f.epoch != s.epoch c)
  let s' := old.foldl (fun (x : State) f =>
    let fail := match f.seq with | some q => s.logFails c q | none => false
    f.waiters.foldl (fun (x : State) w => x.answer fail w) x) s
  let ids := old.map (fun f => f.fid)
  { s' with faults := (s'.faults.filter (fun (f : FaultEv) => !(ids.contains f.fid && f.seq.isSome))).map (fun (f : FaultEv) =>
      if ids.contains f.fid then { f with waiters := [] } else f) }
/-- Everything saved is restored at its new place. -/
def State.restore (s : State) (c : Nat) (im : Image) : State :=
  let s := { s with jobs := s.jobs ++ im.jobs.map s.jobBack }
  let s := s.applyLog c
  let s := { s with jobs := s.jobs.map (fun (j : Job) => if j.ctx = c then j.relock else j) }
  let subs := im.groups.flatMap (fun g => (s.subsOf g.id).map (fun u => (g.id, u)))
  let s := subs.foldl (fun (s : State) x => (s.answerLogged c x.1 x.2.1 x.2.2).rewait x.1 x.2.1 x.2.2) s
  let s := im.groups.foldl (fun (s : State) g => s.rebuildNamed ((s.group? g.id).getD g)) s
  ((s.unhold c).ctxPut c 96 2 1).ctxRest c
/-- RESUME (R390): the save area at SAVE is read, every saved group is placed and everything restored; until all fit, the context
waits. An area that this package did not write is read as one that another package of the kind wrote (log 70). -/
def execResume (s : State) : Host.Outcome State Fault Refusal :=
  .next (s.command 7 (fun c s0 =>
    if s0.ctxState c.ctx != 3 then s0.cmdDone 3
    else match s0.saveAt c.ctx with
      | none => s0.cmdDone 4
      | some a =>
        if s0.saveStalls c.ctx then s
        else
          let im := s0.reread a (s0.imageAt c.ctx a)
          let s1 := s0.takeImage c.ctx im
          match (if s0.bu.tripped then none else s1.placeImage im) with
          | some s' => (s'.restore c.ctx im).cmdDone 0
          | none =>
            let s := s.takeImage c.ctx im
            s.setCtx { s.ctx c.ctx with resuming := true }))

/-! ## Ending and stopping a context (R309, R314, R383, R384) -/

/-- A grid of a killed context completes with STATUS 4 and places nothing more. -/
def State.killGrid (s : State) (d : Grid) : State :=
  if d.done || d.phase = .refused then s
  else match d.phase with
    | .arming _ => s.abortLaunch d 4
    | _ => (s.startedTask d.id).updGrid d.id (fun d => { d with status := some (d.status.getD 4) })
/-- Every group and every pending task of a context ends. -/
def State.killCtx (s : State) (c : Nat) : State :=
  let s := (s.ctxGroups c).foldl (fun (s : State) g => s.stopGroup g.id (0, 0) true) s
  let s := (s.grids.filter (fun d => d.ctx == c)).foldl (fun (s : State) d => s.killGrid d) s
  (s.heldTasks c).foldl (fun (s : State) t => s.startedTask t.id) s
/-- A saved context ends with its save area. -/
def State.killSaved (s : State) (c : Nat) : State :=
  if s.ctxState c != 3 then s
  else
    let s := match (s.ctx c).image with
      | some im => im.groups.foldl (fun (s : State) (g : Group) => s.dropWaits g.id) s
      | none => s
    (s.unhold c).ctxPut c 96 2 0
/-- Every group of the context has ended, or none was left to stop. -/
def State.killDone (s : State) (c : Nat) : Bool := (s.ctxGroups c).isEmpty
/-- KILL (R383): in any STATE (log 74). -/
def execKill (s : State) : Host.Outcome State Fault Refusal :=
  .next (s.command 8 (fun c s0 =>
    let s' := (s0.killSaved c.ctx).killCtx c.ctx
    if s'.killDone c.ctx then s'.cmdDone 0 else s'))
/-- BRKSET (R383, R384). -/
def execBrkset (s : State) : Host.Outcome State Fault Refusal :=
  .next (s.command 9 (fun c s =>
    let x := s.ctx c.ctx
    (s.setCtx { x with brk := x.brk.set (c.arg0 % 4) (if c.flags % 2 = 1 then some (BitVec.ofNat 64 c.arg1) else none) }).cmdDone 0))
/-- HCONT (R309, R384): not while the context is saved. -/
def execHcont (s : State) : Host.Outcome State Fault Refusal :=
  .next (s.command 10 (fun c s =>
    if 2 ≤ s.ctxState c.ctx then s.cmdDone 3
    else ((s.ctxGroups c.ctx).foldl (fun (s : State) g =>
      s.updGroup g.id (fun (g : Group) => { g with warps := g.warps.map (fun (w : Warp) => { w with stopped := false }) })) s).cmdDone 0))

/-! ## The fault ring (R380 to R382) -/

/-- A fault record. -/
def FaultEv.bytes (f : FaultEv) (seq : Nat) : List Byte :=
  leBytes 4 seq ++ leBytes 2 f.ctx ++ leBytes 2 f.epoch.toNat ++ leBytes 8 f.addr.toNat
    ++ leBytes 2 (f.kind + 16 * f.acc + 256 * f.level + 4096 * f.src) ++ leBytes 2 f.unit ++ leBytes 1 f.cause ++ leBytes 1 f.cause2
    ++ leBytes 2 (min f.merged 65535) ++ leBytes 4 f.gen.toNat ++ leBytes 4 f.gidx.toNat
    ++ leBytes 8 (if f.src = 0 then f.pc.toNat else 0) ++ leBytes 8 f.val.toNat ++ leBytes 4 f.mask.toNat ++ leBytes 4 0 ++ leBytes 8 f.inst.toNat
/-- The event whose record is written next, and where: the ring has room. -/
def State.faultDue (s : State) : Option (FaultEv × Nat) :=
  let w := s.barFld 0x200028 0 32
  if !s.answers || s.faultCap ≤ (w + 2 ^ 32 - s.barFld 0x200028 32 32) % 2 ^ 32 then none
  else match s.faults.find? (fun f => f.seq.isNone), s.faultAt w with
    | some f, some a => if s.flipIn a 64 then none else some (f, a)
    | _, _ => none
/-- A written record whose WAITERS have grown, with its place: its entry of the ring is still its own (R381). -/
def State.growDue (s : State) : Option (FaultEv × Nat) :=
  if !s.answers then none
  else s.faults.findSome? (fun f => match f.seq with
    | none => none
    | some n =>
      if min f.merged 65535 ≤ f.wrote || s.faultCap < (s.barFld 0x200028 0 32 + 2 ^ 32 - n.toNat) % 2 ^ 32 then none
      else (s.faultAt n.toNat).bind (fun a => if s.flipIn a 64 then none else some (f, a)))
/-- FAULT_RECORD_WRITE (R380 to R382): a written record's WAITERS grow; else the record, then FWR, then FVEC. A kill or a stop waits
for no reply. -/
def execFaultRecordWrite (s : State) : Host.Outcome State Fault Refusal :=
  match s.growDue with
  | some (f, a) =>
    let s := s.perform ⟨none, 0, true⟩ (a + 22) (leBytes 2 (min f.merged 65535))
    .next { s with faults := s.faults.map (fun (x : FaultEv) => if x.fid = f.fid then { x with wrote := min f.merged 65535 } else x) }
  | none => match s.faultDue with
  | none => .next s
  | some (f, a) =>
    let w := s.barFld 0x200028 0 32
    let s := s.perform ⟨none, 0, true⟩ a (f.bytes w)
    let s := s.barPut 0x200028 0 32 (w + 1)
    let s := { s with faults := if f.kind ≤ 2 then s.faults.map (fun (x : FaultEv) => if x.fid = f.fid then { x with seq := some (BitVec.ofNat 32 w), wrote := min f.merged 65535 } else x)
                                else s.faults.filter (fun (x : FaultEv) => x.fid != f.fid) }
    .next (if s.barFld 0x200030 8 1 = 1 then s.msix (s.barFld 0x200030 0 8) else s)

end Sys2Proof.Machine
end

