-- ==== Sys2Proof/Machine/Fabric.lean ====
section
/-! DEFINITION. The host's accesses over CXL, bias flips, and the Psimel fabric (R82 to R84, R343 to R345, R396 to R401,
R407, R410, R412). -/
namespace Sys2Proof.Machine

/-! ## Host requests over CXL.mem (R397) -/

/-- Agent of an access from outside at the home die. -/
def outside (pa : Nat) : Agent := ⟨none, homeDie pa, true⟩
/-- The page of an address is being flipped. -/
def State.flipping (s : State) (pa : Nat) : Bool := s.flips.any (fun f => f.page == pa / 4096)
/-- A back-invalidate snoop of the line's block is outstanding (R344). -/
def Flip.snooping (f : Flip) (pa : Nat) : Bool := f.page == pa / 4096 && f.birsp.contains (pa % 4096 / 256)
/-- A host request for a page being flipped is held, in order of arrival; one for a line whose snoop is outstanding takes part in
the BIConflict handshake (R343, log 117). -/
def State.holdReq (s : State) (pa : Nat) (r : HeldReq) : State :=
  let s := if s.flips.any (fun f => f.snooping pa) then s.send (.biConflict (pa / 64 * 64)) else s
  { s with flips := s.flips.map (fun (f : Flip) => if f.page = pa / 4096 then { f with held := f.held ++ [r] } else f) }
/-- A host read of a line is answered with its bytes, or poison, and with MetaValue: Any in host bias (R397). In the safe state
it is answered with poison (R412). -/
def State.serveRead (s : State) (pa : Nat) : State :=
  let host := thas s.bias (pa / 4096)
  if !s.answers then s.send .poison
  else
    let s := s.mergeAt pa 64
    let s := if host then s else s.dirRead (homeDie pa) pa true
    (s.send (if poisonedIn s.memPoison pa 64 then .poison else .data (s.peek pa 64))).send (.metaValue host)
/-- A MemInv carries no data: it is answered with MetaValue alone (R397, log 117). -/
def State.serveInv (s : State) (pa : Nat) : State := if s.answers then s.send (.metaValue (thas s.bias (pa / 4096))) else s.send .poison
/-- A host write (R397): in device bias every device copy goes first; in host bias device memory is written. -/
def State.serveWrite (s : State) (pa : Nat) (b : List Byte) : State :=
  if !s.answers then s
  else if thas s.bias (pa / 4096) then ((s.mergeAt pa b.length).store pa b).watchTest pa b.length
  else (s.dropAllL1At pa b.length).write (outside pa) pa b
/-- A request of the host. -/
def State.serve (s : State) : HeldReq → State
  | .read pa => s.serveRead pa
  | .write pa b => s.serveWrite pa b
  | .inv pa => s.serveInv pa
/-- The answer to a read that device memory does not serve: poison (R410, R412). -/
def State.poisonRead (s : State) : State := s.send .poison
/-- HOST_MEMRD (R343, R397): a host read of the 64-byte line that holds an address, or its MemInv, which carries no data. -/
def execHostMemrd (req : LineReq) (s : State) : Host.Outcome State Fault Refusal :=
  let a := req.pa / 64 * 64
  let r : HeldReq := if req.inv then .inv a else .read a
  .next (if !s.answers || !s.installed a then s.poisonRead
    else if s.flipping a then s.holdReq a r
    else s.serve r)
/-- A write that another agent performs in its own memory, the host's or a peer's (R56): what this package sees there from then
on. Halves and registrations of the words are recalled first (R396, log 115). -/
def State.mirror (s : State) (pa : Nat) (b : List Byte) : State :=
  let s := (s.mergeAt pa b.length).unregister pa b.length
  { s with bridge := (blocksOf 64 pa b.length).foldl (fun t h => (List.range 4).foldl (fun t d => tdel t (halfKey d h)) t) s.bridge }.store pa b
/-- HOST_MEMWR (R56, R82, R343, R397): a host write within one 64-byte line, of device memory, or of its own (log 115). Bytes
beyond the line belong to no request. -/
def execHostMemwr (pa : Nat) (data : List Byte) (s : State) : Host.Outcome State Fault Refusal :=
  let b := data.take (64 - pa % 64)
  .next (if paTop pa = 1 then s.mirror pa b
    else if !s.answers || !s.installed pa then s
    else if s.flipping pa then s.holdReq pa (.write pa b)
    else s.serveWrite pa b)

/-! ## Host snoops (R396) -/

/-- HOST_SNOOP: kind 0 SnpInv, 1 SnpData, 2 SnpCur, of the half-line with a number, at a die's bridge. Registered words of
the half return first; a half in M is answered with its bytes; the other half stays as it was. -/
def execHostSnoop (die half kind : Nat) (s : State) : Host.Outcome State Fault Refusal :=
  let key := halfKey die (64 * half)
  let h : Half := tget Half.i s.bridge key
  let s := { s with owner := s.owner.filter (fun e => !(dieOf e.2.1 == die && e.1 / 16 == half)) }
  let s := { s with bridge := match kind with
    | 0 => tdel s.bridge key
    | 1 => if h = Half.i then s.bridge else tins s.bridge key .s
    | _ => s.bridge }
  .next (s.send (.snoopResp half (h == Half.m) (if h = Half.m then s.peek (64 * half) 64 else [])))

/-! ## Bias flips (R83, R343 to R345) -/

/-- BIRSP (R344): the response for a block of 256 bytes, one of the sixteen of a flip to device bias; the host has written back
first what it held modified in the block, each line with its address. -/
def execBirsp (block : Nat) (dirty : Tbl (List Byte)) (s : State) : Host.Outcome State Fault Refusal :=
  if s.flips.any (fun f => f.snooping (256 * block)) then
    let s := (dirty.filter (fun e => e.1 / 256 == block)).foldl (fun (s : State) e =>
      s.serveWrite e.1 (e.2.take (256 - e.1 % 256))) s
    .next { s with flips := s.flips.map (fun (f : Flip) =>
      if f.page = block / 16 then { f with birsp := f.birsp.filter (· != block % 16) } else f) }
  else .next s
/-- The flip of a page whose step 3 has ended. -/
def State.flipDone (s : State) (page : Nat) : Option Flip := s.flips.find? (fun f => f.page == page && f.birsp.isEmpty)
/-- BIAS_FLIP_COMPLETE (R83, R343, R345): the new bias takes effect, held host requests are performed in order, stalled
accesses proceed, waiting telemetry is written, and the BIAS completes. -/
def execBiasFlipComplete (page : Nat) (s : State) : Host.Outcome State Fault Refusal :=
  match s.flipDone page with
  | none => .next s
  | some f =>
    let s := { s with bias := if f.host then tins s.bias page () else tdel s.bias page,
                      flips := s.flips.filter (fun (x : Flip) => x.page != page) }
    let s := f.held.foldl (fun (s : State) r => s.serve r) s
    let s := s.settle (.flip page)
    let s := State.teleFlush s.teleq s
    .next { s with quads := s.quads.map (fun (e : Nat × Quad) =>
      (e.1, if e.2.stall = some page then { e.2 with stall := none } else e.2)) }

/-! ## Ports and peers (R398 to R401) -/

/-- Psimel ports. -/
def portCount : Nat := 96
/-- Register of a port. -/
def portReg (p : Nat) : Nat := 0x300000 + 8 * p
/-- The fabric block's package register. -/
def pkgReg : Nat := 0x300300
/-- A port may train (R398, R410). -/
def State.mayTrain (s : State) (p : Nat) : Bool :=
  p < portCount && s.bu.phase == 5 && s.barFld (portReg p) 15 1 == 1 && s.barFld pkgReg 6 1 == 1 && s.barFld (portReg p) 0 2 != 2
/-- A port is up toward a peer. -/
def State.portUp (s : State) (pkg p : Nat) : Bool := s.barFld (portReg p) 0 2 == 2 && s.barFld (portReg p) 2 6 == pkg
/-- A port of this package is up toward a peer. -/
def State.linked (s : State) (pkg : Nat) : Bool := (List.range portCount).any (s.portUp pkg)
/-- A port fails: STATE 11, and its peer's training identity is forgotten (R398). -/
def State.failPort (s : State) (p : Nat) : State :=
  let s := s.barPut (portReg p) 0 2 3
  { s with idents := tdel s.idents p }
/-- Ports up toward a peer whose peer reported another training identity (R398). -/
def State.strangers (s : State) (peer ident : Nat) : List Nat :=
  (List.range portCount).filter (fun p => s.portUp peer p && tget ident s.idents p != ident)
/-- The timer joins the fabric's time base, the greatest timer of the joined packages, and this package reports its own (R399,
log 116). -/
def State.joinTime (s : State) (base : Nat) : State :=
  ({ s.barPut pkgReg 7 1 1 with timer := max s.timer base } : State).send (.timeBase (max s.timer base))
/-- PORT_TRAINED (R398, R399, R401): the port is up and its peer is joined, and reached again; or the peer's number was found
with another training identity, and both ports have failed. -/
def execPortTrained (port : Nat) (peer : PortPeer) (pport : Nat) (base : DWord) (s : State) : Host.Outcome State Fault Refusal :=
  if !s.mayTrain port then .next s
  else match s.strangers (peer.pkg % 64) peer.ident with
  | [] =>
    let s := ((s.barPut (portReg port) 0 2 2).barPut (portReg port) 2 6 peer.pkg).barPut (portReg port) 8 7 pport
    let s := { s with peers := tins s.peers (peer.pkg % 64) true, idents := tins s.idents port peer.ident }
    .next (s.joinTime base.toNat)
  | l => .next ((port :: l).foldl State.failPort s)
/-- A port that may train and is down is training from then on; one that may no longer train is down (R398, R410). -/
def State.train (s : State) : State :=
  (List.range portCount).foldl (fun (s : State) p =>
    if s.barFld (portReg p) 0 2 = 0 && s.mayTrain p then s.barPut (portReg p) 0 2 1
    else if s.barFld (portReg p) 0 2 = 1 && !s.mayTrain p then s.barPut (portReg p) 0 2 0
    else s) s
/-- PORT_FAILED (R398): a port that is up or may train has failed. -/
def execPortFailed (port : Nat) (s : State) : Host.Outcome State Fault Refusal :=
  .next (if s.answers && (s.mayTrain port || (port < portCount && s.barFld (portReg port) 0 2 == 2)) then s.failPort port else s)
/-- PEER_UNREACHABLE (R401): a joined peer has lost its last path; accesses to it fail from now on. -/
def execPeerUnreachable (pkg : Nat) (s : State) : Host.Outcome State Fault Refusal :=
  .next (if thas s.peers pkg && !s.linked pkg then { s with peers := tins s.peers pkg false } else s)
/-- SLOW (R407): the latest ratio that an origin has sent for a context. -/
def execSlow (origin ctx ratio : Nat) (s : State) : Host.Outcome State Fault Refusal :=
  .next { s with pw := { s.pw with slow := (s.pw.slow.filter (fun x => !(x.1 == origin && x.2.1 == ctx))) ++ [(origin, ctx, ratio)] } }

/-- An access to a word reads poison: the peer gets poison, and nothing is written (R225). -/
def State.peerRmw (s : State) (pkg pa n : Nat) (reply : Bool) (f : Nat → Nat) : State :=
  let (g, s) := s.readPoint (outside pa) pa n
  if g.bad then (if reply then s.send .poison else s)
  else
    let s := s.write (outside pa) pa (leBytes n (f (leVal g.bytes)))
    if reply then s.send (.peerData pkg g.bytes) else s
/-- Flits of an access that a port's link retried are added to RETRY, which saturates (R398, log 121). -/
def State.retried (s : State) (port n : Nat) : State :=
  if port < portCount then s.barPut (portReg port) 16 16 (min (s.barFld (portReg port) 16 16 + n) 65535) else s
/-- PEER_ACCESS (R84, R398, R400), carried in by a port whose link retried some flits: performed at this package's home slice
like an access of the host; it waits while its page is being flipped. The counters of a reduction belong to the package that
issued it. A store that names the peer's own memory is one that the peer performed there (log 115). -/
def execPeerAccess (link : PeerLink) (op : PeerOp) (pa : Nat) (s : State) : Host.Outcome State Fault Refusal :=
  let pkg := link.pkg
  let s0 := s
  let s := s.retried link.port link.retries
  let a := pa % 2 ^ 40
  if isPeer pa && paPkg pa != s.pkg then
    .next (match op with
      | .store b => if paPkg pa = pkg then s.mirror pa b else s
      | _ => s)
  else if !s.installed a || s.flipping a then .next s0
  else match op with
  | .load n =>
    let (g, s) := s.readPoint (outside a) a n
    .next (s.send (if g.bad then .poison else .peerData pkg g.bytes))
  | .store b => .next ((s.dropAllL1At a b.length).write (outside a) a b)
  | .atom o ty v => .next (s.peerRmw pkg a (atomBytes ty.toNat) true (fun x => (atomOp o.toNat ty.toNat x v.toNat).1))
  | .cas c n => .next (s.peerRmw pkg a 8 true (fun x => if x = c.toNat then n.toNat else x))
  | .disp =>
    let (g, s) := s.readPoint (outside a) a 16
    if g.bad then .next (s.send .poison)
    else
      let s := match (dispStep (leVal g.bytes)).2.2 with
        | some p => s.write (outside a) a (leBytes 8 (p.1 + p.2 * 2 ^ 32))
        | none => s
      .next (s.send (.peerData pkg g.bytes))
  | .red o ty v => .next (s.peerRmw pkg a (atomBytes ty.toNat) false (fun x => (atomOp o.toNat ty.toNat x v.toNat).1))

end Sys2Proof.Machine
end

