-- ==== Sys2Proof/Machine/Crypto.lean ====
section
/-! DEFINITION. The algorithms that R413 and R417 name: SHA-512 (FIPS 180-4), MGF1 and RSASSA-PSS (PKCS #1 v2.2), with SHA-512 and
a 64-byte salt. -/
namespace Sys2Proof.Machine

/-! ## SHA-512 -/

/-- The 80 constants: the first 64 bits of the fractions of the cube roots of the first 80 primes. -/
def shaK0 : List DWord := [
  0x428A2F98D728AE22, 0x7137449123EF65CD, 0xB5C0FBCFEC4D3B2F, 0xE9B5DBA58189DBBC, 0x3956C25BF348B538,
  0x59F111F1B605D019, 0x923F82A4AF194F9B, 0xAB1C5ED5DA6D8118, 0xD807AA98A3030242, 0x12835B0145706FBE,
  0x243185BE4EE4B28C, 0x550C7DC3D5FFB4E2, 0x72BE5D74F27B896F, 0x80DEB1FE3B1696B1, 0x9BDC06A725C71235,
  0xC19BF174CF692694, 0xE49B69C19EF14AD2, 0xEFBE4786384F25E3, 0x0FC19DC68B8CD5B5, 0x240CA1CC77AC9C65]
def shaK1 : List DWord := [
  0x2DE92C6F592B0275, 0x4A7484AA6EA6E483, 0x5CB0A9DCBD41FBD4, 0x76F988DA831153B5, 0x983E5152EE66DFAB,
  0xA831C66D2DB43210, 0xB00327C898FB213F, 0xBF597FC7BEEF0EE4, 0xC6E00BF33DA88FC2, 0xD5A79147930AA725,
  0x06CA6351E003826F, 0x142929670A0E6E70, 0x27B70A8546D22FFC, 0x2E1B21385C26C926, 0x4D2C6DFC5AC42AED,
  0x53380D139D95B3DF, 0x650A73548BAF63DE, 0x766A0ABB3C77B2A8, 0x81C2C92E47EDAEE6, 0x92722C851482353B]
def shaK2 : List DWord := [
  0xA2BFE8A14CF10364, 0xA81A664BBC423001, 0xC24B8B70D0F89791, 0xC76C51A30654BE30, 0xD192E819D6EF5218,
  0xD69906245565A910, 0xF40E35855771202A, 0x106AA07032BBD1B8, 0x19A4C116B8D2D0C8, 0x1E376C085141AB53,
  0x2748774CDF8EEB99, 0x34B0BCB5E19B48A8, 0x391C0CB3C5C95A63, 0x4ED8AA4AE3418ACB, 0x5B9CCA4F7763E373,
  0x682E6FF3D6B2B8A3, 0x748F82EE5DEFB2FC, 0x78A5636F43172F60, 0x84C87814A1F0AB72, 0x8CC702081A6439EC]
def shaK3 : List DWord := [
  0x90BEFFFA23631E28, 0xA4506CEBDE82BDE9, 0xBEF9A3F7B2C67915, 0xC67178F2E372532B, 0xCA273ECEEA26619C,
  0xD186B8C721C0C207, 0xEADA7DD6CDE0EB1E, 0xF57D4F7FEE6ED178, 0x06F067AA72176FBA, 0x0A637DC5A2C898A6,
  0x113F9804BEF90DAE, 0x1B710B35131C471B, 0x28DB77F523047D84, 0x32CAAB7B40C72493, 0x3C9EBE0A15C9BEBC,
  0x431D67C49C100D4C, 0x4CC5D4BECB3E42B6, 0x597F299CFC657E2A, 0x5FCB6FAB3AD6FAEC, 0x6C44198C4A475817]
def shaK : List DWord := shaK0 ++ shaK1 ++ shaK2 ++ shaK3
/-- The eight hash words. -/
structure Sha where
  a : DWord
  b : DWord
  c : DWord
  d : DWord
  e : DWord
  f : DWord
  g : DWord
  h : DWord
deriving DecidableEq, Repr
/-- The initial hash value. -/
def shaStart : Sha := ⟨0x6A09E667F3BCC908, 0xBB67AE8584CAA73B, 0x3C6EF372FE94F82B, 0xA54FF53A5F1D36F1,
  0x510E527FADE682D1, 0x9B05688C2B3E6C1F, 0x1F83D9ABFB41BD6B, 0x5BE0CD19137E2179⟩

/-- A number in n bytes, the most significant first, and back. -/
def beBytes (n v : Nat) : List Byte := (leBytes n v).reverse
def beVal (l : List Byte) : Nat := leVal l.reverse
/-- A block's 16 words continued to 80, the latest first. -/
def shaSchedule (block : List Byte) : List DWord :=
  let w : List DWord := (List.range 16).foldl (fun w i => BitVec.ofNat 64 (beVal ((block.drop (8 * i)).take 8)) :: w) []
  (List.range 64).foldl (fun w _ =>
    let x := w.getD 1 0
    let y := w.getD 14 0
    ((x.rotateRight 19 ^^^ x.rotateRight 61 ^^^ x >>> 6) + w.getD 6 0
      + (y.rotateRight 1 ^^^ y.rotateRight 8 ^^^ y >>> 7) + w.getD 15 0) :: w) w
/-- One round, with its constant and its schedule word. -/
def shaRound (x : Sha) (k : DWord × DWord) : Sha :=
  let t1 := x.h + (x.e.rotateRight 14 ^^^ x.e.rotateRight 18 ^^^ x.e.rotateRight 41) + ((x.e &&& x.f) ^^^ (~~~x.e &&& x.g)) + k.1 + k.2
  let t2 := (x.a.rotateRight 28 ^^^ x.a.rotateRight 34 ^^^ x.a.rotateRight 39) + ((x.a &&& x.b) ^^^ (x.a &&& x.c) ^^^ (x.b &&& x.c))
  ⟨t1 + t2, x.a, x.b, x.c, x.d + t1, x.e, x.f, x.g⟩
/-- One 128-byte block. -/
def shaBlock (x : Sha) (block : List Byte) : Sha :=
  let y := (shaK.zip (shaSchedule block).reverse).foldl shaRound x
  ⟨x.a + y.a, x.b + y.b, x.c + y.c, x.d + y.d, x.e + y.e, x.f + y.f, x.g + y.g, x.h + y.h⟩
/-- A message padded to whole blocks. -/
def shaPad (m : List Byte) : List Byte :=
  m ++ 0x80 :: List.replicate ((239 - m.length % 128) % 128) 0 ++ beBytes 16 (8 * m.length)
/-- SHA-512 of a byte string. -/
def sha512 (m : List Byte) : List Byte :=
  let p := shaPad m
  let x := (List.range (p.length / 128)).foldl (fun x i => shaBlock x ((p.drop (128 * i)).take 128)) shaStart
  [x.a, x.b, x.c, x.d, x.e, x.f, x.g, x.h].flatMap (fun w => beBytes 8 w.toNat)

/-! ## RSASSA-PSS -/

/-- MGF1 with SHA-512. -/
def mgf1 (seed : List Byte) (n : Nat) : List Byte :=
  ((List.range (cdiv n 64)).flatMap (fun i => sha512 (seed ++ beBytes 4 i))).take n
/-- b to the e modulo n, for an exponent of at most `bits` bits. -/
def powMod (bits b e n : Nat) : Nat :=
  (List.range bits).reverse.foldl (fun a i => if e.testBit i then a * a % n * b % n else a * a % n) (1 % n)
def xorBytes (a b : List Byte) : List Byte := a.zipWith (fun x y => x ^^^ y) b
/-- Bits of an encoded message, one fewer than the modulus has, and its bytes. -/
def emBits (n : Nat) : Nat := Nat.log2 n
def emLen (n : Nat) : Nat := cdiv (emBits n) 8
/-- The bytes with the bits above the encoded message's cleared. -/
def clearTop (n : Nat) : List Byte → List Byte
  | [] => []
  | b :: r => (b &&& BitVec.ofNat 8 (255 / 2 ^ (8 * emLen n - emBits n))) :: r
/-- The hash of eight zero bytes, the message's hash and the salt. -/
def pssHash (m salt : List Byte) : List Byte := sha512 (List.replicate 8 0 ++ sha512 m ++ salt)
/-- The encoded message of EMSA-PSS for a modulus. -/
def pssEncode (n : Nat) (m salt : List Byte) : List Byte :=
  let h := pssHash m salt
  let db := List.replicate (emLen n - 130) 0 ++ 1 :: salt
  clearTop n (xorBytes db (mgf1 h (emLen n - 65))) ++ h ++ [0xBC]
/-- EMSA-PSS-VERIFY of an encoded message. -/
def pssCheck (n : Nat) (m em : List Byte) : Bool :=
  let masked := em.take (emLen n - 65)
  let h := (em.drop (emLen n - 65)).take 64
  let db := clearTop n (xorBytes masked (mgf1 h (emLen n - 65)))
  130 ≤ emLen n && em.getLastD 0 == 0xBC && clearTop n masked == masked
    && db.take (emLen n - 129) == List.replicate (emLen n - 130) 0 ++ [1] && pssHash m (db.drop (emLen n - 129)) == h
/-- RSASSA-PSS-VERIFY (R413): modulus and signature in 512 bytes, the most significant first, and the exponent 65,537. -/
def pssVerify (key sig m : List Byte) : Bool :=
  let n := beVal key
  let x := powMod 17 (beVal sig) 65537 n
  sig.length == 512 && beVal sig < n && x < 256 ^ emLen n && pssCheck n m (beBytes (emLen n) x)
/-- RSASSA-PSS-SIGN (R417) with a modulus, a private exponent and a salt. -/
def pssSign (n d : Nat) (m salt : List Byte) : List Byte := beBytes 512 (powMod 4096 (beVal (pssEncode n m salt)) d n)

end Sys2Proof.Machine
end

