-- ==== Sys2Proof/Machine/Registers.lean ====
section
/-! DEFINITION. The device registers as the host writes and reads them (R6, R7, R339, R348, R349, R367, R397, R398, R409, R412, R416,
R418, R419, R431 to R433). -/
namespace Sys2Proof.Machine

/-! ## Which bits a write reaches (R7) -/

/-- Address fields of a ring or table: [63:12]. -/
def addrBits : DWord := 0xFFFFFFFFFFFFF000
/-- An aligned offset lies in a block of registers of stride k. -/
def inBlock (off base count k : Nat) : Bool := base ≤ off && off < base + count * k
/-- RW bits of a register. The package number and LOCK can be written while LOCK is 0 (R398). -/
def State.rwBits (s : State) (off : Nat) : DWord :=
  if inBlock off 0x200000 10 8 then
    (match off - 0x200000 with
      | 0x00 => addrBits
      | 0x08 => 0x1FFFF
      | 0x10 => addrBits ||| 0xF
      | 0x18 => 0xFFFFFFFF
      | 0x20 => addrBits ||| 0xF
      | 0x28 => 0xFFFFFFFF00000000
      | 0x30 => 0x1FF01FF
      | 0x40 => addrBits
      | 0x48 => 0xFFFFFFFF
      | _ => 0)
  else if inBlock off 0x300000 portCount 8 then 0x8000
  else if off = pkgReg then (if s.barFld pkgReg 6 1 = 0 then 0x7F else 0)
  else if off = 0x400000 then 0x00FFFFF00FFFFFFF
  else if inBlock off 0x500000 clusterCount 0x1000 then
    (match off % 0x1000 with
      | 0x00 => 0x800003FF
      | 0x18 => 0x7F
      | _ => 0)
  else if inBlock off 0x600000 11 16 then (if off % 16 = 8 then 0xFFFFFFFFFFFFFFFF else 0)
  else match off with
    | 0x700000 => 0xFFFFFFFFFFFFFFFF
    | 0x700008 => addrBits ||| 0xF
    | 0x700010 => 0xFFFFFFFF00000000
    | 0x700018 => 0x1FF
    | _ => 0
/-- W1C bits of a register. -/
def clearBits (off : Nat) : DWord :=
  if off = 0x200038 then 0x10000000000
  else if inBlock off 0x300000 portCount 8 then 0xFFFF0000
  else if inBlock off 0x500000 clusterCount 0x1000 then (if off % 0x1000 = 0x10 then 0xFFFFFFFF else 0)
  else if inBlock off 0x600000 11 16 then (if off % 16 = 0 then 0xFFFFFFFFFFFFFFFF else 0)
  else if off = 0x700018 then 0xFFFFFFFF00000000
  else 0
/-- A register after a write: RW fields are set, a 1 clears a W1C bit, every other bit stays. -/
def State.plainWrite (s : State) (off : Nat) (v : DWord) : State :=
  let rw := s.rwBits off
  s.barSet off (((s.barGet off &&& ~~~rw) ||| (v &&& rw)) &&& ~~~(v &&& clearBits off))

/-! ## Blocks with effects of their own -/

/-- A write in the error block: a cleared count may report again, and a new threshold may be reached already (R431). -/
def State.errWrite (s : State) (off : Nat) (v : DWord) : State :=
  let e := (off - 0x600000) / 16
  let s := s.plainWrite off v
  if off % 16 = 8 then (s.testErr e false).testErr e true
  else
    let s := if s.barFld off 0 32 = 0 then { s with errs := tdel s.errs (2 * e) } else s
    if s.barFld off 32 32 = 0 then { s with errs := tdel s.errs (2 * e + 1) } else s
/-- Fields of word k of a queue descriptor that are writable while EN is 0 (R348). -/
def queueBits (k : Nat) : DWord :=
  match k with
  | 0 => 0xFFFFFFFFFFFFFFFF
  | 1 => 0xFFFFFFFFFFFFFFFF
  | 2 => 0xFFFF00FF1BFFFFFF
  | _ => 0
/-- A write to word k of queue q's descriptor (R348, R350, R352): plain fields while EN is 0, then ERR, then EN. -/
def State.descWrite (s : State) (q k : Nat) (v : DWord) : State :=
  let off := 0x100000 + 64 * q + 8 * k
  let en := s.qEn q
  let m := queueBits k
  let s := if en then s else s.barSet off ((s.barGet off &&& ~~~m) ||| (v &&& m))
  if k != 2 then s
  else
    let s := if dfld v 29 1 = 1 && s.qErr q then s.clearErr q else s
    if dfld v 26 1 = 1 then (if en then s else s.enableQueue q) else (if en then s.disableQueue q else s)

/-! ## The mailbox (R416) -/

def mbCmd : Nat := 0x1000
def mbStat : Nat := 0x1008
def mbBuf : Nat := 0x2000
/-- A command finishes with a result and its output at the start of the buffer. -/
def State.mailDone (s : State) (result : Nat) (out : List Byte) : State :=
  { s with bu := { s.bu with busy := false, doneBit := true, result := result, outLen := out.length, buf := putBytes s.bu.buf 0 out } }
/-- The phases in which a command is permitted. -/
def State.mailPhase (s : State) (op : Nat) : Bool :=
  match op with
  | 3 => [3, 4, 5, 15].contains s.bu.phase
  | 4 => s.bu.phase == 15 && (s.bu.failC == 6 || s.bu.failC == 7)
  | 5 => s.bu.phase == 5
  | _ => true
/-- A write to MBCMD: ignored while BUSY; an unknown OP or one not permitted now ends at once. -/
def State.mailStart (s : State) (v : DWord) : State :=
  let op := dfld v 0 8
  if s.bu.busy then s
  else if op = 0 || 6 < op then s.mailDone 1 []
  else if !s.mailPhase op then s.mailDone 2 []
  else { s with bu := { s.bu with busy := true, op := op, inLen := dfld v 32 16 } }
/-- A write to the mailbox's registers and buffer. -/
def State.mailWrite (s : State) (off : Nat) (v : DWord) : State :=
  if off = mbCmd then s.mailStart v
  else if off = mbStat then (if dfld v 1 1 = 1 then { s with bu := { s.bu with doneBit := false } } else s)
  else { s with bu := { s.bu with buf := putBytes s.bu.buf (off - mbBuf) (leBytes 8 v.toNat) } }
/-- An offset of the mailbox. -/
def inMail (off : Nat) : Bool := off == mbCmd || off == mbStat || inBlock off mbBuf 512 8

/-- REGISTER_WRITE (R7): one aligned 64-bit write in BAR0. In the safe state the mailbox alone answers (R412). -/
def execRegisterWrite (off : Nat) (v : DWord) (s : State) : Host.Outcome State Fault Refusal :=
  .next (if off % 8 != 0 then s
    else if inMail off then s.mailWrite off v
    else if !s.answers then s
    else if inBlock off 0x100000 queueCount 64 then s.descWrite ((off - 0x100000) / 64) (off % 64 / 8) v
    else if inBlock off 0x600000 11 16 then s.errWrite off v
    else if s.rwBits off ||| clearBits off = 0 then s
    else if inBlock off 0x300000 (portCount + 1) 8 then (s.plainWrite off v).train
    else s.plainWrite off v)

/-! ## What the host reads -/

/-- BSTAT (R409). -/
def Bringup.bstat (b : Bringup) : Nat :=
  b.phase + b.dieOk.toNat * 2 ^ 4 + b.stackOk.toNat * 2 ^ 8 + b.dieRun.toNat * 2 ^ 16 + b.failU.toNat * 2 ^ 24 + b.failC.toNat * 2 ^ 32
/-- MBSTAT (R416). -/
def Bringup.mbstat (b : Bringup) : Nat :=
  (if b.busy then 1 else 0) + (if b.doneBit then 2 else 0) + b.result * 2 ^ 8 + b.outLen * 2 ^ 32
/-- A cluster's status register: PASSES, EMERG, RATIO_i and TEMP (R419). -/
def State.clusterStat (s : State) (c : Nat) : DWord :=
  (List.range 6).foldl (fun v i => dset v (4 * i + 4) 4 (s.clock (6 * c + i))) (dset (s.barGet (clusterReg c 8)) 0 3 (s.passes c))
/-- CAPPING: some choice of the controller is below its ceiling or above its floor (R421). A core or cluster that has no choice
listed is at its bound. -/
def State.capping (s : State) : Bool :=
  s.pw.ratio.any (fun e => e.2 < s.ratioCeil e.1) || s.pw.passes.any (fun e => s.passFloor e.1 < e.2)
/-- The power status register: CAPPING holds while a choice is off its bound (R418, R421). -/
def State.powerStat (s : State) : DWord := dset (s.barGet 0x400008) 27 1 (if s.capping then 1 else 0)
/-- Eight bytes of the bias bitmap (R397). -/
def State.biasWord (s : State) (k : Nat) : DWord :=
  BitVec.ofNat 64 ((List.range 64).foldl (fun a i => if thas s.bias (64 * k + i) then a + 2 ^ i else a) 0)
/-- The 64-bit register at an aligned BAR0 offset as the host reads it; in the safe state only BSTAT and the mailbox
answer (R412). -/
def State.regRead (s : State) (off : Nat) : Option DWord :=
  if off = 0 then some (BitVec.ofNat 64 s.bu.bstat)
  else if off = mbStat then some (BitVec.ofNat 64 s.bu.mbstat)
  else if off = mbCmd then some 0
  else if inMail off then some (BitVec.ofNat 64 (leVal (getBytes s.bu.buf (off - mbBuf) 8)))
  else if !s.answers then none
  else if inBlock off 0x500000 clusterCount 0x1000 && off % 0x1000 == 8 then some (s.clusterStat ((off - 0x500000) / 0x1000))
  else if off = 0x400008 then some s.powerStat
  else if inBlock off 0x1000000 0x300000 8 then some (s.biasWord ((off - 0x1000000) / 8))
  else some (s.barGet off)
/-- What R347 says the configuration space of the one function shows: its identifiers, the CXL DVSEC, the decoders of the HDM
decoder capability, and the vectors of MSI-X. -/
structure ConfigSpace where
  vendor : BitVec 16
  device : BitVec 16
  cxlDvsec : Bool
  hdmDecoders : Nat
  msixVectors : Nat
deriving DecidableEq, Repr
/-- The configuration space (R347): the identifiers are free (log 118). -/
def configSpace : ConfigSpace := ⟨Config.vendorId, Config.deviceId, true, 1, 256⟩
/-- A doubleword of the configuration space as the host reads it, in every phase, the safe state too (R347, R412). The spec does
not lay it out: PRESUMED for the identifiers' place, which is PCI's; the rest is free (log 118). -/
def State.configRead (_ : State) (off : Nat) : Word :=
  if off = 0 then configSpace.device ++ configSpace.vendor else Config.configWord (off / 4)
/-- A 32-bit register of queue q's notify page as the host reads it: 0 in the safe state (R349, R412). -/
def State.notifyRead (s : State) (q k : Nat) : Word := if s.answers && k < 4 then s.idx q k else 0

end Sys2Proof.Machine
end

