-- ==== Sys2Proof/Machine/Power.lean ====
section
/-! DEFINITION. Power control, thermal emergencies, trips, droop responses, scrubbing and relaunch (R339, R340, R407,
R418 to R429, R433). -/
namespace Sys2Proof.Machine

/-! ## Sensors and limits (R418, R419) -/

def State.temp (s : State) (c : Nat) : Nat := s.barFld (clusterReg c 8) 28 8
def State.warnAt (s : State) : Nat := s.barFld 0x400000 12 8
def State.emergAt (s : State) : Nat := min 100 (s.barFld 0x400000 20 8)
def State.tripAt (s : State) : Nat := s.barFld 0x400000 28 8
def State.emRatio (s : State) : Nat := let r := s.barFld 0x400000 36 4; if 4 ≤ r && r ≤ 8 then r else 6
/-- RSTEP in ticks of the device timer. -/
def State.recovery (s : State) : Nat := 1000 * max 100 (s.barFld 0x400000 40 16)
def State.powerLimit (s : State) : Nat := max 600 (min 2400 (s.barFld 0x400000 0 12))
def State.inEmerg (s : State) (c : Nat) : Bool := s.barFld (clusterReg c 8) 3 1 == 1
/-- A cluster has a recovery to make. -/
def State.capped (s : State) (c : Nat) : Bool := s.pw.caps.any (fun x => x.1 == c)
/-- TMAX and TCL (R418). -/
def State.hottest (s : State) : Nat × Nat :=
  (List.range clusterCount).foldl (fun a c => if a.1 < s.temp c then (s.temp c, c) else a) (s.temp 0, 0)
/-- TMAX and TCL are noted. -/
def State.noteHottest (s : State) : State :=
  let h := s.hottest
  (s.barPut 0x400008 12 8 h.1).barPut 0x400008 20 7 h.2
/-- A temperature sample: TEMP, TMAX and TCL, the event of a crossing of TWARN, and the start or pause of a recovery, which
begins only outside an emergency (R418, R419, R422, R433). -/
def State.sense (s : State) (c t : Nat) : State :=
  let t := min t 255
  let s := (s.barPut (clusterReg c 8) 28 8 t).noteHottest
  if s.warnAt ≤ t then
    let s' := { s with pw := { s.pw with stepAt := tdel s.pw.stepAt c } }
    if s.pw.warned.contains c then s'
    else ({ s' with pw := { s'.pw with warned := s'.pw.warned ++ [c] } }).telemetry 4 c 0 0 0 0 t
  else { s with pw := { s.pw with warned := s.pw.warned.filter (· != c),
                                  stepAt := if s.capped c && !s.inEmerg c && !thas s.pw.stepAt c then tins s.pw.stepAt c s.timer else s.pw.stepAt } }

/-! ## Failures and trips (R409, R411, R412, R423) -/

/-- FAILU of a unit: kind 1 die, 2 stack, 3 package. -/
def failUnit (kind idx : Nat) : BitVec 8 := BitVec.ofNat 8 (kind % 4 * 64 + idx % 64)
/-- A failure is listed; the first one is held in FAILU and FAILC. -/
def Bringup.fail (b : Bringup) (kind idx code : Nat) : Bringup :=
  { b with failU := if b.failU = 0 then failUnit kind idx else b.failU,
           failC := if b.failU = 0 then BitVec.ofNat 8 code else b.failC,
           failures := b.failures ++ [((failUnit kind idx).toNat, code)] }
/-- The safe state is entered (R411, R412). -/
def Bringup.safe (b : Bringup) : Bringup := { b with phase := 15, dieRun := 0, stopping := false }
/-- The device trips (R423): every core is held in reset, and the device is in the safe state. -/
def State.tripNow (s : State) : State :=
  let s := s.telemetry 7 s.hottest.2 0 0 0 0 s.hottest.1
  { s with bu := { (s.bu.fail 3 0 8).safe with tripped := true } }
/-- A sample at which some cluster has reached TTRIP trips the device at once (R423). -/
def State.tripTest (s : State) : State :=
  if s.answers && (List.range clusterCount).any (fun c => s.tripAt ≤ s.temp c) then s.tripNow else s

/-! ## The controller (R421) -/

def allCores : List Nat := List.range coreCount
def allClusters : List Nat := List.range clusterCount
def coresOf (c : Nat) : List Nat := (List.range 6).map (fun i => 6 * c + i)
/-- Controller's choice of a cluster's pass count. -/
def State.passPick (s : State) (c : Nat) : Nat := tget 1 s.pw.passes c
/-- The controller chooses a ratio for cores. -/
def State.setRatios (s : State) (l : List Nat) (r : Nat) : State :=
  { s with pw := { s.pw with ratio := l.foldl (fun t c => tput 10 t c r) s.pw.ratio } }
/-- The controller chooses pass counts for clusters. -/
def State.setPasses (s : State) (l : List Nat) (n : Nat) : State :=
  { s with pw := { s.pw with passes := l.foldl (fun t c => tput 1 t c n) s.pw.passes } }
/-- A step down over some cores and clusters: the highest ratio by 1/8, or the lowest pass count doubled. -/
def State.stepDown (s : State) (cores clusters : List Nat) : State :=
  let top := cores.foldl (fun a c => max a (s.ratio c)) 4
  let low := clusters.foldl (fun a c => min a (s.passes c)) 4
  if 4 < top then s.setRatios (cores.filter (fun c => s.ratio c == top)) (top - 1)
  else if low < 4 then s.setPasses (clusters.filter (fun c => s.passes c == low)) (2 * low)
  else s
/-- A step up, the reverse: the highest chosen pass count halved, or the lowest ratio held below its ceiling by 1/8. -/
def State.stepUp (s : State) : State :=
  let high := allClusters.foldl (fun a c => max a (s.passPick c)) 1
  if 1 < high then s.setPasses (allClusters.filter (fun c => s.passPick c == high)) (high / 2)
  else
    let l := allCores.filter (fun c => s.ratioPick c < s.ratioCeil c)
    let low := l.foldl (fun a c => min a (s.ratioPick c)) 10
    s.setRatios (l.filter (fun c => s.ratioPick c == low)) (low + 1)
/-- The step of one interval, at most one. -/
def State.powerStep (s : State) (watts : Nat) : State :=
  let hot := allClusters.filter (fun c => s.warnAt ≤ s.temp c)
  if s.powerLimit < watts then s.stepDown allCores allClusters
  else if !hot.isEmpty then hot.foldl (fun (s : State) c => s.stepDown (coresOf c) [c]) s
  else if 100 * watts ≤ 95 * s.powerLimit && allClusters.all (fun c => s.temp c + 3 ≤ s.warnAt) then s.stepUp
  else s
/-- CAPPING is noted, with its event when it changes (R418, R433). -/
def State.noteCapping (s : State) : State :=
  let c := if s.capping then 1 else 0
  if s.barFld 0x400008 27 1 = c then s else (s.barPut 0x400008 27 1 c).telemetry 8 0 c 0 0 0 0
/-- Cores are in service. -/
def State.serves (s : State) : Bool := s.bu.phase == 4 || s.bu.phase == 5
/-- POWER_CONTROL_TICK (R418 to R421, R423): samples of power and temperature, then one step, or a trip. -/
def execPowerControlTick (watts : Nat) (temps : Tbl Nat) (s : State) : Host.Outcome State Fault Refusal :=
  if !s.serves then .next s
  else
    let s := (temps.filter (fun e => e.1 < clusterCount)).foldl (fun (s : State) e => s.sense e.1 e.2) s
    let s := s.barPut 0x400008 0 12 (min watts 4095)
    .next ((s.powerStep watts).noteCapping).tripTest

/-! ## Thermal emergencies (R407, R422) -/

/-- Peer set of a context: the other packages of its grids that hold groups here, and of their outstanding collectives. -/
def State.slowPeers (s : State) (ctx : Nat) : List Nat :=
  let l := s.groups.filter (fun g => !g.ended && s.ctxOf g == ctx)
  (l.flatMap (fun g => s.others (s.pktOf g)
      ++ (s.jobs.filter (fun j => j.gid == g.id && j.kind == 3 && j.running)).flatMap (fun j => peerPkgs j.peer))).eraseDups.filter (· != s.pkg)
/-- The lowest cap of a context in force, 10 for none. -/
def State.capOf (s : State) (ctx : Nat) : Nat := (s.pw.caps.filter (fun x => x.2.1 == ctx)).foldl (fun a x => min a x.2.2) 10
/-- The notice of a context goes to every reachable package of its peer set (R407). -/
def State.sendSlow (s : State) (ctx : Nat) : State :=
  ((s.slowPeers ctx).filter (fun k => tget false s.peers k)).foldl (fun (s : State) k => s.send (.slow k ctx (s.capOf ctx))) s
/-- Contexts with groups on a cluster's cores. -/
def State.clusterCtxs (s : State) (c : Nat) : List Nat :=
  ((s.groups.filter (fun g => !g.ended && clusterOf g.core == c)).map s.ctxOf).eraseDups
/-- EMERG in the cluster's block and in PWRST. -/
def State.setEmerg (s : State) (c x : Nat) : State :=
  let s := s.barPut (clusterReg c 8) 3 1 x
  s.barPut 0x400008 28 1 (if allClusters.any s.inEmerg then 1 else 0)
/-- A cap is set, or lowered, and its notice sent. -/
def State.capCtx (s : State) (c ctx : Nat) : State :=
  if s.pw.caps.any (fun x => x.1 == c && x.2.1 == ctx && x.2.2 ≤ s.emRatio) then s
  else ({ s with pw := { s.pw with caps := (s.pw.caps.filter (fun x => !(x.1 == c && x.2.1 == ctx))) ++ [(c, ctx, s.emRatio)] } } : State).sendSlow ctx
/-- A cluster has reached TEMERG and is in no emergency yet (R422). -/
def State.emergDue (s : State) (c : Nat) : Bool := s.serves && !s.inEmerg c && s.emergAt ≤ s.temp c
/-- A cluster in an emergency has cooled below TEMERG - 5 degrees (R422). -/
def State.coolDue (s : State) (c : Nat) : Bool := s.serves && s.inEmerg c && s.temp c + 5 < s.emergAt
/-- A cluster's caps are to rise: RSTEP after its recovery began or the last raise (R422). -/
def State.raiseDue (s : State) (c : Nat) : Bool :=
  s.serves && s.capped c && (match tfind s.pw.stepAt c with | some t => t + s.recovery ≤ s.timer | none => false)
/-- THERMAL_EMERGENCY_START (R422 steps 1, 2 and 5). -/
def execThermalEmergencyStart (cluster temp : Nat) (s : State) : Host.Outcome State Fault Refusal :=
  if clusterCount ≤ cluster || !s.serves || s.inEmerg cluster || temp < s.emergAt then .next s
  else
    let s := (s.sense cluster temp).setEmerg cluster 1
    let s := s.telemetry 5 cluster 0 0 0 0 (min temp 255)
    .next ((s.clusterCtxs cluster).foldl (fun (s : State) x => s.capCtx cluster x) { s with pw := { s.pw with stepAt := tdel s.pw.stepAt cluster } }).tripTest
/-- THERMAL_EMERGENCY_END (R422 step 3): the caps remain. -/
def execThermalEmergencyEnd (cluster temp : Nat) (s : State) : Host.Outcome State Fault Refusal :=
  if clusterCount ≤ cluster || !s.serves || !s.inEmerg cluster || s.emergAt ≤ temp + 5 then .next s
  else .next (((s.setEmerg cluster 0).sense cluster temp).telemetry 6 cluster 0 0 0 0 (min temp 255))
/-- Every cap of a cluster rises by 1/8, and is removed at 10/8; each raise sends its notice. -/
def State.raiseCaps (s : State) (c : Nat) : State :=
  let l := (s.pw.caps.filter (fun x => x.1 == c)).map (fun x => x.2.1)
  let caps := (s.pw.caps.map (fun x => if x.1 = c then (x.1, x.2.1, x.2.2 + 1) else x)).filter (fun x => x.2.2 < 10)
  let at' := if caps.any (fun x => x.1 == c) then tins s.pw.stepAt c s.timer else tdel s.pw.stepAt c
  l.foldl (fun (s : State) x => s.sendSlow x) { s with pw := { s.pw with caps := caps, stepAt := at' } }
/-- EMERGENCY_RECOVERY_STEP (R422 step 4): RSTEP after the temperature fell below TWARN, or after the last raise. -/
def execEmergencyRecoveryStep (cluster temp : Nat) (s : State) : Host.Outcome State Fault Refusal :=
  if clusterCount ≤ cluster || !s.serves || !s.capped cluster then .next s
  else
    let s := s.sense cluster temp
    .next (if s.raiseDue cluster then s.raiseCaps cluster else s).tripTest

/-- TRIP (R423): the package supply left its range, or a sensor reached TTRIP between samples. -/
def execTrip (s : State) : Host.Outcome State Fault Refusal := .next (if s.answers then s.tripNow else s)

/-! ## Droop (R339, R340) -/

/-- The cluster's sensed droop reaches its level, and the detector is enabled. -/
def State.droopHit (s : State) (c mv : Nat) : Bool :=
  let d := s.barGet (clusterReg c 0)
  dfld d 31 1 == 1 && max 4 (dfld d 0 10) ≤ mv
/-- DROOP_ALARM (R340): six stretched cycles on every core, at its own ratio; absorbed while a stretch runs. -/
def execDroopAlarm (cluster mv : Nat) (s : State) : Host.Outcome State Fault Refusal :=
  if clusterCount ≤ cluster || !s.serves || !s.droopHit cluster mv then .next s
  else match tfind s.pw.droop cluster with
  | some (.stretch _ _ _ _) => .next s
  | d =>
    let left : Tbl Nat := (List.range 6).map (fun i => (i, 6))
    let rates : Tbl Nat := (List.range 6).map (fun i => (i, s.clock (6 * cluster + i)))
    let s := { s with pw := { s.pw with droop := tins s.pw.droop cluster (.stretch left rates s.timer d.isSome) } }
    .next (s.barPut (clusterReg cluster 0x10) 0 32 (min (s.barFld (clusterReg cluster 0x10) 0 32 + 1) 0xFFFFFFFF))
/-- Cores of a cluster that hold a group. -/
def State.heldCores (s : State) (c : Nat) : List Nat := (coresOf c).filter (fun k => !(s.onCore k).isEmpty)
/-- The stretch of a cluster has ended. -/
def State.stretchDue (s : State) (c : Nat) : Bool :=
  match tfind s.pw.droop c with
  | some (.stretch left _ start _) =>
    let l := s.heldCores c
    if l.isEmpty then start + cyclesToNs 12 ≤ s.timer else l.all (fun k => tget 0 left (k % 6) == 0)
  | _ => false
/-- DROOP_STRETCH_END (R340): the hold of 64 cluster cycles begins. -/
def execDroopStretchEnd (cluster : Nat) (s : State) : Host.Outcome State Fault Refusal :=
  .next (if s.stretchDue cluster then
    { s with pw := { s.pw with droop := tins s.pw.droop cluster (.hold (s.timer + cyclesToNs 64)) } } else s)
/-- The hold of a cluster has ended. -/
def State.holdDue (s : State) (c : Nat) : Bool :=
  match tfind s.pw.droop c with
  | some (.hold t) => t ≤ s.timer
  | _ => false
/-- DROOP_HOLD_END (R340). -/
def execDroopHoldEnd (cluster : Nat) (s : State) : Host.Outcome State Fault Refusal :=
  .next (if s.holdDue cluster then { s with pw := { s.pw with droop := tdel s.pw.droop cluster } } else s)

/-! ## Scrubbing and relaunch (R424, R426 to R428) -/

/-- The groups that a core store error in a group's state stops: the group, with its whole team where the team can then be
relaunched (R427, R428, log 119). -/
def State.struck (s : State) (g : Group) : List Group :=
  let p := s.pktOf g
  let l := s.teamOf g
  if pfld p 572 1 = 1 && pfld p 573 1 = 0 && l.all (fun x => (x.stop.isSome || !x.ended) && !x.killed && x.relaunches < 3) then
    l.filter (fun x => x.stop.isNone)
  else [g]
/-- Every error in state that belongs to a group (R427, R424): a corrected one counts, an uncorrectable one of class e at an
offset stops the group. -/
def State.coreError (s : State) (e gid off : Nat) (ue : Bool) : State :=
  let s := s.countErr e ue
  match s.group? gid with
  | some g => if ue then (s.struck g).foldl (fun (s : State) x => s.stopGroup x.id (e, off) false) s else s
  | none => s
/-- An error of L1 in a word of a core (R424): a registered word is written back poisoned, an unregistered copy is dropped. -/
def State.l1Error (s : State) (core word : Nat) (ue : Bool) : State :=
  if s.ownerOf word = some core then
    (if ue then ({ s with owner := tdel s.owner word, memPoison := setPoison s.memPoison (4 * word) 4 } : State).countErr 2 true
     else s.countErr 2 false)
  else if thas s.l1 (l1Key core (4 * word)) then (s.dropL1At core (4 * word) 4).countErr 2 false
  else s
/-- An error of a reduction buffer entry, whose word is poisoned at its merge (R424). -/
def State.redError (s : State) (k : Nat) (ue : Bool) : State :=
  match s.redbuf[k]? with
  | none => s
  | some e =>
    if !ue then s.countErr 3 false
    else
      let lost := s.unreachable e.pa
      let s := s.mergeEntry e
      (if lost then s else { s with memPoison := setPoison s.memPoison e.pa (atomBytes e.ty) }).countErr 3 true
/-- A parity error of a palette (R425): it is rebuilt with identical contents, or is a core store error where its source is
gone. An invalid palette is left to R274. -/
def State.palError (s : State) (g : Group) (p : Nat) : State :=
  let x := g.pal p
  if !x.has || !x.valid then s
  else if x.fromFill || !x.canRebuild then s.coreError 8 g.id p true
  else (s.rebuild g p).countErr 8 false
/-- An error of an accumulator element (R424): its poison bit is set. -/
def State.accError (s : State) (g : Group) (key : Nat) (ue : Bool) : State :=
  let n := key / 16384
  if !s.runOk g [n] then s
  else if !ue then s.countErr 7 false
  else (s.updGroup g.id (fun g => g.setTile n { g.tile n with pois := tins (g.tile n).pois (key % 16384) () })).countErr 7 true
/-- A parity error of a cache entry (R424), which is discarded and fetched again: of the instruction, constant and shape record
caches, the TLBs and the walk caches. -/
def State.cacheError (s : State) (c k : Nat) : State :=
  (match c with
  | 0 => { s with icache := s.icache.eraseIdx k }
  | 1 => { s with ccache := s.ccache.eraseIdx k }
  | 2 => { s with shapes := s.shapes.eraseIdx k }
  | 3 => { s with tlb := s.tlb.eraseIdx k }
  | _ => { s with walkCache := s.walkCache.eraseIdx k }).countErr 9 false
/-- PATROL_SCRUB (R424 to R427, R431): a read of one word of store class e finds no error, a corrected one, or an
uncorrectable one. For classes 0 to 2 `word` is an index of 4-byte words of memory (and `unit` the core of class 2), for 3 an
entry of the reduction buffers (or with `unit` not 0 a directory or wait-table entry), for 4, 5, 7 and 8 an offset, an element
or a palette of the group `unit`, for 9 an entry of cache `unit`; an error of class 6 changes nothing but its count. -/
def execPatrolScrub (e unit word : Nat) (err : Option Bool) (s : State) : Host.Outcome State Fault Refusal :=
  let ofGroup (k : Group → State) : State := match s.group? unit with
    | none => s
    | some g => if g.ended || g.stop.isSome then s else k g
  match err with
  | none => .next s
  | some ue => .next (match e with
    | 0 =>
      if !s.installed (4 * word) then s
      else if ue then { s with memPoison := setPoison s.memPoison (4 * word / 64 * 64) 64 }.countErr 0 true
      else s.countErr 0 false
    | 1 =>
      if !s.installed (4 * word) then s
      else if ue then { s with memPoison := setPoison s.memPoison (4 * word / 8 * 8) 8 }.countErr 1 true
      else s.countErr 1 false
    | 2 => s.l1Error unit word ue
    | 3 => if unit = 0 then s.redError word ue else if !ue then s.countErr 3 false
      else if s.answers then (s.countErr 3 true).tripNow else s
    | 4 => ofGroup (fun g => s.coreError 4 g.id word ue)
    | 5 => ofGroup (fun g => s.coreError 5 g.id word ue)
    | 6 => s.countErr 6 false
    | 7 => ofGroup (fun g => s.accError g word ue)
    | 8 => ofGroup (fun g => s.palError g word)
    | 9 => s.cacheError unit word
    | _ => s)

/-- A stopped group that has ended is to be relaunched with its team. -/
def State.relaunchDue (s : State) (g : Group) : Bool :=
  g.ended && g.stop.isSome && !g.killed && (s.teamOf g).all (fun x => x.ended)
/-- GROUP_RELAUNCH (R428): the team goes ahead of every unplaced group of its grid, to start afresh; once intake has stopped
it is dropped instead (R411). -/
def execGroupRelaunch (gid : Nat) (s : State) : Host.Outcome State Fault Refusal :=
  match s.group? gid with
  | none => .next s
  | some g =>
    if !s.relaunchDue g then .next s
    else
      let l := sortBy (fun a b => a.team ≤ b.team) (s.teamOf g)
      let s := l.foldl (fun (s : State) x => s.storeEvent x 1) s
      let s := { s with groups := s.groups.filter (fun (x : Group) => !l.any (fun y => y.id == x.id)) }
      .next (s.updGrid g.grid (fun (d : Grid) =>
        if s.bu.stopping then { d with dropped := true }
        else { d with relaunch := d.relaunch ++ l.map (fun x => (x.lin, x.relaunches + 1)), waitSince := s.timer, blocking := false }))

end Sys2Proof.Machine
end

