-- ==== Sys2Proof/Machine/Boot.lean ====
section
/-! DEFINITION. Bring-up, unit failures, the safe state, firmware, and the mailbox's commands (R408 to R417). -/
namespace Sys2Proof.Machine

/-! ## Firmware images (R413) -/

/-- Bytes [lo, lo + n) of an image. -/
def part (b : List Byte) (lo n : Nat) : List Byte := (b.drop lo).take n
def fwHeader : Nat := 1152
/-- SVN and BODYLEN. -/
def fwSvn (b : List Byte) : Nat := leVal (part b 4 4)
def fwBody (b : List Byte) : Nat := leVal (part b 8 4)
/-- Header and body. -/
def fwImage (b : List Byte) : List Byte := b.take (fwHeader + fwBody b)
/-- The header with SIG set to zero, then the body. -/
def fwSigned (b : List Byte) : List Byte := part b 0 528 ++ List.replicate 512 0 ++ part b 1040 (112 + fwBody b)
/-- The first check that an image fails, as FAILC; 0 where it passes. -/
def fwCheck (fuses : Nat) (b : List Byte) : Nat :=
  if sha512 (part b 16 512) != beBytes 64 Config.keyHash.toNat then 6
  else if !pssVerify (part b 16 512) (part b 528 512) (fwSigned b) then 6
  else if fwSvn b < fuses then 7
  else 0

/-! ## Failures (R409, R411, R412) -/

/-- Failures of a die's tests and of its stacks' training. -/
def dieFailures (r : StageResult) (d : Nat) : List (Nat × Nat × Nat) :=
  (if !r.lbist.getLsbD d then [(1, d, 1)] else []) ++ (if !r.mbist.getLsbD d then [(1, d, 2)] else [])
    ++ (if !r.hbms.getLsbD (2 * d) then [(2, 2 * d, 3)] else []) ++ (if !r.hbms.getLsbD (2 * d + 1) then [(2, 2 * d + 1, 3)] else [])
/-- Results of the tests of some dies: DIEOK and STACKOK. -/
def Bringup.tested (b : Bringup) (r : StageResult) (dies : List Nat) : Bringup :=
  let ok := dies.filter (fun d => (dieFailures r d).isEmpty)
  { b with dieOk := ok.foldl (fun v d => v ||| 1#4 <<< d) b.dieOk,
           stackOk := (dies.flatMap (fun d => [2 * d, 2 * d + 1])).foldl (fun v k => if r.hbms.getLsbD k then v ||| 1#8 <<< k else v) b.stackOk }

/-- A grid drops its groups not yet placed (R411). A launch that still arms is aborted. -/
def State.dropUnplaced (s : State) (d : Grid) : State :=
  if d.done || d.phase = .refused || !d.unplaced then s
  else
    let s := s.startedTask d.id
    let s := match d.phase with
      | .arming _ => (s.others d.pkt).foldl (fun (s : State) k => s.send (.abort k d.ctx d.gen)) s
      | _ => s
    let n := s.nextId
    let s : State := { s with nextId := n + 1 }
    s.updGrid d.id (fun (d : Grid) =>
      { d with lastEnd := n, dropped := true, next := d.last, relaunch := [], phase := .placing,
               dones := match d.phase with | .arming _ => s.others d.pkt | _ => d.dones })
/-- Pending tasks are dropped (R411). -/
def State.dropTasks (s : State) : State :=
  (s.tasks.filter (fun t => !t.accepted)).foldl (fun (s : State) t => s.dropTask t) s
/-- A unit fails (R411): intake stops, and nothing more is placed. -/
def State.failed (s : State) (kind idx code : Nat) : State :=
  let s := { s with bu := { s.bu.fail kind idx code with stopping := true } }
  (s.grids.foldl (fun (s : State) d => s.dropUnplaced d) s).dropTasks
/-- A unit that can fail in the phase: dies 1 to 3 and stacks 2 to 7 in stage 4, the SerDes in stage 5. -/
def State.mayFail (s : State) (kind idx code : Nat) : Bool :=
  !(s.bu.failures.contains ((failUnit kind idx).toNat, code)) && (match kind with
    | 1 => s.bu.phase == 4 && 1 ≤ idx && idx ≤ 3 && (code == 1 || code == 2)
    | 2 => s.bu.phase == 4 && 2 ≤ idx && idx ≤ 7 && code == 3
    | 3 => s.bu.phase == 5 && idx == 0 && code == 4
    | _ => false)
/-- UNIT_FAILURE (R411). -/
def execUnitFailure (kind idx code : Nat) (s : State) : Host.Outcome State Fault Refusal :=
  .next (if s.mayFail kind idx code then s.failed kind idx code else s)
/-- Resident groups have ended, and every record has been written: grids with saved groups keep theirs until the driver
resumes or kills the context. -/
def State.safeDue (s : State) : Bool := s.bu.stopping && s.groups.all (fun g => g.ended) && s.grids.all (fun d => d.done)
/-- SAFE_STATE_ENTRY (R411 step 5). -/
def execSafeStateEntry (s : State) : Host.Outcome State Fault Refusal :=
  .next (if s.safeDue then { s with bu := s.bu.safe } else s)

/-! ## Stages (R408) -/

/-- What survives a power-on reset: the fuses, memory that is not the device's, and the model's own counters. -/
def State.restart (s : State) : State :=
  { State.reset with bu := { Bringup.reset with phase := 1, fuses := s.bu.fuses }, mem := s.mem.filter (fun e => !isOwn e.1),
                     memPoison := s.memPoison.filter (fun e => !isOwn (4 * e.1)), out := s.out, nextId := s.nextId, free := s.free }
/-- POWER_ON_RESET (R408, R409, R415). -/
def execPowerOnReset (s : State) : Host.Outcome State Fault Refusal := .next s.restart
/-- Stages 1 to 5 as they finish. -/
def State.stage (s : State) (r : StageResult) : State :=
  let b := s.bu
  match b.phase with
  | 1 => { s with bu := if r.keyOk then { b with phase := 2, idKey := true } else (b.fail 3 0 5).safe }
  | 2 =>
    let c := fwCheck b.fuses Config.flash
    let b := { b with image := fwImage Config.flash, svn := if c = 0 then fwSvn Config.flash else 0 }
    { s with bu := if c = 0 then { b with phase := 3 } else (b.fail 3 0 c).safe }
  | 3 =>
    let l := dieFailures r 0
    let b := b.tested r [0]
    { s with bu := if l.isEmpty then { b with phase := 4, dieRun := 1 } else (l.foldl (fun b x => b.fail x.1 x.2.1 x.2.2) b).safe }
  | 4 =>
    let s := { s with bu := b.tested r [1, 2, 3] }
    let l := ([1, 2, 3].flatMap (dieFailures r)).filter (fun x => s.mayFail x.1 x.2.1 x.2.2)
    if s.bu.dieOk = 15 && s.bu.failures.isEmpty then { s with bu := { s.bu with phase := 5, dieRun := 15 } }.train
    else l.foldl (fun (s : State) x => s.failed x.1 x.2.1 x.2.2) s
  | 5 => if r.serdes then s else if s.mayFail 3 0 4 then s.failed 3 0 4 else s
  | _ => s
/-- BRINGUP_STAGE_COMPLETE (R408 to R410, R413). -/
def execBringupStageComplete (r : StageResult) (s : State) : Host.Outcome State Fault Refusal := .next (s.stage r)

/-! ## Mailbox commands (R414 to R417) -/

/-- The command with OP `op`, while it runs. -/
def State.mail (s : State) (op : Nat) (k : State → State) : State := if s.bu.busy && s.bu.op == op then k s else s
/-- STATUS (R416): BSTAT, the count of failures, and each failure's FAILU and FAILC (log 80). -/
def execStatus (s : State) : Host.Outcome State Fault Refusal :=
  .next (s.mail 1 (fun s => s.mailDone 0 (leBytes 8 s.bu.bstat ++ leBytes 4 s.bu.failures.length
    ++ s.bu.failures.flatMap (fun x => leBytes 4 x.1 ++ leBytes 4 x.2))))
/-- GETCERT (R415, R416): the buffer holds 4 KiB. -/
def execGetcert (s : State) : Host.Outcome State Fault Refusal :=
  .next (s.mail 2 (fun s => if s.bu.idKey then s.mailDone 0 (Config.cert.take 4096) else s.mailDone 5 []))
/-- The signed part of a report. The measurements are those of stage 2: a later FWLOAD changes the running image's SVN alone. -/
def State.report (s : State) : List Byte :=
  leBytes 4 1 ++ leBytes 4 s.bu.svn ++ leBytes 8 s.bu.bstat ++ getBytes s.bu.buf 0 64
    ++ sha512 Config.rom ++ sha512 s.bu.image ++ sha512 Config.board
/-- The signature of a report by the identity key. -/
def signature (report : List Byte) : List Byte :=
  pssSign Config.idModulus Config.idPrivate report (beBytes 64 (Config.pssSalt report).toNat)
/-- ATTEST (R415 to R417). -/
def execAttest (s : State) : Host.Outcome State Fault Refusal :=
  .next (s.mail 3 (fun s =>
    if s.bu.inLen != 64 then s.mailDone 3 []
    else if !s.bu.idKey then s.mailDone 5 []
    else s.mailDone 0 (s.report ++ signature s.report)))
/-- FWLOAD (R413, R416): an image in host memory is verified; bring-up restarts at stage 3 with it. -/
def execFwload (s : State) : Host.Outcome State Fault Refusal :=
  .next (s.mail 4 (fun s =>
    let b := getBytes s.bu.buf 0 12
    let n := leVal (b.drop 8)
    if s.bu.inLen != 12 || 2 ^ 48 ≤ leVal (b.take 8) || n < fwHeader then s.mailDone 3 []
    else
      let (g, s) := s.readPoint ⟨none, 0, true⟩ (2 ^ 48 + leVal (b.take 8)) n
      if n != fwHeader + fwBody g.bytes then s.mailDone 3 []
      else if g.bad || fwCheck s.bu.fuses g.bytes != 0 then s.mailDone 4 []
      else
        let s := s.mailDone 0 []
        { s with bu := { s.bu with phase := 3, failU := 0, failC := 0, failures := [], svn := fwSvn g.bytes } }))
/-- SVNRAISE (R414, R416). -/
def execSvnraise (s : State) : Host.Outcome State Fault Refusal :=
  .next (s.mail 5 (fun s =>
    let n := max s.bu.fuses (min 63 s.bu.svn)
    { s with bu := { s.bu with fuses := n } }.mailDone 0 (leBytes 4 n)))
/-- RESET (R408, R416): a power-on reset follows. -/
def execReset (s : State) : Host.Outcome State Fault Refusal := .next (s.mail 6 (fun s => s.restart))

end Sys2Proof.Machine
end

