-- ==== Sys2Proof/Machine/Dispatch.lean ====
section
/-! DEFINITION. The meaning of each instruction and event. -/
namespace Sys2Proof.Machine

/-- One step of an instruction or event (R10, R12). -/
def exec (i : Instr) (s : State) : Host.Outcome State Fault Refusal :=
  match i with
  | .iadd f => Sys2Proof.Machine.execIadd f s
  | .isub f => Sys2Proof.Machine.execIsub f s
  | .imul f => Sys2Proof.Machine.execImul f s
  | .imulh f => Sys2Proof.Machine.execImulh f s
  | .imad f => Sys2Proof.Machine.execImad f s
  | .imadw f => Sys2Proof.Machine.execImadw f s
  | .iadd64 f => Sys2Proof.Machine.execIadd64 f s
  | .isub64 f => Sys2Proof.Machine.execIsub64 f s
  | .idiv f => Sys2Proof.Machine.execIdiv f s
  | .irem f => Sys2Proof.Machine.execIrem f s
  | .imin f => Sys2Proof.Machine.execImin f s
  | .imax f => Sys2Proof.Machine.execImax f s
  | .iabs f => Sys2Proof.Machine.execIabs f s
  | .and f => Sys2Proof.Machine.execAnd f s
  | .or f => Sys2Proof.Machine.execOr f s
  | .xor f => Sys2Proof.Machine.execXor f s
  | .andn f => Sys2Proof.Machine.execAndn f s
  | .shl f => Sys2Proof.Machine.execShl f s
  | .shr f => Sys2Proof.Machine.execShr f s
  | .sar f => Sys2Proof.Machine.execSar f s
  | .rot f => Sys2Proof.Machine.execRot f s
  | .bfe f => Sys2Proof.Machine.execBfe f s
  | .bfi f => Sys2Proof.Machine.execBfi f s
  | .popc f => Sys2Proof.Machine.execPopc f s
  | .clz f => Sys2Proof.Machine.execClz f s
  | .ctz f => Sys2Proof.Machine.execCtz f s
  | .brev f => Sys2Proof.Machine.execBrev f s
  | .lea f => Sys2Proof.Machine.execLea f s
  | .icmp f => Sys2Proof.Machine.execIcmp f s
  | .ipick f => Sys2Proof.Machine.execIpick f s
  | .mov f => Sys2Proof.Machine.execMov f s
  | .movi f => Sys2Proof.Machine.execMovi f s
  | .ltest f => Sys2Proof.Machine.execLtest f s
  | .ltestS f => Sys2Proof.Machine.execLtestS f s
  | .lxch f => Sys2Proof.Machine.execLxch f s
  | .lfold f => Sys2Proof.Machine.execLfold f s
  | .scan f => Sys2Proof.Machine.execScan f s
  | .lsame f => Sys2Proof.Machine.execLsame f s
  | .pset f => Sys2Proof.Machine.execPset f s
  | .pmov f => Sys2Proof.Machine.execPmov f s
  | .nop f => Sys2Proof.Machine.execNop f s
  | .bra f => Sys2Proof.Machine.execBra f s
  | .jmp f => Sys2Proof.Machine.execJmp f s
  | .call f => Sys2Proof.Machine.execCall f s
  | .ret f => Sys2Proof.Machine.execRet f s
  | .jset f => Sys2Proof.Machine.execJset f s
  | .jwait f => Sys2Proof.Machine.execJwait f s
  | .loop f => Sys2Proof.Machine.execLoop f s
  | .lbrk f => Sys2Proof.Machine.execLbrk f s
  | .exit f => Sys2Proof.Machine.execExit f s
  | .yield f => Sys2Proof.Machine.execYield f s
  | .trap f => Sys2Proof.Machine.execTrap f s
  | .tret f => Sys2Proof.Machine.execTret f s
  | .iaddS f => Sys2Proof.Machine.execIaddS f s
  | .isubS f => Sys2Proof.Machine.execIsubS f s
  | .imulS f => Sys2Proof.Machine.execImulS f s
  | .imulhS f => Sys2Proof.Machine.execImulhS f s
  | .imadS f => Sys2Proof.Machine.execImadS f s
  | .iadd64S f => Sys2Proof.Machine.execIadd64S f s
  | .isub64S f => Sys2Proof.Machine.execIsub64S f s
  | .idivS f => Sys2Proof.Machine.execIdivS f s
  | .iremS f => Sys2Proof.Machine.execIremS f s
  | .iminS f => Sys2Proof.Machine.execIminS f s
  | .imaxS f => Sys2Proof.Machine.execImaxS f s
  | .iabsS f => Sys2Proof.Machine.execIabsS f s
  | .andS f => Sys2Proof.Machine.execAndS f s
  | .orS f => Sys2Proof.Machine.execOrS f s
  | .xorS f => Sys2Proof.Machine.execXorS f s
  | .andnS f => Sys2Proof.Machine.execAndnS f s
  | .shlS f => Sys2Proof.Machine.execShlS f s
  | .shrS f => Sys2Proof.Machine.execShrS f s
  | .sarS f => Sys2Proof.Machine.execSarS f s
  | .rotS f => Sys2Proof.Machine.execRotS f s
  | .bfeS f => Sys2Proof.Machine.execBfeS f s
  | .bfiS f => Sys2Proof.Machine.execBfiS f s
  | .popcS f => Sys2Proof.Machine.execPopcS f s
  | .clzS f => Sys2Proof.Machine.execClzS f s
  | .ctzS f => Sys2Proof.Machine.execCtzS f s
  | .brevS f => Sys2Proof.Machine.execBrevS f s
  | .leaS f => Sys2Proof.Machine.execLeaS f s
  | .ipickS f => Sys2Proof.Machine.execIpickS f s
  | .movS f => Sys2Proof.Machine.execMovS f s
  | .moviS f => Sys2Proof.Machine.execMoviS f s
  | .fadd f => Sys2Proof.Machine.execFadd f s
  | .fsub f => Sys2Proof.Machine.execFsub f s
  | .fmul f => Sys2Proof.Machine.execFmul f s
  | .ffma f => Sys2Proof.Machine.execFfma f s
  | .fmin f => Sys2Proof.Machine.execFmin f s
  | .fmax f => Sys2Proof.Machine.execFmax f s
  | .fcmp f => Sys2Proof.Machine.execFcmp f s
  | .fpick f => Sys2Proof.Machine.execFpick f s
  | .fclass f => Sys2Proof.Machine.execFclass f s
  | .frnd f => Sys2Proof.Machine.execFrnd f s
  | .fscale f => Sys2Proof.Machine.execFscale f s
  | .fdiv f => Sys2Proof.Machine.execFdiv f s
  | .rcp f => Sys2Proof.Machine.execRcp f s
  | .rsq f => Sys2Proof.Machine.execRsq f s
  | .sqrt f => Sys2Proof.Machine.execSqrt f s
  | .log2 f => Sys2Proof.Machine.execLog2 f s
  | .exp2 f => Sys2Proof.Machine.execExp2 f s
  | .sin f => Sys2Proof.Machine.execSin f s
  | .cos f => Sys2Proof.Machine.execCos f s
  | .tanh f => Sys2Proof.Machine.execTanh f s
  | .cvt f => Sys2Proof.Machine.execCvt f s
  | .cvtS f => Sys2Proof.Machine.execCvtS f s
  | .bpack f => Sys2Proof.Machine.execBpack f s
  | .bunpack f => Sys2Proof.Machine.execBunpack f s
  | .faddS f => Sys2Proof.Machine.execFaddS f s
  | .fsubS f => Sys2Proof.Machine.execFsubS f s
  | .fmulS f => Sys2Proof.Machine.execFmulS f s
  | .ffmaS f => Sys2Proof.Machine.execFfmaS f s
  | .fminS f => Sys2Proof.Machine.execFminS f s
  | .fmaxS f => Sys2Proof.Machine.execFmaxS f s
  | .fpickS f => Sys2Proof.Machine.execFpickS f s
  | .ld f => Sys2Proof.Machine.execLd f s
  | .ldS f => Sys2Proof.Machine.execLdS f s
  | .st f => Sys2Proof.Machine.execSt f s
  | .atom f => Sys2Proof.Machine.execAtom f s
  | .red f => Sys2Proof.Machine.execRed f s
  | .cas64 f => Sys2Proof.Machine.execCas64 f s
  | .fence f => Sys2Proof.Machine.execFence f s
  | .pref f => Sys2Proof.Machine.execPref f s
  | .cctlIvl1 f => Sys2Proof.Machine.execCctlIvl1 f s
  | .cctlIvline f => Sys2Proof.Machine.execCctlIvline f s
  | .cctlIvconst f => Sys2Proof.Machine.execCctlIvconst f s
  | .cctlEvl2 f => Sys2Proof.Machine.execCctlEvl2 f s
  | .acopy f => Sys2Proof.Machine.execAcopy f s
  | .bar f => Sys2Proof.Machine.execBar f s
  | .barGrid f => Sys2Proof.Machine.execBarGrid f s
  | .gridBarrierRelease grid => Sys2Proof.Machine.execGridBarrierRelease grid s
  | .syncset f => Sys2Proof.Machine.execSyncset f s
  | .synchit f => Sys2Proof.Machine.execSynchit f s
  | .synchold f => Sys2Proof.Machine.execSynchold f s
  | .syncdrop f => Sys2Proof.Machine.execSyncdrop f s
  | .fwait f => Sys2Proof.Machine.execFwait f s
  | .fwaitPoll g w sub => Sys2Proof.Machine.execFwaitPoll g w sub s
  | .fput f => Sys2Proof.Machine.execFput f s
  | .watch f => Sys2Proof.Machine.execWatch f s
  | .watchClr f => Sys2Proof.Machine.execWatchClr f s
  | .disp f => Sys2Proof.Machine.execDisp f s
  | .qbind f => Sys2Proof.Machine.execQbind f s
  | .qeos f => Sys2Proof.Machine.execQeos f s
  | .qstat f => Sys2Proof.Machine.execQstat f s
  | .pbuild f => Sys2Proof.Machine.execPbuild f s
  | .bcastCopyInstall g op => Sys2Proof.Machine.execBcastCopyInstall g op s
  | .plook f => Sys2Proof.Machine.execPlook f s
  | .pinv f => Sys2Proof.Machine.execPinv f s
  | .pstat f => Sys2Proof.Machine.execPstat f s
  | .pspill f => Sys2Proof.Machine.execPspill f s
  | .pfill f => Sys2Proof.Machine.execPfill f s
  | .azero f => Sys2Proof.Machine.execAzero f s
  | .aload f => Sys2Proof.Machine.execAload f s
  | .aread f => Sys2Proof.Machine.execAread f s
  | .aver f => Sys2Proof.Machine.execAver f s
  | .adrain f => Sys2Proof.Machine.execAdrain f s
  | .rfence f => Sys2Proof.Machine.execRfence f s
  | .srld f => Sys2Proof.Machine.execSrld f s
  | .paletteOpPerform g op => Sys2Proof.Machine.execPaletteOpPerform g op s
  | .spawn f => Sys2Proof.Machine.execSpawn f s
  | .spawnAccept task => Sys2Proof.Machine.execSpawnAccept task s
  | .give f => Sys2Proof.Machine.execGive f s
  | .claim f => Sys2Proof.Machine.execClaim f s
  | .claimdl g => Sys2Proof.Machine.execClaimdl g s
  | .ejob f => Sys2Proof.Machine.execEjob f s
  | .csrrd f => Sys2Proof.Machine.execCsrrd f s
  | .csrwr f => Sys2Proof.Machine.execCsrwr f s
  | .pkrwr f => Sys2Proof.Machine.execPkrwr f s
  | .tstamp f => Sys2Proof.Machine.execTstamp f s
  | .perfrd f => Sys2Proof.Machine.execPerfrd f s
  | .sleep f => Sys2Proof.Machine.execSleep f s
  | .sleepExpiry g w sub => Sys2Proof.Machine.execSleepExpiry g w sub s
  | .icinv f => Sys2Proof.Machine.execIcinv f s
  | .bias f => Sys2Proof.Machine.execBias f s
  | .halt f => Sys2Proof.Machine.execHalt f s
  | .clauseStart g w => Sys2Proof.Machine.execClauseStart g w s
  | .trapEntry g w => Sys2Proof.Machine.execTrapEntry g w s
  | .riePromotion core => Sys2Proof.Machine.execRiePromotion core s
  | .rieDemotion g w => Sys2Proof.Machine.execRieDemotion g w s
  | .speculativeReplay g w => Sys2Proof.Machine.execSpeculativeReplay g w s
  | .l1CopyExpiry core word => Sys2Proof.Machine.execL1CopyExpiry core word s
  | .warpExit g w => Sys2Proof.Machine.execWarpExit g w s
  | .groupEnd g => Sys2Proof.Machine.execGroupEnd g s
  | .registerWrite off v => Sys2Proof.Machine.execRegisterWrite off v s
  | .wridxWrite q v => Sys2Proof.Machine.execWridxWrite q v s
  | .crdidxWrite q v => Sys2Proof.Machine.execCrdidxWrite q v s
  | .queueEnable q => Sys2Proof.Machine.execQueueEnable q s
  | .queueErrClear q => Sys2Proof.Machine.execQueueErrClear q s
  | .timeSliceExpiry q => Sys2Proof.Machine.execTimeSliceExpiry q s
  | .packetRead q => Sys2Proof.Machine.execPacketRead q s
  | .placementWaitExpiry grid => Sys2Proof.Machine.execPlacementWaitExpiry grid s
  | .arm pkg origin ctx status pkt wins => Sys2Proof.Machine.execArm pkg origin ctx status pkt wins s
  | .armTimeout grid => Sys2Proof.Machine.execArmTimeout grid s
  | .go ctx gen => Sys2Proof.Machine.execGo ctx gen s
  | .abort ctx gen => Sys2Proof.Machine.execAbort ctx gen s
  | .done pkg ctx gen status cause counts => Sys2Proof.Machine.execDone pkg ctx gen status cause counts s
  | .completionRecordWrite grid => Sys2Proof.Machine.execCompletionRecordWrite grid s
  | .contextSaveWrite ctx => Sys2Proof.Machine.execContextSaveWrite ctx s
  | .pageWalk core ctx va => Sys2Proof.Machine.execPageWalk core ctx va s
  | .jobAccept job => Sys2Proof.Machine.execJobAccept job s
  | .tileCopyJob job n => Sys2Proof.Machine.execTileCopyJob job n s
  | .decodeLockAcquire job => Sys2Proof.Machine.execDecodeLockAcquire job s
  | .frameDecodeJob job => Sys2Proof.Machine.execFrameDecodeJob job s
  | .collectiveJob job ranks => Sys2Proof.Machine.execCollectiveJob job ranks s
  | .collectiveTimeout job arrived => Sys2Proof.Machine.execCollectiveTimeout job arrived s
  | .jobComplete job => Sys2Proof.Machine.execJobComplete job s
  | .hostMemrd pa => Sys2Proof.Machine.execHostMemrd pa s
  | .hostMemwr pa data => Sys2Proof.Machine.execHostMemwr pa data s
  | .hostSnoop die line kind => Sys2Proof.Machine.execHostSnoop die line kind s
  | .birsp page dirty => Sys2Proof.Machine.execBirsp page dirty s
  | .biasFlipComplete page => Sys2Proof.Machine.execBiasFlipComplete page s
  | .portTrained port peer pport base => Sys2Proof.Machine.execPortTrained port peer pport base s
  | .portFailed port => Sys2Proof.Machine.execPortFailed port s
  | .peerUnreachable pkg => Sys2Proof.Machine.execPeerUnreachable pkg s
  | .slow origin ctx ratio => Sys2Proof.Machine.execSlow origin ctx ratio s
  | .powerControlTick watts temps => Sys2Proof.Machine.execPowerControlTick watts temps s
  | .thermalEmergencyStart cluster temp => Sys2Proof.Machine.execThermalEmergencyStart cluster temp s
  | .thermalEmergencyEnd cluster temp => Sys2Proof.Machine.execThermalEmergencyEnd cluster temp s
  | .emergencyRecoveryStep cluster temp => Sys2Proof.Machine.execEmergencyRecoveryStep cluster temp s
  | .droopAlarm cluster mv => Sys2Proof.Machine.execDroopAlarm cluster mv s
  | .droopStretchEnd cluster => Sys2Proof.Machine.execDroopStretchEnd cluster s
  | .droopHoldEnd cluster => Sys2Proof.Machine.execDroopHoldEnd cluster s
  | .patrolScrub e unit word err => Sys2Proof.Machine.execPatrolScrub e unit word err s
  | .groupRelaunch g => Sys2Proof.Machine.execGroupRelaunch g s
  | .bringupStageComplete r => Sys2Proof.Machine.execBringupStageComplete r s
  | .unitFailure kind idx code => Sys2Proof.Machine.execUnitFailure kind idx code s
  | .longLatencyCompletion g w idx => Sys2Proof.Machine.execLongLatencyCompletion g w idx s
  | .peerAccess pkg op pa => Sys2Proof.Machine.execPeerAccess pkg op pa s
  | .queueSlotSelect => Sys2Proof.Machine.execQueueSlotSelect s
  | .groupPlacement => Sys2Proof.Machine.execGroupPlacement s
  | .invpg => Sys2Proof.Machine.execInvpg s
  | .invctx => Sys2Proof.Machine.execInvctx s
  | .invall => Sys2Proof.Machine.execInvall s
  | .ptfence => Sys2Proof.Machine.execPtfence s
  | .reply => Sys2Proof.Machine.execReply s
  | .preempt => Sys2Proof.Machine.execPreempt s
  | .resume => Sys2Proof.Machine.execResume s
  | .kill => Sys2Proof.Machine.execKill s
  | .brkset => Sys2Proof.Machine.execBrkset s
  | .hcont => Sys2Proof.Machine.execHcont s
  | .faultRecordWrite => Sys2Proof.Machine.execFaultRecordWrite s
  | .trip => Sys2Proof.Machine.execTrip s
  | .powerOnReset => Sys2Proof.Machine.execPowerOnReset s
  | .safeStateEntry => Sys2Proof.Machine.execSafeStateEntry s
  | .status => Sys2Proof.Machine.execStatus s
  | .getcert => Sys2Proof.Machine.execGetcert s
  | .attest => Sys2Proof.Machine.execAttest s
  | .fwload => Sys2Proof.Machine.execFwload s
  | .svnraise => Sys2Proof.Machine.execSvnraise s
  | .reset => Sys2Proof.Machine.execReset s

end Sys2Proof.Machine
end

