-- ==== Sys2Proof/Machine/Due.lean ====
section
/-! DEFINITION. What the package does next by itself: time (R40, R41, R305, R340), the events that are due, and the quads in
turn (log 1). -/
namespace Sys2Proof.Machine

/-! ## Time -/

/-- Cores that hold a group. -/
def State.busyCores (s : State) : List Nat :=
  sortBy (fun a b => decide (a ≤ b)) ((s.groups.filter (fun g => !g.ended)).map (fun g => g.core)).eraseDups
/-- Cores whose slice cycles matter: those that hold a group, and every core of a cluster whose stretch runs (R340). -/
def State.tickCores (s : State) : List Nat :=
  (s.busyCores ++ s.pw.droop.flatMap (fun e => match e.2 with
    | .stretch _ _ _ _ => coresOf e.1
    | .hold _ => [])).eraseDups
/-- Time passes on one core: its clock, and the counters of its groups (R41, R305). -/
def State.tickCore (n : Nat) (s : State) (core : Nat) : State :=
  let e := edgesOf (tget 0 s.edges core) (s.clock core) (s.stretchLeft core) n
  let droop := match tfind s.pw.droop (clusterOf core) with
    | some (.stretch l r t h) => tins s.pw.droop (clusterOf core) (.stretch (tput 0 l (core % 6) ((s.stretchLeft core).1 - e.1)) r t h)
    | _ => s.pw.droop
  { s with
    edges := tput 0 s.edges core e.2.2,
    pw := { s.pw with droop := droop },
    groups := s.groups.map (fun (g : Group) =>
      if g.core = core && !g.ended then { g with clkc := g.clkc + BitVec.ofNat 32 e.2.1 }.count 9 e.1 else g) }
/-- A warp with no clause to start waits for one from now on (R30), and the time in the reorder engine is counted (R305). -/
def State.tickWarp (s : State) (n : Nat) (ready : List (Nat × Nat)) (g : Group) (w : Warp) : Warp :=
  let w := if ready.contains (g.id, w.idx) then w else { w with readyAt := s.timer + n }
  if w.inRie then w.count 2 ((s.timer + n) * 7 / 4 - s.timer * 7 / 4) else w
/-- Quads of the warps that have not exited, ascending. -/
def State.liveQuads (s : State) : List Nat :=
  sortBy (fun a b => decide (a ≤ b)) ((s.groups.filter (fun g => !g.ended)).flatMap (fun g =>
    (g.warps.filter (fun w => !w.exited)).map (fun w => quadOf g.core w.slot))).eraseDups
/-- The device timer advances by n ticks. -/
def State.tick (s : State) (n : Nat) : State :=
  let ready := s.liveQuads.flatMap (fun q => (s.readyOn q).map (fun p => (p.1.id, p.2.1.idx)))
  let s := { s with groups := s.groups.map (fun (g : Group) => { g with warps := g.warps.map (s.tickWarp n ready g) }) }
  let s := s.tickCores.foldl (State.tickCore n) s
  { s with timer := s.timer + n }.noteCapping

/-! ## Events that are due -/

/-- The first that answers. -/
def firstOf {α : Type} (l : List Nat) (f : Nat → Option α) : Option α := l.findSome? f
def whenDue (b : Bool) (i : Instr) : Option Instr := if b then some i else none
/-- An event would change the machine, not only send messages. -/
def State.moves (s : State) (o : Host.Outcome State Fault Refusal) : Bool :=
  match o with
  | .next s' => decide ({ s' with out := s.out } ≠ s)
  | _ => true

/-- Events of a warp (R32, R127, R306, R310, R245, R28). -/
def State.warpDue (s : State) (g : Group) (w : Warp) : Option Instr :=
  if s.replayDue g w then some (.speculativeReplay g.id w.idx)
  else match w.outst.find? (fun o => o.kind == .free) with
  | some o => some (.longLatencyCompletion g.id w.idx o.id)
  | none => if (s.trapDue g w).isSome then some (.trapEntry g.id w.idx)
    else if warpDrained g w then some (.warpExit g.id w.idx)
    else if s.rieDue g w then some (.rieDemotion g.id w.idx)
    else w.subs.findSome? (fun u => match u.st with
      | .sleep d => whenDue (d ≤ s.timer) (.sleepExpiry g.id w.idx u.id)
      | .fwait _ l b t => whenDue (s.fwaitDue l b t) (.fwaitPoll g.id w.idx u.id)
      | _ => none)
/-- Events of a group (R23, R28, R261, R271, R428). -/
def State.groupDue (s : State) (g : Group) : Option Instr :=
  match g.palOps.find? (fun o => g.palReady o && !s.opStalls o) with
  | some o => some (.paletteOpPerform g.id o.id)
  | none => match g.palOps.find? (fun o => g.copyReady o) with
    | some o => some (.bcastCopyInstall g.id o.id)
    | none => match g.warps.findSome? (s.warpDue g) with
      | some i => some i
      | none => if g.claimDead then some (.claimdl g.id)
        else if s.groupOver g then some (.groupEnd g.id)
        else whenDue (s.relaunchDue g) (.groupRelaunch g.id)
/-- Events of a grid (R239, R357, R360, R364, R365). A grid barrier of several packages completes from outside. -/
def State.gridDue (s : State) (d : Grid) : Option Instr :=
  if !d.done && isCoop d.pkt && s.gridOpens d && (d.gbNext.isSome || !d.gbSent || (s.others d.pkt).isEmpty) then some (.gridBarrierRelease d.id)
  else if s.waitDue d then some (.placementWaitExpiry d.id)
  else if s.armDue d then some (.armTimeout d.id)
  else if s.doneDue d then some (.done s.pkg d.ctx d.gen.toNat 0 0 ⟨0, []⟩)
  else whenDue (s.recordDue d && !s.signalStalls d && s.moves (execCompletionRecordWrite d.id s)) (.completionRecordWrite d.id)
/-- Events of an engine job (R235, R295, R325, R405, R406, R74). -/
def State.jobDue (s : State) (j : Job) : Option Instr :=
  if s.acceptDue j then some (.jobAccept j.id)
  else if j.st = .ended then some (.jobComplete j.id)
  else if s.collDue j then some (.collectiveTimeout j.id [])
  else match j.kind with
    | 1 => whenDue (j.st == .accepted && s.moves (execTileCopyJob j.id 1 s)) (.tileCopyJob j.id 1)
    | 2 => if j.st = .locked then whenDue (s.moves (execFrameDecodeJob j.id s)) (.frameDecodeJob j.id)
      else whenDue ((j.st == .accepted || j.st == .suspended) && s.moves (execDecodeLockAcquire j.id s)) (.decodeLockAcquire j.id)
    | _ => whenDue (j.st == .accepted && s.moves (execCollectiveJob j.id [] s)) (.collectiveJob j.id [])
/-- Events of a queue (R351, R352). -/
def State.queueDue (s : State) (q : Nat) : Option Instr :=
  if s.sliceDue q then some (.timeSliceExpiry q)
  else whenDue (s.packetDue q && s.moves (execPacketRead q s)) (.packetRead q)
/-- The driver's command at the head of its ring, if it can go on (R383). -/
def State.cmdDue (s : State) : Option Instr :=
  match s.headCmd with
  | none => none
  | some (c, _) =>
    let x := match c.op with
      | 2 => (Instr.invctx, execInvctx s)
      | 3 => (Instr.invall, execInvall s)
      | 4 => (Instr.ptfence, execPtfence s)
      | 5 => (Instr.reply, execReply s)
      | 6 => (Instr.preempt, execPreempt s)
      | 7 => (Instr.resume, execResume s)
      | 8 => (Instr.kill, execKill s)
      | 9 => (Instr.brkset, execBrkset s)
      | 10 => (Instr.hcont, execHcont s)
      | _ => (Instr.invpg, execInvpg s)
    whenDue (s.moves x.2) x.1
/-- Events of the driver's units (R380, R383, R387). -/
def State.driverDue (s : State) : Option Instr :=
  if s.faultDue.isSome || s.growDue.isSome then some .faultRecordWrite
  else match s.ctxs.find? (fun c => c.saving && s.drained c.id && !s.saveStalls c.id) with
    | some c => some (.contextSaveWrite c.id)
    | none => s.cmdDue
/-- The mailbox command that runs (R416). -/
def State.mailDue (s : State) : Option Instr :=
  if !s.bu.busy then none
  else match s.bu.op with
    | 1 => some .status
    | 2 => some .getcert
    | 3 => some .attest
    | 4 => some .fwload
    | 5 => some .svnraise
    | _ => some .reset
/-- Events of a cluster's temperature (R422). -/
def State.heatDue (s : State) : Option Instr :=
  match (List.range clusterCount).find? (fun c => s.emergDue c || s.coolDue c || s.raiseDue c) with
  | none => none
  | some c => some (if s.emergDue c then .thermalEmergencyStart c (s.temp c)
      else if s.coolDue c then .thermalEmergencyEnd c (s.temp c)
      else .emergencyRecoveryStep c (s.temp c))
/-- Events of clocks, bias and recovery (R340, R343, R408, R411, R62). -/
def State.unitDue (s : State) : Option Instr :=
  if s.bu.phase = 0 then some .powerOnReset
  else if s.safeDue then some .safeStateEntry
  else match s.flips.find? (fun f => f.birsp.isEmpty) with
    | some f => some (.biasFlipComplete f.page)
    | none => match (s.pw.droop.map (fun e => e.1)).find? (fun c => s.stretchDue c || s.holdDue c) with
      | some c => if s.stretchDue c then some (.droopStretchEnd c) else some (.droopHoldEnd c)
      | none => match s.heatDue with
      | some i => some i
      | none => match s.l1.find? (fun e => e.2.2 + cyclesToNs 16384 ≤ s.timer) with
        | some e => some (.l1CopyExpiry (e.1 / 2 ^ 50) (e.1 % 2 ^ 50))
        | none => s.mailDue
/-- Launch and tasks (R289, R352, R360). -/
def State.launchDue (s : State) : Option Instr :=
  match s.tasks.find? (fun t => s.taskDue t && (!t.unread || s.moves (execSpawnAccept t.id s))) with
  | some t => some (.spawnAccept t.id)
  | none => if s.slotDue.isSome then some .queueSlotSelect
    else match (s.queues.map (fun e => e.1)).findSome? s.queueDue with
      | some i => some i
      | none => whenDue s.placement.isSome .groupPlacement
/-- The event that is due first. Events that other agents bring about come from the agenda alone. -/
def State.due (s : State) : Option Instr :=
  match s.unitDue with
  | some i => some i
  | none => if s.bu.tripped then none
    else match s.groups.findSome? s.groupDue with
    | some i => some i
    | none => match s.jobs.findSome? s.jobDue with
      | some i => some i
      | none => match firstOf s.busyCores (fun c => whenDue (s.riePick c).isSome (.riePromotion c)) with
        | some i => some i
        | none => match s.driverDue with
          | some i => some i
          | none => match s.launchDue with
            | some i => some i
            | none => s.grids.findSome? s.gridDue

/-! ## The quads in turn -/

/-- A quad can act: the next word of its clause issues, or a clause starts. -/
def State.quadActs (s : State) (q : Nat) : Bool := if (s.quad q).run.isSome then (s.quad q).next ≤ s.timer && !s.quadWaits q else (s.pick q).isSome
/-- The next quad after the current one. -/
def State.nextQuad (s : State) : Option Nat :=
  (s.liveQuads.filter (fun q => match s.cur with | some c => c < q | none => true)).find? s.quadActs

end Sys2Proof.Machine
end

