-- ==== Sys2Proof/Machine/FetchWord.lean ====
section
/-! DEFINITION. The smallest running program of one instruction: a warp on core 0 whose started clause holds it (log 1). -/
namespace Sys2Proof.Machine

/-- Address of the clause, virtual and physical. -/
def benchAt : Nat := 0x10000
/-- Launch packet of the warp's grid: one privileged, cooperative, hot group of one warp with every allotment at its most. -/
def benchPkt : BitVec 1024 :=
  BitVec.ofNat 1024 (benchAt + 2 ^ 320 + 2 ^ 352 + 2 ^ 368 + 2 ^ 448 + 4096 * 2 ^ 496 + 31 * 2 ^ 512 + 7 * 2 ^ 517 + 576 * 2 ^ 530
    + 4 * 2 ^ 544 + 8 * 2 ^ 547 + 512 * 2 ^ 551 + 8 * 2 ^ 561 + 2 ^ 565 + 2 * 2 ^ 568 + 2 ^ 573 + 2 ^ 574)
/-- The leaf of the clause's page: every permission, A and D set. -/
def benchLeaf : Nat := 0x7D + benchAt / 4096 * 2 ^ 24
/-- Header of a clause that holds one word: the class of the instruction's home. -/
def benchHeader (w : Nat) : Nat :=
  let cls := match decode w with
    | .ok i => i.enc.home.code
    | .error _ => 0
  encodeHeader ⟨cls, 1, 0, 15, 15, 0⟩
/-- The started clause: each queue value that the word pops is 0. -/
def benchClause (w : Nat) : Clause :=
  let pops := match decode w with
    | .ok i => i.enc.pops.eraseDups.map (fun q => (q, List.replicate (i.enc.pops.count q) (0 : Word)))
    | .error _ => []
  { head := BitVec.ofNat 64 benchAt, word := benchHeader w, words := [w], pops := pops,
    pushes := match decode w with | .ok i => i.enc.push.toList | .error _ => [] }
/-- The group whose warp runs the clause. -/
def State.benchGroup (s : State) (d : Grid) (w : Nat) : Group :=
  let g := s.newGroup d 0 0 0
  let c := benchClause w
  let qs := c.pushes.foldl (fun t q => tins t q ((tget emptyQueue t q).reserve 0 (s.nextId + 1) 1)) g.queues
  let run (u : SubGroup) : SubGroup := { u with pc := BitVec.ofNat 64 (benchAt + 8), run := some c }
  { g with queues := qs }.updWarp 0 (fun (x : Warp) => { x with active := some (s.nextId + 1), runs := 1, subs := x.subs.map run })
/-- The machine with the clause in memory, mapped, and running on quad 0, which issues next. -/
def State.bench (s : State) (w : Nat) : State :=
  let s := { s with bu := { s.bu with phase := 5, dieRun := 15 } }
  let d := s.newGrid benchPkt 0 0 none s.pkg 0 3 .placing
  let s := s.addGrid { d with next := d.last }
  let g := s.benchGroup d w
  let s := { s.seat benchPkt g with nextId := s.nextId + 2 }
  let s := (s.store benchAt (leBytes 8 (benchHeader w))).store (benchAt + 8) (leBytes 8 w)
  let s := { s with tlb := [⟨0, 0, 0, benchAt / 4096, benchLeaf, 3⟩] }
  { s.setQuad 0 { idleQuad with run := some (g.id, 0) } with agenda := [.issue 0] }

end Sys2Proof.Machine
end

