-- ==== Sys2Proof/Machine/Step.lean ====
section
/-! DEFINITION. One step of the package: the next move of its agenda, else the event that is due, the next quad's word or
clause start, or a tick of the device timer (log 1). -/
namespace Sys2Proof.Machine

/-- A quad issues the next word of its clause: the decoded instruction is executed. -/
def issueQuad (q : Nat) (s : State) : Host.Outcome State Fault Refusal :=
  match s.nextWord q with
  | .idle => .next s
  | .stop s => .next s
  | .run i s => exec i s
/-- One move. -/
def move (m : Move) (s : State) : Host.Outcome State Fault Refusal :=
  match m with
  | .ev i => exec i s
  | .issue q => issueQuad q s
  | .tick n => .next (s.tick n)
/-- What the package does by itself. -/
def autoStep (s : State) : Host.Outcome State Fault Refusal :=
  match s.due with
  | some i => exec i s
  | none => match s.nextQuad with
    | none => .next { s.tick 1 with cur := none }
    | some q => match s.pick q with
      | some p => exec (.clauseStart p.1.id p.2.1.idx) { s with cur := some q }
      | none => issueQuad q s
/-- One step. -/
def step (s : State) : Host.Outcome State Fault Refusal :=
  match s.agenda with
  | m :: r => move m { s with agenda := r }
  | [] => autoStep s

/-- The machine with an instruction word where the next step fetches it: the clause that quad 0 runs. -/
def State.withFetchWord (s : State) (_nbits w : Nat) : State := s.bench (w % 2 ^ 64)

end Sys2Proof.Machine
end

