-- ==== Sys2Proof/Safety.lean ====
section
/-! DEFINITION. The terms in which claims are stated: when an instruction passes its checks, what the completion of an
instruction may change, and what every state must satisfy. -/
namespace Sys2Proof.Machine

/-! ## Issue (R154) -/

/-- The word's constant, where it names one, is read (R139, R140, step 10 of R154). -/
def Iss.constOk (i : Iss) (s : State) (e : Enc) : Bool :=
  match e.kop with
  | none => true
  | some (w, off, wide, _) =>
    let s := i.begin s e
    match ((s.issuer?).getD i).const s e (e.word.getD 0) (i.active e.guard) w off wide with
    | .ok _ _ _ => true
    | .stop _ => false

/-- The steps of R154 that an instruction passes before it executes, and the waits that end before it: a defined encoding
(1 to 7), the class of its clause, the last place where it must stand there, its privilege (8), every number it names
within the group's allotment (9), its constant (10), every token, reservation and acquire it depends on (R32, R74, R128,
R252), no palette work before it that it must follow (R259, R262), no bad token (R234), and no push to an ended queue
(R253). -/
def State.clears (s : State) (ins : Instr) : Bool :=
  match s.issuer? with
  | none => false
  | some i =>
    let e := ins.enc
    let act := i.active e.guard
    e.wf && (e.home == .alu || e.home.code == i.h.cls) && (!e.last || i.isLast) && !i.privBad s e
      && (e.dstUses ++ e.srcUses).all (fun u => (i.regBad s u).isNone)
      && !i.mustWait s e
      && (act == 0 || (!i.behindPalette s e act && (i.accPoint s e act).isNone && (i.badToken e).isNone))
      && (i.pushEnded e).isNone
      && i.constOk s e

/-- The instruction is issued in `s`: `s1` is the state in which its operands are read, and `r` holds them. -/
def State.Issues (s : State) (ins : Instr) (s1 : State) (r : Rdy) : Prop :=
  ∃ i, s.issuer? = some i ∧ s.gate i ins.enc = .go s1 r ∧ s1.issuer? = some r.i

/-- Value of special register n (R18): the lane, the warp's own numbers, the group's place, shape and team, its core, cluster,
die and package, and the generation of its grid. -/
def SpecialIs (s : State) (i : Iss) (n t v : Nat) : Prop :=
  let p := s.pktOf i.g
  (n = 0 → v = t) ∧ (n = 1 → v = i.w.idx) ∧ (n = 2 → v = warpCount p) ∧ (n = 3 → v = i.w.role)
    ∧ (n = 4 → v = i.g.x) ∧ (n = 5 → v = i.g.y) ∧ (n = 6 → v = i.g.z)
    ∧ (n = 7 → v = p.toNat / 2 ^ 320 % 2 ^ 31) ∧ (n = 8 → v = p.toNat / 2 ^ 352 % 2 ^ 16) ∧ (n = 9 → v = p.toNat / 2 ^ 368 % 2 ^ 16)
    ∧ (n = 10 → v = i.g.team) ∧ (n = 11 → v = i.g.core % 6) ∧ (n = 12 → v = i.g.core / 6) ∧ (n = 13 → v = dieOf i.g.core)
    ∧ (n = 14 → v = s.pkg) ∧ (n = 15 → ∀ d, s.grid? i.g.grid = some d → v = d.gen.toNat)
/-- Value of a source in lane t, where `q` is the queue value popped for it (R18, R20, R21, R88, R133, R134, R136). -/
def SourceIs (s : State) (i : Iss) (o : Opd) (q : Word) (t : Nat) (v : DWord) : Prop :=
  match o.src with
  | .v n => v = if o.wide then i.w.readV (n.toNat + 1) t ++ i.w.readV n.toNat t else 0#32 ++ i.w.readV n.toNat t
  | .s n => v = if o.wide then i.w.readS (n.toNat + 1) ++ i.w.readS n.toNat else 0#32 ++ i.w.readS n.toNat
  | .sp n => ∃ x, SpecialIs s i n.toNat t x ∧ v = 0#32 ++ BitVec.ofNat 32 x
  | .q _ => v = 0#32 ++ q
  | .lit => v = widenLit o.w i.h.lit
  | .imm n => v = widenImm o.w n
  | .k n => v = 0#32 ++ i.w.readK n.toNat
/-- Value of source field k of a word in lane t: the queue sources before it have popped theirs (R136, R253). -/
def OperandIs (s : State) (i : Iss) (e : Enc) (k t : Nat) (v : DWord) : Prop :=
  SourceIs s i (e.opds.getD k opdNone)
    ((popAll e.pops i.c.pops).1.getD ((e.opds.take k).countP (fun o => match o.src with | .q _ => true | _ => false)) 0) t v
/-- The state in which a word that passed its checks reads its operands: no lane of its sub-group is parked any more (R14), and
reading a token is an acquire of the job's writes (R74). -/
def BeginsIn (s : State) (i : Iss) (e : Enc) (s0 : State) : Prop :=
  let s' := s.updWarp i.g.id i.w.idx (fun (w : Warp) => { w with outst := w.outst.filter (fun o => o.kind != .parked i.u.id) })
  ((∃ n ∈ e.readsS, thas i.w.tokens n = true) → s0 = s'.dropL1 i.g.core)
    ∧ ((∀ n ∈ e.readsS, thas i.w.tokens n = false) → s0 = s')
/-- The instruction is issued and `exec` answers a next state, of which `Q` holds. -/
def State.Completes (s : State) (ins : Instr) (Q : State → Rdy → State → Prop) : Prop :=
  ∃ s1 r t, s.Issues ins s1 r ∧ exec ins s = .next t ∧ Q s1 r t

/-! ## Frames -/

/-- Groups other than one stay as they are, in their places. -/
def OtherGroups (gid : Nat) (s t : State) : Prop :=
  t.groups.length = s.groups.length ∧ ∀ (k : Nat) (g : Group), s.groups[k]? = some g → g.id ≠ gid → t.groups[k]? = some g
/-- Warps other than one stay as they are, in their places. -/
def OtherWarps (wi : Nat) (g g' : Group) : Prop :=
  g'.warps.length = g.warps.length ∧ ∀ (k : Nat) (w : Warp), g.warps[k]? = some w → w.idx ≠ wi → g'.warps[k]? = some w

/-- An entry that warp w, sub-group u has reserved and not filled. -/
def Awaits (w u : Nat) (e : QEntry) : Prop := e.warp = w ∧ e.sub = u ∧ e.val = none
/-- The first reserved entry of the clause takes a value, with the palette work it waits for; without one, nothing does. -/
def Filled (w u : Nat) (v : Word) (after : List Nat) (l l' : List QEntry) : Prop :=
  (∃ a e b, l = a ++ e :: b ∧ (∀ x ∈ a, ¬ Awaits w u x) ∧ Awaits w u e ∧ l' = a ++ { e with val := some v, after := after } :: b)
    ∨ ((∀ x ∈ l, ¬ Awaits w u x) ∧ l' = l)
/-- Queue registers of a group after an instruction that popped, and pushed `push`: entries change only at the push, and
DRY only where a pop found the queue ended. -/
def Rdy.Queues (r : Rdy) (push : Option (Nat × Word)) (g g' : Group) : Prop :=
  ∀ n, let q := tget emptyQueue g.queues n
    let q' := tget emptyQueue g'.queues n
    q' = { q with entries := q'.entries, dry := q'.dry }
      ∧ (n ∉ r.dry → q'.dry = q.dry)
      ∧ (match push with
        | some (m, v) => if n = m then Filled r.i.w.idx r.i.u.id v
              ((g.palOps.filter (fun o => o.warp == r.i.w.idx)).map (fun o => o.id)) q.entries q'.entries
            else q'.entries = q.entries
        | none => q'.entries = q.entries)

/-- Registers that an instruction writes: vector register and lane, scalar register, predicate and lane. -/
structure Writes where
  v : Nat → Nat → Option Word
  s : Nat → Option Word
  k : Nat → Nat → Option Bool

def noWrites : Writes := ⟨fun _ _ => none, fun _ => none, fun _ _ => none⟩
/-- A vector register, or an even pair, in the active lanes; v255 takes nothing (R21, R88, R156). -/
def vecWrites (d : Nat) (wide : Bool) (act : Mask) (f : Nat → DWord) : Writes :=
  { noWrites with v := fun n t => if n ≠ 255 ∧ laneIn act t then
      (if wide ∧ n = d + 1 then some ((f t).extractLsb' 32 32) else if n = d then some ((f t).extractLsb' 0 32) else none) else none }
/-- A scalar register or an even pair (R88). -/
def scaWrites (d : Nat) (wide : Bool) (v : DWord) : Writes :=
  { noWrites with s := fun n => if wide ∧ n = d + 1 then some (v.extractLsb' 32 32) else if n = d then some (v.extractLsb' 0 32) else none }
/-- Bits of a predicate in the active lanes; k0 takes nothing (R20, R135, R156). -/
def prdWrites (d : Nat) (act : Mask) (p : Nat → Bool) : Writes :=
  { noWrites with k := fun n t => if n = d ∧ n ≠ 0 ∧ laneIn act t then some (p t) else none }

/-- A warp after an instruction that writes `x` and completes: every other register, CSR, flag, counter and mode of the
warp is the same, but for where its sub-groups stand and its counter of instructions (R305). -/
structure Warp.Wrote (w w' : Warp) (x : Writes) : Prop where
  rest : w' = { w with vregs := w'.vregs, sregs := w'.sregs, tokens := w'.tokens, preds := w'.preds,
                       subs := w'.subs, active := w'.active, runs := w'.runs, perf := w'.perf }
  vec : ∀ n t, t < 32 → w'.readV n t = (x.v n t).getD (w.readV n t)
  sca : ∀ n, w'.readS n = (x.s n).getD (w.readS n)
  tok : ∀ n, tfind w'.tokens n = if (x.s n).isSome then none else tfind w.tokens n
  prd : ∀ n t, t < 32 → laneIn (w'.readK n) t = (x.k n t).getD (laneIn (w.readK n) t)
  cnt : ∀ n, tget 0 w'.perf n = tget 0 w.perf n + (if n = 1 then 1 else 0)

/-- The state in which an instruction writes its results: a push is a release at `.grp`, before which the reduction entries of
the issuer's core that are recorded at most that wide merge (R70, R72, R251). -/
def Rdy.released (r : Rdy) (s : State) (push : Option (Nat × Word)) : State := if push.isSome then s.mergeRelease r.i.g.core 2 else s
/-- `t` is `s` after the instruction of `r` has completed, writing the registers of `x` and the queue value `push`: but for the
merges that a push makes, memory, every device register, every grid, job, fault and table of the package is the same; every
other group and warp is the same, and of the issuer's group only its queue registers may differ (R120, R156). -/
structure Rdy.Completed (r : Rdy) (s t : State) (x : Writes) (push : Option (Nat × Word)) : Prop where
  rest : t = { r.released s push with groups := t.groups, quads := t.quads, nextId := t.nextId }
  others : OtherGroups r.i.g.id s t
  own : ∃ g g' w w', s.group? r.i.g.id = some g ∧ t.group? r.i.g.id = some g'
    ∧ g' = { g with warps := g'.warps, queues := g'.queues } ∧ OtherWarps r.i.w.idx g g' ∧ r.Queues push g g'
    ∧ g.warp? r.i.w.idx = some w ∧ g'.warp? r.i.w.idx = some w' ∧ w.Wrote w' x

/-- Writes of a vector form. -/
def Rdy.vecDone (r : Rdy) (s t : State) (d : Nat) (wide : Bool) (f : Nat → DWord) : Prop :=
  r.Completed s t (vecWrites d wide r.act f) none
/-- Writes of a scalar form: a register where a lane is active, or a queue, which receives lane 0's value or 0 (R136, R153). -/
def Rdy.scaDone (r : Rdy) (s t : State) (d : Nat) (wide : Bool) (v : DWord) : Prop :=
  if 64 ≤ d ∧ wide = false then r.Completed s t noWrites (some (d - 80, if laneIn r.act 0 then v.extractLsb' 0 32 else 0))
  else r.Completed s t (if r.act = 0 then noWrites else scaWrites d wide v) none

/-! ## Where lanes go (R11, R172) -/

/-- Where a lane stands after its sub-group left the clause: the next PC, the clause that holds it where it is no header,
and what the sub-group does there. -/
structure Dest where
  pc : DWord
  mid : Option DWord
  st : SubState
deriving DecidableEq, Repr

/-- The lanes of the issuing sub-group have left their clause, each to its destination, and the warp's other sub-groups
stand where they stood. Lanes with the same destination form one sub-group (R11). -/
structure Rdy.Left (r : Rdy) (w w' : Warp) (go : Nat → Dest) : Prop where
  lanes : ∀ l, laneIn r.i.u.lanes l = true →
    ∃ v ∈ w'.subs, laneIn v.lanes l = true ∧ v.pc = (go l).pc ∧ v.mid = (go l).mid ∧ v.st = (go l).st ∧ v.run = none ∧ v.pend = none
  stay : ∀ v ∈ w.subs, v.id ≠ r.i.u.id → v ∈ w'.subs

/-! ## Results of the arithmetic forms (R87, R156, R158) -/

/-- A vector form computes: where its checks pass it completes, and the value it writes in each active lane stands in the
relation `val` to the operands of that lane. -/
def VecComputes (ins : Rk → Instr) (wide : Rk → Bool) (val : Rk → DWord → DWord → DWord → DWord → Prop) : Prop :=
  ∀ (s : State) (f : Rk), s.clears (ins f) = true → s.Completes (ins f) (fun s1 r t =>
    ∃ v : Nat → DWord, r.vecDone s1 t f.dn (wide f) v ∧ ∀ l, laneIn r.act l = true → val f (r.a l) (r.b l) (r.c l) (v l))
/-- A scalar form computes: the same once, on its uniform operands, read in the lowest active lane (R153). -/
def ScaComputes (ins : Rk → Instr) (wide : Rk → Bool) (val : Rk → DWord → DWord → DWord → DWord → Prop) : Prop :=
  ∀ (s : State) (f : Rk), s.clears (ins f) = true → s.Completes (ins f) (fun s1 r t =>
    ∃ v : DWord, r.scaDone s1 t f.dn (wide f) v ∧ (r.act ≠ 0 → val f (r.a r.low) (r.b r.low) (r.c r.low) v))
/-- A vector form and its scalar partner. -/
def BothCompute (ins insS : Rk → Instr) (val : Rk → DWord → DWord → DWord → DWord → Prop) : Prop :=
  VecComputes ins (fun f => f.ty.is64) val ∧ ScaComputes insS (fun f => f.ty.is64) val

/-- Element e of a value of an integer type, exact (R87). -/
def eltInt (t : Ty) (v : DWord) (e : Nat) : Int :=
  if tySigned t then (v.extractLsb' ((tyElems t).1 * e) (tyElems t).1).toInt
  else ((v.extractLsb' ((tyElems t).1 * e) (tyElems t).1).toNat : Int)
/-- Each element of a value is an exact integer wrapped, or saturated to the range of its type (R158, R159). -/
def EltsAre (t : Ty) (sat : Bool) (x : Nat → Int) (v : DWord) : Prop :=
  ∀ e, e < (tyElems t).2 → v.extractLsb' ((tyElems t).1 * e) (tyElems t).1
    = BitVec.ofInt (tyElems t).1 (if sat then
        max (if tySigned t then -(2 : Int) ^ ((tyElems t).1 - 1) else 0)
          (min ((if tySigned t then (2 : Int) ^ ((tyElems t).1 - 1) else (2 : Int) ^ (tyElems t).1) - 1) (x e))
      else x e)
/-- `.sat` of the integer forms (R157). -/
def Rk.satOn (f : Rk) : Bool := f.m6 == 1
/-- An element-wise integer operation. -/
def EltWise (sat : Rk → Bool) (op : Int → Int → Int → Int) (f : Rk) (a b c v : DWord) : Prop :=
  EltsAre f.ty (sat f) (fun e => op (eltInt f.ty a e) (eltInt f.ty b e) (eltInt f.ty c e)) v
/-- An operation on the low 32 bits. -/
def On32 (op : Word → Word → Word → Word) (_ : Rk) (a b c v : DWord) : Prop :=
  v.extractLsb' 0 32 = op (a.extractLsb' 0 32) (b.extractLsb' 0 32) (c.extractLsb' 0 32)
/-- A shift of each element by bits [7:0] of the other operand's element (R164). -/
def Shifts (op : (w : Nat) → BitVec w → Nat → BitVec w) (f : Rk) (a b _c v : DWord) : Prop :=
  ∀ e, e < (tyElems f.ty).2 → v.extractLsb' ((tyElems f.ty).1 * e) (tyElems f.ty).1
    = op (tyElems f.ty).1 (a.extractLsb' ((tyElems f.ty).1 * e) (tyElems f.ty).1)
        ((b.extractLsb' ((tyElems f.ty).1 * e) (tyElems f.ty).1).toNat % 256)
/-- A copy of an operand, of 32 or 64 bits by the type (R171). -/
def Copies (f : Rk) (x v : DWord) : Prop := if f.ty.is64 then v = x else v.extractLsb' 0 32 = x.extractLsb' 0 32

/-- A form that writes one predicate computes the bit of each active lane (R156). -/
def PrdComputes (ins : Rk → Instr) (bit : Rk → DWord → DWord → Nat → Bool → Prop) : Prop :=
  ∀ (s : State) (f : Rk), s.clears (ins f) = true → s.Completes (ins f) (fun s1 r t =>
    ∃ p : Nat → Bool, r.Completed s1 t (prdWrites f.dn r.act p) none ∧ ∀ l, laneIn r.act l = true → bit f (r.a l) (r.b l) l (p l))
/-- The same with the lane's bit read from the whole of the operands. -/
def PrdComputesWith (ins : Rk → Instr) (bit : Rk → Rdy → Nat → Bool → Prop) : Prop :=
  ∀ (s : State) (f : Rk), s.clears (ins f) = true → s.Completes (ins f) (fun s1 r t =>
    ∃ p : Nat → Bool, r.Completed s1 t (prdWrites f.dn r.act p) none ∧ ∀ l, laneIn r.act l = true → bit f r l (p l))
/-- A vector form whose 32-bit value in a lane is computed from the operands of every lane (R185). -/
def VecComputesWith (ins : Rk → Instr) (val : Rk → Rdy → Nat → Word → Prop) : Prop :=
  ∀ (s : State) (f : Rk), s.clears (ins f) = true → s.Completes (ins f) (fun s1 r t =>
    ∃ v : Nat → DWord, r.vecDone s1 t f.dn false v ∧ ∀ l, laneIn r.act l = true → val f r l ((v l).extractLsb' 0 32))
/-- All 32 bits of a predicate register; k0 takes nothing. -/
def prdAll (d : Nat) (m : Mask) : Writes := { noWrites with k := fun n t => if n = d ∧ n ≠ 0 then some (laneIn m t) else none }

/-- The instruction raises a trap before it, with no effect of its own (R8, R310). -/
def Rdy.Traps (r : Rdy) (s1 t : State) (cause : Nat) (lanes : Mask) (val : Nat) : Prop := t = r.i.fault s1 cause r.word lanes val
/-- The instruction is outstanding for the flag its ATT field names, with every effect made (R127). -/
def Rdy.Long (r : Rdy) (s1 : State) (att : Nat) : State := r.i.outst s1 att .free

/-! ## Results of the floating forms (R97, R98, R112, R191) -/

/-- What a scalar destination takes: a register, where a lane is active, or a queue (R136, R153). -/
def Rdy.scaX (r : Rdy) (d : Nat) (wide : Bool) (v : DWord) : Writes :=
  if (64 ≤ d ∧ wide = false) ∨ r.act = 0 then noWrites else scaWrites d wide v
def Rdy.scaP (r : Rdy) (d : Nat) (wide : Bool) (v : DWord) : Option (Nat × Word) :=
  if 64 ≤ d ∧ wide = false then some (d - 80, if laneIn r.act 0 then v.extractLsb' 0 32 else 0) else none

/-- The state with exceptions OR-ed into the warp's `fpflags` (R97) and results counted for the root launch (R112). -/
def Rdy.flagged (r : Rdy) (s1 : State) (fl : Nat) (cnt : List Count) : State :=
  (r.i.upd s1 (fun (w : Warp) => { w with fpflags := w.fpflags ||| BitVec.ofNat 32 fl })).tally (s1.rootOfGroup r.i.g) cnt
/-- A floating instruction ends (R97, R98): with the exceptions of each lane in `fl`, of which none is enabled in bits
[12:8] of `fpmode`, it completes; else its results stand and FPX is taken after it, with the lanes and the exceptions that
were enabled. -/
def Rdy.fpEnds (r : Rdy) (s1 t : State) (x : Writes) (push : Option (Nat × Word)) (fl : List (Nat × Nat)) (cnt : List Count) : Prop :=
  let all := fl.foldl (fun a e => a ||| e.2) 0
  let on (n : Nat) : Nat := n &&& (r.i.w.fpmode.extractLsb' 8 5).toNat
  let hit := fl.filter (fun e => on e.2 != 0)
  let s1 := r.released s1 push
  (hit = [] → r.Completed (r.flagged s1 all cnt) t x push)
  ∧ (hit ≠ [] → ∃ (s2 : State) (i : Iss), s2.issuer? = some i ∧ i.g.id = r.i.g.id ∧ i.w.idx = r.i.w.idx ∧ i.u.id = r.i.u.id
      ∧ i.u.pc = r.i.u.pc ∧ i.w.fpflags = r.i.w.fpflags ||| BitVec.ofNat 32 all
      ∧ (∀ n l, l < 32 → i.w.readV n l = (x.v n l).getD (r.i.w.readV n l))
      ∧ (∀ n, i.w.readS n = (x.s n).getD (r.i.w.readS n))
      ∧ (∀ n l, l < 32 → laneIn (i.w.readK n) l = (x.k n l).getD (laneIn (r.i.w.readK n) l))
      ∧ s2.mem = (r.flagged s1 all cnt).mem
      ∧ ∃ m : Mask, (∀ l, l < 32 → laneIn m l = hit.any (fun e => e.1 == l))
        ∧ t = i.trapAfter s2 0x09 r.word m (on (hit.foldl (fun a e => a ||| e.2) 0)))

/-- Sign of a magnitude. -/
def signed (n : Bool) (x : Int) : Int := if n then -x else x
/-- m · 2^e in units of 2^u, for u at most e. -/
def scaled (n : Bool) (m : Nat) (e u : Int) : Int := signed n (m * (2 : Int) ^ (e - u).toNat)
/-- Element e of a floating operand. -/
def fpElt (t : Ty) (v : DWord) (e : Nat) : Nat := (v.extractLsb' ((tyFmt t).width * e) (tyFmt t).width).toNat
/-- Elements of a floating type. -/
def fpCount (t : Ty) : Nat := (tyElems t).2
/-- The result of an operation on element e of three operands, rounded in the form's mode and flushed by its group's bit
(R191). -/
def fpAt (op : Fmt → Env → Nat → Nat → Nat → Res) (f : Rk) (mode : Word) (a b c : DWord) (e : Nat) : Res :=
  op (tyFmt f.ty) (envOf (tyFmt f.ty) mode (Rm.ofRnd (f.m6 % 8) mode) false) (fpElt f.ty a e) (fpElt f.ty b e) (fpElt f.ty c e)
/-- Exceptions of a lane: the OR of its elements' (R191). -/
def fpFl (t : Ty) (x : Nat → Res) : Nat := (List.range (fpCount t)).foldl (fun a e => a ||| (x e).fl) 0
/-- The counts of a lane's results, by the first k operands (R111). -/
def fpCnt (k : Nat) (t : Ty) (a b c : DWord) (x : Nat → Res) : List Count :=
  (List.range (fpCount t)).map (fun e => countOf (tyFmt t) (tyFmt t) ([fpElt t a e, fpElt t b e, fpElt t c e].take k) (x e))
/-- A 32-bit result holds the results of its elements. -/
def FpPacked (t : Ty) (x : Nat → Res) (v : Word) : Prop :=
  ∀ e, e < fpCount t → v.extractLsb' ((tyFmt t).width * e) (tyFmt t).width = BitVec.ofNat (tyFmt t).width (x e).bits

/-- Order of two magnitudes m · 2^e: the sign of their difference. -/
def dyCmp (m1 : Nat) (e1 : Int) (m2 : Nat) (e2 : Int) : Int := scaled false m1 e1 (min e1 e2) - scaled false m2 e2 (min e1 e2)
/-- Significand and exponent of the magnitude whose encoding is c, over an unbounded exponent range (R90, R92). -/
def Fmt.mag (f : Fmt) (c : Nat) : Nat × Int :=
  if c / 2 ^ f.mb = 0 then (c, 1 - (f.bias : Int) - f.mb)
  else (2 ^ f.mb + c % 2 ^ f.mb, (c / 2 ^ f.mb : Nat) - (f.bias : Int) - f.mb)
/-- A magnitude x of sign `neg`, of which `ord` m e is the order of m · 2^e and x, lies in [d, d + 1) · 2^k and rounds up (R92). -/
def goesUp (rm : Rm) (neg : Bool) (ord : Nat → Int → Int) (d : Nat) (k : Int) : Prop :=
  match rm with
  | .rne => ord (2 * d + 1) (k - 1) < 0 ∨ (ord (2 * d + 1) (k - 1) = 0 ∧ d % 2 = 1)
  | .rtz => False
  | .rdn => neg = true ∧ ord d k ≠ 0
  | .rup => neg = false ∧ ord d k ≠ 0
/-- The value rounded to an unbounded exponent range lies below the smallest normal (R96). -/
def Fmt.Tiny (f : Fmt) (rm : Rm) (neg : Bool) (ord : Nat → Int → Int) : Prop :=
  ∃ (d : Nat) (k : Int) (up : Bool), 2 ^ f.mb ≤ d ∧ d < 2 ^ (f.mb + 1) ∧ ord d k ≤ 0 ∧ 0 < ord (d + 1) k
    ∧ (up = true ↔ goesUp rm neg ord d k) ∧ dyCmp (if up then d + 1 else d) k 1 (1 - (f.bias : Int)) < 0
/-- Largest magnitude, and what overflow to infinity gives for each sign (R90, R91, R92). -/
def Fmt.limits (f : Fmt) : Nat × Nat × Nat :=
  if f = fmtF32 then (0x7F7FFFFF, 0x7F800000, 0xFF800000) else if f = fmtF16 then (0x7BFF, 0x7C00, 0xFC00)
  else if f = fmtBf16 then (0x7F7F, 0x7F80, 0xFF80) else if f = fmtE4m3 then (0x7E, 0x7F, 0x7F)
  else if f = fmtE5m2 then (0x7B, 0x7C, 0xFC) else (7, 7, 15)
/-- A result of R92, R93 and R96: a nonzero magnitude rounded in a direction, flushed where it is tiny, or overflowed. -/
def Fmt.Rounded (f : Fmt) (rm : Rm) (fz sat neg : Bool) (ord : Nat → Int → Int) (r : Res) : Prop :=
  let sign : Nat := if neg then 2 ^ (f.eb + f.mb) else 0
  let lim := f.limits
  ∃ (c : Nat) (up tiny : Bool), ord (f.mag c).1 (f.mag c).2 ≤ 0 ∧ 0 < ord ((f.mag c).1 + 1) (f.mag c).2
    ∧ (up = true ↔ goesUp rm neg ord (f.mag c).1 (f.mag c).2) ∧ (tiny = true ↔ f.Tiny rm neg ord)
    ∧ let n := if up then c + 1 else c
      r = if fz && tiny then ⟨sign, 3⟩
        else if lim.1 < n then
          ⟨if sat || rm == .rtz || (rm == .rdn && !neg) || (rm == .rup && neg) then lim.1 + sign else if neg then lim.2.2 else lim.2.1, 5⟩
        else ⟨n + sign, if ord (f.mag c).1 (f.mag c).2 = 0 then 0 else if tiny then 3 else 1⟩
/-- The formats of R90. -/
def sixFormats : List Fmt := [fmtF32, fmtF16, fmtBf16, fmtE4m3, fmtE5m2, fmtE2m1]

/-- A vector floating form of k floating sources computes an element operation (R191); `long` ones are outstanding. -/
def FpVec (ins : Rk → Instr) (k : Nat) (long : Bool) (op : Rk → Fmt → Env → Nat → Nat → Nat → Res) : Prop :=
  ∀ (s : State) (f : Rk), s.clears (ins f) = true → s.Completes (ins f) (fun s1 r t =>
    let x (l : Nat) : Nat → Res := fpAt (op f) f r.i.w.fpmode (r.a l) (r.b l) (r.c l)
    ∃ v : Nat → DWord, (∀ l, laneIn r.act l = true → FpPacked f.ty (x l) ((v l).extractLsb' 0 32))
      ∧ r.fpEnds (if long then r.Long s1 r.e.att else s1) t (vecWrites f.dn false r.act v) none
          ((lanesOf r.act).map (fun l => (l, fpFl f.ty (x l)))) ((lanesOf r.act).flatMap (fun l => fpCnt k f.ty (r.a l) (r.b l) (r.c l) (x l))))
/-- A scalar floating form: once, on uniform operands, raising as lane 0 (R153). -/
def FpSca (ins : Rk → Instr) (k : Nat) (op : Rk → Fmt → Env → Nat → Nat → Nat → Res) : Prop :=
  ∀ (s : State) (f : Rk), s.clears (ins f) = true → s.Completes (ins f) (fun s1 r t =>
    let x : Nat → Res := fpAt (op f) f r.i.w.fpmode (r.a r.low) (r.b r.low) (r.c r.low)
    ∃ v : DWord, FpPacked f.ty x (v.extractLsb' 0 32)
      ∧ r.fpEnds s1 t (r.scaX f.dn false v) (r.scaP f.dn false v) (if r.act = 0 then [] else [(0, fpFl f.ty x)])
          (if r.act = 0 then [] else fpCnt k f.ty (r.a r.low) (r.b r.low) (r.c r.low) x))

/-- No floating exception traps in the issuing warp: bits [12:8] of `fpmode` are 0 (R94, R98). -/
def State.untrapped (s : State) : Prop := ∀ i, s.issuer? = some i → i.w.fpmode.extractLsb' 8 5 = 0
/-- A form with no exception enabled completes: exceptions and counts are recorded, and it writes what `dst` admits. -/
def FpCompletes (ins : Rk → Instr) (long : Bool) (dst : Rk → Rdy → Writes → Option (Nat × Word) → Prop) : Prop :=
  ∀ (s : State) (f : Rk), s.clears (ins f) = true → s.untrapped → s.Completes (ins f) (fun s1 r t =>
    ∃ x push fl cnt, dst f r x push ∧ r.Completed (r.flagged (r.released (if long then r.Long s1 r.e.att else s1) push) fl cnt) t x push)
/-- What a vector form, and its scalar partner, of k floating sources write: the packed results of each element. -/
def packsVec (op : Rk → Fmt → Env → Nat → Nat → Nat → Res) (f : Rk) (r : Rdy) (x : Writes) (push : Option (Nat × Word)) : Prop :=
  push = none ∧ ∃ v : Nat → DWord, x = vecWrites f.dn false r.act v
    ∧ ∀ l, laneIn r.act l = true → FpPacked f.ty (fpAt (op f) f r.i.w.fpmode (r.a l) (r.b l) (r.c l)) ((v l).extractLsb' 0 32)
def packsSca (op : Rk → Fmt → Env → Nat → Nat → Nat → Res) (f : Rk) (r : Rdy) (x : Writes) (push : Option (Nat × Word)) : Prop :=
  ∃ v : DWord, x = r.scaX f.dn false v ∧ push = r.scaP f.dn false v
    ∧ FpPacked f.ty (fpAt (op f) f r.i.w.fpmode (r.a r.low) (r.b r.low) (r.c r.low)) (v.extractLsb' 0 32)
/-- A form writes one register, or an even pair where `wide` says so. -/
def toVec (wide : Rk → Bool) (f : Rk) (r : Rdy) (x : Writes) (push : Option (Nat × Word)) : Prop :=
  push = none ∧ ∃ v : Nat → DWord, x = vecWrites f.dn (wide f) r.act v
def toSca (wide : Rk → Bool) (f : Rk) (r : Rdy) (x : Writes) (push : Option (Nat × Word)) : Prop :=
  ∃ v : DWord, x = r.scaX f.dn (wide f) v ∧ push = r.scaP f.dn (wide f) v

/-- One combining step of LFOLD or SCAN on integers (R188). -/
def FoldInt (f : Rk) (x y z : DWord) : Prop :=
  match f.m6 % 8 with
  | 0 => EltWise (fun _ => false) (fun a b _ => a + b) f x y 0 z
  | 1 => EltWise (fun _ => false) (fun a b _ => min a b) f x y 0 z
  | 2 => EltWise (fun _ => false) (fun a b _ => max a b) f x y 0 z
  | 3 => z.extractLsb' 0 (tyElems f.ty).1 = (x &&& y).extractLsb' 0 (tyElems f.ty).1
  | 4 => z.extractLsb' 0 (tyElems f.ty).1 = (x ||| y).extractLsb' 0 (tyElems f.ty).1
  | _ => z.extractLsb' 0 (tyElems f.ty).1 = (x ^^^ y).extractLsb' 0 (tyElems f.ty).1
/-- One step on f32: an FADD, FMIN or FMAX step under the captured `fpmode` (R188). -/
def foldF32 (f : Rk) (mode : Word) (x y : DWord) : Res :=
  let v := envOf fmtF32 mode (Rm.ofFpmode mode) false
  if f.m6 % 8 = 0 then fpAdd fmtF32 v (x.extractLsb' 0 32).toNat (y.extractLsb' 0 32).toNat
  else fpMinMax fmtF32 v (f.m6 % 8 == 2) false (x.extractLsb' 0 32).toNat (y.extractLsb' 0 32).toNat
/-- Lane l is the lowest active lane. -/
def Rdy.first (r : Rdy) (l : Nat) : Prop := laneIn r.act l = true ∧ ∀ k, k < l → laneIn r.act k = false
/-- Lane l' is the next active lane after l. -/
def Rdy.after (r : Rdy) (l l' : Nat) : Prop :=
  laneIn r.act l = true ∧ laneIn r.act l' = true ∧ l < l' ∧ ∀ k, l < k → k < l' → laneIn r.act k = false
/-- Running values of a combination of the active lanes in ascending order, the first unrounded, with the exceptions and
counts of each lane's step (R188). -/
structure Rdy.Folded (r : Rdy) (f : Rk) (acc : Nat → DWord) (fl : Nat → Nat) (cnt : Nat → List Count) : Prop where
  start : ∀ l, r.first l → acc l = r.a l ∧ fl l = 0 ∧ cnt l = []
  int : f.ty ≠ .f32 → ∀ l l', r.after l l' → FoldInt f (acc l) (r.a l') (acc l') ∧ fl l' = 0 ∧ cnt l' = []
  fp : f.ty = .f32 → ∀ l l', r.after l l' →
    let x := foldF32 f r.i.w.fpmode (acc l) (r.a l')
    (acc l').extractLsb' 0 32 = BitVec.ofNat 32 x.bits ∧ fl l' = x.fl
      ∧ cnt l' = [countOf fmtF32 fmtF32 [((acc l).extractLsb' 0 32).toNat, ((r.a l').extractLsb' 0 32).toNat] x]
/-- Identity of an operation (R188). -/
def foldId (f : Rk) : DWord :=
  match f.m6 % 8, f.ty with
  | 1, .f32 => 0x7F800000
  | 2, .f32 => 0xFF800000
  | 1, .i32 => 0x7FFFFFFF
  | 1, .i64 => 0x7FFFFFFFFFFFFFFF
  | 1, .n32 => 0xFFFFFFFF
  | 1, .n64 => 0xFFFFFFFFFFFFFFFF
  | 2, .i32 => 0x80000000
  | 2, .i64 => 0x8000000000000000
  | 3, .i32 => 0xFFFFFFFF
  | 3, .n32 => 0xFFFFFFFF
  | 3, .i64 => 0xFFFFFFFFFFFFFFFF
  | 3, .n64 => 0xFFFFFFFFFFFFFFFF
  | _, _ => 0

/-- Value of two ordered numbers compared: −1, 0 or 1; infinities lie outside (R194, R198). -/
def fpOrder (x y : Fp) : Option Int :=
  match x, y with
  | .nan _, _ => none
  | _, .nan _ => none
  | .inf a, .inf b => some (if a = b then 0 else if a then -1 else 1)
  | .inf a, .fin _ _ _ => some (if a then -1 else 1)
  | .fin _ _ _, .inf b => some (if b then 1 else -1)
  | .fin n1 m1 e1, .fin n2 m2 e2 =>
    let d := scaled n1 m1 e1 (min e1 e2) - scaled n2 m2 e2 (min e1 e2)
    some (if d < 0 then -1 else if d = 0 then 0 else 1)
/-- Relation 0 to 5 of FCMP on an order (R198). -/
def relHolds (c : Nat) (o : Int) : Prop :=
  match c with
  | 0 => o = 0
  | 1 => o ≠ 0
  | 2 => o < 0
  | 3 => o ≤ 0
  | 4 => o > 0
  | _ => o ≥ 0
/-- A warp's scalar registers from d on take the scale and planes of a packed block (R213). -/
def planeWrites (d n : Nat) (scale : Int) (code : Nat → Int) (x : Nat → Option Word) : Prop :=
  x d = some (BitVec.ofInt 32 scale)
  ∧ (∀ p, p < n → ∃ w : Word, x (d + 1 + p) = some w ∧ ∀ l, l < 32 → w.getLsbD l = (BitVec.ofInt n (code l)).getLsbD (n - 1 - p))
  ∧ (∀ k, k < d ∨ d + n < k → x k = none)

/-- The instruction completes and its lanes leave the clause, each to its destination (R172). -/
def Rdy.Leaves (r : Rdy) (s t : State) (x : Writes) (go : Nat → Dest) : Prop :=
  r.Completed s t x none
    ∧ ∀ w w', s.warp? r.i.g.id r.i.w.idx = some w → t.warp? r.i.g.id r.i.w.idx = some w' → r.Left w w' go
/-- Where a lane that falls through stands: after the clause, or at the start of a loop whose body ends there (R142). -/
def Rdy.fall (r : Rdy) : Dest := ⟨(loopTest r.i.u.loop r.i.succ).1, none, .ready⟩
/-- Active lanes go one way, the others fall through. -/
def Rdy.split (r : Rdy) (go : Nat → Dest) (l : Nat) : Dest := if laneIn r.act l then go l else r.fall
/-- An address no clause can stand at: misaligned, or outside the global aperture, with the cause each raises (R174). -/
def badAddr (a : DWord) : Option Nat :=
  if a.extractLsb' 0 3 ≠ 0 then some 0x04 else if a.extractLsb' 56 8 ≠ 0 then some 0x05 else none
/-- A stack slot outside the private area, with the cause it raises; every lane's alignment is checked first (R175). -/
def StackBad (s : State) (r : Rdy) (sp : Nat → Word) (cause l : Nat) : Prop :=
  (cause = 0x04 ∧ laneIn r.act l = true ∧ (sp l).toNat % 8 ≠ 0 ∧ ∀ k, k < l → laneIn r.act k = true → (sp k).toNat % 8 = 0)
  ∨ (cause = 0x16 ∧ laneIn r.act l = true ∧ (∀ k, laneIn r.act k = true → (sp k).toNat % 8 = 0)
      ∧ privSize (s.pktOf r.i.g) < (sp l).toNat + 8 ∧ ∀ k, k < l → laneIn r.act k = true → (sp k).toNat + 8 ≤ privSize (s.pktOf r.i.g))
/-- Every active lane's slot lies in the private area, aligned. -/
def StackOk (s : State) (r : Rdy) (sp : Nat → Word) : Prop :=
  ∀ l, laneIn r.act l = true → (sp l).toNat % 8 = 0 ∧ (sp l).toNat + 8 ≤ privSize (s.pktOf r.i.g)

/-! ## Accesses to memory (R46 to R52, R215 to R219) -/

/-- The byte at a place: of memory, of a group's scratchpad or lent memory, or of a thread's private area. -/
def State.byteAt (s : State) : Place → Byte
  | .phys pa _ => tget 0 s.mem pa
  | .scr gid off => match s.group? gid with
    | some g => tget 0 g.scratch off
    | none => 0
  | .ext gid off => match s.group? gid with
    | some g => tget 0 g.ext off
    | none => 0
  | .priv gid w l off => match s.warp? gid w with
    | some x => tget 0 x.priv (privKey l off)
    | none => 0
/-- The byte k after a place. -/
def Place.plus (k : Nat) : Place → Place
  | .phys pa _ => .phys (pa + k) false
  | .scr gid off => .scr gid (off + k)
  | .ext gid off => .ext gid (off + k)
  | .priv gid w l off => .priv gid w l (off + k)
/-- The bytes of an access, in order. -/
def Ready.places (q : Ready) : List Place := q.parts.flatMap (fun p => (List.range p.2).map (fun k => p.1.plus k))
/-- The value that the bytes of an access hold, lowest address first (R5). -/
def Ready.valueIn (q : Ready) (m : Place → Byte) : Nat := leVal (q.places.map m)

/-- Bytes of memory that an access may change beside those it stores to: page-table entries whose A or D it sets (R374),
words with reductions that merge before it (R70), the telemetry ring (R433), and WAITERS of a fault record (R381). -/
def State.asideBytes (s : State) (l : List Ready) (a : Nat) : Prop :=
  (∃ q ∈ l, ∃ x ∈ q.xs, x.at' ≤ a ∧ a < x.at' + 8)
    ∨ (∃ e ∈ s.redbuf, e.pa / 4 ≤ a / 4 ∧ 4 * (a / 4) < e.pa + atomBytes e.ty)
    ∨ (∃ b, s.canonPa (s.barFld 0x700008 12 52 * 4096) = some b ∧ b ≤ a ∧ a < b + 32 * 2 ^ (s.barFld 0x700008 0 4 + 4))
    ∨ (∃ n b, s.faultAt n = some b ∧ b + 22 ≤ a ∧ a < b + 24)
/-- A place that an access does not change on the side, of a package that a path reaches. -/
def State.steady (s : State) (l : List Ready) : Place → Prop
  | .phys a nc => nc = false ∧ ¬ s.asideBytes l a ∧ s.unreachable a = false
  | _ => True
/-- The core's L1 holds no older copy of the words of an access (R61). -/
def State.noCopies (s : State) (core : Nat) (q : Ready) : Prop :=
  ∀ p ∈ q.parts, ∀ pa nc, p.1 = .phys pa nc → ∀ k ∈ wordsOf pa p.2, thas s.l1 (l1Key core (4 * k)) = false
/-- No byte of an access is poisoned. -/
def State.cleanAt (s : State) (q : Ready) : Prop :=
  ∀ p ∈ q.parts, match p.1 with
    | .phys pa _ => ∀ k ∈ wordsOf pa p.2, poisonedIn s.memPoison (4 * k) 4 = false
    | .scr gid off => ∀ g, s.group? gid = some g → poisonedIn g.scratchPoison off p.2 = false
    | .ext gid off => ∀ g, s.group? gid = some g → poisonedIn g.extPoison off p.2 = false
    | .priv gid w l off => ∀ x, s.warp? gid w = some x → poisonedIn x.privPoison (privKey l off) p.2 = false

/-- An instruction that accessed `l` has completed: it wrote the registers of `x` and the queue value `push`, holds
`locks` locks, and stored to the places of `put`. Every other byte of every storage, every other register, CSR, flag,
counter and mode of its warp, every other warp, job, queue register and device register is as it was, but for what the
memory system does on the side. -/
structure Rdy.Accessed (r : Rdy) (s t : State) (l : List Ready) (x : Writes) (push : Option (Nat × Word)) (locks : Nat)
    (put : Place → Prop) : Prop where
  rest : t = { s with mem := t.mem, memPoison := t.memPoison, bar := t.bar, tlb := t.tlb, walkCache := t.walkCache, l1 := t.l1,
                      owner := t.owner, dir := t.dir, bridge := t.bridge, redbuf := t.redbuf, watches := t.watches,
                      tasks := t.tasks, out := t.out, nextId := t.nextId, errs := t.errs, grids := t.grids, groups := t.groups,
                      faults := t.faults, quads := t.quads, teleq := t.teleq }
  grids : t.grids.map (fun g => { g with counts := [], crossed := [] }) = s.grids.map (fun g => { g with counts := [], crossed := [] })
  bytes : ∀ p, ¬ put p → s.steady l p → t.byteAt p = s.byteAt p
  others : t.groups.length = s.groups.length ∧ ∀ (k : Nat) (g : Group), s.groups[k]? = some g → g.id ≠ r.i.g.id →
    ∃ g', t.groups[k]? = some g' ∧ g' = { g with scratch := g'.scratch, scratchPoison := g'.scratchPoison, pals := g'.pals,
                                                  palOps := g'.palOps }
  own : ∃ g g' w w', s.group? r.i.g.id = some g ∧ t.group? r.i.g.id = some g'
    ∧ g' = { g with warps := g'.warps, queues := g'.queues, scratch := g'.scratch, scratchPoison := g'.scratchPoison,
                    ext := g'.ext, extPoison := g'.extPoison, pals := g'.pals, palOps := g'.palOps }
    ∧ OtherWarps r.i.w.idx g g' ∧ r.Queues push g g' ∧ g.warp? r.i.w.idx = some w ∧ g'.warp? r.i.w.idx = some w'
    ∧ w' = { w with vregs := w'.vregs, sregs := w'.sregs, tokens := w'.tokens, subs := w'.subs, active := w'.active,
                    runs := w'.runs, perf := w'.perf, outst := w'.outst, acq := w'.acq, spec := w'.spec, locks := locks,
                    priv := w'.priv, privPoison := w'.privPoison }
    ∧ (∀ n k, k < 32 → w'.readV n k = (x.v n k).getD (w.readV n k)) ∧ (∀ n, w'.readS n = (x.s n).getD (w.readS n))
    ∧ (∀ n, tfind w'.tokens n = if (x.s n).isSome then none else tfind w.tokens n)
    ∧ (∀ n, n ∉ [1, 5, 6] → tget 0 w'.perf n = tget 0 w.perf n)
/-- A load found poison in the lowest of its lanes (R218 order 8, R225): ECCUE, with no register written. -/
def Rdy.Poisoned (r : Rdy) (s t : State) (i : Iss) (l : List Ready) (m : Mask) (ptr : Nat) : Prop :=
  ∃ s', (∀ p, s.steady l p → s'.byteAt p = s.byteAt p) ∧ t = i.fault s' 0x15 r.word m ptr

/-- Registers d to d + n − 1 take the words of a value in each lane of a set (R220); v255 takes nothing. -/
def runV (d n : Nat) (m : Mask) (f : Nat → Nat) : Writes :=
  { noWrites with v := fun k u => if k ≠ 255 ∧ laneIn m u ∧ d ≤ k ∧ k < d + n then some (wordAt (f u) (k - d)) else none }
/-- Scalar registers d to d + n − 1 take words. -/
def runS (d n : Nat) (f : Nat → Word) : Writes := { noWrites with s := fun k => if d ≤ k ∧ k < d + n then some (f (k - d)) else none }
/-- Places of some accesses. -/
def placesOf (l : List Ready) (p : Place) : Prop := ∃ q ∈ l, p ∈ q.places
/-- Every access reads what stands there: unpoisoned bytes that nothing on the side changes. -/
def State.sound (s : State) (l : List Ready) : Prop := ∀ q ∈ l, s.cleanAt q ∧ ∀ p ∈ q.places, s.steady l p
/-- An instruction made its accesses: its checks ended it (R218), or it goes on with those that remain. -/
def Rdy.accesses (r : Rdy) (s t : State) (att : Nat) (md : Mode) (reqs : List Req) (k : Iss → List Ready → Prop) : Prop :=
  match r.i.access s r.word att r.act md reqs with
  | .stop s' => t = s'
  | .go _ i l => k i l

/-- An access that needs no walk: in a storage of the core, or within one page of global memory that a TLB holds with its
A, and D for a write, set (R374, R378). -/
def Hit (s : State) (i : Iss) (w : Want) (q : Req) (o : Ready) : Prop :=
  (∃ p, s.locate i.g i.w.idx q.lane q.ptr q.size = .place p ∧ o = ⟨q, [(p, q.size)], []⟩)
  ∨ (s.locate i.g i.w.idx q.lane q.ptr q.size = .global ∧ 0 < q.size ∧ q.ptr % 4096 + q.size ≤ 4096
    ∧ ∃ e x, s.tlb.find? (fun e => e.covers (i.mmu s) q.ptr) = some e
      ∧ s.leafCheck (i.mmu s) w q.ptr e.leaf e.level e.pteAt = .ok x ∧ staleAd e.leaf w.wr = false
      ∧ o = ⟨q, [(.phys x.pa (pteNc e.leaf), q.size)], [x]⟩)
/-- An access to such a page that its checks refuse (R375). -/
def Refused (s : State) (i : Iss) (w : Want) (q : Req) : Prop :=
  s.locate i.g i.w.idx q.lane q.ptr q.size = .global ∧ 0 < q.size ∧ q.ptr % 4096 + q.size ≤ 4096
    ∧ ∃ e, s.tlb.find? (fun e => e.covers (i.mmu s) q.ptr) = some e
      ∧ s.leafCheck (i.mmu s) w q.ptr e.leaf e.level e.pteAt = .prot

/-- The record at an address is read without a walk, a fault, poison or an older copy. -/
def Rdy.Reads (r : Rdy) (s : State) (w : Want) (ptr n : Nat) (q : Ready) : Prop :=
  Hit s r.i w ⟨r.low, ptr, n⟩ q ∧ s.sound [q] ∧ s.noCopies r.i.g.core q ∧ s.overPriv r.i.g ⟨r.low, ptr, n⟩ = false
    ∧ ∀ p ∈ q.parts, s.inFlip p = none
/-- A job enters the core's port, and its token register waits for it (R74, R235, R293); the instruction completes. -/
def Rdy.IssuesJob (r : Rdy) (s t : State) (l : List Ready) (engine d att : Nat) (card : BitVec 2048) : Prop :=
  ∃ j : Job, t.jobs = s.jobs ++ [j] ∧ j.st = .queued ∧ j.engine = engine ∧ j.card = card ∧ j.gid = r.i.g.id ∧ j.warp = r.i.w.idx
    ∧ j.lane = r.low ∧ j.tok = d ∧ j.pkr = r.i.w.pkr ∧ j.ctx = s.ctxOf r.i.g ∧ j.die = dieOf r.i.g.core
    ∧ (∃ w', t.warp? r.i.g.id r.i.w.idx = some w' ∧ tfind w'.tokens d = some ⟨j.id, false⟩
        ∧ ∃ o ∈ w'.outst, o.kind = .job j.id ∧ o.flag = r.i.flagOf att)
    ∧ r.Accessed s (({ t with jobs := s.jobs }).updWarp r.i.g.id r.i.w.idx (fun (w : Warp) => { w with tokens := r.i.w.tokens })) l
        noWrites none r.i.w.locks (fun _ => False)

/-- One lane's indivisible read and write (R53, R226): what it read, and memory after it. -/
def rmwOn (f : Nat → Nat → Option Nat) (m : Place → Byte) (q : Ready) : Nat × (Place → Byte) :=
  let old := q.valueIn m
  (old, match f q.req.lane old with
    | none => m
    | some v => fun p => if p ∈ q.places then (leBytes q.req.size v).getD (q.places.idxOf p) 0 else m p)
/-- Every lane in ascending order: the old value of each, and memory at the end. -/
def rmwFold (f : Nat → Nat → Option Nat) (m : Place → Byte) : List Ready → List (Nat × Nat) × (Place → Byte)
  | [] => ([], m)
  | q :: r =>
    let x := rmwOn f m q
    let y := rmwFold f x.2 r
    ((q.req.lane, x.1) :: y.1, y.2)

/-! ## Palette forms (R255 to R283) -/

/-- The instruction traps after it has read the accesses of `l`. -/
def Rdy.TrapsIn (r : Rdy) (s t : State) (l : List Ready) (cause val : Nat) : Prop :=
  ∃ s', (∀ p, s.steady l p → s'.byteAt p = s.byteAt p) ∧ t = r.i.fault s' cause r.word r.act val
/-- The shape record at a pointer, which the core holds or which it reads from memory (R265, R267). -/
def Rdy.Record (r : Rdy) (s : State) (ptr : Nat) (sh : BitVec 1536) (l : List Ready) : Prop :=
  match s.shapes.find? (fun (e : ShapeEntry) => e.core == r.i.g.core && e.ctx == s.ctxOf r.i.g && e.addr == ptr) with
  | some e => e.shape = sh ∧ l = []
  | none => ptr + 192 ≤ 2 ^ 56 ∧ ptr % 16 = 0
      ∧ ∃ q, r.Reads s (wantLoad (some r.i.w.pkr)) ptr 192 q ∧ sh = BitVec.ofNat 1536 (q.valueIn s.byteAt) ∧ l = [q]
/-- An instruction that names a record: its pointer is checked where the core does not hold it (R266). -/
def Rdy.OnRecord (r : Rdy) (s t : State) (ptr : Nat) (k : BitVec 1536 → List Ready → Prop) : Prop :=
  let absent : Prop := ∀ e ∈ s.shapes, e.core = r.i.g.core → e.ctx = s.ctxOf r.i.g → e.addr ≠ ptr
  (absent → 2 ^ 56 < ptr + 192 → r.Traps s t 0x05 r.act ptr)
    ∧ (absent → ptr + 192 ≤ 2 ^ 56 → ptr % 16 ≠ 0 → r.Traps s t 0x04 r.act ptr)
    ∧ ∀ sh l, r.Record s ptr sh l → k sh l
/-- Every range of a region lies where its rule admits it, and is reached without a walk, a flip or, to write, a tag. -/
def Rdy.Region (r : Rdy) (s : State) (glob own : Bool) (w : Want) (l : List (Nat × Nat)) (rows : List (List (Place × Nat))) : Prop :=
  ∃ os : List Ready, os.length = l.length ∧ rows = os.map (fun o => o.parts)
    ∧ ∀ (k : Nat) a o, l[k]? = some a → os[k]? = some o → s.regionOk r glob own a.1 a.2 = true ∧ Hit s r.i w ⟨r.low, a.1, a.2⟩ o
        ∧ ∀ p ∈ o.parts, s.inFlip p = none ∧ (w.wr = true → s.tagged p.1 p.2 = false)
/-- Ranges are checked in order: the first that its rule does not admit raises APERTURE with its address (R266). -/
def Rdy.OnRegion (r : Rdy) (s t : State) (l : List Ready) (glob own : Bool) (w : Want) (ranges : List (Nat × Nat))
    (k : List (List (Place × Nat)) → Prop) : Prop :=
  (∀ a x b, ranges = a ++ x :: b → (∀ y ∈ a, s.regionOk r glob own y.1 y.2 = true) → s.regionOk r glob own x.1 x.2 = false →
      r.TrapsIn s t l 0x05 x.1)
    ∧ ∀ rows, r.Region s glob own w ranges rows → k rows
/-- The checks of a record and of its rows, in order (R263, R266). -/
def Rdy.OnRows (r : Rdy) (s t : State) (l : List Ready) (ptr : Nat) (sh : BitVec 1536) (kind : Nat) (fmts : List Nat) (drain : Bool)
    (w : Want) (k : List (List (Place × Nat)) → Prop) : Prop :=
  let why := shapeReason sh kind fmts drain
  (why ≠ 0 → r.TrapsIn s t l 0x12 (why * 2 ^ 24 + ptr % 2 ^ 24))
    ∧ (why = 0 → r.OnRegion s t l (kind == 3) (kind == 1) w ((List.range (shRows sh)).map (fun n => (shRow sh n, shRowBytes sh))) k)
/-- The detected ACCCHK of position j covers a tile of the run (R262). -/
def accOn (w : Warp) (run : List Nat) (j : Nat) : Prop := j < w.acc.length ∧ ∃ n ∈ run, (w.accTiles.getD j 0) / 2 ^ n % 2 = 1
/-- The operation is accepted: it is the last of its group's, and the instruction is outstanding for it (R258, R127). -/
def Rdy.Accepted (r : Rdy) (s t : State) (l : List Ready) (att : Nat) (kind : PalKind) (rows : List (List (Place × Nat))) : Prop :=
  (∃ g' w' o a, t.group? r.i.g.id = some g' ∧ g'.warp? r.i.w.idx = some w' ∧ g'.palOps = a ++ [o]
      ∧ a.map (fun x => x.id) = r.i.g.palOps.map (fun x => x.id)
      ∧ o = { o with warp := r.i.w.idx, lane := r.low, pkr := r.i.w.pkr, kind := kind, rows := rows, dirty := false, copies := [] }
      ∧ s.timer ≤ o.due ∧ ∃ x ∈ w'.outst, x.kind = .palette o.id ∧ x.flag = r.i.flagOf att)
    ∧ r.Accessed s { t with shapes := s.shapes } l noWrites none r.i.w.locks (fun _ => False)
/-- A version that a tile of the run is past: the first such tile and its version (R261). -/
def verPast (g : Group) (run : List Nat) (v : BitVec 16) (x : Nat) : Prop :=
  ∃ a n b, run = a ++ n :: b ∧ (∀ m ∈ a, (v - (g.tile m).ver).toNat < 2 ^ 15) ∧ 2 ^ 15 ≤ (v - (g.tile n).ver).toNat
    ∧ x = n * 2 ^ 16 + (g.tile n).ver.toNat
/-- The operation is accepted, or ACCVER is raised with the first tile that is past its version (R261). -/
def Rdy.Versioned (r : Rdy) (s t : State) (l : List Ready) (att : Nat) (run : List Nat) (v : BitVec 16) (kind : PalKind)
    (rows : List (List (Place × Nat))) : Prop :=
  (∀ x, verPast r.i.g run v x → r.TrapsIn s t l 0x0C x) ∧ ((∀ x, ¬ verPast r.i.g run v x) → r.Accepted s t l att kind rows)

/-! ## Accesses of the queue mapper (R350, R376) -/

/-- The mapper reaches a physical address without a walk or a flip. -/
def MapperHit (s : State) (ctx va n : Nat) (wr : Bool) (pa : Nat) : Prop :=
  va < 2 ^ 56 ∧ s.inFlip (.phys pa false, n) = none ∧ ∃ e x, s.tlb.find? (fun e => e.covers (mapperMmu ctx) va) = some e
    ∧ s.leafCheck (mapperMmu ctx) (if wr then wantStore none else wantLoad none) va e.leaf e.level e.pteAt = .ok x
    ∧ staleAd e.leaf wr = false ∧ x.pa = pa
/-- Translation refuses the mapper's access. -/
def MapperRefused (s : State) (ctx va : Nat) (wr : Bool) : Prop :=
  2 ^ 56 ≤ va ∨ ∃ e, s.tlb.find? (fun e => e.covers (mapperMmu ctx) va) = some e
    ∧ s.leafCheck (mapperMmu ctx) (if wr then wantStore none else wantLoad none) va e.leaf e.level e.pteAt = .prot
/-- n bytes of memory that hold what they hold: reachable, unpoisoned, and changed by nothing on the side. -/
def State.quiet (s : State) (pa n : Nat) : Prop :=
  s.unreachable pa = false ∧ poisonedIn s.memPoison pa n = false ∧ ∀ k, k < n → s.steady [] (.phys (pa + k) false)

/-! ## Commands of the driver (R383) -/

/-- The command at CRD: its 32 bytes. -/
def State.CmdAt (s : State) (v : BitVec 256) : Prop :=
  s.bu.phase ≠ 15 ∧ s.barFld 0x200018 0 32 ≠ s.barFld 0x200018 32 32
    ∧ ∃ pa, s.canonPa (s.barFld 0x200010 12 52 * 4096 + 32 * (s.barFld 0x200018 32 32 % 2 ^ (s.barFld 0x200010 0 4 + 4))) = some pa
        ∧ s.quiet pa 32 ∧ s.flipIn pa 32 = false ∧ v = BitVec.ofNat 256 (s.peekN pa 32)
/-- CRD, CESEQ, CECODE, CEV and CVEC after the command at CRD has completed with a code. -/
def State.CmdOver (s t : State) (code : Nat) : Prop :=
  let n := s.barFld 0x200018 32 32
  t.barFld 0x200018 32 32 = (n + 1) % 2 ^ 32 ∧ t.barFld 0x200018 0 32 = s.barFld 0x200018 0 32
    ∧ (code = 0 → t.barGet 0x200038 = s.barGet 0x200038)
    ∧ (code ≠ 0 → t.barFld 0x200038 0 32 = n ∧ t.barFld 0x200038 32 8 = code ∧ t.barFld 0x200038 40 1 = 1)
    ∧ (s.barFld 0x200030 24 1 = 1 → .msix (s.barFld 0x200030 16 8) ∈ t.out)
/-- The command has completed and has made of s the state s': beside its completion, only copies moved as it was read. -/
def State.CmdEnds (s s' t : State) (code : Nat) : Prop :=
  s.CmdOver t code ∧ t = { s' with bar := t.bar, out := t.out, dir := t.dir, bridge := t.bridge, owner := t.owner }
    ∧ ∀ o, o ≠ 0x200018 → o ≠ 0x200038 → t.barGet o = s'.barGet o
/-- The descriptor of a context lies in memory that the device reaches. -/
def State.ctxStored (s : State) (c : Nat) : Prop :=
  s.canonPa (s.ctxAddr c + 8) = some (s.ctxAddr c + 8) ∧ s.unreachable (s.ctxAddr c + 8) = false
/-- An address lies in n bytes from a, whole pages of a leaf counted in. -/
def blockMeets (a n base k : Nat) : Prop := ∃ x, a ≤ x ∧ x < a + n ∧ base ≤ x ∧ x < base + k
/-- A group with its warps' stops left out. -/
def Group.unstopped (g : Group) : Group := { g with warps := g.warps.map (fun w => { w with stopped := false }) }

/-- Where R389 puts the scratchpad, the scalar and the vector registers and the private memory of the one warp of the one group
of a save area, without held tasks, jobs, cooperative grids or images of palettes. -/
structure SoloArea where
  scratch : Nat
  scalars : Nat
  vectors : Nat
  priv : Nat
def soloArea (p : BitVec 1024) (as av : Nat) : SoloArea :=
  let up (x : Nat) : Nat := (x + 255) / 256 * 256
  let n (lo k : Nat) : Nat := (p.extractLsb' lo k).toNat
  let queues := up (4864 + 8 * n 551 10)
  let pals := up (queues + 144 * n 561 4)
  let tiles := up (pals + 48 * n 544 3)
  let scratch := up (tiles + 73728 * n 547 4)
  let warp := up (scratch + 1032 * n 530 10)
  let scalars := up (warp + 1024 + 2048 + 288)
  let vectors := up (scalars + 4 * as)
  ⟨scratch, scalars, vectors, up (vectors + 128 * av)⟩
/-- An image, or a save, of the one group that `soloArea` is of. -/
def SoloGroup (p : BitVec 1024) (g : Group) (w : Warp) : Prop :=
  g.warps = [w] ∧ w.exited = false ∧ g.ended = false ∧ g.lent = none ∧ (∀ o ∈ g.palOps, o.kind.palUse = none) ∧ p.getLsbD 573 = false

/-! ## Walks (R369 to R375) -/

/-- An entry that R369, R371 or R375 calls malformed at a level. -/
def BadEntry (e : DWord) (level va : Nat) : Prop :=
  let pa := (e.extractLsb' 24 40).toNat * 4096
  if e.getLsbD 1 then level = 3 ∨ e.extractLsb' 2 22 ≠ 0 ∨ pa % 16384 ≠ 0
  else level = 0 ∨ e.getLsbD 23 = true ∨ 8 ≤ (e.extractLsb' 10 4).toNat ∨ e.extractLsb' 8 2 = 3
    ∨ pa % (if level = 3 then 4096 else 2 ^ (45 - 11 * level)) ≠ 0
    ∨ (e.getLsbD 21 = true ∧ (level ≠ 3 ∨ pa / 4096 % 16 ≠ va / 4096 % 16))
/-- A walk from a table over the levels, each entry read in quiet memory of a page that is not being flipped: it ends at a leaf, at an entry with V = 0, or at
a malformed entry. -/
def State.Walks (s : State) (va : Nat) : List Nat → Nat → Walk → Prop
  | [], _, _ => False
  | l :: r, base, out => ∃ pa, s.canonPa (base + 8 * (va / 2 ^ (45 - 11 * l) % 2048)) = some pa ∧ s.quiet pa 8 ∧ s.flipAt pa = none
      ∧ let e : DWord := BitVec.ofNat 64 (s.peekN pa 8)
        (e.getLsbD 0 = false ∧ out = .absent l)
        ∨ (e.getLsbD 0 = true ∧ BadEntry e l va ∧ out = .malformed)
        ∨ (e.getLsbD 0 = true ∧ ¬ BadEntry e l va ∧ e.getLsbD 1 = true ∧ State.Walks s va r ((e.extractLsb' 24 40).toNat * 4096) out)
        ∨ (e.getLsbD 0 = true ∧ ¬ BadEntry e l va ∧ e.getLsbD 1 = false ∧ out = .leaf e.toNat l pa)

/-! ## Accesses of engine jobs (R233, R296) -/

/-- A job reaches n bytes at an address, in one place, without a walk or a flip. -/
def State.JobHit (s : State) (j : Job) (g : Group) (wr : Bool) (p n : Nat) (x : Place) : Prop :=
  s.locate g j.warp j.lane p n = .place x
    ∨ (s.locate g j.warp j.lane p n = .global ∧ 0 < n ∧ p % 4096 + n ≤ 4096 ∧ s.inFlip (x, n) = none
        ∧ ∃ e y, s.tlb.find? (fun e => e.covers j.mmu p) = some e
            ∧ s.leafCheck j.mmu (if wr then wantStore (some j.pkr) else wantLoad (some j.pkr)) p e.leaf e.level e.pteAt = .ok y
            ∧ staleAd e.leaf wr = false ∧ x = .phys y.pa (pteNc y.leaf))
/-- n bytes of a place that hold what they hold: reached, unpoisoned, and changed by nothing on the side. -/
def State.clear (s : State) (x : Place) (n : Nat) : Prop := ∀ k, k < n → s.steady [] (x.plus k) ∧ s.badAt (x.plus k) = false
/-- The value of n bytes of a place. -/
def State.valueAt (s : State) (x : Place) (n : Nat) : Nat := leVal ((List.range n).map (fun k => s.byteAt (x.plus k)))
/-- Only the n bytes of a place have changed: every other steady byte of storage reads as before. -/
def State.OnlyAt (s t : State) (x : Place) (n : Nat) : Prop :=
  ∀ p, s.steady [] p → (∀ k, k < n → p ≠ x.plus k) → t.byteAt p = s.byteAt p

/-! ## What every state must satisfy -/

/-- The state that every step keeps: memory in its one canonical form. -/
def State.Inv (s : State) : Prop := Memory.wf s.mem = true

end Sys2Proof.Machine
end

