-- ==== Sys2Proof/Certificates/Slice0/Obligations.lean ====
section
/-! DEFINITION. The statements of this model, each from numbered rules of the manual. -/
open Sys2Proof Sys2Proof.Machine

/-! ## Integer forms (R156 to R171) -/

/-- R158, R159, R161: the element-wise forms, vector and scalar, give the exact result of each element wrapped, or
saturated under `.sat`, and complete wherever their checks pass. -/
def Obligations.IntegerArithmeticWrapsOrSaturatesEachElement : Prop :=
  BothCompute .iadd .iaddS (EltWise Rk.satOn (fun x y _ => x + y))
    ∧ BothCompute .isub .isubS (EltWise Rk.satOn (fun x y _ => x - y))
    ∧ BothCompute .imul .imulS (EltWise (fun _ => false) (fun x y _ => x * y))
    ∧ BothCompute .imad .imadS (EltWise (fun _ => false) (fun x y z => x * y + z))
    ∧ BothCompute .imin .iminS (EltWise (fun _ => false) (fun x y _ => min x y))
    ∧ BothCompute .imax .imaxS (EltWise (fun _ => false) (fun x y _ => max x y))
    ∧ BothCompute .iabs .iabsS (EltWise Rk.satOn (fun x _ _ => max x (-x)))
    ∧ BothCompute .iadd64 .iadd64S (EltWise Rk.satOn (fun x y _ => x + y))
    ∧ BothCompute .isub64 .isub64S (EltWise Rk.satOn (fun x y _ => x - y))

/-- R158, R160: IMULH gives the high half of the exact product of each element, and IMADW a 64-bit sum of an exact
32-by-32-bit product. R162: IDIV and IREM truncate toward zero and complete, outstanding for their flag, where no active lane's divisor is
zero; else they trap with DIVZERO before any lane is written, naming the lanes with a zero divisor. -/
def Obligations.WideProductsAndDivision : Prop :=
  (BothCompute .imulh .imulhS (fun f a b _ v => EltsAre f.ty false
      (fun e => eltInt f.ty a e * eltInt f.ty b e / (2 : Int) ^ (tyElems f.ty).1) v)
    ∧ VecComputes .imadw (fun _ => true) (fun f a b c v => v = BitVec.ofInt 64 (eltInt f.ty a 0 * eltInt f.ty b 0 + c.toInt)))
  ∧ (∀ (s : State) (f : Rk) (q : Bool),
    let exact (a b : DWord) : Int := if q then (eltInt f.ty a 0).tdiv (eltInt f.ty b 0) else (eltInt f.ty a 0).tmod (eltInt f.ty b 0)
    let zero (r : Rdy) (l : Nat) : Prop := laneIn r.act l = true ∧ eltInt f.ty (r.b l) 0 = 0
    (s.clears (if q then .idiv f else .irem f) = true → s.Completes (if q then .idiv f else .irem f) (fun s1 r t =>
      ((∀ l, ¬ zero r l) → ∃ v : Nat → DWord, r.vecDone (r.Long s1 r.e.att) t f.dn f.ty.is64 v
          ∧ ∀ l, laneIn r.act l = true → EltsAre f.ty false (fun _ => exact (r.a l) (r.b l)) (v l))
      ∧ (∀ (m : Mask) (l0 : Nat), (∀ l, laneIn m l = true ↔ zero r l) → zero r l0 → (∀ l, zero r l → l0 ≤ l) →
          r.Traps s1 t 0x08 m l0)))
    ∧ (s.clears (if q then .idivS f else .iremS f) = true → s.Completes (if q then .idivS f else .iremS f) (fun s1 r t =>
      ((r.act = 0 ∨ eltInt f.ty (r.b r.low) 0 ≠ 0) → ∃ v : DWord, r.scaDone (r.Long s1 r.e.att) t f.dn f.ty.is64 v
          ∧ (r.act ≠ 0 → EltsAre f.ty false (fun _ => exact (r.a r.low) (r.b r.low)) v))
      ∧ (r.act ≠ 0 → eltInt f.ty (r.b r.low) 0 = 0 → r.Traps s1 t 0x08 1 0))))

/-- R163, R171: the logic forms act on 32 bits, MOV copies a register or a pair, and MOVI writes its IMM32. -/
def Obligations.LogicAndMovesActOnWholeRegisters : Prop :=
  BothCompute .and .andS (On32 (fun a b _ => a &&& b))
    ∧ BothCompute .or .orS (On32 (fun a b _ => a ||| b))
    ∧ BothCompute .xor .xorS (On32 (fun a b _ => a ^^^ b))
    ∧ BothCompute .andn .andnS (On32 (fun a b _ => a &&& ~~~b))
    ∧ BothCompute .mov .movS (fun f a _ _ v => Copies f a v)
    ∧ BothCompute .movi .moviS (fun f _ _ _ v => v.extractLsb' 0 32 = f.imm)

/-- R164: the shifts of each element by a count of 0 to 255, which gives zeros, sign bits or a rotation at the element's
width and beyond. R165, R166: BFE reads a field at position B[7:0] of length B[15:8], zero- or sign-extended; BFI replaces one, and
drops the bits past 31. R167, R168: POPC, CLZ and CTZ count, BREV reverses, and LEA forms a 64-bit address. -/
def Obligations.ShiftsBitFieldsAndCounts : Prop :=
  (BothCompute .shl .shlS (Shifts (fun _ x c => x <<< c))
    ∧ BothCompute .shr .shrS (Shifts (fun _ x c => x >>> c))
    ∧ BothCompute .sar .sarS (Shifts (fun _ x c => x.sshiftRight c))
    ∧ BothCompute .rot .rotS (Shifts (fun _ x c => x.rotateLeft c)))
  ∧ (BothCompute .bfe .bfeS (fun f a b _ v =>
      let pos := (b.extractLsb' 0 8).toNat
      let len := min (b.extractLsb' 8 8).toNat 32
      let bit (k : Nat) : Bool := if k < 32 then a.getLsbD k else tySigned f.ty && a.getLsbD 31
      ∀ k, k < 32 → v.getLsbD k
        = if len = 0 then false else if k < len then bit (pos + k) else tySigned f.ty && bit (pos + (len - 1)))
    ∧ BothCompute .bfi .bfiS (fun _ a b c v =>
      let pos := (c.extractLsb' 0 8).toNat
      let len := min (c.extractLsb' 8 8).toNat 32
      ∀ k, k < 32 → v.getLsbD k = if pos ≤ k ∧ k < pos + len then b.getLsbD (k - pos) else a.getLsbD k))
  ∧ (BothCompute .popc .popcS (fun _ a _ _ v => (v.extractLsb' 0 32).toNat = ((List.range 32).filter (fun k => a.getLsbD k)).length)
    ∧ BothCompute .clz .clzS (fun _ a _ _ v => ∃ n, v.extractLsb' 0 32 = BitVec.ofNat 32 n ∧ n ≤ 32
        ∧ (∀ k, k < n → a.getLsbD (31 - k) = false) ∧ (n < 32 → a.getLsbD (31 - n) = true))
    ∧ BothCompute .ctz .ctzS (fun _ a _ _ v => ∃ n, v.extractLsb' 0 32 = BitVec.ofNat 32 n ∧ n ≤ 32
        ∧ (∀ k, k < n → a.getLsbD k = false) ∧ (n < 32 → a.getLsbD n = true))
    ∧ BothCompute .brev .brevS (fun _ a _ _ v => ∀ i, i < 32 → v.getLsbD (31 - i) = a.getLsbD i)
    ∧ (let addr (f : Rk) (a b _c v : DWord) : Prop := v = a + ((if f.m6 / 8 % 2 = 1 then (b.extractLsb' 0 32).setWidth 64
          else (b.extractLsb' 0 32).signExtend 64) <<< (f.m6 % 8))
       VecComputes .lea (fun _ => true) addr ∧ ScaComputes .leaS (fun _ => true) addr))

/-- R169: ICMP compares every element, signed for the i types, and `.any` asks for one; its code is its modifier. R170, R199: IPICK and FPICK take A where the bit of the predicate, inverted under `.not`, is 1; the scalar forms use
the bit of the lowest active lane. -/
def Obligations.IntegerComparesAndPicks : Prop :=
  (PrdComputes .icmp (fun f a b _ p =>
    let holds (e : Nat) : Prop :=
      let x := eltInt f.ty a e
      let y := eltInt f.ty b e
      match f.m6 % 8 with
      | 0 => x = y
      | 1 => x ≠ y
      | 2 => x < y
      | 3 => x ≤ y
      | 4 => x > y
      | _ => x ≥ y
    p = true ↔ if f.m6 / 8 % 2 = 1 then ∃ e, e < (tyElems f.ty).2 ∧ holds e else ∀ e, e < (tyElems f.ty).2 → holds e))
  ∧ (let pick (l : Nat) (f : Rk) (a b c v : DWord) : Prop :=
    v.extractLsb' 0 32 = if (c.getLsbD l != (f.m6 == 1)) then a.extractLsb' 0 32 else b.extractLsb' 0 32
  ∀ (s : State) (f : Rk) (fp : Bool),
    (s.clears (if fp then .fpick f else .ipick f) = true → s.Completes (if fp then .fpick f else .ipick f) (fun s1 r t =>
      ∃ v : Nat → DWord, r.vecDone s1 t f.dn false v ∧ ∀ l, laneIn r.act l = true → pick l f (r.a l) (r.b l) (r.c l) (v l)))
    ∧ (s.clears (if fp then .fpickS f else .ipickS f) = true → s.Completes (if fp then .fpickS f else .ipickS f) (fun s1 r t =>
      ∃ v : DWord, r.scaDone s1 t f.dn false v ∧ (r.act ≠ 0 → pick r.low f (r.a r.low) (r.b r.low) (r.c r.low) v))))

/-! ## Cross-lane forms (R185 to R190) -/

/-- R185, R186: LTEST tells whether every, some or the same of the active lanes' conditions hold, gives their mask, or
counts them; without an active lane it writes nothing, and a queue takes 0. R190: PSET combines two masks and writes the bits of the active lanes; PMOV copies a mask whole, or under `.lanes`
tests each lane. -/
def Obligations.LaneTestsAndPredicateMoves : Prop :=
  (let cond (f : Rk) (r : Rdy) (l : Nat) : Bool :=
    laneIn r.act l && (if f.a.isK then (r.a l).getLsbD l else (r.a l).extractLsb' 0 32 != 0)
  let val (f : Rk) (r : Rdy) (b : Mask) : Word :=
    match f.m6 with
    | 0 => if (lanesOf r.act).all (laneIn b) then 1 else 0
    | 1 => if (lanesOf r.act).any (laneIn b) then 1 else 0
    | 2 => if (lanesOf r.act).all (laneIn b) || (lanesOf r.act).all (fun l => !laneIn b l) then 1 else 0
    | 3 => b
    | _ => BitVec.ofNat 32 ((List.range 32).filter (laneIn b)).length
  ∀ (s : State) (f : Rk),
    (s.clears (.ltest f) = true → s.Completes (.ltest f) (fun s1 r t =>
      (r.act = 0 → r.Completed s1 t noWrites none)
      ∧ (r.act ≠ 0 → ∃ b : Mask, (∀ l, l < 32 → laneIn b l = cond f r l)
        ∧ (if f.m6 = 3 then r.Completed s1 t (prdAll f.dn b) none
          else r.Completed s1 t (prdWrites f.dn r.act (fun _ => val f r b == 1)) none))))
    ∧ (s.clears (.ltestS f) = true → s.Completes (.ltestS f) (fun s1 r t =>
      ∃ b : Mask, (∀ l, l < 32 → laneIn b l = cond f r l) ∧ r.scaDone s1 t f.dn false ((val f r b).setWidth 64))))
  ∧ (PrdComputesWith .pset (fun f r l p =>
      let a := ((r.a r.low).extractLsb' 0 32 : Word)
      let b := ((r.b r.low).extractLsb' 0 32 : Word)
      p = (match f.m6 with
        | 0 => a &&& b
        | 1 => a ||| b
        | 2 => a ^^^ b
        | 3 => a &&& ~~~b
        | _ => ~~~a).getLsbD l)
    ∧ ∀ (s : State) (f : Rk), s.clears (.pmov f) = true → s.Completes (.pmov f) (fun s1 r t =>
      (f.m6 = 1 → ∃ p : Nat → Bool, r.Completed s1 t (prdWrites f.dn r.act p) none ∧ ∀ l, laneIn r.act l = true →
        (p l = true ↔ if f.a.isK then (r.a l).getLsbD l = true else (r.a l).extractLsb' 0 32 ≠ 0))
      ∧ (f.m6 = 0 → r.Completed s1 t (if r.act = 0 then noWrites else prdAll f.dn ((r.a r.low).extractLsb' 0 32)) none)))

/-- R187, R189: LXCH moves values between lanes of a segment, and a lane whose source is missing keeps its value or takes
the fill; LSAME gives the active lanes with the same pattern. -/
def Obligations.LaneExchangesAndMatches : Prop :=
  VecComputesWith .lxch (fun f r l v =>
      let w := 2 ^ (5 - f.m6 / 4 % 8)
      let base := l - l % w
      let i := l % w
      let c := (r.b l).toNat
      let j : Option Nat := match f.m6 % 4 with
        | 0 => some (base + c % w)
        | 1 => if c > i then none else some (l - c)
        | 2 => if i + c ≥ w then none else some (l + c)
        | _ => some (base + (i ^^^ (c % w)))
      v = ((match j with
        | some k => if laneIn r.act k then r.a k else if f.m6 / 32 % 2 = 1 then r.c l else r.a l
        | none => if f.m6 / 32 % 2 = 1 then r.c l else r.a l).extractLsb' 0 32 : Word))
    ∧ VecComputesWith .lsame (fun _ r l v => ∀ u, u < 32 →
      v.getLsbD u = (laneIn r.act u && ((r.a u).extractLsb' 0 32 == ((r.a l).extractLsb' 0 32 : Word))))

/-- R188: LFOLD gives the last of the running values, and SCAN gives each lane its own, or under `.excl` the one before it
and the identity to the first; steps on f32 raise and count. -/
def Obligations.FoldsAndScansCombineLanesInOrder : Prop :=
  ∀ (s : State) (f : Rk),
    (s.clears (.lfold f) = true → s.Completes (.lfold f) (fun s1 r t =>
      ∃ acc fl cnt, r.Folded f acc fl cnt ∧ ∃ v : DWord,
        (∀ l, laneIn r.act l = true → (∀ k, l < k → laneIn r.act k = false) → v = acc l)
        ∧ r.fpEnds s1 t (r.scaX f.dn f.ty.is64 v) (r.scaP f.dn f.ty.is64 v)
            [(0, (lanesOf r.act).foldl (fun a l => a ||| fl l) 0)] ((lanesOf r.act).flatMap cnt)))
    ∧ (s.clears (.scan f) = true → s.Completes (.scan f) (fun s1 r t =>
      ∃ acc fl cnt, r.Folded f acc fl cnt ∧ ∃ v : Nat → DWord,
        (f.m6 < 8 → ∀ l, laneIn r.act l = true → v l = acc l)
        ∧ (8 ≤ f.m6 → (∀ l, r.first l → v l = foldId f) ∧ ∀ l l', r.after l l' → v l' = acc l)
        ∧ r.fpEnds s1 t (vecWrites f.dn f.ty.is64 r.act v) none ((lanesOf r.act).map (fun l => (l, fl l)))
            ((lanesOf r.act).flatMap cnt)))

/-! ## Floating forms (R191 to R214) -/

/-- R191, R193 to R196, R201, R202: the element-wise floating forms round each element once, raise and count in each
active lane, and end as R97 and R98 say. R153, R191: the scalar floating forms compute once, and raise as lane 0 would. The
mode of a form is its RND field, or RM; its group's bit flushes. R194: FMIN and FMAX give the smaller or larger operand, −0 below
+0, a single NaN giving the other unless `.nanp`. R195: FSCALE rounds A · 2^n once. R196: FRND gives the integral value in the
direction of the form, with A's sign. R201, R202, R204: FDIV, RCP and SQRT round the exact result once, with their special
cases. R202 to R204: the approximate forms on special inputs, EXP2 where it is exact or overflows, RSQ within one ulp, SIN and COS
beyond their ranges. Where the manual is silent or open, the model's choice: log 10, 14, 105. -/
def Obligations.FloatingFormsComputeEachElement : Prop :=
  (FpVec .fadd 2 false (fun _ => opAdd) ∧ FpVec .fsub 2 false (fun _ => opSub) ∧ FpVec .fmul 2 false (fun _ => opMul)
    ∧ FpVec .ffma 3 false (fun _ => opFma) ∧ FpVec .fmin 2 false (fun f => opMin (f.m6 == 1))
    ∧ FpVec .fmax 2 false (fun f => opMax (f.m6 == 1)) ∧ FpVec .frnd 1 false (fun _ => opRnd)
    ∧ FpVec .fscale 1 false (fun _ => opScale) ∧ FpVec .fdiv 2 true (fun _ => opDiv) ∧ FpVec .rcp 1 true (fun _ => opRcp)
    ∧ FpVec .sqrt 1 true (fun _ => opSqrt) ∧ FpVec .rsq 1 true (fun _ => opSfu 0) ∧ FpVec .log2 1 true (fun _ => opSfu 1)
    ∧ FpVec .exp2 1 true (fun _ => opSfu 2) ∧ FpVec .sin 1 true (fun _ => opSfu 3) ∧ FpVec .cos 1 true (fun _ => opSfu 4)
    ∧ FpVec .tanh 1 true (fun _ => opSfu 5))
  ∧ (FpSca .faddS 2 (fun _ => opAdd) ∧ FpSca .fsubS 2 (fun _ => opSub) ∧ FpSca .fmulS 2 (fun _ => opMul)
    ∧ FpSca .ffmaS 3 (fun _ => opFma) ∧ FpSca .fminS 2 (fun f => opMin (f.m6 == 1)) ∧ FpSca .fmaxS 2 (fun f => opMax (f.m6 == 1)))
  ∧ (∀ (t : Ty) (mode : Word) (rm : Rm),
      envOf (tyFmt t) mode rm false = ⟨rm, mode.getLsbD (if tyFmt t = fmtF32 then 2 else 3), mode.getLsbD (if tyFmt t = fmtF32 then 2 else 3), false⟩
      ∧ Rm.ofRnd 1 mode = .rne ∧ Rm.ofRnd 2 mode = .rtz ∧ Rm.ofRnd 3 mode = .rdn ∧ Rm.ofRnd 4 mode = .rup
      ∧ Rm.ofRnd 0 mode = (if mode.extractLsb' 0 2 = 0 then .rne else if mode.extractLsb' 0 2 = 1 then .rtz
          else if mode.extractLsb' 0 2 = 2 then .rdn else .rup))
  ∧ (∀ (f : Fmt) (v : Env) (a b c : Nat), f ∈ [fmtF32, fmtF16, fmtBf16] → a < 2 ^ f.width → b < 2 ^ f.width → c < 2 ^ f.width →
    let fa := f.flushIn v.fzi a
    let fb := f.flushIn v.fzi b
    let x := f.dec fa
    let y := f.dec fb
    let nan (iv : Bool) : Res := ⟨f.qnan, if iv then 16 else 0⟩
    let sgn (n : Bool) : Nat := if n then 2 ^ (f.eb + f.mb) else 0
    let inf (n : Bool) : Nat := if n then f.limits.2.2 else f.limits.2.1
    opAdd f v a b c = fpAdd f v a b ∧ opMul f v a b c = fpMul f v a b ∧ opFma f v a b c = fpFma f v a b c
    ∧ opSub f v a b c = fpAdd f v a (if (f.dec b).isNan then b else b ^^^ 2 ^ (f.eb + f.mb))
    ∧ (∀ (mx np : Bool), let r := if mx then opMax np f v a b c else opMin np f v a b c
        r.fl = (if x.isSnan || y.isSnan then 16 else 0)
        ∧ (x.isNan = true → y.isNan = true → r.bits = f.qnan) ∧ ((x.isNan || y.isNan) = true → np = true → r.bits = f.qnan)
        ∧ (np = false → x.isNan = true → y.isNan = false → r.bits = fb) ∧ (np = false → x.isNan = false → y.isNan = true → r.bits = fa)
        ∧ (∀ o, fpOrder x y = some o → (r.bits = fa ∨ r.bits = fb) ∧ (o < 0 → r.bits = if mx then fb else fa)
            ∧ (0 < o → r.bits = if mx then fa else fb)
            ∧ (x.isZero = true → y.isZero = true → (f.dec r.bits).neg = if mx then x.neg && y.neg else x.neg || y.neg)))
    ∧ (∀ s, x = .nan s → opScale f v a b c = nan s ∧ opRnd f v a b c = nan s ∧ opRcp f v a b c = nan s ∧ opSqrt f v a b c = nan s
        ∧ opDiv f v a b c = nan (s || y.isSnan) ∧ ∀ code, code < 6 → opSfu code f v a b c = nan s)
    ∧ (∀ n, x = .inf n → opScale f v a b c = ⟨inf n, 0⟩ ∧ opRnd f v a b c = ⟨inf n, 0⟩ ∧ opRcp f v a b c = ⟨sgn n, 0⟩
        ∧ opSqrt f v a b c = (if n then nan true else ⟨inf false, 0⟩) ∧ opSfu 0 f v a b c = (if n then nan true else ⟨0, 0⟩)
        ∧ opSfu 1 f v a b c = (if n then nan true else ⟨inf false, 0⟩) ∧ opSfu 2 f v a b c = (if n then ⟨0, 0⟩ else ⟨inf false, 0⟩)
        ∧ opSfu 3 f v a b c = nan true ∧ opSfu 4 f v a b c = nan true
        ∧ opSfu 5 f v a b c = ⟨f.bias * 2 ^ f.mb + sgn n, 0⟩
        ∧ (y.isInf = true → opDiv f v a b c = nan true) ∧ (y.isFinite = true → opDiv f v a b c = ⟨inf (n != y.neg), 0⟩))
    ∧ (∀ n m e, x = .fin n m e → opScale f v a b c = f.round v.rm v.fzo v.sat n m (e + (BitVec.ofNat f.width b).toInt)
        ∧ (opRnd f v a b c).fl = 0
        ∧ (∃ m' e', f.dec (opRnd f v a b c).bits = .fin n m' e' ∧ dyCmp m' e' (roundInt v.rm n m e).1 0 = 0)
        ∧ (∀ k, y = .inf k → opDiv f v a b c = ⟨sgn (n != k), 0⟩) ∧ (∀ s, y = .nan s → opDiv f v a b c = nan s)
        ∧ (∀ k e', y = .fin k 0 e' → opDiv f v a b c = if m = 0 then nan true else ⟨inf (n != k), 8⟩)
        ∧ (∀ k m' e', y = .fin k m' e' → m' ≠ 0 → m = 0 → opDiv f v a b c = ⟨sgn (n != k), 0⟩)
        ∧ (∀ k m' e', y = .fin k m' e' → m' ≠ 0 → m ≠ 0 →
            f.Rounded v.rm v.fzo v.sat (n != k) (fun d q => dyCmp (d * m') (q + e') m e) (opDiv f v a b c))
        ∧ (m = 0 → opRcp f v a b c = ⟨inf n, 8⟩ ∧ opSqrt f v a b c = ⟨sgn n, 0⟩ ∧ opSfu 0 f v a b c = ⟨inf n, 8⟩
            ∧ opSfu 1 f v a b c = ⟨inf true, 8⟩ ∧ opSfu 2 f v a b c = ⟨f.bias * 2 ^ f.mb, 0⟩ ∧ opSfu 3 f v a b c = ⟨sgn n, 0⟩
            ∧ opSfu 4 f v a b c = ⟨f.bias * 2 ^ f.mb, 0⟩ ∧ opSfu 5 f v a b c = ⟨sgn n, 0⟩)
        ∧ (m ≠ 0 → f.Rounded v.rm v.fzo v.sat n (fun d q => dyCmp (d * m) (q + e) 1 0) (opRcp f v a b c))
        ∧ (m ≠ 0 → n = true → opSqrt f v a b c = nan true ∧ opSfu 0 f v a b c = nan true ∧ opSfu 1 f v a b c = nan true)
        ∧ (m ≠ 0 → n = false → f.Rounded v.rm v.fzo v.sat false (fun d q => dyCmp (d * d) (2 * q) m e) (opSqrt f v a b c))
        ∧ (n = false → dyCmp m e 1 0 = 0 → opSfu 1 f v a b c = ⟨0, 0⟩)
        ∧ (∀ k : Nat, dyCmp m e k 0 = 0 → 1 - (f.bias : Int) ≤ signed n k → signed n k < 2 ^ f.eb - 1 - (f.bias : Int) →
            opSfu 2 f v a b c = ⟨(signed n k + f.bias).toNat * 2 ^ f.mb, 0⟩)
        ∧ (n = false → 0 ≤ dyCmp m e (2 ^ f.eb - 1 - f.bias) 0 → opSfu 2 f v a b c = ⟨inf false, 5⟩)
        ∧ (m ≠ 0 → n = false → ∃ d q g k, f.dec (opSfu 0 f v a b c).bits = .fin false d q
            ∧ 2 ^ f.mb ≤ g ∧ g < 2 ^ (f.mb + 1) ∧ dyCmp (g * g * m) (2 * k + e) 1 0 ≤ 0 ∧ 0 < dyCmp ((g + 1) * (g + 1) * m) (2 * k + e) 1 0
            ∧ (let u := min q k
               let z (p : Nat) : Int := dyCmp (p * p * m) (2 * u + e) 1 0
               z (d * 2 ^ (q - u).toNat - 2 ^ (k - u).toNat) ≤ 0 ∧ 0 ≤ z (d * 2 ^ (q - u).toNat + 2 ^ (k - u).toNat)))
        ∧ (0 < dyCmp m e 1 (if f = fmtF32 then 20 else 10) → ∀ code, code = 3 ∨ code = 4 →
            ∃ g d q, f.dec (opSfu code f v a b c).bits = .fin g d q ∧ dyCmp d q 1 0 ≤ 0)))

/-- R91, R193: any NaN operand gives the canonical NaN, and so does an invalid case; invalid is raised for a signalling
NaN or an invalid case alone. R193: on finite operands FADD, FMUL and FFMA round the exact result once; an exact zero sum is −0 in RDN alone, but a
sum of zeros of one sign keeps it, and a product of zeros carries the XOR of the signs. -/
def Obligations.SumsAndProductsAreRoundedOnceOrNaN : Prop :=
  (∀ (f : Fmt) (v : Env) (a b c : Nat),
    let x := f.dec (f.flushIn v.fzi a)
    let y := f.dec (f.flushIn v.fzi b)
    let z := f.dec (f.flushIn v.fzi c)
    let sn := x.isSnan || y.isSnan
    let bad := (x.isInf && y.isZero) || (x.isZero && y.isInf)
    ((x.isNan || y.isNan) = true → fpAdd f v a b = ⟨f.qnan, if sn then 16 else 0⟩ ∧ fpMul f v a b = ⟨f.qnan, if sn then 16 else 0⟩)
    ∧ ((x.isInf && y.isInf && x.neg != y.neg) = true → fpAdd f v a b = ⟨f.qnan, 16⟩)
    ∧ (bad = true → fpMul f v a b = ⟨f.qnan, 16⟩)
    ∧ ((x.isNan || y.isNan || z.isNan) = true → fpFma f v a b c = ⟨f.qnan, if sn || z.isSnan || bad then 16 else 0⟩)
    ∧ ((!z.isNan && bad) = true → fpFma f v a b c = ⟨f.qnan, 16⟩)
    ∧ (∀ n, (x = .inf n ∧ (y = .inf n ∨ y.isFinite = true)) ∨ (y = .inf n ∧ x.isFinite = true) → fpAdd f v a b = ⟨f.infEnc n, 0⟩)
    ∧ (x.isNan = false → y.isNan = false → bad = false → (x.isInf || y.isInf) = true →
        let n := x.neg != y.neg
        fpMul f v a b = ⟨f.infEnc n, 0⟩ ∧ (z.isFinite = true ∨ z = .inf n → fpFma f v a b c = ⟨f.infEnc n, 0⟩)
          ∧ (z = .inf (!n) → fpFma f v a b c = ⟨f.qnan, 16⟩))
    ∧ (∀ n, x.isFinite = true → y.isFinite = true → z = .inf n → fpFma f v a b c = ⟨f.infEnc n, 0⟩))
  ∧ (∀ (f : Fmt) (v : Env) (a b c : Nat) (n1 n2 n3 : Bool) (m1 m2 m3 : Nat) (e1 e2 e3 : Int),
    f.dec (f.flushIn v.fzi a) = .fin n1 m1 e1 → f.dec (f.flushIn v.fzi b) = .fin n2 m2 e2 →
    f.dec (f.flushIn v.fzi c) = .fin n3 m3 e3 →
    let sums (na nb n : Bool) (ma mb m : Nat) (ea eb e : Int) : Prop :=
      (∀ u : Int, u ≤ ea → u ≤ eb → u ≤ e → scaled n m e u = scaled na ma ea u + scaled nb mb eb u)
      ∧ (m = 0 → n = if na = nb then na else v.rm == .rdn)
    (∃ n m e, sums n1 n2 n m1 m2 m e1 e2 e ∧ fpAdd f v a b = f.round v.rm v.fzo v.sat n m e)
    ∧ fpMul f v a b = f.round v.rm v.fzo v.sat (n1 != n2) (m1 * m2) (e1 + e2)
    ∧ (∃ n m e, sums (n1 != n2) n3 n (m1 * m2) m3 m (e1 + e2) e3 e ∧ fpFma f v a b c = f.round v.rm v.fzo v.sat n m e))

/-- R92, R209: rounding a magnitude to an integer goes toward zero, toward either infinity, or to the nearest with ties to
even, and reports whether it is inexact. R90, R92: in each of the six formats, a value the format holds rounds to its own encoding and
raises nothing. R92, R93, R96: every other value rounds to the neighbour its direction picks and raises inexact; past the largest
magnitude it gives what the overflow table says, or the largest magnitude under saturation, with overflow and inexact; a tiny one raises
underflow where it is inexact, and is flushed to zero where the flush bit is set. -/
def Obligations.RoundingTakesTheDirectionAsked : Prop :=
  (∀ (rm : Rm) (neg : Bool) (m k : Nat),
    let x := roundShift rm neg m k
    (x.2 = true ↔ m % 2 ^ k ≠ 0)
    ∧ (m % 2 ^ k = 0 → x.1 * 2 ^ k = m)
    ∧ (rm = .rtz → x.1 * 2 ^ k ≤ m ∧ m < (x.1 + 1) * 2 ^ k)
    ∧ (rm = .rdn → if neg then m ≤ x.1 * 2 ^ k ∧ x.1 * 2 ^ k < m + 2 ^ k else x.1 * 2 ^ k ≤ m ∧ m < (x.1 + 1) * 2 ^ k)
    ∧ (rm = .rup → if neg then x.1 * 2 ^ k ≤ m ∧ m < (x.1 + 1) * 2 ^ k else m ≤ x.1 * 2 ^ k ∧ x.1 * 2 ^ k < m + 2 ^ k)
    ∧ (rm = .rne → 2 * (x.1 * 2 ^ k) ≤ 2 * m + 2 ^ k ∧ 2 * m ≤ 2 * (x.1 * 2 ^ k) + 2 ^ k
        ∧ (2 * (m % 2 ^ k) = 2 ^ k → x.1 % 2 = 0)))
  ∧ (∀ (f : Fmt) (rm : Rm) (sat neg : Bool) (b m : Nat) (e : Int), f ∈ [fmtF32, fmtF16, fmtBf16, fmtE4m3, fmtE5m2, fmtE2m1] →
    b < 2 ^ f.width → f.dec b = .fin neg m e → f.round rm false sat neg m e = ⟨b, 0⟩)
  ∧ (∀ (rm : Rm) (neg : Bool) (m : Nat) (e : Int), roundInt rm neg m e = if 0 ≤ e then (m * 2 ^ e.toNat, false) else roundShift rm neg m (-e).toNat)
  ∧ (∀ (f : Fmt) (rm : Rm) (fz sat neg : Bool) (m : Nat) (e : Int), f ∈ sixFormats →
    (m = 0 → f.round rm fz sat neg m e = ⟨if neg then 2 ^ (f.eb + f.mb) else 0, 0⟩)
    ∧ (m ≠ 0 → f.Rounded rm fz sat neg (fun d q => dyCmp d q m e) (f.round rm fz sat neg m e)))

/-- R94, R97, R98, R191: with no exception enabled in `fpmode`, every floating form completes: it writes its destination, ORs its
exceptions into `fpflags`, and the next word follows. Where the manual is silent or open, the model's choice: log 10, 14. -/
def Obligations.FloatingFormsCompleteWithTrapsDisabled : Prop :=
  (FpCompletes .fadd false (packsVec (fun _ => opAdd)) ∧ FpCompletes .fsub false (packsVec (fun _ => opSub))
    ∧ FpCompletes .fmul false (packsVec (fun _ => opMul)) ∧ FpCompletes .ffma false (packsVec (fun _ => opFma))
    ∧ FpCompletes .fmin false (packsVec (fun f => opMin (f.m6 == 1))) ∧ FpCompletes .fmax false (packsVec (fun f => opMax (f.m6 == 1)))
    ∧ FpCompletes .frnd false (packsVec (fun _ => opRnd)) ∧ FpCompletes .fscale false (packsVec (fun _ => opScale)))
  ∧ (FpCompletes .fdiv true (packsVec (fun _ => opDiv)) ∧ FpCompletes .rcp true (packsVec (fun _ => opRcp))
    ∧ FpCompletes .sqrt true (packsVec (fun _ => opSqrt)) ∧ FpCompletes .rsq true (packsVec (fun _ => opSfu 0))
    ∧ FpCompletes .log2 true (packsVec (fun _ => opSfu 1)) ∧ FpCompletes .exp2 true (packsVec (fun _ => opSfu 2))
    ∧ FpCompletes .sin true (packsVec (fun _ => opSfu 3)) ∧ FpCompletes .cos true (packsVec (fun _ => opSfu 4))
    ∧ FpCompletes .tanh true (packsVec (fun _ => opSfu 5)))
  ∧ (FpCompletes .faddS false (packsSca (fun _ => opAdd)) ∧ FpCompletes .fsubS false (packsSca (fun _ => opSub))
    ∧ FpCompletes .fmulS false (packsSca (fun _ => opMul)) ∧ FpCompletes .ffmaS false (packsSca (fun _ => opFma))
    ∧ FpCompletes .fminS false (packsSca (fun f => opMin (f.m6 == 1))) ∧ FpCompletes .fmaxS false (packsSca (fun f => opMax (f.m6 == 1))))
  ∧ (FpCompletes .fcmp false (fun f r x push => push = none ∧ ∃ p : Nat → Bool, x = prdWrites f.dn r.act p)
    ∧ FpCompletes .lfold false (toSca (fun f => f.ty.is64)) ∧ FpCompletes .scan false (toVec (fun f => f.ty.is64))
    ∧ FpCompletes .cvt true (toVec (fun f => cvtWideDst f.ty f.m6)) ∧ FpCompletes .cvtS true (toSca (fun f => cvtWideDst f.ty f.m6))
    ∧ FpCompletes .bunpack true (toVec (fun _ => false)))
  ∧ (∀ (s : State) (f : Rk), s.clears (.bpack f) = true → s.untrapped → s.Completes (.bpack f) (fun s1 r t =>
      ∃ (scale : Int) (code : Nat → Int) (x : Writes) (fl : Nat), x.v = noWrites.v ∧ x.k = noWrites.k
        ∧ (r.act = 0 → r.Completed s1 t noWrites none)
        ∧ (r.act ≠ 0 → planeWrites f.dn f.planes scale code x.s ∧ r.Completed (r.flagged (r.Long s1 r.e.att) fl []) t x none)))

/-- R194, R197, R198, R200: FCMP writes, in each active lane, whether its relation holds in both elements, or in either
under `.any`; FCLASS writes one bit for each element's class, and raises nothing. -/
def Obligations.FloatComparesAndClasses : Prop :=
  (∀ (s : State) (f : Rk), s.clears (.fcmp f) = true → s.Completes (.fcmp f) (fun s1 r t =>
    let fz := fzOf (tyFmt f.ty) r.i.w.fpmode
    let at_ (v : DWord) (e : Nat) : Fp := (tyFmt f.ty).dec ((tyFmt f.ty).flushIn fz (fpElt f.ty v e))
    let c := f.m6 % 16
    let holds (l e : Nat) : Prop := match fpOrder (at_ (r.a l) e) (at_ (r.b l) e) with
      | none => 7 ≤ c
      | some o => if c = 6 then True else if c = 7 then False else relHolds (if c < 6 then c else c - 8) o
    let iv (l : Nat) : Nat := if (List.range (fpCount f.ty)).any (fun e =>
        let x := at_ (r.a l) e
        let y := at_ (r.b l) e
        x.isSnan || y.isSnan || ((x.isNan || y.isNan) && 2 ≤ c && c < 6)) then 16 else 0
    ∃ p : Nat → Bool, r.fpEnds s1 t (prdWrites f.dn r.act p) none ((lanesOf r.act).map (fun l => (l, iv l))) []
      ∧ ∀ l, laneIn r.act l = true → (p l = true ↔ if 16 ≤ f.m6 then ∃ e, e < fpCount f.ty ∧ holds l e
          else ∀ e, e < fpCount f.ty → holds l e)))
  ∧ (∀ (s : State) (f : Rk), s.clears (.fclass f) = true → s.Completes (.fclass f) (fun s1 r t =>
    ∃ v : Nat → DWord, r.vecDone s1 t f.dn false v ∧ ∀ l, laneIn r.act l = true → ∀ k, k < 32 →
      (v l).getLsbD k = (decide (k / 16 < fpCount f.ty) && (match (tyFmt f.ty).dec (fpElt f.ty (r.a l) (k / 16)) with
        | .nan s => k % 16 == (if s then 8 else 9)
        | .inf n => k % 16 == (if n then 0 else 7)
        | .fin n m _ => k % 16 == (if m = 0 then (if n then 3 else 4)
            else if (tyFmt f.ty).isSub (fpElt f.ty (r.a l) (k / 16)) then (if n then 2 else 5) else (if n then 1 else 6))))))

/-- R205 to R211: CVT moves element e of its source to element e of its destination by the rule of its two sides, and
ends as a floating form; a float to integer result is clamped into the type, a NaN gives 0, and both raise invalid alone. -/
def Obligations.ConversionsMoveEachElement : Prop :=
  let out (f : Rk) (mode : Word) (a v : DWord) (fl : Nat) (cnt : List Count) : Prop :=
    let src := if f.m6 / 32 % 2 = 1 then sideT f.ty else sideO (f.m6 / 4 % 8)
    let dst := if f.m6 / 32 % 2 = 1 then sideO (f.m6 / 4 % 8) else sideT f.ty
    let x (e : Nat) := cvtElem src dst (if f.m6 % 2 = 1 then .rtz else Rm.ofFpmode mode) (f.m6 / 2 % 2 == 1) mode
      (a.extractLsb' (src.width * e) src.width).toNat
    (∀ e, e < (tyElems f.ty).2 → v.extractLsb' (dst.width * e) dst.width = BitVec.ofNat dst.width (x e).1.bits)
      ∧ v.toNat < 2 ^ (dst.width * (tyElems f.ty).2)
      ∧ fl = (List.range (tyElems f.ty).2).foldl (fun b e => b ||| (x e).1.fl) 0
      ∧ cnt = (List.range (tyElems f.ty).2).flatMap (fun e => (x e).2)
  (∀ (s : State) (f : Rk), s.clears (.cvt f) = true → s.Completes (.cvt f) (fun s1 r t =>
    ∃ (v : Nat → DWord) (fl : Nat → Nat) (cnt : Nat → List Count), (∀ l, laneIn r.act l = true → out f r.i.w.fpmode (r.a l) (v l) (fl l) (cnt l))
      ∧ r.fpEnds (r.Long s1 r.e.att) t (vecWrites f.dn (cvtWideDst f.ty f.m6) r.act v) none
          ((lanesOf r.act).map (fun l => (l, fl l))) ((lanesOf r.act).flatMap cnt)))
  ∧ (∀ (s : State) (f : Rk), s.clears (.cvtS f) = true → s.Completes (.cvtS f) (fun s1 r t =>
    ∃ (v : DWord) (fl : Nat) (cnt : List Count), out f r.i.w.fpmode (r.a r.low) v fl cnt
      ∧ r.fpEnds (r.Long s1 r.e.att) t (r.scaX f.dn (cvtWideDst f.ty f.m6) v) (r.scaP f.dn (cvtWideDst f.ty f.m6) v)
          (if r.act = 0 then [] else [(0, fl)]) (if r.act = 0 then [] else cnt)))
  ∧ (∀ (f : Fmt) (v : Env) (lo hi : Int) (a : Nat) (n : Bool) (m : Nat) (e : Int), lo ≤ hi →
    ((f.dec (f.flushIn v.fzi a)).isNan = true → fpToInt f v lo hi a = (0, 16))
    ∧ (f.dec (f.flushIn v.fzi a) = .fin n m e → let x := signed n (roundInt v.rm n m e).1
        fpToInt f v lo hi a = (max lo (min hi x), if x < lo ∨ hi < x then 16 else if (roundInt v.rm n m e).2 then 1 else 0)))

/-- R212 to R214: BPACK writes a scale and n bit planes of the active lanes' codes; a non-finite or all-zero block has
scale −128 and codes 0; else the scale is the least that reaches every magnitude, and every code is the element clamped
from the nearest odd multiple. BUNPACK rounds (2c + 1) · 2^(scale + n − k), or gives +0 in a zero block. -/
def Obligations.BitPlanesPackAndUnpack : Prop :=
  (∀ (s : State) (f : Rk), s.clears (.bpack f) = true → s.Completes (.bpack f) (fun s1 r t =>
    (r.act = 0 → r.Completed s1 t noWrites none)
    ∧ (r.act ≠ 0 →
      let fm := tyFmt f.ty
      let n := f.planes
      let x (l : Nat) : Fp := fm.dec (fm.flushIn (fzOf fm r.i.w.fpmode) (fpElt f.ty (r.a l) (f.m6 / 8)))
      let reach (q : Int) (l : Nat) : Prop := ∀ g m e, x l = .fin g m e →
        (m : Int) * 2 ^ (e - min e q).toNat ≤ (2 ^ n - 1) * 2 ^ (q - min e q).toNat
      let dead := ∃ l, laneIn r.act l = true ∧ (x l).isFinite = false
      let zero := ∀ l, laneIn r.act l = true → (x l).isZero = true
      ∃ (scale : Int) (code : Nat → Int) (w : Writes) (fl : List (Nat × Nat)),
        w.v = noWrites.v ∧ w.k = noWrites.k ∧ planeWrites f.dn n scale code w.s
        ∧ (dead ∨ zero → scale = -128 ∧ ∀ l, code l = 0)
        ∧ (¬ dead → ¬ zero → -127 ≤ scale ∧ scale ≤ 127 ∧ (∀ q, -127 ≤ q → q < scale → ∃ l, laneIn r.act l = true ∧ ¬ reach q l)
            ∧ (scale < 127 → ∀ l, laneIn r.act l = true → reach scale l)
            ∧ (∀ l, laneIn r.act l = true → -(2 : Int) ^ (n - 1) ≤ code l ∧ code l < (2 : Int) ^ (n - 1))
            ∧ (∀ l, laneIn r.act l = true → -(2 : Int) ^ (n - 1) < code l → code l < (2 : Int) ^ (n - 1) - 1 → ∀ g m e, x l = .fin g m e →
                (scaled g m e (min e scale) - (2 * code l + 1) * 2 ^ (scale - min e scale).toNat).natAbs ≤ 2 ^ (scale - min e scale).toNat)
            ∧ (∀ l, laneIn r.act l = false → code l = 0))
        ∧ (∀ l, laneIn r.act l = true → dead → (l, if (x l).isFinite = false then 16 else if (x l).isZero then 0 else 1) ∈ fl)
        ∧ fl.map (fun e => e.1) = lanesOf r.act
        ∧ r.fpEnds (r.Long s1 r.e.att) t w none fl [])))
  ∧ (∀ (s : State) (f : Rk) (base : BitVec 6) (n : BitVec 8), f.a = .s base → f.bsrc = .imm n →
    s.clears (.bunpack f) = true → s.Completes (.bunpack f) (fun s1 r t =>
      let fm := tyFmt f.ty
      let k := f.planes
      let sc : Int := ((r.i.w.readS base.toNat).extractLsb' 0 8).toInt
      let code (l : Nat) : Int := (BitVec.ofNat k ((List.range k).foldl (fun a p =>
        a + (if (r.i.w.readS (base.toNat + 1 + p)).getLsbD l then 2 ^ (k - 1 - p) else 0)) 0)).toInt
      let x (l : Nat) : Res := if sc = -128 then ⟨0, 0⟩ else
        fm.round (Rm.ofFpmode r.i.w.fpmode) (fzOf fm r.i.w.fpmode) false (decide (2 * code l + 1 < 0)) (2 * code l + 1).natAbs (sc + n.toNat - k)
      ∃ v : Nat → DWord, (∀ l, laneIn r.act l = true → ∀ e, e < fpCount f.ty → fpElt f.ty (v l) e
          = if f.ty = .f32 ∨ e = f.m6 / 8 then (x l).bits % 2 ^ fm.width else fpElt f.ty ((r.i.w.readV f.dn l).setWidth 64) e)
        ∧ r.fpEnds (r.Long s1 r.e.att) t (vecWrites f.dn false r.act v) none ((lanesOf r.act).map (fun l => (l, (x l).fl)))
            ((lanesOf r.act).map (fun l => countOf fm fm [] (x l)))))

/-! ## Control forms (R172 to R184) -/

/-- R172 to R174: BRA sends the active lanes to H + 8 · OFF and JMP each to its own address, the others fall through;
with no active lane nothing changes, and a target outside the global aperture or, for JMP, misaligned, traps. Where the
manual is silent or open, the model's choice: log 18. -/
def Obligations.BranchesSendActiveLanesToTheirTargets : Prop :=
  (∀ (s : State) (f : BraF), s.clears (.bra f) = true → s.Completes (.bra f) (fun s1 r t =>
    let target := r.i.c.head + f.off.signExtend 64 * 8
    (r.act = 0 → r.Completed s1 t noWrites none)
    ∧ (r.act ≠ 0 → target.extractLsb' 56 8 ≠ 0 → r.Traps s1 t 0x05 r.act target.toNat)
    ∧ (r.act ≠ 0 → target.extractLsb' 56 8 = 0 → r.Leaves s1 t noWrites (r.split (fun _ => ⟨target, none, .ready⟩)))))
  ∧ (∀ (s : State) (f : Rk), s.clears (.jmp f) = true → s.Completes (.jmp f) (fun s1 r t =>
    (r.act = 0 → r.Completed s1 t noWrites none)
    ∧ (∀ l c, laneIn r.act l = true → badAddr (r.a l) = some c → (∀ k, k < l → laneIn r.act k = true → badAddr (r.a k) = none) →
        r.Traps s1 t c r.act (r.a l).toNat)
    ∧ (r.act ≠ 0 → (∀ l, laneIn r.act l = true → badAddr (r.a l) = none) →
        r.Leaves s1 t noWrites (r.split (fun l => ⟨r.a l, none, .ready⟩)))))

/-- R175: CALL pushes the address after its clause on each active lane's private stack and lowers its stack register by
8; RET pops it and raises the register; a slot that is misaligned or outside the private area traps before any effect.
Where the manual is silent or open, the model's choice: log 17, 18. -/
def Obligations.CallsAndReturnsUseThePrivateStack : Prop :=
  (∀ (s : State) (f : CallF), s.clears (.call f) = true → s.Completes (.call f) (fun s1 r t =>
    let target := r.i.c.head + f.off.signExtend 64 * 8
    let sp (l : Nat) : Word := (r.a l).extractLsb' 0 32 - 8
    (r.act = 0 → r.Completed s1 t noWrites none)
    ∧ (r.act ≠ 0 → target.extractLsb' 56 8 ≠ 0 → r.Traps s1 t 0x05 r.act target.toNat)
    ∧ (target.extractLsb' 56 8 = 0 → ∀ c l, StackBad s1 r sp c l → r.Traps s1 t c r.act (sp l).toNat)
    ∧ (r.act ≠ 0 → target.extractLsb' 56 8 = 0 → StackOk s1 r sp →
        r.Leaves (r.i.upd s1 (fun (w : Warp) => (lanesOf r.act).foldl (fun (w : Warp) l =>
            { w with priv := putBytes w.priv (privKey l (sp l).toNat) (leBytes 8 r.i.succ.toNat),
                     privPoison := clearPoison w.privPoison (privKey l (sp l).toNat) 8 }) w)) t
          (vecWrites f.vs.toNat false r.act (fun l => (sp l).setWidth 64)) (r.split (fun _ => ⟨target, none, .ready⟩)))))
  ∧ (∀ (s : State) (f : Rk) (vs : BitVec 8), f.a = .v vs → s.clears (.ret f) = true → s.Completes (.ret f) (fun s1 r t =>
    let sp (l : Nat) : Word := (r.a l).extractLsb' 0 32
    let ra (l : Nat) : DWord := BitVec.ofNat 64 (leVal (getBytes r.i.w.priv (privKey l (sp l).toNat) 8))
    let clean (l : Nat) : Prop := poisonedIn r.i.w.privPoison (privKey l (sp l).toNat) 8 = false
    (r.act = 0 → r.Completed s1 t noWrites none)
    ∧ (∀ c l, StackBad s1 r sp c l → r.Traps s1 t c r.act (sp l).toNat)
    ∧ (StackOk s1 r sp → (∀ l, laneIn r.act l = true → clean l) → ∀ l c, laneIn r.act l = true → badAddr (ra l) = some c →
        (∀ k, k < l → laneIn r.act k = true → badAddr (ra k) = none) → r.Traps s1 t c r.act (ra l).toNat)
    ∧ (r.act ≠ 0 → StackOk s1 r sp → (∀ l, laneIn r.act l = true → clean l ∧ badAddr (ra l) = none) →
        r.Leaves s1 t (vecWrites vs.toNat false r.act (fun l => ((sp l) + 8).setWidth 64)) (r.split (fun l => ⟨ra l, none, .ready⟩)))))

/-- R176 to R178: JSET sets a join register's valid bit, mask and join PC and leaves the arrived set; JWAIT traps where
the register is not valid, sends lanes outside the mask to the join PC and blocks the others there; a register whose
every lane has arrived or exited releases its arrived lanes as one sub-group at the join PC and is cleared. Where the
manual is silent or open, the model's choice: log 21. -/
def Obligations.JoinsGatherLanes : Prop :=
  (∀ (s : State) (f : JsetF), s.clears (.jset f) = true → (∀ i, s.issuer? = some i → i.u.st = .ready) →
    s.Completes (.jset f) (fun s1 r t =>
      let target := r.i.c.head + f.off.signExtend 64 * 8
      (r.act = 0 → r.Completed s1 t noWrites none)
      ∧ (r.act ≠ 0 → target.extractLsb' 56 8 ≠ 0 → r.Traps s1 t 0x05 r.act target.toNat)
      ∧ (r.act ≠ 0 → target.extractLsb' 56 8 = 0 → r.Completed (r.i.upd s1 (fun (w : Warp) =>
          (w.setJoin f.n.toNat ⟨true, (r.a r.low).extractLsb' 0 32 &&& w.live, (w.join f.n.toNat).arrived, target,
            (w.join f.n.toNat).subs⟩).tryJoin f.n.toNat)) t noWrites none)))
  ∧ (∀ (s : State) (f : Rk) (n : BitVec 8), f.a = .imm n → s.clears (.jwait f) = true → s.Completes (.jwait f) (fun s1 r t =>
      let j := r.i.w.join n.toNat
      (r.act = 0 → r.Completed s1 t noWrites none)
      ∧ (r.act ≠ 0 → j.valid = false → r.Traps s1 t 0x01 r.act n.toNat)
      ∧ (r.act ≠ 0 → j.valid = true → ∃ s2 : State,
          r.Leaves s1 s2 noWrites (r.split (fun l => if laneIn j.mask l then ⟨j.pc, none, .join n.toNat⟩ else ⟨j.pc, none, .ready⟩))
          ∧ t = s2.updWarp r.i.g.id r.i.w.idx (fun w => (w.setJoin n.toNat
              { w.join n.toNat with arrived := (w.join n.toNat).arrived ||| (r.act &&& j.mask) }).tryJoin n.toNat))))
  ∧ (∀ (w : Warp) (n : Nat), let j := w.join n
      ((j.valid = false ∨ j.mask &&& ~~~j.arrived &&& w.live ≠ 0) → w.tryJoin n = w)
      ∧ (j.valid = true → j.mask &&& ~~~j.arrived &&& w.live = 0 →
          (w.tryJoin n).join n = emptyJoin
          ∧ (w.tryJoin n).live = w.live ∧ (∀ k, k ≠ n → (w.tryJoin n).join k = w.join k)
          ∧ (∀ a u b, w.subs = a ++ u :: b → u.st = .join n → (∀ v ∈ a, v.st ≠ .join n) →
              (w.tryJoin n).subs = a ++ { u with lanes := j.arrived, pc := j.pc, mid := none, st := .ready }
                :: b.filter (fun v => v.st != .join n))))

/-- R142, R143, R179, R180: LOOP enters its body with the count, start and end of its level, or skips it for a count of 0
and for lanes not active; LBRK leaves its level and every higher one for the end; both trap with ILLOP where the level does
not allow it. -/
def Obligations.HardwareLoopsEnterSkipAndBreak : Prop :=
  (∀ (s : State) (f : LoopF), s.clears (.loop f) = true → s.Completes (.loop f) (fun s1 r t =>
    let k := f.lvl.toNat
    let start := r.i.succ
    let stop := r.i.c.head + f.stop.setWidth 64 * 8
    let l := r.i.u.loop
    let n : Word := (r.a r.low).extractLsb' 0 32
    let bad : Prop := stop.toNat ≤ start.toNat ∨ 256 < (stop.toNat - start.toNat) / 8
      ∨ (∃ j, k ≤ j ∧ j < 3 ∧ l.active.getLsbD j = true) ∨ (∃ j, j < k ∧ j < 3 ∧ l.active.getLsbD j = true ∧ (l.stop.getD j 0).toNat < stop.toNat)
    (r.act ≠ 0 → bad → r.Traps s1 t 0x01 r.act k)
    ∧ (r.act = 0 ∨ (¬ bad ∧ n = 0) → r.Leaves s1 t noWrites (fun _ => ⟨stop, none, .ready⟩))
    ∧ (r.act ≠ 0 → ¬ bad → n ≠ 0 →
        r.Leaves s1 t noWrites (fun i => if laneIn r.act i then ⟨start, none, .ready⟩ else ⟨stop, none, .ready⟩)
        ∧ ∀ w', t.warp? r.i.g.id r.i.w.idx = some w' → ∀ i, laneIn r.act i = true → laneIn r.i.u.lanes i = true →
          ∃ v ∈ w'.subs, laneIn v.lanes i = true ∧ v.loop = ⟨l.count.set k n, l.start.set k start, l.stop.set k stop, l.active ||| (1#3 <<< k)⟩)))
  ∧ (∀ (s : State) (f : LbrkF), s.clears (.lbrk f) = true → s.Completes (.lbrk f) (fun s1 r t =>
    let k := f.lvl.toNat
    (r.act = 0 → r.Completed s1 t noWrites none)
    ∧ (r.act ≠ 0 → r.i.u.loop.active.getLsbD k = false → r.Traps s1 t 0x01 r.act k)
    ∧ (r.act ≠ 0 → r.i.u.loop.active.getLsbD k = true →
        r.Leaves s1 t noWrites (r.split (fun _ => ⟨r.i.u.loop.stop.getD k 0, none, .ready⟩)))))
  ∧ (∀ (l : LoopState) (k : Nat), k < 3 → ∀ j, j < 3 → (l.leave k).active.getLsbD j = (l.active.getLsbD j && decide (j < k)))
  ∧ (∀ (l : LoopState) (e : DWord) (k : Nat), k < 3 → l.active.getLsbD k = true → l.stop.getD k 0 = e →
      (∀ j, k < j → j < 3 → l.active.getLsbD j = true → l.stop.getD j 0 ≠ e) → 1 < (l.count.getD k 0).toNat →
      loopTest l e = (l.start.getD k 0, { l with count := l.count.set k (l.count.getD k 0 - 1) }))

/-- R181 to R183, R306: NOP has no effect, YIELD ends the clause and gives up the turn, SLEEP blocks the sub-group until the
timer reaches its deadline, or yields for 0, TRAP raises SWTRAP after itself with its code, and EXIT ends the active lanes. -/
def Obligations.NopYieldSleepTrapAndExit : Prop :=
  (∀ (s : State) (f : Rk), s.clears (.nop f) = true → s.Completes (.nop f) (fun s1 r t => r.Completed s1 t noWrites none))
  ∧ (∀ (s : State) (f : Rk), s.clears (.yield f) = true → s.Completes (.yield f) (fun s1 r t =>
      r.Leaves s1 t noWrites (fun _ => r.fall) ∧ (∀ w', t.warp? r.i.g.id r.i.w.idx = some w' → w'.runs = 16)
      ∧ (r.act ≠ 0 → (t.quad r.i.q).skip = some (r.i.g.id, r.i.w.idx))))
  ∧ (∀ (s : State) (f : Rk), s.clears (.sleep f) = true → s.Completes (.sleep f) (fun s1 r t =>
      let n := ((r.a r.low).extractLsb' 0 32).toNat
      (r.act = 0 → r.Completed s1 t noWrites none)
      ∧ (r.act ≠ 0 → n = 0 → r.Leaves s1 t noWrites (fun _ => r.fall) ∧ (t.quad r.i.q).skip = some (r.i.g.id, r.i.w.idx))
      ∧ (r.act ≠ 0 → n ≠ 0 → r.Leaves s1 t noWrites (fun _ => { r.fall with st := .sleep (s1.timer + n) }))))
  ∧ (∀ (s : State) (f : Rk), s.clears (.trap f) = true → s.Completes (.trap f) (fun s1 r t =>
      let code : Word := match f.body with
        | .i n => n
        | _ => (r.a r.low).extractLsb' 0 32
      (r.act = 0 → r.Completed s1 t noWrites none)
      ∧ (r.act ≠ 0 → t = r.i.trapPast ((r.commit s1).updWarp r.i.g.id r.i.w.idx (fun w => w.count 1 1)) 0x14 r.word r.act code.toNat)))
  ∧ (∀ (s : State) (f : Rk), s.clears (.exit f) = true → s.Completes (.exit f) (fun s1 r t =>
      (r.act = 0 → r.Completed s1 t noWrites none)
      ∧ (r.act ≠ 0 → t.mem = s1.mem ∧ OtherGroups r.i.g.id s1 t ∧ ∃ w', t.warp? r.i.g.id r.i.w.idx = some w'
          ∧ w'.live = r.i.w.live &&& ~~~r.act ∧ (∀ n l, w'.readV n l = r.i.w.readV n l) ∧ (∀ n, w'.readS n = r.i.w.readS n)
          ∧ (∀ n, w'.readK n = r.i.w.readK n)
          ∧ ((∀ n, (r.i.w.join n).valid = false) → (∀ v ∈ w'.subs, v.lanes &&& r.act = 0)
              ∧ ∀ l, laneIn r.i.u.lanes l = true → laneIn r.act l = false → ∃ v ∈ w'.subs, laneIn v.lanes l = true
                  ∧ v.pc = r.fall.pc ∧ v.mid = none ∧ v.st = .ready))))

/-! ## Traps (R154, R310 to R314) -/

/-- R154 steps 1 to 9: the first check that fails decides the trap, ILLOP or PRIV with its `tval`, whatever the active
lanes. R21, R88, R292: a vector number at or past the allotment, or the one that an instruction left with, other than v255, a scalar number past its own, and an odd
register of a pair fail the check, and the number named is the one that failed. Where the manual is silent or open, the
model's choice: log 13. -/
def Obligations.DecodeAndRegisterChecksTrapInOrder : Prop :=
  (∀ (s : State) (ins : Instr) (i : Iss), s.issuer? = some i → ins.enc ≠ .event →
    let e := ins.enc
    let word := e.word.getD 0
    let traps (c v : Nat) : Prop := exec ins s = .next (i.fault s c word (i.active e.guard) v)
    let admitted := e.home = .alu ∨ e.home.code = i.h.cls
    let placed := e.last = false ∨ i.u.pc + 8 = i.c.head + BitVec.ofNat 64 (8 * (i.h.count + 1))
    let priv := ((∃ f, ins = .bias f) ∨ ∃ f, ins = .halt f) ∧ (s.pktOf i.g).getLsbD 574 = false
      ∨ ∃ f, ins = .csrwr f ∧ f.num.toNat ∈ [0x012, 0x015, 0x016, 0x017, 0x018, 0x019, 0x020, 0x021, 0x031, 0x032, 0x034]
    (e.wf = false ∨ ¬ admitted ∨ ¬ placed → traps 0x01 0)
    ∧ (e.wf = true → admitted → placed → priv → traps 0x03 0)
    ∧ (e.wf = true → admitted → placed → ¬ priv → ∀ a u b n, e.dstUses ++ e.srcUses = a ++ u :: b →
        (∀ v ∈ a, i.regBad s v = none) → i.regBad s u = some n → traps 0x01 n))
  ∧ (∀ (i : Iss) (s : State) (n : Nat),
    (i.regBad s (.vec n 1) = if n = 255 ∨ n < max i.w.av i.u.allot then none else some n)
    ∧ (n < 255 → i.regBad s (.vec n 2) = if n % 2 = 1 ∨ n = 254 ∨ max i.w.av i.u.allot ≤ n then some n else none)
    ∧ (i.regBad s (.sca n 1) = if n < i.w.as then none else some n)
    ∧ (i.regBad s (.sca n 2) = if n % 2 = 1 ∨ i.w.as ≤ n then some n else none))

/-- R310, R312, R314: a trap that may be taken writes the trap registers, sets INH and sends the sub-group to `tvec` with
every lane; inside a handler, or without one, it kills the group and reports the cause; one that must wait for earlier
instructions of its warp is kept on the sub-group. R8, R310: a trap before an instruction saves the address of that word, its
lanes and value. R98, R142: one after it saves where its lanes go on, the next word, or at the clause's end what the loop test
gives; R183: after TRAP, the next word or header. Where that is no header the clause it stands in is kept for the return. Where the
manual is silent or open, the model's choice: log 19. -/
def Obligations.TrapsNameTheirWordAndEnterTheHandler : Prop :=
  (∀ (s : State) (g : Group) (w : Warp) (u : SubGroup) (x : TrapRec), s.group? g.id = some g → g.warp? w.idx = some w →
    w.sub? u.id = some u → u.run = none →
    let t := s.raise g.id w.idx u.id x
    (w.inh = false → w.tvec ≠ 0 → trapReady g w = true → x.cause ≠ 0x13 →
      OtherGroups g.id s t ∧ t.mem = s.mem ∧ ∃ g' w', t.group? g.id = some g' ∧ OtherWarps w.idx g g' ∧ g'.warp? w.idx = some w'
        ∧ w'.tcause = x.cause ∧ w'.tpc = x.tpc ∧ w'.tinst = x.tinst ∧ w'.tmask = x.tmask ∧ w'.tval = x.tval ∧ w'.resume = x.resume
        ∧ w'.inh = true ∧ w'.active = some u.id ∧ w'.vregs = w.vregs ∧ w'.sregs = w.sregs ∧ w'.preds = w.preds ∧ w'.tvec = w.tvec
        ∧ w'.fpmode = w.fpmode ∧ w'.fpflags = w.fpflags ∧ w'.live = w.live
        ∧ w'.sub? u.id = some { u with pc := w.tvec, mid := none, run := none, st := .ready, pend := none, handler := true, owes := [], allot := 0 }
        ∧ (∀ v ∈ w.subs, v.id ≠ u.id → v ∈ w'.subs))
    ∧ (w.inh = true ∨ w.tvec = 0 → ∃ g', t.group? g.id = some g' ∧ g'.stop = some (x.cause.toNat, 0) ∧ g'.killed = true
        ∧ (∀ v ∈ g'.warps, v.live = 0 ∧ v.subs = []) ∧ t.mem = s.mem
        ∧ ∃ e ∈ t.faults, e.kind = 3 ∧ e.cause = x.cause.toNat ∧ e.cause2 = (if w.inh then w.tcause.toNat else 0) ∧ e.pc = x.tpc
          ∧ e.val = x.tval ∧ e.mask = x.tmask ∧ e.inst = x.tinst ∧ e.ctx = s.ctxOf g ∧ e.unit = g.core ∧ e.gidx = BitVec.ofNat 32 g.lin)
    ∧ (w.inh = false → w.tvec ≠ 0 → trapReady g w = false →
        t.sub? g.id w.idx u.id = some { u with run := none, pend := some x } ∧ OtherGroups g.id s t ∧ t.mem = s.mem))
  ∧ (∀ (i : Iss) (s : State) (cause word val : Nat) (m : Mask),
    i.fault s cause word m val = s.raise i.g.id i.w.idx i.u.id ⟨BitVec.ofNat 8 cause, i.u.pc, BitVec.ofNat 64 word, m,
      BitVec.ofNat 64 val, if i.u.pc = i.c.head then none else some i.c.head⟩
    ∧ i.trapPast s cause word m val = s.raise i.g.id i.w.idx i.u.id ⟨BitVec.ofNat 8 cause, i.u.pc + 8, BitVec.ofNat 64 word, m,
      BitVec.ofNat 64 val, if i.u.pc + 8 = i.succ ∨ i.u.pc + 8 = i.c.head then none else some i.c.head⟩
    ∧ (i.isLast = false → i.trapAfter s cause word m val = (i.updU s (fun u => { u with loop := i.u.loop })).raise i.g.id i.w.idx i.u.id
        ⟨BitVec.ofNat 8 cause, i.u.pc + 8, BitVec.ofNat 64 word, m, BitVec.ofNat 64 val,
          if i.u.pc + 8 = i.c.head then none else some i.c.head⟩)
    ∧ (i.isLast = true → i.trapAfter s cause word m val
        = (i.updU s (fun u => { u with loop := (loopTest i.u.loop i.succ).2 })).raise i.g.id i.w.idx i.u.id
          ⟨BitVec.ofNat 8 cause, (loopTest i.u.loop i.succ).1, BitVec.ofNat 64 word, m, BitVec.ofNat 64 val, none⟩))

/-- R184, R313: TRET outside a handler traps with ILLOP; in one, every lane of the sub-group goes to `tpc`, inside the clause
it was trapped in, INH is cleared, no sub-group is in a handler any more, and every register keeps its value. -/
def Obligations.ReturnFromTheHandlerResumesAtTpc : Prop :=
  ∀ (s : State) (f : Rk), s.clears (.tret f) = true → s.Completes (.tret f) (fun s1 r t =>
    (r.i.w.inh = false → r.Traps s1 t 0x01 r.act 0)
    ∧ (r.i.w.inh = true → t.mem = s1.mem ∧ OtherGroups r.i.g.id s1 t ∧ ∃ w', t.warp? r.i.g.id r.i.w.idx = some w'
        ∧ w'.inh = false ∧ w'.resume = none ∧ (∀ v ∈ w'.subs, v.handler = false)
        ∧ (r.i.u.lanes ≠ 0 → ∃ v ∈ w'.subs, v.lanes = r.i.u.lanes ∧ v.pc = r.i.w.tpc ∧ v.mid = r.i.w.resume ∧ v.st = .ready
            ∧ v.loop = r.i.u.loop ∧ w'.active = some v.id)
        ∧ w'.vregs = r.i.w.vregs ∧ w'.sregs = r.i.w.sregs ∧ w'.preds = r.i.w.preds ∧ w'.tcause = r.i.w.tcause ∧ w'.tpc = r.i.w.tpc
        ∧ w'.tvec = r.i.w.tvec ∧ w'.live = r.i.w.live))

/-! ## Encodings and the step (R120 to R154) -/

/-- R130 to R137, R149, R173, R215, R229, R236, R241, R269, R285: words written out from the manual's fields decode to the
instructions they stand for; the opcodes that the grid leaves unassigned or marks have no instruction, and every other
has. -/
def Obligations.WrittenOutWordsDecode : Prop :=
  decodeTableWord 64 0x0100100480400000 = some (.iadd ⟨⟨0, false⟩, 4, .v 4, .r (.imm 1) (.v 0) .i32 0⟩)
    ∧ decodeTableWord 64 0x209FF800DEADBEEF = some (.movi ⟨⟨3, true⟩, 254, .v 0, .i 3735928559⟩)
    ∧ decodeTableWord 64 0x1C00080400C0000A = some (.lea ⟨⟨0, false⟩, 2, .v 4, .r (.v 3) (.v 0) .i32 10⟩)
    ∧ decodeTableWord 64 0x250018020000020D = some (.scan ⟨⟨0, false⟩, 6, .v 2, .r (.v 0) (.v 0) .i64 13⟩)
    ∧ decodeTableWord 64 0x31DC0000FFFFFFFE = some (.bra ⟨⟨3, true⟩, 4294967294⟩)
    ∧ decodeTableWord 64 0x37C2020A00000123 = some (.loop ⟨⟨0, false⟩, 2, .imm 10, 291⟩)
    ∧ decodeTableWord 64 0x49000D0140800040 = some (.idivS ⟨⟨0, false⟩, 3, .s 1, .r (.s 2) (.v 0) .i32 64⟩)
    ∧ decodeTableWord 64 0x7600080200C0091D = some (.fcmp ⟨⟨0, false⟩, 2, .v 2, .r (.v 3) (.v 0) .f16x2 29⟩)
    ∧ decodeTableWord 64 0x8900040200000020 = some (.cvt ⟨⟨0, false⟩, 1, .v 2, .r (.v 0) (.v 0) .i32 32⟩)
    ∧ decodeTableWord 64 0xB0C0140200150200 = some (.ld ⟨⟨0, false⟩, 5, .v 2, .v 0, 1, 2, 4, 2, 0, 0⟩)
    ∧ decodeTableWord 64 0xB4C00002010B0C20 = some (.red ⟨⟨0, false⟩, 0, .v 2, .v 4, 0, 5, 4, 12, 0, 32⟩)
    ∧ decodeTableWord 64 0xB5C0080441B90850 = some (.cas64 ⟨⟨0, false⟩, 2, .v 4, .s 6, 3, 4, true, 8, 1, true⟩)
    ∧ decodeTableWord 64 0xBAC0020296000800 = some (.bar ⟨⟨0, false⟩, .imm 2, 300, true⟩)
    ∧ decodeTableWord 64 0xBCC14D0241640000 = some (.synchit ⟨⟨0, false⟩, 83, .s 2, .s 5, 2, 0⟩)
    ∧ decodeTableWord 64 0xD1C0010441C8296B = some (.plook ⟨⟨0, false⟩, .s 4, .s 7, 32, 2, 9, 1, 5, false, true, true⟩)
    ∧ decodeTableWord 64 0xD8C0250140903641 = some (.aread ⟨⟨0, false⟩, 9, .s 1, .s 2, .s 3, 6, 1, true⟩)
    ∧ decodeTableWord 64 0xE5C0010303000000 = some (.csrwr ⟨⟨0, false⟩, 0, .s 3, 48, 0, false⟩)
    ∧ decodeTableWord 64 0xE8C020000000B040 = some (.perfrd ⟨⟨0, false⟩, 8, .v 0, 11, 1, false⟩)
    ∧ decodeTableWord 64 0xEBC0010200000041 = some (.bias ⟨⟨0, false⟩, 0, .s 2, 0, 1, true⟩)
    ∧ ∀ op, op < 256 →
      let assigned : Prop := (1 ≤ op ∧ op ≤ 0x28) ∨ (0x30 ≤ op ∧ op ≤ 0x3C) ∨ (0x41 ≤ op ∧ op ≤ 0x60 ∧ op ≠ 0x46 ∧ op ≠ 0x5D)
        ∨ (0x70 ≤ op ∧ op ≤ 0x7A) ∨ (0x80 ≤ op ∧ op ≤ 0x8C) ∨ (0x90 ≤ op ∧ op ≤ 0x97 ∧ op ≠ 0x96)
        ∨ (0xB0 ≤ op ∧ op ≤ 0xC5) ∨ (0xD0 ≤ op ∧ op ≤ 0xDC) ∨ (0xE0 ≤ op ∧ op ≤ 0xEC)
      (assigned → ∃ w i, w < 2 ^ 64 ∧ w / 2 ^ 56 = op ∧ decode w = .ok i)
      ∧ (¬ assigned → ∀ w, w / 2 ^ 56 % 256 = op → decode w = .error .opcode)

/-- R130 to R137: every well-formed instruction has a 64-bit word, and decoding it gives the instruction back, with every
operand at every value that its encoding admits; a device event has no word. -/
def Obligations.DecodingInvertsEncoding : Prop :=
  ∀ i : Instr, (i.wf = true → ∃ w, encode i = some w ∧ w < 2 ^ 64 ∧ decode w = .ok i) ∧ (i.enc = .event → encode i = none)

/-- R121, R122, R154: a word that decodes is the encoding of its instruction, so no two words stand for one instruction and
no bit of a word is dropped; the same of clause headers, and a header without its mark, class, flags or zero bit has none. -/
def Obligations.EncodingInvertsDecoding : Prop :=
  (∀ (w : Nat) (i : Instr), w < 2 ^ 64 → decode w = .ok i → i.wf = true ∧ encode i = some w)
  ∧ (∀ (w : Nat) (h : Header), w < 2 ^ 64 → decodeHeader w = some h → encodeHeader h = w)
  ∧ (∀ h : Header, h.cls < 6 → 1 ≤ h.count → h.count ≤ 16 → (h.seta < 12 ∨ h.seta = 15) → (h.setb < 12 ∨ h.setb = 15) →
      decodeHeader (encodeHeader h) = some h)
  ∧ (∀ w : Nat, (w / 2 ^ 60 % 16 ≠ 10 ∨ 5 < w / 2 ^ 57 % 8 ∨ (w / 2 ^ 37 % 16 ∈ [12, 13, 14]) ∨ (w / 2 ^ 33 % 16 ∈ [12, 13, 14])
      ∨ w / 2 ^ 32 % 2 = 1) → decodeHeader w = none)

/-- R120, R154, R384: when a quad issues, the step is `exec` of the instruction that the word at the sub-group's PC
decodes to, in the same state but for the quad's next slot, which a word that waits does not take; a word without an
instruction traps with ILLOP; a word of the clause stands at its header plus 8 for each place; a word placed by
`withFetchWord` is the next step's. Where the manual is silent or open, the model's choice: log 1. -/
def Obligations.AStepRunsTheDecodedInstruction : Prop :=
  (∀ (s : State) (q : Nat) (r : List Move) (i : Iss) (w : Nat),
    let s0 : State := { s with agenda := r, cur := some q }
    s.agenda = .issue q :: r → s0.issuer? = some i → s0.coreRuns i.g.core = true →
    (some i.u.pc ∉ (s0.ctx (s0.ctxOf i.g)).brk ∨ i.u.brkSkip = some i.u.pc) → i.word? = some w →
      (∀ ins, decode w = .ok ins → step s = exec ins (if i.idles s0 ins.enc then s0 else
        i.updU (s0.setQuad q { s0.quad q with next := s0.timer + s0.passNs i.g.core (s0.passesOn q) })
          (fun (u : SubGroup) => { u with brkSkip := none })))
      ∧ (∀ e, decode w = .error e → step s = .next (i.fault s0 0x01 w (i.active (guardOf w)) 0)))
  ∧ (∀ (i : Iss) (k : Nat), i.u.pc = i.c.head + BitVec.ofNat 64 (8 * (k + 1)) → i.c.head.toNat + 8 * (k + 1) < 2 ^ 64 →
      i.word? = i.c.words[k]?)
  ∧ (∀ (n w : Nat) (ins : Instr), decode (w % 2 ^ 64) = .ok ins →
      ∃ s : State, step (State.reset.withFetchWord n w) = exec ins s ∧ ∃ i, s.issuer? = some i ∧ i.word? = some (w % 2 ^ 64)
        ∧ i.h.cls = ins.enc.home.code ∧ i.isLast = true)

/-- R20, R21, R74, R87, R88, R130, R133 to R135: the active lanes are those of the sub-group whose guard bit is 1; v255 and k0
read as constants and take nothing, every other register holds what was last written, a pair's even register is its low half,
and a scalar register that is written is no token any more; immediates and literals are widened to the type. -/
def Obligations.OperandsAndRegistersHoldTheirValues : Prop :=
  (∀ (i : Iss) (g : Guard) (l : Nat), l < 32 →
    laneIn (i.active g) l = (laneIn i.u.lanes l && (laneIn (i.w.readK g.g.toNat) l != g.neg)))
  ∧ (∀ (w : Warp) (n m t u : Nat) (v : Word), t < 32 → u < 32 → (w.writeV n t v).readV m u
      = if m = 255 then 0 else if m = n ∧ u = t then v else w.readV m u)
  ∧ (∀ (w : Warp) (n m : Nat) (v : Mask), (w.writeK n v).readK m = if m = 0 then 0xFFFFFFFF else if m = n then v else w.readK m)
  ∧ (∀ (w : Warp) (n m : Nat) (v : Word), (w.writeS n v).readS m = if m = n then v else w.readS m)
  ∧ (∀ (w : Warp) (n m : Nat) (v : Word), tfind (w.writeS n v).tokens m = if m = n then none else tfind w.tokens m)
  ∧ (∀ (w : Warp) (n t : Nat), w.readVPair n t = w.readV (n + 1) t ++ w.readV n t ∧ w.readSPair n = w.readS (n + 1) ++ w.readS n)
  ∧ (∀ (t : Ty) (n : BitVec 8) (e : Nat), t ∉ [.f32, .f16x2, .bf16x2] → e < (tyElems t).2 →
      (widenImm (.ty t) n).extractLsb' ((tyElems t).1 * e) (tyElems t).1 = n.signExtend (tyElems t).1)
  ∧ (∀ (t : Ty) (n : BitVec 8) (e : Nat), t ∈ [.f32, .f16x2, .bf16x2] → e < fpCount t →
      ∃ g m x, (tyFmt t).dec (fpElt t (widenImm (.ty t) n) e) = .fin g m x
        ∧ scaled g m x (min x 0) = n.toInt * (2 : Int) ^ (0 - min x 0).toNat)
  ∧ (∀ (t : Ty) (l : Word), widenLit (.ty t) l = if t = .i64 then l.signExtend 64 else l.setWidth 64)
  ∧ (∀ (s s1 : State) (ins : Instr) (r : Rdy), s.Issues ins s1 r → ∃ i s0, s.issuer? = some i ∧ BeginsIn s i ins.enc s0
    ∧ r.e = ins.enc ∧ r.word = ins.enc.word.getD 0 ∧ r.act = r.i.active ins.enc.guard
    ∧ (popAll ins.enc.pops r.i.c.pops).2 = (r.pops, r.dry)
    ∧ (ins.enc.kop = none → s1 = s0 ∧ ∀ t, OperandIs s1 r.i r.e 0 t (r.a t) ∧ OperandIs s1 r.i r.e 1 t (r.b t) ∧ OperandIs s1 r.i r.e 2 t (r.c t))
    ∧ (∀ w off wide k, ins.enc.kop = some (w, off, wide, k) → ∃ v i0, s0.issuer? = some i0
        ∧ i0.const s0 r.e r.word (i0.active r.e.guard) w off wide = .ok s1 r.i v
        ∧ ∀ t, r.b t = v ∧ r.c t = 0 ∧ (k = 0 → r.a t = v) ∧ (k ≠ 0 → OperandIs s1 r.i r.e 0 t (r.a t))))
  ∧ (∀ (op : Nat) (f : Rk) (b c : Src) (t : Ty) (m : BitVec 8), f.body = .r b c t m →
      (Enc.rk op f).kop = none ∧ (Enc.rk op f).opds.map (fun o => o.src) = [f.a, b, c]
      ∧ (Enc.rk op f).opds.map (fun o => o.wide) = (if op = 0x06 then [false, false, true]
          else if op ∈ [0x1C, 0x32, 0x5C] then [true, false, false]
          else if op ∈ [0x89, 0x8C] then [t.is64 && m.getLsbD 5, false, false] else [t.is64, t.is64, t.is64])
      ∧ (op ∉ [0x06, 0x77, 0x7A, 0x89, 0x8C, 0x97] → ∀ o ∈ (Enc.rk op f).opds, o.w = .ty t))
  ∧ (∀ (op : Nat) (f : Rk) (w : BitVec 3) (off : BitVec 17) (t : Ty) (m : BitVec 8), f.body = .k w off t m →
      (Enc.rk op f).opds.map (fun o => o.src) = [f.a]
      ∧ ∃ wide k, (Enc.rk op f).kop = some (w.toNat, off.toNat, wide, k) ∧ (∀ p, rkFormOf op = some p → (k = 0 ↔ p.nsrc = 1))
        ∧ (op ∉ [0x06, 0x1C, 0x32, 0x5C, 0x89, 0x8C] → wide = t.is64))
  ∧ (∀ (op : Nat) (f : MemF), (Enc.mem op f).opds.map (fun o => o.src) = [f.a, f.b]
      ∧ (Enc.mem op f).opds.map (fun o => o.wide) = [true, if op = 0xB2 then f.sz == 5 else (op == 0xB3 || op == 0xB4) && (f.sz == 2 || f.sz == 3)])
  ∧ (∀ (f : CasF), (Enc.cas f).opds.map (fun o => o.src) = [f.a, f.b, if f.newS then .s (f.new.setWidth 6) else .v f.new]
      ∧ ∀ o ∈ (Enc.cas f).opds, o.wide = true)

/-- R74, R125, R136, R139, R140, R234, R253, R259, R262: a word that depends on a job not done, on an acquire, or on palette work of
its warp waits unchanged, or leaves its clause where that work waits for a version; a release, EXIT and a word that names a tile
take the ACCCHK detected there; reading a token whose job failed raises ENGJOB with it, and a push to an ended queue QEOS; a constant outside its window
raises BOUNDS with the word that failed, a 64-bit one at an odd offset ILLOP; queue values pop in the order A, B, C.
Where the manual is silent or open, the model's choice: log 26, 28, 94, 104, 106. -/
def Obligations.OperandsThatWaitOrTrap : Prop :=
  (∀ (s : State) (ins : Instr) (i : Iss), s.issuer? = some i → ins.enc ≠ .event →
    let e := ins.enc
    let act := i.active e.guard
    let passes : Prop := e.wf = true ∧ (e.home = .alu ∨ e.home.code = i.h.cls) ∧ (e.last = false ∨ i.isLast = true) ∧ i.privBad s e = false
      ∧ ∀ u ∈ e.dstUses ++ e.srcUses, i.regBad s u = none
    let traps (c v : Nat) : Prop := exec ins s = .next (i.fault s c (e.word.getD 0) act v)
    let token (n : Nat) : Prop := n ∈ e.readsS ∧ ∃ t, tfind i.w.tokens n = some t ∧ t.landed = true
      ∧ (i.w.readS n).toNat / 2 ^ 28 ∉ [0, 3]
    passes → (i.mustWait s e = true ∨ i.palStall s e = true → exec ins s = .next s)
      ∧ (i.mustWait s e = false → i.palStall s e = false → act ≠ 0 → i.behindPalette s e act = true →
          exec ins s = .next (i.leave s .held))
      ∧ (i.mustWait s e = false → act ≠ 0 → i.behindPalette s e act = false →
          ∀ j, i.accPoint s e act = some j → exec ins s = .next (i.raiseAcc s j act))
      ∧ (i.mustWait s e = false → act ≠ 0 → i.behindPalette s e act = false → i.accPoint s e act = none →
          ∀ a n b, e.readsS = a ++ n :: b → (∀ m ∈ a, ¬ token m) → token n → traps 0x13 (i.w.readS n).toNat)
      ∧ (i.mustWait s e = false → (act = 0 ∨ (i.behindPalette s e act = false ∧ i.accPoint s e act = none ∧ ∀ n, ¬ token n)) →
          ∀ n, e.push = some n → ((tget emptyQueue i.g.queues n).ended = true ∨ i.w.idx ∈ (tget emptyQueue i.g.queues n).eos) →
            traps 0x10 n))
  ∧ (∀ (s : State) (i : Iss) (e : Enc) (act : Mask),
    let run := i.namedRun s e act
    ((∃ n ∈ run, n ∈ drainTiles i.g i.w.idx) → i.behindPalette s e act = true)
    ∧ (i.w.acc ≠ [] → releases e = true ∨ i.onStrong s e act = true ∨ (∃ f, e = .rk 0x39 f) → i.accPoint s e act = some 0)
    ∧ (releases e = false → i.onStrong s e act = false → (∀ f, e ≠ .rk 0x39 f) →
        (∀ j, accOn i.w run j → (∀ m, m < j → ¬ accOn i.w run m) → i.accPoint s e act = some j)
        ∧ ((∀ j, ¬ accOn i.w run j) → i.accPoint s e act = none)))
  ∧ (∀ (s : State) (i : Iss) (e : Enc) (word w off : Nat) (act : Mask) (wide : Bool),
    let size := i.wins s / 2 ^ (128 * w + 64) % 2 ^ 32
    (act = 0 → i.const s e word act w off wide = .ok s i 0)
    ∧ (act ≠ 0 → size ≤ off → i.const s e word act w off wide = .stop (i.fault s 0x17 word act (w * 2 ^ 17 + off)))
    ∧ (act ≠ 0 → off < size → wide = true → off % 2 = 1 → i.const s e word act w off wide = .stop (i.fault s 0x01 word act 0))
    ∧ (act ≠ 0 → off < size → wide = true → off % 2 = 0 → size ≤ off + 1 →
        i.const s e word act w off wide = .stop (i.fault s 0x17 word act (w * 2 ^ 17 + off + 1))))
  ∧ (∀ (s : State) (core pa : Nat) (v : Word), tfind s.ccache (core * 2 ^ 62 + pa / 4) = some v →
      s.constWord core pa = (⟨leBytes 4 v.toNat, false⟩, s))
  ∧ (∀ (p : List (Nat × List Word)) (n : Nat) (v : Word) (l : List Word) (a b : List (Nat × List Word)),
      p = a ++ (n, v :: l) :: b → (∀ x ∈ a, x.1 ≠ n) → popAll [n] p = ([v], a ++ (n, l) :: b, [])
        ∧ ∀ m, popAll [n, m] p = (v :: (popAll [m] (a ++ (n, l) :: b)).1, (popAll [m] (a ++ (n, l) :: b)).2.1, (popAll [m] (a ++ (n, l) :: b)).2.2))

/-! ## Memory and reset -/

/-- R5, R52: what a write stores is what a read of those bytes gives, and every other byte of memory is unchanged, in
the canonical form; values lie in memory with their lowest byte at the lowest address. Where the manual is silent or
open, the model's choice: log 4. -/
def Obligations.MemoryReadsWhatWasWritten : Prop :=
  (∀ (s : State) (pa : Nat) (b : List Byte), (s.store pa b).peek pa b.length = b
    ∧ (∀ a, (a < pa ∨ pa + b.length ≤ a) → tget 0 (s.store pa b).mem a = tget 0 s.mem a)
    ∧ (s.Inv → (s.store pa b).Inv))
  ∧ (∀ n v, v < 256 ^ n → leVal (leBytes n v) = v ∧ (leBytes n v).length = n)
  ∧ (∀ (n v k : Nat), k < n → (leBytes n v)[k]? = some (BitVec.ofNat 8 (v / 256 ^ k)))
  ∧ (∀ (m m' : List Host.Cell), Memory.wf m = true → Memory.wf m' = true → (∀ a, tget 0 m a = tget 0 m' a) → m = m')

/-- R348, R408, R418, R419, R431 give the reset values of the registers they name; everything else is the model's choice
(log 3 to 7): nothing is resident, memory lists nothing, and the timer stands at 0. -/
def Obligations.ResetLeavesNothingResident : Prop :=
  State.reset.groups = [] ∧ State.reset.grids = [] ∧ State.reset.jobs = [] ∧ State.reset.tasks = [] ∧ State.reset.faults = []
    ∧ State.reset.mem = [] ∧ State.reset.timer = 0 ∧ State.reset.bu.phase = 0 ∧ State.reset.bu.dieRun = 0 ∧ State.reset.Inv
    ∧ (∀ q, q < 1024 → State.reset.barGet (0x100000 + 64 * q + 16) = 0x03E8000000000044)
    ∧ State.reset.barGet 0x400000 = 0x0007D06695F58960
    ∧ (∀ c, c < 96 → State.reset.barGet (0x500000 + 4096 * c) = 0x80406028 ∧ State.reset.barGet (0x500008 + 4096 * c) = 0x08888881
        ∧ State.reset.barGet (0x500018 + 4096 * c) = 0x1A)
    ∧ (∀ e, e < 11 → State.reset.barGet (0x600000 + 16 * e) = 0 ∧ State.reset.barGet (0x600008 + 16 * e) = 0x100000000)
    ∧ (∀ off, off < 0x100000 → State.reset.barGet off = 0)

/-- The invariant of memory: every step, of any agent, keeps its one canonical form, so that equal memories are equal data. -/
def Obligations.EveryStepKeepsMemoryCanonical : Prop :=
  ∀ s t : State, s.Inv → step s = .next t → t.Inv

/-! ## Memory forms (R46 to R71, R215 to R232) -/

/-- R46 to R52, R217 to R219, R242: the checks of an access go by order, and within one by ascending lane: aperture,
alignment, the window of `.lim`, the private area, permissions, and tagged words for a write; then every access that
needs no walk is made where its pointer lies. Where the manual is silent or open, the model's choice: log 17. -/
def Obligations.AccessesAreCheckedInOrder : Prop :=
  ∀ (s : State) (i : Iss) (word att : Nat) (act : Mask) (md : Mode) (reqs : List Req),
    let loc (q : Req) : Loc := s.locate i.g i.w.idx q.lane q.ptr q.size
    let fits (q : Req) : Prop := if md.natural then q.ptr % q.size = 0 else q.ptr / 2 ^ 56 = 0 ∨ q.ptr % (min q.size 16) = 0
    let traps (c v : Nat) : Prop := i.access s word att act md reqs = .stop (i.fault s c word act v)
    let inside (q : Req) : Prop := ∀ lo hi, md.lim = some (lo, hi) → lo ≤ q.ptr ∧ q.ptr + q.size ≤ hi
    let isOver (q : Req) : Prop := q.ptr / 2 ^ 56 = 0xF1 ∧ privSize (s.pktOf i.g) < q.ptr % 2 ^ 56 + q.size
    let located : Prop := ∀ q ∈ reqs, loc q ≠ .bad
    let clear (o : Ready) : Prop := ∀ p ∈ o.parts, (md.want.wr = true → s.tagged p.1 p.2 = false) ∧ s.inFlip p = none
    (∀ a q b, reqs = a ++ q :: b → (∀ x ∈ a, loc x ≠ .bad) → loc q = .bad → traps 0x05 q.ptr)
    ∧ (located → ∀ a q b, reqs = a ++ q :: b → (∀ x ∈ a, fits x) → ¬ fits q → traps 0x04 q.ptr)
    ∧ (located → (∀ q ∈ reqs, fits q) → ∀ q b, reqs = q :: b → (∀ x ∈ reqs, ¬ inside x) → traps 0x17 q.ptr)
    ∧ (located → (∀ q ∈ reqs, fits q) → (∀ q ∈ reqs, inside q) →
        (∀ a q b, reqs = a ++ q :: b → (∀ x ∈ a, ¬ isOver x) → isOver q → traps 0x16 (q.ptr % 2 ^ 56))
        ∧ ((∀ q ∈ reqs, ¬ isOver q) → (∀ q ∈ reqs, Refused s i md.want q ∨ ∃ o, Hit s i md.want q o) →
            (∀ a q b, reqs = a ++ q :: b → (∀ x ∈ a, ¬ Refused s i md.want x) → Refused s i md.want q → traps 0x07 q.ptr))
        ∧ (∀ os : List Ready, (∀ q ∈ reqs, ¬ isOver q) → os.length = reqs.length →
            (∀ (k : Nat) q o, reqs[k]? = some q → os[k]? = some o → Hit s i md.want q o) →
            ((∀ o ∈ os, clear o) → i.access s word att act md reqs = .go s i os)
            ∧ (md.want.wr = true → ∀ a o b, os = a ++ o :: b → (∀ x ∈ a, ∀ p ∈ x.parts, s.tagged p.1 p.2 = false) →
                (∃ p ∈ o.parts, s.tagged p.1 p.2 = true) → traps 0x0E o.req.ptr)))

/-- R54 to R61, R216, R220, R221, R223: LD gives each lane the bytes at its address, extended as its width says, in one, two
or four registers, and LD s the bytes at one address in scalar registers or a queue; a block form reads a scale and its
planes. They store nothing. Poison ends them before any register is written. -/
def Obligations.LoadsReadTheirBytes : Prop :=
  (∀ (s : State) (f : MemF), s.clears (.ld f) = true → s.Completes (.ld f) (fun s1 r t =>
    let n := szBytes f.sz.toNat
    (r.act = 0 → r.Completed s1 t noWrites none)
    ∧ (r.act ≠ 0 → r.accesses s1 t f.att.toNat ⟨wantLoad (some r.i.w.pkr), false, r.window f⟩ (r.memReqs f n (lanesOf r.act))
        (fun i l =>
          let ok : Prop := ∃ v : Nat → Nat, r.Accessed s1 t l (runV f.d.toNat (cdiv n 4) (readyLanes l) (fun u => loadExt f.sz.toNat (v u)))
              none r.i.w.locks (fun _ => False)
            ∧ ∀ q ∈ l, (∀ p ∈ q.places, s1.steady l p) → s1.noCopies r.i.g.core q → v q.req.lane = q.valueIn s1.byteAt
          (ok ∨ ∃ q ∈ l, r.Poisoned s1 t i l (readyLanes l) q.req.ptr) ∧ (s1.sound l → ok)))))
  ∧ (∀ (s : State) (f : MemF), s.clears (.ldS f) = true → s.Completes (.ldS f) (fun s1 r t =>
    let n := szBytes f.sz.toNat
    let d := f.d.toNat
    let base := (r.a r.low).toNat
    let geom := ((r.b r.low).extractLsb' 0 32).toNat
    let k := f.mod.toNat % 8 + 1
    let seen (l : List Ready) (q : Ready) (v : Nat) : Prop :=
      (∀ p ∈ q.places, s1.steady l p) → s1.noCopies r.i.g.core q → v = q.valueIn s1.byteAt
    (r.act = 0 → r.Completed s1 t noWrites (if 64 ≤ d then some (d - 80, 0) else none))
    ∧ (r.act ≠ 0 → f.sz ≠ 7 → r.accesses s1 t f.att.toNat ⟨wantLoad (some r.i.w.pkr), false, r.window f⟩ (r.memReqs f n [r.low])
        (fun i l =>
          let ok : Prop := ∃ v : Nat, r.Accessed s1 t l
              (if 64 ≤ d then noWrites else runS d (cdiv n 4) (fun j => wordAt (loadExt f.sz.toNat v) j))
              (if 64 ≤ d then some (d - 80, if laneIn r.act 0 then wordAt (loadExt f.sz.toNat v) 0 else 0) else none)
              r.i.w.locks (fun _ => False)
            ∧ ∀ q ∈ l, seen l q v
          (ok ∨ ∃ q ∈ l, r.Poisoned s1 t i l r.act q.req.ptr) ∧ (s1.sound l → ok)))
    ∧ (r.act ≠ 0 → f.sz = 7 →
        (s1.locate r.i.g r.i.w.idx r.low base 1 = .bad → r.Traps s1 t 0x05 r.act base)
        ∧ (s1.locate r.i.g r.i.w.idx r.low base 1 ≠ .bad → base % 16 ≠ 0 → r.Traps s1 t 0x04 r.act base)
        ∧ (s1.locate r.i.g r.i.w.idx r.low base 1 ≠ .bad → base % 16 = 0 → geom / 2 ^ 16 ≤ geom % 2 ^ 16 → r.Traps s1 t 0x17 r.act geom)
        ∧ (s1.locate r.i.g r.i.w.idx r.low base 1 ≠ .bad → base % 16 = 0 → geom % 2 ^ 16 < geom / 2 ^ 16 →
            r.accesses s1 t f.att.toNat ⟨{ wantLoad (some r.i.w.pkr) with fmt := bpFmt }, true, none⟩
              (bpReqs r.low base (geom / 2 ^ 16) (geom % 2 ^ 16) k) (fun i l =>
                let ok : Prop := ∃ v : Nat → Nat, r.Accessed s1 t l
                    (runS d (k + 1) (fun j => if j = 0 then BitVec.ofInt 32 (BitVec.ofNat 8 (v 0)).toInt else BitVec.ofNat 32 (v j)))
                    none r.i.w.locks (fun _ => False)
                  ∧ ∀ j q, l[j]? = some q → seen l q (v j)
                (ok ∨ ∃ q ∈ l, r.Poisoned s1 t i l r.act q.req.ptr) ∧ (s1.sound l → ok))))))

/-- R53, R56, R216, R222, R223: ST stores each lane's data to the bytes at its address, of which those of the highest lane
remain, and its block form a scale and planes from scalar registers; nothing else is stored and no register is written. -/
def Obligations.StoresWriteTheirBytes : Prop :=
  ∀ (s : State) (f : MemF), s.clears (.st f) = true → s.Completes (.st f) (fun s1 r t =>
    let n := szBytes f.sz.toNat
    let base := (r.a r.low).toNat
    let geom := ((r.b r.low).extractLsb' 0 32).toNat
    let stored (l : List Ready) (v : Nat → Nat → Nat) : Prop :=
      r.Accessed s1 t l noWrites none r.i.w.locks (placesOf l)
      ∧ ∀ a q b, l = a ++ q :: b → ∀ k p, q.places[k]? = some p → (∀ x ∈ b, p ∉ x.places) → s1.steady l p →
          t.byteAt p = BitVec.ofNat 8 (v a.length q.req.lane / 256 ^ k)
    (r.act = 0 → r.Completed s1 t noWrites none)
    ∧ (r.act ≠ 0 → f.sz ≠ 7 → r.accesses s1 t f.att.toNat ⟨wantStore (some r.i.w.pkr), false, r.window f⟩
        (r.memReqs f n (lanesOf r.act)) (fun _ l => stored l (fun _ u => r.stData f u)))
    ∧ (r.act ≠ 0 → f.sz = 7 →
        (s1.locate r.i.g r.i.w.idx r.low base 1 = .bad → r.Traps s1 t 0x05 r.act base)
        ∧ (s1.locate r.i.g r.i.w.idx r.low base 1 ≠ .bad → base % 16 ≠ 0 → r.Traps s1 t 0x04 r.act base)
        ∧ (s1.locate r.i.g r.i.w.idx r.low base 1 ≠ .bad → base % 16 = 0 → geom / 2 ^ 16 ≤ geom % 2 ^ 16 → r.Traps s1 t 0x17 r.act geom)
        ∧ (s1.locate r.i.g r.i.w.idx r.low base 1 ≠ .bad → base % 16 = 0 → geom % 2 ^ 16 < geom / 2 ^ 16 →
            r.accesses s1 t f.att.toNat ⟨{ wantStore (some r.i.w.pkr) with fmt := bpFmt }, true, none⟩
              (bpReqs r.low base (geom / 2 ^ 16) (geom % 2 ^ 16) (f.mod.toNat % 8 + 1))
              (fun _ l => stored l (fun j _ => (r.i.w.readS (f.off6.toNat + j)).toNat)))))

/-- R53, R226, R227, R229: ATOM and CAS64 read and write each lane's word in one step, in ascending lanes, and give the old
value; a failed comparison writes nothing; `.lk` counts words that leave zero and come back. -/
def Obligations.AtomicsReadAndWriteInOneStep : Prop :=
  let done (s1 t : State) (r : Rdy) (i : Iss) (l : List Ready) (d n : Nat) (lk : Bool) (op : Nat → Nat → Option Nat) : Prop :=
    let y := rmwFold op s1.byteAt l
    let ok : Prop := ∃ (v : Nat → Nat) (k : Nat), r.Accessed s1 t l (runV d n (readyLanes l) v) none k (placesOf l)
      ∧ (lk = false → k = r.i.w.locks)
      ∧ (s1.sound l → (∀ e ∈ y.1, v e.1 = e.2)
          ∧ (lk = true → k = y.1.foldl (fun c e => match op e.1 e.2 with | some x => lkStep e.2 x c | none => c) r.i.w.locks)
          ∧ ∀ p, placesOf l p → t.byteAt p = y.2 p)
    (ok ∨ ∃ q ∈ l, r.Poisoned s1 t i l (readyLanes l) q.req.ptr) ∧ (s1.sound l → ok)
  (∀ (s : State) (f : MemF), s.clears (.atom f) = true → s.Completes (.atom f) (fun s1 r t =>
    let n := atomBytes f.sz.toNat
    (r.act = 0 → r.Completed s1 t noWrites none)
    ∧ (r.act ≠ 0 → r.accesses s1 t f.att.toNat ⟨wantAtomic (some r.i.w.pkr), true, r.window f⟩ (r.memReqs f n (lanesOf r.act))
        (fun i l => done s1 t r i l f.d.toNat (n / 4) (f.mod.getLsbD 4)
          (fun u a => some (atomOp (f.mod.toNat % 16) f.sz.toNat a (r.b u).toNat).1)))))
  ∧ (∀ (s : State) (f : CasF), s.clears (.cas64 f) = true → s.Completes (.cas64 f) (fun s1 r t =>
    (r.act = 0 → r.Completed s1 t noWrites none)
    ∧ (r.act ≠ 0 → r.accesses s1 t f.att.toNat ⟨wantAtomic (some r.i.w.pkr), true, none⟩
        ((lanesOf r.act).map (fun u => ⟨u, (r.a u).toNat, 8⟩))
        (fun i l => done s1 t r i l f.d.toNat 2 f.lk (fun u a => if a = (r.b u).toNat then some (r.c u).toNat else none)))))
  ∧ (∀ ty a b : Nat, ty < 4 →
      let w := 8 * atomBytes ty
      let v (x : Nat) : Int := if ty % 2 = 0 then (BitVec.ofNat w x).toInt else x
      let x (op : Nat) : Nat := (atomOp op ty a b).1
      a < 2 ^ w → b < 2 ^ w →
        x 0 = (a + b) % 2 ^ w ∧ v (x 1) = min (v a) (v b) ∧ v (x 2) = max (v a) (v b) ∧ x 3 = a &&& b ∧ x 4 = a ||| b ∧ x 5 = a ^^^ b
        ∧ x 6 = b ∧ x 7 = (if b ≤ a then 0 else a + 1) ∧ x 8 = (if a = 0 ∨ b < a then b else a - 1))
  ∧ (∀ a b : Nat, a < 2 ^ 32 → b < 2 ^ 32 → (atomOp 0 4 a b).1 = (fpAdd fmtF32 plainEnv a b).bits ∧ (atomOp 6 4 a b).1 = b)

/-- R69 to R71, R228: a buffered RED enters the core's reduction buffer and leaves memory as it is; two contributions of
one operation and type combine; an entry merges as one atomic operation; any other RED is an atomic that gives no value.
Where the manual is silent or open, the model's choice: log 12. -/
def Obligations.ReductionsAreBufferedAndMerge : Prop :=
  (∀ (s : State) (f : MemF), s.clears (.red f) = true → s.Completes (.red f) (fun s1 r t =>
    let n := atomBytes f.sz.toNat
    let op := f.mod.toNat % 16
    let value (u : Nat) : Nat := (r.b u).toNat % 2 ^ (8 * n)
    (r.act = 0 → r.Completed s1 t noWrites none)
    ∧ (r.act ≠ 0 → r.accesses s1 t f.att.toNat ⟨wantAtomic (some r.i.w.pkr), true, r.window f⟩ (r.memReqs f n (lanesOf r.act))
        (fun i l =>
          let ok : Prop := r.Accessed s1 t l noWrites none r.i.w.locks (placesOf l)
            ∧ ((∀ q ∈ l, redBuffered f q = false) → s1.sound l → ∀ p, placesOf l p →
                t.byteAt p = (rmwFold (fun u a => some (atomOp op f.sz.toNat a (value u)).1) s1.byteAt l).2 p)
            ∧ (∀ q pa nc x, l = [q] → redBuffered f q = true → q.parts = [(.phys pa nc, n)] → q.xs = [x] → s1.sound l →
                (∀ p, placesOf l p → t.byteAt p = s1.byteAt p)
                ∧ ((∀ e ∈ s1.redbuf, e.core ≠ r.i.g.core) →
                    ∃ l0, (∀ e ∈ l0, e ∈ s1.redbuf) ∧ t.redbuf = l0 ++ [⟨r.i.g.core, pa, op, f.sz.toNat,
                      BitVec.ofNat 64 (value q.req.lane), f.scope.toNat, [r.i.g.id], s1.rootOfGroup r.i.g⟩]))
          (ok ∨ ∃ q ∈ l, r.Poisoned s1 t i l (readyLanes l) q.req.ptr) ∧ (s1.sound l → ok)))))
  ∧ (∀ (s : State) (core gid root pa op ty scope v : Nat) (a b : List RedEntry) (e : RedEntry), s.redbuf = a ++ e :: b →
      e.core = core → e.pa = pa → e.op = op → e.ty = ty → (∀ x ∈ a ++ b, x.core ≠ core) →
      (s.redEnter core gid root pa op ty scope v).redbuf = a ++ { e with
        val := BitVec.ofNat 64 (atomOp op ty e.val.toNat v).1, scope := max e.scope scope,
        gids := if gid ∈ e.gids then e.gids else e.gids ++ [gid] } :: b)
  ∧ (∀ (s : State) (e : RedEntry), e.ty < 4 → s.unreachable e.pa = false →
      let n := atomBytes e.ty
      e ∉ (s.mergeEntry e).redbuf
      ∧ (s.mergeEntry e).peekN e.pa n = (atomOp e.op e.ty (s.peekN e.pa n) e.val.toNat).1
      ∧ ∀ a, (a < e.pa ∨ e.pa + n ≤ a) → tget 0 (s.mergeEntry e).mem a = tget 0 s.mem a)

/-- R58, R59, R63, R140, R230 to R232: a releasing FENCE merges the core's reductions of its scope, an acquiring one discards
the core's unregistered copies, or waits for that in the RIE; PREF and CCTL change no result and never trap: `.ivl1` and
`.ivline` discard copies, `.ivconst` empties the core's constant cache. None writes a register or stores. R83, R345: PREF and
CCTL wait unchanged while a line of theirs, or its walk, lies on a page that is being flipped. -/
def Obligations.FencesAndCacheOperationsChangeNoResult : Prop :=
  let kept (s1 t : State) (r : Rdy) : Prop := r.Accessed s1 t [] noWrites none r.i.w.locks (fun _ => False)
  let onLines (s1 t : State) (r : Rdy) (k : Prop) : Prop := (∀ page, (r.lines s1).2.1 = some page → t = r.i.awaitFlip s1 page)
    ∧ ((r.lines s1).2.1 = none → k) ∧ (s1.flips = [] → (r.lines s1).2.1 = none)
  (∀ (s : State) (f : FenceF), s.clears (.fence f) = true → s.Completes (.fence f) (fun s1 r t =>
    (r.act = 0 → r.Completed s1 t noWrites none)
    ∧ (r.act ≠ 0 → kept s1 t r
        ∧ (f.kind ≠ 1 → ∀ e ∈ t.redbuf, e.core = r.i.g.core → f.scope.toNat < e.scope)
        ∧ (f.kind = 1 → t.redbuf = s1.redbuf ∧ t.mem = s1.mem)
        ∧ (f.kind ≠ 2 → r.i.w.inRie = false → ∀ k, thas t.l1 (l1Key r.i.g.core (4 * k)) = true → 2 ^ 50 ≤ k)
        ∧ (f.kind ≠ 2 → r.i.w.inRie = true → ∀ w', t.warp? r.i.g.id r.i.w.idx = some w' → w'.acq = true))))
  ∧ (∀ (s : State) (f : LineF), s.clears (.pref f) = true → s.Completes (.pref f) (fun s1 r t => onLines s1 t r (kept s1 t r)))
  ∧ (∀ (s : State) (f : LineF), s.clears (.cctlIvl1 f) = true → s.Completes (.cctlIvl1 f) (fun s1 r t => kept s1 t r
      ∧ (r.act ≠ 0 → ∀ k, thas t.l1 (l1Key r.i.g.core (4 * k)) = true → 2 ^ 50 ≤ k)))
  ∧ (∀ (s : State) (f : LineF), s.clears (.cctlIvline f) = true → s.Completes (.cctlIvline f) (fun s1 r t => onLines s1 t r (kept s1 t r
      ∧ ∀ u e x, laneIn r.act u = true → (r.a u).toNat < 2 ^ 56 → s1.tlb.find? (fun e => e.covers (r.i.mmu s1) (r.a u).toNat) = some e →
          s1.leafCheck (r.i.mmu s1) (wantLoad (some r.i.w.pkr)) (r.a u).toNat e.leaf e.level e.pteAt = .ok x → staleAd e.leaf false = false →
          (∀ v, laneIn r.act v = true → v < u → 2 ^ 56 ≤ (r.a v).toNat) →
          ∀ k, k < 32 → thas t.l1 (l1Key r.i.g.core (x.pa / 128 * 128 + 4 * k)) = false)))
  ∧ (∀ (s : State) (f : LineF), s.clears (.cctlIvconst f) = true → s.Completes (.cctlIvconst f) (fun s1 r t =>
      let s2 : State := if r.act = 0 then s1 else
        { s1 with ccache := s1.ccache.filter (fun e => e.1 / 2 ^ 62 != r.i.g.core) }
      r.Completed (r.Long s2 r.e.att) t noWrites none))
  ∧ (∀ (s : State) (f : LineF), s.clears (.cctlEvl2 f) = true → s.Completes (.cctlEvl2 f) (fun s1 r t => onLines s1 t r (kept s1 t r)))

/-! ## Jobs, tasks, barriers and queues (R233 to R254, R287 to R293) -/

/-- R233 to R235, R287, R288, R293: ACOPY, EJOB and SPAWN check their addresses in order, then issue one copy job, one
job with the card they read, or one task with the descriptor and window table they read; SPAWN traps at depth 7 and on a
bad descriptor. With no lane active nothing is issued. Where the manual is silent or open, the model's choice: log 23,
36. -/
def Obligations.JobsAndTasksAreIssued : Prop :=
  (∀ (s : State) (f : CopyF), s.clears (.acopy f) = true → s.Completes (.acopy f) (fun s1 r t =>
    let dst := (r.a r.low).toNat
    let src := (r.b r.low).toNat
    let len := ((r.c r.low).extractLsb' 0 32).toNat
    let bad (p : Nat) : Prop := s1.locate r.i.g r.i.w.idx r.low p len = .bad
      ∨ ∃ g w l o, s1.locate r.i.g r.i.w.idx r.low p len = .place (.priv g w l o)
    (r.act = 0 → r.Completed s1 t noWrites none)
    ∧ (r.act ≠ 0 → bad dst → r.Traps s1 t 0x05 r.act dst)
    ∧ (r.act ≠ 0 → ¬ bad dst → bad src → r.Traps s1 t 0x05 r.act src)
    ∧ (r.act ≠ 0 → ¬ bad dst → ¬ bad src →
        (dst % 16 ≠ 0 → r.Traps s1 t 0x04 r.act dst) ∧ (dst % 16 = 0 → src % 16 ≠ 0 → r.Traps s1 t 0x04 r.act src)
        ∧ (dst % 16 = 0 → src % 16 = 0 →
            let fits : Prop := len % 16 = 0 ∧ 16 ≤ len ∧ len ≤ 2 ^ 20
            (¬ fits → r.Traps s1 t 0x17 r.act len)
            ∧ (fits → r.IssuesJob s1 t [] 0 f.d.toNat f.att.toNat (BitVec.ofNat 2048 (src + dst * 2 ^ 64 + len * 2 ^ 128)))))))
  ∧ (∀ (s : State) (f : SysF), s.clears (.ejob f) = true → s.Completes (.ejob f) (fun s1 r t =>
    let ptr := (r.a r.low).toNat
    let bad : Prop := (ptr / 2 ^ 56 ≠ 0 ∧ ptr / 2 ^ 56 ≠ 0xF0) ∨ s1.locate r.i.g r.i.w.idx r.low ptr 256 = .bad
    (r.act = 0 → r.Completed s1 t noWrites none)
    ∧ (r.act ≠ 0 → bad → r.Traps s1 t 0x05 r.act ptr)
    ∧ (r.act ≠ 0 → ¬ bad → ptr % 64 ≠ 0 → r.Traps s1 t 0x04 r.act ptr)
    ∧ (r.act ≠ 0 → ¬ bad → ptr % 64 = 0 → ∀ q, r.Reads s1 (wantLoad (some r.i.w.pkr)) ptr 256 q →
        r.IssuesJob s1 t [q] (q.valueIn s1.byteAt % 16) f.d.toNat f.att.toNat (BitVec.ofNat 2048 (q.valueIn s1.byteAt)))))
  ∧ (∀ (s : State) (f : SysF), s.clears (.spawn f) = true → s.Completes (.spawn f) (fun s1 r t =>
    let ptr := (r.a r.low).toNat
    (r.act = 0 → r.Completed s1 t noWrites none)
    ∧ (r.act ≠ 0 → (ptr / 2 ^ 56 ≠ 0 ∨ 2 ^ 56 < ptr + 128) → r.Traps s1 t 0x05 r.act ptr)
    ∧ (r.act ≠ 0 → ptr / 2 ^ 56 = 0 → ptr + 128 ≤ 2 ^ 56 → ptr % 64 ≠ 0 → r.Traps s1 t 0x04 r.act ptr)
    ∧ (r.act ≠ 0 → ptr / 2 ^ 56 = 0 → ptr + 128 ≤ 2 ^ 56 → ptr % 64 = 0 → ∀ q d, r.Reads s1 (wantLoad (some r.i.w.pkr)) ptr 128 q →
        s1.grid? r.i.g.grid = some d →
        let p : BitVec 1024 := BitVec.ofNat 1024 (q.valueIn s1.byteAt)
        let cwt := (p.extractLsb' 128 64).toNat
        let out (l : List Ready) (wins : BitVec 1024) : Prop :=
          let trap (c v : Nat) : Prop := ∃ s', (∀ p, s1.steady l p → s'.byteAt p = s1.byteAt p) ∧ t = r.i.fault s' c r.word r.act v
          (7 ≤ d.depth → trap 0x11 7)
          ∧ (d.depth < 7 → taskBad s1.pkg (d.pkt.getLsbD 574) p wins = true → trap 0x12 (7 * 2 ^ 24 + ptr % 2 ^ 24))
          ∧ (d.depth < 7 → taskBad s1.pkg (d.pkt.getLsbD 574) p wins = false →
              r.Accessed s1 t l noWrites none r.i.w.locks (fun _ => False)
              ∧ ∃ k ∈ t.tasks, k.pkt = p ∧ k.wins = wins ∧ k.ctx = d.ctx ∧ k.depth = d.depth + 1 ∧ k.root = d.root ∧ k.maxp = d.maxp
                ∧ k.watch = none ∧ k.accepted = false ∧ k.die = dieOf r.i.g.core
                ∧ ∃ w', t.warp? r.i.g.id r.i.w.idx = some w' ∧ ∃ o ∈ w'.outst, o.kind = .task k.id ∧ o.flag = r.i.flagOf f.att.toNat)
        (cwt = 0 ∨ cwt % 64 ≠ 0 → out [q] 0)
        ∧ (cwt ≠ 0 → cwt % 64 = 0 → cwt < 2 ^ 56 → ∀ q', r.Reads s1 (wantLoad (some r.i.w.pkr)) cwt 128 q' → s1.sound [q, q'] →
            out [q, q'] (BitVec.ofNat 1024 (q'.valueIn s1.byteAt))))))

/-- R236 to R239: BAR arrives with its active lanes, which wait after their clause for as many warps as the phase
expects, and traps on a count that is not its phase's; a full phase lets its arrived warps go on and starts the next.
BAR `.grid` arrives at the barrier after those completed, or at the next one while a release runs, and waits for every lane of every
group of a cooperative grid; the package then tells the others, and when it can, lets the groups of eight clusters at a time go on, each
window 64 cluster cycles after the last; none completes while its share is saved (R391). Where the manual is silent or open, the
model's choice: log 25. -/
def Obligations.BarriersHoldTheirArrivals : Prop :=
  (∀ (s : State) (f : BarF), s.clears (.bar f) = true → s.Completes (.bar f) (fun s1 r t =>
    let n := f.no.toNat
    let c := ((r.a r.low).extractLsb' 0 32).toNat
    let wrong : Prop := f.cnt = true ∧ (c = 0 ∨ r.i.g.warps.length < c ∨ ∃ e, r.i.g.expect (r.i.g.nbar n) = some e ∧ e ≠ c)
    (r.act = 0 → r.Completed s1 t noWrites none)
    ∧ (r.act ≠ 0 → wrong → r.Traps s1 t 0x01 r.act c)
    ∧ (r.act ≠ 0 → ¬ wrong → ∃ s2 : State,
        r.Leaves (s1.mergeRelease r.i.g.core 2) s2 noWrites (r.split (fun _ => { r.fall with st := .bar n }))
        ∧ t = s2.updGroup r.i.g.id (fun g => (g.arrive n r.i.w.idx r.act (if f.cnt then some c else none)).tryBar n))))
  ∧ (∀ (g : Group) (n w : Nat) (m : Mask) (count : Option Nat),
      ((g.arrive n w m count).nbar n).phase = (g.nbar n).phase
      ∧ (∀ k, tget 0 ((g.arrive n w m count).nbar n).arrived k = tget 0 (g.nbar n).arrived k ||| (if k = w then m else 0))
      ∧ ((g.nbar n).expect = none → ((g.arrive n w m count).nbar n).expect = some (count.getD g.liveWarps.length))
      ∧ (∀ e, (g.nbar n).expect = some e → ((g.arrive n w m count).nbar n).expect = some e)
      ∧ (∀ k, k ≠ n → (g.arrive n w m count).nbar k = g.nbar k) ∧ (g.arrive n w m count).warps = g.warps)
  ∧ (∀ (g : Group) (n e : Nat), g.expect (g.nbar n) = some e →
      let here (w : Warp) : Bool := w.live != 0 && w.live &&& ~~~(tget 0 (g.nbar n).arrived w.idx) == 0
      ((g.warps.filter here).length < e → g.tryBar n = g)
      ∧ ((∀ a b, a ∈ g.warps → b ∈ g.warps → a.idx = b.idx → a = b) → e ≤ (g.warps.filter here).length →
          ((g.tryBar n).nbar n).phase = (g.nbar n).phase + 1 ∧ ((g.tryBar n).nbar n).expect = none
          ∧ (∀ k, k ≠ n → (g.tryBar n).nbar k = g.nbar k)
          ∧ (g.tryBar n).warps = g.warps.map (fun w => if here w then
              { w with subs := w.subs.map (fun u => if u.st = .bar n then { u with st := .ready } else u) } else w)))
  ∧ (∀ (s : State) (f : BarF), s.clears (.barGrid f) = true → s.Completes (.barGrid f) (fun s1 r t =>
    let coop : Prop := (s1.pktOf r.i.g).getLsbD 573 = true
    let alone : Prop := ∀ k, k < 64 → k ≠ s1.pkg → (s1.pktOf r.i.g).getLsbD (256 + k) = false
    (r.act = 0 → r.Completed s1 t noWrites none)
    ∧ (r.act ≠ 0 → ¬ coop → r.Traps s1 t 0x01 r.act 0)
    ∧ (r.act ≠ 0 → coop → ∃ n scope, (alone → scope = 5) ∧ (¬ alone → scope = 6)
        ∧ (∀ d, s1.grid? r.i.g.grid = some d → n = d.gbDone + if d.gbNext = none then 0 else 1)
        ∧ r.Leaves (s1.mergeRelease r.i.g.core scope) t noWrites (r.split (fun _ => { r.fall with st := .gridBar n })))))
  ∧ (∀ (s : State) (grid : Nat) (d : Grid), s.grid? grid = some d → (s.gridArrived grid = true ↔ d.gbNext = none
      ∧ (∀ g ∈ s.groups, g.grid = grid → g.ended = false → ∀ w ∈ g.warps, ∀ l, l < 32 → laneIn w.live l = true →
          ∃ u ∈ w.subs, u.st = .gridBar d.gbDone ∧ laneIn u.lanes l = true)
      ∧ ∃ g ∈ s.groups, g.grid = grid ∧ g.ended = false ∧ ∃ w ∈ g.warps, ∃ u ∈ w.subs, u.st = .gridBar d.gbDone))
  ∧ (∀ (s : State) (grid : Nat), ∃ t, exec (.gridBarrierRelease grid) s = .next t ∧ t.mem = s.mem
      ∧ (s.grid? grid = none → t = s)
      ∧ (∀ d, s.grid? grid = some d →
          let saved : Prop := ∃ im, (s.ctx d.ctx).image = some im ∧ ∃ g ∈ im.groups, g.grid = d.id
          let opens : Prop := ¬ saved ∧ match d.gbNext with
            | none => s.gridArrived grid = true
            | some x => x.1 + (256 * x.2 + 6) / 7 ≤ s.timer
          let other (k : Nat) : Prop := k < 64 ∧ k ≠ s.pkg ∧ d.pkt.getLsbD (256 + k) = true
          let tells : Prop := d.gbNext = none ∧ d.gbSent = false ∧ ∃ k, other k
          let held (k : Nat) : Prop := k < 96 ∧ ∃ g ∈ s.groups, g.grid = grid ∧ g.ended = false
            ∧ clusterOf g.core = (d.gen.toNat + d.gbDone + k) % 96 ∧ ∃ w ∈ g.warps, ∃ u ∈ w.subs, u.st = .gridBar d.gbDone
          let turn (k : Nat) : Prop := held k ∧ ∀ l : List Nat, l.Nodup → (∀ x ∈ l, x < k ∧ held x) → l.length < 8
          let goes (g : Group) : Prop := g.grid = grid ∧ g.ended = false ∧ ∃ k, turn k ∧ clusterOf g.core = (d.gen.toNat + d.gbDone + k) % 96
          (¬ opens → t = s)
          ∧ (opens → tells → t = { s with out := t.out, grids := t.grids } ∧ t.grid? grid = some { d with gbSent := true }
              ∧ ∀ k, other k → .gridArrive k d.ctx d.gen ∈ t.out)
          ∧ (opens → ¬ tells → t = { s with groups := t.groups, l1 := t.l1, grids := t.grids } ∧ t.groups.length = s.groups.length
              ∧ ((∀ k, held k → turn k) → t.grid? grid = some { d with gbNext := none, gbDone := d.gbDone + 1, gbSent := false })
              ∧ ((∃ k, held k ∧ ¬ turn k) → t.grid? grid = some
                  { d with gbNext := some ((d.gbNext.getD (s.timer, 0)).1, (d.gbNext.getD (s.timer, 0)).2 + 1) })
              ∧ ∀ (i : Nat) (g : Group), s.groups[i]? = some g →
                  (goes g → t.groups[i]? = some { g with warps := g.warps.map (fun w =>
                    { w with subs := w.subs.map (fun u => if u.st = .gridBar d.gbDone then { u with st := .ready } else u) }) })
                  ∧ (¬ goes g → t.groups[i]? = some g))))

/-- R240 to R242: SYNCSET tags an object with its expected count, SYNCHIT gives the phase and counts its arrivals one by
one, SYNCHOLD goes on or waits for a later phase, and SYNCDROP removes the tag; each checks the pointer and the tag.
Where the manual is silent or open, the model's choice: log 20, 107. -/
def Obligations.BarrierObjectsCountPhases : Prop :=
  let bad (s1 t : State) (r : Rdy) : Prop :=
    let ptr := (r.a r.low).toNat
    (r.act = 0 → r.Completed s1 t noWrites (r.e.push.map (fun n => (n, 0))))
    ∧ (r.act ≠ 0 → s1.objPlace r.i ptr = none → r.Traps s1 t 0x05 r.act ptr)
    ∧ (r.act ≠ 0 → s1.objPlace r.i ptr ≠ none → ptr % 16 ≠ 0 → r.Traps s1 t 0x04 r.act ptr)
  let good (s1 : State) (r : Rdy) (gid off : Nat) : Prop :=
    r.act ≠ 0 ∧ s1.objPlace r.i (r.a r.low).toNat = some (gid, off) ∧ (r.a r.low).toNat % 16 = 0
  let at_ (gid off : Nat) (p : Place) : Prop := ∃ k, k < 16 ∧ p = .scr gid (off + k)
  let val (r : Rdy) : Nat := (r.a r.low).toNat % 2 ^ 56
  let n (r : Rdy) : Nat := ((r.b r.low).extractLsb' 0 32).toNat
  (∀ (s : State) (f : SyncF), s.clears (.syncset f) = true → s.Completes (.syncset f) (fun s1 r t => bad s1 t r
    ∧ ∀ gid off, good s1 r gid off →
      (s1.isObj gid off = true → r.Traps s1 t 0x0E r.act (r.a r.low).toNat)
      ∧ (s1.isObj gid off = false → (n r = 0 ∨ 65535 < n r) → r.Traps s1 t 0x01 r.act (n r))
      ∧ (s1.isObj gid off = false → 0 < n r → n r ≤ 65535 → t.isObj gid off = true ∧ t.barObj gid off = ⟨n r, n r, 0⟩
          ∧ ∀ g, s1.group? gid = some g → r.Accessed s1 (t.updGroup gid (fun (x : Group) => { x with tags := g.tags, hits := g.hits })) []
              noWrites none r.i.w.locks (at_ gid off))))
  ∧ (∀ (s : State) (f : SyncF), s.clears (.synchit f) = true → s.Completes (.synchit f) (fun s1 r t => bad s1 t r
    ∧ ∀ gid off, good s1 r gid off →
      (s1.isObj gid off = false → r.Traps s1 t 0x01 r.act (val r))
      ∧ (s1.isObj gid off = true → n r = 0 → r.Traps s1 t 0x01 r.act 0)
      ∧ (s1.isObj gid off = true → n r ≠ 0 → t.barObj gid off = (s1.barObj gid off).hit (n r)
          ∧ (∀ p, ¬ at_ gid off p → s1.steady [] p → t.byteAt p = s1.byteAt p)
          ∧ (∃ w', t.warp? r.i.g.id r.i.w.idx = some w' ∧ (∀ k l, w'.readV k l = r.i.w.readV k l) ∧ w'.preds = r.i.w.preds
              ∧ ∀ k, w'.readS k = if k = f.d.toNat ∧ k < 64 then BitVec.ofNat 32 (s1.barObj gid off).phase else r.i.w.readS k)
          ∧ ∀ g w x, s1.warp? g w = some x → (g, w) ≠ (r.i.g.id, r.i.w.idx) → t.warp? g w = some { x with subs := x.subs.map (fun u =>
              if (match u.st with
                | .syncHold g' o p _ _ =>
                  let k := (BitVec.ofNat 32 (t.barObj gid off).phase - p).toNat
                  g' == gid && o == off && decide (1 ≤ k ∧ k < 2 ^ 31)
                | _ => false) then goOn u else u) })))
  ∧ (∀ (s : State) (f : SyncF), s.clears (.synchold f) = true → s.Completes (.synchold f) (fun s1 r t => bad s1 t r
    ∧ ∀ gid off, good s1 r gid off →
      let p : Word := (r.b r.low).extractLsb' 0 32
      let k := (BitVec.ofNat 32 (s1.barObj gid off).phase - p).toNat
      (s1.isObj gid off = false → r.Traps s1 t 0x01 r.act (val r))
      ∧ (s1.isObj gid off = true → 1 ≤ k → k < 2 ^ 31 → r.Completed (s1.dropL1 r.i.g.core) t noWrites none)
      ∧ (s1.isObj gid off = true → (k = 0 ∨ 2 ^ 31 ≤ k) → r.Leaves s1 t noWrites (r.split (fun _ =>
          ⟨r.i.u.pc, some r.i.c.head, .syncHold gid off p r.word (val r)⟩)))))
  ∧ (∀ (s : State) (f : SyncF), s.clears (.syncdrop f) = true → s.Completes (.syncdrop f) (fun s1 r t => bad s1 t r
    ∧ ∀ gid off, good s1 r gid off →
      (s1.isObj gid off = false → r.Traps s1 t 0x01 r.act (val r))
      ∧ (s1.isObj gid off = true → t.isObj gid off = false ∧ (∀ p, t.byteAt p = s1.byteAt p)
          ∧ ∀ g w x, s1.warp? g w = some x → (g, w) ≠ (r.i.g.id, r.i.w.idx) → ∃ x', t.warp? g w = some x' ∧ x' = { x with subs := x'.subs }
              ∧ ∀ u ∈ x.subs, (∃ p word v, u.st = .syncHold gid off p word v ∧ ∃ u' ∈ x'.subs, u'.id = u.id ∧ u'.st = .ready
                  ∧ u'.pend = some ⟨0x01, u.pc, BitVec.ofNat 64 word, u.lanes, BitVec.ofNat 64 v, u.mid⟩)
                ∨ ((∀ p word v, u.st ≠ .syncHold gid off p word v) ∧ u ∈ x'.subs))))
  ∧ (∀ (o : BarObj) (k : Nat), 1 ≤ o.pending → o.pending ≤ o.expect → o.phase < 2 ^ 32 →
      o.hit 0 = o ∧ o.hit (k + 1) = (let x := o.hit k
        if x.pending = 1 then { x with pending := x.expect, phase := (x.phase + 1) % 2 ^ 32 } else { x with pending := x.pending - 1 }))

/-- R243 to R245: FPUT stores FULL and its VALUE in one step and lets the sub-groups go on whose futures are now all full;
FWAIT gives each lane the VALUE of its full future, or holds the lanes at its word, with a wait in the home slice's table, which a
poll ends once the futures are full whoever wrote them, or a poll that backs off from 64 to 4096 cycles. R83: a poll waits while
a future's page is being flipped. Where the manual is silent or open, the model's choice: log 108. -/
def Obligations.FuturesWaitForTheirWords : Prop :=
  (∀ (s : State) (f : SyncF), s.clears (.fput f) = true → s.Completes (.fput f) (fun s1 r t =>
    let ptr := (r.a r.low).toNat
    let v := ((r.b r.low).extractLsb' 0 32).toNat + 2 ^ 63
    (r.act = 0 → r.Completed s1 t noWrites none)
    ∧ (r.act ≠ 0 → ptr / 2 ^ 56 ≠ 0 → r.Traps s1 t 0x05 r.act ptr)
    ∧ (r.act ≠ 0 → ptr / 2 ^ 56 = 0 → r.accesses s1 t f.att.toNat ⟨wantStore (some r.i.w.pkr), true, none⟩ [⟨r.low, ptr, 8⟩] (fun _ l =>
        (∀ q ∈ l, ∀ k p, q.places[k]? = some p → s1.steady l p → t.byteAt p = BitVec.ofNat 8 (v / 256 ^ k))
        ∧ ((∀ w ∈ s1.waits, ∀ q ∈ l, ∀ x ∈ q.xs, w.pa ≠ x.pa) → r.Accessed s1 t l noWrites none r.i.w.locks (placesOf l))
        ∧ (∀ w ∈ s1.waits, ∀ q ∈ l, ∀ x ∈ q.xs, w.pa = x.pa → (w.gid, w.warp) ≠ (r.i.g.id, r.i.w.idx) →
            ∀ u d ls b n, s1.sub? w.gid w.warp w.sub = some u → u.st = .fwait d ls b n →
              (∀ y ∈ ls, s1.flipAt y.2.1 = none ∧ t.full y.2.1 = true ∧ poisonedIn t.memPoison y.2.1 8 = false) →
                t.sub? w.gid w.warp w.sub = some (goOn u))))))
  ∧ (∀ (s : State) (f : SyncF), s.clears (.fwait f) = true → s.Completes (.fwait f) (fun s1 r t =>
    let reqs := (lanesOf r.act).map (fun u => (⟨u, (r.a u).toNat, 8⟩ : Req))
    (r.act = 0 → r.Completed s1 t noWrites none)
    ∧ (∀ a q b, reqs = a ++ q :: b → (∀ x ∈ a, x.ptr / 2 ^ 56 = 0) → q.ptr / 2 ^ 56 ≠ 0 → r.Traps s1 t 0x05 r.act q.ptr)
    ∧ (r.act ≠ 0 → (∀ q ∈ reqs, q.ptr / 2 ^ 56 = 0) →
        r.accesses s1 t 0 ⟨wantLoad (some r.i.w.pkr), true, none⟩ reqs (fun _ l => s1.sound l →
          ((∀ q ∈ l, 2 ^ 63 ≤ q.valueIn s1.byteAt) → ∃ v : Nat → Nat,
              r.Accessed s1 t l (runV f.d.toNat 1 (readyLanes l) v) none r.i.w.locks (fun _ => False)
              ∧ ∀ q ∈ l, v q.req.lane = q.valueIn s1.byteAt)
          ∧ ((∃ q ∈ l, q.valueIn s1.byteAt < 2 ^ 63) →
              r.Accessed s1 { t with waits := s1.waits } l noWrites none r.i.w.locks (fun _ => False)
              ∧ ∃ w' u ls b n, t.warp? r.i.g.id r.i.w.idx = some w' ∧ u ∈ w'.subs ∧ u.lanes = readyLanes l ∧ u.pc = r.i.u.pc
                ∧ u.mid = some r.i.c.head ∧ u.run = none ∧ u.st = .fwait f.d.toNat ls b n
                ∧ (∀ e, e ∈ ls ↔ ∃ q ∈ l, ∃ nc, q.parts = [(.phys e.2.1 nc, 8)] ∧ e.1 = q.req.lane ∧ e.2.2 = q.req.ptr)
                ∧ ((b = 0 ∧ ∃ v ∈ w'.subs, laneIn v.lanes (lowLane (readyLanes l)) = true ∧ ∃ new, t.waits = s1.waits ++ new
                      ∧ ∀ x, x ∈ new ↔ ∃ e ∈ ls, x = ⟨e.2.1, r.i.g.id, r.i.w.idx, v.id⟩)
                  ∨ (b = 64 ∧ n = s1.timer + 37 ∧ t.waits = s1.waits))
                ∧ ((∀ e ∈ ls, isOwn e.2.1 = true) → s1.waits.length + 32 ≤ 4096 → b = 0))))))
  ∧ (∀ (s : State) (gid w sub : Nat), ∃ t, exec (.fwaitPoll gid w sub) s = .next t
      ∧ (∀ u d ls b n, s.sub? gid w sub = some u → u.st = .fwait d ls b n → (∀ e ∈ ls, s.flipAt e.2.1 = none) →
          (b ≠ 0 → n ≤ s.timer →
            let m := ls.foldl (fun (s : State) x => s.mergeAt x.2.1 8) s
            t.mem = m.mem ∧ ((∀ e ∈ ls, poisonedIn m.memPoison e.2.1 8 = false) →
              ((∀ e ∈ ls, m.full e.2.1 = true) → t.sub? gid w sub = some (goOn u)
                ∧ ((ls.map (fun e => e.1)).Nodup → d ≠ 255 → ∀ w', t.warp? gid w = some w' → ∀ e ∈ ls, e.1 < 32 →
                    w'.readV d e.1 = BitVec.ofNat 32 (m.peekN e.2.1 4)))
              ∧ ((∃ e ∈ ls, m.full e.2.1 = false) →
                  let b' := min (2 * b) 4096
                  t.sub? gid w sub = some { u with st := .fwait d ls b' (s.timer + (4 * b' + 6) / 7) })))
          ∧ (b = 0 → t.mem = s.mem ∧ ((∀ e ∈ ls, poisonedIn s.memPoison e.2.1 8 = false) →
              ((∀ e ∈ ls, s.full e.2.1 = true) → t.sub? gid w sub = some (goOn u)
                ∧ ((ls.map (fun e => e.1)).Nodup → d ≠ 255 → ∀ w', t.warp? gid w = some w' → ∀ e ∈ ls, e.1 < 32 →
                    w'.readV d e.1 = BitVec.ofNat 32 (s.peekN e.2.1 4)))
              ∧ ((∃ e ∈ ls, s.full e.2.1 = false) → t = s))))
      ∧ ((∀ u d ls b n, s.sub? gid w sub = some u → u.st = .fwait d ls b n →
          (∃ e ∈ ls, s.flipAt e.2.1 ≠ none) ∨ (b ≠ 0 ∧ s.timer < n)) → t = s))

/-- R246, R247: WATCH reads its record and registers it in the lowest free entry of its range's home slice, whose handle
it gives, or gives the reason for which it did not; `.clr` removes an entry of the context. R249, R250: DISP takes, in
one step, as many indices as the object's shares, MIN, MAX and REMAIN allow, and gives the start and the size; an object
that is not well formed gives all ones and 0, and one with nothing left NEXT and 0. Where the manual is silent or open,
the model's choice: log 34. -/
def Obligations.WatchesAndTheDispenser : Prop :=
  ((∀ (s : State) (f : ObjF), s.clears (.watch f) = true → s.Completes (.watch f) (fun s1 r t =>
    let ptr := (r.a r.low).toNat
    (r.act = 0 → r.Completed s1 t noWrites (r.e.push.map (fun n => (n, 0))))
    ∧ (r.act ≠ 0 → ptr / 2 ^ 56 ≠ 0 → r.Traps s1 t 0x05 r.act ptr)
    ∧ (r.act ≠ 0 → ptr / 2 ^ 56 = 0 → ptr % 32 ≠ 0 → r.Traps s1 t 0x04 r.act ptr)
    ∧ (r.act ≠ 0 → ptr / 2 ^ 56 = 0 → ptr % 32 = 0 → ∀ q, r.Reads s1 (wantLoad (some r.i.w.pkr)) ptr 32 q →
        let rec_ : BitVec 256 := BitVec.ofNat 256 (q.valueIn s1.byteAt)
        let base := (rec_.extractLsb' 0 64).toNat
        let len := (rec_.extractLsb' 64 32).toNat
        let malformed : Prop := rec_.extractLsb' 161 31 ≠ 0 ∨ len % 4 ≠ 0 ∨ len < 4 ∨ 4096 < len ∨ base % 4 ≠ 0 ∨ 2 ^ 56 ≤ base
          ∨ base / 4096 ≠ (base + len - 1) / 4096
        let gives (v : Nat) : Prop := r.Accessed s1 { t with watches := s1.watches } [q]
          (if 64 ≤ f.d.toNat then noWrites else runS f.d.toNat 1 (fun _ => BitVec.ofNat 32 v))
          (if 64 ≤ f.d.toNat then some (f.d.toNat - 80, if laneIn r.act 0 then BitVec.ofNat 32 v else 0) else none) r.i.w.locks (fun _ => False)
        let fails (why : Nat) : Prop := gives (2 ^ 31 + why * 2 ^ 28) ∧ t.watches = s1.watches
        (malformed → fails 2)
        ∧ (¬ malformed → ∀ e, s1.tlb.find? (fun e => e.covers (r.i.mmu s1) base) = some e →
            let c := s1.leafCheck (r.i.mmu s1) (wantLoad (some r.i.w.pkr)) base e.leaf e.level e.pteAt
            (c = .prot → fails 3)
            ∧ ∀ x, c = .ok x → staleAd e.leaf false = false →
              let h (k : Nat) : Nat := 64 * homeSlice x.pa + k
              (isOwn x.pa = false → fails 5)
              ∧ (isOwn x.pa = true → (∀ k, k < 64 → ∃ w ∈ s1.watches, w.handle = h k) → fails 1)
              ∧ (∀ k, isOwn x.pa = true → k < 64 → (∀ w ∈ s1.watches, w.handle ≠ h k) → (∀ j, j < k → ∃ w ∈ s1.watches, w.handle = h j) →
                  gives (h k) ∧ ∃ w, t.watches = s1.watches ++ [w] ∧ w.handle = h k ∧ w.ctx = s1.ctxOf r.i.g ∧ w.pa = x.pa ∧ w.len = len
                    ∧ w.mask = rec_.extractLsb' 96 32 ∧ w.pat = rec_.extractLsb' 128 32 ∧ w.persist = rec_.getLsbD 160
                    ∧ w.task = rec_.extractLsb' 192 64 ∧ w.pending = none)))))
  ∧ (∀ (s : State) (f : ObjF), s.clears (.watchClr f) = true → s.Completes (.watchClr f) (fun s1 r t =>
    let h := ((r.b r.low).extractLsb' 0 32).toNat
    let own : Prop := ∃ w ∈ s1.watches, w.handle = h ∧ w.ctx = s1.ctxOf r.i.g
    let gives (s2 : State) (v : Nat) : Prop := r.scaDone (r.Long s2 f.att.toNat) t f.d.toNat false (BitVec.ofNat 64 v)
    (r.act = 0 → r.Completed s1 t noWrites (r.e.push.map (fun n => (n, 0))))
    ∧ (r.act ≠ 0 → own → gives { s1 with watches := s1.watches.filter (fun w => w.handle != h) } h)
    ∧ (r.act ≠ 0 → ¬ own → gives s1 (2 ^ 31 + 4 * 2 ^ 28)))))
  ∧ (∀ (s : State) (f : ObjF), s.clears (.disp f) = true → s.Completes (.disp f) (fun s1 r t =>
    let ptr := (r.a r.low).toNat
    (r.act = 0 → r.Completed s1 t noWrites none)
    ∧ (r.act ≠ 0 → ptr / 2 ^ 56 ≠ 0 → r.Traps s1 t 0x05 r.act ptr)
    ∧ (r.act ≠ 0 → ptr / 2 ^ 56 = 0 → r.accesses s1 t f.att.toNat ⟨wantAtomic (some r.i.w.pkr), true, none⟩ [⟨r.low, ptr, 16⟩] (fun _ l =>
        ∀ q, l = [q] → s1.sound l →
          let o : BitVec 128 := BitVec.ofNat 128 (q.valueIn s1.byteAt)
          let next := (o.extractLsb' 0 32).toNat
          let rem := (o.extractLsb' 32 32).toNat
          let p := (o.extractLsb' 64 32).toNat
          let lo := (o.extractLsb' 96 16).toNat
          let hi := (o.extractLsb' 112 16).toNat
          let c := min (min (max ((rem + 2 * p - 1) / (2 * p)) lo) hi) rem
          let gives (a n : Nat) (put : Place → Prop) : Prop :=
            r.Accessed s1 t l (runS f.d.toNat 2 (fun k => BitVec.ofNat 32 (if k = 0 then a else n))) none r.i.w.locks put
          let formed : Prop := p ≠ 0 ∧ lo ≠ 0 ∧ lo ≤ hi
          (¬ formed → gives (2 ^ 32 - 1) 0 (fun _ => False))
          ∧ (formed → rem = 0 → gives next 0 (fun _ => False))
          ∧ (formed → rem ≠ 0 → gives next c (fun p => p ∈ q.places.take 8)
              ∧ ∀ k p, k < 8 → q.places[k]? = some p →
                  t.byteAt p = BitVec.ofNat 8 (((next + c) % 2 ^ 32 + (rem - c) * 2 ^ 32) / 256 ^ k))))))

/-- R251 to R254: QBIND empties a queue and sets its producers, QEOS ends a warp's production, once, and the queue's
with its last producer, and QSTAT gives the values held, the end, the dry mark and the counts; all whatever their guard.
Where the manual is silent or open, the model's choice: log 11, 90. -/
def Obligations.QueueRegistersBindEndAndReport : Prop :=
  (∀ (s : State) (f : Rk) (n : BitVec 8), f.a = .imm n → s.clears (.qbind f) = true → s.Completes (.qbind f) (fun s1 r t =>
    let p := ((r.b r.low).extractLsb' 0 32).toNat
    ((p = 0 ∨ 32 < p) → r.Traps s1 t 0x01 r.act p)
    ∧ (p ≠ 0 → p ≤ 32 → r.Completed (s1.updGroup r.i.g.id (fun g =>
        let mine := (tget emptyQueue g.queues n.toNat).entries.filter (fun e => e.warp == r.i.w.idx && e.sub == r.i.u.id && e.val.isNone)
        { g with queues := tins g.queues n.toNat ⟨mine, p, [], false, []⟩ })) t noWrites none)))
  ∧ (∀ (s : State) (f : Rk) (n : BitVec 8), f.a = .imm n → s.clears (.qeos f) = true → s.Completes (.qeos f) (fun s1 r t =>
    let q := tget emptyQueue r.i.g.queues n.toNat
    ((q.ended = true ∨ r.i.w.idx ∈ q.eos) → r.Traps s1 t 0x10 r.act n.toNat)
    ∧ (q.ended = false → r.i.w.idx ∉ q.eos → r.Completed ((s1.mergeRelease r.i.g.core 2).updGroup r.i.g.id (fun g =>
        { g with queues := tins g.queues n.toNat { q with eos := q.eos ++ [r.i.w.idx], ended := q.prod ≤ q.eos.length + 1 } }))
        t noWrites none)))
  ∧ (∀ (s : State) (f : Rk) (n : BitVec 8), f.a = .imm n → s.clears (.qstat f) = true → s.Completes (.qstat f) (fun s1 r t =>
    let q := tget emptyQueue r.i.g.queues n.toNat
    let v : Word := BitVec.ofNat 32 ((q.entries.filter (fun e => e.val.isSome && e.after.isEmpty)).length + r.i.g.reservedPops n.toNat
      + (if q.ended then 64 else 0) + (if r.i.w.idx ∈ q.dry then 128 else 0) + 256 * q.eos.length + 16384 * q.prod
      + (if r.i.w.idx ∈ q.eos then 2 ^ 20 else 0))
    if 64 ≤ f.dn then r.Completed s1 t noWrites (some (f.dn - 80, if laneIn r.act 0 then v else 0))
    else r.Completed s1 t (scaWrites f.dn false (v.setWidth 64)) none))
  ∧ (∀ (s : State) (f : Rk), (s.clears (.qbind f) = true ∨ s.clears (.qeos f) = true ∨ s.clears (.qstat f) = true) →
      ∃ n : BitVec 8, f.a = .imm n)

/-! ## Palette forms (R255 to R283) -/

/-- R255 to R267, R270, R272 to R274, R276 to R283: each palette-class form makes its checks in order, with the trap,
reason and detail that its rule names, and is then accepted with its region as it translates, or acts at once (PINV,
PSTAT, AVER, RFENCE, SRLD). Nothing of an accepted operation's work is done when it issues. Where the manual is silent
or open, the model's choice: log 15. -/
def Obligations.PaletteFormsAreCheckedAndAccepted : Prop :=
  let low32 (v : DWord) : Nat := (v.extractLsb' 0 32).toNat
  let ver (v : DWord) : BitVec 16 := v.extractLsb' 0 16
  let range (reason detail : Nat) : Nat := reason * 2 ^ 24 + detail % 2 ^ 24
  let tilesOf (n h : Nat) : List Nat := (List.range ((h + 63) / 64)).map (n + ·)
  let load (r : Rdy) : Want := wantLoad (some r.i.w.pkr)
  let store (r : Rdy) : Want := wantStore (some r.i.w.pkr)
  let idle (s1 t : State) (r : Rdy) : Prop := r.act = 0 → r.Completed s1 t noWrites none
  (∀ (s : State) (f : PalF), s.clears (.pbuild f) = true → s.Completes (.pbuild f) (fun s1 r t =>
    let p := f.p.toNat
    let kb := low32 (r.b r.low)
    let m := if f.mod then low32 (r.c r.low) % 64 else 0
    idle s1 t r
    ∧ (r.act ≠ 0 → r.i.readBefore p = true → r.Traps s1 t 0x01 r.act p)
    ∧ (r.act ≠ 0 → r.i.readBefore p = false → r.OnRecord s1 t (r.a r.low).toNat (fun sh l =>
        r.OnRows s1 t l (r.a r.low).toNat sh 1 [1, 2, 3, 4, 5, 8] false (load r) (fun rows =>
          (shLen sh / 32 ≤ kb → r.TrapsIn s1 t l 0x0B (range 1 kb))
          ∧ (kb < shLen sh / 32 → 2 ^ s1.teamSize r.i.g ≤ m → r.TrapsIn s1 t l 0x0B (range 6 m))
          ∧ (kb < shLen sh / 32 → m < 2 ^ s1.teamSize r.i.g → r.Accepted s1 t l f.att.toNat (.build p sh kb m)
              (rows.map (fun x => subParts x (32 * kb * shapeSize (shFmt sh)) (32 * shapeSize (shFmt sh))))))))))
  ∧ (∀ (s : State) (f : PlookF), s.clears (.plook f) = true → s.Completes (.plook f) (fun s1 r t =>
    let p := f.p.toNat
    let n := f.n.toNat
    let v := ver (r.b r.low)
    idle s1 t r
    ∧ (r.act ≠ 0 → f.rebuild = true → r.i.readBefore p = true → r.Traps s1 t 0x01 r.act p)
    ∧ (r.act ≠ 0 → (f.rebuild = false ∨ r.i.readBefore p = false) → r.OnRecord s1 t (r.a r.low).toNat (fun sh l =>
        r.OnRows s1 t l (r.a r.low).toNat sh 2 [7] false (load r) (fun rows =>
          let x := r.i.g.view p
          let k := if f.all then shPln sh + 1 else f.km.toNat + 1
          let run := tilesOf n x.rows
          let i32 (t : Nat) : Prop := r.i.g.tyAt t v = true
          let trap (c val : Nat) : Prop := r.TrapsIn s1 t l c val
          let usable : Prop := x.has = true ∧ (x.valid = true ∨ (f.rebuild = true ∧ x.can = true))
          (¬ usable → trap 0x0A p)
          ∧ (usable → shLen sh / 32 ≤ x.kb → trap 0x0B (range 1 x.kb))
          ∧ (usable → x.kb < shLen sh / 32 →
              (s1.runOk r.i.g run = false → trap 0x0B (range 2 (n + (x.rows + 63) / 64 - 1)))
              ∧ (s1.runOk r.i.g run = true → 256 < f.col.toNat + shRows sh → trap 0x0B (range 3 (f.col.toNat + shRows sh)))
              ∧ (s1.runOk r.i.g run = true → f.col.toNat + shRows sh ≤ 256 → shPln sh + 1 < k → trap 0x0B (range 4 k))
              ∧ (s1.runOk r.i.g run = true → f.col.toNat + shRows sh ≤ 256 → k ≤ shPln sh + 1 →
                  let mixed : Prop := (∃ a ∈ run, i32 a) ∧ ∃ b ∈ run, ¬ i32 b
                  let badSat : Prop := f.sat = true ∧ ∃ b ∈ run, ¬ i32 b
                  ((mixed ∨ badSat) → trap 0x0B (range 5 n))
                  ∧ (¬ mixed → ¬ badSat → r.Versioned s1 t l f.att.toNat run v
                      (.look p n v sh k f.col.toNat x.rows f.sat f.rebuild) rows))))))))
  ∧ (∀ (s : State) (f : PalF), s.clears (.pinv f) = true → s.Completes (.pinv f) (fun s1 r t =>
    let p := f.p.toNat
    let s2 := s1.updGroup r.i.g.id (fun g => { g with pals := tins g.pals p { tget emptyPal g.pals p with valid := false } })
    let written : Prop := ∃ o ∈ r.i.g.palOps, o.kind.palUse = some (p, true)
    idle s1 t r
    ∧ (r.act ≠ 0 → ¬ written → r.Completed s2 t noWrites none)
    ∧ (r.act ≠ 0 → written → r.Accepted s2 t [] 0 (.inv p) [])))
  ∧ (∀ (s : State) (f : PalF), s.clears (.pstat f) = true → s.Completes (.pstat f) (fun s1 r t =>
    let x := tget emptyPal r.i.g.pals f.p.toNat
    let d := x.desc.getD ⟨0, 0, 1, 0, false, 0, 0⟩
    let v : Word := BitVec.ofNat 16 d.kblk ++ BitVec.ofNat 8 (d.rows - 1) ++ 0#1 ++ BitVec.ofNat 3 d.member ++ BitVec.ofBool d.rcv
      ++ BitVec.ofBool (r.i.g.palPend f.p.toNat) ++ BitVec.ofBool x.has ++ BitVec.ofBool x.valid
    r.scaDone s1 t f.d.toNat false (v.setWidth 64)))
  ∧ (∀ (s : State) (f : PalF), s.clears (.aver f) = true → s.Completes (.aver f) (fun s1 r t =>
    let x := tget emptyTile r.i.g.tiles f.p.toNat
    let q := (r.i.g.palOps.filter (fun o => o.kind.ver.isSome && o.kind.tiles.contains f.p.toNat)).length
    let v : Word := 0#3 ++ BitVec.ofNat 5 (min q 16) ++ 0#6 ++ BitVec.ofBool (decide (x.pois ≠ [])) ++ BitVec.ofBool x.i32 ++ x.ver
    r.scaDone s1 t f.d.toNat false (v.setWidth 64)))
  ∧ (∀ (s : State) (f : PalF), s.clears (.pspill f) = true → s.Completes (.pspill f) (fun s1 r t =>
    let p := f.p.toNat
    let a := (r.a r.low).toNat
    let x := r.i.g.view p
    let n := 32 + 512 * ((x.rows + 63) / 64) + 272 * x.rows
    idle s1 t r
    ∧ (r.act ≠ 0 → x.has = false → r.Traps s1 t 0x0A r.act p)
    ∧ (r.act ≠ 0 → x.has = true → s1.regionOk r true false a n = false → r.Traps s1 t 0x05 r.act a)
    ∧ (r.act ≠ 0 → x.has = true → s1.regionOk r true false a n = true → a % 16 ≠ 0 → r.Traps s1 t 0x04 r.act a)
    ∧ (r.act ≠ 0 → x.has = true → s1.regionOk r true false a n = true → a % 16 = 0 →
        r.OnRegion s1 t [] true false (store r) [(a, n)] (fun rows => r.Accepted s1 t [] f.att.toNat (.spill p (BitVec.ofNat 64 a)) rows))))
  ∧ (∀ (s : State) (f : PalF), s.clears (.pfill f) = true → s.Completes (.pfill f) (fun s1 r t =>
    let p := f.p.toNat
    let a := (r.a r.low).toNat
    idle s1 t r
    ∧ (r.act ≠ 0 → r.i.readBefore p = true → r.Traps s1 t 0x01 r.act p)
    ∧ (r.act ≠ 0 → r.i.readBefore p = false → s1.regionOk r true false a 32 = false → r.Traps s1 t 0x05 r.act a)
    ∧ (r.act ≠ 0 → r.i.readBefore p = false → s1.regionOk r true false a 32 = true → a % 16 ≠ 0 → r.Traps s1 t 0x04 r.act a)
    ∧ (r.act ≠ 0 → r.i.readBefore p = false → s1.regionOk r true false a 32 = true → a % 16 = 0 →
        ∀ q, r.Reads s1 (load r) a 32 q →
          let d : BitVec 256 := BitVec.ofNat 256 (q.valueIn s1.byteAt)
          let malformed : Prop := d.extractLsb' 110 2 ≠ 0 ∨ d.extractLsb' 115 13 ≠ 0 ∨ d.extractLsb' 144 112 ≠ 0
            ∨ (d.extractLsb' 104 4).toNat ∉ [1, 2, 3, 4, 5, 8] ∨ d.extractLsb' 64 2 ≠ 0
          let h := (d.extractLsb' 96 8).toNat + 1
          (malformed → r.TrapsIn s1 t [q] 0x12 (range 5 a))
          ∧ (¬ malformed → r.OnRegion s1 t [q] true false (load r) [(a, 32 + 512 * ((h + 63) / 64) + 272 * h)] (fun rows =>
              r.Accepted s1 t [q] f.att.toNat (.fill p (BitVec.ofNat 64 a) d) rows)))))
  ∧ (∀ (s : State) (f : PalF), s.clears (.azero f) = true → s.Completes (.azero f) (fun s1 r t =>
    let n := f.p.toNat
    let v := ver (r.b r.low)
    let h := low32 (r.c r.low)
    let run := tilesOf n h
    idle s1 t r
    ∧ (r.act ≠ 0 → (h = 0 ∨ 256 < h) → r.Traps s1 t 0x0B r.act (range 8 h))
    ∧ (r.act ≠ 0 → h ≠ 0 → h ≤ 256 → s1.runOk r.i.g run = false → r.Traps s1 t 0x0B r.act (range 2 (n + (h + 63) / 64 - 1)))
    ∧ (r.act ≠ 0 → h ≠ 0 → h ≤ 256 → s1.runOk r.i.g run = true →
        r.Versioned s1 t [] f.att.toNat run v (.zero n v h f.mod) [])))
  ∧ (∀ (s : State) (f : PalF), s.clears (.aload f) = true → s.Completes (.aload f) (fun s1 r t =>
    let n := f.p.toNat
    let v := ver (r.b r.low)
    idle s1 t r
    ∧ (r.act ≠ 0 → r.OnRecord s1 t (r.a r.low).toNat (fun sh l =>
        r.OnRows s1 t l (r.a r.low).toNat sh 3 [1, 2, 3, 9] false (load r) (fun rows =>
          let run := tilesOf n (shRows sh)
          (s1.runOk r.i.g run = false → r.TrapsIn s1 t l 0x0B (range 2 (n + (shRows sh + 63) / 64 - 1)))
          ∧ (s1.runOk r.i.g run = true → r.Versioned s1 t l f.att.toNat run v (.load n v sh) rows))))))
  ∧ (∀ (s : State) (f : PalF), s.clears (.aread f) = true → s.Completes (.aread f) (fun s1 r t =>
    let n := f.p.toNat
    let row := low32 (r.a r.low)
    let col := low32 (r.c r.low)
    let v := ver (r.b r.low)
    let inside : Prop := (row < 64 ∧ col ≤ 224) ∨ ((row = 256 ∨ row = 257) ∧ col ≤ 224) ∨ (row = 258 ∧ col ≤ 32)
    let kind : PalKind := .read n (if f.mod then some v else none) row col f.d.toNat r.act
    idle s1 t r
    ∧ (r.act ≠ 0 → ¬ inside → r.Traps s1 t 0x0B r.act (range 7 row))
    ∧ (r.act ≠ 0 → inside → f.mod = true → r.Versioned s1 t [] f.att.toNat [n] v kind [])
    ∧ (r.act ≠ 0 → inside → f.mod = false → r.Accepted s1 t [] f.att.toNat kind [])))
  ∧ (∀ (s : State) (f : PalF), s.clears (.adrain f) = true → s.Completes (.adrain f) (fun s1 r t =>
    let n := f.p.toNat
    let v := ver (r.b r.low)
    idle s1 t r
    ∧ (r.act ≠ 0 → r.OnRecord s1 t (r.a r.low).toNat (fun sh l =>
        r.OnRows s1 t l (r.a r.low).toNat sh 3 (if r.i.g.tyAt n v then [1, 9] else [1, 2, 3, 4, 5]) true (store r) (fun rows =>
          let run := tilesOf n (shRows sh)
          let i32 (t : Nat) : Prop := r.i.g.tyAt t v = true
          let mixed : Prop := (∃ a ∈ run, i32 a) ∧ ∃ b ∈ run, ¬ i32 b
          (s1.runOk r.i.g run = false → r.TrapsIn s1 t l 0x0B (range 2 (n + (shRows sh + 63) / 64 - 1)))
          ∧ (s1.runOk r.i.g run = true →
              (mixed → r.TrapsIn s1 t l 0x0B (range 5 n))
              ∧ (¬ mixed → r.Versioned s1 t l f.att.toNat run v (.drain n v sh f.mod (BitVec.ofNat 64 r.word)) rows)))))))
  ∧ (∀ (s : State) (f : PalF), s.clears (.rfence f) = true → s.Completes (.rfence f) (fun s1 r t =>
    let ptr := (r.a r.low).toNat
    let drop (p : ShapeEntry → Bool) : Prop := r.Completed { s1 with shapes := s1.shapes.filter (fun e => !p e) } t noWrites none
    idle s1 t r
    ∧ (r.act ≠ 0 → (∀ n, f.a ≠ .s n) → drop (fun e => e.core == r.i.g.core))
    ∧ (∀ n, r.act ≠ 0 → f.a = .s n →
        (2 ^ 56 ≤ ptr → r.Traps s1 t 0x05 r.act ptr)
        ∧ (ptr < 2 ^ 56 → ptr % 16 ≠ 0 → r.Traps s1 t 0x04 r.act ptr)
        ∧ (ptr < 2 ^ 56 → ptr % 16 = 0 → drop (fun e => e.core == r.i.g.core && e.ctx == s1.ctxOf r.i.g && e.addr == ptr)))))
  ∧ (∀ (s : State) (f : PalF), s.clears (.srld f) = true → s.Completes (.srld f) (fun s1 r t =>
    let ptr := (r.a r.low).toNat
    idle s1 t r
    ∧ (r.act ≠ 0 → r.OnRecord s1 t ptr (fun sh l =>
        let held (_ : List (List (Place × Nat))) : Prop :=
          r.Accessed s1 { t with shapes := s1.shapes } l noWrites none r.i.w.locks (fun _ => False)
          ∧ ∃ e ∈ t.shapes, e.core = r.i.g.core ∧ e.ctx = s1.ctxOf r.i.g ∧ e.addr = ptr ∧ e.shape = sh
        let k := shKind sh
        ((k = 0 ∨ 5 < k) → r.TrapsIn s1 t l 0x12 (range 1 ptr))
        ∧ (k = 1 → r.OnRows s1 t l ptr sh 1 [1, 2, 3, 4, 5, 8] false (load r) held)
        ∧ (k = 2 → r.OnRows s1 t l ptr sh 2 [7] false (load r) held)
        ∧ (k = 3 → r.OnRows s1 t l ptr sh 3 [1, 2, 3, 4, 5, 9] true (load r) held)
        ∧ ((k = 4 ∨ k = 5) → held [])))))
  ∧ (∀ (sh : BitVec 1536) (kind : Nat) (fmts : List Nat) (drain : Bool), kind ∈ [1, 2, 3] →
      let len := shLen sh
      let nb := len / 32
      let need := if kind = 2 then (nb + 15) / 16 * 16 + 4 * (shPln sh + 1) * nb else len * shapeSize (shFmt sh)
      let bad (n : Nat) : Prop := match n with
        | 1 => shKind sh ≠ kind
        | 2 => shFmt sh ∉ fmts
        | 3 => shRows sh = 0 ∨ 256 < shRows sh ∨ len = 0 ∨ (kind = 3 ∧ 256 < len) ∨ (kind ≠ 3 ∧ (len % 32 ≠ 0 ∨ 65504 < len))
        | 4 => shBase sh % (if kind = 2 then 16 else 4) ≠ 0 ∨ shStride sh % (if kind = 2 then 16 else 4) ≠ 0
            ∨ shStride sh < (if kind = 2 then (need + 15) / 16 * 16 else need)
        | 5 => sh.extractLsb' 78 2 ≠ 0 ∨ sh.extractLsb' 88 8 ≠ 0 ∨ sh.extractLsb' 160 1376 ≠ 0
        | 6 => if drain then shFmt sh = 9 ∧ sh.extractLsb' 80 8 ≠ 0
            else sh.extractLsb' 75 3 ≠ 0 ∨ sh.extractLsb' 80 8 ≠ 0 ∨ (kind ≠ 2 ∧ shPln sh ≠ 0)
        | _ => False
      ((∀ n, ¬ bad n) → shapeReason sh kind fmts drain = 0)
      ∧ ∀ n, bad n → (∀ m, m < n → ¬ bad m) → shapeReason sh kind fmts drain = n)
  ∧ (∀ (g : Group) (n : Nat) (v : BitVec 16),
      let same (k : Nat) (w : BitVec 16) : Nat := ((g.palOps.take k).filter (fun o => o.kind.ver.isSome && o.kind.incr
        && o.kind.tiles.contains n && o.kind.ver == some w)).length
      let turn (k : Nat) (w : BitVec 16) : Nat := (w - (g.tile n).ver).toNat + 2 ^ 16 * same k w
      let sets (k : Nat) (ty : Bool) (d : Nat) : Prop := ∃ o w, g.palOps[k]? = some o ∧ o.kind.setsTy = some ty ∧ o.kind.ver = some w
        ∧ n ∈ o.kind.tiles ∧ d = turn k w ∧ d < turn g.palOps.length v
      ((∀ k ty d, ¬ sets k ty d) → g.tyAt n v = (g.tile n).i32)
      ∧ ∀ k ty d, sets k ty d → (∀ k' ty' d', sets k' ty' d' → d' ≤ d) → g.tyAt n v = ty)

/-! ## System forms (R290 to R309) -/

/-- R40, R42, R94, R145, R299 to R305, R310: CSRRD gives each register's word; CSRWR sets the writable ones, clears the flags
it names, and MODE forbid takes the group's warps out of the RIE; PKRWR sets one key's bits or traps on the number that is too
large; TSTAMP gives the device timer as its passes end and PERFRD a counter, from which instructions still outstanding are left out.
Where the manual is silent or open, the model's choice: log 120. -/
def Obligations.SpecialRegistersAreReadAndWritten : Prop :=
  (∀ (s : State) (f : SysF), s.clears (.csrrd f) = true → s.Completes (.csrrd f) (fun s1 r t =>
    let w := r.i.w
    let g := r.i.g
    let reads (v : Word) : Prop := r.scaDone s1 t f.d.toNat false (v.setWidth 64)
    let l := r.i.u.loop
    let size (k : Nat) : BitVec 8 := if l.active.getLsbD k then
      BitVec.ofNat 8 (((l.stop.getD k 0).toNat - (l.start.getD k 0).toNat) / 8 - 1) else 0
    (f.num = 0x000 → reads w.fpmode) ∧ (f.num = 0x001 → reads w.fpflags)
    ∧ (f.num = 0x010 → reads (w.tvec.extractLsb' 0 32)) ∧ (f.num = 0x011 → reads (w.tvec.extractLsb' 32 32))
    ∧ (f.num = 0x012 → reads (0#23 ++ BitVec.ofBool w.inh ++ w.tcause))
    ∧ (f.num = 0x013 → reads (w.tpc.extractLsb' 0 32)) ∧ (f.num = 0x014 → reads (w.tpc.extractLsb' 32 32))
    ∧ (f.num = 0x015 → reads (w.tinst.extractLsb' 0 32)) ∧ (f.num = 0x016 → reads (w.tinst.extractLsb' 32 32))
    ∧ (f.num = 0x017 → reads w.tmask)
    ∧ (f.num = 0x018 → reads (w.tval.extractLsb' 0 32)) ∧ (f.num = 0x019 → reads (w.tval.extractLsb' 32 32))
    ∧ (f.num = 0x020 → reads (w.pkr.extractLsb' 0 32)) ∧ (f.num = 0x021 → reads (w.pkr.extractLsb' 32 32))
    ∧ (f.num = 0x030 → w.rieCause < 32 → reads (BitVec.ofNat 16 (min w.locks 65535) ++ 0#3 ++ BitVec.ofNat 5 w.rieCause ++ 0#5
        ++ BitVec.ofBool w.inRie ++ g.ooo))
    ∧ (f.num = 0x031 → s1.clock g.core < 16 → reads (0#20 ++ BitVec.ofNat 4 (s1.clock g.core) ++ 0#1 ++ BitVec.ofNat 3 ((g.lent.getD 0) % 6)
        ++ BitVec.ofBool g.lent.isSome ++ BitVec.ofBool (isLit g.core) ++ (s1.pktOf g).extractLsb' 568 2))
    ∧ (f.num = 0x032 → reads (BitVec.ofNat 32 (s1.passesOn r.i.q))) ∧ (f.num = 0x033 → reads g.clkc)
    ∧ (f.num = 0x034 → reads (0#5 ++ l.active ++ size 2 ++ size 1 ++ size 0))))
  ∧ (∀ (s : State) (f : SysF), s.clears (.csrwr f) = true → s.Completes (.csrwr f) (fun s1 r t =>
    let v : Word := (r.a r.low).extractLsb' 0 32
    let warp (k : Warp → Warp) : Prop := r.Completed (s1.updWarp r.i.g.id r.i.w.idx k) t noWrites none
    let group (k : Group → Group) : Prop := r.Completed (s1.updGroup r.i.g.id k) t noWrites none
    (r.act = 0 → r.Completed s1 t noWrites none)
    ∧ (r.act ≠ 0 →
        (f.num = 0x000 → warp (fun w => { w with fpmode := v &&& 0x1F1F }))
        ∧ (f.num = 0x001 → warp (fun w => { w with fpflags := w.fpflags &&& ~~~v }))
        ∧ (f.num = 0x010 → warp (fun w => { w with tvec := w.tvec.extractLsb' 32 32 ++ v }))
        ∧ (f.num = 0x011 → warp (fun w => { w with tvec := v ++ w.tvec.extractLsb' 0 32 }))
        ∧ (f.num = 0x013 → warp (fun w => { w with tpc := w.tpc.extractLsb' 32 32 ++ v }))
        ∧ (f.num = 0x014 → warp (fun w => { w with tpc := v ++ w.tpc.extractLsb' 0 32 }))
        ∧ (f.num = 0x033 → group (fun g => { g with clkc := v }))
        ∧ (f.num = 0x030 →
            (v.extractLsb' 0 2 = 3 → r.Completed s1 t noWrites none)
            ∧ (v.extractLsb' 0 2 ≠ 3 → v.extractLsb' 0 2 ≠ 1 → group (fun g => { g with ooo := v.extractLsb' 0 2 }))
            ∧ (v.extractLsb' 0 2 = 1 → (∀ g', t.group? r.i.g.id = some g' → g'.ooo = 1 ∧ ∀ w ∈ g'.warps, w.inRie = false)
                ∧ ((∀ w ∈ r.i.g.warps, w.acq = false) → group (fun g =>
                    { g with ooo := 1, warps := g.warps.map (fun w => if r.i.g.warps.any (fun x => x.idx == w.idx && x.inRie) then
                        { w with inRie := false, rieEnd := none } else w) })))))))
  ∧ (∀ (s : State) (f : SysF), (s.clears (.csrrd f) = true → f.num.toNat ∈ [0x000, 0x001, 0x010, 0x011, 0x012, 0x013, 0x014, 0x015, 0x016,
        0x017, 0x018, 0x019, 0x020, 0x021, 0x030, 0x031, 0x032, 0x033, 0x034])
      ∧ (s.clears (.csrwr f) = true → f.num.toNat ∈ [0x000, 0x001, 0x010, 0x011, 0x013, 0x014, 0x030, 0x033]))
  ∧ (∀ (s : State) (f : Rk), s.clears (.pkrwr f) = true → s.Completes (.pkrwr f) (fun s1 r t =>
    let k := ((r.a r.low).extractLsb' 0 32).toNat
    let b := ((r.b r.low).extractLsb' 0 32).toNat
    (r.act = 0 → r.Completed s1 t noWrites none)
    ∧ (r.act ≠ 0 → 31 < k → r.Traps s1 t 0x01 r.act k)
    ∧ (r.act ≠ 0 → k ≤ 31 → 3 < b → r.Traps s1 t 0x01 r.act b)
    ∧ (r.act ≠ 0 → k ≤ 31 → b ≤ 3 → r.Completed (s1.updWarp r.i.g.id r.i.w.idx (fun w =>
        { w with pkr := (w.pkr &&& ~~~(3#64 <<< (2 * k))) ||| (BitVec.ofNat 64 b <<< (2 * k)) })) t noWrites none)))
  ∧ (∀ (s : State) (f : Rk), s.clears (.tstamp f) = true → s.Completes (.tstamp f) (fun s1 r t =>
    r.scaDone s1 t f.dn true (BitVec.ofNat 64 (max s1.timer (s1.quad r.i.q).next))))
  ∧ (∀ (s : State) (f : SysF), s.clears (.perfrd f) = true → s.Completes (.perfrd f) (fun s1 r t =>
    let n := f.num.toNat
    let pending := r.i.w.outst.filter (fun o => match o.kind with
      | .parked _ => false
      | _ => true)
    r.scaDone (r.Long s1 f.att.toNat) t f.d.toNat true (if n ∈ [7, 8, 9, 11] then tget 0 r.i.g.perf n
      else if n = 1 then tget 0 r.i.w.perf 1 - BitVec.ofNat 64 pending.length else tget 0 r.i.w.perf n)))

/-- R22, R23, R83, R290, R291, R307 to R309: GIVE moves the top of the allotment to the pool and CLAIM takes from it, in
the order in which claims block, with registers that read zero; a GIVE stays behind an outstanding AREAD of what it gives; CLAIMDL traps the claims
that nothing can meet, after which the claims that fit are met; ICINV
discards cached instruction words, BIAS starts a flip of a page of the package, and HALT stops the warp and reports it.
Where the manual is silent or open, the model's choice: log 30, 100. -/
def Obligations.AllotmentsCodeBiasAndHalt : Prop :=
  (∀ (s : State) (f : Rk), s.clears (.give f) = true → s.Completes (.give f) (fun s1 r t =>
    let n := ((r.a r.low).extractLsb' 0 32).toNat
    let a := r.i.w.av
    let bad : Prop := n % 8 ≠ 0 ∨ n < 8 ∨ a < n + 8
    (r.act = 0 → r.Completed s1 t noWrites none)
    ∧ (r.act ≠ 0 → bad → r.Traps s1 t 0x01 r.act n)
    ∧ (r.act ≠ 0 → ¬ bad → r.Completed (s1.updGroup r.i.g.id (fun g =>
        let g1 := g.updWarp r.i.w.idx (fun w => { w with av := a - n, vregs := w.vregs.filter (fun e => e.1 < 32 * (a - n) || 32 * a ≤ e.1) })
        ({ g1 with pool := g.pool + n } : Group).tryClaims)) t noWrites none)))
  ∧ (∀ (s : State) (f : Rk), s.clears (.claim f) = true → s.Completes (.claim f) (fun s1 r t =>
    let n := ((r.a r.low).extractLsb' 0 32).toNat
    let bad : Prop := n % 8 ≠ 0 ∨ n < 8 ∨ 256 < r.i.w.av + n
    let met : Prop := r.i.g.claims = [] ∧ n ≤ r.i.g.pool
    (r.act = 0 → r.Completed s1 t noWrites none)
    ∧ (r.act ≠ 0 → bad → r.Traps s1 t 0x01 r.act n)
    ∧ (r.act ≠ 0 → ¬ bad → met → r.Completed (s1.updGroup r.i.g.id (fun g =>
        { g.updWarp r.i.w.idx (fun w => w.grow n) with pool := g.pool - n })) t noWrites none)
    ∧ (r.act ≠ 0 → ¬ bad → ¬ met → ∃ s2 : State,
        r.Leaves s1 s2 noWrites (fun _ => ⟨r.i.u.pc, some r.i.c.head, .claim n r.word⟩)
        ∧ t = s2.updGroup r.i.g.id (fun g => { g with claims := g.claims ++ [(r.i.w.idx, r.i.u.id, n)] }))))
  ∧ (∀ (w : Warp) (n k l : Nat), l < 32 → k < 255 → (w.grow n).av = w.av + n
      ∧ (w.grow n).readV k l = if w.av ≤ k ∧ k < w.av + n then 0 else w.readV k l)
  ∧ (∀ g : Group, (g.claims = [] → g.tryClaims = g)
      ∧ ∀ w u n l, g.claims = (w, u, n) :: l →
        (g.pool < n → g.tryClaims = g)
        ∧ (n ≤ g.pool → g.tryClaims = Group.tryClaims
            { g.updWarp w (fun x => (x.grow n).updSub u goOn) with pool := g.pool - n, claims := l }))
  ∧ (∀ (s : State) (gid : Nat), ∃ t, exec (.claimdl gid) s = .next t
      ∧ (∀ g, s.group? gid = some g →
          let dead : Prop := (∃ w ∈ g.warps, w.live ≠ 0) ∧ ∀ w ∈ g.warps, w.live ≠ 0 → w.inh = false ∧ w.stopped = false
            ∧ ∀ u ∈ w.subs, u.pend = none ∧ ∃ n word, u.st = .claim n word
          (¬ dead → t = s)
          ∧ (dead → (∀ w ∈ g.warps, w.tvec ≠ 0 ∧ w.inh = false ∧ trapReady g w = true) → ∀ x ∈ g.warps, x.live ≠ 0 →
              ∀ a b u n k word, g.claims = a ++ (x.idx, u, n) :: b → (∀ c ∈ a, c.1 ≠ x.idx) → ∀ v, s.sub? gid x.idx u = some v →
                v.st = .claim k word → ∃ w', t.warp? gid x.idx = some w' ∧ w'.inh = true ∧ w'.tcause = 0x0F ∧ w'.tpc = v.pc
                  ∧ w'.tinst = BitVec.ofNat 64 word ∧ w'.tval = BitVec.ofNat 64 k ∧ w'.resume = v.mid)
          ∧ (dead → ∀ g' c l, t.group? gid = some g' → g'.claims = c :: l → g'.pool < c.2.2))
      ∧ (s.group? gid = none → t = s))
  ∧ (∀ (s : State) (i : Iss) (f : Rk) (act : Mask), let n := ((i.operand s (.rk 0xE1 f) 0 (lowLane act)).extractLsb' 0 32).toNat
      ∀ d, d ∈ i.pendingV → n % 8 = 0 → 8 ≤ n → n + 8 ≤ i.w.av → i.w.av ≤ d + n → i.behindPalette s (.rk 0xE1 f) act = true)
  ∧ (∀ (s : State) (f : SysF), s.clears (.icinv f) = true → s.Completes (.icinv f) (fun s1 r t =>
    let ptr := (r.a r.low).toNat
    let keeps (p : Nat × DWord → Bool) : Prop := r.Completed (r.Long { s1 with icache := s1.icache.filter p } f.att.toNat) t noWrites none
    (r.act = 0 → r.Completed s1 t noWrites none)
    ∧ (r.act ≠ 0 → (∀ n, f.a ≠ .s n) → keeps (fun e => e.1 / 2 ^ 64 != r.i.g.core))
    ∧ (∀ n, r.act ≠ 0 → f.a = .s n → (2 ^ 56 ≤ ptr → r.Traps s1 t 0x05 r.act ptr)
        ∧ (ptr < 2 ^ 56 → ∀ e, s1.tlb.find? (fun e => e.covers (r.i.mmu s1) ptr) = some e →
            let c := s1.leafCheck (r.i.mmu s1) wantAny ptr e.leaf e.level e.pteAt
            (c = .prot → keeps (fun _ => true))
            ∧ ∀ x, c = .ok x → staleAd e.leaf false = false →
                keeps (fun e => e.1 < r.i.g.core * 2 ^ 64 + x.pa / 128 * 128 || r.i.g.core * 2 ^ 64 + x.pa / 128 * 128 + 128 ≤ e.1)))))
  ∧ (∀ (s : State) (f : SysF), s.clears (.bias f) = true → s.Completes (.bias f) (fun s1 r t =>
    let ptr := (r.a r.low).toNat
    (r.act = 0 → r.Completed s1 t noWrites none)
    ∧ (r.act ≠ 0 → 2 ^ 56 ≤ ptr → r.Traps s1 t 0x05 r.act ptr)
    ∧ (r.act ≠ 0 → ptr < 2 ^ 56 → ptr % 4096 ≠ 0 → r.Traps s1 t 0x04 r.act ptr)
    ∧ (r.act ≠ 0 → ptr < 2 ^ 56 → ptr % 4096 = 0 → ∀ q x, Hit s1 r.i wantAny ⟨r.low, ptr, 4096⟩ q → q.xs = [x] →
        (∀ p ∈ q.parts, s1.inFlip p = none) →
          let page := x.pa / 4096
          (isOwn x.pa = false → r.Traps s1 t 0x07 r.act ptr)
          ∧ (isOwn x.pa = true → thas s1.bias page = f.host → r.Completed (r.Long s1 f.att.toNat) t noWrites none)
          ∧ (isOwn x.pa = true → thas s1.bias page ≠ f.host →
              r.Accessed s1 { t with flips := s1.flips } [q] noWrites none r.i.w.locks (fun _ => False)
              ∧ t.flips = s1.flips ++ [⟨page, f.host, if f.host then [] else List.range 16, []⟩]
              ∧ ∃ w', t.warp? r.i.g.id r.i.w.idx = some w' ∧ ∃ o ∈ w'.outst, o.kind = .flip page ∧ o.flag = r.i.flagOf f.att.toNat))))
  ∧ (∀ (s : State) (f : Rk), s.clears (.halt f) = true → s.Completes (.halt f) (fun s1 r t =>
    (r.act = 0 → r.Completed s1 t noWrites none)
    ∧ (r.act ≠ 0 → r.Completed ((s1.pushFault { s1.faultOf r.i.g 4 with addr := r.fall.pc, pc := r.i.u.pc }).1.updWarp r.i.g.id r.i.w.idx
        (fun w => { w with stopped := true })) t noWrites none)))

/-! ## The palette unit (R99 to R110, R259 to R283) -/

/-- R103 to R110: the block's exponent and mantissas are the nearest to its elements, a lookup sum is the exact dot
product of mantissas and weights, an f32 element takes it by one rounding and an i32 one modulo 2^32 or saturated, a
marked contribution poisons, and both checks of a tile agree after every block. Where the manual is silent or open, the
model's choice: log 29. -/
def Obligations.PaletteArithmeticIsExact : Prop :=
  (∀ a : List Nat, blockIn 8 a = (10, a.map (fun v => (BitVec.ofNat 8 v).toInt), false))
  ∧ (∀ (fmt : Nat) (a : List Nat), fmt ∈ [1, 2, 3, 4, 5] →
      let x := a.map (shapeFmt fmt).dec
      let ea := (blockIn fmt a).1
      let ms := (blockIn fmt a).2.1
      let top (m : Nat) (e : Int) : Int := (bitLen m : Int) - 1 + e
      ms.length = a.length
      ∧ ((blockIn fmt a).2.2 = true ↔ ∃ v ∈ x, ∀ n m e, v ≠ .fin n m e)
      ∧ ((∀ v ∈ x, ∀ n m e, v = .fin n m e → m = 0) → ea = -127 ∧ ∀ m ∈ ms, m = 0)
      ∧ ((∃ n m e, .fin n m e ∈ x ∧ m ≠ 0) →
          (∃ n m e, .fin n m e ∈ x ∧ m ≠ 0 ∧ ea = top m e) ∧ (∀ n m e, .fin n m e ∈ x → m ≠ 0 → top m e ≤ ea)
          ∧ ∀ (i : Nat) v k, x[i]? = some v → ms[i]? = some k →
            ((∀ n m e, v ≠ .fin n m e) → k = 0)
            ∧ ∀ n m e, v = .fin n m e →
              let u := min e (ea - 10)
              let unit : Int := 2 ^ (ea - 10 - u).toNat
              let d := k * unit - scaled n m e u
              (-unit ≤ 2 * d ∧ 2 * d ≤ unit ∧ ((2 * d = unit ∨ 2 * d = -unit) → k % 2 = 0))
                ∨ (k = 2047 ∧ 2047 * unit ≤ scaled n m e u) ∨ (k = -2047 ∧ scaled n m e u ≤ -2047 * unit)))
  ∧ (∀ (m : List Int) (g x : Nat), g < 8 → x < 16 →
      (palTable m).getD (16 * g + x) 0 = ((List.range 4).map (fun i => if x.testBit i then m.getD (4 * g + i) 0 else 0)).sum)
  ∧ (∀ (m : List Int) (planes : List Nat) (k : Nat) (c : Nat → BitVec k), 1 ≤ k → planes.length = k →
      (∀ i p, i < 32 → p < k → (c i).getLsbD (k - 1 - p) = (planes.getD p 0).testBit i) →
      lookupSum (palTable m) planes k = ((List.range 32).map (fun i => m.getD i 0 * (2 * (c i).toInt + 1))).sum)
  ∧ (∀ (acc : Nat) (sum e : Int), sum ≠ 0 →
      (∀ n m x, fmtF32.dec acc = .fin n m x → ∃ n' m' e', accF32 acc sum e = fmtF32.round .rne false false n' m' e'
        ∧ (∀ u : Int, u ≤ x → u ≤ e → u ≤ e' → scaled n' m' e' u = scaled n m x u + sum * 2 ^ (e - u).toNat) ∧ (m' = 0 → n' = false))
      ∧ (∀ n, fmtF32.dec acc = .inf n → (accF32 acc sum e).bits = if n then 0xFF800000 else 0x7F800000)
      ∧ (∀ q, fmtF32.dec acc = .nan q → (accF32 acc sum e).bits = 0x7FC00000))
  ∧ (∀ (acc : Nat) (x : Int), acc < 2 ^ 32 →
      BitVec.ofNat 32 (accI32 false acc x) = BitVec.ofNat 32 acc + BitVec.ofInt 32 x
      ∧ (BitVec.ofNat 32 (accI32 true acc x)).toInt = max (-(2 ^ 31)) (min (2 ^ 31 - 1) ((BitVec.ofNat 32 acc).toInt + x)))
  ∧ (∀ (t : Tile) (col k n : Nat) (rows : List PalRow) (u : List Int) (w : WBlock) (sat : Bool), col < 256 →
      let y := (slabStep t col rows u w k n sat).1
      let elem (t : Tile) (r : Nat) : Word := tget 0 t.elems (256 * r + col)
      (∀ (r : Nat) p, rows[r]? = some p →
        let x := lookupSum p.t w.planes k
        let marked : Prop := p.nonFinite = true ∨ p.poison = true ∨ w.bad = true
        (marked → thas y.pois (256 * r + col) = true ∧ elem y r = if t.i32 then elem t r else 0x7FC00000)
        ∧ (¬ marked → thas y.pois (256 * r + col) = thas t.pois (256 * r + col)
            ∧ elem y r = if w.scale = -128 ∨ x = 0 then elem t r
              else if t.i32 then BitVec.ofNat 32 (accI32 sat (elem t r).toNat x)
              else BitVec.ofNat 32 (accF32 (elem t r).toNat x (p.ea - 10 + w.scale + n - k)).bits))
      ∧ (∀ key, (∀ r, r < rows.length → key ≠ 256 * r + col) → tget 0 y.elems key = tget 0 t.elems key ∧ thas y.pois key = thas t.pois key)
      ∧ y.ver = t.ver ∧ y.i32 = t.i32
      ∧ (u = sumRows rows → ∀ c, tget 0 y.chk c - tget 0 y.obs c = tget 0 t.chk c - tget 0 t.obs c)
      ∧ ((∀ r, t.rowXor r = tget 0 t.xc r) → ∀ r, y.rowXor r = tget 0 y.xc r))

/-- R78, R259 to R261, R264, R270, R271, R274 to R283: an accepted operation is performed when its tiles hold the
version it names and nothing before it must come first; it makes its palette, tiles, registers or bytes, its tiles take
the next version, and it leaves the unit. A PBUILD sends a copy to each receiver and completes when the last is
installed. Where the manual is silent or open, the model's choice: log 15. -/
def Obligations.PaletteWorkIsPerformedInItsTurn : Prop :=
  let bytes (s : State) (l : List (Place × Nat)) : List Byte := (⟨⟨0, 0, 0⟩, l, []⟩ : Ready).places.map s.byteAt
  let legible (s : State) (core : Nat) (l : List (Place × Nat)) : Prop :=
    s.sound [⟨⟨0, 0, 0⟩, l, []⟩] ∧ s.noCopies core ⟨⟨0, 0, 0⟩, l, []⟩
  let real (s : State) (p : Place) : Prop := match p with
    | .phys _ _ => True
    | .scr k _ => s.group? k ≠ none
    | .ext k _ => s.group? k ≠ none
    | .priv k w _ _ => s.warp? k w ≠ none
  (∀ (s : State) (gid op : Nat), ∃ t, exec (.paletteOpPerform gid op) s = .next t
    ∧ ((∀ g o, s.group? gid = some g → g.palOps.find? (fun o => o.id == op) = some o → g.palReady o = false ∨ s.opStalls o = true) → t = s)
    ∧ ∀ g o, s.group? gid = some g → g.palOps.find? (fun o => o.id == op) = some o → g.palReady o = true → s.opStalls o = false →
      ∃ g', t.group? gid = some g'
      ∧ ((∀ p sh kb m, o.kind ≠ .build p sh kb m) → g'.palOps.map (fun e => e.id) = (g.palOps.filter (fun e => e.id != op)).map (fun e => e.id))
      ∧ (∀ n v h i, o.kind = .zero n v h i →
          ∀ k, g'.tile k = if n ≤ k ∧ k < n + (h + 63) / 64 then ⟨i, [], [], [], [], [], (g.tile k).ver + 1⟩ else g.tile k)
      ∧ (∀ n v row col d m, o.kind = .read n v row col d m → g'.tiles = g.tiles ∧ t.mem = s.mem
          ∧ ∀ w w', g.warp? o.warp = some w → g'.warp? o.warp = some w' → ∀ k l, l < 32 →
            w'.readV k l = if k = d ∧ d ≠ 255 ∧ laneIn m l then
              tget 0 (if row < 64 then (g.tile n).elems else if row = 256 then (g.tile n).chk else if row = 257 then (g.tile n).obs
                else (g.tile n).xc) ((if row < 64 then 256 * row else 0) + col + l) else w.readV k l)
      ∧ (∀ p, o.kind = .inv p → ∀ q, g'.pal q = if q = p then { g.pal p with valid := false } else g.pal q)
      ∧ (∀ p sh kb m, o.kind = .build p sh kb m →
          let x := g'.pal p
          let d : PalDesc := ⟨BitVec.ofNat 64 (shBase sh + 32 * kb * shapeSize (shFmt sh)), shStride sh, shRows sh, shFmt sh, false, g.team, kb⟩
          let rcv (k : Nat) (h : Group) : Prop := k < 6 ∧ m.testBit k = true ∧ k ≠ g.team ∧ s.member? g k = some h ∧ h.ended = false ∧ h.stop = none
          x.has = true ∧ x.valid = !o.dirty ∧ x.fromFill = false ∧ x.desc = some d ∧ x.srcGid = gid ∧ x.rows.length = o.rows.length
          ∧ (∀ (r : Nat) l, o.rows[r]? = some l → (∀ y ∈ o.rows, legible s g.core y) → x.rows[r]? = some (palRow (shFmt sh) (bytes s l) false))
          ∧ (∀ k, k < (x.rows.length + 63) / 64 → x.u[k]? = some (sumRows ((x.rows.drop (64 * k)).take 64)))
          ∧ ((∀ k h, ¬ rcv k h) → g'.palOps.map (fun e => e.id) = (g.palOps.filter (fun e => e.id != op)).map (fun e => e.id))
          ∧ ((∃ k h, rcv k h) → ∃ e ∈ g'.palOps, e.id = op ∧ e.copies ≠ [])
          ∧ ∀ k h, rcv k h → ∃ h', t.group? h.id = some h'
              ∧ ∃ e ∈ h'.palOps, e.kind = .copy p { x with desc := some { d with rcv := true } } gid op)
      ∧ (∀ p n v sh k col h sat rb, o.kind = .look p n v sh k col h sat rb → (g.pal p).valid = true → (∀ l ∈ o.rows, legible s g.core l) →
          let x := g.pal p
          let nb := shLen sh / 32
          let b := (x.desc.map (fun d => d.kblk)).getD 0
          let word (l : List (Place × Nat)) (o n : Nat) : Nat := leVal (bytes s (subParts l o n))
          let block (l : List (Place × Nat)) : WBlock := ⟨(BitVec.ofNat 8 (word l b 1)).toInt,
            (List.range k).map (fun p => word l ((nb + 15) / 16 * 16 + 4 * (p * nb + b)) 4), false⟩
          (∀ i, i < (h + 63) / 64 → g'.tile (n + i) = (o.rows.zipIdx.foldl (fun (t : Tile) l =>
              (slabStep t (col + l.2) ((x.rows.drop (64 * i)).take 64) (x.u.getD i []) (block l.1) k (shPln sh + 1) sat).1)
              (g.tile (n + i))).bump)
          ∧ ∀ j, (j < n ∨ n + (h + 63) / 64 ≤ j) → g'.tile j = g.tile j)
      ∧ (∀ n v sh, o.kind = .load n v sh → (∀ l ∈ o.rows, legible s g.core l) → shFmt sh ∈ [1, 2, 3, 9] → o.rows.length = shRows sh →
          shLen sh ≤ 256 → ∀ i, i < (shRows sh + 63) / 64 →
            let y := g'.tile (n + i)
            y.ver = (g.tile (n + i)).ver + 1 ∧ y.i32 = (shFmt sh == 9) ∧ y.pois = [] ∧ y.chk = [] ∧ y.obs = []
            ∧ (∀ r, y.rowXor r = tget 0 y.xc r)
            ∧ ∀ r e, r < 64 → e < 256 → tget 0 y.elems (256 * r + e) = (match o.rows[64 * i + r]? with
              | some l => if e < shLen sh then
                  (let v := leVal (bytes s (subParts l (shapeSize (shFmt sh) * e) (shapeSize (shFmt sh))))
                   BitVec.ofNat 32 (if shFmt sh ∈ [1, 9] then v else (fpCvt (shapeFmt (shFmt sh)) fmtF32 plainEnv v).bits))
                else 0
              | none => 0))
      ∧ (∀ n v sh z word, o.kind = .drain n v sh z word →
          let size := shapeSize (shFmt sh)
          let bad (i : Nat) : Prop := ((g.tile (n + i)).mismatch.1).isSome = true ∨ ((g.tile (n + i)).mismatch.2).isSome = true
          (∀ k, g'.tile k = if n ≤ k ∧ k < n + (shRows sh + 63) / 64 then
              { (if z then ⟨(g.tile k).i32, [], [], [], [], [], (g.tile k).ver⟩ else g.tile k) with ver := (g.tile k).ver + 1 } else g.tile k)
          ∧ (∀ (r : Nat) l (e k : Nat) p, real s p → o.rows[r]? = some l → e < shLen sh → k < size →
              (⟨⟨0, 0, 0⟩, l, []⟩ : Ready).places[size * e + k]? = some p →
              (∀ (j : Nat), size * e + k < j → (⟨⟨0, 0, 0⟩, l, []⟩ : Ready).places[j]? ≠ some p) →
              (∀ (r' : Nat) l', r < r' → o.rows[r']? = some l' → p ∉ (⟨⟨0, 0, 0⟩, l', []⟩ : Ready).places) → s.steady [] p →
              r < shRows sh → (∀ y ∈ o.rows.flatten, s.tagged y.1 y.2 = false) → ¬ bad (r / 64) →
              thas (g.tile (n + r / 64)).pois (256 * (r % 64) + e) = false →
              t.byteAt p = BitVec.ofNat 8
                ((drainElem sh (g.tile (n + r / 64)).i32 (tget 0 (g.tile (n + r / 64)).elems (256 * (r % 64) + e)).toNat).1 / 256 ^ k))
          ∧ ((∃ i, i < (shRows sh + 63) / 64 ∧ bad i) → ∀ w', g'.warp? o.warp = some w' →
              ∃ x ∈ w'.acc, x.cause = 0x0D ∧ x.tinst = word))
      ∧ (∀ p a, o.kind = .spill p a → ∀ l, o.rows = [l] → ∀ (k : Nat) q, real s q → (⟨⟨0, 0, 0⟩, l, []⟩ : Ready).places[k]? = some q →
          (∀ (j : Nat), k < j → (⟨⟨0, 0, 0⟩, l, []⟩ : Ready).places[j]? ≠ some q) → s.steady [] q → (∀ y ∈ l, s.tagged y.1 y.2 = false) →
          ∀ b, (palImage (g.pal p))[k]? = some b → t.byteAt q = b)
      ∧ (∀ p a d, o.kind = .fill p a d → ∀ l x, o.rows = [l] → legible s g.core l → bytes s l = palImage x →
          let h := (d.extractLsb' 96 8).toNat + 1
          x.rows.length = h → x.u.length = (h + 63) / 64 →
          (∀ r ∈ x.rows, r.t.length = 128 ∧ (∀ k ∈ r.ea :: r.t, -(2 ^ 15) ≤ k ∧ k < 2 ^ 15)) →
          (∀ u ∈ x.u, u.length = 128 ∧ ∀ k ∈ u, -(2 ^ 31) ≤ k ∧ k < 2 ^ 31) →
          (g'.pal p).rows = x.rows ∧ (g'.pal p).u = x.u ∧ (g'.pal p).has = true ∧ (g'.pal p).valid = d.getLsbD 108))
  ∧ (∀ (s : State) (gid op : Nat), ∃ t, exec (.bcastCopyInstall gid op) s = .next t
    ∧ (∀ g o p x owner b, s.group? gid = some g → g.palOps.find? (fun o => o.id == op) = some o → o.kind = .copy p x owner b →
        g.copyReady o = true → owner ≠ gid → ∃ g', t.group? gid = some g' ∧ g'.pal p = { x with valid := x.valid && !o.dirty }
          ∧ g'.palOps.map (fun e => e.id) = (g.palOps.filter (fun e => e.id != op)).map (fun e => e.id)
          ∧ ∀ h e, s.group? owner = some h → h.palOps.find? (fun e => e.id == b) = some e → ∃ h', t.group? owner = some h'
            ∧ ((e.copies.filter (· != gid) ≠ []) → ∃ e' ∈ h'.palOps, e'.id = b ∧ e'.copies = e.copies.filter (· != gid))
            ∧ ((e.copies.filter (· != gid) = []) → ∀ e' ∈ h'.palOps, e'.id ≠ b))
    ∧ ((∀ g o, s.group? gid = some g → g.palOps.find? (fun o => o.id == op) = some o →
        ((∀ p x owner b, o.kind ≠ .copy p x owner b) ∨ g.copyReady o = false)) → t = s))

/-! ## Events of issue (R28 to R35, R62, R120 to R128, R306, R310) -/

/-- R30, R120 to R122, R125, R128, R139, R310, R377, R434: words are fetched through the instruction cache and
translation; a clause that is no clause traps at its address; of the ready warps a starved lock holder goes first, then
one that waited 512 cycles, a promoted one, the last one, then the launch priority and age; a start takes the header and
leaves no flag waiting; and a pending trap is taken when its warp's earlier instructions are done. Where the manual is
silent or open, the model's choice: log 16, 27, 35, 95, 96. -/
def Obligations.ClausesAreFetchedChosenAndStarted : Prop :=
  (∀ (s : State) (g : Group) (va : Nat) (e : TlbEntry) (x : Xlat),
    (2 ^ 56 ≤ va → s.fetchWord g va = (.prot, s))
    ∧ (va < 2 ^ 56 → s.tlb.find? (fun e => e.covers (s.mmuOf g) va) = some e →
        (s.leafCheck (s.mmuOf g) wantFetch va e.leaf e.level e.pteAt = .prot → s.fetchWord g va = (.prot, s))
        ∧ (s.leafCheck (s.mmuOf g) wantFetch va e.leaf e.level e.pteAt = .ok x → staleAd e.leaf false = false →
            s.inFlip (.phys x.pa false, 8) = none →
            (∀ w, tfind s.icache (g.core * 2 ^ 64 + x.pa) = some w → s.fetchWord g va = (.ok w.toNat, s))
            ∧ (tfind s.icache (g.core * 2 ^ 64 + x.pa) = none → s.unreachable x.pa = false → s.redbuf = [] →
                poisonedIn s.memPoison x.pa 8 = false → (s.fetchWord g va).1 = .ok (s.peekN x.pa 8)
                  ∧ tfind (s.fetchWord g va).2.icache (g.core * 2 ^ 64 + x.pa) = some (BitVec.ofNat 64 (s.peekN x.pa 8))))))
  ∧ (∀ (s : State) (g : Group) (a : DWord) (w : Nat → Nat),
    ((a.extractLsb' 0 3 ≠ 0 ∨ a.extractLsb' 56 8 ≠ 0) → s.fetchAt g a = (.trap 0x02 0 0, s))
    ∧ (a.extractLsb' 0 3 = 0 → a.extractLsb' 56 8 = 0 → s.fetchWord g a.toNat = (.ok (w 0), s) →
        (decodeHeader (w 0) = none → s.fetchAt g a = (.trap 0x02 0 (w 0), s))
        ∧ ∀ h, decodeHeader (w 0) = some h → (∀ k, k ≤ h.count → s.fetchWord g (a.toNat + 8 * k) = (.ok (w k), s)) →
            s.fetchAt g a = (.ok a h (w 0) ((List.range h.count).map (fun k => w (k + 1))), s)))
  ∧ (∀ (s : State) (q : Nat) (l : List (Group × Warp × Start)) (p : Group × Warp × Start), s.choose q l = some p →
      p ∈ l ∧
      let since (y : Group × Warp × Start) : Nat :=
        if (s.quad q).prev = some (y.1.id, y.2.1.idx) then max y.2.1.readyAt (s.quad q).next else y.2.1.readyAt
      let starved (y : Group × Warp × Start) : Prop := 0 < y.2.1.locks ∧ (y.2.1.lockWin.filter id).length < 8
      let old (y : Group × Warp × Start) : Prop := since y + s.sliceNs y.1.core 512 ≤ s.timer
      let last (y : Group × Warp × Start) : Prop := (s.quad q).prev = some (y.1.id, y.2.1.idx) ∧ (s.quad q).skip ≠ some (y.1.id, y.2.1.idx)
      let oldest (rie : Bool) (P : Group × Warp × Start → Prop) : Prop :=
        ∃ a b, l = a ++ p :: b ∧ p.2.1.inRie = rie ∧ P p ∧ ∀ y ∈ a, y.2.1.inRie = rie → ¬ P y
      let nobody (rie : Bool) (P : Group × Warp × Start → Prop) : Prop := ∀ y ∈ l, y.2.1.inRie = rie → ¬ P y
      (¬ nobody false starved → oldest false starved)
      ∧ (nobody false starved → ¬ nobody false old → oldest false old)
      ∧ (nobody false starved → nobody false old →
          (¬ nobody true starved → oldest true starved)
          ∧ (nobody true starved → ¬ nobody true (fun _ => True) →
              p.2.1.inRie = true ∧ ∀ y ∈ l, y.2.1.inRie = true → since p ≤ since y)
          ∧ (nobody true (fun _ => True) →
              (¬ nobody false last → oldest false last)
              ∧ (nobody false last → ∀ y ∈ l, s.prioOf y.1 ≤ s.prioOf p.1))))
  ∧ (∀ (s : State) (g : Group) (w : Warp) (u : SubGroup) (t : State), s.tryStart g w u = .go t → s.group? g.id = some g →
      g.warp? w.idx = some w → w.sub? u.id = some u → u.mid = none →
      ∃ h word words pops pushes v w', decodeHeader word = some h ∧ words.length = h.count
        ∧ (∀ o ∈ w.outst, ∀ k, o.flag = some k → h.wait.getLsbD k = false)
        ∧ (∀ x ∈ w.subs, x.id ≠ u.id → ∀ k ∈ x.owes, h.wait.getLsbD k = false)
        ∧ t.warp? g.id w.idx = some w' ∧ w'.sub? u.id = some v ∧ w'.active = some u.id
        ∧ v = { u with run := some ⟨u.pc, word, words, pops, pushes⟩, pc := u.pc + 8, owes := [] }
        ∧ w'.vregs = w.vregs ∧ w'.sregs = w.sregs ∧ w'.preds = w.preds
        ∧ (t.quad (quadOf g.core w.slot)).run = some (g.id, w.idx)
        ∧ (t.quad (quadOf g.core w.slot)).passes = t.passes (clusterOf (quadOf g.core w.slot / 4))
        ∧ ∀ p, (∀ a nc, p ≠ .phys a nc) → t.byteAt p = s.byteAt p)
  ∧ (∀ (s : State) (gid wi : Nat), ∃ t, exec (.clauseStart gid wi) s = .next t
      ∧ (∀ g w, s.group? gid = some g → s.warp? gid wi = some w → ∀ p, s.pick (quadOf g.core w.slot) = some p →
          (p.1.id = gid → p.2.1.idx = wi → match p.2.2 with
            | .go s' => t = { s' with groups := t.groups }
                ∧ ∀ h x y, s'.warp? h x = some y → ∃ z, t.warp? h x = some z
                    ∧ z = { y with lockWin := z.lockWin, readyAt := z.readyAt }
            | .other s' => t = s'
            | .wait => t = s)
          ∧ ((p.1.id ≠ gid ∨ p.2.1.idx ≠ wi) → t = s))
      ∧ ((∀ g w, s.group? gid = some g → s.warp? gid wi = some w → s.pick (quadOf g.core w.slot) = none) → t = s))
  ∧ (∀ (s : State) (gid wi : Nat), ∃ t, exec (.trapEntry gid wi) s = .next t
      ∧ ∀ g w, s.group? gid = some g → s.warp? gid wi = some w →
          let may : Prop := s.coreRuns g.core = true ∧ w.live ≠ 0 ∧ g.stop = none ∧ g.ended = false ∧ w.inh = false ∧ w.stopped = false
            ∧ (∀ u ∈ w.subs, u.run = none) ∧ (w.tvec = 0 ∨ trapReady g w = true)
          (¬ may → t = s)
          ∧ (may → (∀ u ∈ w.subs, u.pend = none) → t = s)
          ∧ (may → ∀ a u b x, w.subs = a ++ u :: b → (∀ v ∈ a, v.pend = none) → u.pend = some x → w.sub? u.id = some u → x.cause ≠ 0x13 →
              (w.tvec ≠ 0 → t.mem = s.mem ∧ ∃ w', t.warp? gid wi = some w' ∧ w'.tcause = x.cause ∧ w'.tpc = x.tpc ∧ w'.tinst = x.tinst
                ∧ w'.tmask = x.tmask ∧ w'.tval = x.tval ∧ w'.resume = x.resume ∧ w'.inh = true ∧ w'.vregs = w.vregs ∧ w'.sregs = w.sregs
                ∧ w'.sub? u.id = some { u with pc := w.tvec, mid := none, run := none, st := .ready, pend := none, handler := true,
                                                   owes := [], allot := 0 })
              ∧ (w.tvec = 0 → ∃ g', t.group? gid = some g' ∧ g'.stop = some (x.cause.toNat, 0) ∧ g'.killed = true)))

/-- R22, R28, R32 to R35, R62, R127, R306: an outstanding instruction whose effects are made completes, a sleep ends, a
copy expires, a warp in need is promoted into a free slot of the reorder engine and leaves it 256 cycles after its last
trigger, its acquire loads again what it had loaded early or traps on poison as the IIE would, and drained warps and
groups give back what they hold. Where the manual is silent or open, the model's choice: log 31, 97, 111. -/
def Obligations.WarpsAndGroupsMoveByTheirEvents : Prop :=
  (∀ (s : State) (gid w idx : Nat), exec (.longLatencyCompletion gid w idx) s = .next (s.updWarp gid w (fun x =>
      { x with outst := x.outst.filter (fun o => o.id != idx || o.kind != .free) })))
  ∧ (∀ (s : State) (gid w sub : Nat), ∃ t, exec (.sleepExpiry gid w sub) s = .next t
      ∧ (∀ u d, s.sub? gid w sub = some u → u.st = .sleep d → d ≤ s.timer → t = s.updSub gid w sub (fun u => { u with st := .ready }))
      ∧ ((∀ u d, s.sub? gid w sub = some u → u.st = .sleep d → s.timer < d) → t = s))
  ∧ (∀ (s : State) (core word : Nat), ∃ t, exec (.l1CopyExpiry core word) s = .next t ∧ t = { s with l1 := t.l1 }
      ∧ ∀ k, tfind t.l1 k = if k = core * 2 ^ 50 + word then none else tfind s.l1 k)
  ∧ (∀ (s : State) (g : Group) (w : Warp), (g.ooo = 1 → s.trigger g w = 0) ∧ (g.ooo ≠ 1 → 0 < w.locks → s.trigger g w = 1)
      ∧ (g.ooo = 2 → s.trigger g w ≠ 0))
  ∧ (∀ (s : State) (core : Nat), ∃ t, exec (.riePromotion core) s = .next t ∧ (s.riePick core = none → t = s)
      ∧ ∀ g w, s.riePick core = some (g, w) →
          (g, w) ∈ s.coreWarps core ∧ ((s.coreWarps core).filter (fun p => p.2.inRie)).length < 4 ∧ w.inRie = false ∧ s.trigger g w ≠ 0
          ∧ (∀ u ∈ w.subs, u.run = none)
          ∧ (∀ h x, (h, x) ∈ s.coreWarps core → x.inRie = false → warpLives h x = true → s.trigger h x ≠ 0 →
              g.admitted < h.admitted ∨ (g.admitted = h.admitted ∧ w.slot ≤ x.slot))
          ∧ t = s.updWarp g.id w.idx (fun x => ({ x with inRie := true, rieCause := s.trigger g w, rieEnd := none } : Warp).count 3 1))
  ∧ (∀ (s : State) (gid wi : Nat), ∃ t, exec (.rieDemotion gid wi) s = .next t
      ∧ ∀ g w, s.group? gid = some g → s.warp? gid wi = some w →
          (w.inRie = false → t = s)
          ∧ (w.inRie = true → s.trigger g w ≠ 0 → t = s.updWarp gid wi (fun x => { x with rieEnd := none }))
          ∧ (w.inRie = true → s.trigger g w = 0 → w.rieEnd = none → t = s.updWarp gid wi (fun x => { x with rieEnd := some (s.timer + 147) }))
          ∧ (∀ d, w.inRie = true → s.trigger g w = 0 → w.rieEnd = some d → s.timer < d → t = s)
          ∧ (∀ d, w.inRie = true → s.trigger g w = 0 → w.rieEnd = some d → d ≤ s.timer →
              (∀ w', t.warp? gid wi = some w' → w'.inRie = false ∧ w'.rieEnd = none)
              ∧ (w.acq = false → t = s.updWarp gid wi (fun x => { x with inRie := false, rieEnd := none }))))
  ∧ (∀ (s : State) (gid wi : Nat), ∃ t, exec (.speculativeReplay gid wi) s = .next t
      ∧ ((∀ w, s.warp? gid wi = some w → w.acq = false) → t = s)
      ∧ ∀ g w, s.group? gid = some g → s.warp? gid wi = some w → w.acq = true →
          let kept (x : SpecLane) : Prop := x.own = true ∧ ∀ q ∈ x.parts, ∀ k ∈ wordsOf q.1 q.2, s.ownerOf k = some g.core
          let loads (P : SpecLoad → SpecLane → Prop) : Prop := ∀ l ∈ w.spec, ∀ x ∈ l.lanes, P l x
          let stalls : Prop := ¬ loads (fun _ x => kept x ∨ ∀ q ∈ x.parts, s.inFlip (.phys q.1 false, q.2) = none)
          (stalls → t = s)
          ∧ (¬ stalls → ∃ w', t.warp? gid wi = some w' ∧ w'.acq = false ∧ w'.spec = [] ∧ w'.preds = w.preds)
          ∧ (¬ stalls → loads (fun _ x => kept x ∨ ∀ q ∈ x.parts, s.quiet q.1 q.2) →
              (∀ p, s.steady [] p → t.byteAt p = s.byteAt p)
              ∧ ∃ w', t.warp? gid wi = some w' ∧ w'.acq = false ∧ w'.spec = [] ∧ w'.sregs = w.sregs ∧ w'.preds = w.preds ∧ w'.subs = w.subs
                ∧ tget 0 w'.perf 4 = tget 0 w.perf 4 + BitVec.ofNat 64
                    (w.spec.filter (fun l => l.lanes.any (fun x => !(x.own && x.parts.all (fun q =>
                      (wordsOf q.1 q.2).all (fun k => s.ownerOf k == some g.core)))))).length
                ∧ (loads (fun _ x => kept x) → w'.vregs = w.vregs)
                ∧ (∀ n k, k < 32 → loads (fun l x => x.lane < 32 ∧ ¬ (x.lane = k ∧ l.d ≤ n ∧ n < l.d + (l.size + 3) / 4)) →
                    w'.readV n k = w.readV n k)
                ∧ (∀ l x pa, w.spec = [l] → l.lanes = [x] → ¬ kept x → x.parts = [(pa, l.size)] → (l.signed = true → l.size ≤ 2) →
                    ∀ k, k < (l.size + 3) / 4 → l.d + k ≠ 255 →
                    let v := s.peekN pa l.size
                    w'.readV (l.d + k) x.lane = if l.signed then (if l.size = 1 then (BitVec.ofNat 8 v).signExtend 32 else (BitVec.ofNat 16 v).signExtend 32)
                      else BitVec.ofNat 32 (v / 2 ^ (32 * k))))
          ∧ (¬ stalls → ∀ l x pa, w.spec = [l] → l.lanes = [x] → ¬ kept x → x.parts = [(pa, l.size)] → s.unreachable pa = false →
              (∀ k, k < l.size → s.steady [] (.phys (pa + k) false)) → poisonedIn s.memPoison pa l.size = true →
              ∃ (s' : State) (w' : Warp), t = s'.raise gid wi l.sub { l.trap with tval := BitVec.ofNat 64 x.ptr } ∧ s'.warp? gid wi = some w'
                ∧ w'.acq = false ∧ ∀ k v, x.old[k]? = some v → l.d + k ≠ 255 → w'.readV (l.d + k) x.lane = v))
  ∧ (∀ (s : State) (gid wi : Nat), ∃ t, exec (.warpExit gid wi) s = .next t
      ∧ ∀ g w, s.group? gid = some g → s.warp? gid wi = some w →
          let drained : Prop := w.live = 0 ∧ w.exited = false ∧ (∀ o ∈ w.outst, o.kind = .free) ∧ (∀ x ∈ w.tokens, x.2.landed = true)
            ∧ (∀ o ∈ g.palOps, o.warp ≠ wi) ∧ w.subs = []
          (¬ drained → t = s)
          ∧ (drained → t = s.updGroup gid (fun g =>
              let g1 := g.updWarp wi (fun x => { x with exited := true, av := 0, vregs := [], sregs := [], tokens := [], outst := [],
                                                        inRie := false, priv := [], privPoison := [] })
              ({ g1 with pool := g.pool + w.av } : Group).tryClaims)))
  ∧ (∀ (s : State) (gid : Nat), ∃ t, exec (.groupEnd gid) s = .next t
      ∧ (s.group? gid = none → t = s)
      ∧ ∀ g, s.group? gid = some g →
          let isOver : Prop := g.ended = false ∧ (∀ w ∈ g.warps, w.exited = true) ∧ (∀ j ∈ s.jobs, j.gid = gid → j.st = .ended) ∧ g.palOps = []
            ∧ s.ctxFlips (s.ctxOf g) = false
          (¬ isOver → t = s)
          ∧ (isOver → (∀ e ∈ t.redbuf, gid ∉ e.gids) ∧ t.jobs = s.jobs.filter (fun j => j.gid != gid)
              ∧ ∃ g', t.group? gid = some g' ∧ g'.ended = true ∧ g'.warps = [] ∧ g'.pool = 0 ∧ g'.pals = [] ∧ g'.tiles = [] ∧ g'.queues = []
                ∧ g'.bars = [] ∧ g'.ext = [] ∧ g'.lent = none ∧ (g.stop.isSome = true → s.relaunchable g = false → g'.killed = true)
                ∧ ((∀ h ∈ s.groups, h.grid = g.grid → h.y = g.y → h.z = g.z → h.x / s.teamSize g = g.x / s.teamSize g → h.id = gid ∨ h.ended = true) →
                    g'.scratch = [] ∧ g'.tags = [])))

/-! ## The host's registers, queues and launches (R348 to R366) -/

/-- R6, R7, R348 to R352, R416: a register write sets the fields the host may write, a 1 clears a write-one field, and
every other bit and register stays; an index write past its limit stops the queue with its code; enabling zeroes the
indices; and the mapper gives a slot to the READY queue of highest effective priority and takes it back when its slice
ends. Where the manual is silent or open, the model's choice: log 55 to 58, 64. -/
def Obligations.RegistersAndQueuesAnswerTheHost : Prop :=
  let ring : DWord := 0xFFFFFFFFFFFFF000
  let table : List (Nat × DWord × DWord) :=
    [(0x200000, ring, 0), (0x200008, 0x1FFFF, 0), (0x200010, ring ||| 15, 0), (0x200018, 0xFFFFFFFF, 0), (0x200020, ring ||| 15, 0),
     (0x200028, 0xFFFFFFFF00000000, 0), (0x200030, 0x1FF01FF, 0), (0x200038, 0, 0x10000000000), (0x200040, ring, 0), (0x200048, 0xFFFFFFFF, 0),
     (0x400000, 0x00FFFFF00FFFFFFF, 0),
     (0x500000, 0x800003FF, 0), (0x500018, 0x7F, 0), (0x55F018, 0x7F, 0), (0x500010, 0, 0xFFFFFFFF),
     (0x700000, 0xFFFFFFFFFFFFFFFF, 0), (0x700008, ring ||| 15, 0), (0x700010, 0xFFFFFFFF00000000, 0), (0x700018, 0x1FF, 0xFFFFFFFF00000000)]
  (∀ (s : State) (off : Nat) (v rw w1c : DWord), (off, rw, w1c) ∈ table → s.bu.phase ≠ 15 →
    ∃ t, exec (.registerWrite off v) s = .next t ∧ t = { s with bar := t.bar } ∧ (∀ o, o ≠ off → t.barGet o = s.barGet o)
      ∧ t.barGet off = ((s.barGet off &&& ~~~rw) ||| (v &&& rw)) &&& ~~~(v &&& w1c))
  ∧ (∀ (s : State) (p : Nat) (v : DWord), s.bu.phase ≠ 15 → p < 96 → ∃ t, exec (.registerWrite (0x300000 + 8 * p) v) s = .next t
      ∧ t = { s with bar := t.bar } ∧ t.barGet 0x300300 = s.barGet 0x300300
      ∧ t.barFld (0x300000 + 8 * p) 2 62
          = ((((s.barGet (0x300000 + 8 * p) &&& ~~~0x8000) ||| (v &&& 0x8000)) &&& ~~~(v &&& 0xFFFF0000)).extractLsb' 2 62).toNat)
  ∧ (∀ (s : State) (v : DWord), s.bu.phase ≠ 15 → ∃ t, exec (.registerWrite 0x300300 v) s = .next t
      ∧ (s.barFld 0x300300 6 1 = 1 → t.barGet 0x300300 = s.barGet 0x300300)
      ∧ (s.barFld 0x300300 6 1 = 0 → t.barGet 0x300300 = (s.barGet 0x300300 &&& ~~~0x7F) ||| (v &&& 0x7F)))
  ∧ (∀ (s : State) (off p : Nat) (v : DWord), s.bu.phase ≠ 15 → off % 8 = 0 → 0x300000 ≤ off → off ≤ 0x300300 → p < 96 →
      (off = 0x300300 → s.barFld 0x300300 6 1 = 0) →
      ∃ t, exec (.registerWrite off v) s = .next t ∧
      let pr := 0x300000 + 8 * p
      let may : Prop := t.bu.phase = 5 ∧ t.barFld pr 15 1 = 1 ∧ t.barFld 0x300300 6 1 = 1
      (s.barFld pr 0 2 ≤ 1 → may → t.barFld pr 0 2 = 1) ∧ (s.barFld pr 0 2 = 1 → ¬ may → t.barFld pr 0 2 = 0)
      ∧ (s.barFld pr 0 2 = 0 → ¬ may → t.barFld pr 0 2 = 0) ∧ (2 ≤ s.barFld pr 0 2 → t.barFld pr 0 2 = s.barFld pr 0 2))
  ∧ (∀ (s : State) (e : Nat) (v : DWord), e < 11 → s.bu.phase ≠ 15 → ∃ t, exec (.registerWrite (0x600000 + 16 * e) v) s = .next t
      ∧ t.barGet (0x600000 + 16 * e) = s.barGet (0x600000 + 16 * e) &&& ~~~v)
  ∧ (∀ (s : State) (off : Nat) (v : DWord), ∃ t, exec (.registerWrite off v) s = .next t
      ∧ (off % 8 ≠ 0 → t = s) ∧ (s.bu.phase = 15 → off ∉ [0x1000, 0x1008] → (off < 0x2000 ∨ 0x3000 ≤ off) → t = s)
      ∧ (off = 0 → t = s) ∧ t.groups = s.groups ∧ t.grids = s.grids)
  ∧ (∀ (s : State) (v : DWord), ∃ t, exec (.registerWrite 0x1000 v) s = .next t ∧
      let op := (v.extractLsb' 0 8).toNat
      let allowed : Prop := (op = 3 → s.bu.phase ∈ [3, 4, 5, 15]) ∧ (op = 4 → s.bu.phase = 15 ∧ (s.bu.failC = 6 ∨ s.bu.failC = 7))
        ∧ (op = 5 → s.bu.phase = 5)
      (s.bu.busy = true → t = s)
      ∧ (s.bu.busy = false → (op = 0 ∨ 6 < op) → t.bu.busy = false ∧ t.bu.doneBit = true ∧ t.bu.result = 1 ∧ t.bu.outLen = 0)
      ∧ (s.bu.busy = false → op ≠ 0 → op ≤ 6 → ¬ allowed → t.bu.busy = false ∧ t.bu.doneBit = true ∧ t.bu.result = 2)
      ∧ (s.bu.busy = false → op ≠ 0 → op ≤ 6 → allowed → t = { s with bu :=
          { s.bu with busy := true, op := op, inLen := (v.extractLsb' 32 16).toNat } }))
  ∧ (∀ (s : State) (k : Nat) (v : DWord), k < 512 → ∃ t, exec (.registerWrite (0x2000 + 8 * k) v) s = .next t
      ∧ t.regRead (0x2000 + 8 * k) = some v ∧ t = { s with bu := { s.bu with buf := t.bu.buf } })
  ∧ (∀ (s : State) (q k : Nat) (v : DWord), q < 1024 → k < 2 → s.bu.phase ≠ 15 → ∃ t, exec (.registerWrite (0x100000 + 64 * q + 8 * k) v) s = .next t
      ∧ (s.qd q 154 1 = 1 → t = s) ∧ (s.qd q 154 1 = 0 → t.barGet (0x100000 + 64 * q + 8 * k) = v))
  ∧ (∀ (s : State) (q : Nat) (v : DWord), q < 1024 → s.bu.phase ≠ 15 → ∃ t, exec (.registerWrite (0x100000 + 64 * q + 16) v) s = .next t
      ∧ t.qd q 154 1 = (v.extractLsb' 26 1).toNat
      ∧ (s.qd q 154 1 = 0 → v.getLsbD 26 = true → t.idx q 0 = 0 ∧ t.idx q 1 = 0 ∧ t.idx q 2 = 0 ∧ t.idx q 3 = 0)
      ∧ (s.qd q 154 1 = 1 → v.getLsbD 26 = false → 
          (s.waitsReply (.ringRead q) = false → (t.queue q).st = .off ∧ q ∉ t.slots)
          ∧ (s.waitsReply (.ringRead q) = true → (t.queue q).st = (s.queue q).st ∧ (q ∈ t.slots ↔ q ∈ s.slots)))
      ∧ (s.qd q 157 1 = 1 → v.getLsbD 29 = true → t.qd q 157 1 = 0 ∧ t.qd q 168 8 = 0))
  ∧ (∀ (s : State) (q : Nat) (v : Word), q < 1024 → s.bu.phase ≠ 15 → ∃ t, exec (.wridxWrite q v) s = .next t ∧
      let n := max 4 (s.qd q 128 4)
      (v = s.idx q 0 → t = s)
      ∧ (v ≠ s.idx q 0 → 2 ^ n < (v - s.idx q 1).toNat → t.qd q 157 1 = 1 ∧ t.qd q 168 8 = 1 ∧ t.idx q 0 = s.idx q 0 ∧ q ∉ t.slots)
      ∧ (v ≠ s.idx q 0 → (v - s.idx q 1).toNat ≤ 2 ^ n → t.idx q 0 = v ∧ t.idx q 1 = s.idx q 1
          ∧ ((s.queue q).st = .idle → v ≠ s.idx q 1 → t.queue q = { s.queue q with st := .ready, since := s.timer })
          ∧ ((s.queue q).st ≠ .idle → t.queue q = s.queue q)))
  ∧ (∀ (s : State) (q : Nat) (v : Word), q < 1024 → s.bu.phase ≠ 15 → ∃ t, exec (.crdidxWrite q v) s = .next t
      ∧ ((s.idx q 2 - s.idx q 3).toNat < (v - s.idx q 3).toNat → t.qd q 157 1 = 1 ∧ t.qd q 168 8 = 4 ∧ t.idx q 3 = s.idx q 3 ∧ q ∉ t.slots)
      ∧ ((v - s.idx q 3).toNat ≤ (s.idx q 2 - s.idx q 3).toNat → t.idx q 3 = v ∧ t.idx q 2 = s.idx q 2 ∧ t.queues = s.queues))
  ∧ (∀ (s : State) (q : Nat), q < 1024 → s.bu.phase ≠ 15 → ∃ t, exec (.queueEnable q) s = .next t
      ∧ (s.qd q 154 1 = 1 → t = s)
      ∧ (s.qd q 154 1 = 0 → t.qd q 154 1 = 1 ∧ (∀ k, k < 4 → t.idx q k = 0)
          ∧ (t.queue q).st = if s.qd q 157 1 = 1 then .stopped else .idle))
  ∧ (∀ (s : State) (q : Nat), q < 1024 → s.bu.phase ≠ 15 → ∃ t, exec (.queueErrClear q) s = .next t
      ∧ t.qd q 157 1 = 0 ∧ t.qd q 168 8 = 0 ∧ (∀ k, k < 4 → t.idx q k = s.idx q k)
      ∧ ((s.queue q).st = .stopped → s.qd q 154 1 = 1 → (t.queue q).st = if s.idx q 0 = s.idx q 1 then .idle else .ready)
      ∧ ((s.queue q).st ≠ .stopped → t.queues = s.queues))
  ∧ (∀ (s : State), ∃ t, exec .queueSlotSelect s = .next t
      ∧ ((s.bu.phase ≠ 4 ∧ s.bu.phase ≠ 5) ∨ s.bu.stopping = true ∨ 32 ≤ s.slots.length ∨ (∀ e ∈ s.queues, e.2.st ≠ .ready) → t = s)
      ∧ ((s.bu.phase = 4 ∨ s.bu.phase = 5) → s.bu.stopping = false → s.slots.length < 32 → (∃ e ∈ s.queues, e.2.st = .ready) →
          ∃ q, q ∈ s.readyQueues ∧ t.slots = s.slots ++ [q] ∧ t.queue q = { s.queue q with st := .active, slotAt := s.timer }
            ∧ (∀ r ∈ s.readyQueues, s.effPrio r < s.effPrio q ∨ (s.effPrio r = s.effPrio q ∧ s.waited r ≤ s.waited q))))
  ∧ (∀ (s : State) (q : Nat), s.effPrio q = min 3 (s.qd q 152 2 + (s.timer - (s.queue q).since) / 4000000))
  ∧ (∀ (s : State) (q : Nat), ∃ t, exec (.timeSliceExpiry q) s = .next t ∧
      let isOver : Prop := q ∈ s.slots ∧ s.waitsReply (.ringRead q) = false ∧ (s.queue q).slotAt + 1000 * max 1 (s.qd q 176 16) ≤ s.timer ∧ ∃ r ∈ s.readyQueues, s.qd q 152 2 ≤ s.effPrio r
      (¬ isOver → t = s)
      ∧ (isOver → q ∉ t.slots ∧ (∀ r, r ≠ q → (r ∈ t.slots ↔ r ∈ s.slots)) ∧ t.queue q = { s.queue q with st := .ready, since := s.timer }))

/-- R17, R20, R25, R289, R350 to R366: a packet at the head of its ring becomes a grid, or a launch with a STATUS; units
are placed on the first core from the rotor that admits them, with warps at ENTRY; tasks become grids of their own; a
launch on several packages arms, goes or aborts; and the record of a finished grid, CWRIDX and SIGNAL are written in
that order. Where the manual is silent or open, the model's choice: log 31, 61 to 63, 65, 103, 112. -/
def Obligations.LaunchesAreReadPlacedAndRecorded : Prop :=
  (∀ (s : State) (q : Nat), ∃ t, exec (.packetRead q) s = .next t ∧ (s.packetDue q = false → t = s)
    ∧ (s.packetDue q = true →
      let ctx := s.qd q 136 16
      let va := s.qd q 0 64 + 128 * ((s.idx q 1).toNat % 2 ^ max 4 (s.qd q 128 4))
      let passed : Prop := t.idx q 1 = s.idx q 1 + 1
      let launch (d : Grid) : Prop := t.grids = s.grids ++ [d] ∧ d.ctx = ctx ∧ d.queue = some q ∧ d.depth = 0 ∧ d.done = false
      (s.ctxValid ctx = false → passed ∧ ∃ d, launch d ∧ d.phase = .refused ∧ d.status = some 7)
      ∧ (s.ctxValid ctx = true → MapperRefused s ctx va false → t.qd q 157 1 = 1 ∧ t.qd q 168 8 = 2 ∧ t.idx q 1 = s.idx q 1 ∧ t.grids = s.grids)
      ∧ (∀ pa, s.ctxValid ctx = true → va % 4096 + 128 ≤ 4096 → MapperHit s ctx va 128 false pa → s.quiet pa 128 →
          let p : BitVec 1024 := BitVec.ofNat 1024 (s.peekN pa 128)
          let waits : Prop := p.getLsbD 575 = true ∧ s.openLaunches q = true
          (waits → t.idx q 1 = s.idx q 1 ∧ t.grids = s.grids ∧ (t.queue q).st = .held)
          ∧ (¬ waits → cwtRead p = false → s.others p = [] → passed ∧ ∃ d, launch d ∧ d.pkt = p ∧ d.wins = 0
              ∧ d.gen = p.extractLsb' 384 32
              ∧ (packetBad s.pkg (s.qd q 155 1 == 1) p 0 = true → d.phase = .refused ∧ d.status = some 1)
              ∧ (packetBad s.pkg (s.qd q 155 1 == 1) p 0 = false →
                  ((∃ e ∈ s.grids, e.ctx = ctx ∧ e.done = false ∧ e.gen = d.gen) → d.phase = .refused ∧ d.status = some 6)
                  ∧ ((∀ e ∈ s.grids, e.ctx = ctx → e.done = false → e.gen ≠ d.gen) → p.getLsbD 573 = false →
                      d.phase = .placing ∧ d.status = none ∧ d.prio = min (p.extractLsb' 570 2).toNat (s.qd q 152 2) ∧ d.maxp = s.qd q 152 2 ∧ d.origin = s.pkg
                      ∧ d.next = 0 ∧ d.last = (p.extractLsb' 320 31).toNat * (p.extractLsb' 352 16).toNat * (p.extractLsb' 368 16).toNat))))))
  ∧ (∀ (s : State), ∃ t, exec .groupPlacement s = .next t ∧ (s.placement = none → t = s)
    ∧ ∀ d, s.servedGrids = [d] → s.grid? d.id = some d → s.resumeBlock = none → s.bu.tripped = false → d.pkt.getLsbD 573 = false → teamT d.pkt = 1 →
      ((∀ c, c < 576 → s.admits c d.pkt = false) → t = s)
      ∧ ∀ k, k < 576 → s.admits ((s.rotor + k) % 576) d.pkt = true → (∀ j, j < k → s.admits ((s.rotor + j) % 576) d.pkt = false) →
          let nx := (d.pkt.extractLsb' 320 31).toNat
          let ny := (d.pkt.extractLsb' 352 16).toNat
          let lin := ((d.relaunch.head?).map (fun e => e.1)).getD d.next
          t.rotor = ((s.rotor + k) % 576 + 1) % 576 ∧ (∀ a, a < 2 ^ 52 → thas t.l1 (l1Key ((s.rotor + k) % 576) a) = false)
          ∧ ∃ g d', t.groups = s.groups ++ [g] ∧ t.grid? d.id = some d' ∧ d'.next = (if d.relaunch = [] then d.next + 1 else d.next)
            ∧ d'.relaunch = d.relaunch.drop 1 ∧ g.grid = d.id ∧ g.core = (s.rotor + k) % 576 ∧ g.id = s.nextId ∧ g.lin = lin
            ∧ g.x = lin % nx ∧ g.y = lin / nx % ny ∧ g.z = lin / (nx * ny) ∧ g.ended = false ∧ g.stop = none ∧ g.scratch = [] ∧ g.tiles = []
            ∧ g.pool = 8 * (d.pkt.extractLsb' 520 10).toNat ∧ g.warps.length = warpCount d.pkt
            ∧ ∀ (i : Nat) w, g.warps[i]? = some w → w.idx = i ∧ w.role = roleOf (roleCounts d.pkt) i ∧ w.live = 0xFFFFFFFF
              ∧ w.av = 8 * ((d.pkt.extractLsb' 512 5).toNat + 1) ∧ w.as = 8 * ((d.pkt.extractLsb' 517 3).toNat + 1)
              ∧ w.fpmode = d.pkt.extractLsb' 416 32 ∧ w.fpflags = 0 ∧ w.tvec = d.pkt.extractLsb' 64 64 ∧ w.pkr = d.pkt.extractLsb' 192 64
              ∧ w.vregs = [] ∧ w.sregs = [] ∧ w.preds = [] ∧ w.locks = 0 ∧ w.inh = false
              ∧ ∃ u, w.subs = [u] ∧ u.lanes = 0xFFFFFFFF ∧ u.pc = d.pkt.extractLsb' 0 64 ∧ u.mid = none ∧ u.run = none ∧ u.st = .ready
                ∧ u.loop = ⟨[0, 0, 0], [0, 0, 0], [0, 0, 0], 0⟩)
  ∧ (∀ (s : State) (grid : Nat), ∃ t, exec (.placementWaitExpiry grid) s = .next t ∧ (s.grid? grid = none → t = s)
    ∧ ∀ d, s.grid? grid = some d →
      let due : Prop := s.wants d = true ∧ d.blocking = false ∧ d.waitSince + 1000000 ≤ s.timer
      (due → t = s.updGrid grid (fun d => { d with blocking := true })) ∧ (¬ due → t = s))
  ∧ (∀ (s : State) (task : Nat), ∃ t, exec (.spawnAccept task) s = .next t ∧ (s.tasks.find? (fun k => k.id == task) = none → t = s)
    ∧ ∀ k, s.tasks.find? (fun k => k.id == task) = some k →
      let full : Prop := 1024 ≤ (s.tasks.filter (fun x => x.accepted && x.die == k.die)).length
      (k.accepted = true → t = s)
      ∧ (k.accepted = false → s.bu.stopping = true → t.grids = s.grids ∧ t.tasks = s.tasks.filter (fun x => x.id != k.id)
          ∧ ∀ g ∈ t.groups, ∀ w ∈ g.warps, ∀ o ∈ w.outst, o.kind ≠ .task k.id)
      ∧ (k.accepted = false → s.bu.stopping = false → k.unread = false → (k.held = true ∨ full) → t = s)
      ∧ (k.accepted = false → s.bu.stopping = false → k.unread = false → k.held = false → ¬ full →
          ∃ d, t.grids = s.grids ++ [d] ∧ d.id = k.id ∧ d.pkt = k.pkt ∧ d.wins = k.wins ∧ d.ctx = k.ctx ∧ d.depth = k.depth ∧ d.root = k.root
            ∧ d.queue = none ∧ d.phase = .placing ∧ d.prio = min (k.pkt.extractLsb' 570 2).toNat k.maxp
            ∧ (s.grids.length < 2 ^ 32 → ∀ e ∈ s.grids, e.ctx = k.ctx → e.done = false → e.gen ≠ d.gen)
            ∧ (∀ x ∈ t.tasks, x.id = task → x.accepted = true)
            ∧ ∀ g ∈ t.groups, ∀ w ∈ g.warps, ∀ o ∈ w.outst, o.kind ≠ .task k.id)
      ∧ (∀ pa, k.accepted = false → s.bu.stopping = false → k.unread = true →
          k.addr.toNat % 4096 + 128 ≤ 4096 → MapperHit s k.ctx k.addr.toNat 128 false pa → s.quiet pa 128 →
          let p : BitVec 1024 := BitVec.ofNat 1024 (s.peekN pa 128)
          cwtRead p = false →
            (taskBad s.pkg (s.rootPriv k) p 0 = true → t.tasks = s.tasks.filter (fun x => x.id != k.id) ∧ .badTask k.ctx k.addr ∈ t.out)
            ∧ (taskBad s.pkg (s.rootPriv k) p 0 = false →
                ∃ x ∈ t.tasks, x = { k with pkt := p, wins := 0, unread := false })))
  ∧ (∀ (s : State) (pkg origin ctx status : Nat) (rep : Replica) (w : BitVec 1024), ∃ t, exec (.arm pkg origin ctx status rep w) s = .next t ∧
      let p := rep.pkt
      let gen : Word := p.extractLsb' 384 32
      (origin ≠ s.pkg → pkg ≠ s.pkg → t = s)
      ∧ (origin ≠ s.pkg → pkg = s.pkg → s.ctxValid ctx = false → t = s.send (.arm origin ctx gen 7))
      ∧ (origin ≠ s.pkg → pkg = s.pkg → s.ctxValid ctx = true → s.bu.phase ≠ 5 → t = s.send (.arm origin ctx gen 5))
      ∧ (origin ≠ s.pkg → pkg = s.pkg → s.ctxValid ctx = true → s.bu.phase = 5 → packetBad s.pkg true p w = true → t = s.send (.arm origin ctx gen 1))
      ∧ (origin ≠ s.pkg → pkg = s.pkg → s.ctxValid ctx = true → s.bu.phase = 5 → packetBad s.pkg true p w = false → p.getLsbD 573 = false →
          (∀ e ∈ s.grids, e.ctx = ctx → e.done = false → e.gen ≠ gen) →
          ∃ d, t.grids = s.grids ++ [d] ∧ t.out = s.out ++ [.arm origin ctx gen 0] ∧ d.pkt = p ∧ d.wins = w ∧ d.origin = origin ∧ d.phase = .await
            ∧ d.maxp = rep.maxp ∧ d.prio = min (p.extractLsb' 570 2).toNat rep.maxp)
      ∧ (∀ d dl, origin = s.pkg → s.stamped ctx gen = some d → d.phase = .arming dl → pkg ∈ s.others d.pkt →
          (status ≠ 0 → t.grids = (s.updGrid d.id (fun d => { d with phase := .refused, status := some status, lastEnd := s.nextId })).grids
            ∧ ∀ k ∈ s.others d.pkt, .abort k d.ctx d.gen ∈ t.out)
          ∧ (status = 0 → (∀ k ∈ s.pkgs d.pkt, k ∈ d.armed ∨ k = pkg) → (∀ k ∈ s.others d.pkt, .go k ctx gen ∈ t.out)
              ∧ ∀ e, t.grid? d.id = some e → e.phase = .placing)
          ∧ (status = 0 → (∃ k ∈ s.pkgs d.pkt, k ∉ d.armed ∧ k ≠ pkg) → t.out = s.out ∧ ∀ e, s.grid? d.id = some d → t.grid? d.id = some e →
              e.phase = d.phase ∧ pkg ∈ e.armed)))
  ∧ (∀ (s : State) (grid : Nat), ∃ t, exec (.armTimeout grid) s = .next t
      ∧ (∀ d dl, s.grid? grid = some d → d.phase = .arming dl → d.done = false → dl ≤ s.timer →
          t.grids = (s.updGrid d.id (fun d => { d with phase := .refused, status := some 5, lastEnd := s.nextId })).grids ∧ ∀ k ∈ s.others d.pkt, .abort k d.ctx d.gen ∈ t.out)
      ∧ ((∀ d dl, s.grid? grid = some d → d.phase = .arming dl → d.done = true ∨ s.timer < dl) → t = s))
  ∧ (∀ (s : State) (ctx gen : Nat), ∃ t, exec (.go ctx gen) s = .next t
      ∧ (∀ d, s.stamped ctx (BitVec.ofNat 32 gen) = some d → d.phase = .await →
          t = s.updGrid d.id (fun d => { d with phase := .placing, waitSince := s.timer }))
      ∧ ((∀ d, s.stamped ctx (BitVec.ofNat 32 gen) = some d → d.phase ≠ .await) → t = s))
  ∧ (∀ (s : State) (ctx gen : Nat), ∃ t, exec (.abort ctx gen) s = .next t
      ∧ (∀ d, s.stamped ctx (BitVec.ofNat 32 gen) = some d → d.phase = .await →
          t = s.updGrid d.id (fun d => { d with phase := .refused, done := true }))
      ∧ ((∀ d, s.stamped ctx (BitVec.ofNat 32 gen) = some d → d.phase ≠ .await) → t = s))
  ∧ (∀ (s : State) (pkg ctx gen status cause : Nat) (rep : DoneReport), ∃ t, exec (.done pkg ctx gen status cause rep) s = .next t
      ∧ (s.stamped ctx (BitVec.ofNat 32 gen) = none → t = s)
      ∧ ∀ d, s.stamped ctx (BitVec.ofNat 32 gen) = some d →
        (pkg = s.pkg → s.doneDue d = false → t = s)
        ∧ (pkg = s.pkg → s.doneDue d = true → t.out = s.out ++ [.done d.origin ctx (BitVec.ofNat 32 gen)
              (if d.dropped then 8 else d.status.getD (if d.kill.isSome then 3 else 0)) (d.kill.getD 0) d.tstart d.counts]
            ∧ t.groups = s.groups.filter (fun g => g.grid != d.id) ∧ ∀ e, t.grid? d.id = some e → e.done = true)
        ∧ (pkg ≠ s.pkg → (d.origin ≠ s.pkg ∨ pkg ∉ s.others d.pkt ∨ pkg ∈ d.dones) → t = s)
        ∧ (pkg ≠ s.pkg → d.origin = s.pkg → pkg ∈ s.others d.pkt → pkg ∉ d.dones → s.grid? d.id = some d →
            ∃ e, t.grid? d.id = some e ∧ e.dones = d.dones ++ [pkg] ∧ e.dropped = (d.dropped || status == 8)
              ∧ e.kill = (if status = 3 then some (d.kill.getD cause) else d.kill)
              ∧ e.status = (if status = 4 then some (d.status.getD 4) else d.status)
              ∧ (rep.tstart = 0 → e.tstart = d.tstart) ∧ (d.tstart = 0 → e.tstart = rep.tstart)
              ∧ (rep.tstart ≠ 0 → d.tstart ≠ 0 → e.tstart = min d.tstart rep.tstart)
              ∧ (∀ k, (rep.counts.map (fun e => e.1)).Nodup → tget 0 rep.counts k < 2 ^ 32 → tget 0 d.counts k < 2 ^ 32 →
                  tget 0 e.counts k = min (tget 0 d.counts k + tget 0 rep.counts k) 0xFFFFFFFF)))
  ∧ (∀ (s : State) (grid : Nat), ∃ t, exec (.completionRecordWrite grid) s = .next t
      ∧ ((∀ d, s.grid? grid = some d → s.recordDue d = false ∨ s.signalStalls d = true) → t = s)
      ∧ (∀ d e, s.grid? grid = some d → s.recordDue d = true → d.queue ≠ none → e ∈ s.grids → e.queue = d.queue → s.gridOver e = true →
          d.lastEnd ≤ e.lastEnd)
      ∧ ∀ d, s.grid? grid = some d → s.recordDue d = true → s.signalStalls d = false →
        let ended : Prop := (∀ g ∈ t.groups, g.grid ≠ grid) ∧ ∀ e, t.grid? grid = some e → e.done = true
        (d.queue = none → ended ∧ (signalOk d.pkt = false → t.mem = s.mem))
        ∧ (∀ pa, d.queue = none → signalOk d.pkt = true → s.ctxValid d.ctx = true → MapperHit s d.ctx (d.pkt.extractLsb' 640 64).toNat 8 true pa →
            s.quiet pa 8 → t.peekN pa 8 = (d.pkt.extractLsb' 704 64).toNat)
        ∧ (∀ q, d.queue = some q →
            let ctx := s.qd q 136 16
            let va := s.qd q 64 64 + 128 * ((s.idx q 2).toNat % 2 ^ max 4 (s.qd q 132 4))
            let refused : Prop := t.qd q 157 1 = 1 ∧ t.qd q 168 8 = 3 ∧ t.idx q 2 = s.idx q 2 ∧ ∀ e, t.grid? grid = some e → e.done = d.done
            (s.ctxValid ctx = false → refused)
            ∧ (s.ctxValid ctx = true → MapperRefused s ctx va true → refused)
            ∧ (∀ pa, s.ctxValid ctx = true → MapperHit s ctx va 128 true pa → s.quiet pa 128 → signalOk d.pkt = false →
                let st := if d.dropped then 8 else d.status.getD (if d.kill.isSome then 3 else 0)
                ended ∧ t.idx q 2 = s.idx q 2 + 1
                ∧ t.peekN pa 8 = (d.pkt.extractLsb' 576 64).toNat
                ∧ t.peekN (pa + 8) 8 = (st + (if st = 3 then d.kill.getD 0 else 0) * 2 ^ 8 + d.gen.toNat * 2 ^ 32) % 2 ^ 64
                ∧ t.peekN (pa + 16) 8 = d.tstart % 2 ^ 64 ∧ t.peekN (pa + 24) 8 = s.timer % 2 ^ 64
                ∧ (∀ k, k < 24 → t.peekN (pa + 32 + 4 * k) 4 = tget 0 d.counts k % 2 ^ 32)
                ∧ (s.qd q 156 1 = 1 → .msix (s.qd q 160 8) ∈ t.out))))

/-! ## The driver (R367 to R392) -/

/-- R309, R367, R378 to R386: the command at CRD completes with its effect or with its code, and nothing else changes;
an invalidation removes what R383 says; a reply re-issues or fails its waiters, is logged, or is discarded; a fault
record holds the fields of R380 and FWR passes it. Where the manual is silent or open, the model's choice: log 71, 72,
74 to 77. -/
def Obligations.DriverCommandsAreCarriedOut : Prop :=
  let ops : List (Instr × Nat) := [(.invpg, 1), (.invctx, 2), (.invall, 3), (.ptfence, 4), (.reply, 5), (.preempt, 6), (.resume, 7),
    (.kill, 8), (.brkset, 9), (.hcont, 10)]
  let run (i : Instr) (op : Nat) (k : State → State → BitVec 256 → Nat → Prop) : Prop :=
    ∀ (s : State) v, s.CmdAt v → v.extractLsb' 0 8 = BitVec.ofNat 8 op → v.extractLsb' 192 64 = 0 →
      (op = 3 ∨ op = 4 ∨ s.ctxValid (v.extractLsb' 16 16).toNat = true) → s.ctxFlips (v.extractLsb' 16 16).toNat = false →
      ∃ t, exec i s = .next t ∧ k s t v (v.extractLsb' 16 16).toNat
  (∀ (s : State) i op, (i, op) ∈ ops → ∃ t, exec i s = .next t
    ∧ ((s.bu.phase = 15 ∨ s.barFld 0x200018 0 32 = s.barFld 0x200018 32 32) → t = s)
    ∧ ∀ v, s.CmdAt v →
      let o := (v.extractLsb' 0 8).toNat
      (o ≠ op → 1 ≤ o → o ≤ 10 → t = s)
      ∧ ((o = 0 ∨ 10 < o ∨ (o = op ∧ (v.extractLsb' 192 64 ≠ 0 ∨ (op ≠ 3 ∧ op ≠ 4 ∧ s.ctxValid (v.extractLsb' 16 16).toNat = false)))) →
          s.CmdEnds s t 1)
      ∧ (o = op → v.extractLsb' 192 64 = 0 → (op = 3 ∨ op = 4 ∨ s.ctxValid (v.extractLsb' 16 16).toNat = true) →
          s.ctxFlips (v.extractLsb' 16 16).toNat = true → t = s))
  ∧ run .invpg 1 (fun s t v c =>
      let a := (v.extractLsb' 64 64).toNat
      let n := (v.extractLsb' 128 64).toNat
      a % 4096 = 0 → n % 4096 = 0 → ∃ l w, s.CmdEnds { s with tlb := l, walkCache := w } t 0
        ∧ (∀ e, e ∈ l ↔ e ∈ s.tlb ∧ ¬ (e.ctx = c
              ∧ blockMeets a n (e.vpn * 4096 / leafBytes e.leaf e.level * leafBytes e.leaf e.level) (leafBytes e.leaf e.level)))
        ∧ (∀ e, e ∈ w ↔ e ∈ s.walkCache ∧ ¬ (e.ctx = c ∧ blockMeets a n (e.pre * 2 ^ (45 - 11 * e.level)) (2 ^ (45 - 11 * e.level)))))
  ∧ run .invctx 2 (fun s t _ c => ∃ l w, s.CmdEnds { s with tlb := l, walkCache := w } t 0
      ∧ (∀ e, e ∈ l ↔ e ∈ s.tlb ∧ (e.ctx = c → (BitVec.ofNat 64 e.leaf).getLsbD 7 = true)) ∧ (∀ e, e ∈ w ↔ e ∈ s.walkCache ∧ e.ctx ≠ c))
  ∧ run .invall 3 (fun s t _ _ => s.CmdEnds { s with tlb := [], walkCache := [] } t 0)
  ∧ run .ptfence 4 (fun s t _ _ => s.CmdEnds { s with walkCache := [] } t 0)
  ∧ run .reply 5 (fun s t v c =>
      let seq : Word := v.extractLsb' 32 32
      let e : BitVec 16 := v.extractLsb' 128 16
      let fail := v.getLsbD 8
      let named (f : FaultEv) : Prop := f.seq = some seq ∧ f.ctx = c ∧ f.epoch = e ∧ f.kind ≤ 2
      let logs : Prop := 2 ≤ s.ctxState c ∧ e = s.epoch c - 1
      (¬ (s.ctxState c = 1 ∧ e = s.epoch c ∧ ∃ f ∈ s.faults, named f) → ¬ logs → s.CmdEnds s t 2)
      ∧ (logs → s.saveStalls c = true → t = s)
      ∧ (logs → s.saveAt c = none → s.CmdEnds s t 5)
      ∧ (∀ a, logs → s.saveStalls c = false → s.saveAt c = some a → 252 ≤ s.peekN (a + 16) 4 → s.CmdEnds s t 5)
      ∧ (∀ a, logs → s.saveStalls c = false → s.saveAt c = some a → s.peekN (a + 16) 4 < 252 → s.unreachable (a + 256 + 16 * s.peekN (a + 16) 4) = false →
          s.unreachable (a + 16) = false →
          s.CmdOver t 0 ∧ t.faults = s.faults ∧ t.groups = s.groups ∧ t.peekN (a + 16) 4 = s.peekN (a + 16) 4 + 1
            ∧ t.peekN (a + 256 + 16 * s.peekN (a + 16) 4) 16 = seq.toNat + (if fail then 2 ^ 32 else 0))
      ∧ (∀ f w, s.ctxState c = 1 → e = s.epoch c → s.faults.find? (fun f => f.seq == some seq && f.ctx == c && f.epoch == e && f.kind ≤ 2) = some f →
          f.waiters = [w] →
          let rest := s.faults.filter (fun x => x.fid != f.fid)
          (∀ g wi u tr x n, w = .sub g wi u tr → s.sub? g wi u = some x → x.st = .parked n →
              s.CmdEnds ({ s with faults := rest }.updSub g wi u (fun x => match x.st with
                | .parked _ => { x with st := .ready, pend := if fail then some tr else none }
                | _ => x)) t 0)
          ∧ (∀ id j n, w = .job id → s.job? id = some j → j.st = .stalled n → (fail = true → j.lock = false) →
              s.CmdEnds ({ s with faults := rest }.updJob id (fun j =>
                if fail then { j with st := .ended, status := 1 } else { j with st := if j.kind = 2 && j.lock then .locked else .accepted })) t 0)
          ∧ (∀ q, w = .ringRead q → q < 1024 → (fail = false → s.CmdEnds { s with faults := rest } t 0)
              ∧ (fail = true → s.CmdOver t 0 ∧ t.faults = rest ∧ t.qd q 157 1 = 1 ∧ t.qd q 168 8 = 2 ∧ q ∉ t.slots))
          ∧ (∀ d g q, w = .ringWrite d → s.grid? d = some g → g.queue = some q → q < 1024 → (fail = false → s.CmdEnds { s with faults := rest } t 0)
              ∧ (fail = true → s.CmdOver t 0 ∧ t.faults = rest ∧ t.qd q 157 1 = 1 ∧ t.qd q 168 8 = 3 ∧ q ∉ t.slots))))
  ∧ run .kill 8 (fun s t _ c =>
      (∀ g ∈ s.groups, g.ended = false → s.ctxOf g = c → ∃ g' ∈ t.groups, g'.id = g.id ∧ g'.killed = true ∧ g'.stop = some (0, 0) ∧ g'.palOps = []
          ∧ ∀ w ∈ g'.warps, w.live = 0 ∧ w.subs = [])
      ∧ (∀ d ∈ s.grids, d.ctx = c → d.done = false → d.phase = .placing → (∀ e ∈ s.grids, e.id = d.id → e = d) →
          ∃ d' ∈ t.grids, d'.id = d.id ∧ d'.status = some (d.status.getD 4))
      ∧ (∀ k ∈ t.tasks, k.ctx = c → k.accepted = true)
      ∧ ((∀ g ∈ s.groups, s.ctxOf g = c → g.ended = true) → s.CmdOver t 0))
  ∧ run .brkset 9 (fun s t v c => s.CmdEnds (s.setCtx { s.ctx c with
      brk := (s.ctx c).brk.set ((v.extractLsb' 32 2).toNat) (if v.getLsbD 8 then some (v.extractLsb' 128 64) else none) }) t 0)
  ∧ run .hcont 10 (fun s t _ c => (2 ≤ s.ctxState c → s.CmdEnds s t 3)
      ∧ (s.ctxState c < 2 → ∃ l, s.CmdEnds { s with groups := l } t 0 ∧ l.map Group.unstopped = s.groups.map Group.unstopped
          ∧ ∀ g ∈ l, g.ended = false → s.ctxOf g = c → ∀ w ∈ g.warps, w.stopped = false))
  ∧ (∀ (s : State), ∃ t, exec .faultRecordWrite s = .next t ∧
      let w := s.barFld 0x200028 0 32
      let full : Prop := 2 ^ (s.barFld 0x200020 0 4 + 4) ≤ (w + 2 ^ 32 - s.barFld 0x200028 32 32) % 2 ^ 32
      let at' (n : Nat) : Option Nat := s.canonPa (s.barFld 0x200020 12 52 * 4096 + 64 * (n % 2 ^ (s.barFld 0x200020 0 4 + 4)))
      let grows (f : FaultEv) (n : Word) (a : Nat) : Prop := f.seq = some n ∧ f.wrote < min f.merged 65535
        ∧ (w + 2 ^ 32 - n.toNat) % 2 ^ 32 ≤ 2 ^ (s.barFld 0x200020 0 4 + 4) ∧ at' n.toNat = some a ∧ s.flipIn a 64 = false
      (s.bu.phase = 15 → t = s)
      ∧ (∀ f a b n x, s.bu.phase ≠ 15 → s.faults = a ++ f :: b → (∀ g ∈ a, ∀ m y, ¬ grows g m y) → grows f n x → s.unreachable x = false →
          (∀ g ∈ a ++ b, g.fid ≠ f.fid) →
          t.peekN (x + 22) 2 = min f.merged 65535 ∧ t.bar = s.bar ∧ t.faults = a ++ { f with wrote := min f.merged 65535 } :: b)
      ∧ ((∀ f ∈ s.faults, ∀ n a, ¬ grows f n a) →
        ((full ∨ (∀ f ∈ s.faults, f.seq ≠ none) ∨ (∀ a, at' w = some a → s.flipIn a 64 = true)) → t = s)
        ∧ ∀ f a, s.bu.phase ≠ 15 → ¬ full → s.faults.find? (fun f => f.seq.isNone) = some f →
          at' w = some a → s.flipIn a 64 = false → s.unreachable a = false →
        let b (k n : Nat) := t.peekN (a + k) n
        b 0 4 = w ∧ b 4 2 = f.ctx % 2 ^ 16 ∧ b 6 2 = f.epoch.toNat ∧ b 8 8 = f.addr.toNat
        ∧ b 16 2 = (f.kind + f.acc * 2 ^ 4 + f.level * 2 ^ 8 + f.src * 2 ^ 12) % 2 ^ 16 ∧ b 18 2 = f.unit % 2 ^ 16
        ∧ b 20 1 = f.cause % 2 ^ 8 ∧ b 21 1 = f.cause2 % 2 ^ 8 ∧ b 22 2 = min f.merged 65535 ∧ b 24 4 = f.gen.toNat ∧ b 28 4 = f.gidx.toNat
        ∧ b 32 8 = (if f.src = 0 then f.pc.toNat else 0) ∧ b 40 8 = f.val.toNat ∧ b 48 4 = f.mask.toNat ∧ b 52 4 = 0 ∧ b 56 8 = f.inst.toNat
        ∧ t.barFld 0x200028 0 32 = (w + 1) % 2 ^ 32 ∧ t.barFld 0x200028 32 32 = s.barFld 0x200028 32 32
        ∧ (f.kind ≤ 2 → ∀ x ∈ t.faults, x.fid = f.fid → x.seq = some (BitVec.ofNat 32 w)) ∧ (2 < f.kind → ∀ x ∈ t.faults, x.fid ≠ f.fid)
        ∧ (s.barFld 0x200030 8 1 = 1 → .msix (s.barFld 0x200030 0 8) ∈ t.out)))

/-- R369 to R378, R387 to R390: a page walk ends at a leaf, which the TLBs of the core and the die then hold, or caches
no entry; a leaf decides an access as R375 says; PREEMPT holds a context, its save removes its groups, counts EPOCH and
sets STATE; RESUME places them again. Where the manual is silent or open, the model's choice: log 70, 73, 76, 78. -/
def Obligations.ContextsAreTranslatedSavedAndResumed : Prop :=
  (∀ (s : State) (core ctx : Nat) (va : DWord), ∃ t, exec (.pageWalk core ctx va) s = .next t
    ∧ (576 ≤ core ∨ s.ctxValid ctx = false ∨ 2 ^ 56 ≤ va.toNat → t = s) ∧ t.groups = s.groups ∧ t.faults = s.faults
    ∧ (∀ e, s.tlb.find? (fun e => e.covers ⟨some core, core / 144, ctx⟩ va.toNat) = some e → t = s)
    ∧ ∀ out, core < 576 → s.coreRuns core = true → s.ctxValid ctx = true → va.toNat < 2 ^ 56 → s.walkCache = [] →
        s.tlb.find? (fun e => e.covers ⟨some core, core / 144, ctx⟩ va.toNat) = none → s.Walks va.toNat [0, 1, 2, 3] (s.rootOf ctx) out →
      t.mem = s.mem
      ∧ (∀ leaf level a, out = .leaf leaf level a → (∀ u, u = core ∨ u = 576 + core / 144 →
            (⟨u, a, ctx, va.toNat / 4096, leaf, level⟩ : TlbEntry) ∈ t.tlb)
          ∧ ∀ e ∈ s.tlb, (e.ctx ≠ ctx ∨ e.vpn ≠ va.toNat / 4096) → e ∈ t.tlb)
      ∧ ((∀ leaf level a, out ≠ .leaf leaf level a) → t.tlb = s.tlb))
  ∧ (∀ (s : State) (m : Mmu) (w : Want) (va level a : Nat) (e : DWord) pa, s.canonPa (leafPa e.toNat level va) = some pa →
      let k := 2 * (e.extractLsb' 16 5).toNat
      let refused : Prop := (w.rd = true ∧ e.getLsbD 2 = false) ∨ (w.fetch = true ∧ e.getLsbD 4 = false)
        ∨ (w.wr = true ∧ e.getLsbD 3 = false ∧ s.ctxFld m.ctx 65 1 ≠ 1)
        ∨ (∃ p, w.pkr = some p ∧ ((w.rd = true ∧ p.getLsbD k = true) ∨ (w.wr = true ∧ p.getLsbD (k + 1) = true))) ∨ w.fmt e.toNat = false
      (refused → s.leafCheck m w va e.toNat level a = .prot)
      ∧ (¬ refused → w.wr = true → e.getLsbD 3 = false → s.leafCheck m w va e.toNat level a = .writeProtect)
      ∧ (¬ refused → (w.wr = false ∨ e.getLsbD 3 = true) →
          let stale : Prop := e.getLsbD 5 = false ∨ (w.wr = true ∧ e.getLsbD 6 = false)
          ((¬ stale ∨ s.flipAt a = none) → s.leafCheck m w va e.toNat level a = .ok ⟨pa, e.toNat, a⟩)
          ∧ (stale → ∀ page, s.flipAt a = some page → s.leafCheck m w va e.toNat level a = .stall page)))
  ∧ (∀ (s : State) v, s.CmdAt v → v.extractLsb' 0 8 = 6 → v.extractLsb' 192 64 = 0 → ∀ c, c = (v.extractLsb' 16 16).toNat → s.ctxValid c = true →
      s.ctxFlips c = false →
      ∃ t, exec .preempt s = .next t ∧ ((s.ctx c).saving = true → t = s)
        ∧ ((s.ctx c).saving = false → 2 ≤ s.ctxState c → s.CmdEnds s t 3)
        ∧ ((s.ctx c).saving = false → s.ctxState c < 2 → t.barGet 0x200018 = s.barGet 0x200018
            ∧ (t.ctx c).hold = true ∧ (t.ctx c).saving = true ∧ (t.ctx c).brk = (s.ctx c).brk
            ∧ (∀ k ∈ t.tasks, k.ctx = c → k.accepted = false → k.held = true)
            ∧ (∀ g ∈ t.groups, g.ended = false → t.ctxOf g = c → ∀ w ∈ g.warps, w.inRie = false) ∧ (s.ctxStored c → t.ctxState c = 2)))
  ∧ (∀ (s : State) (c : Nat), ∃ t, exec (.contextSaveWrite c) s = .next t ∧
      let s0 := (s.heldTasks c).foldl (fun (x : State) k => x.settle (.task k.id)) s
      let due : Prop := (s.ctx c).saving = true ∧ s.drained c = true ∧ s.saveStalls c = false
      let gone (g : Group) : Prop := ∃ x ∈ s0.savedGroups c, x.id = g.id
      (¬ due → t = s)
      ∧ (due → s0.nothingSaved c = true → s.CmdOver t 0 ∧ (t.ctx c).hold = false ∧ (t.ctx c).saving = false ∧ t.groups = s0.groups
          ∧ (s.ctxStored c → t.ctxState c = 0 ∧ t.epoch c = s.epoch c + 1))
      ∧ (due → s0.nothingSaved c = false → s0.saveFits c = false → s.CmdOver t 4 ∧ (t.ctx c).hold = false ∧ (t.ctx c).saving = false
          ∧ t.groups = s0.groups ∧ (s.ctxStored c → t.ctxState c ≤ 1 ∧ t.epoch c = s.epoch c))
      ∧ (∀ a, due → s0.nothingSaved c = false → s0.saveFits c = true → s0.saveAt c = some a → s.redbuf = [] → s.ctxStored c →
          (∀ k, k < s0.saveBytes c → s.unreachable (a + k) = false) → (s.ctxAddr c + 16 ≤ a ∨ a + s0.saveBytes c + 8 ≤ s.ctxAddr c + 8) →
          s.CmdOver t 0 ∧ t.ctxState c = 3 ∧ t.epoch c = s.epoch c + 1
          ∧ (∀ g, g ∈ t.groups ↔ g ∈ s0.groups ∧ ¬ gone g) ∧ (∀ j, j ∈ t.jobs ↔ j ∈ s.jobs ∧ j.ctx ≠ c)
          ∧ (∃ im, (t.ctx c).image = some im ∧ im.jobs = s.jobs.filter (fun j => j.ctx == c) ∧ im.groups.length = (s0.savedGroups c).length)
          ∧ (t.ctx c).hold = (s.ctx c).hold ∧ (t.ctx c).saving = false
          ∧ t.peekN a 2 = 1 ∧ t.peekN (a + 2) 2 = (s.epoch c).toNat ∧ t.peekN (a + 4) 4 = (s0.savedGroups c).length % 2 ^ 32
          ∧ t.peekN (a + 8) 8 = s0.saveBytes c % 2 ^ 64 ∧ t.peekN (a + 16) 4 = 0
          ∧ t.peekN (a + 20) 4 = (s0.ctxJobs c).length % 2 ^ 32
          ∧ (∀ g w, s0.savedGroups c = [g] → SoloGroup (s.pktOf g) g w → s.ctxJobs c = [] → s0.heldCount c = 0 → s.coopGrids c = [] →
              let p := s.pktOf g
              let o := soloArea p w.as w.av
              (∀ i, i < scrBytes p → t.peekN (a + o.scratch + i) 1 = (tget 0 g.scratch i).toNat)
              ∧ (∀ n, n < w.as → t.peekN (a + o.scalars + 4 * n) 4 = (tget 0 w.sregs n).toNat)
              ∧ (∀ n k, n < w.av → k < 32 → t.peekN (a + o.vectors + 128 * n + 4 * k) 4 = (tget 0 w.vregs (32 * n + k)).toNat)
              ∧ (∀ k i, k < 32 → i < privSize p → t.peekN (a + o.priv + privSize p * k + i) 1 = (tget 0 w.priv (privKey k i)).toNat))))
  ∧ (∀ (s : State) v, s.CmdAt v → v.extractLsb' 0 8 = 7 → v.extractLsb' 192 64 = 0 → ∀ c, c = (v.extractLsb' 16 16).toNat → s.ctxValid c = true →
      s.ctxFlips c = false →
      ∃ t, exec .resume s = .next t ∧ (s.ctxState c ≠ 3 → s.CmdEnds s t 3)
        ∧ (s.ctxState c = 3 → s.saveAt c = none → s.CmdEnds s t 4) ∧ (s.ctxState c = 3 → s.saveStalls c = true → t = s)
        ∧ (∀ a im, (s.ctx c).image = some im → s.kept a im = true → s.imageAt c a = im)
        ∧ ∀ a im, s.saveAt c = some a → s.saveStalls c = false → s.ctxState c = 3 → s.reread a (s.imageAt c a) = im →
          (∀ d ∈ im.grids, ∃ e ∈ s.grids, e.id = d.id) →
          ((s.bu.tripped = true ∨ ∃ g ∈ im.groups, g.team = 0 ∧ ∀ x ∈ im.groups, x.team = 0 → x = g ∧ s.findUnit (s.pktOf g) = none) →
              let u := s.takeImage c im
              t = u.setCtx { u.ctx c with resuming := true })
          ∧ ∀ g k, im.groups = [g] → g.team = 0 → s.findUnit (s.pktOf g) = some [k] → s.bu.tripped = false →
            s.CmdOver t 0 ∧ (t.ctx c).image = none ∧ (t.ctx c).hold = false
            ∧ (∀ x, x < 2 ^ 64 → tfind t.icache (k * 2 ^ 64 + x) = none)
            ∧ (s.ctxStored c → g.ended = false → s.ctxOf g = c → t.ctxState c = 1)
            ∧ ∃ g' ∈ t.groups, g'.id = g.id ∧ g'.core = k ∧ g'.lin = g.lin ∧ g'.x = g.x ∧ g'.y = g.y ∧ g'.z = g.z
                ∧ g'.warps.length = g.warps.length
                ∧ ((∀ f ∈ s.faults, f.ctx ≠ c) → g'.scratch = g.scratch ∧ g'.tags = g.tags ∧ g'.bars = g.bars
                ∧ ∀ (n : Nat) w w', g.warps[n]? = some w → g'.warps[n]? = some w' → w'.vregs = w.vregs ∧ w'.preds = w.preds ∧ w'.priv = w.priv
                    ∧ w'.live = w.live ∧ w'.tvec = w.tvec ∧ w'.pkr = w.pkr
                    ∧ (SoloGroup (s.pktOf g) g w → im.jobs = [] → s.peekN (a + 24) 4 = 0 → (∀ d ∈ im.grids, isCoop d.pkt = false) →
                        let p := s.pktOf g
                        let o := soloArea p w.as w.av
                        (∀ d ∈ im.grids, d.id = g.grid → d.pkt = p) →
                        (∀ i, i < scrBytes p → (tget 0 g'.scratch i).toNat = s.peekN (a + o.scratch + i) 1)
                        ∧ (∀ n, n < w.as → (tget 0 w'.sregs n).toNat = s.peekN (a + o.scalars + 4 * n) 4)
                        ∧ (∀ n k, n < w.av → k < 32 → (tget 0 w'.vregs (32 * n + k)).toNat = s.peekN (a + o.vectors + 128 * n + 4 * k) 4)
                        ∧ (∀ k i, k < 32 → i < privSize p → (tget 0 w'.priv (privKey k i)).toNat = s.peekN (a + o.priv + privSize p * k + i) 1))))

/-! ## Engine jobs (R73 to R76, R233 to R235, R293 to R298, R325, R330, R402 to R406) -/

/-- R73, R233, R235, R295: a job is accepted in its warp's order while its engine has room, and its instruction is then
no longer outstanding; the tile copy engine moves one 16-byte unit, one row, one gathered or scattered row, or fills one
row, and changes no other byte; the last unit ends the job. Where the manual is silent or open, the model's choice: log
32, 43, 44. -/
def Obligations.TileCopyJobsMoveTheirUnits : Prop :=
  (∀ (s : State) (job : Nat), ∃ t, exec (.jobAccept job) s = .next t ∧ (s.job? job = none → t = s) ∧ ∀ j, s.job? job = some j →
    let due : Prop := j.st = .queued ∧ (∀ e ∈ s.jobs, e.gid = j.gid → e.warp = j.warp → e.st = .queued → j.id ≤ e.id)
      ∧ (s.jobs.filter (fun e => e.die == j.die && e.kind == j.kind && e.st != .queued && e.st != .ended)).length < 64
    (¬ due → t = s)
    ∧ (due → t.job? job = some { j with st := if j.malformed then .ended else .accepted, status := if j.malformed then 4 else 0, seq := s.nextId }
        ∧ (∀ k, k ≠ job → t.job? k = s.job? k) ∧ t.mem = s.mem ∧ t.bar = s.bar
        ∧ ∀ g ∈ t.groups, ∀ w ∈ g.warps, ∀ o ∈ w.outst, o.kind ≠ .job job))
  ∧ (∀ (s : State) (job n : Nat), ∃ t, exec (.tileCopyJob job n) s = .next t ∧ (s.job? job = none → t = s) ∧ ∀ j g, s.job? job = some j → s.group? j.gid = some g →
    let ready : Prop := j.kind = 1 ∧ j.st = .accepted ∧ s.jobWaits g j = false
    let op := (j.card.extractLsb' 4 4).toNat
    let a := (j.card.extractLsb' 128 64).toNat
    let b := (j.card.extractLsb' 192 64).toNat
    let moved (src dst len total : Nat) : Prop := ∀ x y, j.inRegion false src len = true → j.inRegion true dst len = true →
      s.JobHit j g false src len x → s.JobHit j g true dst len y → s.clear x len → s.clear y len →
      (∀ k, k < len → t.byteAt (y.plus k) = if s.tagged (y.plus k) 1 then s.byteAt (y.plus k) else s.byteAt (x.plus k)) ∧ s.OnlyAt t y len
        ∧ t.job? job = some { j with unit := j.unit + 1, st := if j.unit + 1 = total then .ended else j.st,
                                     tagHit := j.tagHit || s.tagged y len, skipped := if s.tagged y len then j.skipped + 1 else j.skipped }
    (¬ ready → t = s)
    ∧ (ready → n = 1 → j.acopy = true →
        moved ((j.card.extractLsb' 0 64).toNat + 16 * j.unit) ((j.card.extractLsb' 64 64).toNat + 16 * j.unit) 16 (a / 16))
    ∧ (∀ ra rb, ready → n = 1 → j.acopy = false → j.recs = [ra, rb] → op = 0 → moved (shRow ra j.unit) (shRow rb j.unit) (shLen ra) (shRows rb))
    ∧ (∀ ra rb x, ready → n = 1 → j.acopy = false → j.recs = [ra, rb] → (op = 1 ∨ op = 2) →
        let p := (j.card.extractLsb' 1280 64).toNat + 4 * j.unit
        j.inRegion false p 4 = true → s.JobHit j g false p 4 x → s.clear x 4 →
          let i := s.valueAt x 4
          (shRows ra ≤ i → t.job? job = some { j with st := .ended, status := 5 } ∧ ∀ q, s.steady [] q → t.byteAt q = s.byteAt q)
          ∧ (i < shRows ra → op = 1 → moved (shRow ra i) (shRow rb j.unit) (shLen ra) (shRows rb))
          ∧ (i < shRows ra → op = 2 → moved (shRow ra j.unit) (shRow rb i) (shLen ra) (shRows rb)))
    ∧ (∀ rb y, ready → n = 1 → j.acopy = false → j.recs = [rb] → op = 3 →
        let len := shLen rb
        j.inRegion true (shRow rb j.unit) len = true → s.JobHit j g true (shRow rb j.unit) len y → s.clear y len → s.tagged y len = false →
          (∀ k, k < len → t.byteAt (y.plus k) = j.card.extractLsb' (32 + 8 * (k % 4)) 8) ∧ s.OnlyAt t y len
            ∧ t.job? job = some { j with unit := j.unit + 1, st := if j.unit + 1 = shRows rb then .ended else j.st })
    ∧ (∀ x, ready → n = 0 → j.acopy = false → j.recs = [] → op = 3 →
        ((b % 16 ≠ 0 ∨ 2 ^ 56 ≤ b) → t.job? job = some { j with st := .ended, status := 4 })
        ∧ (b % 16 = 0 → b < 2 ^ 56 → s.JobHit j g false b 192 x → s.clear x 192 →
            let r : BitVec 1536 := BitVec.ofNat 1536 (s.valueAt x 192)
            t.job? job = some (if copyRecOk r = true then { j with recs := [r] } else { j with st := .ended, status := 4 })))
    ∧ (∀ x y, ready → n = 0 → j.acopy = false → j.recs = [] → op ≠ 3 → a % 16 = 0 → a < 2 ^ 56 → b % 16 = 0 → b < 2 ^ 56 →
        s.JobHit j g false a 192 x → s.clear x 192 → s.JobHit j g false b 192 y → s.clear y 192 →
          let r : BitVec 1536 := BitVec.ofNat 1536 (s.valueAt x 192)
          let q : BitVec 1536 := BitVec.ofNat 1536 (s.valueAt y 192)
          t.job? job = some (if copyRecOk r = true ∧ copyRecOk q = true ∧ shRows r = shRows q ∧ shLen r = shLen q then { j with recs := [r, q] }
            else { j with st := .ended, status := 4 })))

/-- R74, R75, R234, R298, R325, R330, R331, R388, R403 to R406: an ended job writes its token and is gone; a decode job
takes a free LOCK and one of its die's four engines, decodes one temporal unit or reports and releases LOCK; a
collective waits for every rank, reduces or gathers in rank order, and ends with STATUS 6 when its time is over. Where
the manual is silent or open, the model's choice: log 2, 40 to 42, 45, 113, 114. -/
def Obligations.EnginesReportTheirJobs : Prop :=
  (∀ (s : State) (job : Nat), ∃ t, exec (.jobComplete job) s = .next t ∧ ∀ j g, s.job? job = some j → s.group? j.gid = some g →
    let units := if j.acopy then (j.unit - j.skipped) % 2 ^ 17
      else if j.kind = 2 then j.unit * 2 ^ 10 + j.corrupt * 2 ^ 5 + j.tainted else j.unit % 2 ^ 17
    let p := (j.card.extractLsb' 64 64).toNat
    let outside : Prop := j.acopy = false ∧ p ≠ 0 ∧ j.status ≠ 4 ∧ p / 2 ^ 56 ≠ 0xF0 ∧ p / 2 ^ 56 ≠ 0xF3
    let status := if j.status ≠ 0 then j.status else if j.tagHit = true ∨ outside then 2 else if j.pois = true ∨ j.corrupt ≠ 0 then 3 else 0
    (j.st ≠ .ended → t = s)
    ∧ (j.st = .ended → t.jobs = s.jobs.filter (fun e => e.id != job))
    ∧ (j.st = .ended → (j.acopy = true ∨ p = 0 ∨ j.status = 4 ∨ outside) →
        (∀ w k, g.warp? j.warp = some w → tfind w.tokens j.tok = some k → k.job = job → ∃ w', t.warp? j.gid j.warp = some w'
            ∧ tget 0 w'.sregs j.tok = BitVec.ofNat 32 (status * 2 ^ 28 + units) ∧ tfind w'.tokens j.tok = some ⟨job, true⟩
            ∧ (∀ r, r ≠ j.tok → tget 0 w'.sregs r = tget 0 w.sregs r) ∧ w'.vregs = w.vregs ∧ w'.preds = w.preds ∧ w'.subs = w.subs)
        ∧ (∀ w, g.warp? j.warp = some w → (∀ k, tfind w.tokens j.tok = some k → k.job ≠ job) → t.warp? j.gid j.warp = some w)))
  ∧ (∀ (s : State) (job : Nat), ∃ t, exec (.decodeLockAcquire job) s = .next t ∧ ∀ j g, s.job? job = some j → s.group? j.gid = some g →
    let held (e : Nat) : Prop := ∃ x ∈ s.jobs, x.die = j.die ∧ x.kind = 2 ∧ x.lock = true ∧ x.st ≠ .suspended ∧ x.eng = e
    let busy := (s.jobs.filter (fun x => x.die == j.die && x.kind == 2 && x.lock && x.st != .suspended)).length
    let p := (j.card.extractLsb' 1280 64).toNat
    let ready : Prop := j.kind = 2 ∧ j.st = .accepted ∧ s.jobWaits g j = false
    (4 ≤ busy → t = s)
    ∧ (busy < 4 → j.st = .suspended → ∃ e, e < 4 ∧ ¬ held e ∧ t.job? job = some { j with st := .locked, eng := e } ∧ t.mem = s.mem)
    ∧ (j.st ≠ .suspended → ¬ ready → t = s)
    ∧ (busy < 4 → ready → j.recs ≠ [] → p % 64 ≠ 0 → t.job? job = some { j with st := .ended, status := 4 })
    ∧ (∀ x y, busy < 4 → ready → j.recs ≠ [] → p % 64 = 0 → j.inRegion false p 512 = true → j.inRegion true p 4 = true →
        s.JobHit j g false p 512 x → s.clear x 512 → s.JobHit j g true p 4 y → s.clear y 4 → s.tagged y 4 = false →
          let c := s.valueAt x 512
          (streamBad c = true → t.job? job = some { j with st := .ended, status := 4 })
          ∧ (streamBad c = false → c % 2 ^ 32 ≠ 0 → t.jobs = s.jobs ∧ ∀ q, s.steady [] q → t.byteAt q = s.byteAt q)
          ∧ (streamBad c = false → c % 2 ^ 32 = 0 → t.valueAt y 4 ≠ 0 ∧ s.OnlyAt t y 4
              ∧ ∃ e, e < 4 ∧ ¬ held e ∧ t.job? job = some { j with st := .locked, lock := true, eng := e })))
  ∧ (∀ (s : State) (job : Nat), ∃ t, exec (.frameDecodeJob job) s = .next t ∧ ∀ j g, s.job? job = some j → s.group? j.gid = some g →
    let p := (j.card.extractLsb' 1280 64).toNat
    ((j.st ≠ .locked ∨ j.kind ≠ 2) → t = s)
    ∧ ∀ x, j.st = .locked → j.kind = 2 → j.inRegion false p 512 = true → s.JobHit j g false p 512 x → s.clear x 512 →
      let c : BitVec 4096 := BitVec.ofNat 4096 (s.valueAt x 512)
      (∀ y z u, (j.card.extractLsb' 32 5).toNat ≤ j.unit → j.inRegion true (p + 32) 12 = true → j.inRegion true (p + 48) 124 = true → j.inRegion true p 4 = true →
          s.JobHit j g true (p + 32) 12 y → s.JobHit j g true (p + 48) 124 z → s.JobHit j g true p 4 u → s.clear y 12 → s.clear z 124 → s.clear u 4 →
          s.tagged y 12 = false → s.tagged z 124 = false → s.tagged u 4 = false →
          (∀ a b, a < 12 → b < 124 → y.plus a ≠ z.plus b) → (∀ a b, a < 12 → b < 4 → y.plus a ≠ u.plus b) → (∀ a b, a < 124 → b < 4 → z.plus a ≠ u.plus b) →
          t.job? job = some { j with st := .ended, status := 0, lock := false } ∧ t.valueAt u 4 = 0 ∧ t.valueAt y 4 = j.off % 2 ^ 32
            ∧ t.valueAt (y.plus 4) 4 = ((c.extractLsb' 288 32).toNat + j.unit) % 2 ^ 32
            ∧ ∀ k, k < 31 → t.valueAt (z.plus (4 * k)) 4 = (j.fstat.getD k 0).toNat)
      ∧ (∀ j', (c.extractLsb' 192 64).toNat = 0 → t.job? job = some j' → j'.unit ≠ j.unit →
          j'.unit = j.unit + 1
            ∧ ∃ (u : Av1Unit) (data : List Byte) (whole : Bool),
                Config.av1Parse (statePrivate ((leBytes 512 c.toNat).drop 176)) (c.extractLsb' 32 5) data whole = some u
              ∧ j'.off = j.off + min u.bytes data.length ∧ data.length ≤ j.bitLen - j.off ∧ (u.closed = false → c.getLsbD 37 = true)
              ∧ ∃ v : Word, j'.fstat = j.fstat ++ [v] ∧ v.getLsbD 31 = true
                ∧ v.extractLsb' 0 16 = BitVec.ofNat 16 ((c.extractLsb' 288 32).toNat + j.unit)
                ∧ (v.extractLsb' 16 8).toNat ∈ [0, 1, 2, 3, 15]
                ∧ (v.getLsbD 30 = true → 1 ≤ (v.extractLsb' 24 4).toNat ∧ (v.extractLsb' 24 4).toNat ≤ 8 ∧ v.getLsbD 29 = false
                    ∧ v.getLsbD 28 = false ∧ j'.corrupt = j.corrupt + 1 ∧ j'.tainted = j.tainted)
                ∧ (v.getLsbD 30 = false → v.extractLsb' 24 4 = 0 ∧ j'.corrupt = j.corrupt
                    ∧ j'.tainted = j.tainted + (if v.getLsbD 29 then 1 else 0) ∧ (v.getLsbD 28 = true → j.card.getLsbD 40 = true))))
  ∧ (∀ (s : State) (job : Nat) (ranks : List RankData), ∃ t, exec (.collectiveJob job ranks) s = .next t ∧ ∀ j g, s.job? job = some j → s.group? j.gid = some g →
    let ready : Prop := j.kind = 3 ∧ j.st = .accepted ∧ s.jobWaits g j = false
    let op := (j.card.extractLsb' 4 4).toNat
    let fmt := (j.card.extractLsb' 32 4).toNat
    let own (a b pr : BitVec 1536) (mine : List (Byte × Bool)) : RankData :=
      let n := (pr.extractLsb' 0 8).toNat
      ⟨(pr.extractLsb' 8 8).toNat, op, (j.card.extractLsb' 32 32).toNat, n, (List.range n).map (fun r => (pr.extractLsb' (128 + 8 * r) 8).toNat),
        shRows a * shLen a, shRows b * shLen b, mine⟩
    (¬ ready → t = s)
    ∧ (∀ a b pr x y z src, ready → j.lock = false → ranks = [] →
        let pa := (j.card.extractLsb' 128 64).toNat
        let pb := (j.card.extractLsb' 192 64).toNat
        let pp := (j.card.extractLsb' 1280 64).toNat
        pa % 16 = 0 → pa < 2 ^ 56 → pb % 16 = 0 → pb < 2 ^ 56 → s.JobHit j g false pa 192 x → s.clear x 192 → s.JobHit j g false pb 192 y →
        s.clear y 192 → a = BitVec.ofNat 1536 (s.valueAt x 192) → b = BitVec.ofNat 1536 (s.valueAt y 192) →
        (¬ (copyRecOk a = true ∧ copyRecOk b = true ∧ pp % 64 = 0 ∧ pp < 2 ^ 56) → t.job? job = some { j with st := .ended, status := 4 })
        ∧ (copyRecOk a = true → copyRecOk b = true → pp % 64 = 0 → pp < 2 ^ 56 → j.inRegion false pp 128 = true → s.JobHit j g false pp 128 z →
            s.clear z 128 → pr = BitVec.ofNat 1536 (s.valueAt z 128) →
            let taken : Prop := ∃ e ∈ s.jobs, e.id ≠ j.id ∧ e.kind = 3 ∧ e.lock = true ∧ e.running = true
              ∧ e.collKey = (j.ctx, (pr.extractLsb' 32 32).toNat, (pr.extractLsb' 64 32).toNat)
            let fits : Prop := j.sizesOk (shRows a * shLen a) (shRows b * shLen b) (pr.extractLsb' 0 8).toNat = true
            ((peerBad s.pkg pr.toNat = true ∨ ¬ fits ∨ taken) → t.job? job = some { j with st := .ended, status := 4 })
            ∧ (peerBad s.pkg pr.toNat = false → fits → ¬ taken → shRows a = 1 → j.inRegion false (shRow a 0) (shLen a) = true →
                s.JobHit j g false (shRow a 0) (shLen a) src → s.clear src (shLen a) →
                let mine := (List.range (shLen a)).map (fun k => (s.byteAt (src.plus k), false))
                t.job? job = some { j with recs := [a, b, pr], lock := true, since := s.timer, ranks := [own a b pr mine] }
                ∧ ∀ k, k < (pr.extractLsb' 0 8).toNat → (pr.extractLsb' (128 + 8 * k) 8).toNat ≠ s.pkg →
                    .coll (pr.extractLsb' (128 + 8 * k) 8).toNat j.ctx (pr.extractLsb' 32 32).toNat (pr.extractLsb' 64 32).toNat (own a b pr mine) ∈ t.out)))
    ∧ ∀ a b pr, ready → j.lock = true → j.recs = [a, b, pr] →
      let n := (pr.extractLsb' 0 8).toNat
      let len := shRows a * shLen a
      let fits (l : List RankData) (d : RankData) : Prop :=
        { d with rank := 0, data := [] } = { own a b pr [] with rank := 0 } ∧ d.data.length = len ∧ d.rank < n ∧ ∀ e ∈ l, e.rank ≠ d.rank
      let good : Prop := ∀ l d r, ranks = l ++ d :: r → fits (j.ranks ++ l) d
      let all := j.ranks ++ ranks
      (good → (∃ r, r < n ∧ ∀ d ∈ all, d.rank ≠ r) → t = ranks.foldl (fun (s : State) d => s.updJob job (fun j => { j with ranks := j.ranks ++ [d] })) s)
      ∧ (∀ l d r, ranks = l ++ d :: r → (∀ l' e r', l = l' ++ e :: r' → fits (j.ranks ++ l') e) → ¬ fits (j.ranks ++ l) d →
          t.job? job = some { j with ranks := j.ranks ++ l, st := .ended, status := 4 })
      ∧ ∀ y (src : Nat → List Byte), good → (∀ r, r < n → ∃ d, all.find? (fun d => d.rank == r) = some d ∧ d.data = (src r).map (fun x => (x, false))) →
          (∀ r, r < n → (src r).length = len) →
          shRows b = 1 → j.inRegion true (shRow b 0) (shLen b) = true →
          s.JobHit j g true (shRow b 0) (shLen b) y → s.clear y (shLen b) → s.tagged y (shLen b) = false →
            (shLen b ≠ 0 → op = 2 → shLen b = n * len → t.job? job = some { j with ranks := all, unit := n, st := .ended, status := 0, lock := false }
                ∧ s.OnlyAt t y (shLen b)
                ∧ ∀ r k, r < n → k < len → t.byteAt (y.plus (r * len + k)) = (src r).getD k 0)
            ∧ (0 < n → op = 0 → fmt = 8 → (j.card.extractLsb' 36 4).toNat = 0 → shLen b = len → len % 128 = 0 →
                t.job? job = some { j with ranks := all, unit := n, st := .ended, status := 0, lock := false } ∧ s.OnlyAt t y len
                ∧ ∀ e, 4 * e < len → t.valueAt (y.plus (4 * e)) 4
                    = (((List.range n).map (fun r => leVal (((src r).drop (4 * e)).take 4))).foldl (· + ·) 0) % 2 ^ 32))
  ∧ (∀ (s : State) (job : Nat) (late : List RankData), ∃ t, exec (.collectiveTimeout job late) s = .next t
      ∧ ∀ j g, s.job? job = some j → s.group? j.gid = some g →
    let fits : Prop := ∀ l d r, late = l ++ d :: r → j.agrees d = true ∧ ∀ e ∈ j.ranks ++ l, e.rank ≠ d.rank
    let pr := j.peer
    let time := pr / 2 ^ 96 % 2 ^ 32
    let pkg (r : Nat) : Nat := pr / 2 ^ (128 + 8 * r) % 2 ^ 8
    let lost : Prop := ∃ r, r < pr % 2 ^ 8 ∧ pkg r ≠ s.pkg ∧ tget false s.peers (pkg r) = false
    let absent : Prop := ∃ r, r < pr % 2 ^ 8 ∧ ∀ d ∈ j.ranks ++ late, d.rank ≠ r
    let due : Prop := j.kind = 3 ∧ j.lock = true ∧ j.st = .accepted ∧ absent
      ∧ (j.since + 1000 * (if time = 0 then 1000000 else time) ≤ s.timer ∨ lost)
    (late = [] → ¬ due → t = s)
    ∧ (fits → j.kind = 3 → j.lock = true → j.st = .accepted → ¬ due → t.job? job = some { j with ranks := j.ranks ++ late })
    ∧ (∀ a b q, fits → due → j.recs = [a, b, q] → ∃ hit k, t.job? job = some { j with
        ranks := j.ranks ++ late, unit := j.ranks.length + late.length, st := .ended, status := 6, lock := false, tagHit := hit, skipped := k }))

/-! ## The host, bias flips and peers (R82 to R84, R343 to R345, R396 to R401, R407) -/

/-- R82 to R84, R343 to R345, R396 to R401, R407: the host and peers read and write device memory at its home, poison
answers where it may not be read, a page being flipped holds the host's requests, a snoop takes the half-line from a
bridge, a flip ends with the new bias, and ports and peers come and go. Where the manual is silent or open, the model's
choice: log 50 to 53, 115 to 117, 121. -/
def Obligations.TheHostAndPeersReachDeviceMemory : Prop :=
  let conflict (s : State) (pa : Nat) : List Msg :=
    if s.flips.any (fun f => f.page == pa / 4096 && f.birsp.contains (pa % 4096 / 256)) then [.biConflict (pa / 64 * 64)] else []
  (∀ (s : State) (req : LineReq), ∃ t, exec (.hostMemrd req) s = .next t ∧
    let a := req.pa / 64 * 64
    let page : Prop := ∃ f ∈ s.flips, f.page = a / 4096
    ((s.bu.phase = 15 ∨ s.installed a = false) → t = s.send .poison)
    ∧ (s.bu.phase ≠ 15 → s.installed a = true → page → t = { s with out := s.out ++ conflict s a, flips := s.flips.map (fun f =>
          if f.page = a / 4096 then { f with held := f.held ++ [if req.inv then .inv a else .read a] } else f) })
    ∧ (s.bu.phase ≠ 15 → s.installed a = true → ¬ page → req.inv = true → t = s.send (.metaValue (thas s.bias (a / 4096))))
    ∧ (s.bu.phase ≠ 15 → s.installed a = true → ¬ page → req.inv = false → (∀ k, k < 64 → s.steady [] (.phys (a + k) false)) →
          t.mem = s.mem ∧ t.out = s.out ++ [if poisonedIn s.memPoison a 64 then .poison else .data (s.peek a 64), .metaValue (thas s.bias (a / 4096))]))
  ∧ (∀ (s : State) (pa : Nat) (data : List Byte), ∃ t, exec (.hostMemwr pa data) s = .next t ∧
    let b := data.take (64 - pa % 64)
    let page : Prop := ∃ f ∈ s.flips, f.page = pa / 4096
    let reaches : Prop := paTop pa = 1 ∨ (s.bu.phase ≠ 15 ∧ s.installed pa = true ∧ ¬ page)
    (paTop pa ≠ 1 → (s.bu.phase = 15 ∨ s.installed pa = false) → t = s)
    ∧ (paTop pa ≠ 1 → s.bu.phase ≠ 15 → s.installed pa = true → page → t = { s with out := s.out ++ conflict s pa, flips := s.flips.map (fun f =>
          if f.page = pa / 4096 then { f with held := f.held ++ [.write pa b] } else f) })
    ∧ (reaches →
          (∀ k x, b[k]? = some x → t.byteAt (.phys (pa + k) false) = x) ∧ t.out.take s.out.length = s.out
          ∧ (∀ a, s.steady [] (.phys a false) → (a < pa ∨ pa + b.length ≤ a) → t.byteAt (.phys a false) = s.byteAt (.phys a false))))
  ∧ (∀ (s : State) (die half kind : Nat), ∃ t, exec (.hostSnoop die half kind) s = .next t ∧
    let key := die * 2 ^ 46 + half
    let h : Half := tget .i s.bridge key
    t = { s with bridge := t.bridge, owner := t.owner,
                 out := s.out ++ [.snoopResp half (h == .m) (if h = .m then s.peek (64 * half) 64 else [])] }
    ∧ tget .i t.bridge key = (if kind = 0 then .i else if kind = 1 ∧ h ≠ .i then .s else h) ∧ (∀ k, k ≠ key → tfind t.bridge k = tfind s.bridge k)
    ∧ ∀ e, e ∈ t.owner ↔ e ∈ s.owner ∧ ¬ (e.2.1 / 144 = die ∧ e.1 / 16 = half))
  ∧ (∀ (s : State) (block : Nat) (dirty : Tbl (List Byte)), ∃ t, exec (.birsp block dirty) s = .next t ∧
    let awaited : Prop := ∃ f ∈ s.flips, f.page = block / 16 ∧ block % 16 ∈ f.birsp
    let less := s.flips.map (fun f => if f.page = block / 16 then { f with birsp := f.birsp.filter (· != block % 16) } else f)
    (¬ awaited → t = s) ∧ (awaited → t.flips = less) ∧ (awaited → (∀ e ∈ dirty, e.1 / 256 ≠ block) → t = { s with flips := less })
    ∧ ∀ a b, awaited → dirty = [(a, b)] → a / 256 = block → a % 256 + b.length ≤ 256 → s.bu.phase ≠ 15 → s.unreachable a = false →
        (∀ k x, b[k]? = some x → t.byteAt (.phys (a + k) false) = x)
        ∧ ∀ q, s.steady [] (.phys q false) → (q < a ∨ a + b.length ≤ q) → t.byteAt (.phys q false) = s.byteAt (.phys q false))
  ∧ (∀ (s : State) (page : Nat), ∃ t, exec (.biasFlipComplete page) s = .next t
    ∧ ((∀ f ∈ s.flips, f.page = page → f.birsp ≠ []) → t = s)
    ∧ ∀ f, s.flips.find? (fun f => f.page == page && f.birsp.isEmpty) = some f → s.teleq = [] →
        t.flips = s.flips.filter (fun x => x.page != page) ∧ thas t.bias page = f.host ∧ (∀ k, k ≠ page → thas t.bias k = thas s.bias k)
        ∧ (∀ g ∈ t.groups, ∀ w ∈ g.warps, ∀ o ∈ w.outst, o.kind ≠ .flip page) ∧ (∀ e ∈ t.quads, e.2.stall ≠ some page)
        ∧ (f.held = [] → t.mem = s.mem ∧ t.out = s.out)
        ∧ (∀ pa, f.held = [.read pa] → pa / 4096 = page → s.bu.phase ≠ 15 → s.quiet pa 64 → t.mem = s.mem ∧ t.out = s.out ++ [.data (s.peek pa 64), .metaValue f.host])
        ∧ (∀ pa b, f.held = [.write pa b] → s.bu.phase ≠ 15 → s.unreachable pa = false → ∀ k x, b[k]? = some x → t.byteAt (.phys (pa + k) false) = x))
  ∧ (∀ (s : State) (link : PeerLink) (op : PeerOp) (pa : Nat), ∃ t, exec (.peerAccess link op pa) s = .next t ∧
    let pkg := link.pkg
    let a := pa % 2 ^ 40
    let away : Prop := isPeer pa = true ∧ paPkg pa ≠ s.pkg
    let open' : Prop := ¬ away ∧ s.installed a = true ∧ ∀ f ∈ s.flips, f.page ≠ a / 4096
    let sets (n v : Nat) : Prop := t.peekN a n = v ∧ ∀ q, s.steady [] (.phys q false) → (q < a ∨ a + n ≤ q) → t.byteAt (.phys q false) = s.byteAt (.phys q false)
    (link.port < 96 → t.barFld (0x300000 + 8 * link.port) 16 16 = min (s.barFld (0x300000 + 8 * link.port) 16 16 + link.retries) 65535)
    ∧ (¬ open' → (∀ b, ¬ (away ∧ op = .store b ∧ paPkg pa = pkg)) → t = { s with bar := t.bar })
    ∧ (∀ b, away → op = .store b → paPkg pa = pkg → (∀ k x, b[k]? = some x → t.byteAt (.phys (pa + k) false) = x)
        ∧ ∀ q, s.steady [] (.phys q false) → (q < pa ∨ pa + b.length ≤ q) → t.byteAt (.phys q false) = s.byteAt (.phys q false))
    ∧ (∀ n, open' → op = .load n → 0 < n → s.quiet a n → .peerData pkg (s.peek a n) ∈ t.out ∧ t.mem = s.mem)
    ∧ (∀ b, open' → op = .store b → (∀ k x, b[k]? = some x → t.byteAt (.phys (a + k) false) = x)
        ∧ ∀ q, s.steady [] (.phys q false) → (q < a ∨ a + b.length ≤ q) → t.byteAt (.phys q false) = s.byteAt (.phys q false))
    ∧ (∀ o ty v n, open' → op = .atom o ty v → n = (if ty = 2 ∨ ty = 3 then 8 else 4) → s.quiet a n →
        .peerData pkg (s.peek a n) ∈ t.out ∧ sets n (atomOp o.toNat ty.toNat (s.peekN a n) v.toNat).1)
    ∧ (∀ o ty v n, open' → op = .red o ty v → n = (if ty = 2 ∨ ty = 3 then 8 else 4) → s.quiet a n → sets n (atomOp o.toNat ty.toNat (s.peekN a n) v.toNat).1)
    ∧ (∀ c v, open' → op = .cas c v → s.quiet a 8 → .peerData pkg (s.peek a 8) ∈ t.out
        ∧ sets 8 (if s.peekN a 8 = c.toNat then v.toNat else s.peekN a 8))
    ∧ (open' → op = .disp → s.quiet a 16 → .peerData pkg (s.peek a 16) ∈ t.out
        ∧ let next := s.peekN a 4
          let rem := s.peekN (a + 4) 4
          let p := s.peekN (a + 8) 4
          let lo := s.peekN (a + 12) 2
          let hi := s.peekN (a + 14) 2
          let c := min (min (max ((rem + 2 * p - 1) / (2 * p)) lo) hi) rem
          sets 8 (if p ≠ 0 ∧ lo ≠ 0 ∧ lo ≤ hi ∧ rem ≠ 0 then (next + c) % 2 ^ 32 + (rem - c) * 2 ^ 32 else s.peekN a 8)))
  ∧ (∀ (s : State) (port : Nat) (peer : PortPeer) (pport : Nat) (base : DWord), ∃ t, exec (.portTrained port peer pport base) s = .next t ∧
    let may : Prop := port < 96 ∧ s.bu.phase = 5 ∧ s.barFld (0x300000 + 8 * port) 15 1 = 1 ∧ s.barFld 0x300300 6 1 = 1 ∧ s.barFld (0x300000 + 8 * port) 0 2 ≠ 2
    let other (p : Nat) : Prop := p < 96 ∧ s.barFld (0x300000 + 8 * p) 0 2 = 2 ∧ s.barFld (0x300000 + 8 * p) 2 6 = peer.pkg % 64
      ∧ ∃ i, tfind s.idents p = some i ∧ i ≠ peer.ident
    (¬ may → t = s)
    ∧ (may → (∀ p, ¬ other p) → t = { s with bar := t.bar, timer := t.timer, peers := t.peers, idents := t.idents, out := t.out }
        ∧ t.barFld (0x300000 + 8 * port) 0 2 = 2
        ∧ t.barFld (0x300000 + 8 * port) 2 6 = peer.pkg % 64 ∧ t.barFld (0x300000 + 8 * port) 8 7 = pport % 128 ∧ t.barFld 0x300300 7 1 = 1
        ∧ t.timer = max s.timer base.toNat ∧ t.out = s.out ++ [.timeBase t.timer] ∧ tfind t.idents port = some peer.ident
        ∧ tfind t.peers (peer.pkg % 64) = some true ∧ ∀ k, k ≠ peer.pkg % 64 → tfind t.peers k = tfind s.peers k)
    ∧ (may → (∃ p, other p) → t = { s with bar := t.bar, idents := t.idents } ∧ ∀ p, (p = port ∨ other p) → t.barFld (0x300000 + 8 * p) 0 2 = 3))
  ∧ (∀ (s : State) (port : Nat), ∃ t, exec (.portFailed port) s = .next t ∧
    let reg := 0x300000 + 8 * port
    let may : Prop := port < 96 ∧ s.bu.phase ≠ 15
      ∧ (s.barFld reg 0 2 = 2 ∨ (s.bu.phase = 5 ∧ s.barFld reg 15 1 = 1 ∧ s.barFld 0x300300 6 1 = 1))
    (¬ may → t = s) ∧ (may → t = { s with bar := t.bar, idents := t.idents } ∧ t.barFld (0x300000 + 8 * port) 0 2 = 3
        ∧ t.barFld (0x300000 + 8 * port) 2 62 = s.barFld (0x300000 + 8 * port) 2 62 ∧ ∀ o, o ≠ 0x300000 + 8 * port → t.barGet o = s.barGet o))
  ∧ (∀ (s : State) (pkg : Nat), ∃ t, exec (.peerUnreachable pkg) s = .next t ∧
    let cut : Prop := thas s.peers pkg = true ∧ ∀ p, p < 96 → s.barFld (0x300000 + 8 * p) 0 2 = 2 → s.barFld (0x300000 + 8 * p) 2 6 ≠ pkg
    (¬ cut → t = s) ∧ (cut → t = { s with peers := t.peers } ∧ tfind t.peers pkg = some false ∧ ∀ k, k ≠ pkg → tfind t.peers k = tfind s.peers k))
  ∧ (∀ (s : State) (origin ctx ratio : Nat), ∃ t, exec (.slow origin ctx ratio) s = .next t
    ∧ t = { s with pw := { s.pw with slow := t.pw.slow } } ∧ (∀ e, e ∈ t.pw.slow ↔ e = (origin, ctx, ratio) ∨ (e ∈ s.pw.slow ∧ (e.1 ≠ origin ∨ e.2.1 ≠ ctx))))

/-! ## Power, errors, bring-up and the mailbox (R339, R340, R407 to R429) -/

/-- R340, R407, R418, R420 to R424, R426 to R428: the controller takes at most one step an interval; an emergency sets
EMERG and caps its contexts, and recovery raises the caps; an alarm stretches and then holds a cluster; a scrub poisons
or stops; a stopped team is relaunched; a trip ends service. Where the manual is silent or open, the model's choice: log
81 to 84, 119. -/
def Obligations.PowerAndErrorsAreHandled : Prop :=
  let serves (s : State) : Prop := s.bu.phase = 4 ∨ s.bu.phase = 5
  let emerg (s : State) (c : Nat) : Nat := s.barFld (0x500008 + 0x1000 * c) 3 1
  let temp (s : State) (c : Nat) : Nat := s.barFld (0x500008 + 0x1000 * c) 28 8
  let limitT (s : State) : Nat := min 100 (s.barFld 0x400000 20 8)
  let warn (s : State) : Nat := s.barFld 0x400000 12 8
  (∀ (s : State) (watts : Nat) (temps : Tbl Nat), ∃ t, exec (.powerControlTick watts temps) s = .next t ∧ (¬ serves s → t = s)
    ∧ (serves s →
      let limit := max 600 (min 2400 (s.barFld 0x400000 0 12))
      let top (x : Nat) : Prop := (∃ c, c < 576 ∧ s.ratio c = x) ∧ ∀ c, c < 576 → s.ratio c ≤ x
      let low (x : Nat) : Prop := (∃ c, c < 96 ∧ s.passes c = x) ∧ ∀ c, c < 96 → x ≤ s.passes c
      let pick (c : Nat) : Nat := tget 1 s.pw.passes c
      t.barFld 0x400008 0 12 = min watts 4095
      ∧ ((∃ e ∈ temps, e.1 < 96) → (∀ c, c < 96 → temp t c ≤ t.barFld 0x400008 12 8)
          ∧ ∃ c, c < 96 ∧ temp t c = t.barFld 0x400008 12 8 ∧ t.barFld 0x400008 20 7 = c)
      ∧ ((∃ c, c < 96 ∧ s.barFld 0x400000 28 8 ≤ temp t c) → t.bu.phase = 15 ∧ t.bu.dieRun = 0 ∧ t.bu.tripped = true)
      ∧ ((∀ c, c < 96 → temp t c < s.barFld 0x400000 28 8) → t.bu = s.bu)
      ∧ (temps = [] → ∀ c, temp t c = temp s c)
      ∧ (∀ c x, c < 96 → temps = [(c, x)] → temp t c = min x 255 ∧ (c ∈ t.pw.warned ↔ warn s ≤ min x 255))
      ∧ (t.barFld 0x400008 27 1 = 1 ↔ (∃ c, c < 576 ∧ t.ratioPick c < t.ratioCeil c) ∨ ∃ c, c < 96 ∧ t.passFloor c < tget 1 t.pw.passes c)
      ∧ (limit < watts →
          (∀ x, top x → 4 < x → (∀ c, c < 576 → t.ratioPick c = if s.ratio c = x then x - 1 else s.ratioPick c) ∧ t.pw.passes = s.pw.passes)
          ∧ (∀ x, top 4 → low x → x = 1 ∨ x = 2 → t.pw.ratio = s.pw.ratio
              ∧ ∀ c, c < 96 → tget 1 t.pw.passes c = if s.passes c = x then 2 * x else pick c)
          ∧ (top 4 → (∀ c, c < 96 → s.passes c = 4) → t.pw.ratio = s.pw.ratio ∧ t.pw.passes = s.pw.passes))
      ∧ (watts ≤ limit → (∀ c, c < 96 → temp t c < warn s) → (95 * limit < 100 * watts ∨ ∃ c, c < 96 ∧ warn s < temp t c + 3) →
          t.pw.ratio = s.pw.ratio ∧ t.pw.passes = s.pw.passes)
      ∧ (∀ k x, watts ≤ limit → k < 96 → (∀ c, c < 96 → (warn s ≤ temp t c ↔ c = k)) → 4 < x → (∃ i, i < 6 ∧ s.ratio (6 * k + i) = x) →
          (∀ i, i < 6 → s.ratio (6 * k + i) ≤ x) → t.pw.passes = s.pw.passes
            ∧ ∀ c, c < 576 → t.ratioPick c = if c / 6 = k ∧ s.ratio c = x then x - 1 else s.ratioPick c)
      ∧ (watts ≤ limit → 100 * watts ≤ 95 * limit → (∀ c, c < 96 → temp t c + 3 ≤ warn s) →
          (∀ x, 1 < x → (∃ c, c < 96 ∧ pick c = x) → (∀ c, c < 96 → pick c ≤ x) → t.pw.ratio = s.pw.ratio
              ∧ ∀ c, c < 96 → tget 1 t.pw.passes c = if pick c = x then x / 2 else pick c)
          ∧ (∀ x, x < 10 → (∀ c, c < 96 → pick c ≤ 1) → (∃ c, c < 576 ∧ s.ratioPick c = x ∧ x < s.ratioCeil c) →
              (∀ c, c < 576 → s.ratioPick c < s.ratioCeil c → x ≤ s.ratioPick c) → t.pw.passes = s.pw.passes
              ∧ ∀ c, c < 576 → t.ratioPick c = if s.ratioPick c = x ∧ x < s.ratioCeil c then x + 1 else s.ratioPick c))))
  ∧ (∀ (s : State) (c x : Nat), ∃ t, exec (.thermalEmergencyStart c x) s = .next t ∧
    let starts : Prop := c < 96 ∧ serves s ∧ emerg s c = 0 ∧ limitT s ≤ x
    let r := s.barFld 0x400000 36 4
    let em := if 4 ≤ r ∧ r ≤ 8 then r else 6
    (¬ starts → t = s)
    ∧ (starts → emerg t c = 1 ∧ t.barFld 0x400008 28 1 = 1 ∧ temp t c = min x 255 ∧ 4 ≤ t.passes c
        ∧ (∀ g ∈ s.groups, g.ended = false → g.core / 6 = c → ∃ e ∈ t.pw.caps, e.1 = c ∧ e.2.1 = s.ctxOf g ∧ e.2.2 ≤ em)
        ∧ (∀ g ∈ s.groups, g.ended = false → g.core / 6 = c → (∀ e ∈ s.pw.caps, e.2.1 ≠ s.ctxOf g) → ∀ k ∈ s.others (s.pktOf g),
            tget false s.peers k = true → .slow k (s.ctxOf g) em ∈ t.out)
        ∧ t.groups = s.groups))
  ∧ (∀ (s : State) (c x : Nat), ∃ t, exec (.thermalEmergencyEnd c x) s = .next t ∧
    let ends : Prop := c < 96 ∧ serves s ∧ emerg s c = 1 ∧ x + 5 < limitT s
    (¬ ends → t = s) ∧ (ends → emerg t c = 0 ∧ temp t c = min x 255 ∧ t.pw.caps = s.pw.caps ∧ t.groups = s.groups
        ∧ (t.barFld 0x400008 28 1 = 1 ↔ ∃ k, k < 96 ∧ k ≠ c ∧ emerg s k = 1)))
  ∧ (∀ (s : State) (c x : Nat), ∃ t, exec (.emergencyRecoveryStep c x) s = .next t ∧
    let on : Prop := c < 96 ∧ serves s ∧ ∃ e ∈ s.pw.caps, e.1 = c
    let step := 1000 * max 100 (s.barFld 0x400000 40 16)
    (¬ on → t = s)
    ∧ (on → warn s ≤ min x 255 → t.pw.caps = s.pw.caps)
    ∧ (∀ a, on → min x 255 < warn s → tfind s.pw.stepAt c = some a → s.timer < a + step → t.pw.caps = s.pw.caps)
    ∧ (∀ a, on → min x 255 < warn s → tfind s.pw.stepAt c = some a → a + step ≤ s.timer →
        ∀ e, e ∈ t.pw.caps ↔ (e ∈ s.pw.caps ∧ e.1 ≠ c ∧ e.2.2 < 10) ∨ (e.1 = c ∧ e.2.2 < 10 ∧ ∃ v, e.2.2 = v + 1 ∧ (c, e.2.1, v) ∈ s.pw.caps))
    ∧ (on → min x 255 < warn s → tfind s.pw.stepAt c = none → t.pw.caps = s.pw.caps
        ∧ tfind t.pw.stepAt c = if emerg s c = 1 then none else some s.timer))
  ∧ (∀ (s : State) (c mv : Nat), ∃ t, exec (.droopAlarm c mv) s = .next t ∧
    let d := s.barGet (0x500000 + 0x1000 * c)
    let hit : Prop := c < 96 ∧ serves s ∧ d.getLsbD 31 = true ∧ max 4 (d.extractLsb' 0 10).toNat ≤ mv
    let count := s.barFld (0x500010 + 0x1000 * c) 0 32
    ((¬ hit ∨ ∃ l r a h, tfind s.pw.droop c = some (.stretch l r a h)) → t = s)
    ∧ (hit → (∀ l r a h, tfind s.pw.droop c ≠ some (.stretch l r a h)) → ∃ l r : Tbl Nat,
        (∀ i, i < 6 → tget 0 l i = 6 ∧ tget 8 r i = s.clock (6 * c + i))
        ∧ tfind t.pw.droop c = some (.stretch l r s.timer (tfind s.pw.droop c).isSome) ∧ (∀ k, k ≠ c → tfind t.pw.droop k = tfind s.pw.droop k)
        ∧ t.barFld (0x500010 + 0x1000 * c) 0 32 = min (count + 1) 0xFFFFFFFF ∧ t.groups = s.groups))
  ∧ (∀ (s : State) (c : Nat), ∃ t, exec (.droopStretchEnd c) s = .next t
    ∧ ((∀ l r a h, tfind s.pw.droop c ≠ some (.stretch l r a h)) → t = s)
    ∧ ∀ l r a h, tfind s.pw.droop c = some (.stretch l r a h) →
      let held (k : Nat) : Prop := k < 6 ∧ ∃ g ∈ s.groups, g.ended = false ∧ g.core = 6 * c + k
      let isOver : Prop := ((∃ k, held k) ∧ ∀ k, held k → tget 0 l k = 0) ∨ ((∀ k, ¬ held k) ∧ a + (12 * 4 + 6) / 7 ≤ s.timer)
      (¬ isOver → t = s) ∧ (isOver → t = { s with pw := { s.pw with droop := tins s.pw.droop c (.hold (s.timer + (64 * 4 + 6) / 7)) } }))
  ∧ (∀ (s : State) (c : Nat), ∃ t, exec (.droopHoldEnd c) s = .next t ∧ ((∀ x, tfind s.pw.droop c = some (.hold x) → s.timer < x) → t = s)
    ∧ ∀ x, tfind s.pw.droop c = some (.hold x) → x ≤ s.timer → t = { s with pw := { s.pw with droop := tdel s.pw.droop c } })
  ∧ (∀ (s : State) (e unit word : Nat) (err : Option Bool), ∃ t, exec (.patrolScrub e unit word err) s = .next t ∧
    let counted (t : State) (ue : Bool) : Prop := let k := if ue then 32 else 0
      t.barFld (0x600000 + 16 * e) k 32 = min (s.barFld (0x600000 + 16 * e) k 32 + 1) 0xFFFFFFFF
    let inRing (a n : Nat) : Prop := ∃ b, s.canonPa (s.barFld 0x700008 12 52 * 4096) = some b ∧ b ≤ a + n - 1
      ∧ a < b + 32 * 2 ^ (s.barFld 0x700008 0 4 + 4)
    (err = none → t = s)
    ∧ ((e = 0 ∨ e = 1) → s.installed (4 * word) = false → t = s)
    ∧ ((e = 0 ∨ e = 1) → s.installed (4 * word) = true →
        let n := if e = 0 then 64 else 8
        (err = some true → counted t true
          ∧ ∀ k, k < n / 4 → poisonedIn t.memPoison (4 * word / n * n + 4 * k) 4 = true ∨ inRing (4 * word / n * n) n)
        ∧ (err = some false → counted t false))
    ∧ (e = 2 → err = some true → s.ownerOf word = some unit → counted t true ∧ tfind t.owner word = none
        ∧ (poisonedIn t.memPoison (4 * word) 4 = true ∨ inRing (4 * word) 4))
    ∧ (e = 2 → s.ownerOf word ≠ some unit → word < 2 ^ 50 → thas s.l1 (l1Key unit (4 * word)) = true → err ≠ none →
        counted t false ∧ thas t.l1 (l1Key unit (4 * word)) = false ∧ t.owner = s.owner)
    ∧ (∀ r, e = 3 → unit = 0 → err = some true → s.redbuf[word]? = some r → s.unreachable r.pa = false →
        r ∉ t.redbuf ∧ (poisonedIn t.memPoison r.pa 4 = true ∨ inRing r.pa (atomBytes r.ty)))
    ∧ (e = 3 → unit ≠ 0 → err = some true → s.bu.phase ≠ 15 → t.bu.phase = 15 ∧ t.bu.dieRun = 0 ∧ t.bu.tripped = true ∧ t.bu.failures = s.bu.failures ++ [(0xC0, 8)])
    ∧ (∀ g, (e = 4 ∨ e = 5) → s.group? unit = some g → g.ended = false → g.stop = none → err = some true → counted t true
        ∧ ∃ g', t.group? unit = some g' ∧ g'.stop = some (e, word) ∧ g'.killed = false ∧ g'.palOps = []
          ∧ (∀ w ∈ g'.warps, w.live = 0 ∧ w.subs = []) ∧ g'.scratch = g.scratch
          ∧ ((s.pktOf g).getLsbD 572 = true → (s.pktOf g).getLsbD 573 = false →
              (∀ x ∈ s.teamOf g, x.ended = false ∧ x.killed = false ∧ x.stop = none ∧ x.relaunches < 3) →
              ∀ x ∈ s.teamOf g, ∃ x' ∈ t.groups, x'.id = x.id ∧ x'.stop = some (e, word)))
    ∧ (∀ g, e = 7 → s.group? unit = some g → g.ended = false → g.stop = none → err = some true → s.runOk g [word / 16384] = true → counted t true
        ∧ ∃ g', t.group? unit = some g' ∧ thas (g'.tile (word / 16384)).pois (word % 16384) = true
          ∧ (g'.tile (word / 16384)).elems = (g.tile (word / 16384)).elems)
    ∧ (∀ g, e = 8 → s.group? unit = some g → g.ended = false → g.stop = none → err ≠ none → (g.pal word).has = true → (g.pal word).valid = true →
        let gone : Prop := (g.pal word).fromFill = true ∨ (g.pal word).canRebuild = false
        (¬ gone → counted t false ∧ ∃ g', t.group? unit = some g' ∧ tget 0 g'.perf 8 = tget 0 g.perf 8 + 1 ∧ g'.warps = g.warps
            ∧ g'.stop = none ∧ (g'.pal word).valid = true)
        ∧ (gone → counted t true ∧ ∃ g', t.group? unit = some g' ∧ g'.stop = some (8, word) ∧ g'.killed = false))
    ∧ ((e = 6 ∨ e = 9) → err ≠ none → counted t false ∧ t.groups = s.groups)
    ∧ (10 ≤ e → t = s))
  ∧ (∀ (s : State) (gid : Nat), ∃ t, exec (.groupRelaunch gid) s = .next t ∧ (s.group? gid = none → t = s) ∧ ∀ g, s.group? gid = some g →
    let due : Prop := g.ended = true ∧ g.stop ≠ none ∧ g.killed = false ∧ ∀ x ∈ s.teamOf g, x.ended = true
    (¬ due → t = s)
    ∧ (due → (∀ x ∈ t.groups, ∀ y ∈ s.teamOf g, x.id ≠ y.id)
        ∧ (∀ d, s.grid? g.grid = some d → ∃ d', t.grid? g.grid = some d'
            ∧ (s.bu.stopping = true → d'.dropped = true ∧ d'.relaunch = d.relaunch)
            ∧ (s.bu.stopping = false → ∃ l : List (Nat × Nat), d'.relaunch = d.relaunch ++ l ∧ l.length = (s.teamOf g).length
                ∧ ∀ x ∈ s.teamOf g, (x.lin, x.relaunches + 1) ∈ l))))
  ∧ (∀ (s : State), ∃ t, exec .trip s = .next t ∧ (s.bu.phase = 15 → t = s)
    ∧ (s.bu.phase ≠ 15 → t.bu.phase = 15 ∧ t.bu.dieRun = 0 ∧ t.bu.tripped = true ∧ t.bu.fuses = s.bu.fuses
        ∧ t.bu.failures = s.bu.failures ++ [(0xC0, 8)] ∧ (s.bu.failU = 0 → t.bu.failU = 0xC0 ∧ t.bu.failC = 8)
        ∧ (s.bu.failU ≠ 0 → t.bu.failU = s.bu.failU ∧ t.bu.failC = s.bu.failC)
        ∧ t.groups = s.groups ∧ ∀ c, c < 576 → t.coreRuns c = false))

/-- R408 to R417: bring-up runs its stages in order; a failure of package, die 0 or firmware enters the safe state,
another one stops intake and drops what is not placed; a mailbox command leaves its result, its output and DONE; and
none of these lowers the fuse count. Where the manual is silent or open, the model's choice: log 80, 85 to 88. -/
def Obligations.BringUpAndTheMailboxRun : Prop :=
  let ends (s t : State) (result : Nat) (out : List Byte) : Prop := t = { s with bu := { s.bu with
      busy := false, doneBit := true, result := result, outLen := out.length, buf := putBytes s.bu.buf 0 out } }
  let mail (i : Instr) (op : Nat) (k : State → State → Prop) : Prop := ∀ s : State, ∃ t, exec i s = .next t
    ∧ ((s.bu.busy = false ∨ s.bu.op ≠ op) → t = s) ∧ (s.bu.busy = true → s.bu.op = op → k s t)
  let fresh (s t : State) : Prop := t.bu.phase = 1 ∧ t.bu.fuses = s.bu.fuses ∧ t.bu.busy = false ∧ t.bu.dieRun = 0 ∧ t.bu.failures = []
    ∧ t.groups = [] ∧ t.grids = [] ∧ t.tasks = [] ∧ t.jobs = [] ∧ t.tlb = [] ∧ t.timer = 0 ∧ t.bar = [] ∧ t.bias = []
    ∧ ∀ a, t.byteAt (.phys a false) = if a / 2 ^ 48 % 16 = 0 then 0 else s.byteAt (.phys a false)
  (∀ s : State, ∃ t, exec .powerOnReset s = .next t ∧ fresh s t)
  ∧ (∀ (s : State) (r : StageResult), ∃ t, exec (.bringupStageComplete r) s = .next t
    ∧ (s.bu.phase = 1 → (r.keyOk = true → t = { s with bu := { s.bu with phase := 2, idKey := true } })
        ∧ (r.keyOk = false → t.bu.phase = 15 ∧ t.bu.failures = s.bu.failures ++ [(0xC0, 5)] ∧ t.bu.dieRun = 0
            ∧ (s.bu.failU = 0 → t.bu.failU = 0xC0 ∧ t.bu.failC = 5)))
    ∧ (s.bu.phase = 2 → (fwCheck s.bu.fuses Config.flash = 0 → t.bu.phase = 3 ∧ t.bu.svn = fwSvn Config.flash ∧ t.bu.image = fwImage Config.flash)
        ∧ (fwCheck s.bu.fuses Config.flash ≠ 0 → t.bu.phase = 15 ∧ t.bu.failures = s.bu.failures ++ [(0xC0, fwCheck s.bu.fuses Config.flash)]))
    ∧ (s.bu.phase = 3 →
        let good : Prop := r.lbist.getLsbD 0 = true ∧ r.mbist.getLsbD 0 = true ∧ r.hbms.getLsbD 0 = true ∧ r.hbms.getLsbD 1 = true
        (good → t.bu.phase = 4 ∧ t.bu.dieRun = 1 ∧ t.bu.dieOk = s.bu.dieOk ||| 1 ∧ t.bu.stackOk = s.bu.stackOk ||| 3)
        ∧ (¬ good → t.bu.phase = 15 ∧ t.bu.dieRun = 0 ∧ t.bu.failures ≠ s.bu.failures))
    ∧ (s.bu.phase = 4 → s.bu.dieOk = 1 → s.bu.failures = [] →
        let good (d : Nat) : Prop := r.lbist.getLsbD d = true ∧ r.mbist.getLsbD d = true ∧ r.hbms.getLsbD (2 * d) = true ∧ r.hbms.getLsbD (2 * d + 1) = true
        ((∀ d, 1 ≤ d → d < 4 → good d) → t.bu.phase = 5 ∧ t.bu.dieRun = 15 ∧ t.bu.stopping = s.bu.stopping)
        ∧ ((∃ d, 1 ≤ d ∧ d < 4 ∧ ¬ good d) → t.bu.phase = 4 ∧ t.bu.dieRun = s.bu.dieRun ∧ t.bu.stopping = true))
    ∧ (s.bu.phase = 5 → r.serdes = true → t = s)
    ∧ (s.bu.phase = 5 → r.serdes = false → (0xC0, 4) ∉ s.bu.failures → t.bu.phase = 5 ∧ t.bu.stopping = true ∧ t.bu.failures = s.bu.failures ++ [(0xC0, 4)])
    ∧ ((s.bu.phase = 0 ∨ 5 < s.bu.phase) → t = s))
  ∧ (∀ (s : State) (kind idx code : Nat), ∃ t, exec (.unitFailure kind idx code) s = .next t ∧
    let may : Prop := (s.bu.phase = 4 ∧ ((kind = 1 ∧ 1 ≤ idx ∧ idx ≤ 3 ∧ (code = 1 ∨ code = 2)) ∨ (kind = 2 ∧ 2 ≤ idx ∧ idx ≤ 7 ∧ code = 3)))
      ∨ (s.bu.phase = 5 ∧ kind = 3 ∧ idx = 0 ∧ code = 4)
    let listed : Prop := (64 * kind + idx, code) ∈ s.bu.failures
    ((¬ may ∨ listed) → t = s)
    ∧ (may → ¬ listed → t.bu = { s.bu with failures := s.bu.failures ++ [(64 * kind + idx, code)], stopping := true, failU := t.bu.failU, failC := t.bu.failC }
        ∧ (s.bu.failU = 0 → t.bu.failU = BitVec.ofNat 8 (64 * kind + idx) ∧ t.bu.failC = BitVec.ofNat 8 code) ∧ (s.bu.failU ≠ 0 → t.bu.failU = s.bu.failU)
        ∧ (∀ k ∈ t.tasks, k.accepted = true)
        ∧ (∀ d ∈ s.grids, d.done = false → d.phase = .placing → d.next < d.last → (∀ e ∈ s.grids, e.id = d.id → e = d) →
            ∃ d' ∈ t.grids, d'.id = d.id ∧ d'.dropped = true ∧ d'.next = d'.last ∧ d'.relaunch = [])))
  ∧ (∀ s : State, ∃ t, exec .safeStateEntry s = .next t ∧
    let idle : Prop := s.bu.stopping = true ∧ (∀ g ∈ s.groups, g.ended = true) ∧ ∀ d ∈ s.grids, d.done = true
    (¬ idle → t = s) ∧ (idle → t = { s with bu := { s.bu with phase := 15, dieRun := 0, stopping := false } }))
  ∧ mail .status 1 (fun s t =>
      let b : DWord := BitVec.ofNat 8 s.bu.failC.toNat ++ s.bu.failU ++ (0#4 ++ s.bu.dieRun) ++ s.bu.stackOk ++ s.bu.dieOk ++ BitVec.ofNat 4 s.bu.phase |>.zeroExtend 64
      s.bu.phase < 16 → ends s t 0 (leBytes 8 b.toNat ++ leBytes 4 s.bu.failures.length ++ s.bu.failures.flatMap (fun x => leBytes 4 x.1 ++ leBytes 4 x.2)))
  ∧ mail .getcert 2 (fun s t => (s.bu.idKey = true → ends s t 0 (Config.cert.take 4096)) ∧ (s.bu.idKey = false → ends s t 5 []))
  ∧ mail .attest 3 (fun s t => (s.bu.inLen ≠ 64 → ends s t 3 []) ∧ (s.bu.inLen = 64 → s.bu.idKey = false → ends s t 5 [])
      ∧ (s.bu.inLen = 64 → s.bu.idKey = true → ∃ m sig : List Byte, ends s t 0 (m ++ sig) ∧ m.length = 272 ∧ sig.length = 512
          ∧ sig = pssSign Config.idModulus Config.idPrivate m (beBytes 64 (Config.pssSalt m).toNat) ∧ m.take 4 = leBytes 4 1 ∧ (m.drop 4).take 4 = leBytes 4 s.bu.svn
          ∧ (m.drop 16).take 64 = getBytes s.bu.buf 0 64 ∧ (m.drop 80).take 64 = sha512 Config.rom
          ∧ (m.drop 144).take 64 = sha512 s.bu.image ∧ (m.drop 208).take 64 = sha512 Config.board))
  ∧ mail .fwload 4 (fun s t =>
      let off := leVal (getBytes s.bu.buf 0 8)
      let n := leVal (getBytes s.bu.buf 8 4)
      let bad : Prop := s.bu.inLen ≠ 12 ∨ 2 ^ 48 ≤ off ∨ n < 1152
      let b := s.peek (2 ^ 48 + off) n
      (bad → ends s t 3 [])
      ∧ (¬ bad → (∀ k, k < n → s.steady [] (.phys (2 ^ 48 + off + k) false)) → t.groups = s.groups
          ∧ (n ≠ 1152 + fwBody b → t.bu.result = 3 ∧ t.bu.phase = s.bu.phase)
          ∧ (n = 1152 + fwBody b → (poisonedIn s.memPoison (2 ^ 48 + off) n = true ∨ fwCheck s.bu.fuses b ≠ 0) → t.bu.result = 4 ∧ t.bu.phase = s.bu.phase ∧ t.bu.svn = s.bu.svn)
          ∧ (n = 1152 + fwBody b → poisonedIn s.memPoison (2 ^ 48 + off) n = false → fwCheck s.bu.fuses b = 0 →
              t.bu = { s.bu with busy := false, doneBit := true, result := 0, outLen := 0, phase := 3, failU := 0, failC := 0, failures := [],
                                 svn := fwSvn b })))
  ∧ mail .svnraise 5 (fun s t =>
      let n := max s.bu.fuses (min 63 s.bu.svn)
      ends { s with bu := { s.bu with fuses := n } } t 0 (leBytes 4 n))
  ∧ mail .reset 6 fresh
  ∧ (∀ (s t : State) i, (i ∈ [.powerOnReset, .safeStateEntry, .trip, .status, .getcert, .attest, .fwload, .svnraise, .reset]
        ∨ (∃ r, i = .bringupStageComplete r) ∨ ∃ a b c, i = .unitFailure a b c) → exec i s = .next t → s.bu.fuses ≤ t.bu.fuses)
end

