-- ==== Sys2Proof/Laws/State.lean ====
section
/-! SUPPORT. What the named updates of the state leave alone: one lemma for each field of each update. -/
namespace Sys2Proof.Machine

/-! ### updGroup -/

@[simp] theorem State.updGroup_timer (s : State) (gid : Nat) (f : Group → Group) : (s.updGroup gid f).timer = s.timer := rfl
@[simp] theorem State.updGroup_mem (s : State) (gid : Nat) (f : Group → Group) : (s.updGroup gid f).mem = s.mem := rfl
@[simp] theorem State.updGroup_memPoison (s : State) (gid : Nat) (f : Group → Group) : (s.updGroup gid f).memPoison = s.memPoison := rfl
@[simp] theorem State.updGroup_bar (s : State) (gid : Nat) (f : Group → Group) : (s.updGroup gid f).bar = s.bar := rfl
@[simp] theorem State.updGroup_bu (s : State) (gid : Nat) (f : Group → Group) : (s.updGroup gid f).bu = s.bu := rfl
@[simp] theorem State.updGroup_pw (s : State) (gid : Nat) (f : Group → Group) : (s.updGroup gid f).pw = s.pw := rfl
@[simp] theorem State.updGroup_tlb (s : State) (gid : Nat) (f : Group → Group) : (s.updGroup gid f).tlb = s.tlb := rfl
@[simp] theorem State.updGroup_walkCache (s : State) (gid : Nat) (f : Group → Group) : (s.updGroup gid f).walkCache = s.walkCache := rfl
@[simp] theorem State.updGroup_l1 (s : State) (gid : Nat) (f : Group → Group) : (s.updGroup gid f).l1 = s.l1 := rfl
@[simp] theorem State.updGroup_owner (s : State) (gid : Nat) (f : Group → Group) : (s.updGroup gid f).owner = s.owner := rfl
@[simp] theorem State.updGroup_dir (s : State) (gid : Nat) (f : Group → Group) : (s.updGroup gid f).dir = s.dir := rfl
@[simp] theorem State.updGroup_bridge (s : State) (gid : Nat) (f : Group → Group) : (s.updGroup gid f).bridge = s.bridge := rfl
@[simp] theorem State.updGroup_icache (s : State) (gid : Nat) (f : Group → Group) : (s.updGroup gid f).icache = s.icache := rfl
@[simp] theorem State.updGroup_ccache (s : State) (gid : Nat) (f : Group → Group) : (s.updGroup gid f).ccache = s.ccache := rfl
@[simp] theorem State.updGroup_shapes (s : State) (gid : Nat) (f : Group → Group) : (s.updGroup gid f).shapes = s.shapes := rfl
@[simp] theorem State.updGroup_redbuf (s : State) (gid : Nat) (f : Group → Group) : (s.updGroup gid f).redbuf = s.redbuf := rfl
@[simp] theorem State.updGroup_bias (s : State) (gid : Nat) (f : Group → Group) : (s.updGroup gid f).bias = s.bias := rfl
@[simp] theorem State.updGroup_flips (s : State) (gid : Nat) (f : Group → Group) : (s.updGroup gid f).flips = s.flips := rfl
@[simp] theorem State.updGroup_watches (s : State) (gid : Nat) (f : Group → Group) : (s.updGroup gid f).watches = s.watches := rfl
@[simp] theorem State.updGroup_waits (s : State) (gid : Nat) (f : Group → Group) : (s.updGroup gid f).waits = s.waits := rfl
@[simp] theorem State.updGroup_tasks (s : State) (gid : Nat) (f : Group → Group) : (s.updGroup gid f).tasks = s.tasks := rfl
@[simp] theorem State.updGroup_faults (s : State) (gid : Nat) (f : Group → Group) : (s.updGroup gid f).faults = s.faults := rfl
@[simp] theorem State.updGroup_ctxs (s : State) (gid : Nat) (f : Group → Group) : (s.updGroup gid f).ctxs = s.ctxs := rfl
@[simp] theorem State.updGroup_slots (s : State) (gid : Nat) (f : Group → Group) : (s.updGroup gid f).slots = s.slots := rfl
@[simp] theorem State.updGroup_queues (s : State) (gid : Nat) (f : Group → Group) : (s.updGroup gid f).queues = s.queues := rfl
@[simp] theorem State.updGroup_grids (s : State) (gid : Nat) (f : Group → Group) : (s.updGroup gid f).grids = s.grids := rfl
@[simp] theorem State.updGroup_jobs (s : State) (gid : Nat) (f : Group → Group) : (s.updGroup gid f).jobs = s.jobs := rfl
@[simp] theorem State.updGroup_rotor (s : State) (gid : Nat) (f : Group → Group) : (s.updGroup gid f).rotor = s.rotor := rfl
@[simp] theorem State.updGroup_split (s : State) (gid : Nat) (f : Group → Group) : (s.updGroup gid f).split = s.split := rfl
@[simp] theorem State.updGroup_edges (s : State) (gid : Nat) (f : Group → Group) : (s.updGroup gid f).edges = s.edges := rfl
@[simp] theorem State.updGroup_clocks (s : State) (gid : Nat) (f : Group → Group) : (s.updGroup gid f).clocks = s.clocks := rfl
@[simp] theorem State.updGroup_quads (s : State) (gid : Nat) (f : Group → Group) : (s.updGroup gid f).quads = s.quads := rfl
@[simp] theorem State.updGroup_peers (s : State) (gid : Nat) (f : Group → Group) : (s.updGroup gid f).peers = s.peers := rfl
@[simp] theorem State.updGroup_idents (s : State) (gid : Nat) (f : Group → Group) : (s.updGroup gid f).idents = s.idents := rfl
@[simp] theorem State.updGroup_teleq (s : State) (gid : Nat) (f : Group → Group) : (s.updGroup gid f).teleq = s.teleq := rfl
@[simp] theorem State.updGroup_errs (s : State) (gid : Nat) (f : Group → Group) : (s.updGroup gid f).errs = s.errs := rfl
@[simp] theorem State.updGroup_cur (s : State) (gid : Nat) (f : Group → Group) : (s.updGroup gid f).cur = s.cur := rfl
@[simp] theorem State.updGroup_agenda (s : State) (gid : Nat) (f : Group → Group) : (s.updGroup gid f).agenda = s.agenda := rfl
@[simp] theorem State.updGroup_out (s : State) (gid : Nat) (f : Group → Group) : (s.updGroup gid f).out = s.out := rfl
@[simp] theorem State.updGroup_nextId (s : State) (gid : Nat) (f : Group → Group) : (s.updGroup gid f).nextId = s.nextId := rfl
@[simp] theorem State.updGroup_free (s : State) (gid : Nat) (f : Group → Group) : (s.updGroup gid f).free = s.free := rfl

/-! ### updWarp -/

@[simp] theorem State.updWarp_timer (s : State) (gid w : Nat) (f : Warp → Warp) : (s.updWarp gid w f).timer = s.timer := rfl
@[simp] theorem State.updWarp_mem (s : State) (gid w : Nat) (f : Warp → Warp) : (s.updWarp gid w f).mem = s.mem := rfl
@[simp] theorem State.updWarp_memPoison (s : State) (gid w : Nat) (f : Warp → Warp) : (s.updWarp gid w f).memPoison = s.memPoison := rfl
@[simp] theorem State.updWarp_bar (s : State) (gid w : Nat) (f : Warp → Warp) : (s.updWarp gid w f).bar = s.bar := rfl
@[simp] theorem State.updWarp_bu (s : State) (gid w : Nat) (f : Warp → Warp) : (s.updWarp gid w f).bu = s.bu := rfl
@[simp] theorem State.updWarp_pw (s : State) (gid w : Nat) (f : Warp → Warp) : (s.updWarp gid w f).pw = s.pw := rfl
@[simp] theorem State.updWarp_tlb (s : State) (gid w : Nat) (f : Warp → Warp) : (s.updWarp gid w f).tlb = s.tlb := rfl
@[simp] theorem State.updWarp_walkCache (s : State) (gid w : Nat) (f : Warp → Warp) : (s.updWarp gid w f).walkCache = s.walkCache := rfl
@[simp] theorem State.updWarp_l1 (s : State) (gid w : Nat) (f : Warp → Warp) : (s.updWarp gid w f).l1 = s.l1 := rfl
@[simp] theorem State.updWarp_owner (s : State) (gid w : Nat) (f : Warp → Warp) : (s.updWarp gid w f).owner = s.owner := rfl
@[simp] theorem State.updWarp_dir (s : State) (gid w : Nat) (f : Warp → Warp) : (s.updWarp gid w f).dir = s.dir := rfl
@[simp] theorem State.updWarp_bridge (s : State) (gid w : Nat) (f : Warp → Warp) : (s.updWarp gid w f).bridge = s.bridge := rfl
@[simp] theorem State.updWarp_icache (s : State) (gid w : Nat) (f : Warp → Warp) : (s.updWarp gid w f).icache = s.icache := rfl
@[simp] theorem State.updWarp_ccache (s : State) (gid w : Nat) (f : Warp → Warp) : (s.updWarp gid w f).ccache = s.ccache := rfl
@[simp] theorem State.updWarp_shapes (s : State) (gid w : Nat) (f : Warp → Warp) : (s.updWarp gid w f).shapes = s.shapes := rfl
@[simp] theorem State.updWarp_redbuf (s : State) (gid w : Nat) (f : Warp → Warp) : (s.updWarp gid w f).redbuf = s.redbuf := rfl
@[simp] theorem State.updWarp_bias (s : State) (gid w : Nat) (f : Warp → Warp) : (s.updWarp gid w f).bias = s.bias := rfl
@[simp] theorem State.updWarp_flips (s : State) (gid w : Nat) (f : Warp → Warp) : (s.updWarp gid w f).flips = s.flips := rfl
@[simp] theorem State.updWarp_watches (s : State) (gid w : Nat) (f : Warp → Warp) : (s.updWarp gid w f).watches = s.watches := rfl
@[simp] theorem State.updWarp_waits (s : State) (gid w : Nat) (f : Warp → Warp) : (s.updWarp gid w f).waits = s.waits := rfl
@[simp] theorem State.updWarp_tasks (s : State) (gid w : Nat) (f : Warp → Warp) : (s.updWarp gid w f).tasks = s.tasks := rfl
@[simp] theorem State.updWarp_faults (s : State) (gid w : Nat) (f : Warp → Warp) : (s.updWarp gid w f).faults = s.faults := rfl
@[simp] theorem State.updWarp_ctxs (s : State) (gid w : Nat) (f : Warp → Warp) : (s.updWarp gid w f).ctxs = s.ctxs := rfl
@[simp] theorem State.updWarp_slots (s : State) (gid w : Nat) (f : Warp → Warp) : (s.updWarp gid w f).slots = s.slots := rfl
@[simp] theorem State.updWarp_queues (s : State) (gid w : Nat) (f : Warp → Warp) : (s.updWarp gid w f).queues = s.queues := rfl
@[simp] theorem State.updWarp_grids (s : State) (gid w : Nat) (f : Warp → Warp) : (s.updWarp gid w f).grids = s.grids := rfl
@[simp] theorem State.updWarp_jobs (s : State) (gid w : Nat) (f : Warp → Warp) : (s.updWarp gid w f).jobs = s.jobs := rfl
@[simp] theorem State.updWarp_rotor (s : State) (gid w : Nat) (f : Warp → Warp) : (s.updWarp gid w f).rotor = s.rotor := rfl
@[simp] theorem State.updWarp_split (s : State) (gid w : Nat) (f : Warp → Warp) : (s.updWarp gid w f).split = s.split := rfl
@[simp] theorem State.updWarp_edges (s : State) (gid w : Nat) (f : Warp → Warp) : (s.updWarp gid w f).edges = s.edges := rfl
@[simp] theorem State.updWarp_clocks (s : State) (gid w : Nat) (f : Warp → Warp) : (s.updWarp gid w f).clocks = s.clocks := rfl
@[simp] theorem State.updWarp_quads (s : State) (gid w : Nat) (f : Warp → Warp) : (s.updWarp gid w f).quads = s.quads := rfl
@[simp] theorem State.updWarp_peers (s : State) (gid w : Nat) (f : Warp → Warp) : (s.updWarp gid w f).peers = s.peers := rfl
@[simp] theorem State.updWarp_idents (s : State) (gid w : Nat) (f : Warp → Warp) : (s.updWarp gid w f).idents = s.idents := rfl
@[simp] theorem State.updWarp_teleq (s : State) (gid w : Nat) (f : Warp → Warp) : (s.updWarp gid w f).teleq = s.teleq := rfl
@[simp] theorem State.updWarp_errs (s : State) (gid w : Nat) (f : Warp → Warp) : (s.updWarp gid w f).errs = s.errs := rfl
@[simp] theorem State.updWarp_cur (s : State) (gid w : Nat) (f : Warp → Warp) : (s.updWarp gid w f).cur = s.cur := rfl
@[simp] theorem State.updWarp_agenda (s : State) (gid w : Nat) (f : Warp → Warp) : (s.updWarp gid w f).agenda = s.agenda := rfl
@[simp] theorem State.updWarp_out (s : State) (gid w : Nat) (f : Warp → Warp) : (s.updWarp gid w f).out = s.out := rfl
@[simp] theorem State.updWarp_nextId (s : State) (gid w : Nat) (f : Warp → Warp) : (s.updWarp gid w f).nextId = s.nextId := rfl
@[simp] theorem State.updWarp_free (s : State) (gid w : Nat) (f : Warp → Warp) : (s.updWarp gid w f).free = s.free := rfl

/-! ### updSub -/

@[simp] theorem State.updSub_timer (s : State) (gid w u : Nat) (f : SubGroup → SubGroup) : (s.updSub gid w u f).timer = s.timer := rfl
@[simp] theorem State.updSub_mem (s : State) (gid w u : Nat) (f : SubGroup → SubGroup) : (s.updSub gid w u f).mem = s.mem := rfl
@[simp] theorem State.updSub_memPoison (s : State) (gid w u : Nat) (f : SubGroup → SubGroup) : (s.updSub gid w u f).memPoison = s.memPoison := rfl
@[simp] theorem State.updSub_bar (s : State) (gid w u : Nat) (f : SubGroup → SubGroup) : (s.updSub gid w u f).bar = s.bar := rfl
@[simp] theorem State.updSub_bu (s : State) (gid w u : Nat) (f : SubGroup → SubGroup) : (s.updSub gid w u f).bu = s.bu := rfl
@[simp] theorem State.updSub_pw (s : State) (gid w u : Nat) (f : SubGroup → SubGroup) : (s.updSub gid w u f).pw = s.pw := rfl
@[simp] theorem State.updSub_tlb (s : State) (gid w u : Nat) (f : SubGroup → SubGroup) : (s.updSub gid w u f).tlb = s.tlb := rfl
@[simp] theorem State.updSub_walkCache (s : State) (gid w u : Nat) (f : SubGroup → SubGroup) : (s.updSub gid w u f).walkCache = s.walkCache := rfl
@[simp] theorem State.updSub_l1 (s : State) (gid w u : Nat) (f : SubGroup → SubGroup) : (s.updSub gid w u f).l1 = s.l1 := rfl
@[simp] theorem State.updSub_owner (s : State) (gid w u : Nat) (f : SubGroup → SubGroup) : (s.updSub gid w u f).owner = s.owner := rfl
@[simp] theorem State.updSub_dir (s : State) (gid w u : Nat) (f : SubGroup → SubGroup) : (s.updSub gid w u f).dir = s.dir := rfl
@[simp] theorem State.updSub_bridge (s : State) (gid w u : Nat) (f : SubGroup → SubGroup) : (s.updSub gid w u f).bridge = s.bridge := rfl
@[simp] theorem State.updSub_icache (s : State) (gid w u : Nat) (f : SubGroup → SubGroup) : (s.updSub gid w u f).icache = s.icache := rfl
@[simp] theorem State.updSub_ccache (s : State) (gid w u : Nat) (f : SubGroup → SubGroup) : (s.updSub gid w u f).ccache = s.ccache := rfl
@[simp] theorem State.updSub_shapes (s : State) (gid w u : Nat) (f : SubGroup → SubGroup) : (s.updSub gid w u f).shapes = s.shapes := rfl
@[simp] theorem State.updSub_redbuf (s : State) (gid w u : Nat) (f : SubGroup → SubGroup) : (s.updSub gid w u f).redbuf = s.redbuf := rfl
@[simp] theorem State.updSub_bias (s : State) (gid w u : Nat) (f : SubGroup → SubGroup) : (s.updSub gid w u f).bias = s.bias := rfl
@[simp] theorem State.updSub_flips (s : State) (gid w u : Nat) (f : SubGroup → SubGroup) : (s.updSub gid w u f).flips = s.flips := rfl
@[simp] theorem State.updSub_watches (s : State) (gid w u : Nat) (f : SubGroup → SubGroup) : (s.updSub gid w u f).watches = s.watches := rfl
@[simp] theorem State.updSub_waits (s : State) (gid w u : Nat) (f : SubGroup → SubGroup) : (s.updSub gid w u f).waits = s.waits := rfl
@[simp] theorem State.updSub_tasks (s : State) (gid w u : Nat) (f : SubGroup → SubGroup) : (s.updSub gid w u f).tasks = s.tasks := rfl
@[simp] theorem State.updSub_faults (s : State) (gid w u : Nat) (f : SubGroup → SubGroup) : (s.updSub gid w u f).faults = s.faults := rfl
@[simp] theorem State.updSub_ctxs (s : State) (gid w u : Nat) (f : SubGroup → SubGroup) : (s.updSub gid w u f).ctxs = s.ctxs := rfl
@[simp] theorem State.updSub_slots (s : State) (gid w u : Nat) (f : SubGroup → SubGroup) : (s.updSub gid w u f).slots = s.slots := rfl
@[simp] theorem State.updSub_queues (s : State) (gid w u : Nat) (f : SubGroup → SubGroup) : (s.updSub gid w u f).queues = s.queues := rfl
@[simp] theorem State.updSub_grids (s : State) (gid w u : Nat) (f : SubGroup → SubGroup) : (s.updSub gid w u f).grids = s.grids := rfl
@[simp] theorem State.updSub_jobs (s : State) (gid w u : Nat) (f : SubGroup → SubGroup) : (s.updSub gid w u f).jobs = s.jobs := rfl
@[simp] theorem State.updSub_rotor (s : State) (gid w u : Nat) (f : SubGroup → SubGroup) : (s.updSub gid w u f).rotor = s.rotor := rfl
@[simp] theorem State.updSub_split (s : State) (gid w u : Nat) (f : SubGroup → SubGroup) : (s.updSub gid w u f).split = s.split := rfl
@[simp] theorem State.updSub_edges (s : State) (gid w u : Nat) (f : SubGroup → SubGroup) : (s.updSub gid w u f).edges = s.edges := rfl
@[simp] theorem State.updSub_clocks (s : State) (gid w u : Nat) (f : SubGroup → SubGroup) : (s.updSub gid w u f).clocks = s.clocks := rfl
@[simp] theorem State.updSub_quads (s : State) (gid w u : Nat) (f : SubGroup → SubGroup) : (s.updSub gid w u f).quads = s.quads := rfl
@[simp] theorem State.updSub_peers (s : State) (gid w u : Nat) (f : SubGroup → SubGroup) : (s.updSub gid w u f).peers = s.peers := rfl
@[simp] theorem State.updSub_idents (s : State) (gid w u : Nat) (f : SubGroup → SubGroup) : (s.updSub gid w u f).idents = s.idents := rfl
@[simp] theorem State.updSub_teleq (s : State) (gid w u : Nat) (f : SubGroup → SubGroup) : (s.updSub gid w u f).teleq = s.teleq := rfl
@[simp] theorem State.updSub_errs (s : State) (gid w u : Nat) (f : SubGroup → SubGroup) : (s.updSub gid w u f).errs = s.errs := rfl
@[simp] theorem State.updSub_cur (s : State) (gid w u : Nat) (f : SubGroup → SubGroup) : (s.updSub gid w u f).cur = s.cur := rfl
@[simp] theorem State.updSub_agenda (s : State) (gid w u : Nat) (f : SubGroup → SubGroup) : (s.updSub gid w u f).agenda = s.agenda := rfl
@[simp] theorem State.updSub_out (s : State) (gid w u : Nat) (f : SubGroup → SubGroup) : (s.updSub gid w u f).out = s.out := rfl
@[simp] theorem State.updSub_nextId (s : State) (gid w u : Nat) (f : SubGroup → SubGroup) : (s.updSub gid w u f).nextId = s.nextId := rfl
@[simp] theorem State.updSub_free (s : State) (gid w u : Nat) (f : SubGroup → SubGroup) : (s.updSub gid w u f).free = s.free := rfl

/-! ### setQuad -/

@[simp] theorem State.setQuad_timer (s : State) (q : Nat) (x : Quad) : (s.setQuad q x).timer = s.timer := rfl
@[simp] theorem State.setQuad_mem (s : State) (q : Nat) (x : Quad) : (s.setQuad q x).mem = s.mem := rfl
@[simp] theorem State.setQuad_memPoison (s : State) (q : Nat) (x : Quad) : (s.setQuad q x).memPoison = s.memPoison := rfl
@[simp] theorem State.setQuad_bar (s : State) (q : Nat) (x : Quad) : (s.setQuad q x).bar = s.bar := rfl
@[simp] theorem State.setQuad_bu (s : State) (q : Nat) (x : Quad) : (s.setQuad q x).bu = s.bu := rfl
@[simp] theorem State.setQuad_pw (s : State) (q : Nat) (x : Quad) : (s.setQuad q x).pw = s.pw := rfl
@[simp] theorem State.setQuad_tlb (s : State) (q : Nat) (x : Quad) : (s.setQuad q x).tlb = s.tlb := rfl
@[simp] theorem State.setQuad_walkCache (s : State) (q : Nat) (x : Quad) : (s.setQuad q x).walkCache = s.walkCache := rfl
@[simp] theorem State.setQuad_l1 (s : State) (q : Nat) (x : Quad) : (s.setQuad q x).l1 = s.l1 := rfl
@[simp] theorem State.setQuad_owner (s : State) (q : Nat) (x : Quad) : (s.setQuad q x).owner = s.owner := rfl
@[simp] theorem State.setQuad_dir (s : State) (q : Nat) (x : Quad) : (s.setQuad q x).dir = s.dir := rfl
@[simp] theorem State.setQuad_bridge (s : State) (q : Nat) (x : Quad) : (s.setQuad q x).bridge = s.bridge := rfl
@[simp] theorem State.setQuad_icache (s : State) (q : Nat) (x : Quad) : (s.setQuad q x).icache = s.icache := rfl
@[simp] theorem State.setQuad_ccache (s : State) (q : Nat) (x : Quad) : (s.setQuad q x).ccache = s.ccache := rfl
@[simp] theorem State.setQuad_shapes (s : State) (q : Nat) (x : Quad) : (s.setQuad q x).shapes = s.shapes := rfl
@[simp] theorem State.setQuad_redbuf (s : State) (q : Nat) (x : Quad) : (s.setQuad q x).redbuf = s.redbuf := rfl
@[simp] theorem State.setQuad_bias (s : State) (q : Nat) (x : Quad) : (s.setQuad q x).bias = s.bias := rfl
@[simp] theorem State.setQuad_flips (s : State) (q : Nat) (x : Quad) : (s.setQuad q x).flips = s.flips := rfl
@[simp] theorem State.setQuad_watches (s : State) (q : Nat) (x : Quad) : (s.setQuad q x).watches = s.watches := rfl
@[simp] theorem State.setQuad_waits (s : State) (q : Nat) (x : Quad) : (s.setQuad q x).waits = s.waits := rfl
@[simp] theorem State.setQuad_tasks (s : State) (q : Nat) (x : Quad) : (s.setQuad q x).tasks = s.tasks := rfl
@[simp] theorem State.setQuad_faults (s : State) (q : Nat) (x : Quad) : (s.setQuad q x).faults = s.faults := rfl
@[simp] theorem State.setQuad_ctxs (s : State) (q : Nat) (x : Quad) : (s.setQuad q x).ctxs = s.ctxs := rfl
@[simp] theorem State.setQuad_slots (s : State) (q : Nat) (x : Quad) : (s.setQuad q x).slots = s.slots := rfl
@[simp] theorem State.setQuad_queues (s : State) (q : Nat) (x : Quad) : (s.setQuad q x).queues = s.queues := rfl
@[simp] theorem State.setQuad_grids (s : State) (q : Nat) (x : Quad) : (s.setQuad q x).grids = s.grids := rfl
@[simp] theorem State.setQuad_groups (s : State) (q : Nat) (x : Quad) : (s.setQuad q x).groups = s.groups := rfl
@[simp] theorem State.setQuad_jobs (s : State) (q : Nat) (x : Quad) : (s.setQuad q x).jobs = s.jobs := rfl
@[simp] theorem State.setQuad_rotor (s : State) (q : Nat) (x : Quad) : (s.setQuad q x).rotor = s.rotor := rfl
@[simp] theorem State.setQuad_split (s : State) (q : Nat) (x : Quad) : (s.setQuad q x).split = s.split := rfl
@[simp] theorem State.setQuad_edges (s : State) (q : Nat) (x : Quad) : (s.setQuad q x).edges = s.edges := rfl
@[simp] theorem State.setQuad_clocks (s : State) (q : Nat) (x : Quad) : (s.setQuad q x).clocks = s.clocks := rfl
@[simp] theorem State.setQuad_peers (s : State) (q : Nat) (x : Quad) : (s.setQuad q x).peers = s.peers := rfl
@[simp] theorem State.setQuad_idents (s : State) (q : Nat) (x : Quad) : (s.setQuad q x).idents = s.idents := rfl
@[simp] theorem State.setQuad_teleq (s : State) (q : Nat) (x : Quad) : (s.setQuad q x).teleq = s.teleq := rfl
@[simp] theorem State.setQuad_errs (s : State) (q : Nat) (x : Quad) : (s.setQuad q x).errs = s.errs := rfl
@[simp] theorem State.setQuad_cur (s : State) (q : Nat) (x : Quad) : (s.setQuad q x).cur = s.cur := rfl
@[simp] theorem State.setQuad_agenda (s : State) (q : Nat) (x : Quad) : (s.setQuad q x).agenda = s.agenda := rfl
@[simp] theorem State.setQuad_out (s : State) (q : Nat) (x : Quad) : (s.setQuad q x).out = s.out := rfl
@[simp] theorem State.setQuad_nextId (s : State) (q : Nat) (x : Quad) : (s.setQuad q x).nextId = s.nextId := rfl
@[simp] theorem State.setQuad_free (s : State) (q : Nat) (x : Quad) : (s.setQuad q x).free = s.free := rfl

/-! ### freeQuad -/

@[simp] theorem State.freeQuad_timer (s : State) (gid w : Nat) : (s.freeQuad gid w).timer = s.timer := rfl
@[simp] theorem State.freeQuad_mem (s : State) (gid w : Nat) : (s.freeQuad gid w).mem = s.mem := rfl
@[simp] theorem State.freeQuad_memPoison (s : State) (gid w : Nat) : (s.freeQuad gid w).memPoison = s.memPoison := rfl
@[simp] theorem State.freeQuad_bar (s : State) (gid w : Nat) : (s.freeQuad gid w).bar = s.bar := rfl
@[simp] theorem State.freeQuad_bu (s : State) (gid w : Nat) : (s.freeQuad gid w).bu = s.bu := rfl
@[simp] theorem State.freeQuad_pw (s : State) (gid w : Nat) : (s.freeQuad gid w).pw = s.pw := rfl
@[simp] theorem State.freeQuad_tlb (s : State) (gid w : Nat) : (s.freeQuad gid w).tlb = s.tlb := rfl
@[simp] theorem State.freeQuad_walkCache (s : State) (gid w : Nat) : (s.freeQuad gid w).walkCache = s.walkCache := rfl
@[simp] theorem State.freeQuad_l1 (s : State) (gid w : Nat) : (s.freeQuad gid w).l1 = s.l1 := rfl
@[simp] theorem State.freeQuad_owner (s : State) (gid w : Nat) : (s.freeQuad gid w).owner = s.owner := rfl
@[simp] theorem State.freeQuad_dir (s : State) (gid w : Nat) : (s.freeQuad gid w).dir = s.dir := rfl
@[simp] theorem State.freeQuad_bridge (s : State) (gid w : Nat) : (s.freeQuad gid w).bridge = s.bridge := rfl
@[simp] theorem State.freeQuad_icache (s : State) (gid w : Nat) : (s.freeQuad gid w).icache = s.icache := rfl
@[simp] theorem State.freeQuad_ccache (s : State) (gid w : Nat) : (s.freeQuad gid w).ccache = s.ccache := rfl
@[simp] theorem State.freeQuad_shapes (s : State) (gid w : Nat) : (s.freeQuad gid w).shapes = s.shapes := rfl
@[simp] theorem State.freeQuad_redbuf (s : State) (gid w : Nat) : (s.freeQuad gid w).redbuf = s.redbuf := rfl
@[simp] theorem State.freeQuad_bias (s : State) (gid w : Nat) : (s.freeQuad gid w).bias = s.bias := rfl
@[simp] theorem State.freeQuad_flips (s : State) (gid w : Nat) : (s.freeQuad gid w).flips = s.flips := rfl
@[simp] theorem State.freeQuad_watches (s : State) (gid w : Nat) : (s.freeQuad gid w).watches = s.watches := rfl
@[simp] theorem State.freeQuad_waits (s : State) (gid w : Nat) : (s.freeQuad gid w).waits = s.waits := rfl
@[simp] theorem State.freeQuad_tasks (s : State) (gid w : Nat) : (s.freeQuad gid w).tasks = s.tasks := rfl
@[simp] theorem State.freeQuad_faults (s : State) (gid w : Nat) : (s.freeQuad gid w).faults = s.faults := rfl
@[simp] theorem State.freeQuad_ctxs (s : State) (gid w : Nat) : (s.freeQuad gid w).ctxs = s.ctxs := rfl
@[simp] theorem State.freeQuad_slots (s : State) (gid w : Nat) : (s.freeQuad gid w).slots = s.slots := rfl
@[simp] theorem State.freeQuad_queues (s : State) (gid w : Nat) : (s.freeQuad gid w).queues = s.queues := rfl
@[simp] theorem State.freeQuad_grids (s : State) (gid w : Nat) : (s.freeQuad gid w).grids = s.grids := rfl
@[simp] theorem State.freeQuad_groups (s : State) (gid w : Nat) : (s.freeQuad gid w).groups = s.groups := rfl
@[simp] theorem State.freeQuad_jobs (s : State) (gid w : Nat) : (s.freeQuad gid w).jobs = s.jobs := rfl
@[simp] theorem State.freeQuad_rotor (s : State) (gid w : Nat) : (s.freeQuad gid w).rotor = s.rotor := rfl
@[simp] theorem State.freeQuad_split (s : State) (gid w : Nat) : (s.freeQuad gid w).split = s.split := rfl
@[simp] theorem State.freeQuad_edges (s : State) (gid w : Nat) : (s.freeQuad gid w).edges = s.edges := rfl
@[simp] theorem State.freeQuad_clocks (s : State) (gid w : Nat) : (s.freeQuad gid w).clocks = s.clocks := rfl
@[simp] theorem State.freeQuad_peers (s : State) (gid w : Nat) : (s.freeQuad gid w).peers = s.peers := rfl
@[simp] theorem State.freeQuad_idents (s : State) (gid w : Nat) : (s.freeQuad gid w).idents = s.idents := rfl
@[simp] theorem State.freeQuad_teleq (s : State) (gid w : Nat) : (s.freeQuad gid w).teleq = s.teleq := rfl
@[simp] theorem State.freeQuad_errs (s : State) (gid w : Nat) : (s.freeQuad gid w).errs = s.errs := rfl
@[simp] theorem State.freeQuad_cur (s : State) (gid w : Nat) : (s.freeQuad gid w).cur = s.cur := rfl
@[simp] theorem State.freeQuad_agenda (s : State) (gid w : Nat) : (s.freeQuad gid w).agenda = s.agenda := rfl
@[simp] theorem State.freeQuad_out (s : State) (gid w : Nat) : (s.freeQuad gid w).out = s.out := rfl
@[simp] theorem State.freeQuad_nextId (s : State) (gid w : Nat) : (s.freeQuad gid w).nextId = s.nextId := rfl
@[simp] theorem State.freeQuad_free (s : State) (gid w : Nat) : (s.freeQuad gid w).free = s.free := rfl

/-! ### send -/

@[simp] theorem State.send_timer (s : State) (m : Msg) : (s.send m).timer = s.timer := rfl
@[simp] theorem State.send_mem (s : State) (m : Msg) : (s.send m).mem = s.mem := rfl
@[simp] theorem State.send_memPoison (s : State) (m : Msg) : (s.send m).memPoison = s.memPoison := rfl
@[simp] theorem State.send_bar (s : State) (m : Msg) : (s.send m).bar = s.bar := rfl
@[simp] theorem State.send_bu (s : State) (m : Msg) : (s.send m).bu = s.bu := rfl
@[simp] theorem State.send_pw (s : State) (m : Msg) : (s.send m).pw = s.pw := rfl
@[simp] theorem State.send_tlb (s : State) (m : Msg) : (s.send m).tlb = s.tlb := rfl
@[simp] theorem State.send_walkCache (s : State) (m : Msg) : (s.send m).walkCache = s.walkCache := rfl
@[simp] theorem State.send_l1 (s : State) (m : Msg) : (s.send m).l1 = s.l1 := rfl
@[simp] theorem State.send_owner (s : State) (m : Msg) : (s.send m).owner = s.owner := rfl
@[simp] theorem State.send_dir (s : State) (m : Msg) : (s.send m).dir = s.dir := rfl
@[simp] theorem State.send_bridge (s : State) (m : Msg) : (s.send m).bridge = s.bridge := rfl
@[simp] theorem State.send_icache (s : State) (m : Msg) : (s.send m).icache = s.icache := rfl
@[simp] theorem State.send_ccache (s : State) (m : Msg) : (s.send m).ccache = s.ccache := rfl
@[simp] theorem State.send_shapes (s : State) (m : Msg) : (s.send m).shapes = s.shapes := rfl
@[simp] theorem State.send_redbuf (s : State) (m : Msg) : (s.send m).redbuf = s.redbuf := rfl
@[simp] theorem State.send_bias (s : State) (m : Msg) : (s.send m).bias = s.bias := rfl
@[simp] theorem State.send_flips (s : State) (m : Msg) : (s.send m).flips = s.flips := rfl
@[simp] theorem State.send_watches (s : State) (m : Msg) : (s.send m).watches = s.watches := rfl
@[simp] theorem State.send_waits (s : State) (m : Msg) : (s.send m).waits = s.waits := rfl
@[simp] theorem State.send_tasks (s : State) (m : Msg) : (s.send m).tasks = s.tasks := rfl
@[simp] theorem State.send_faults (s : State) (m : Msg) : (s.send m).faults = s.faults := rfl
@[simp] theorem State.send_ctxs (s : State) (m : Msg) : (s.send m).ctxs = s.ctxs := rfl
@[simp] theorem State.send_slots (s : State) (m : Msg) : (s.send m).slots = s.slots := rfl
@[simp] theorem State.send_queues (s : State) (m : Msg) : (s.send m).queues = s.queues := rfl
@[simp] theorem State.send_grids (s : State) (m : Msg) : (s.send m).grids = s.grids := rfl
@[simp] theorem State.send_groups (s : State) (m : Msg) : (s.send m).groups = s.groups := rfl
@[simp] theorem State.send_jobs (s : State) (m : Msg) : (s.send m).jobs = s.jobs := rfl
@[simp] theorem State.send_rotor (s : State) (m : Msg) : (s.send m).rotor = s.rotor := rfl
@[simp] theorem State.send_split (s : State) (m : Msg) : (s.send m).split = s.split := rfl
@[simp] theorem State.send_edges (s : State) (m : Msg) : (s.send m).edges = s.edges := rfl
@[simp] theorem State.send_clocks (s : State) (m : Msg) : (s.send m).clocks = s.clocks := rfl
@[simp] theorem State.send_quads (s : State) (m : Msg) : (s.send m).quads = s.quads := rfl
@[simp] theorem State.send_peers (s : State) (m : Msg) : (s.send m).peers = s.peers := rfl
@[simp] theorem State.send_idents (s : State) (m : Msg) : (s.send m).idents = s.idents := rfl
@[simp] theorem State.send_teleq (s : State) (m : Msg) : (s.send m).teleq = s.teleq := rfl
@[simp] theorem State.send_errs (s : State) (m : Msg) : (s.send m).errs = s.errs := rfl
@[simp] theorem State.send_cur (s : State) (m : Msg) : (s.send m).cur = s.cur := rfl
@[simp] theorem State.send_agenda (s : State) (m : Msg) : (s.send m).agenda = s.agenda := rfl
@[simp] theorem State.send_nextId (s : State) (m : Msg) : (s.send m).nextId = s.nextId := rfl
@[simp] theorem State.send_free (s : State) (m : Msg) : (s.send m).free = s.free := rfl

/-! ### fresh -/

@[simp] theorem State.fresh_timer (s : State) : (s.fresh).timer = s.timer := rfl
@[simp] theorem State.fresh_mem (s : State) : (s.fresh).mem = s.mem := rfl
@[simp] theorem State.fresh_memPoison (s : State) : (s.fresh).memPoison = s.memPoison := rfl
@[simp] theorem State.fresh_bar (s : State) : (s.fresh).bar = s.bar := rfl
@[simp] theorem State.fresh_bu (s : State) : (s.fresh).bu = s.bu := rfl
@[simp] theorem State.fresh_pw (s : State) : (s.fresh).pw = s.pw := rfl
@[simp] theorem State.fresh_tlb (s : State) : (s.fresh).tlb = s.tlb := rfl
@[simp] theorem State.fresh_walkCache (s : State) : (s.fresh).walkCache = s.walkCache := rfl
@[simp] theorem State.fresh_l1 (s : State) : (s.fresh).l1 = s.l1 := rfl
@[simp] theorem State.fresh_owner (s : State) : (s.fresh).owner = s.owner := rfl
@[simp] theorem State.fresh_dir (s : State) : (s.fresh).dir = s.dir := rfl
@[simp] theorem State.fresh_bridge (s : State) : (s.fresh).bridge = s.bridge := rfl
@[simp] theorem State.fresh_icache (s : State) : (s.fresh).icache = s.icache := rfl
@[simp] theorem State.fresh_ccache (s : State) : (s.fresh).ccache = s.ccache := rfl
@[simp] theorem State.fresh_shapes (s : State) : (s.fresh).shapes = s.shapes := rfl
@[simp] theorem State.fresh_redbuf (s : State) : (s.fresh).redbuf = s.redbuf := rfl
@[simp] theorem State.fresh_bias (s : State) : (s.fresh).bias = s.bias := rfl
@[simp] theorem State.fresh_flips (s : State) : (s.fresh).flips = s.flips := rfl
@[simp] theorem State.fresh_watches (s : State) : (s.fresh).watches = s.watches := rfl
@[simp] theorem State.fresh_waits (s : State) : (s.fresh).waits = s.waits := rfl
@[simp] theorem State.fresh_tasks (s : State) : (s.fresh).tasks = s.tasks := rfl
@[simp] theorem State.fresh_faults (s : State) : (s.fresh).faults = s.faults := rfl
@[simp] theorem State.fresh_ctxs (s : State) : (s.fresh).ctxs = s.ctxs := rfl
@[simp] theorem State.fresh_slots (s : State) : (s.fresh).slots = s.slots := rfl
@[simp] theorem State.fresh_queues (s : State) : (s.fresh).queues = s.queues := rfl
@[simp] theorem State.fresh_grids (s : State) : (s.fresh).grids = s.grids := rfl
@[simp] theorem State.fresh_groups (s : State) : (s.fresh).groups = s.groups := rfl
@[simp] theorem State.fresh_jobs (s : State) : (s.fresh).jobs = s.jobs := rfl
@[simp] theorem State.fresh_rotor (s : State) : (s.fresh).rotor = s.rotor := rfl
@[simp] theorem State.fresh_split (s : State) : (s.fresh).split = s.split := rfl
@[simp] theorem State.fresh_edges (s : State) : (s.fresh).edges = s.edges := rfl
@[simp] theorem State.fresh_clocks (s : State) : (s.fresh).clocks = s.clocks := rfl
@[simp] theorem State.fresh_quads (s : State) : (s.fresh).quads = s.quads := rfl
@[simp] theorem State.fresh_peers (s : State) : (s.fresh).peers = s.peers := rfl
@[simp] theorem State.fresh_idents (s : State) : (s.fresh).idents = s.idents := rfl
@[simp] theorem State.fresh_teleq (s : State) : (s.fresh).teleq = s.teleq := rfl
@[simp] theorem State.fresh_errs (s : State) : (s.fresh).errs = s.errs := rfl
@[simp] theorem State.fresh_cur (s : State) : (s.fresh).cur = s.cur := rfl
@[simp] theorem State.fresh_agenda (s : State) : (s.fresh).agenda = s.agenda := rfl
@[simp] theorem State.fresh_out (s : State) : (s.fresh).out = s.out := rfl
@[simp] theorem State.fresh_free (s : State) : (s.fresh).free = s.free := rfl

/-! ### store -/

@[simp] theorem State.store_timer (s : State) (pa : Nat) (b : List Byte) : (s.store pa b).timer = s.timer := rfl
@[simp] theorem State.store_bar (s : State) (pa : Nat) (b : List Byte) : (s.store pa b).bar = s.bar := rfl
@[simp] theorem State.store_bu (s : State) (pa : Nat) (b : List Byte) : (s.store pa b).bu = s.bu := rfl
@[simp] theorem State.store_pw (s : State) (pa : Nat) (b : List Byte) : (s.store pa b).pw = s.pw := rfl
@[simp] theorem State.store_tlb (s : State) (pa : Nat) (b : List Byte) : (s.store pa b).tlb = s.tlb := rfl
@[simp] theorem State.store_walkCache (s : State) (pa : Nat) (b : List Byte) : (s.store pa b).walkCache = s.walkCache := rfl
@[simp] theorem State.store_l1 (s : State) (pa : Nat) (b : List Byte) : (s.store pa b).l1 = s.l1 := rfl
@[simp] theorem State.store_owner (s : State) (pa : Nat) (b : List Byte) : (s.store pa b).owner = s.owner := rfl
@[simp] theorem State.store_dir (s : State) (pa : Nat) (b : List Byte) : (s.store pa b).dir = s.dir := rfl
@[simp] theorem State.store_bridge (s : State) (pa : Nat) (b : List Byte) : (s.store pa b).bridge = s.bridge := rfl
@[simp] theorem State.store_icache (s : State) (pa : Nat) (b : List Byte) : (s.store pa b).icache = s.icache := rfl
@[simp] theorem State.store_ccache (s : State) (pa : Nat) (b : List Byte) : (s.store pa b).ccache = s.ccache := rfl
@[simp] theorem State.store_shapes (s : State) (pa : Nat) (b : List Byte) : (s.store pa b).shapes = s.shapes := rfl
@[simp] theorem State.store_redbuf (s : State) (pa : Nat) (b : List Byte) : (s.store pa b).redbuf = s.redbuf := rfl
@[simp] theorem State.store_bias (s : State) (pa : Nat) (b : List Byte) : (s.store pa b).bias = s.bias := rfl
@[simp] theorem State.store_flips (s : State) (pa : Nat) (b : List Byte) : (s.store pa b).flips = s.flips := rfl
@[simp] theorem State.store_watches (s : State) (pa : Nat) (b : List Byte) : (s.store pa b).watches = s.watches := rfl
@[simp] theorem State.store_waits (s : State) (pa : Nat) (b : List Byte) : (s.store pa b).waits = s.waits := rfl
@[simp] theorem State.store_tasks (s : State) (pa : Nat) (b : List Byte) : (s.store pa b).tasks = s.tasks := rfl
@[simp] theorem State.store_faults (s : State) (pa : Nat) (b : List Byte) : (s.store pa b).faults = s.faults := rfl
@[simp] theorem State.store_ctxs (s : State) (pa : Nat) (b : List Byte) : (s.store pa b).ctxs = s.ctxs := rfl
@[simp] theorem State.store_slots (s : State) (pa : Nat) (b : List Byte) : (s.store pa b).slots = s.slots := rfl
@[simp] theorem State.store_queues (s : State) (pa : Nat) (b : List Byte) : (s.store pa b).queues = s.queues := rfl
@[simp] theorem State.store_grids (s : State) (pa : Nat) (b : List Byte) : (s.store pa b).grids = s.grids := rfl
@[simp] theorem State.store_groups (s : State) (pa : Nat) (b : List Byte) : (s.store pa b).groups = s.groups := rfl
@[simp] theorem State.store_jobs (s : State) (pa : Nat) (b : List Byte) : (s.store pa b).jobs = s.jobs := rfl
@[simp] theorem State.store_rotor (s : State) (pa : Nat) (b : List Byte) : (s.store pa b).rotor = s.rotor := rfl
@[simp] theorem State.store_split (s : State) (pa : Nat) (b : List Byte) : (s.store pa b).split = s.split := rfl
@[simp] theorem State.store_edges (s : State) (pa : Nat) (b : List Byte) : (s.store pa b).edges = s.edges := rfl
@[simp] theorem State.store_clocks (s : State) (pa : Nat) (b : List Byte) : (s.store pa b).clocks = s.clocks := rfl
@[simp] theorem State.store_quads (s : State) (pa : Nat) (b : List Byte) : (s.store pa b).quads = s.quads := rfl
@[simp] theorem State.store_peers (s : State) (pa : Nat) (b : List Byte) : (s.store pa b).peers = s.peers := rfl
@[simp] theorem State.store_idents (s : State) (pa : Nat) (b : List Byte) : (s.store pa b).idents = s.idents := rfl
@[simp] theorem State.store_teleq (s : State) (pa : Nat) (b : List Byte) : (s.store pa b).teleq = s.teleq := rfl
@[simp] theorem State.store_errs (s : State) (pa : Nat) (b : List Byte) : (s.store pa b).errs = s.errs := rfl
@[simp] theorem State.store_cur (s : State) (pa : Nat) (b : List Byte) : (s.store pa b).cur = s.cur := rfl
@[simp] theorem State.store_agenda (s : State) (pa : Nat) (b : List Byte) : (s.store pa b).agenda = s.agenda := rfl
@[simp] theorem State.store_out (s : State) (pa : Nat) (b : List Byte) : (s.store pa b).out = s.out := rfl
@[simp] theorem State.store_nextId (s : State) (pa : Nat) (b : List Byte) : (s.store pa b).nextId = s.nextId := rfl
@[simp] theorem State.store_free (s : State) (pa : Nat) (b : List Byte) : (s.store pa b).free = s.free := rfl

/-! ### dropL1 -/

@[simp] theorem State.dropL1_timer (s : State) (core : Nat) : (s.dropL1 core).timer = s.timer := rfl
@[simp] theorem State.dropL1_mem (s : State) (core : Nat) : (s.dropL1 core).mem = s.mem := rfl
@[simp] theorem State.dropL1_memPoison (s : State) (core : Nat) : (s.dropL1 core).memPoison = s.memPoison := rfl
@[simp] theorem State.dropL1_bar (s : State) (core : Nat) : (s.dropL1 core).bar = s.bar := rfl
@[simp] theorem State.dropL1_bu (s : State) (core : Nat) : (s.dropL1 core).bu = s.bu := rfl
@[simp] theorem State.dropL1_pw (s : State) (core : Nat) : (s.dropL1 core).pw = s.pw := rfl
@[simp] theorem State.dropL1_tlb (s : State) (core : Nat) : (s.dropL1 core).tlb = s.tlb := rfl
@[simp] theorem State.dropL1_walkCache (s : State) (core : Nat) : (s.dropL1 core).walkCache = s.walkCache := rfl
@[simp] theorem State.dropL1_owner (s : State) (core : Nat) : (s.dropL1 core).owner = s.owner := rfl
@[simp] theorem State.dropL1_dir (s : State) (core : Nat) : (s.dropL1 core).dir = s.dir := rfl
@[simp] theorem State.dropL1_bridge (s : State) (core : Nat) : (s.dropL1 core).bridge = s.bridge := rfl
@[simp] theorem State.dropL1_icache (s : State) (core : Nat) : (s.dropL1 core).icache = s.icache := rfl
@[simp] theorem State.dropL1_ccache (s : State) (core : Nat) : (s.dropL1 core).ccache = s.ccache := rfl
@[simp] theorem State.dropL1_shapes (s : State) (core : Nat) : (s.dropL1 core).shapes = s.shapes := rfl
@[simp] theorem State.dropL1_redbuf (s : State) (core : Nat) : (s.dropL1 core).redbuf = s.redbuf := rfl
@[simp] theorem State.dropL1_bias (s : State) (core : Nat) : (s.dropL1 core).bias = s.bias := rfl
@[simp] theorem State.dropL1_flips (s : State) (core : Nat) : (s.dropL1 core).flips = s.flips := rfl
@[simp] theorem State.dropL1_watches (s : State) (core : Nat) : (s.dropL1 core).watches = s.watches := rfl
@[simp] theorem State.dropL1_waits (s : State) (core : Nat) : (s.dropL1 core).waits = s.waits := rfl
@[simp] theorem State.dropL1_tasks (s : State) (core : Nat) : (s.dropL1 core).tasks = s.tasks := rfl
@[simp] theorem State.dropL1_faults (s : State) (core : Nat) : (s.dropL1 core).faults = s.faults := rfl
@[simp] theorem State.dropL1_ctxs (s : State) (core : Nat) : (s.dropL1 core).ctxs = s.ctxs := rfl
@[simp] theorem State.dropL1_slots (s : State) (core : Nat) : (s.dropL1 core).slots = s.slots := rfl
@[simp] theorem State.dropL1_queues (s : State) (core : Nat) : (s.dropL1 core).queues = s.queues := rfl
@[simp] theorem State.dropL1_grids (s : State) (core : Nat) : (s.dropL1 core).grids = s.grids := rfl
@[simp] theorem State.dropL1_groups (s : State) (core : Nat) : (s.dropL1 core).groups = s.groups := rfl
@[simp] theorem State.dropL1_jobs (s : State) (core : Nat) : (s.dropL1 core).jobs = s.jobs := rfl
@[simp] theorem State.dropL1_rotor (s : State) (core : Nat) : (s.dropL1 core).rotor = s.rotor := rfl
@[simp] theorem State.dropL1_split (s : State) (core : Nat) : (s.dropL1 core).split = s.split := rfl
@[simp] theorem State.dropL1_edges (s : State) (core : Nat) : (s.dropL1 core).edges = s.edges := rfl
@[simp] theorem State.dropL1_clocks (s : State) (core : Nat) : (s.dropL1 core).clocks = s.clocks := rfl
@[simp] theorem State.dropL1_quads (s : State) (core : Nat) : (s.dropL1 core).quads = s.quads := rfl
@[simp] theorem State.dropL1_peers (s : State) (core : Nat) : (s.dropL1 core).peers = s.peers := rfl
@[simp] theorem State.dropL1_idents (s : State) (core : Nat) : (s.dropL1 core).idents = s.idents := rfl
@[simp] theorem State.dropL1_teleq (s : State) (core : Nat) : (s.dropL1 core).teleq = s.teleq := rfl
@[simp] theorem State.dropL1_errs (s : State) (core : Nat) : (s.dropL1 core).errs = s.errs := rfl
@[simp] theorem State.dropL1_cur (s : State) (core : Nat) : (s.dropL1 core).cur = s.cur := rfl
@[simp] theorem State.dropL1_agenda (s : State) (core : Nat) : (s.dropL1 core).agenda = s.agenda := rfl
@[simp] theorem State.dropL1_out (s : State) (core : Nat) : (s.dropL1 core).out = s.out := rfl
@[simp] theorem State.dropL1_nextId (s : State) (core : Nat) : (s.dropL1 core).nextId = s.nextId := rfl
@[simp] theorem State.dropL1_free (s : State) (core : Nat) : (s.dropL1 core).free = s.free := rfl

/-! ### updGrid -/

@[simp] theorem State.updGrid_timer (s : State) (id : Nat) (f : Grid → Grid) : (s.updGrid id f).timer = s.timer := rfl
@[simp] theorem State.updGrid_mem (s : State) (id : Nat) (f : Grid → Grid) : (s.updGrid id f).mem = s.mem := rfl
@[simp] theorem State.updGrid_memPoison (s : State) (id : Nat) (f : Grid → Grid) : (s.updGrid id f).memPoison = s.memPoison := rfl
@[simp] theorem State.updGrid_bar (s : State) (id : Nat) (f : Grid → Grid) : (s.updGrid id f).bar = s.bar := rfl
@[simp] theorem State.updGrid_bu (s : State) (id : Nat) (f : Grid → Grid) : (s.updGrid id f).bu = s.bu := rfl
@[simp] theorem State.updGrid_pw (s : State) (id : Nat) (f : Grid → Grid) : (s.updGrid id f).pw = s.pw := rfl
@[simp] theorem State.updGrid_tlb (s : State) (id : Nat) (f : Grid → Grid) : (s.updGrid id f).tlb = s.tlb := rfl
@[simp] theorem State.updGrid_walkCache (s : State) (id : Nat) (f : Grid → Grid) : (s.updGrid id f).walkCache = s.walkCache := rfl
@[simp] theorem State.updGrid_l1 (s : State) (id : Nat) (f : Grid → Grid) : (s.updGrid id f).l1 = s.l1 := rfl
@[simp] theorem State.updGrid_owner (s : State) (id : Nat) (f : Grid → Grid) : (s.updGrid id f).owner = s.owner := rfl
@[simp] theorem State.updGrid_dir (s : State) (id : Nat) (f : Grid → Grid) : (s.updGrid id f).dir = s.dir := rfl
@[simp] theorem State.updGrid_bridge (s : State) (id : Nat) (f : Grid → Grid) : (s.updGrid id f).bridge = s.bridge := rfl
@[simp] theorem State.updGrid_icache (s : State) (id : Nat) (f : Grid → Grid) : (s.updGrid id f).icache = s.icache := rfl
@[simp] theorem State.updGrid_ccache (s : State) (id : Nat) (f : Grid → Grid) : (s.updGrid id f).ccache = s.ccache := rfl
@[simp] theorem State.updGrid_shapes (s : State) (id : Nat) (f : Grid → Grid) : (s.updGrid id f).shapes = s.shapes := rfl
@[simp] theorem State.updGrid_redbuf (s : State) (id : Nat) (f : Grid → Grid) : (s.updGrid id f).redbuf = s.redbuf := rfl
@[simp] theorem State.updGrid_bias (s : State) (id : Nat) (f : Grid → Grid) : (s.updGrid id f).bias = s.bias := rfl
@[simp] theorem State.updGrid_flips (s : State) (id : Nat) (f : Grid → Grid) : (s.updGrid id f).flips = s.flips := rfl
@[simp] theorem State.updGrid_watches (s : State) (id : Nat) (f : Grid → Grid) : (s.updGrid id f).watches = s.watches := rfl
@[simp] theorem State.updGrid_waits (s : State) (id : Nat) (f : Grid → Grid) : (s.updGrid id f).waits = s.waits := rfl
@[simp] theorem State.updGrid_tasks (s : State) (id : Nat) (f : Grid → Grid) : (s.updGrid id f).tasks = s.tasks := rfl
@[simp] theorem State.updGrid_faults (s : State) (id : Nat) (f : Grid → Grid) : (s.updGrid id f).faults = s.faults := rfl
@[simp] theorem State.updGrid_ctxs (s : State) (id : Nat) (f : Grid → Grid) : (s.updGrid id f).ctxs = s.ctxs := rfl
@[simp] theorem State.updGrid_slots (s : State) (id : Nat) (f : Grid → Grid) : (s.updGrid id f).slots = s.slots := rfl
@[simp] theorem State.updGrid_queues (s : State) (id : Nat) (f : Grid → Grid) : (s.updGrid id f).queues = s.queues := rfl
@[simp] theorem State.updGrid_groups (s : State) (id : Nat) (f : Grid → Grid) : (s.updGrid id f).groups = s.groups := rfl
@[simp] theorem State.updGrid_jobs (s : State) (id : Nat) (f : Grid → Grid) : (s.updGrid id f).jobs = s.jobs := rfl
@[simp] theorem State.updGrid_rotor (s : State) (id : Nat) (f : Grid → Grid) : (s.updGrid id f).rotor = s.rotor := rfl
@[simp] theorem State.updGrid_split (s : State) (id : Nat) (f : Grid → Grid) : (s.updGrid id f).split = s.split := rfl
@[simp] theorem State.updGrid_edges (s : State) (id : Nat) (f : Grid → Grid) : (s.updGrid id f).edges = s.edges := rfl
@[simp] theorem State.updGrid_clocks (s : State) (id : Nat) (f : Grid → Grid) : (s.updGrid id f).clocks = s.clocks := rfl
@[simp] theorem State.updGrid_quads (s : State) (id : Nat) (f : Grid → Grid) : (s.updGrid id f).quads = s.quads := rfl
@[simp] theorem State.updGrid_peers (s : State) (id : Nat) (f : Grid → Grid) : (s.updGrid id f).peers = s.peers := rfl
@[simp] theorem State.updGrid_idents (s : State) (id : Nat) (f : Grid → Grid) : (s.updGrid id f).idents = s.idents := rfl
@[simp] theorem State.updGrid_teleq (s : State) (id : Nat) (f : Grid → Grid) : (s.updGrid id f).teleq = s.teleq := rfl
@[simp] theorem State.updGrid_errs (s : State) (id : Nat) (f : Grid → Grid) : (s.updGrid id f).errs = s.errs := rfl
@[simp] theorem State.updGrid_cur (s : State) (id : Nat) (f : Grid → Grid) : (s.updGrid id f).cur = s.cur := rfl
@[simp] theorem State.updGrid_agenda (s : State) (id : Nat) (f : Grid → Grid) : (s.updGrid id f).agenda = s.agenda := rfl
@[simp] theorem State.updGrid_out (s : State) (id : Nat) (f : Grid → Grid) : (s.updGrid id f).out = s.out := rfl
@[simp] theorem State.updGrid_nextId (s : State) (id : Nat) (f : Grid → Grid) : (s.updGrid id f).nextId = s.nextId := rfl
@[simp] theorem State.updGrid_free (s : State) (id : Nat) (f : Grid → Grid) : (s.updGrid id f).free = s.free := rfl

/-! ### updJob -/

@[simp] theorem State.updJob_timer (s : State) (id : Nat) (f : Job → Job) : (s.updJob id f).timer = s.timer := rfl
@[simp] theorem State.updJob_mem (s : State) (id : Nat) (f : Job → Job) : (s.updJob id f).mem = s.mem := rfl
@[simp] theorem State.updJob_memPoison (s : State) (id : Nat) (f : Job → Job) : (s.updJob id f).memPoison = s.memPoison := rfl
@[simp] theorem State.updJob_bar (s : State) (id : Nat) (f : Job → Job) : (s.updJob id f).bar = s.bar := rfl
@[simp] theorem State.updJob_bu (s : State) (id : Nat) (f : Job → Job) : (s.updJob id f).bu = s.bu := rfl
@[simp] theorem State.updJob_pw (s : State) (id : Nat) (f : Job → Job) : (s.updJob id f).pw = s.pw := rfl
@[simp] theorem State.updJob_tlb (s : State) (id : Nat) (f : Job → Job) : (s.updJob id f).tlb = s.tlb := rfl
@[simp] theorem State.updJob_walkCache (s : State) (id : Nat) (f : Job → Job) : (s.updJob id f).walkCache = s.walkCache := rfl
@[simp] theorem State.updJob_l1 (s : State) (id : Nat) (f : Job → Job) : (s.updJob id f).l1 = s.l1 := rfl
@[simp] theorem State.updJob_owner (s : State) (id : Nat) (f : Job → Job) : (s.updJob id f).owner = s.owner := rfl
@[simp] theorem State.updJob_dir (s : State) (id : Nat) (f : Job → Job) : (s.updJob id f).dir = s.dir := rfl
@[simp] theorem State.updJob_bridge (s : State) (id : Nat) (f : Job → Job) : (s.updJob id f).bridge = s.bridge := rfl
@[simp] theorem State.updJob_icache (s : State) (id : Nat) (f : Job → Job) : (s.updJob id f).icache = s.icache := rfl
@[simp] theorem State.updJob_ccache (s : State) (id : Nat) (f : Job → Job) : (s.updJob id f).ccache = s.ccache := rfl
@[simp] theorem State.updJob_shapes (s : State) (id : Nat) (f : Job → Job) : (s.updJob id f).shapes = s.shapes := rfl
@[simp] theorem State.updJob_redbuf (s : State) (id : Nat) (f : Job → Job) : (s.updJob id f).redbuf = s.redbuf := rfl
@[simp] theorem State.updJob_bias (s : State) (id : Nat) (f : Job → Job) : (s.updJob id f).bias = s.bias := rfl
@[simp] theorem State.updJob_flips (s : State) (id : Nat) (f : Job → Job) : (s.updJob id f).flips = s.flips := rfl
@[simp] theorem State.updJob_watches (s : State) (id : Nat) (f : Job → Job) : (s.updJob id f).watches = s.watches := rfl
@[simp] theorem State.updJob_waits (s : State) (id : Nat) (f : Job → Job) : (s.updJob id f).waits = s.waits := rfl
@[simp] theorem State.updJob_tasks (s : State) (id : Nat) (f : Job → Job) : (s.updJob id f).tasks = s.tasks := rfl
@[simp] theorem State.updJob_faults (s : State) (id : Nat) (f : Job → Job) : (s.updJob id f).faults = s.faults := rfl
@[simp] theorem State.updJob_ctxs (s : State) (id : Nat) (f : Job → Job) : (s.updJob id f).ctxs = s.ctxs := rfl
@[simp] theorem State.updJob_slots (s : State) (id : Nat) (f : Job → Job) : (s.updJob id f).slots = s.slots := rfl
@[simp] theorem State.updJob_queues (s : State) (id : Nat) (f : Job → Job) : (s.updJob id f).queues = s.queues := rfl
@[simp] theorem State.updJob_grids (s : State) (id : Nat) (f : Job → Job) : (s.updJob id f).grids = s.grids := rfl
@[simp] theorem State.updJob_groups (s : State) (id : Nat) (f : Job → Job) : (s.updJob id f).groups = s.groups := rfl
@[simp] theorem State.updJob_rotor (s : State) (id : Nat) (f : Job → Job) : (s.updJob id f).rotor = s.rotor := rfl
@[simp] theorem State.updJob_split (s : State) (id : Nat) (f : Job → Job) : (s.updJob id f).split = s.split := rfl
@[simp] theorem State.updJob_edges (s : State) (id : Nat) (f : Job → Job) : (s.updJob id f).edges = s.edges := rfl
@[simp] theorem State.updJob_clocks (s : State) (id : Nat) (f : Job → Job) : (s.updJob id f).clocks = s.clocks := rfl
@[simp] theorem State.updJob_quads (s : State) (id : Nat) (f : Job → Job) : (s.updJob id f).quads = s.quads := rfl
@[simp] theorem State.updJob_peers (s : State) (id : Nat) (f : Job → Job) : (s.updJob id f).peers = s.peers := rfl
@[simp] theorem State.updJob_idents (s : State) (id : Nat) (f : Job → Job) : (s.updJob id f).idents = s.idents := rfl
@[simp] theorem State.updJob_teleq (s : State) (id : Nat) (f : Job → Job) : (s.updJob id f).teleq = s.teleq := rfl
@[simp] theorem State.updJob_errs (s : State) (id : Nat) (f : Job → Job) : (s.updJob id f).errs = s.errs := rfl
@[simp] theorem State.updJob_cur (s : State) (id : Nat) (f : Job → Job) : (s.updJob id f).cur = s.cur := rfl
@[simp] theorem State.updJob_agenda (s : State) (id : Nat) (f : Job → Job) : (s.updJob id f).agenda = s.agenda := rfl
@[simp] theorem State.updJob_out (s : State) (id : Nat) (f : Job → Job) : (s.updJob id f).out = s.out := rfl
@[simp] theorem State.updJob_nextId (s : State) (id : Nat) (f : Job → Job) : (s.updJob id f).nextId = s.nextId := rfl
@[simp] theorem State.updJob_free (s : State) (id : Nat) (f : Job → Job) : (s.updJob id f).free = s.free := rfl

/-! ### A warp: updSub -/

@[simp] theorem Warp.updSub_idx (w : Warp) (id : Nat) (f : SubGroup → SubGroup) : (w.updSub id f).idx = w.idx := rfl
@[simp] theorem Warp.updSub_role (w : Warp) (id : Nat) (f : SubGroup → SubGroup) : (w.updSub id f).role = w.role := rfl
@[simp] theorem Warp.updSub_slot (w : Warp) (id : Nat) (f : SubGroup → SubGroup) : (w.updSub id f).slot = w.slot := rfl
@[simp] theorem Warp.updSub_av (w : Warp) (id : Nat) (f : SubGroup → SubGroup) : (w.updSub id f).av = w.av := rfl
@[simp] theorem Warp.updSub_as (w : Warp) (id : Nat) (f : SubGroup → SubGroup) : (w.updSub id f).as = w.as := rfl
@[simp] theorem Warp.updSub_vregs (w : Warp) (id : Nat) (f : SubGroup → SubGroup) : (w.updSub id f).vregs = w.vregs := rfl
@[simp] theorem Warp.updSub_sregs (w : Warp) (id : Nat) (f : SubGroup → SubGroup) : (w.updSub id f).sregs = w.sregs := rfl
@[simp] theorem Warp.updSub_preds (w : Warp) (id : Nat) (f : SubGroup → SubGroup) : (w.updSub id f).preds = w.preds := rfl
@[simp] theorem Warp.updSub_joins (w : Warp) (id : Nat) (f : SubGroup → SubGroup) : (w.updSub id f).joins = w.joins := rfl
@[simp] theorem Warp.updSub_active (w : Warp) (id : Nat) (f : SubGroup → SubGroup) : (w.updSub id f).active = w.active := rfl
@[simp] theorem Warp.updSub_runs (w : Warp) (id : Nat) (f : SubGroup → SubGroup) : (w.updSub id f).runs = w.runs := rfl
@[simp] theorem Warp.updSub_live (w : Warp) (id : Nat) (f : SubGroup → SubGroup) : (w.updSub id f).live = w.live := rfl
@[simp] theorem Warp.updSub_fpmode (w : Warp) (id : Nat) (f : SubGroup → SubGroup) : (w.updSub id f).fpmode = w.fpmode := rfl
@[simp] theorem Warp.updSub_fpflags (w : Warp) (id : Nat) (f : SubGroup → SubGroup) : (w.updSub id f).fpflags = w.fpflags := rfl
@[simp] theorem Warp.updSub_tvec (w : Warp) (id : Nat) (f : SubGroup → SubGroup) : (w.updSub id f).tvec = w.tvec := rfl
@[simp] theorem Warp.updSub_tcause (w : Warp) (id : Nat) (f : SubGroup → SubGroup) : (w.updSub id f).tcause = w.tcause := rfl
@[simp] theorem Warp.updSub_inh (w : Warp) (id : Nat) (f : SubGroup → SubGroup) : (w.updSub id f).inh = w.inh := rfl
@[simp] theorem Warp.updSub_tpc (w : Warp) (id : Nat) (f : SubGroup → SubGroup) : (w.updSub id f).tpc = w.tpc := rfl
@[simp] theorem Warp.updSub_tinst (w : Warp) (id : Nat) (f : SubGroup → SubGroup) : (w.updSub id f).tinst = w.tinst := rfl
@[simp] theorem Warp.updSub_tmask (w : Warp) (id : Nat) (f : SubGroup → SubGroup) : (w.updSub id f).tmask = w.tmask := rfl
@[simp] theorem Warp.updSub_tval (w : Warp) (id : Nat) (f : SubGroup → SubGroup) : (w.updSub id f).tval = w.tval := rfl
@[simp] theorem Warp.updSub_resume (w : Warp) (id : Nat) (f : SubGroup → SubGroup) : (w.updSub id f).resume = w.resume := rfl
@[simp] theorem Warp.updSub_pkr (w : Warp) (id : Nat) (f : SubGroup → SubGroup) : (w.updSub id f).pkr = w.pkr := rfl
@[simp] theorem Warp.updSub_locks (w : Warp) (id : Nat) (f : SubGroup → SubGroup) : (w.updSub id f).locks = w.locks := rfl
@[simp] theorem Warp.updSub_inRie (w : Warp) (id : Nat) (f : SubGroup → SubGroup) : (w.updSub id f).inRie = w.inRie := rfl
@[simp] theorem Warp.updSub_rieCause (w : Warp) (id : Nat) (f : SubGroup → SubGroup) : (w.updSub id f).rieCause = w.rieCause := rfl
@[simp] theorem Warp.updSub_rieEnd (w : Warp) (id : Nat) (f : SubGroup → SubGroup) : (w.updSub id f).rieEnd = w.rieEnd := rfl
@[simp] theorem Warp.updSub_outst (w : Warp) (id : Nat) (f : SubGroup → SubGroup) : (w.updSub id f).outst = w.outst := rfl
@[simp] theorem Warp.updSub_tokens (w : Warp) (id : Nat) (f : SubGroup → SubGroup) : (w.updSub id f).tokens = w.tokens := rfl
@[simp] theorem Warp.updSub_acq (w : Warp) (id : Nat) (f : SubGroup → SubGroup) : (w.updSub id f).acq = w.acq := rfl
@[simp] theorem Warp.updSub_spec (w : Warp) (id : Nat) (f : SubGroup → SubGroup) : (w.updSub id f).spec = w.spec := rfl
@[simp] theorem Warp.updSub_priv (w : Warp) (id : Nat) (f : SubGroup → SubGroup) : (w.updSub id f).priv = w.priv := rfl
@[simp] theorem Warp.updSub_privPoison (w : Warp) (id : Nat) (f : SubGroup → SubGroup) : (w.updSub id f).privPoison = w.privPoison := rfl
@[simp] theorem Warp.updSub_perf (w : Warp) (id : Nat) (f : SubGroup → SubGroup) : (w.updSub id f).perf = w.perf := rfl
@[simp] theorem Warp.updSub_stopped (w : Warp) (id : Nat) (f : SubGroup → SubGroup) : (w.updSub id f).stopped = w.stopped := rfl
@[simp] theorem Warp.updSub_acc (w : Warp) (id : Nat) (f : SubGroup → SubGroup) : (w.updSub id f).acc = w.acc := rfl
@[simp] theorem Warp.updSub_accTiles (w : Warp) (id : Nat) (f : SubGroup → SubGroup) : (w.updSub id f).accTiles = w.accTiles := rfl
@[simp] theorem Warp.updSub_accFlags (w : Warp) (id : Nat) (f : SubGroup → SubGroup) : (w.updSub id f).accFlags = w.accFlags := rfl
@[simp] theorem Warp.updSub_exited (w : Warp) (id : Nat) (f : SubGroup → SubGroup) : (w.updSub id f).exited = w.exited := rfl
@[simp] theorem Warp.updSub_readyAt (w : Warp) (id : Nat) (f : SubGroup → SubGroup) : (w.updSub id f).readyAt = w.readyAt := rfl
@[simp] theorem Warp.updSub_lockWin (w : Warp) (id : Nat) (f : SubGroup → SubGroup) : (w.updSub id f).lockWin = w.lockWin := rfl

/-! ### A warp: count -/

@[simp] theorem Warp.count_idx (w : Warp) (n k : Nat) : (w.count n k).idx = w.idx := rfl
@[simp] theorem Warp.count_role (w : Warp) (n k : Nat) : (w.count n k).role = w.role := rfl
@[simp] theorem Warp.count_slot (w : Warp) (n k : Nat) : (w.count n k).slot = w.slot := rfl
@[simp] theorem Warp.count_av (w : Warp) (n k : Nat) : (w.count n k).av = w.av := rfl
@[simp] theorem Warp.count_as (w : Warp) (n k : Nat) : (w.count n k).as = w.as := rfl
@[simp] theorem Warp.count_vregs (w : Warp) (n k : Nat) : (w.count n k).vregs = w.vregs := rfl
@[simp] theorem Warp.count_sregs (w : Warp) (n k : Nat) : (w.count n k).sregs = w.sregs := rfl
@[simp] theorem Warp.count_preds (w : Warp) (n k : Nat) : (w.count n k).preds = w.preds := rfl
@[simp] theorem Warp.count_joins (w : Warp) (n k : Nat) : (w.count n k).joins = w.joins := rfl
@[simp] theorem Warp.count_subs (w : Warp) (n k : Nat) : (w.count n k).subs = w.subs := rfl
@[simp] theorem Warp.count_active (w : Warp) (n k : Nat) : (w.count n k).active = w.active := rfl
@[simp] theorem Warp.count_runs (w : Warp) (n k : Nat) : (w.count n k).runs = w.runs := rfl
@[simp] theorem Warp.count_live (w : Warp) (n k : Nat) : (w.count n k).live = w.live := rfl
@[simp] theorem Warp.count_fpmode (w : Warp) (n k : Nat) : (w.count n k).fpmode = w.fpmode := rfl
@[simp] theorem Warp.count_fpflags (w : Warp) (n k : Nat) : (w.count n k).fpflags = w.fpflags := rfl
@[simp] theorem Warp.count_tvec (w : Warp) (n k : Nat) : (w.count n k).tvec = w.tvec := rfl
@[simp] theorem Warp.count_tcause (w : Warp) (n k : Nat) : (w.count n k).tcause = w.tcause := rfl
@[simp] theorem Warp.count_inh (w : Warp) (n k : Nat) : (w.count n k).inh = w.inh := rfl
@[simp] theorem Warp.count_tpc (w : Warp) (n k : Nat) : (w.count n k).tpc = w.tpc := rfl
@[simp] theorem Warp.count_tinst (w : Warp) (n k : Nat) : (w.count n k).tinst = w.tinst := rfl
@[simp] theorem Warp.count_tmask (w : Warp) (n k : Nat) : (w.count n k).tmask = w.tmask := rfl
@[simp] theorem Warp.count_tval (w : Warp) (n k : Nat) : (w.count n k).tval = w.tval := rfl
@[simp] theorem Warp.count_resume (w : Warp) (n k : Nat) : (w.count n k).resume = w.resume := rfl
@[simp] theorem Warp.count_pkr (w : Warp) (n k : Nat) : (w.count n k).pkr = w.pkr := rfl
@[simp] theorem Warp.count_locks (w : Warp) (n k : Nat) : (w.count n k).locks = w.locks := rfl
@[simp] theorem Warp.count_inRie (w : Warp) (n k : Nat) : (w.count n k).inRie = w.inRie := rfl
@[simp] theorem Warp.count_rieCause (w : Warp) (n k : Nat) : (w.count n k).rieCause = w.rieCause := rfl
@[simp] theorem Warp.count_rieEnd (w : Warp) (n k : Nat) : (w.count n k).rieEnd = w.rieEnd := rfl
@[simp] theorem Warp.count_outst (w : Warp) (n k : Nat) : (w.count n k).outst = w.outst := rfl
@[simp] theorem Warp.count_tokens (w : Warp) (n k : Nat) : (w.count n k).tokens = w.tokens := rfl
@[simp] theorem Warp.count_acq (w : Warp) (n k : Nat) : (w.count n k).acq = w.acq := rfl
@[simp] theorem Warp.count_spec (w : Warp) (n k : Nat) : (w.count n k).spec = w.spec := rfl
@[simp] theorem Warp.count_priv (w : Warp) (n k : Nat) : (w.count n k).priv = w.priv := rfl
@[simp] theorem Warp.count_privPoison (w : Warp) (n k : Nat) : (w.count n k).privPoison = w.privPoison := rfl
@[simp] theorem Warp.count_stopped (w : Warp) (n k : Nat) : (w.count n k).stopped = w.stopped := rfl
@[simp] theorem Warp.count_acc (w : Warp) (n k : Nat) : (w.count n k).acc = w.acc := rfl
@[simp] theorem Warp.count_accTiles (w : Warp) (n k : Nat) : (w.count n k).accTiles = w.accTiles := rfl
@[simp] theorem Warp.count_accFlags (w : Warp) (n k : Nat) : (w.count n k).accFlags = w.accFlags := rfl
@[simp] theorem Warp.count_exited (w : Warp) (n k : Nat) : (w.count n k).exited = w.exited := rfl
@[simp] theorem Warp.count_readyAt (w : Warp) (n k : Nat) : (w.count n k).readyAt = w.readyAt := rfl
@[simp] theorem Warp.count_lockWin (w : Warp) (n k : Nat) : (w.count n k).lockWin = w.lockWin := rfl

/-! ### A warp: writeS -/

@[simp] theorem Warp.writeS_idx (w : Warp) (n : Nat) (v : Word) : (w.writeS n v).idx = w.idx := rfl
@[simp] theorem Warp.writeS_role (w : Warp) (n : Nat) (v : Word) : (w.writeS n v).role = w.role := rfl
@[simp] theorem Warp.writeS_slot (w : Warp) (n : Nat) (v : Word) : (w.writeS n v).slot = w.slot := rfl
@[simp] theorem Warp.writeS_av (w : Warp) (n : Nat) (v : Word) : (w.writeS n v).av = w.av := rfl
@[simp] theorem Warp.writeS_as (w : Warp) (n : Nat) (v : Word) : (w.writeS n v).as = w.as := rfl
@[simp] theorem Warp.writeS_vregs (w : Warp) (n : Nat) (v : Word) : (w.writeS n v).vregs = w.vregs := rfl
@[simp] theorem Warp.writeS_preds (w : Warp) (n : Nat) (v : Word) : (w.writeS n v).preds = w.preds := rfl
@[simp] theorem Warp.writeS_joins (w : Warp) (n : Nat) (v : Word) : (w.writeS n v).joins = w.joins := rfl
@[simp] theorem Warp.writeS_subs (w : Warp) (n : Nat) (v : Word) : (w.writeS n v).subs = w.subs := rfl
@[simp] theorem Warp.writeS_active (w : Warp) (n : Nat) (v : Word) : (w.writeS n v).active = w.active := rfl
@[simp] theorem Warp.writeS_runs (w : Warp) (n : Nat) (v : Word) : (w.writeS n v).runs = w.runs := rfl
@[simp] theorem Warp.writeS_live (w : Warp) (n : Nat) (v : Word) : (w.writeS n v).live = w.live := rfl
@[simp] theorem Warp.writeS_fpmode (w : Warp) (n : Nat) (v : Word) : (w.writeS n v).fpmode = w.fpmode := rfl
@[simp] theorem Warp.writeS_fpflags (w : Warp) (n : Nat) (v : Word) : (w.writeS n v).fpflags = w.fpflags := rfl
@[simp] theorem Warp.writeS_tvec (w : Warp) (n : Nat) (v : Word) : (w.writeS n v).tvec = w.tvec := rfl
@[simp] theorem Warp.writeS_tcause (w : Warp) (n : Nat) (v : Word) : (w.writeS n v).tcause = w.tcause := rfl
@[simp] theorem Warp.writeS_inh (w : Warp) (n : Nat) (v : Word) : (w.writeS n v).inh = w.inh := rfl
@[simp] theorem Warp.writeS_tpc (w : Warp) (n : Nat) (v : Word) : (w.writeS n v).tpc = w.tpc := rfl
@[simp] theorem Warp.writeS_tinst (w : Warp) (n : Nat) (v : Word) : (w.writeS n v).tinst = w.tinst := rfl
@[simp] theorem Warp.writeS_tmask (w : Warp) (n : Nat) (v : Word) : (w.writeS n v).tmask = w.tmask := rfl
@[simp] theorem Warp.writeS_tval (w : Warp) (n : Nat) (v : Word) : (w.writeS n v).tval = w.tval := rfl
@[simp] theorem Warp.writeS_resume (w : Warp) (n : Nat) (v : Word) : (w.writeS n v).resume = w.resume := rfl
@[simp] theorem Warp.writeS_pkr (w : Warp) (n : Nat) (v : Word) : (w.writeS n v).pkr = w.pkr := rfl
@[simp] theorem Warp.writeS_locks (w : Warp) (n : Nat) (v : Word) : (w.writeS n v).locks = w.locks := rfl
@[simp] theorem Warp.writeS_inRie (w : Warp) (n : Nat) (v : Word) : (w.writeS n v).inRie = w.inRie := rfl
@[simp] theorem Warp.writeS_rieCause (w : Warp) (n : Nat) (v : Word) : (w.writeS n v).rieCause = w.rieCause := rfl
@[simp] theorem Warp.writeS_rieEnd (w : Warp) (n : Nat) (v : Word) : (w.writeS n v).rieEnd = w.rieEnd := rfl
@[simp] theorem Warp.writeS_outst (w : Warp) (n : Nat) (v : Word) : (w.writeS n v).outst = w.outst := rfl
@[simp] theorem Warp.writeS_acq (w : Warp) (n : Nat) (v : Word) : (w.writeS n v).acq = w.acq := rfl
@[simp] theorem Warp.writeS_spec (w : Warp) (n : Nat) (v : Word) : (w.writeS n v).spec = w.spec := rfl
@[simp] theorem Warp.writeS_priv (w : Warp) (n : Nat) (v : Word) : (w.writeS n v).priv = w.priv := rfl
@[simp] theorem Warp.writeS_privPoison (w : Warp) (n : Nat) (v : Word) : (w.writeS n v).privPoison = w.privPoison := rfl
@[simp] theorem Warp.writeS_perf (w : Warp) (n : Nat) (v : Word) : (w.writeS n v).perf = w.perf := rfl
@[simp] theorem Warp.writeS_stopped (w : Warp) (n : Nat) (v : Word) : (w.writeS n v).stopped = w.stopped := rfl
@[simp] theorem Warp.writeS_acc (w : Warp) (n : Nat) (v : Word) : (w.writeS n v).acc = w.acc := rfl
@[simp] theorem Warp.writeS_accTiles (w : Warp) (n : Nat) (v : Word) : (w.writeS n v).accTiles = w.accTiles := rfl
@[simp] theorem Warp.writeS_accFlags (w : Warp) (n : Nat) (v : Word) : (w.writeS n v).accFlags = w.accFlags := rfl
@[simp] theorem Warp.writeS_exited (w : Warp) (n : Nat) (v : Word) : (w.writeS n v).exited = w.exited := rfl
@[simp] theorem Warp.writeS_readyAt (w : Warp) (n : Nat) (v : Word) : (w.writeS n v).readyAt = w.readyAt := rfl
@[simp] theorem Warp.writeS_lockWin (w : Warp) (n : Nat) (v : Word) : (w.writeS n v).lockWin = w.lockWin := rfl

/-! ### A group: updWarp -/

@[simp] theorem Group.updWarp_id (g : Group) (w : Nat) (f : Warp → Warp) : (g.updWarp w f).id = g.id := rfl
@[simp] theorem Group.updWarp_grid (g : Group) (w : Nat) (f : Warp → Warp) : (g.updWarp w f).grid = g.grid := rfl
@[simp] theorem Group.updWarp_core (g : Group) (w : Nat) (f : Warp → Warp) : (g.updWarp w f).core = g.core := rfl
@[simp] theorem Group.updWarp_x (g : Group) (w : Nat) (f : Warp → Warp) : (g.updWarp w f).x = g.x := rfl
@[simp] theorem Group.updWarp_y (g : Group) (w : Nat) (f : Warp → Warp) : (g.updWarp w f).y = g.y := rfl
@[simp] theorem Group.updWarp_z (g : Group) (w : Nat) (f : Warp → Warp) : (g.updWarp w f).z = g.z := rfl
@[simp] theorem Group.updWarp_lin (g : Group) (w : Nat) (f : Warp → Warp) : (g.updWarp w f).lin = g.lin := rfl
@[simp] theorem Group.updWarp_team (g : Group) (w : Nat) (f : Warp → Warp) : (g.updWarp w f).team = g.team := rfl
@[simp] theorem Group.updWarp_lent (g : Group) (w : Nat) (f : Warp → Warp) : (g.updWarp w f).lent = g.lent := rfl
@[simp] theorem Group.updWarp_admitted (g : Group) (w : Nat) (f : Warp → Warp) : (g.updWarp w f).admitted = g.admitted := rfl
@[simp] theorem Group.updWarp_pool (g : Group) (w : Nat) (f : Warp → Warp) : (g.updWarp w f).pool = g.pool := rfl
@[simp] theorem Group.updWarp_claims (g : Group) (w : Nat) (f : Warp → Warp) : (g.updWarp w f).claims = g.claims := rfl
@[simp] theorem Group.updWarp_scratch (g : Group) (w : Nat) (f : Warp → Warp) : (g.updWarp w f).scratch = g.scratch := rfl
@[simp] theorem Group.updWarp_scratchPoison (g : Group) (w : Nat) (f : Warp → Warp) : (g.updWarp w f).scratchPoison = g.scratchPoison := rfl
@[simp] theorem Group.updWarp_tags (g : Group) (w : Nat) (f : Warp → Warp) : (g.updWarp w f).tags = g.tags := rfl
@[simp] theorem Group.updWarp_ext (g : Group) (w : Nat) (f : Warp → Warp) : (g.updWarp w f).ext = g.ext := rfl
@[simp] theorem Group.updWarp_extPoison (g : Group) (w : Nat) (f : Warp → Warp) : (g.updWarp w f).extPoison = g.extPoison := rfl
@[simp] theorem Group.updWarp_bars (g : Group) (w : Nat) (f : Warp → Warp) : (g.updWarp w f).bars = g.bars := rfl
@[simp] theorem Group.updWarp_queues (g : Group) (w : Nat) (f : Warp → Warp) : (g.updWarp w f).queues = g.queues := rfl
@[simp] theorem Group.updWarp_pals (g : Group) (w : Nat) (f : Warp → Warp) : (g.updWarp w f).pals = g.pals := rfl
@[simp] theorem Group.updWarp_tiles (g : Group) (w : Nat) (f : Warp → Warp) : (g.updWarp w f).tiles = g.tiles := rfl
@[simp] theorem Group.updWarp_palOps (g : Group) (w : Nat) (f : Warp → Warp) : (g.updWarp w f).palOps = g.palOps := rfl
@[simp] theorem Group.updWarp_ooo (g : Group) (w : Nat) (f : Warp → Warp) : (g.updWarp w f).ooo = g.ooo := rfl
@[simp] theorem Group.updWarp_clkc (g : Group) (w : Nat) (f : Warp → Warp) : (g.updWarp w f).clkc = g.clkc := rfl
@[simp] theorem Group.updWarp_perf (g : Group) (w : Nat) (f : Warp → Warp) : (g.updWarp w f).perf = g.perf := rfl
@[simp] theorem Group.updWarp_hits (g : Group) (w : Nat) (f : Warp → Warp) : (g.updWarp w f).hits = g.hits := rfl
@[simp] theorem Group.updWarp_stop (g : Group) (w : Nat) (f : Warp → Warp) : (g.updWarp w f).stop = g.stop := rfl
@[simp] theorem Group.updWarp_killed (g : Group) (w : Nat) (f : Warp → Warp) : (g.updWarp w f).killed = g.killed := rfl
@[simp] theorem Group.updWarp_ended (g : Group) (w : Nat) (f : Warp → Warp) : (g.updWarp w f).ended = g.ended := rfl
@[simp] theorem Group.updWarp_relaunches (g : Group) (w : Nat) (f : Warp → Warp) : (g.updWarp w f).relaunches = g.relaunches := rfl

end Sys2Proof.Machine
end

