-- ==== Sys2Proof/Laws/Tables.lean ====
section
/-! SUPPORT. Laws of the sparse tables: read after write, and that every operation keeps the canonical form. -/
namespace Sys2Proof.Machine

variable {α : Type}

@[simp] theorem tfind_nil (k : Nat) : tfind ([] : Tbl α) k = none := rfl

theorem tfind_tins (t : Tbl α) (k j : Nat) (v : α) : tfind (tins t k v) j = if j = k then some v else tfind t j := by
  induction t with
  | nil =>
    simp only [tins, tfind]
    by_cases h : j = k
    · rw [if_pos h, if_pos h.symm]
    · rw [if_neg h, if_neg (fun e => h e.symm)]
  | cons e r ih =>
    obtain ⟨i, u⟩ := e
    simp only [tins]
    split
    · simp only [tfind]
      by_cases h : j = k
      · simp [h]
      · rw [if_neg h, if_neg (fun e => h e.symm)]
    · split
      · rename_i _ hk
        simp only [tfind]
        by_cases h : j = k
        · simp [h]
        · rw [if_neg h, if_neg (fun e => h e.symm), if_neg (fun e => h (e.symm.trans hk.symm))]
      · rename_i _ hk
        simp only [tfind, ih]
        by_cases h : j = k
        · subst h
          rw [if_neg (fun e => hk e.symm), if_pos rfl, if_pos rfl]
        · rw [if_neg h, if_neg h]

theorem tfind_tdel (t : Tbl α) (k j : Nat) : tfind (tdel t k) j = if j = k then none else tfind t j := by
  induction t with
  | nil => simp [tdel]
  | cons e r ih =>
    obtain ⟨i, u⟩ := e
    simp only [tdel]
    split
    · rename_i hk
      subst hk
      rw [ih]
      simp only [tfind]
      by_cases h : j = i
      · rw [if_pos h, if_pos h]
      · rw [if_neg h, if_neg h, if_neg (fun e => h e.symm)]
    · rename_i hk
      simp only [tfind, ih]
      by_cases h : j = k
      · subst h
        rw [if_pos rfl, if_neg hk, if_pos rfl]
      · rw [if_neg h, if_neg h]

theorem tget_tins (d : α) (t : Tbl α) (k j : Nat) (v : α) : tget d (tins t k v) j = if j = k then v else tget d t j := by
  simp only [tget, tfind_tins]; split <;> rfl

theorem tget_tdel (d : α) (t : Tbl α) (k j : Nat) : tget d (tdel t k) j = if j = k then d else tget d t j := by
  simp only [tget, tfind_tdel]; split <;> rfl

/-- Read after write of a table with a default. -/
theorem tget_tput [DecidableEq α] (d : α) (t : Tbl α) (k j : Nat) (v : α) :
    tget d (tput d t k v) j = if j = k then v else tget d t j := by
  simp only [tput]; split
  · simp_all [tget_tdel]
  · rw [tget_tins]

@[simp] theorem tget_tput_same [DecidableEq α] (d : α) (t : Tbl α) (k : Nat) (v : α) : tget d (tput d t k v) k = v := by
  simp [tget_tput]

theorem tget_tput_other [DecidableEq α] (d : α) (t : Tbl α) (k j : Nat) (v : α) (h : j ≠ k) :
    tget d (tput d t k v) j = tget d t j := by
  simp [tget_tput, h]

/-! ## The canonical form -/

/-- Canonical form, unfolded: no default values, and every key below each later one. -/
theorem twf_cons [DecidableEq α] (d : α) (k : Nat) (v : α) (r : Tbl α) :
    twf d ((k, v) :: r) = true ↔ v ≠ d ∧ (∀ e ∈ r, k < e.1) ∧ twf d r = true := by
  induction r generalizing k v with
  | nil => simp [twf]
  | cons e r ih =>
    obtain ⟨j, u⟩ := e
    simp only [twf, Bool.and_eq_true, bne_iff_ne, decide_eq_true_eq, ih, List.mem_cons, forall_eq_or_imp]
    constructor
    · rintro ⟨⟨h1, h2⟩, h3, h4, h5⟩
      exact ⟨h1, ⟨h2, fun e he => Nat.lt_trans h2 (h4 e he)⟩, h3, h4, h5⟩
    · rintro ⟨h1, ⟨h2, -⟩, h3, h4, h5⟩
      exact ⟨⟨h1, h2⟩, h3, h4, h5⟩

@[simp] theorem twf_nil [DecidableEq α] (d : α) : twf d ([] : Tbl α) = true := rfl

theorem mem_tins {t : Tbl α} {k : Nat} {v : α} {e : Nat × α} (h : e ∈ tins t k v) : e = (k, v) ∨ e ∈ t := by
  induction t with
  | nil => simpa [tins] using h
  | cons x r ih =>
    obtain ⟨j, u⟩ := x
    simp only [tins] at h
    split at h
    · simpa using h
    · split at h
      · rcases List.mem_cons.1 h with h | h
        · exact .inl h
        · exact .inr (List.mem_cons_of_mem _ h)
      · rcases List.mem_cons.1 h with h | h
        · exact .inr (h ▸ List.mem_cons_self ..)
        · exact (ih h).imp id (List.mem_cons_of_mem _)

theorem mem_tdel {t : Tbl α} {k : Nat} {e : Nat × α} (h : e ∈ tdel t k) : e ∈ t := by
  induction t with
  | nil => exact h
  | cons x r ih =>
    obtain ⟨j, u⟩ := x
    simp only [tdel] at h
    split at h
    · exact List.mem_cons_of_mem _ (ih h)
    · rcases List.mem_cons.1 h with h | h
      · exact h ▸ List.mem_cons_self ..
      · exact List.mem_cons_of_mem _ (ih h)

theorem twf_tins [DecidableEq α] (d : α) (t : Tbl α) (k : Nat) (v : α) (hv : v ≠ d) (h : twf d t = true) :
    twf d (tins t k v) = true := by
  induction t with
  | nil => simp [tins, twf, hv]
  | cons x r ih =>
    obtain ⟨j, u⟩ := x
    obtain ⟨h1, h2, h3⟩ := (twf_cons d j u r).1 h
    simp only [tins]
    split
    · rename_i hk
      refine (twf_cons ..).2 ⟨hv, ?_, h⟩
      intro e he
      rcases List.mem_cons.1 he with he | he
      · subst he; exact hk
      · exact Nat.lt_trans hk (h2 e he)
    · split
      · rename_i hk; subst hk
        exact (twf_cons ..).2 ⟨hv, h2, h3⟩
      · rename_i hk hne
        refine (twf_cons ..).2 ⟨h1, ?_, ih h3⟩
        intro e he
        rcases mem_tins he with he | he
        · subst he; simp only; omega
        · exact h2 e he

theorem twf_tdel [DecidableEq α] (d : α) (t : Tbl α) (k : Nat) (h : twf d t = true) : twf d (tdel t k) = true := by
  induction t with
  | nil => exact h
  | cons x r ih =>
    obtain ⟨j, u⟩ := x
    obtain ⟨h1, h2, h3⟩ := (twf_cons d j u r).1 h
    simp only [tdel]
    split
    · exact ih h3
    · exact (twf_cons ..).2 ⟨h1, fun e he => h2 e (mem_tdel he), ih h3⟩

/-- A write keeps the canonical form. -/
theorem twf_tput [DecidableEq α] (d : α) (t : Tbl α) (k : Nat) (v : α) (h : twf d t = true) : twf d (tput d t k v) = true := by
  simp only [tput]; split
  · exact twf_tdel d t k h
  · exact twf_tins d t k v ‹_› h

theorem twf_filter [DecidableEq α] (d : α) (t : Tbl α) (p : Nat × α → Bool) (h : twf d t = true) : twf d (t.filter p) = true := by
  induction t with
  | nil => simp
  | cons x r ih =>
    obtain ⟨j, u⟩ := x
    obtain ⟨h1, h2, h3⟩ := (twf_cons d j u r).1 h
    by_cases hp : p (j, u) = true
    · simp only [List.filter_cons, hp, if_true]
      exact (twf_cons ..).2 ⟨h1, fun e he => h2 e (List.mem_filter.1 he).1, ih h3⟩
    · simp only [List.filter_cons, hp]
      exact ih h3

/-- Two tables in canonical form that read alike are the same table. -/
theorem twf_ext [DecidableEq α] (d : α) {t u : Tbl α} (ht : twf d t = true) (hu : twf d u = true)
    (h : ∀ k, tget d t k = tget d u k) : t = u := by
  have lem : ∀ {r : Tbl α} {k : Nat}, (∀ e ∈ r, k < e.1) → tget d r k = d := by
    intro r k hr
    induction r with
    | nil => rfl
    | cons x r ih =>
      obtain ⟨j, v⟩ := x
      have hj : k < j := hr (j, v) (by simp)
      have h' := ih (fun e he => hr e (by simp [he]))
      simp only [tget, tfind] at h' ⊢
      rw [if_neg (by omega)]; exact h'
  induction t generalizing u with
  | nil =>
    cases u with
    | nil => rfl
    | cons y u =>
      obtain ⟨j, v⟩ := y
      obtain ⟨h1, -, -⟩ := (twf_cons ..).1 hu
      have := h j
      simp [tget, tfind] at this
      exact absurd this.symm h1
  | cons x t ih =>
    obtain ⟨i, v⟩ := x
    obtain ⟨h1, h2, h3⟩ := (twf_cons ..).1 ht
    cases u with
    | nil =>
      have := h i
      simp [tget, tfind] at this
      exact absurd this h1
    | cons y u =>
      obtain ⟨j, w⟩ := y
      obtain ⟨k1, k2, k3⟩ := (twf_cons ..).1 hu
      have hij : i = j := by
        rcases Nat.lt_trichotomy i j with hl | he | hl
        · exfalso
          have e := h i
          rw [lem (r := (j, w) :: u) (fun e he => by
            rcases List.mem_cons.1 he with he | he
            · subst he; exact hl
            · exact Nat.lt_trans hl (k2 e he))] at e
          simp [tget, tfind] at e
          exact h1 e
        · exact he
        · exfalso
          have e := h j
          rw [lem (r := (i, v) :: t) (fun e he => by
            rcases List.mem_cons.1 he with he | he
            · subst he; exact hl
            · exact Nat.lt_trans hl (h2 e he))] at e
          simp [tget, tfind] at e
          exact k1 e.symm
      subst hij
      have hv : v = w := by
        have e := h i
        simpa [tget, tfind] using e
      subst hv
      congr 1
      apply ih h3 k3
      intro k
      have e := h k
      by_cases hk : k = i
      · subst hk
        rw [lem h2, lem k2]
      · simpa [tget, tfind, Ne.symm hk] using e

/-! ## Fields -/

@[simp] theorem leBytes_length (n v : Nat) : (leBytes n v).length = n := by
  induction n generalizing v with
  | zero => rfl
  | succ n ih => simp [leBytes, ih]

theorem leVal_leBytes (n v : Nat) : leVal (leBytes n v) = v % 256 ^ n := by
  induction n generalizing v with
  | zero => simp [leBytes, leVal, Nat.mod_one]
  | succ n ih =>
    simp only [leBytes, leVal, ih]
    rw [BitVec.toNat_ofNat, show (2 : Nat) ^ 8 = 256 from rfl, Nat.pow_succ, Nat.mul_comm (256 ^ n) 256, Nat.mod_mul]

end Sys2Proof.Machine
end

