-- ==== Sys2Proof/Laws/Ops.lean ====
section
/-! SUPPORT. Laws of lookups and updates of groups, warps and registers: what each reads after each write. -/
namespace Sys2Proof.Machine

/-! ## Finding in a list that was mapped -/

/-- A map that keeps a test finds the image of what was found. -/
theorem find?_map_keep {α : Type} (l : List α) (f : α → α) (p : α → Bool) (h : ∀ x ∈ l, p (f x) = p x) :
    (l.map f).find? p = (l.find? p).map f := by
  induction l with
  | nil => rfl
  | cons x r ih =>
    have hx := h x (by simp)
    have ih := ih (fun y hy => h y (by simp [hy]))
    simp only [List.map_cons, List.find?_cons, hx]
    cases p x <;> simp [ih]

theorem State.group?_updGroup (s : State) (gid h : Nat) (f : Group → Group) (hf : ∀ g, (f g).id = g.id) :
    (s.updGroup gid f).group? h = (s.group? h).map (fun g => if g.id = gid then f g else g) := by
  simp only [State.group?, State.updGroup]
  rw [find?_map_keep]
  intro g _
  by_cases hg : g.id = gid <;> simp [hg, hf]

theorem State.group?_updGroup_self (s : State) (gid : Nat) (f : Group → Group) (hf : ∀ g, (f g).id = g.id) :
    (s.updGroup gid f).group? gid = (s.group? gid).map f := by
  rw [State.group?_updGroup _ _ _ _ hf]
  cases hg : s.group? gid with
  | none => rfl
  | some g =>
    have : g.id = gid := by simpa using List.find?_some hg
    simp [this]

theorem State.group?_id {s : State} {gid : Nat} {g : Group} (h : s.group? gid = some g) : g.id = gid := by
  simpa using List.find?_some h

theorem Group.warp?_idx {g : Group} {wi : Nat} {w : Warp} (h : g.warp? wi = some w) : w.idx = wi := by
  simpa using List.find?_some h

theorem Group.warp?_updWarp (g : Group) (wi j : Nat) (f : Warp → Warp) (hf : ∀ w, (f w).idx = w.idx) :
    (g.updWarp wi f).warp? j = (g.warp? j).map (fun w => if w.idx = wi then f w else w) := by
  simp only [Group.warp?, Group.updWarp]
  rw [find?_map_keep]
  intro w _
  by_cases hw : w.idx = wi <;> simp [hw, hf]

theorem Group.warp?_updWarp_self (g : Group) (wi : Nat) (f : Warp → Warp) (hf : ∀ w, (f w).idx = w.idx) :
    (g.updWarp wi f).warp? wi = (g.warp? wi).map f := by
  rw [Group.warp?_updWarp _ _ _ _ hf]
  cases hw : g.warp? wi with
  | none => rfl
  | some w => simp [Group.warp?_idx hw]

theorem State.group?_updWarp_self (s : State) (gid wi : Nat) (f : Warp → Warp) :
    (s.updWarp gid wi f).group? gid = (s.group? gid).map (fun g => g.updWarp wi f) :=
  State.group?_updGroup_self s gid _ (fun _ => rfl)

theorem State.warp?_updWarp_self (s : State) (gid wi : Nat) (f : Warp → Warp) (hf : ∀ w, (f w).idx = w.idx) :
    (s.updWarp gid wi f).warp? gid wi = (s.warp? gid wi).map f := by
  simp only [State.warp?, State.group?_updWarp_self]
  cases s.group? gid with
  | none => rfl
  | some g => simp [Group.warp?_updWarp_self _ _ _ hf]

/-! ## Registers -/

@[simp] theorem Warp.readV_255 (w : Warp) (t : Nat) : w.readV 255 t = 0 := rfl
@[simp] theorem Warp.writeV_255 (w : Warp) (t : Nat) (v : Word) : w.writeV 255 t v = w := rfl
@[simp] theorem Warp.readK_0 (w : Warp) : w.readK 0 = 0xFFFFFFFF := rfl
@[simp] theorem Warp.writeK_0 (w : Warp) (v : Mask) : w.writeK 0 v = w := rfl

/-- A vector register after a write. -/
theorem Warp.readV_writeV (w : Warp) (n m t u : Nat) (v : Word) (ht : t < 32) (hu : u < 32) :
    (w.writeV n t v).readV m u = if m = n ∧ u = t ∧ n ≠ 255 then v else w.readV m u := by
  by_cases hn : n = 255
  · subst hn; simp
  · simp only [Warp.writeV, if_neg hn, Warp.readV]
    by_cases hm : m = 255
    · have : ¬ (m = n) := by omega
      simp [hm]
      intro h; omega
    · rw [if_neg hm, tget_tput]
      by_cases hmn : m = n
      · by_cases hut : u = t
        · simp [hmn, hut, hn]
        · rw [if_neg (by omega), if_neg (by simp [hut]), if_neg hm]
      · rw [if_neg (by omega), if_neg (by simp [hmn]), if_neg hm]

/-- A write of a vector register changes nothing but the vector registers. -/
theorem Warp.writeV_rest (w : Warp) (n t : Nat) (v : Word) : w.writeV n t v = { w with vregs := (w.writeV n t v).vregs } := by
  simp only [Warp.writeV]; split <;> rfl

theorem Warp.readS_writeS (w : Warp) (n m : Nat) (v : Word) : (w.writeS n v).readS m = if m = n then v else w.readS m := by
  simp only [Warp.writeS, Warp.readS, tget_tput]

theorem Warp.tokens_writeS (w : Warp) (n m : Nat) (v : Word) :
    tfind (w.writeS n v).tokens m = if m = n then none else tfind w.tokens m := by
  simp only [Warp.writeS, tfind_tdel]

theorem Warp.readK_writeK (w : Warp) (n m : Nat) (v : Mask) (hn : n ≠ 0) :
    (w.writeK n v).readK m = if m = n then v else w.readK m := by
  simp only [Warp.writeK, if_neg hn, Warp.readK]
  by_cases hm : m = 0
  · subst hm; simp [Ne.symm hn]
  · rw [if_neg hm, tget_tput]; split <;> simp

theorem Warp.writeK_rest (w : Warp) (n : Nat) (v : Mask) : w.writeK n v = { w with preds := (w.writeK n v).preds } := by
  simp only [Warp.writeK]; split <;> rfl

/-! ## Lane sets -/

theorem mem_lanes (t : Nat) : t ∈ lanes ↔ t < 32 := by simp [lanes]

theorem mem_lanesOf (m : Mask) (t : Nat) : t ∈ lanesOf m ↔ t < 32 ∧ laneIn m t = true := by
  simp [lanesOf, mem_lanes]

theorem laneIn_lt {m : Mask} {t : Nat} (h : laneIn m t = true) : t < 32 := by
  by_cases ht : t < 32
  · exact ht
  · simp [laneIn, BitVec.getLsbD_of_ge _ _ (by omega : 32 ≤ t)] at h

/-- A sum of distinct powers of two has the bits of its terms. -/
theorem foldl_pow_testBit (p : Nat → Bool) (n : Nat) :
    ∀ a, a = (List.range n).foldl (fun a t => if p t then a + 2 ^ t else a) 0 →
      a < 2 ^ n ∧ ∀ t, a.testBit t = (decide (t < n) && p t) := by
  induction n with
  | zero => intro a h; subst h; simp
  | succ n ih =>
    intro a h
    rw [List.range_succ, List.foldl_append] at h
    simp only [List.foldl_cons, List.foldl_nil] at h
    obtain ⟨h1, h2⟩ := ih _ rfl
    generalize (List.range n).foldl (fun a t => if p t then a + 2 ^ t else a) 0 = b at h h1 h2
    have hb : ∀ t, n ≤ t → b.testBit t = false := fun t ht => by rw [h2]; simp; omega
    cases hp : p n with
    | false =>
      simp [hp] at h
      subst h
      refine ⟨Nat.lt_of_lt_of_le h1 (Nat.pow_le_pow_right (by omega) (by omega)), fun t => ?_⟩
      rw [h2]
      by_cases ht : t < n
      · simp [ht, Nat.lt_succ_of_lt ht]
      · by_cases he : t = n
        · subst he; simp [hp]
        · have : ¬ t < n + 1 := by omega
          simp [ht, this]
    | true =>
      simp [hp] at h
      subst h
      have e : b + 2 ^ n = 2 ^ n + b := Nat.add_comm ..
      refine ⟨by rw [Nat.pow_succ]; omega, fun t => ?_⟩
      rw [e]
      by_cases ht : t = n
      · subst ht
        rw [Nat.testBit_two_pow_add_eq, hb t (Nat.le_refl t)]
        simp [hp]
      · rw [Nat.testBit_two_pow_add_gt_or_lt h1 ht h2]
        by_cases hl : t < n
        · simp [hl, Nat.lt_succ_of_lt hl]
        · have : ¬ t < n + 1 := by omega
          simp [hl, this]
where
  Nat.testBit_two_pow_add_gt_or_lt {p : Nat → Bool} {n b t : Nat} (h1 : b < 2 ^ n) (ht : ¬ t = n)
      (h2 : ∀ t, b.testBit t = (decide (t < n) && p t)) : (2 ^ n + b).testBit t = (decide (t < n) && p t) := by
    rcases Nat.lt_or_gt_of_ne ht with hl | hg
    · rw [Nat.testBit_two_pow_add_gt hl, h2]
    · rw [Nat.testBit_lt_two_pow (Nat.lt_of_lt_of_le (by rw [Nat.pow_succ]; omega : 2 ^ n + b < 2 ^ (n + 1))
        (Nat.pow_le_pow_right (by omega) hg))]
      simp; omega

/-- Lane t is in the set that a test makes when the test holds. -/
theorem laneIn_maskOf (p : Nat → Bool) (t : Nat) (ht : t < 32) : laneIn (maskOf p) t = p t := by
  obtain ⟨h1, h2⟩ := foldl_pow_testBit p 32 _ rfl
  simp only [laneIn, maskOf, lanes, BitVec.getLsbD_ofNat]
  rw [h2]
  simp [ht]

@[simp] theorem laneIn_and (a b : Mask) (t : Nat) : laneIn (a &&& b) t = (laneIn a t && laneIn b t) := by simp [laneIn]
@[simp] theorem laneIn_or (a b : Mask) (t : Nat) : laneIn (a ||| b) t = (laneIn a t || laneIn b t) := by simp [laneIn]
theorem laneIn_not (a : Mask) (t : Nat) (ht : t < 32) : laneIn (~~~a) t = !laneIn a t := by simp [laneIn, ht]

/-- The empty set has no lane. -/
theorem lane_of_ne_zero {m : Mask} (h : m ≠ 0) : ∃ t, t < 32 ∧ laneIn m t = true := by
  apply Classical.byContradiction
  intro hn
  apply h
  apply BitVec.eq_of_getLsbD_eq
  intro i hi
  cases hb : m.getLsbD i with
  | false => simp
  | true => exact absurd ⟨i, hi, hb⟩ hn

/-! ## Vector writes -/

theorem Warp.writeVs_fold (l : List Nat) (n : Nat) (f : Nat → Word) (hl : ∀ t ∈ l, t < 32) (w : Warp) (m u : Nat) (hu : u < 32) :
    (l.foldl (fun x t => x.writeV n t (f t)) w).readV m u = if m = n ∧ u ∈ l ∧ n ≠ 255 then f u else w.readV m u := by
  induction l generalizing w with
  | nil => simp
  | cons t l ih =>
    simp only [List.foldl_cons]
    rw [ih (fun t ht => hl t (by simp [ht])), Warp.readV_writeV _ _ _ _ _ _ (hl t (by simp)) hu]
    by_cases h1 : m = n ∧ n ≠ 255
    · by_cases h2 : u ∈ l
      · simp [h1, h2]
      · by_cases h3 : u = t
        · subst h3; simp [h1, h2]
        · simp [h2, h3]
    · have h4 : ¬ (m = n ∧ u ∈ l ∧ n ≠ 255) := fun h => h1 ⟨h.1, h.2.2⟩
      have h5 : ¬ (m = n ∧ u = t ∧ n ≠ 255) := fun h => h1 ⟨h.1, h.2.2⟩
      have h6 : ¬ (m = n ∧ u ∈ t :: l ∧ n ≠ 255) := fun h => h1 ⟨h.1, h.2.2⟩
      rw [if_neg h4, if_neg h5, if_neg h6]

theorem Warp.writeVs_fold_rest (l : List Nat) (n : Nat) (f : Nat → Word) (w : Warp) :
    l.foldl (fun x t => x.writeV n t (f t)) w = { w with vregs := (l.foldl (fun x t => x.writeV n t (f t)) w).vregs } := by
  induction l generalizing w with
  | nil => rfl
  | cons t l ih =>
    simp only [List.foldl_cons]
    rw [ih, Warp.writeV_rest]

/-- A vector register after a write of the active lanes (R156). -/
theorem Warp.readV_writeVs (w : Warp) (n : Nat) (act : Mask) (f : Nat → Word) (m u : Nat) (hu : u < 32) :
    (w.writeVs n act f).readV m u = if m = n ∧ laneIn act u = true ∧ n ≠ 255 then f u else w.readV m u := by
  simp only [Warp.writeVs]
  rw [Warp.writeVs_fold _ _ _ (fun t ht => ((mem_lanesOf act t).1 ht).1) _ _ _ hu]
  simp [mem_lanesOf, hu]

theorem Warp.writeVs_rest (w : Warp) (n : Nat) (act : Mask) (f : Nat → Word) :
    w.writeVs n act f = { w with vregs := (w.writeVs n act f).vregs } := Warp.writeVs_fold_rest ..

/-- A vector pair after a write of the active lanes (R88). -/
theorem Warp.readV_writeVPair (w : Warp) (n : Nat) (act : Mask) (f : Nat → DWord) (m u : Nat) (hu : u < 32) :
    (w.writeVPair n act f).readV m u =
      if m = n + 1 ∧ laneIn act u = true ∧ n + 1 ≠ 255 then ((f u) >>> 32).setWidth 32
      else if m = n ∧ laneIn act u = true ∧ n ≠ 255 then (f u).setWidth 32 else w.readV m u := by
  simp only [Warp.writeVPair]
  rw [Warp.readV_writeVs _ _ _ _ _ _ hu, Warp.readV_writeVs _ _ _ _ _ _ hu]

theorem Warp.writeVPair_rest (w : Warp) (n : Nat) (act : Mask) (f : Nat → DWord) :
    w.writeVPair n act f = { w with vregs := (w.writeVPair n act f).vregs } := by
  simp only [Warp.writeVPair]
  rw [Warp.writeVs_rest (w.writeVs ..), Warp.writeVs_rest w]

/-- A predicate after a write of the active lanes' bits (R156). -/
theorem Warp.readK_writeKs (w : Warp) (n : Nat) (act : Mask) (p : Nat → Bool) (m u : Nat) (hu : u < 32) :
    laneIn ((w.writeKs n act p).readK m) u =
      if m = n ∧ n ≠ 0 ∧ laneIn act u = true then p u else laneIn (w.readK m) u := by
  simp only [Warp.writeKs]
  by_cases hn : n = 0
  · subst hn; simp
  · rw [Warp.readK_writeK _ _ _ _ hn]
    by_cases hm : m = n
    · subst hm
      simp only [if_true, laneIn_or, laneIn_and, laneIn_not _ _ hu, laneIn_maskOf _ _ hu]
      cases laneIn act u <;> simp [hn]
    · simp [hm]

theorem Warp.writeKs_rest (w : Warp) (n : Nat) (act : Mask) (p : Nat → Bool) :
    w.writeKs n act p = { w with preds := (w.writeKs n act p).preds } := Warp.writeK_rest ..

end Sys2Proof.Machine
end

