-- ==== Sys2Proof/Laws/Memory.lean ====
section
/-! SUPPORT. Laws of the memory system: what the accesses of memory, its directories and its counters leave alone, that they
keep memory in canonical form, and that a byte reads as it was last written. -/
namespace Sys2Proof.Machine

/-! ## Bytes -/

theorem putBytes_wf (t : Tbl Byte) (a : Nat) (b : List Byte) (h : twf 0 t = true) : twf 0 (putBytes t a b) = true := by
  induction b generalizing t a with
  | nil => exact h
  | cons x r ih => exact ih _ _ (twf_tput 0 t a x h)

/-- A byte after a write of a range: the byte written there, or what it was. -/
theorem tget_putBytes (t : Tbl Byte) (a : Nat) (b : List Byte) (k : Nat) :
    tget 0 (putBytes t a b) k = if a ≤ k ∧ k < a + b.length then b.getD (k - a) 0 else tget 0 t k := by
  induction b generalizing t a with
  | nil => simp only [putBytes, List.length_nil, Nat.add_zero]; rw [if_neg (by omega)]
  | cons x r ih =>
    simp only [putBytes, ih, List.length_cons]
    by_cases h1 : a + 1 ≤ k ∧ k < a + 1 + r.length
    · rw [if_pos h1, if_pos (by omega)]
      have : k - a = (k - (a + 1)) + 1 := by omega
      rw [this, List.getD_cons_succ]
    · rw [if_neg h1, tget_tput]
      by_cases h2 : k = a
      · subst h2
        rw [if_pos rfl, if_pos (by omega), Nat.sub_self, List.getD_cons_zero]
      · rw [if_neg h2, if_neg (by omega)]

/-- A byte of memory after a store (R5, R52). -/
theorem State.store_get (s : State) (pa : Nat) (b : List Byte) (k : Nat) :
    tget 0 (s.store pa b).mem k = if pa ≤ k ∧ k < pa + b.length then b.getD (k - pa) 0 else tget 0 s.mem k :=
  tget_putBytes ..

/-! ## What an access of memory may change -/

/-- `t` follows from `s` by accesses of memory: memory stays in canonical form, and what runs, the groups, the jobs, the
bring-up and the time are the same. -/
structure Quiet (s t : State) : Prop where
  wf : Memory.wf s.mem = true → Memory.wf t.mem = true
  cur : t.cur = s.cur
  quads : t.quads = s.quads
  groups : t.groups = s.groups
  jobs : t.jobs = s.jobs
  bu : t.bu = s.bu
  timer : t.timer = s.timer
  agenda : t.agenda = s.agenda

theorem Quiet.rfl' (s : State) : Quiet s s := ⟨id, rfl, rfl, rfl, rfl, rfl, rfl, rfl⟩
theorem Quiet.trans {a b c : State} (h : Quiet a b) (k : Quiet b c) : Quiet a c :=
  ⟨fun x => k.wf (h.wf x), k.cur.trans h.cur, k.quads.trans h.quads, k.groups.trans h.groups, k.jobs.trans h.jobs,
    k.bu.trans h.bu, k.timer.trans h.timer, k.agenda.trans h.agenda⟩
/-- A state that differs in nothing that `Quiet` speaks of. -/
theorem Quiet.of {s t : State} (h1 : t.mem = s.mem) (h2 : t.cur = s.cur) (h3 : t.quads = s.quads) (h4 : t.groups = s.groups)
    (h5 : t.jobs = s.jobs) (h6 : t.bu = s.bu) (h7 : t.timer = s.timer) (h8 : t.agenda = s.agenda) : Quiet s t :=
  ⟨fun x => by rw [h1]; exact x, h2, h3, h4, h5, h6, h7, h8⟩
theorem Quiet.iteStep {c : Prop} [Decidable c] {s a b : State} (h : Quiet s a) (k : Quiet a b) : Quiet s (if c then b else a) := by
  split
  · exact h.trans k
  · exact h
theorem Quiet.foldl {α : Type} (f : State → α → State) (h : ∀ s a, Quiet s (f s a)) (l : List α) (s : State) : Quiet s (l.foldl f s) := by
  induction l generalizing s with
  | nil => exact Quiet.rfl' s
  | cons a l ih => exact (h s a).trans (ih _)
theorem Quiet.foldl₂ {α β : Type} (f : β × State → α → β × State) (h : ∀ x a, Quiet x.2 (f x a).2) (l : List α) (x : β × State) :
    Quiet x.2 (l.foldl f x).2 := by
  induction l generalizing x with
  | nil => exact Quiet.rfl' _
  | cons a l ih => exact (h x a).trans (ih _)

theorem quiet_barSet (s : State) (o : Nat) (v : DWord) : Quiet s (s.barSet o v) := Quiet.of rfl rfl rfl rfl rfl rfl rfl rfl
theorem quiet_barPut (s : State) (o lo n x : Nat) : Quiet s (s.barPut o lo n x) := quiet_barSet ..
theorem quiet_send (s : State) (m : Msg) : Quiet s (s.send m) := Quiet.of rfl rfl rfl rfl rfl rfl rfl rfl
theorem quiet_fresh (s : State) : Quiet s s.fresh := Quiet.of rfl rfl rfl rfl rfl rfl rfl rfl
theorem quiet_updGrid (s : State) (id : Nat) (f : Grid → Grid) : Quiet s (s.updGrid id f) := Quiet.of rfl rfl rfl rfl rfl rfl rfl rfl
theorem quiet_store (s : State) (pa : Nat) (b : List Byte) : Quiet s (s.store pa b) :=
  ⟨fun h => putBytes_wf _ _ _ h, rfl, rfl, rfl, rfl, rfl, rfl, rfl⟩

theorem quiet_owner (s : State) (o : Tbl (Nat × Nat)) : Quiet s { s with owner := o } := Quiet.of rfl rfl rfl rfl rfl rfl rfl rfl
theorem quiet_l1 (s : State) (x : Tbl (Word × Nat)) : Quiet s { s with l1 := x } := Quiet.of rfl rfl rfl rfl rfl rfl rfl rfl
theorem quiet_bridge (s : State) (x : Tbl Half) : Quiet s { s with bridge := x } := Quiet.of rfl rfl rfl rfl rfl rfl rfl rfl
theorem quiet_teleq (s : State) (x : List (List Byte)) : Quiet s { s with teleq := x } := Quiet.of rfl rfl rfl rfl rfl rfl rfl rfl
theorem quiet_fitSlice (s : State) (k : Nat) : Quiet s (s.fitSlice k) := by
  simp only [State.fitSlice]
  split
  · exact Quiet.rfl' _
  · split
    · exact quiet_owner ..
    · exact Quiet.rfl' _
theorem quiet_fitL1 (s : State) (c : Nat) : Quiet s (s.fitL1 c) := by
  simp only [State.fitL1]
  split
  · exact Quiet.rfl' _
  · split
    · exact quiet_l1 ..
    · split
      · exact quiet_owner ..
      · exact Quiet.rfl' _
theorem quiet_register (s : State) (c k : Nat) : Quiet s (s.register c k) := by
  simp only [State.register]
  split
  · exact Quiet.rfl' _
  · exact ((quiet_owner s _).trans (quiet_fitSlice ..)).trans (quiet_fitL1 ..)
theorem quiet_unregister (s : State) (pa n : Nat) : Quiet s (s.unregister pa n) := quiet_owner ..
theorem quiet_dropL1 (s : State) (c : Nat) : Quiet s (s.dropL1 c) := quiet_l1 ..
theorem quiet_dropL1At (s : State) (c pa n : Nat) : Quiet s (s.dropL1At c pa n) := quiet_l1 ..
theorem quiet_dropAllL1At (s : State) (pa n : Nat) : Quiet s (s.dropAllL1At pa n) := quiet_l1 ..
theorem quiet_dropDieLine (s : State) (d l : Nat) : Quiet s (s.dropDieLine d l) := Quiet.of rfl rfl rfl rfl rfl rfl rfl rfl
theorem quiet_recallDieLine (s : State) (d l : Nat) : Quiet s (s.recallDieLine d l) := quiet_owner ..
theorem quiet_setMsi (s : State) (l : Nat) (m : Msi) : Quiet s (s.setMsi l m) := Quiet.of rfl rfl rfl rfl rfl rfl rfl rfl
theorem quiet_evictLine (s : State) (d l : Nat) : Quiet s (s.evictLine d l) := by
  simp only [State.evictLine]
  refine ((quiet_dropDieLine ..).trans (quiet_setMsi ..)).trans (Quiet.foldl _ (fun s pa => ?_) _ _)
  split
  · exact Quiet.rfl' _
  · exact (quiet_bridge s _).trans (quiet_send ..)
theorem quiet_fitL2 (s : State) (d l : Nat) : Quiet s (s.fitL2 d l) := by
  simp only [State.fitL2]
  split
  · exact Quiet.rfl' _
  · split
    · exact quiet_evictLine ..
    · exact Quiet.rfl' _
theorem quiet_dirRead (s : State) (d pa : Nat) (nc : Bool) : Quiet s (s.dirRead d pa nc) := by
  simp only [State.dirRead]
  split
  · split
    · exact (quiet_setMsi ..).trans (quiet_fitL2 ..)
    · exact Quiet.rfl' _
  · split
    · exact (quiet_setMsi ..).trans (quiet_fitL2 ..)
    · exact Quiet.rfl' _
  · split
    · exact Quiet.rfl' _
    · split
      · exact ((quiet_recallDieLine ..).trans (quiet_setMsi ..)).trans (quiet_fitL2 ..)
      · exact (quiet_recallDieLine ..).trans (quiet_setMsi ..)
theorem quiet_dirWrite (s : State) (d pa : Nat) (nc : Bool) : Quiet s (s.dirWrite d pa nc) := by
  simp only [State.dirWrite]
  generalize List.filter (fun x => x != d) _ = l
  have h := Quiet.foldl (fun (s : State) d => s.dropDieLine d (pa / 128)) (fun s x => quiet_dropDieLine ..) l s
  split
  · exact h.trans (quiet_setMsi ..)
  · exact (h.trans (quiet_setMsi ..)).trans (quiet_fitL2 ..)
theorem quiet_bridgeRead (s : State) (d pa : Nat) : Quiet s (s.bridgeRead d pa) := by
  simp only [State.bridgeRead]
  split
  · exact ((quiet_bridge s _).trans (quiet_send ..)).trans (quiet_fitL2 ..)
  · exact Quiet.rfl' _
theorem quiet_bridgeOwn (s : State) (d pa : Nat) : Quiet s (s.bridgeOwn d pa) := by
  simp only [State.bridgeOwn]
  split
  · exact Quiet.rfl' _
  · exact Quiet.rfl' _
  · exact ((quiet_bridge s _).trans (quiet_send ..)).trans (quiet_fitL2 ..)
theorem quiet_bridgeWrite (s : State) (d pa : Nat) : Quiet s (s.bridgeWrite d pa) := (quiet_bridgeOwn ..).trans (quiet_bridge ..)
theorem quiet_hostWrite (s : State) (pa : Nat) (b : List Byte) : Quiet s (s.hostWrite pa b) := (quiet_bridge s _).trans (quiet_send ..)
theorem quiet_reachRead (s : State) (a : Agent) (pa n : Nat) : Quiet s (s.reachRead a pa n) := by
  simp only [State.reachRead]
  split
  · split
    · exact quiet_send ..
    · exact Quiet.foldl _ (fun s x => quiet_bridgeRead s _ x) _ s
  · split
    · exact quiet_send ..
    · exact Quiet.foldl _ (fun s x => quiet_dirRead s _ x _) _ s
theorem quiet_reachOwn (s : State) (a : Agent) (pa n : Nat) : Quiet s (s.reachOwn a pa n) := by
  simp only [State.reachOwn]
  split
  · exact Quiet.foldl _ (fun s x => quiet_bridgeOwn s _ x) _ s
  · exact Quiet.rfl' _
theorem quiet_reachWrite (s : State) (a : Agent) (pa : Nat) (b : List Byte) : Quiet s (s.reachWrite a pa b) := by
  simp only [State.reachWrite]
  split
  · exact quiet_send ..
  · have h : Quiet s (if s.viaHost pa = true then (if a.nc = true then s.hostWrite pa b
          else (blocksOf 64 pa b.length).foldl (fun s h => s.bridgeWrite a.die h) s)
        else (blocksOf 128 pa b.length).foldl (fun s l => s.dirWrite a.die l a.nc) s) := by
      split
      · split
        · exact quiet_hostWrite ..
        · exact Quiet.foldl _ (fun s x => quiet_bridgeWrite s _ x) _ s
      · exact Quiet.foldl _ (fun s x => quiet_dirWrite s _ x _) _ s
    split
    · exact h.trans (quiet_unregister ..)
    · generalize (if s.viaHost pa = true then _ else _ : State) = u at h ⊢
      split
      · exact (h.trans (quiet_dropL1At ..)).trans (quiet_unregister ..)
      · exact (h.trans (quiet_dropL1At ..)).trans (Quiet.foldl _ (fun s k => quiet_register s _ k) _ _)
theorem quiet_watchTest (s : State) (pa n : Nat) : Quiet s (s.watchTest pa n) := by
  simp only [State.watchTest]
  apply Quiet.foldl
  intro s e
  split
  · split
    · exact Quiet.rfl' _
    · exact Quiet.of rfl rfl rfl rfl rfl rfl rfl rfl
  · exact Quiet.rfl' _
theorem quiet_teleWrite (s : State) (b : List Byte) : ∀ t, s.teleWrite b = some t → Quiet s t := by
  intro t h
  simp only [State.teleWrite] at h
  split at h
  · cases h; exact quiet_barPut ..
  · split at h
    · cases h; exact Quiet.rfl' _
    · split at h
      · cases h
      · cases h
        exact Quiet.iteStep (Quiet.iteStep (((quiet_reachWrite ..).trans (quiet_store ..)).trans (quiet_barPut ..))
          (quiet_watchTest ..)) (quiet_send ..)
theorem quiet_teleFlush (l : List (List Byte)) (s : State) : Quiet s (State.teleFlush l s) := by
  refine (quiet_teleq s []).trans (Quiet.foldl _ (fun s b => ?_) l _)
  split
  · cases h : s.teleWrite b with
    | none => exact quiet_teleq ..
    | some t => exact quiet_teleWrite s b t h
  · exact quiet_teleq ..
theorem quiet_telemetry (s : State) (ty unit detail ctx q : Nat) (gen : Word) (idx : Nat) : Quiet s (s.telemetry ty unit detail ctx q gen idx) :=
  quiet_teleFlush ..

theorem quiet_errs (s : State) (x : Tbl Unit) : Quiet s { s with errs := x } := Quiet.of rfl rfl rfl rfl rfl rfl rfl rfl
theorem quiet_walkCache (s : State) (x : List WalkEntry) : Quiet s { s with walkCache := x } := Quiet.of rfl rfl rfl rfl rfl rfl rfl rfl
theorem quiet_testErr (s : State) (e : Nat) (ue : Bool) : Quiet s (s.testErr e ue) := by
  simp only [State.testErr]
  generalize (if ue = true then 32 else 0) = lo
  generalize 2 * e + (if ue = true then 1 else 0) = k
  split
  · exact (quiet_errs s _).trans (quiet_telemetry ..)
  · exact Quiet.rfl' _
theorem quiet_countErr (s : State) (e : Nat) (ue : Bool) : Quiet s (s.countErr e ue) := (quiet_barPut ..).trans (quiet_testErr ..)
theorem quiet_testCount (s : State) (root key : Nat) : Quiet s (s.testCount root key) := by
  simp only [State.testCount]
  split
  · exact Quiet.rfl' _
  · split
    · exact (quiet_updGrid ..).trans (quiet_telemetry ..)
    · exact Quiet.rfl' _
theorem quiet_countOne (s : State) (root key n : Nat) : Quiet s (s.countOne root key n) := (quiet_updGrid ..).trans (quiet_testCount ..)
theorem quiet_tally (s : State) (root : Nat) (l : List Count) : Quiet s (s.tally root l) := by
  apply Quiet.foldl
  intro s c
  apply Quiet.foldl
  intro s x
  split
  · exact quiet_countOne ..
  · exact Quiet.rfl' _

theorem quiet_perform (s : State) (a : Agent) (pa : Nat) (b : List Byte) : Quiet s (s.perform a pa b) := by
  simp only [State.perform]
  split
  · exact quiet_countErr ..
  · have h := (quiet_reachWrite s a pa b).trans (quiet_store _ pa b)
    split
    · exact h.trans (quiet_watchTest ..)
    · exact h
theorem quiet_redbuf (s : State) (x : List RedEntry) : Quiet s { s with redbuf := x } := Quiet.of rfl rfl rfl rfl rfl rfl rfl rfl
theorem quiet_memPoison (s : State) (x : Tbl Unit) : Quiet s { s with memPoison := x } := Quiet.of rfl rfl rfl rfl rfl rfl rfl rfl
theorem quiet_mergeEntry (s : State) (e : RedEntry) : Quiet s (s.mergeEntry e) := by
  have h := quiet_redbuf s (s.redbuf.filter (fun (x : RedEntry) => x != e))
  simp only [State.mergeEntry]
  split
  · exact h.trans (quiet_countErr ..)
  · refine Quiet.trans (Quiet.iteStep (h.trans ?_) (quiet_memPoison ..)) (quiet_tally ..)
    split
    · exact (quiet_send ..).trans (quiet_store ..)
    · exact quiet_perform ..
theorem quiet_mergeWhere (s : State) (p : RedEntry → Bool) : Quiet s (s.mergeWhere p) := Quiet.foldl _ quiet_mergeEntry _ _
theorem quiet_mergeAt (s : State) (pa n : Nat) : Quiet s (s.mergeAt pa n) := quiet_mergeWhere ..
theorem quiet_mergeRelease (s : State) (c k : Nat) : Quiet s (s.mergeRelease c k) := quiet_mergeWhere ..
theorem quiet_write (s : State) (a : Agent) (pa : Nat) (b : List Byte) : Quiet s (s.write a pa b) := (quiet_mergeAt ..).trans (quiet_perform ..)
theorem quiet_readPoint (s : State) (a : Agent) (pa n : Nat) : Quiet s (s.readPoint a pa n).2 := by
  simp only [State.readPoint]
  split
  · exact quiet_countErr ..
  · have h := (quiet_mergeAt s pa n).trans (quiet_reachRead _ a pa n)
    cases hc : a.core with
    | none => simpa using h
    | some c => exact h.trans (quiet_dropL1At ..)
theorem quiet_fillL1 (s : State) (c g : Nat) : Quiet s (s.fillL1 c g) := by
  simp only [State.fillL1]
  refine Quiet.foldl _ (fun s k => ?_) _ _
  split
  · exact quiet_l1 ..
  · exact (quiet_l1 s _).trans (quiet_fitL1 ..)
theorem quiet_readGranule (s : State) (a : Agent) (pa n : Nat) : Quiet s (s.readGranule a pa n).2 := by
  simp only [State.readGranule]
  split
  · exact quiet_readPoint ..
  · split
    · exact quiet_readPoint ..
    · split
      · exact Quiet.rfl' _
      · exact (quiet_readPoint ..).trans (quiet_fillL1 ..)
theorem quiet_readPlain (s : State) (a : Agent) (pa n : Nat) : Quiet s (s.readPlain a pa n).2 := by
  simp only [State.readPlain]
  split
  · exact quiet_readPoint ..
  · refine Quiet.foldl₂ _ (fun x g => ?_) _ ((⟨[], false⟩ : Got), s)
    exact quiet_readGranule x.2 a _ _
theorem quiet_readPlace (s : State) (a : Agent) (p : Place) (n : Nat) (pt : Bool) : Quiet s (s.readPlace a p n pt).2 := by
  simp only [State.readPlace]
  split
  · split
    · exact quiet_readPoint ..
    · exact quiet_readPlain ..
  · split <;> exact Quiet.rfl' _
  · split <;> exact Quiet.rfl' _
  · split <;> exact Quiet.rfl' _

/-! ## Translation -/

theorem quiet_walkFrom (m : Mmu) (va : Nat) (l : List Nat) : ∀ (s : State) (base : Nat), Quiet s (State.walkFrom m va s l base).2 := by
  induction l with
  | nil => intro s b; exact Quiet.rfl' _
  | cons l r ih =>
    intro s b
    simp only [State.walkFrom]
    split
    · exact Quiet.rfl' _
    · rename_i pa _
      have h := quiet_readPoint s m.walker pa 8
      split
      · exact Quiet.rfl' _
      split
      · exact h
      · split
        · exact h
        · split
          · exact (h.trans (quiet_walkCache _ _)).trans (ih _ _)
          · exact h
theorem quiet_walk (s : State) (m : Mmu) (va : Nat) : Quiet s (s.walk m va).2 := by
  simp only [State.walk]
  split
  · exact quiet_walkFrom ..
  · split
    · exact quiet_walkFrom ..
    · split
      · exact quiet_walkFrom ..
      · exact quiet_walkFrom ..
theorem quiet_fillTlb (s : State) (m : Mmu) (va l v a : Nat) : Quiet s (s.fillTlb m va l v a) := Quiet.of rfl rfl rfl rfl rfl rfl rfl rfl
theorem quiet_translate (s : State) (m : Mmu) (va : Nat) : Quiet s (s.translate m va).2 := by
  simp only [State.translate]
  split
  · exact Quiet.rfl' _
  · have h := quiet_walk s m va
    cases hw : s.walk m va with
    | mk w s' =>
      rw [hw] at h
      cases w with
      | leaf => exact h.trans (quiet_fillTlb ..)
      | absent => exact h
      | malformed => exact h
      | stall => exact h
theorem quiet_resolve (s : State) (m : Mmu) (w : Want) (va : Nat) : Quiet s (s.resolve m w va).2 := by
  have h := quiet_translate s m va
  simp only [State.resolve]
  cases ht : s.translate m va with
  | mk x s1 =>
    rw [ht] at h
    cases x with
    | malformed => exact h
    | absent => exact h
    | stall => exact h
    | leaf l v at' =>
      dsimp only
      split
      · split
        · have h2 : Quiet s1 (s1.dropTlbAt at') := Quiet.of rfl rfl rfl rfl rfl rfl rfl rfl
          have h3 := h.trans (h2.trans (quiet_walkFrom m va [0, 1, 2, 3] (s1.dropTlbAt at') ((s1.dropTlbAt at').rootOf m.ctx)))
          cases hw : State.walkFrom m va (s1.dropTlbAt at') [0, 1, 2, 3] ((s1.dropTlbAt at').rootOf m.ctx) with
          | mk y s2 =>
            rw [hw] at h3
            cases y with
            | leaf => exact h3.trans (quiet_fillTlb ..)
            | absent => exact h3
            | malformed => exact h3
            | stall => exact h3
        · exact h
      · exact h
theorem quiet_touch (s : State) (m : Mmu) (x : Xlat) (wr : Bool) : Quiet s (s.touch m x wr) := by
  simp only [State.touch]
  split
  · exact (quiet_perform ..).trans (Quiet.of rfl rfl rfl rfl rfl rfl rfl rfl)
  · exact Quiet.rfl' _
theorem quiet_resolveRange (s : State) (m : Mmu) (w : Want) (va n : Nat) : Quiet s (s.resolveRange m w va n).2 := by
  simp only [State.resolveRange]
  refine Quiet.foldl₂ _ (fun x p => ?_) _ ((.ok [] : Range), s)
  cases x with
  | mk a b => cases a with
    | prot => exact Quiet.rfl' _
    | ok => exact quiet_resolve ..
    | absent => exact quiet_resolve ..
    | stall => exact quiet_resolve ..
theorem quiet_resolveLane (s : State) (g : Group) (wi : Nat) (m : Mmu) (w : Want) (r : Req) : Quiet s (s.resolveLane g wi m w r).2 := by
  simp only [State.resolveLane]
  split
  · exact Quiet.rfl' _
  · exact Quiet.rfl' _
  · have h := quiet_resolveRange s m w r.ptr r.size
    cases hr : s.resolveRange m w r.ptr r.size with
    | mk x s' =>
      rw [hr] at h
      cases x with
      | ok => exact h
      | prot => exact h
      | absent => exact h
      | stall => exact h
theorem quiet_resolveLanes (s : State) (g : Group) (wi : Nat) (m : Mmu) (w : Want) (l : List Req) : Quiet s (s.resolveLanes g wi m w l).2 := by
  simp only [State.resolveLanes]
  refine Quiet.foldl₂ _ (fun x r => ?_) _ (([] : List Lane), s)
  exact quiet_resolveLane x.2 g wi m w r
theorem quiet_constWord (s : State) (core pa : Nat) : Quiet s (s.constWord core pa).2 := by
  simp only [State.constWord]
  split
  · exact Quiet.rfl' _
  · have h := quiet_readPlain s ⟨none, dieOf core, false⟩ pa 4
    split
    · exact h
    · exact h.trans (Quiet.of rfl rfl rfl rfl rfl rfl rfl rfl)
theorem quiet_readReady (s : State) (m : Mmu) (nc pt : Bool) (r : Ready) : Quiet s (s.readReady m nc pt r).2 := by
  simp only [State.readReady]
  refine Quiet.trans (Quiet.foldl _ (fun s x => quiet_touch s m x false) r.xs s) ?_
  refine Quiet.foldl₂ _ (fun x p => ?_) _ ((⟨[], false⟩ : Got), r.xs.foldl (fun (s : State) x => s.touch m x false) s)
  exact quiet_readPlace x.2 _ p.1 p.2 pt
theorem quiet_readAll (s : State) (m : Mmu) (nc pt : Bool) (l : List Ready) : Quiet s (s.readAll m nc pt l).2 := by
  simp only [State.readAll]
  refine Quiet.foldl₂ _ (fun x r => ?_) _ (([] : List Got), s)
  exact quiet_readReady x.2 m nc pt r

end Sys2Proof.Machine
end

