-- ==== Sys2Proof/Laws/Issue.lean ====
section
/-! SUPPORT. Laws of issue and completion: what the issuing sub-group is after an update of its warp, and what the
completion of an instruction changes. -/
namespace Sys2Proof.Machine

/-! ## Updates of one group in a row -/

theorem State.updGroup_comp (s : State) (gid : Nat) (f h : Group → Group) (hf : ∀ g, (f g).id = g.id) :
    (s.updGroup gid f).updGroup gid h = s.updGroup gid (fun g => h (f g)) := by
  simp only [State.updGroup, List.map_map]
  congr 1
  apply List.map_congr_left
  intro g _
  by_cases hg : g.id = gid <;> simp [hg, hf]

theorem State.updGroup_others (s : State) (gid : Nat) (f : Group → Group) : OtherGroups gid s (s.updGroup gid f) := by
  refine ⟨by simp [State.updGroup], ?_⟩
  intro k g hk hg
  simp [State.updGroup, List.getElem?_map, hk, hg]

theorem Group.updWarp_others (g : Group) (wi : Nat) (f : Warp → Warp) : OtherWarps wi g (g.updWarp wi f) := by
  refine ⟨by simp [Group.updWarp], ?_⟩
  intro k w hk hw
  simp [Group.updWarp, List.getElem?_map, hk, hw]

theorem OtherWarps.trans {wi : Nat} {a b c : Group} (h : OtherWarps wi a b) (k : OtherWarps wi b c) : OtherWarps wi a c :=
  ⟨k.1.trans h.1, fun n w hn hw => k.2 n w (h.2 n w hn hw) hw⟩

theorem OtherWarps.rfl' {wi : Nat} (a : Group) : OtherWarps wi a a := ⟨rfl, fun _ _ h _ => h⟩

/-- `Warp.updSub` finds the same running sub-group, changed, when the change keeps that it runs. -/
theorem find?_run_map (l : List SubGroup) (id : Nat) (f : SubGroup → SubGroup) (hf : ∀ u, (f u).run.isSome = u.run.isSome) :
    (l.map (fun u => if u.id = id then f u else u)).find? (fun u => u.run.isSome)
      = (l.find? (fun u => u.run.isSome)).map (fun u => if u.id = id then f u else u) := by
  apply find?_map_keep
  intro u _
  by_cases h : u.id = id <;> simp [h, hf]

/-! ## The issuer -/

/-- What the issuer is, in parts. -/
theorem State.issuer?_some {s : State} {i : Iss} (h : s.issuer? = some i) :
    s.cur = some i.q ∧ (tget idleQuad s.quads i.q).run = some (i.g.id, i.w.idx) ∧ s.group? i.g.id = some i.g
      ∧ i.g.warp? i.w.idx = some i.w ∧ i.w.subs.find? (fun u => u.run.isSome) = some i.u ∧ i.u.run = some i.c
      ∧ decodeHeader i.c.word = some i.h := by
  simp only [State.issuer?] at h
  split at h; · cases h
  rename_i q hq
  split at h; · cases h
  rename_i gid wi hr
  split at h; · cases h
  rename_i g hg
  split at h; · cases h
  rename_i w hw
  split at h; · cases h
  rename_i u hu
  split at h; · cases h
  rename_i c hc
  split at h; · cases h
  rename_i hd hh
  cases h
  have e1 := State.group?_id hg
  have e2 := Group.warp?_idx hw
  subst e1 e2
  exact ⟨hq, hr, hg, hw, hu, hc, hh⟩

theorem State.issuer?_of {s : State} {i : Iss} (h1 : s.cur = some i.q)
    (h2 : (tget idleQuad s.quads i.q).run = some (i.g.id, i.w.idx)) (h3 : s.group? i.g.id = some i.g)
    (h4 : i.g.warp? i.w.idx = some i.w) (h5 : i.w.subs.find? (fun u => u.run.isSome) = some i.u) (h6 : i.u.run = some i.c)
    (h7 : decodeHeader i.c.word = some i.h) : s.issuer? = some i := by
  simp only [State.issuer?, h1, h2, h3, h4, h5, h6, h7]

/-- The issuer depends only on the current quad, the quads and the groups. -/
theorem State.issuer?_congr {s t : State} (h1 : t.cur = s.cur) (h2 : t.quads = s.quads) (h3 : t.groups = s.groups) :
    t.issuer? = s.issuer? := by
  simp only [State.issuer?, State.group?, h1, h2, h3]

/-- The issuer after an update of its group that keeps which warp and sub-group run. -/
theorem State.issuer?_updGroup {s : State} {i : Iss} (h : s.issuer? = some i) (F : Group → Group) (w : Warp) (u : SubGroup)
    (c : Clause) (hid : ∀ g, (F g).id = g.id) (hw : (F i.g).warp? i.w.idx = some w)
    (hu : w.subs.find? (fun u => u.run.isSome) = some u) (hc : u.run = some c) (hword : c.word = i.c.word) :
    (s.updGroup i.g.id F).issuer? = some { i with g := F i.g, w := w, u := u, c := c } := by
  obtain ⟨h1, h2, h3, -, -, -, h7⟩ := State.issuer?_some h
  have hi := Group.warp?_idx hw
  apply State.issuer?_of
  · exact h1
  · simpa [hid, hi] using h2
  · simp only [hid]
    rw [State.group?_updGroup_self _ _ _ hid, h3]; rfl
  · simpa [hi] using hw
  · exact hu
  · exact hc
  · simpa [hword] using h7

/-! ## Completion -/

/-- Queue registers of a group after the pops of an instruction (R253). -/
def dryQueues (w : Nat) (dry : List Nat) (t : Tbl QueueReg) : Tbl QueueReg :=
  dry.foldl (fun t n => tins t n (let q := tget emptyQueue t n
                                  { q with dry := if q.dry.contains w then q.dry else q.dry ++ [w] })) t

theorem dryQueues_get (w : Nat) (dry : List Nat) (t : Tbl QueueReg) (n : Nat) :
    (∃ d, tget emptyQueue (dryQueues w dry t) n = { tget emptyQueue t n with dry := d })
      ∧ (n ∉ dry → tget emptyQueue (dryQueues w dry t) n = tget emptyQueue t n) := by
  induction dry generalizing t with
  | nil => exact ⟨⟨_, rfl⟩, fun _ => rfl⟩
  | cons k l ih =>
    simp only [dryQueues, List.foldl_cons] at ih ⊢
    obtain ⟨⟨d, h1⟩, h2⟩ := ih (tins t k (let q := tget emptyQueue t k
                                  { q with dry := if q.dry.contains w then q.dry else q.dry ++ [w] }))
    constructor
    · rw [h1, tget_tins]
      by_cases hk : n = k
      · subst hk; exact ⟨d, by simp⟩
      · exact ⟨d, by simp [hk]⟩
    · intro hn
      have hn' : n ≠ k ∧ n ∉ l := by simpa using hn
      rw [h2 hn'.2, tget_tins, if_neg hn'.1]

/-- The values that the instruction popped leave its clause's reservation (R125). -/
def Rdy.popsLeft (r : Rdy) (w : Warp) : Warp :=
  w.updSub r.i.u.id (fun u => { u with run := u.run.map (fun c => { c with pops := r.pops }) })
theorem Rdy.popsLeft_idx (r : Rdy) (w : Warp) : (r.popsLeft w).idx = w.idx := rfl

/-- The group's own part of a commit. -/
def Rdy.commitG (r : Rdy) (g : Group) : Group :=
  if r.e.pops.isEmpty then g
  else { (g.updWarp r.i.w.idx r.popsLeft) with queues := dryQueues r.i.w.idx r.dry g.queues }

theorem Rdy.commit_eq (r : Rdy) (s : State) : r.commit s = s.updGroup r.i.g.id r.commitG := by
  by_cases h : r.e.pops.isEmpty = true
  · simp only [Rdy.commit, h, if_true]
    have : r.commitG = id := by funext g; simp [Rdy.commitG, h]
    rw [this]
    simp [State.updGroup]
  · simp only [Rdy.commit, h]
    simp only [Iss.updG, Iss.updU, State.updSub, State.updWarp]
    rw [if_neg (by simp), State.updGroup_comp]
    · congr 1
      funext g
      simp only [Rdy.commitG, h, dryQueues]
      rfl
    · intro g; rfl

/-- What the completion of an instruction does to its warp: only where the sub-groups stand, and the counter. -/
def Progressed (w w' : Warp) : Prop :=
  w' = { w with subs := w'.subs, active := w'.active, runs := w'.runs, perf := w'.perf }
    ∧ ∀ n, tget 0 w'.perf n = tget 0 w.perf n + (if n = 1 then 1 else 0)

theorem Warp.count1_perf (w : Warp) (n : Nat) :
    tget 0 (w.count 1 1).perf n = tget 0 w.perf n + (if n = 1 then 1 else 0) := by
  simp only [Warp.count, tget_tput]
  by_cases h : n = 1
  · subst h; simp
  · simp [h]

theorem Warp.splitSub_rest (w : Warp) (u : SubGroup) (n : Nat) (l : List Part) :
    w.splitSub u n l = { w with subs := (w.splitSub u n l).subs, active := (w.splitSub u n l).active,
                                runs := (w.splitSub u n l).runs } := by
  simp only [Warp.splitSub]; split <;> rfl

theorem Warp.splitSub_perf (w : Warp) (u : SubGroup) (n : Nat) (l : List Part) : (w.splitSub u n l).perf = w.perf := by
  simp only [Warp.splitSub]; split <;> rfl

theorem Group.updWarp_comp (g : Group) (wi : Nat) (f h : Warp → Warp) (hf : ∀ w, (f w).idx = w.idx) :
    (g.updWarp wi f).updWarp wi h = g.updWarp wi (fun w => h (f w)) := by
  simp only [Group.updWarp, List.map_map]
  congr 1
  apply List.map_congr_left
  intro w _
  by_cases hw : w.idx = wi <;> simp [hw, hf]

theorem State.updWarp_comp (s : State) (gid wi : Nat) (f h : Warp → Warp) (hf : ∀ w, (f w).idx = w.idx) :
    (s.updWarp gid wi f).updWarp gid wi h = s.updWarp gid wi (fun w => h (f w)) := by
  simp only [State.updWarp]
  rw [State.updGroup_comp]
  · congr 1
    funext g
    exact Group.updWarp_comp g wi f h hf
  · intro g; rfl

/-- The completion of an instruction, as one update of the issuer's group. -/
theorem Iss.next_eq (i : Iss) (s : State) :
    ∃ (F : Warp → Warp) (q : Tbl Quad) (n : Nat), i.next s = { s.updWarp i.g.id i.w.idx F with quads := q, nextId := n }
      ∧ ∀ w, Progressed w (F w) := by
  simp only [Iss.next]
  by_cases h : i.isLast = true
  · simp only [h, if_true, Iss.endClause]
    refine ⟨fun w => (w.count 1 1).splitSub i.u s.nextId (sortParts (mergeParts [i.fallPart i.u.lanes])),
      (s.freeQuad i.g.id i.w.idx).quads, s.nextId + (sortParts (mergeParts [i.fallPart i.u.lanes])).length, ?_, ?_⟩
    · have h2 : (s.updWarp i.g.id i.w.idx (fun w => w.count 1 1)).updWarp i.g.id i.w.idx
          (fun w => w.splitSub i.u s.nextId (sortParts (mergeParts [i.fallPart i.u.lanes])))
          = s.updWarp i.g.id i.w.idx (fun w => (w.count 1 1).splitSub i.u s.nextId (sortParts (mergeParts [i.fallPart i.u.lanes]))) :=
        State.updWarp_comp _ _ _ _ _ (fun _ => rfl)
      simp only [State.updWarp_nextId]
      rw [h2]
      rfl
    · intro w
      refine ⟨?_, ?_⟩
      · dsimp only
        rw [Warp.splitSub_perf]
        exact Warp.splitSub_rest ..
      · intro n
        dsimp only
        rw [Warp.splitSub_perf]
        exact Warp.count1_perf w n
  · simp only [h]
    refine ⟨fun w => (w.count 1 1).updSub i.u.id (fun u => { u with pc := u.pc + 8, allot := 0 }), s.quads, s.nextId, ?_, ?_⟩
    · have h2 : (s.updWarp i.g.id i.w.idx (fun w => w.count 1 1)).updWarp i.g.id i.w.idx
          (fun w => w.updSub i.u.id (fun u => { u with pc := u.pc + 8, allot := 0 }))
          = s.updWarp i.g.id i.w.idx (fun w => (w.count 1 1).updSub i.u.id (fun u => { u with pc := u.pc + 8, allot := 0 })) :=
        State.updWarp_comp _ _ _ _ _ (fun _ => rfl)
      simp only [State.updSub]
      rw [if_neg (by simp), h2]
      rfl
    · intro w
      exact ⟨rfl, fun n => Warp.count1_perf w n⟩

/-! ## An instruction that writes registers and completes -/

/-- An update of the issuing warp that keeps its number and its sub-groups. -/
def KeepsRun (f : Warp → Warp) : Prop := ∀ w, (f w).idx = w.idx ∧ (f w).subs = w.subs

/-- An update of a warp that keeps its number. -/
def KeepsRunIdx (f : Warp → Warp) : Prop := ∀ w, (f w).idx = w.idx

/-- The completion after an update of the issuing warp, as one update of its group. -/
theorem Rdy.done_eq (r : Rdy) (s : State) (hi : s.issuer? = some r.i) (K : Group → Group)
    (hK : ∀ g, (K g).id = g.id ∧ ∃ f, (K g).warps = (g.updWarp r.i.w.idx f).warps ∧ KeepsRun f) :
    ∃ (F : Warp → Warp) (q : Tbl Quad) (n : Nat),
      r.done (s.updGroup r.i.g.id K) =
        { s.updGroup r.i.g.id (fun g => (r.commitG (K g)).updWarp r.i.w.idx F) with quads := q, nextId := n }
        ∧ ∀ w, Progressed w (F w) := by
  obtain ⟨-, -, -, h4, h5, h6, -⟩ := State.issuer?_some hi
  simp only [Rdy.done, Rdy.commit_eq]
  rw [State.updGroup_comp _ _ _ _ (fun g => (hK g).1)]
  have hcid : ∀ g, (r.commitG g).id = g.id := by
    intro g; simp only [Rdy.commitG]; split <;> rfl
  -- the issuer's warp and sub-group after the update
  obtain ⟨f, hf, hk⟩ := (hK r.i.g).2
  have hw0 : (K r.i.g).warp? r.i.w.idx = some (f r.i.w) := by
    have : (K r.i.g).warp? r.i.w.idx = (r.i.g.updWarp r.i.w.idx f).warp? r.i.w.idx := by
      simp only [Group.warp?, hf]
    rw [this, Group.warp?_updWarp_self _ _ _ (fun w => (hk w).1), h4]; rfl
  have key : ∃ w u c, (r.commitG (K r.i.g)).warp? r.i.w.idx = some w ∧ w.subs.find? (fun u => u.run.isSome) = some u
      ∧ u.run = some c ∧ c.word = r.i.c.word ∧ w.idx = r.i.w.idx ∧ u.id = r.i.u.id := by
    by_cases hp : r.e.pops.isEmpty = true
    · refine ⟨f r.i.w, r.i.u, r.i.c, ?_, ?_, h6, rfl, (hk _).1, rfl⟩
      · simp only [Rdy.commitG, hp, if_true]; exact hw0
      · rw [(hk _).2]; exact h5
    · refine ⟨r.popsLeft (f r.i.w),
        { r.i.u with run := some { r.i.c with pops := r.pops } }, { r.i.c with pops := r.pops }, ?_, ?_, rfl, rfl, (hk _).1, rfl⟩
      · simp only [Rdy.commitG, hp]
        rw [if_neg (by simp)]
        have : ∀ (g : Group) (t : Tbl QueueReg) (j : Nat), ({ g with queues := t } : Group).warp? j = g.warp? j := fun _ _ _ => rfl
        rw [this, Group.warp?_updWarp_self _ _ _ r.popsLeft_idx, hw0]; rfl
      · simp only [Rdy.popsLeft, Warp.updSub, (hk _).2]
        rw [find?_run_map _ _ _ (fun u => by cases u.run <;> rfl), h5]
        simp [h6]
  obtain ⟨w, u, c, k1, k2, k3, k4, k5, k6⟩ := key
  have hiss := State.issuer?_updGroup hi (fun g => r.commitG (K g)) w u c (fun g => (hcid _).trans (hK g).1) k1 k2 k3 k4
  rw [hiss]
  obtain ⟨F, q, n, h, hP⟩ := Iss.next_eq { r.i with g := r.commitG (K r.i.g), w := w, u := u, c := c }
    (s.updGroup r.i.g.id (fun g => r.commitG (K g)))
  refine ⟨F, q, n, ?_, hP⟩
  simp only [h]
  have e1 : (r.commitG (K r.i.g)).id = r.i.g.id := (hcid _).trans (hK _).1
  simp only [e1, k5, State.updWarp]
  rw [State.updGroup_comp]
  intro g; exact (hcid _).trans (hK g).1

/-- What an instruction may do to its group before it completes: its own registers, and a push. -/
structure GroupWrote (r : Rdy) (K : Group → Group) (x : Writes) (push : Option (Nat × Word)) : Prop where
  id : ∀ g, (K g).id = g.id
  rest : ∀ g, K g = { g with warps := (K g).warps, queues := (K g).queues }
  warp : ∃ f, KeepsRun f ∧ (∀ g, (K g).warps = (g.updWarp r.i.w.idx f).warps)
    ∧ ∀ w, f w = { w with vregs := (f w).vregs, sregs := (f w).sregs, tokens := (f w).tokens, preds := (f w).preds }
      ∧ (∀ n t, t < 32 → (f w).readV n t = (x.v n t).getD (w.readV n t))
      ∧ (∀ n, (f w).readS n = (x.s n).getD (w.readS n))
      ∧ (∀ n, tfind (f w).tokens n = if (x.s n).isSome then none else tfind w.tokens n)
      ∧ (∀ n t, t < 32 → laneIn ((f w).readK n) t = (x.k n t).getD (laneIn (w.readK n) t))
  queue : ∀ n, ∃ l, tget emptyQueue (K r.i.g).queues n = { tget emptyQueue r.i.g.queues n with entries := l }
    ∧ (match push with
      | some (m, v) => if n = m then Filled r.i.w.idx r.i.u.id v
          ((r.i.g.palOps.filter (fun o => o.warp == r.i.w.idx)).map (fun o => o.id)) (tget emptyQueue r.i.g.queues n).entries l
        else l = (tget emptyQueue r.i.g.queues n).entries
      | none => l = (tget emptyQueue r.i.g.queues n).entries)

theorem Progressed.wrote {w v w' : Warp} {x : Writes}
    (h1 : v = { w with vregs := v.vregs, sregs := v.sregs, tokens := v.tokens, preds := v.preds })
    (h2 : ∀ n t, t < 32 → v.readV n t = (x.v n t).getD (w.readV n t)) (h3 : ∀ n, v.readS n = (x.s n).getD (w.readS n))
    (h4 : ∀ n, tfind v.tokens n = if (x.s n).isSome then none else tfind w.tokens n)
    (h5 : ∀ n t, t < 32 → laneIn (v.readK n) t = (x.k n t).getD (laneIn (w.readK n) t)) (h : Progressed v w') : w.Wrote w' x := by
  obtain ⟨e, c⟩ := h
  have ev : w'.vregs = v.vregs := by rw [e]
  have es : w'.sregs = v.sregs := by rw [e]
  have et : w'.tokens = v.tokens := by rw [e]
  have ek : w'.preds = v.preds := by rw [e]
  have ep : v.perf = w.perf := by rw [h1]
  refine ⟨?_, ?_, ?_, ?_, ?_, ?_⟩
  · rw [e, h1]
  · intro n t ht; rw [← h2 n t ht]; simp only [Warp.readV, ev]
  · intro n; rw [← h3 n]; simp only [Warp.readS, es]
  · intro n; rw [et]; exact h4 n
  · intro n t ht; rw [← h5 n t ht]; simp only [Warp.readK, ek]
  · intro n; rw [c n, ep]

/-- A push merges reduction entries, which leaves what runs and every group as it is. -/
theorem Rdy.quiet_released (r : Rdy) (s : State) (push : Option (Nat × Word)) : Quiet s (r.released s push) :=
  Quiet.iteStep (Quiet.rfl' s) (quiet_mergeRelease ..)

/-- An instruction that writes registers and completes changes nothing else (R120, R156). -/
theorem Rdy.done_completed (r : Rdy) (s : State) (hi : s.issuer? = some r.i) (K : Group → Group) (x : Writes)
    (push : Option (Nat × Word)) (h : GroupWrote r K x push) : r.Completed s (r.done ((r.released s push).updGroup r.i.g.id K)) x push := by
  obtain ⟨f, hk, hf, hw⟩ := h.warp
  have hq := r.quiet_released s push
  have hi' : (r.released s push).issuer? = some r.i := by rw [State.issuer?_congr hq.cur hq.quads hq.groups]; exact hi
  obtain ⟨F, q, n, e, hP⟩ := r.done_eq _ hi' K (fun g => ⟨h.id g, f, hf g, hk⟩)
  obtain ⟨-, -, h3, h4, -, -, -⟩ := State.issuer?_some hi
  have hg : (r.released s push).group? r.i.g.id = some r.i.g := by simp only [State.group?, hq.groups]; exact h3
  have ho : ∀ f, OtherGroups r.i.g.id s ((r.released s push).updGroup r.i.g.id f) := by
    intro f
    have := State.updGroup_others (r.released s push) r.i.g.id f
    simpa only [OtherGroups, hq.groups] using this
  have hcid : ∀ g, (r.commitG g).id = g.id := by
    intro g; simp only [Rdy.commitG]; split <;> rfl
  have hid : ∀ g, ((r.commitG (K g)).updWarp r.i.w.idx F).id = g.id := fun g => (hcid _).trans (h.id g)
  rw [e]
  refine ⟨rfl, ho _, r.i.g, (r.commitG (K r.i.g)).updWarp r.i.w.idx F, r.i.w, ?_⟩
  have hcw : ∃ f', KeepsRunIdx f' ∧ (r.commitG (K r.i.g)).warps = (r.i.g.updWarp r.i.w.idx f').warps
      ∧ ∀ w, ∃ l, f' w = { f w with subs := l } := by
    by_cases hp : r.e.pops.isEmpty = true
    · exact ⟨f, fun w => (hk w).1, by simp only [Rdy.commitG, hp, if_true]; exact hf _, fun w => ⟨(f w).subs, rfl⟩⟩
    · refine ⟨fun w => r.popsLeft (f w),
        fun w => (hk w).1, ?_, fun w => ⟨_, rfl⟩⟩
      simp only [Rdy.commitG, hp]
      rw [if_neg (by simp)]
      rw [← Group.updWarp_comp _ _ f _ (fun w => (hk w).1)]
      simp only [Group.updWarp, hf]
  obtain ⟨f', hk', hcw', hl⟩ := hcw
  have hwp : ((r.commitG (K r.i.g)).updWarp r.i.w.idx F).warp? r.i.w.idx = some (F (f' r.i.w)) := by
    rw [Group.warp?_updWarp_self]
    · have : (r.commitG (K r.i.g)).warp? r.i.w.idx = (r.i.g.updWarp r.i.w.idx f').warp? r.i.w.idx := by
        simp only [Group.warp?, hcw']
      rw [this, Group.warp?_updWarp_self _ _ _ hk', h4]; rfl
    · intro w; rw [(hP w).1]
  refine ⟨F (f' r.i.w), h3, ?_, ?_, ?_, ?_, h4, hwp, ?_⟩
  · have : ∀ (t : State), ({ t with quads := q, nextId := n } : State).group? r.i.g.id = t.group? r.i.g.id := fun _ => rfl
    rw [this, State.group?_updGroup_self _ _ _ hid, hg]; rfl
  · have h1 := h.rest r.i.g
    have h2 : r.commitG (K r.i.g) = { K r.i.g with warps := (r.commitG (K r.i.g)).warps, queues := (r.commitG (K r.i.g)).queues } := by
      simp only [Rdy.commitG]; split <;> rfl
    have h3 : (r.commitG (K r.i.g)).updWarp r.i.w.idx F
        = { r.commitG (K r.i.g) with warps := ((r.commitG (K r.i.g)).updWarp r.i.w.idx F).warps } := rfl
    rw [h3, h2, h1]
  · refine OtherWarps.trans ?_ (Group.updWarp_others _ _ _)
    have := Group.updWarp_others r.i.g r.i.w.idx f'
    simp only [OtherWarps, hcw']
    exact this
  · intro m
    obtain ⟨l, hl1, hl2⟩ := h.queue m
    have hq : ∃ d, tget emptyQueue (r.commitG (K r.i.g)).queues m = { tget emptyQueue (K r.i.g).queues m with dry := d }
        ∧ (m ∉ r.dry → d = (tget emptyQueue (K r.i.g).queues m).dry) := by
      by_cases hp : r.e.pops.isEmpty = true
      · exact ⟨_, by simp only [Rdy.commitG, hp, if_true], fun _ => rfl⟩
      · obtain ⟨⟨d, h1⟩, h2⟩ := dryQueues_get r.i.w.idx r.dry (K r.i.g).queues m
        have hd : (r.commitG (K r.i.g)).queues = dryQueues r.i.w.idx r.dry (K r.i.g).queues := by
          simp only [Rdy.commitG, hp]; rfl
        refine ⟨d, by rw [hd]; exact h1, fun hm => ?_⟩
        have := h2 hm
        rw [h1] at this
        exact congrArg QueueReg.dry this
    obtain ⟨d, hd1, hd2⟩ := hq
    have hqq : ((r.commitG (K r.i.g)).updWarp r.i.w.idx F).queues = (r.commitG (K r.i.g)).queues := rfl
    simp only [hqq, hd1, hl1]
    refine ⟨trivial, fun hm => ?_, hl2⟩
    rw [hd2 hm, hl1]
  · obtain ⟨l, hl⟩ := hl r.i.w
    obtain ⟨w1, w2, w3, w4, w5⟩ := hw r.i.w
    have hp := hP (f' r.i.w)
    have hp2 : Progressed (f r.i.w) (F (f' r.i.w)) := by
      obtain ⟨a, b⟩ := hp
      refine ⟨?_, fun n => ?_⟩
      · rw [hl] at a; rw [hl]; exact a
      · have := b n; rw [hl] at this; rw [hl]; exact this
    exact Progressed.wrote w1 w2 w3 w4 w5 hp2

/-! ## What each kind of destination writes -/

theorem tget_queue_same (g : Group) (n : Nat) : tget emptyQueue g.queues n = { tget emptyQueue g.queues n with entries := (tget emptyQueue g.queues n).entries } := rfl

/-- An update of the issuing warp that writes vector registers alone. -/
theorem GroupWrote.ofWarp (r : Rdy) (f : Warp → Warp) (x : Writes) (hk : KeepsRun f)
    (h : ∀ w, f w = { w with vregs := (f w).vregs, sregs := (f w).sregs, tokens := (f w).tokens, preds := (f w).preds }
      ∧ (∀ n t, t < 32 → (f w).readV n t = (x.v n t).getD (w.readV n t))
      ∧ (∀ n, (f w).readS n = (x.s n).getD (w.readS n))
      ∧ (∀ n, tfind (f w).tokens n = if (x.s n).isSome then none else tfind w.tokens n)
      ∧ (∀ n t, t < 32 → laneIn ((f w).readK n) t = (x.k n t).getD (laneIn (w.readK n) t))) :
    GroupWrote r (fun g => g.updWarp r.i.w.idx f) x none :=
  ⟨fun _ => rfl, fun _ => rfl, ⟨f, hk, fun _ => rfl, h⟩, fun n => ⟨_, tget_queue_same _ n, rfl⟩⟩

theorem extract_lo (v : DWord) : v.extractLsb' 0 32 = (v.setWidth 32 : Word) := by
  apply BitVec.eq_of_getLsbD_eq; intro i hi; simp [hi]
theorem extract_hi (v : DWord) : v.extractLsb' 32 32 = ((v >>> 32).setWidth 32 : Word) := by
  apply BitVec.eq_of_getLsbD_eq; intro i hi; simp [hi]

theorem wrote_vec (w : Warp) (d : Nat) (act : Mask) (f : Nat → DWord) (n t : Nat) (ht : t < 32) :
    (w.writeVs d act (fun t => (f t).setWidth 32)).readV n t = ((vecWrites d false act f).v n t).getD (w.readV n t) := by
  rw [Warp.readV_writeVs _ _ _ _ _ _ ht]
  simp only [vecWrites, extract_lo]
  by_cases h1 : n = d
  · subst h1
    by_cases h2 : laneIn act t = true <;> by_cases h3 : n = 255 <;> simp [h2, h3]
  · have h4 : ¬ (n = d ∧ laneIn act t = true ∧ d ≠ 255) := fun h => h1 h.1
    rw [if_neg h4]
    by_cases h2 : laneIn act t = true ∧ n ≠ 255 <;> simp [h1]

theorem wrote_vec2 (w : Warp) (d : Nat) (act : Mask) (f : Nat → DWord) (n t : Nat) (ht : t < 32) :
    (w.writeVPair d act f).readV n t = ((vecWrites d true act f).v n t).getD (w.readV n t) := by
  rw [Warp.readV_writeVPair _ _ _ _ _ _ ht]
  simp only [vecWrites, extract_lo, extract_hi]
  by_cases h3 : n = 255
  · subst h3
    by_cases h1 : (255 : Nat) = d + 1
    · simp [h1]
    · by_cases h2 : (255 : Nat) = d
      · subst h2; simp
      · simp [h1, h2]
  · by_cases h1 : n = d + 1
    · subst h1
      by_cases h2 : laneIn act t = true <;> simp [h2, h3]
    · by_cases h4 : n = d
      · subst h4
        by_cases h2 : laneIn act t = true <;> simp [h2, h3]
      · simp [h1, h4]

theorem onlyVregs {w w' : Warp} (h : w' = { w with vregs := w'.vregs }) (x : Writes) (hs : x.s = fun _ => none)
    (hk : x.k = fun _ _ => none) (hv : ∀ n t, t < 32 → w'.readV n t = (x.v n t).getD (w.readV n t)) :
    (w'.idx = w.idx ∧ w'.subs = w.subs) ∧ w' = { w with vregs := w'.vregs, sregs := w'.sregs, tokens := w'.tokens, preds := w'.preds }
      ∧ (∀ n t, t < 32 → w'.readV n t = (x.v n t).getD (w.readV n t))
      ∧ (∀ n, w'.readS n = (x.s n).getD (w.readS n))
      ∧ (∀ n, tfind w'.tokens n = if (x.s n).isSome then none else tfind w.tokens n)
      ∧ (∀ n t, t < 32 → laneIn (w'.readK n) t = (x.k n t).getD (laneIn (w.readK n) t)) := by
  have es := congrArg Warp.sregs h
  have et := congrArg Warp.tokens h
  have ek := congrArg Warp.preds h
  have ei := congrArg Warp.idx h
  have eu := congrArg Warp.subs h
  dsimp only at es et ek ei eu
  refine ⟨⟨ei, eu⟩, ?_, hv, ?_, ?_, ?_⟩
  · rw [es, et, ek]; exact h
  · intro n; simp [hs, Warp.readS, es]
  · intro n; simp [hs, et]
  · intro n t _; simp [hk, Warp.readK, ek]

theorem GroupWrote.vec (r : Rdy) (d : Nat) (f : Nat → DWord) :
    GroupWrote r (fun g => g.updWarp r.i.w.idx (fun w => w.writeVs d r.act (fun t => (f t).setWidth 32))) (vecWrites d false r.act f) none :=
  GroupWrote.ofWarp r _ _ (fun w => (onlyVregs (w.writeVs_rest ..) (vecWrites d false r.act f) rfl rfl (wrote_vec w d r.act f)).1)
    (fun w => (onlyVregs (w.writeVs_rest ..) (vecWrites d false r.act f) rfl rfl (wrote_vec w d r.act f)).2)

theorem GroupWrote.vec2 (r : Rdy) (d : Nat) (f : Nat → DWord) :
    GroupWrote r (fun g => g.updWarp r.i.w.idx (fun w => w.writeVPair d r.act f)) (vecWrites d true r.act f) none :=
  GroupWrote.ofWarp r _ _ (fun w => (onlyVregs (w.writeVPair_rest ..) (vecWrites d true r.act f) rfl rfl (wrote_vec2 w d r.act f)).1)
    (fun w => (onlyVregs (w.writeVPair_rest ..) (vecWrites d true r.act f) rfl rfl (wrote_vec2 w d r.act f)).2)

theorem GroupWrote.none' (r : Rdy) : GroupWrote r (fun g => g) noWrites none :=
  ⟨fun _ => rfl, fun _ => rfl, ⟨fun w => w, fun _ => ⟨rfl, rfl⟩, fun g => by simp [Group.updWarp],
    fun w => ⟨rfl, fun _ _ _ => rfl, fun _ => rfl, fun _ => rfl, fun _ _ _ => rfl⟩⟩, fun n => ⟨_, tget_queue_same _ n, rfl⟩⟩

theorem GroupWrote.sca (r : Rdy) (d : Nat) (v : DWord) :
    GroupWrote r (fun g => g.updWarp r.i.w.idx (fun w => w.writeS d (v.setWidth 32))) (scaWrites d false v) none := by
  apply GroupWrote.ofWarp
  · intro w; exact ⟨rfl, rfl⟩
  · intro w
    refine ⟨rfl, fun _ _ _ => rfl, fun n => ?_, fun n => ?_, fun _ _ _ => rfl⟩
    · rw [Warp.readS_writeS]
      by_cases h : n = d <;> simp [scaWrites, h, extract_lo]
    · rw [Warp.tokens_writeS]
      by_cases h : n = d <;> simp [scaWrites, h]

theorem GroupWrote.sca2 (r : Rdy) (d : Nat) (v : DWord) :
    GroupWrote r (fun g => g.updWarp r.i.w.idx (fun w => w.writeSPair d v)) (scaWrites d true v) none := by
  apply GroupWrote.ofWarp
  · intro w; exact ⟨rfl, rfl⟩
  · intro w
    refine ⟨rfl, fun _ _ _ => rfl, fun n => ?_, fun n => ?_, fun _ _ _ => rfl⟩
    · simp only [Warp.writeSPair]
      rw [Warp.readS_writeS, Warp.readS_writeS]
      by_cases h : n = d + 1 <;> by_cases h2 : n = d <;> simp [scaWrites, h, h2, extract_lo, extract_hi]
    · simp only [Warp.writeSPair]
      rw [Warp.tokens_writeS, Warp.tokens_writeS]
      by_cases h : n = d + 1 <;> by_cases h2 : n = d <;> simp [scaWrites, h, h2]

theorem GroupWrote.prd (r : Rdy) (d : Nat) (p : Nat → Bool) :
    GroupWrote r (fun g => g.updWarp r.i.w.idx (fun w => w.writeKs d r.act p)) (prdWrites d r.act p) none := by
  have hk (w : Warp) := w.writeKs_rest d r.act p
  apply GroupWrote.ofWarp
  · intro w
    have ei := congrArg Warp.idx (hk w)
    have eu := congrArg Warp.subs (hk w)
    dsimp only at ei eu
    exact ⟨ei, eu⟩
  · intro w
    have ev := congrArg Warp.vregs (hk w)
    have es := congrArg Warp.sregs (hk w)
    have et := congrArg Warp.tokens (hk w)
    dsimp only at ev es et
    refine ⟨?_, ?_, ?_, ?_, fun n t ht => ?_⟩
    · rw [ev, es, et]; exact hk w
    · intro n t _; simp [prdWrites, noWrites, Warp.readV, ev]
    · intro n; simp [prdWrites, noWrites, Warp.readS, es]
    · intro n; simp [prdWrites, noWrites, et]
    · rw [Warp.readK_writeKs _ _ _ _ _ _ ht]
      by_cases h : n = d
      · subst h
        by_cases h2 : n = 0 <;> by_cases h3 : laneIn r.act t = true <;> simp [prdWrites, h2, h3]
      · simp [prdWrites, h]

theorem fillEntry_filled (w u : Nat) (v : Word) (after : List Nat) (l : List QEntry) :
    Filled w u v after l (fillEntry w u v after l) := by
  induction l with
  | nil => exact .inr ⟨by simp, rfl⟩
  | cons e l ih =>
    simp only [fillEntry]
    split
    · rename_i h
      refine .inl ⟨[], e, l, rfl, by simp, ?_, rfl⟩
      simpa [Awaits, and_assoc] using h
    · rename_i h
      have he : ¬ Awaits w u e := by simpa [Awaits, and_assoc] using h
      rcases ih with ⟨a, x, b, h1, h2, h3, h4⟩ | ⟨h1, h2⟩
      · refine .inl ⟨e :: a, x, b, by rw [h1]; rfl, ?_, h3, by rw [h4]; rfl⟩
        intro y hy
        rcases List.mem_cons.1 hy with hy | hy
        · subst hy; exact he
        · exact h2 y hy
      · refine .inr ⟨?_, by rw [h2]⟩
        intro y hy
        rcases List.mem_cons.1 hy with hy | hy
        · subst hy; exact he
        · exact h1 y hy

/-- The group after a push. -/
def Rdy.pushG (r : Rdy) (n : Nat) (v : Word) (g : Group) : Group :=
  let after := (g.palOps.filter (fun o => o.warp == r.i.w.idx)).map (fun o => o.id)
  { g with queues := tins g.queues n (let q := tget emptyQueue g.queues n
                                      { q with entries := fillEntry r.i.w.idx r.i.u.id v after q.entries }) }
theorem Rdy.pushQ_eq (r : Rdy) (s : State) (n : Nat) (v : Word) :
    r.pushQ s n v = (r.released s (some (n, v))).updGroup r.i.g.id (r.pushG n v) := rfl

theorem GroupWrote.push (r : Rdy) (n : Nat) (v : Word) : GroupWrote r (r.pushG n v) noWrites (some (n, v)) := by
  refine ⟨fun _ => rfl, fun _ => rfl, ⟨fun w => w, fun _ => ⟨rfl, rfl⟩, fun g => by simp [Group.updWarp, Rdy.pushG],
    fun w => ⟨rfl, fun _ _ _ => rfl, fun _ => rfl, fun _ => rfl, fun _ _ _ => rfl⟩⟩, fun m => ?_⟩
  simp only [Rdy.pushG, tget_tins]
  by_cases h : m = n
  · subst h
    simp only [if_true]
    exact ⟨_, rfl, fillEntry_filled ..⟩
  · simp only [if_neg h]
    exact ⟨_, rfl, rfl⟩

/-! ## Completion with each kind of destination -/

theorem Rdy.done_none (r : Rdy) (s : State) (hi : s.issuer? = some r.i) : r.Completed s (r.done s) noWrites none := by
  have := r.done_completed s hi (fun g => g) _ _ (GroupWrote.none' r)
  have e : (r.released s none).updGroup r.i.g.id (fun g => g) = s := by simp [State.updGroup, Rdy.released]
  rwa [e] at this

theorem Rdy.done_putV (r : Rdy) (s : State) (hi : s.issuer? = some r.i) (d : Nat) (f : Nat → DWord) :
    r.vecDone s (r.done (r.putV s d (fun t => (f t).setWidth 32))) d false f :=
  r.done_completed s hi _ _ _ (GroupWrote.vec r d f)

theorem Rdy.done_putVPair (r : Rdy) (s : State) (hi : s.issuer? = some r.i) (d : Nat) (f : Nat → DWord) :
    r.vecDone s (r.done (r.putVPair s d f)) d true f :=
  r.done_completed s hi _ _ _ (GroupWrote.vec2 r d f)

theorem Rdy.done_putK (r : Rdy) (s : State) (hi : s.issuer? = some r.i) (d : Nat) (p : Nat → Bool) :
    r.Completed s (r.done (r.putK s d p)) (prdWrites d r.act p) none :=
  r.done_completed s hi _ _ _ (GroupWrote.prd r d p)

theorem Rdy.done_putS (r : Rdy) (s : State) (hi : s.issuer? = some r.i) (d : Nat) (v : DWord) :
    r.scaDone s (r.done (r.putS s d (v.setWidth 32))) d false v := by
  simp only [Rdy.scaDone, Rdy.putS]
  by_cases h : 64 ≤ d
  · rw [if_pos ⟨h, trivial⟩, if_pos h, extract_lo, Rdy.pushQ_eq]
    exact r.done_completed s hi _ _ _ (GroupWrote.push r ..)
  · rw [if_neg (by simp [h]), if_neg h]
    by_cases ha : r.act = 0
    · simp only [ha, if_true]
      exact r.done_none s hi
    · simp only [if_neg ha]
      exact r.done_completed s hi _ _ _ (GroupWrote.sca r d v)

theorem Rdy.done_putSPair (r : Rdy) (s : State) (hi : s.issuer? = some r.i) (d : Nat) (v : DWord) :
    r.scaDone s (r.done (r.putSPair s d v)) d true v := by
  simp only [Rdy.scaDone, Rdy.putSPair]
  rw [if_neg (by simp)]
  by_cases ha : r.act = 0
  · simp only [ha, if_true]
    exact r.done_none s hi
  · simp only [if_neg ha]
    exact r.done_completed s hi _ _ _ (GroupWrote.sca2 r d v)

end Sys2Proof.Machine
end

