-- ==== Sys2Proof/Laws/Gate.lean ====
section
/-! SUPPORT. Laws of the checks before execution: an instruction that clears them is issued, and its issuer is still the one
that runs. -/
namespace Sys2Proof.Machine

/-- The same sub-group of the same warp runs in a state, and it runs the same clause. -/
def Runs (i : Iss) (s : State) : Prop :=
  ∃ j, s.issuer? = some j ∧ j.g.id = i.g.id ∧ j.w.idx = i.w.idx ∧ j.u.id = i.u.id ∧ j.u.run = i.u.run ∧ j.g.core = i.g.core

theorem Runs.self {i : Iss} {s : State} (h : s.issuer? = some i) : Runs i s := ⟨i, h, rfl, rfl, rfl, rfl, rfl⟩
theorem Runs.congr {i : Iss} {s t : State} (h : Runs i s) (h1 : t.cur = s.cur) (h2 : t.quads = s.quads) (h3 : t.groups = s.groups) : Runs i t := by
  obtain ⟨j, a, b⟩ := h
  exact ⟨j, by rw [State.issuer?_congr h1 h2 h3]; exact a, b⟩
theorem Runs.quiet {i : Iss} {s t : State} (h : Runs i s) (q : Quiet s t) : Runs i t := h.congr q.cur q.quads q.groups
theorem Runs.getD {i : Iss} {s : State} (h : Runs i s) : s.issuer? = some ((s.issuer?).getD i) := by
  obtain ⟨j, a, -⟩ := h
  simp [a]
theorem Runs.getD_runs {i : Iss} {s : State} (h : Runs i s) :
    (s.issuer?.getD i).g.id = i.g.id ∧ (s.issuer?.getD i).w.idx = i.w.idx ∧ (s.issuer?.getD i).u.id = i.u.id
      ∧ (s.issuer?.getD i).u.run = i.u.run ∧ (s.issuer?.getD i).g.core = i.g.core := by
  obtain ⟨j, a, b⟩ := h
  simpa [a] using b

/-- An update of the warp that keeps its first running sub-group's clause. -/
theorem Runs.updWarp {i : Iss} {s : State} (h : Runs i s) (f : Warp → Warp) (hid : ∀ w, (f w).idx = w.idx)
    (hf : ∀ w u, w.subs.find? (fun u => u.run.isSome) = some u →
      ∃ v, (f w).subs.find? (fun u => u.run.isSome) = some v ∧ v.id = u.id ∧ v.run = u.run) : Runs i (s.updWarp i.g.id i.w.idx f) := by
  obtain ⟨j, a, e1, e2, e4, e3, e5⟩ := h
  obtain ⟨-, -, -, h4, h5, h6, -⟩ := State.issuer?_some a
  obtain ⟨v, hv, hv2, hr⟩ := hf _ _ h5
  have := State.issuer?_updGroup a (fun g => g.updWarp j.w.idx f) (f j.w) v j.c (fun _ => rfl)
    (by rw [Group.warp?_updWarp_self _ _ _ hid, h4]; rfl) hv (by rw [hr, h6]) rfl
  rw [e1, e2] at this
  exact ⟨_, this, e1, (hid _).trans e2, hv2.trans e4, hr.trans e3, e5⟩

theorem Runs.keep {i : Iss} {s : State} (h : Runs i s) (f : Warp → Warp) (hid : ∀ w, (f w).idx = w.idx)
    (hs : ∀ w, (f w).subs = w.subs) : Runs i (s.updWarp i.g.id i.w.idx f) :=
  h.updWarp f hid (fun w u hu => ⟨u, by rw [hs]; exact hu, rfl, rfl⟩)

theorem Runs.fresh {i : Iss} {s : State} (h : Runs i s) : Runs i s.fresh := h.congr rfl rfl rfl

theorem find?_insertSub (id : Nat) (new : SubGroup) (after : Bool) (hn : new.run = none) (l : List SubGroup) (u : SubGroup)
    (h : l.find? (fun u => u.run.isSome) = some u) :
    ∃ v, (insertSub id new after l).find? (fun u => u.run.isSome) = some v ∧ v.id = u.id ∧ v.run = u.run := by
  have hn' : new.run.isSome = false := by rw [hn]; rfl
  induction l with
  | nil => simp at h
  | cons x r ih =>
    rw [List.find?_cons] at h
    simp only [insertSub]
    cases hx : x.run.isSome with
    | true =>
      rw [hx] at h
      simp only [Option.some.injEq] at h
      subst h
      by_cases hid : x.id = id
      · rw [if_pos hid]
        split
        · exact ⟨{ x with lanes := x.lanes &&& ~~~new.lanes }, by rw [List.find?_cons]; simp [hx], rfl, rfl⟩
        · exact ⟨{ x with lanes := x.lanes &&& ~~~new.lanes }, by rw [List.find?_cons, hn', List.find?_cons]; simp [hx], rfl, rfl⟩
      · rw [if_neg hid]
        exact ⟨x, by rw [List.find?_cons, hx], rfl, rfl⟩
    | false =>
      rw [hx] at h
      by_cases hid : x.id = id
      · rw [if_pos hid]
        have hf : ({ x with lanes := x.lanes &&& ~~~new.lanes } : SubGroup).run.isSome = false := hx
        split
        · exact ⟨u, by rw [List.find?_cons, hf, List.find?_cons, hn']; exact h, rfl, rfl⟩
        · exact ⟨u, by rw [List.find?_cons, hn', List.find?_cons, hf]; exact h, rfl, rfl⟩
      · rw [if_neg hid, List.find?_cons, hx]
        exact ih h

theorem Runs.detach {i : Iss} {s : State} (h : Runs i s) (m : Mask) (st : SubState) (p : Option TrapRec) (a : Bool) :
    Runs i (i.detach s m st p a) := by
  simp only [Iss.detach, Iss.upd]
  apply Runs.fresh
  apply Runs.updWarp h
  · intro w; rfl
  · intro w u hu
    exact find?_insertSub _ _ _ rfl _ _ hu

theorem quiet_faults (s : State) (x : List FaultEv) : Quiet s { s with faults := x } := Quiet.of rfl rfl rfl rfl rfl rfl rfl rfl
theorem quiet_pushFault (s : State) (e : FaultEv) : Quiet s (s.pushFault e).1 := by
  simp only [State.pushFault]
  split
  · exact quiet_faults s _
  · exact Quiet.of rfl rfl rfl rfl rfl rfl rfl rfl

/-- Lanes that park leave the rest of the sub-group running (R14). -/
theorem Runs.park {i : Iss} {s : State} (h : Runs i s) (word flag : Nat) (act : Mask) (acc : Nat) (l : List Miss) :
    Runs i (i.park s word flag act acc l false) := by
  simp only [Iss.park, Iss.upd]
  apply Runs.fresh
  apply Runs.keep
  rotate_left
  · intro w; rfl
  · intro w; rfl
  simp only [State.updSub]
  apply Runs.updWarp
  rotate_left
  · intro w; rfl
  rotate_left
  · have h1 := h.detach (maskOf (fun t => l.any (fun x => x.req.lane == t))) (.parked 0) none false
    refine h1.quiet ?_
    simp only [Bool.false_eq_true, if_false]
    generalize i.detach s (maskOf (fun t => l.any (fun x => x.req.lane == t))) (.parked 0) none false = sd
    refine Quiet.foldl₂' (fun (x : State × Option Nat) => x.1) _ ?_ _ (sd, (none : Option Nat))
    intro x k
    split
    · exact Quiet.rfl' _
    · exact quiet_pushFault ..
  · intro w u hu
    simp only [Warp.updSub]
    rw [find?_run_map]
    · rw [hu]
      by_cases hid : u.id = s.nextId
      · exact ⟨_, rfl, by simp [hid], by simp [hid]⟩
      · exact ⟨_, rfl, by simp [hid], by simp [hid]⟩
    · intro u; rfl
where
  Quiet.foldl₂' {α β : Type} (g : β → State) (f : β → α → β) (h : ∀ x a, Quiet (g x) (g (f x a))) (l : List α) (x : β) :
      Quiet (g x) (g (l.foldl f x)) := by
    induction l generalizing x with
    | nil => exact Quiet.rfl' _
    | cons a l ih => exact (h x a).trans (ih _)

theorem Runs.trans {i j : Iss} {s t : State} (h : Runs i s) (e : s.issuer? = some j) (k : Runs j t) : Runs i t := by
  obtain ⟨a, a1, a2, a3, a4, a5, a6⟩ := h
  rw [e] at a1
  cases a1
  obtain ⟨b, b1, b2, b3, b4, b5, b6⟩ := k
  exact ⟨b, b1, b2.trans a2, b3.trans a3, b4.trans a4, b5.trans a5, b6.trans a6⟩

theorem Iss.accessIn_issuer {i j : Iss} {s t : State} (h : s.issuer? = some i) (word att : Nat) (act : Mask) (md : Mode)
    (reqs : List Req) (l : List Ready) (hg : i.accessIn s word att act md reqs = .go t j l) :
    t.issuer? = some j ∧ Runs i t := by
  simp only [Iss.accessIn] at hg
  split at hg; · cases hg
  have q := quiet_resolveLanes s i.g i.w.idx (i.mmu s) md.want reqs
  generalize s.resolveLanes i.g i.w.idx (i.mmu s) md.want reqs = la at hg q
  obtain ⟨ls, s1⟩ := la
  dsimp only at hg q
  have e2 : s1.issuer? = some i := by rw [State.issuer?_congr q.cur q.quads q.groups]; exact h
  split at hg; · cases hg
  split at hg; · cases hg
  split at hg; · cases hg
  split at hg; · cases hg
  split at hg
  · simp only [Acc.go.injEq] at hg
    obtain ⟨rfl, rfl, -⟩ := hg
    exact ⟨e2, Runs.self e2⟩
  · split at hg; · cases hg
    simp only [Acc.go.injEq] at hg
    obtain ⟨rfl, rfl, -⟩ := hg
    have hp := (Runs.self e2).park word att act (accOf md.want)
      (ls.filterMap (fun l => match l with | .absent r va lv k => some (⟨r, va, lv, k⟩ : Miss) | _ => none))
    exact ⟨hp.getD, hp⟩

/-- The lanes of an access that goes on: the issuer is the one that runs in the state where it goes on. -/
theorem Iss.accessFrom_issuer {i j : Iss} {s t : State} (h : s.issuer? = some i) (word att : Nat) (act : Mask) (md : Mode)
    (reqs : List Req) (l : List Ready) (hg : i.accessFrom s word att act md reqs = .go t j l) :
    t.issuer? = some j ∧ Runs i t := by
  simp only [Iss.accessFrom] at hg
  split at hg
  · exact Iss.accessIn_issuer h word att act md reqs l hg
  · split at hg; · cases hg
    have hd : Runs i (i.dropOut s word (md.outside reqs)) := (Runs.self h).detach ..
    obtain ⟨a, b⟩ := Iss.accessIn_issuer hd.getD word att _ md _ l hg
    exact ⟨a, hd.trans hd.getD b⟩

theorem Iss.access_issuer {i j : Iss} {s t : State} (h : s.issuer? = some i) (word att : Nat) (act : Mask) (md : Mode)
    (reqs : List Req) (l : List Ready) (hg : i.access s word att act md reqs = .go t j l) :
    t.issuer? = some j ∧ Runs i t := by
  simp only [Iss.access] at hg
  split at hg; · cases hg
  split at hg; · cases hg
  exact Iss.accessFrom_issuer h word att act md reqs l hg

theorem quiet_takeConst (i : Iss) (s : State) (r : Ready) : Quiet s (i.takeConst s r).2 := by
  simp only [Iss.takeConst]
  have q1 : Quiet s (r.xs.foldl (fun (s : State) x => s.touch (i.mmu s) x false) s) :=
    Quiet.foldl _ (fun s x => quiet_touch ..) _ _
  refine q1.trans ?_
  generalize r.xs.foldl (fun (s : State) x => s.touch (i.mmu s) x false) s = s2
  refine Quiet.foldl₂ _ ?_ r.parts ((⟨[], false⟩ : Got), s2)
  intro x p
  split
  · refine Quiet.foldl₂ _ ?_ _ x
    intro x k
    exact quiet_constWord ..
  · exact quiet_readPlace ..

/-- A constant that was read: the issuer is the one that runs in the state after it. -/
theorem Iss.const_issuer {i j : Iss} {s t : State} (h : s.issuer? = some i) (e : Enc) (word : Nat) (act : Mask) (w off : Nat)
    (wide : Bool) (v : DWord) (hg : i.const s e word act w off wide = .ok t j v) : t.issuer? = some j ∧ Runs i t := by
  simp only [Iss.const] at hg
  split at hg
  · cases hg; exact ⟨h, Runs.self h⟩
  split at hg; · cases hg
  split at hg; · cases hg
  split at hg; · cases hg
  split at hg; · cases hg
  rename_i s' i' l ha
  obtain ⟨a, b⟩ := Iss.access_issuer h _ _ _ _ _ _ ha
  split at hg
  · cases hg; exact ⟨a, b⟩
  · rename_i r _
    split at hg
    · cases hg
    · cases hg
      have q := quiet_takeConst j s' r
      exact ⟨by rw [State.issuer?_congr q.cur q.quads q.groups]; exact a, b.quiet q⟩

/-! ## Issue -/

theorem Iss.begin_runs {i : Iss} {s : State} (h : s.issuer? = some i) (e : Enc) : Runs i (i.begin s e) := by
  have h1 : Runs i (i.upd s (fun (w : Warp) => { w with outst := w.outst.filter (fun o => o.kind != .parked i.u.id) })) :=
    (Runs.self h).keep _ (fun _ => rfl) (fun _ => rfl)
  simp only [Iss.begin]
  split
  · exact h1.quiet (quiet_dropL1 ..)
  · exact h1

/-- The state after the checks of a word, and the issuer there, with its operands read. -/
def Iss.readied (i j : Iss) (s1 : State) (e : Enc) : Rdy :=
  let p := popAll e.pops j.c.pops
  ⟨j, e, i.active e.guard, e.word.getD 0, j.operand s1 e 0, j.operand s1 e 1, j.operand s1 e 2, p.2.1, p.2.2⟩

/-- An instruction that clears its checks is issued. -/
theorem State.clears_issues {s : State} {ins : Instr} (h : s.clears ins = true) : ∃ s1 r, s.Issues ins s1 r := by
  simp only [State.clears] at h
  split at h; · cases h
  rename_i i hi
  simp only [Bool.and_eq_true, Bool.or_eq_true, Bool.not_eq_true'] at h
  obtain ⟨⟨⟨⟨⟨⟨⟨⟨h1, h2⟩, h3⟩, h4⟩, h5⟩, h6⟩, h7⟩, h8⟩, h9⟩ := h
  have hr := Iss.begin_runs hi ins.enc
  have e5 : (ins.enc.dstUses ++ ins.enc.srcUses).findSome? (i.regBad s) = none := by
    rw [List.findSome?_eq_none_iff]
    intro u hu
    have := List.all_eq_true.1 h5 u hu
    simpa using this
  have e2 : (ins.enc.home != .alu && ins.enc.home.code != i.h.cls) = false := by
    rcases h2 with h2 | h2 <;> simp only [bne, h2] <;> simp
  have e3 : (ins.enc.last && !i.isLast) = false := by
    rcases h3 with h3 | h3 <;> simp [h3]
  have e7a : (i.active ins.enc.guard != 0 && i.behindPalette s ins.enc (i.active ins.enc.guard)) = false := by
    rcases h7 with h7 | h7
    · simp only [bne, h7]; simp
    · simp [h7.1.1]
  have e7b : (if i.active ins.enc.guard = 0 then none else i.accPoint s ins.enc (i.active ins.enc.guard)) = none := by
    rcases h7 with h7 | h7
    · simp only [beq_iff_eq] at h7; simp [h7]
    · have := h7.1.2; split
      · rfl
      · simpa using this
  have e6 : i.palStall s ins.enc = false := by simp only [Iss.palStall, e7a, Bool.false_and]
  have e7c : (if i.active ins.enc.guard = 0 then none else i.badToken ins.enc) = none := by
    rcases h7 with h7 | h7
    · simp only [beq_iff_eq] at h7; simp [h7]
    · have := h7.2; split
      · rfl
      · simpa using this
  have e8 : i.pushEnded ins.enc = none := by simpa using h8
  have hg : s.gate i ins.enc = (let s1 := i.begin s ins.enc
      let j := (s1.issuer?).getD i
      match ins.enc.kop with
      | none => .go s1 (i.readied j s1 ins.enc)
      | some (w, off, wide, k) =>
        match j.const s1 ins.enc (ins.enc.word.getD 0) (i.active ins.enc.guard) w off wide with
        | .stop s => .halt s
        | .ok s j v =>
          let p := popAll ins.enc.pops j.c.pops
          let a (t : Nat) : DWord := if k = 0 then v else j.operand s ins.enc 0 t
          .go s ⟨j, ins.enc, j.active ins.enc.guard, ins.enc.word.getD 0, a, fun _ => v, fun _ => 0, p.2.1, p.2.2⟩) := by
    simp only [State.gate, h1, e2, e3, h4, e5, h6, e6, e7a, e7b, e7c, e8, Bool.not_true, Bool.false_eq_true, Bool.or_self, if_false]
    rfl
  simp only [Iss.constOk] at h9
  cases hk : ins.enc.kop with
  | none =>
    simp only [hk] at hg
    exact ⟨_, _, i, hi, hg, hr.getD⟩
  | some x =>
    obtain ⟨w, off, wide, k⟩ := x
    rw [hk] at h9
    dsimp only at h9
    split at h9
    · rename_i s2 j v hc
      obtain ⟨a, -⟩ := Iss.const_issuer hr.getD _ _ _ _ _ _ _ hc
      simp only [hk, hc] at hg
      exact ⟨_, _, i, hi, hg, a⟩
    · cases h9

/-- What an instruction that is issued computes. -/
theorem State.Issues.next {s s1 : State} {ins : Instr} {r : Rdy} (h : s.Issues ins s1 r) (f : State → Rdy → State) :
    s.issue ins f = .next (f s1 r) := by
  obtain ⟨i, hi, hg, -⟩ := h
  simp only [State.issue, hi, hg]

theorem State.Issues.issuer {s s1 : State} {ins : Instr} {r : Rdy} (h : s.Issues ins s1 r) : s1.issuer? = some r.i := by
  obtain ⟨i, -, -, h⟩ := h
  exact h

/-- An instruction whose meaning is `f` after its checks completes as `f` says. -/
theorem State.completes_of {s : State} {ins : Instr} {f : State → Rdy → State} {Q : State → Rdy → State → Prop}
    (h : s.clears ins = true) (he : exec ins s = s.issue ins f) (hq : ∀ s1 r, s.Issues ins s1 r → Q s1 r (f s1 r)) :
    s.Completes ins Q := by
  obtain ⟨s1, r, hi⟩ := State.clears_issues h
  exact ⟨s1, r, _, hi, by rw [he, hi.next], hq s1 r hi⟩

end Sys2Proof.Machine
end

