-- ==== Sys2Proof/Laws/Forms.lean ====
section
/-! SUPPORT. Laws of the shells in which instructions run: each completes, once its checks are passed, with the values its
element function gives. -/
namespace Sys2Proof.Machine

/-- Operands and lanes of an instruction under a later view of its issuer. -/
def Rdy.under (r : Rdy) (j : Iss) : Rdy := { r with i := j }

theorem Rdy.done_under (r : Rdy) (j : Iss) (s : State) (h1 : j.g.id = r.i.g.id) (h2 : j.w.idx = r.i.w.idx) (h3 : j.u.id = r.i.u.id) :
    (r.under j).done s = r.done s := by
  simp only [Rdy.done, Rdy.commit, Rdy.under, Iss.updU, Iss.updG, h1, h2, h3]

theorem Rdy.Queues_under (r : Rdy) (j : Iss) (push : Option (Nat × Word)) (g g' : Group) (h2 : j.w.idx = r.i.w.idx)
    (h3 : j.u.id = r.i.u.id) (h : (r.under j).Queues push g g') : r.Queues push g g' := by
  intro n
  have := h n
  simp only [Rdy.under, h2, h3] at this
  exact this

theorem Rdy.Completed_under (r : Rdy) (j : Iss) (s t : State) (x : Writes) (push : Option (Nat × Word)) (h1 : j.g.id = r.i.g.id)
    (h2 : j.w.idx = r.i.w.idx) (h3 : j.u.id = r.i.u.id) (h4 : j.g.core = r.i.g.core) (h : (r.under j).Completed s t x push) : r.Completed s t x push := by
  obtain ⟨a, b, g, g', w, w', c1, c2, c3, c4, c5, c6, c7, c8⟩ := h
  simp only [Rdy.released, Rdy.under, h1, h2, h4] at a b c1 c2 c4 c6 c7
  exact ⟨a, b, g, g', w, w', c1, c2, c3, c4, r.Queues_under j push g g' h2 h3 c5, c6, c7, c8⟩

/-- Completion without a write, wherever the issuing sub-group still runs. -/
theorem Rdy.runs_none (r : Rdy) (s : State) (h : Runs r.i s) : r.Completed s (r.done s) noWrites none := by
  obtain ⟨j, a, e1, e2, e3, -, e4⟩ := h
  have := (r.under j).done_none s a
  rw [r.done_under j s e1 e2 e3] at this
  exact r.Completed_under j _ _ _ _ e1 e2 e3 e4 this
theorem Rdy.runs_putV (r : Rdy) (s : State) (h : Runs r.i s) (d : Nat) (f : Nat → DWord) :
    r.vecDone s (r.done (r.putV s d (fun t => (f t).setWidth 32))) d false f := by
  obtain ⟨j, a, e1, e2, e3, -, e4⟩ := h
  have := (r.under j).done_putV s a d f
  rw [r.done_under j _ e1 e2 e3] at this
  have e : (r.under j).putV s d (fun t => (f t).setWidth 32) = r.putV s d (fun t => (f t).setWidth 32) := by
    simp only [Rdy.putV, Iss.upd, Rdy.under, e1, e2]
  rw [e] at this
  exact r.Completed_under j _ _ _ _ e1 e2 e3 e4 this
theorem Rdy.runs_putVPair (r : Rdy) (s : State) (h : Runs r.i s) (d : Nat) (f : Nat → DWord) :
    r.vecDone s (r.done (r.putVPair s d f)) d true f := by
  obtain ⟨j, a, e1, e2, e3, -, e4⟩ := h
  have := (r.under j).done_putVPair s a d f
  rw [r.done_under j _ e1 e2 e3] at this
  have e : (r.under j).putVPair s d f = r.putVPair s d f := by
    simp only [Rdy.putVPair, Iss.upd, Rdy.under, e1, e2]
  rw [e] at this
  exact r.Completed_under j _ _ _ _ e1 e2 e3 e4 this
theorem Rdy.runs_putK (r : Rdy) (s : State) (h : Runs r.i s) (d : Nat) (p : Nat → Bool) :
    r.Completed s (r.done (r.putK s d p)) (prdWrites d r.act p) none := by
  obtain ⟨j, a, e1, e2, e3, -, e4⟩ := h
  have := (r.under j).done_putK s a d p
  rw [r.done_under j _ e1 e2 e3] at this
  have e : (r.under j).putK s d p = r.putK s d p := by
    simp only [Rdy.putK, Iss.upd, Rdy.under, e1, e2]
  rw [e] at this
  exact r.Completed_under j _ _ _ _ e1 e2 e3 e4 this
theorem Rdy.runs_putS (r : Rdy) (s : State) (h : Runs r.i s) (d : Nat) (v : DWord) :
    r.scaDone s (r.done (r.putS s d (v.setWidth 32))) d false v := by
  obtain ⟨j, a, e1, e2, e3, -, e4⟩ := h
  have := (r.under j).done_putS s a d v
  rw [r.done_under j _ e1 e2 e3] at this
  have e : (r.under j).putS s d (v.setWidth 32) = r.putS s d (v.setWidth 32) := by
    simp only [Rdy.putS, Rdy.pushQ, Iss.updG, Iss.upd, Rdy.under, e1, e2, e3, e4]
    rfl
  rw [e] at this
  simp only [Rdy.scaDone] at this ⊢
  split at this <;> rename_i hc
  · rw [if_pos hc]; exact r.Completed_under j _ _ _ _ e1 e2 e3 e4 this
  · rw [if_neg hc]; exact r.Completed_under j _ _ _ _ e1 e2 e3 e4 this
theorem Rdy.runs_putSPair (r : Rdy) (s : State) (h : Runs r.i s) (d : Nat) (v : DWord) :
    r.scaDone s (r.done (r.putSPair s d v)) d true v := by
  obtain ⟨j, a, e1, e2, e3, -, e4⟩ := h
  have := (r.under j).done_putSPair s a d v
  rw [r.done_under j _ e1 e2 e3] at this
  have e : (r.under j).putSPair s d v = r.putSPair s d v := by
    simp only [Rdy.putSPair, Iss.upd, Rdy.under, e1, e2]
  rw [e] at this
  simp only [Rdy.scaDone] at this ⊢
  rw [if_neg (by simp)] at this ⊢
  exact r.Completed_under j _ _ _ _ e1 e2 e3 e4 this

/-- An outstanding instruction recorded for its flag leaves the sub-group running. -/
theorem Runs.outst {i j : Iss} {s : State} (h : Runs i s) (hg : j.g.id = i.g.id) (hw : j.w.idx = i.w.idx) (att : Nat) (k : OutKind) :
    Runs i (j.outst s att k) := by
  simp only [Iss.outst]
  split
  · exact h
  · rw [hg, hw]
    apply Runs.fresh
    apply Runs.keep h
    · intro w; rfl
    · intro w; rfl

/-- The vector shell (R156). -/
theorem vecForm_completes {s : State} {ins : Rk → Instr} {f : Rk} {op : DWord → DWord → DWord → DWord}
    (h : s.clears (ins f) = true) (he : exec (ins f) s = vecForm ins f s op) :
    s.Completes (ins f) (fun s1 r t => r.vecDone s1 t f.dn f.ty.is64 (fun l => op (r.a l) (r.b l) (r.c l))) := by
  refine State.completes_of h he (fun s1 r hi => ?_)
  cases f.ty.is64
  · exact r.runs_putV s1 (Runs.self hi.issuer) _ _
  · exact r.runs_putVPair s1 (Runs.self hi.issuer) _ _

/-- The vector shell that always writes a pair (R160, R168). -/
theorem pairForm_completes {s : State} {ins : Rk → Instr} {f : Rk} {op : DWord → DWord → DWord → DWord}
    (h : s.clears (ins f) = true) (he : exec (ins f) s = pairForm ins f s op) :
    s.Completes (ins f) (fun s1 r t => r.vecDone s1 t f.dn true (fun l => op (r.a l) (r.b l) (r.c l))) :=
  State.completes_of h he (fun s1 r hi => r.runs_putVPair s1 (Runs.self hi.issuer) _ _)

/-- The scalar shell (R153, R156). -/
theorem scaForm_completes {s : State} {ins : Rk → Instr} {f : Rk} {op : DWord → DWord → DWord → DWord}
    (h : s.clears (ins f) = true) (he : exec (ins f) s = scaForm ins f s op) :
    s.Completes (ins f) (fun s1 r t => r.scaDone s1 t f.dn f.ty.is64 (op (r.a r.low) (r.b r.low) (r.c r.low))) := by
  refine State.completes_of h he (fun s1 r hi => ?_)
  cases f.ty.is64
  · exact r.runs_putS s1 (Runs.self hi.issuer) _ _
  · exact r.runs_putSPair s1 (Runs.self hi.issuer) _ _

/-- A form that writes one predicate. -/
theorem prdForm_completes {s : State} {ins : Instr} {d : Nat} {p : Rdy → Nat → Bool}
    (h : s.clears ins = true) (he : exec ins s = s.issue ins (fun s r => r.done (r.putK s d (p r)))) :
    s.Completes ins (fun s1 r t => r.Completed s1 t (prdWrites d r.act (p r)) none) :=
  State.completes_of h he (fun s1 r hi => r.runs_putK s1 (Runs.self hi.issuer) _ _)

end Sys2Proof.Machine
end

