-- ==== Sys2Proof/Tests/Slice0.lean ====
section
/-! SUPPORT. Tests: ill-formed terms, words written out from the field tables, results worked out by hand from the manual,
and states that meet the hypotheses of the statements. Each runs on one warp whose started clause holds one word. -/
namespace Sys2Proof.Tests
open Sys2Proof.Machine
set_option Elab.async false

theorem test_reset : State.reset.Inv := by unfold State.Inv; decide

/-! ## Small states -/

/-- One warp whose started clause on quad 0 of core 0 holds a word, at the point where that word issues. -/
def bench (w : Nat) : State := { State.reset.withFetchWord 64 w with cur := some 0, agenda := [] }
/-- The same with the warp, the group and the package changed. -/
def benchOf (w : Nat) (k : Warp → Warp) (h : Group → Group) (p : State → State) : State :=
  let s := bench w
  p { s with groups := s.groups.map (fun (g : Group) => let g := h g; { g with warps := g.warps.map k }) }
def onWarp (w : Nat) (k : Warp → Warp) : State := benchOf w k id id
/-- A value in every lane of a vector register. -/
def vAll (n : Nat) (v : Word) (w : Warp) : Warp := (List.range 32).foldl (fun (w : Warp) l => w.writeV n l v) w
/-- A 64-bit value in every lane of a pair, and in a scalar pair. -/
def vPair (n : Nat) (v : DWord) (w : Warp) : Warp := vAll (n + 1) (v.extractLsb' 32 32) (vAll n (v.extractLsb' 0 32) w)
def sPair (n : Nat) (v : DWord) (w : Warp) : Warp := (w.writeS (n + 1) (v.extractLsb' 32 32)).writeS n (v.extractLsb' 0 32)

/-- What the checks before an instruction make of it. -/
def rdyOf (s : State) (ins : Instr) : Option (State × Rdy) :=
  match s.issuer? with
  | none => none
  | some i => match s.gate i ins.enc with
    | .go s1 r => some (s1, r)
    | .halt _ => none
/-- A state and an instruction that meet the hypotheses of a statement: it clears its checks, and its operands satisfy `p`. -/
def Meets (s : State) (ins : Instr) (p : State → Rdy → Prop) : Prop :=
  s.clears ins = true ∧ ∃ s1 r, s.Issues ins s1 r ∧ p s1 r
/-- The same as a check. -/
def meetsB (s : State) (ins : Instr) (p : State → Rdy → Bool) : Bool :=
  s.clears ins && (match rdyOf s ins with
    | some x => p x.1 x.2
    | none => false)
theorem Meets.of {s : State} {ins : Instr} {p : State → Rdy → Prop} [∀ a b, Decidable (p a b)]
    (h : meetsB s ins (fun a b => decide (p a b)) = true) : Meets s ins p := by
  simp only [meetsB, Bool.and_eq_true] at h
  obtain ⟨hc, hp⟩ := h
  obtain ⟨s1, r, i, hi, hg, hr⟩ := State.clears_issues hc
  refine ⟨hc, s1, r, ⟨i, hi, hg, hr⟩, ?_⟩
  have : rdyOf s ins = some (s1, r) := by simp only [rdyOf, hi, hg]
  rw [this] at hp
  simpa using hp
/-- A group of the package, a warp of it and a sub-group of that satisfy `p`. -/
def At (s : State) (p : Group → Warp → SubGroup → Prop) : Prop :=
  ∃ g w u, s.group? g.id = some g ∧ g.warp? w.idx = some w ∧ w.sub? u.id = some u ∧ p g w u
/-- The same of the first of each, as a check. -/
def atB (s : State) (p : Group → Warp → SubGroup → Bool) : Bool :=
  match s.groups.head? with
  | none => false
  | some g => match g.warps.head? with
    | none => false
    | some w => match w.subs.head? with
      | none => false
      | some u => decide (s.group? g.id = some g) && decide (g.warp? w.idx = some w) && decide (w.sub? u.id = some u) && p g w u
theorem At.of {s : State} {p : Group → Warp → SubGroup → Prop} [∀ a b c, Decidable (p a b c)]
    (h : atB s (fun a b c => decide (p a b c)) = true) : At s p := by
  simp only [atB] at h
  split at h; · cases h
  split at h; · cases h
  split at h; · cases h
  simp only [Bool.and_eq_true, decide_eq_true_eq] at h
  exact ⟨_, _, _, h.1.1.1, h.1.1.2, h.1.2, h.2⟩
/-- The issuing sub-group of a state satisfies `p`. -/
def Issuing (s : State) (p : Iss → Prop) : Prop := ∃ i, s.issuer? = some i ∧ p i
theorem Issuing.of {s : State} {p : Iss → Prop} [∀ a, Decidable (p a)]
    (h : (match s.issuer? with | some i => decide (p i) | none => false) = true) : Issuing s p := by
  split at h
  · rename_i i hi
    exact ⟨i, hi, by simpa using h⟩
  · cases h
/-- A change of every sub-group of a warp. -/
def onSubs (k : SubGroup → SubGroup) (w : Warp) : Warp := { w with subs := w.subs.map k }
theorem Meets.imp {s : State} {ins : Instr} {p q : State → Rdy → Prop} (h : Meets s ins p) (f : ∀ a b, p a b → q a b) : Meets s ins q := by
  obtain ⟨hc, s1, r, hi, hp⟩ := h
  exact ⟨hc, s1, r, hi, f _ _ hp⟩

/-! ## Checks of what a statement's hypotheses say -/

/-- An access that needs no walk. -/
def hitOf (s : State) (i : Iss) (w : Want) (q : Req) : Option Ready :=
  match s.locate i.g i.w.idx q.lane q.ptr q.size with
  | .place p => some ⟨q, [(p, q.size)], []⟩
  | .bad => none
  | .global => if 0 < q.size && q.ptr % 4096 + q.size ≤ 4096 then
      match s.tlb.find? (fun e => e.covers (i.mmu s) q.ptr) with
      | none => none
      | some e => match s.leafCheck (i.mmu s) w q.ptr e.leaf e.level e.pteAt with
        | .ok x => if staleAd e.leaf w.wr then none else some ⟨q, [(.phys x.pa (pteNc e.leaf), q.size)], [x]⟩
        | _ => none
    else none
theorem hit_of {s : State} {i : Iss} {w : Want} {q : Req} {o : Ready} (h : hitOf s i w q = some o) : Hit s i w q o := by
  unfold hitOf at h
  split at h
  · rename_i p hp
    exact Or.inl ⟨p, hp, by simpa using h.symm⟩
  · cases h
  · rename_i hp
    split at h
    · rename_i hc
      simp only [Bool.and_eq_true, decide_eq_true_eq] at hc
      split at h
      · cases h
      · rename_i e he
        split at h
        · rename_i x hx
          split at h
          · cases h
          · rename_i hs
            exact Or.inr ⟨hp, hc.1, hc.2, e, x, he, hx, by simpa using hs, by simpa using h.symm⟩
        · cases h
    · cases h
/-- A refused access. -/
def refusedB (s : State) (i : Iss) (w : Want) (q : Req) : Bool :=
  s.locate i.g i.w.idx q.lane q.ptr q.size == .global && decide (0 < q.size) && decide (q.ptr % 4096 + q.size ≤ 4096)
    && (match s.tlb.find? (fun e => e.covers (i.mmu s) q.ptr) with
      | none => false
      | some e => (match s.leafCheck (i.mmu s) w q.ptr e.leaf e.level e.pteAt with
        | .prot => true
        | _ => false))
theorem refused_of {s : State} {i : Iss} {w : Want} {q : Req} (h : refusedB s i w q = true) : Refused s i w q := by
  simp only [refusedB, Bool.and_eq_true, decide_eq_true_eq, beq_iff_eq] at h
  obtain ⟨⟨⟨h1, h2⟩, h3⟩, h4⟩ := h
  split at h4
  · cases h4
  · rename_i e he
    split at h4
    · rename_i hx
      exact ⟨h1, h2, h3, e, he, hx⟩
    · cases h4

/-- A byte of the package above the rings, which stand at 0 after reset. -/
def byteOk (s : State) (l : List Ready) : Place → Bool
  | .phys a nc => !nc && decide (4096 ≤ a) && !isPeer a && s.redbuf.isEmpty && l.all (fun q => q.xs.all (fun x => decide (x.at' + 8 ≤ 4096)))
      && s.barFld 0x700008 12 52 == 0 && s.barFld 0x700008 0 4 == 0 && s.barFld 0x200020 12 52 == 0 && s.barFld 0x200020 0 4 == 0
  | _ => true
theorem canon_low {s : State} {x b : Nat} (h : s.canonPa x = some b) (hx : x < 2 ^ 40) : b = x := by
  have h2 : x % 2 ^ 52 = x := Nat.mod_eq_of_lt (by omega)
  have h3 : paTop x = 0 := by unfold paTop; omega
  unfold State.canonPa at h
  rw [h2] at h
  simp only [h3, ↓reduceIte] at h
  split at h
  · simpa using h.symm
  · cases h
theorem steady_of {s : State} {l : List Ready} {p : Place} (h : byteOk s l p = true) : s.steady l p := by
  cases p with
  | phys a nc =>
    simp only [byteOk, Bool.and_eq_true, decide_eq_true_eq, beq_iff_eq, List.all_eq_true, Bool.not_eq_true', List.isEmpty_iff] at h
    obtain ⟨⟨⟨⟨⟨⟨⟨⟨h1, h2⟩, h3⟩, h4⟩, h5⟩, h6⟩, h7⟩, h8⟩, h9⟩ := h
    refine ⟨h1, ?_, by simp [State.unreachable, h3]⟩
    rintro (⟨q, hq, x, hx, h10, h11⟩ | ⟨e, he, -⟩ | ⟨b, hb, h10, h11⟩ | ⟨n, b, hb, h10, h11⟩)
    · have := h5 q hq x hx; omega
    · rw [h4] at he; cases he
    · rw [h6] at hb
      have := canon_low hb (by decide)
      rw [h7] at h11
      omega
    · simp only [State.faultAt, State.faultCap] at hb
      rw [h8, h9] at hb
      have hm : n % 2 ^ (0 + 4) < 2 ^ (0 + 4) := Nat.mod_lt _ (by decide)
      have := canon_low hb (by omega)
      omega
  | scr | ext | priv => trivial
def soundB (s : State) (l : List Ready) : Bool :=
  l.all (fun q => q.places.all (byteOk s l) && q.parts.all (fun p => match p.1 with
    | .phys pa _ => (wordsOf pa p.2).all (fun k => !poisonedIn s.memPoison (4 * k) 4)
    | .scr gid off => (match s.group? gid with | some g => !poisonedIn g.scratchPoison off p.2 | none => true)
    | .ext gid off => (match s.group? gid with | some g => !poisonedIn g.extPoison off p.2 | none => true)
    | .priv gid w l off => (match s.warp? gid w with | some x => !poisonedIn x.privPoison (privKey l off) p.2 | none => true)))
theorem sound_of {s : State} {l : List Ready} (h : soundB s l = true) : s.sound l := by
  simp only [soundB, List.all_eq_true, Bool.and_eq_true] at h
  intro q hq
  refine ⟨?_, fun p hp => steady_of ((h q hq).1 p hp)⟩
  intro p hp
  have := (h q hq).2 p hp
  obtain ⟨x, n⟩ := p
  cases x with
  | phys pa nc => simpa using this
  | scr gid off => simp only at this ⊢; intro g hg; rw [hg] at this; simpa using this
  | ext gid off => simp only at this ⊢; intro g hg; rw [hg] at this; simpa using this
  | priv gid w l off => simp only at this ⊢; intro g hg; rw [hg] at this; simpa using this
/-- A record read without a walk, of whose access `k` holds. -/
def readsB (s : State) (r : Rdy) (w : Want) (ptr n : Nat) (k : Ready → Bool) : Bool :=
  match hitOf s r.i w ⟨r.low, ptr, n⟩ with
  | none => false
  | some q => soundB s [q] && q.parts.all (fun p => match p.1 with
      | .phys pa _ => (wordsOf pa p.2).all (fun k => !thas s.l1 (l1Key r.i.g.core (4 * k)))
      | _ => true) && !s.overPriv r.i.g ⟨r.low, ptr, n⟩ && q.parts.all (fun p => s.inFlip p == none) && k q
theorem reads_of {s : State} {r : Rdy} {w : Want} {ptr n : Nat} {k : Ready → Bool} (h : readsB s r w ptr n k = true) :
    ∃ q, r.Reads s w ptr n q ∧ k q = true := by
  unfold readsB at h
  split at h
  · cases h
  · rename_i q hq
    simp only [Bool.and_eq_true, List.all_eq_true, Bool.not_eq_true', beq_iff_eq] at h
    obtain ⟨⟨⟨⟨h1, h2⟩, h3⟩, h4⟩, h5⟩ := h
    refine ⟨q, ⟨hit_of hq, sound_of h1, ?_, h3, h4⟩, h5⟩
    intro p hp pa nc he k hk
    have := h2 p hp
    rw [he] at this
    simp only [List.all_eq_true] at this
    simpa using this k hk
/-- The checks of an instruction's accesses leave this many lanes. -/
def goes (s : State) (r : Rdy) (att : Nat) (md : Mode) (reqs : List Req) (n : Nat) : Bool :=
  match r.i.access s r.word att r.act md reqs with
  | .stop _ => false
  | .go s1 _ l => l.length == n && soundB s1 l
theorem goes_go {s : State} {r : Rdy} {att n : Nat} {md : Mode} {reqs : List Req} (h : goes s r att md reqs n = true) :
    ∃ s1 i l, r.i.access s r.word att r.act md reqs = .go s1 i l ∧ l.length = n ∧ s1.sound l := by
  unfold goes at h
  split at h
  · cases h
  · rename_i s1 i l heq
    simp only [Bool.and_eq_true, beq_iff_eq] at h
    exact ⟨s1, i, l, heq, h.1, sound_of h.2⟩
theorem Issuing.imp {s : State} {p q : Iss → Prop} (h : Issuing s p) (f : ∀ a, p a → q a) : Issuing s q :=
  h.elim (fun i h => ⟨i, h.1, f i h.2⟩)
/-- A region's ranges lie where their rule admits them and are reached. -/
def regionB (s : State) (r : Rdy) (glob own : Bool) (w : Want) (l : List (Nat × Nat)) : Bool :=
  l.all (fun a => s.regionOk r glob own a.1 a.2 && (match hitOf s r.i w ⟨r.low, a.1, a.2⟩ with
    | some o => o.parts.all (fun p => s.inFlip p == none && (!w.wr || !s.tagged p.1 p.2))
    | none => false))
theorem region_of {s : State} {r : Rdy} {glob own : Bool} {w : Want} {l : List (Nat × Nat)} (h : regionB s r glob own w l = true) :
    ∃ rows, r.Region s glob own w l rows := by
  suffices H : ∃ os : List Ready, os.length = l.length ∧ ∀ (k : Nat) a o, l[k]? = some a → os[k]? = some o →
      s.regionOk r glob own a.1 a.2 = true ∧ Hit s r.i w ⟨r.low, a.1, a.2⟩ o
        ∧ ∀ p ∈ o.parts, s.inFlip p = none ∧ (w.wr = true → s.tagged p.1 p.2 = false) by
    obtain ⟨os, h1, h2⟩ := H
    exact ⟨_, os, h1, rfl, h2⟩
  induction l with
  | nil => exact ⟨[], rfl, by simp⟩
  | cons a l ih =>
    simp only [regionB, List.all_cons, Bool.and_eq_true] at h
    obtain ⟨os, h1, h2⟩ := ih (by simpa [regionB] using h.2)
    obtain ⟨h3, h4⟩ := h.1
    split at h4
    · rename_i o ho
      refine ⟨o :: os, by simp [h1], ?_⟩
      intro k b p hb hp
      cases k with
      | zero =>
        simp only [List.getElem?_cons_zero, Option.some.injEq] at hb hp
        subst hb hp
        refine ⟨h3, hit_of ho, fun p hp => ?_⟩
        have := List.all_eq_true.1 h4 p hp
        simp only [Bool.and_eq_true, beq_iff_eq, Bool.or_eq_true, Bool.not_eq_true'] at this
        refine ⟨this.1, fun hw => ?_⟩
        rcases this.2 with h | h
        · rw [hw] at h; cases h
        · exact h
      | succ k => exact h2 k b p (by simpa using hb) (by simpa using hp)
    · cases h4
/-- The bench with nothing issuing: the warp stands at its clause's header, on a free quad. -/
def idleOf (w : Nat) (k : Warp → Warp) (h : Group → Group) (p : State → State) : State :=
  benchOf w (fun x => k { x with active := none, subs := x.subs.map (fun u => { u with run := none, pc := 0x10000 }) }) h
    (fun s => p { s with quads := [], cur := none })

/-! ## A package in full service -/

/-- Full service; context 1 valid, its descriptor at 0x20080; one command in the ring at 0x30000; the page 0x40000 mapped for
the units of die 0 in context 1. -/
def up : State :=
  let s : State := { State.reset with bu := { Bringup.reset with phase := 5, dieRun := 15 },
                                      tlb := [⟨576, 0, 1, 0x40, 0x7D + 0x40 * 2 ^ 24, 3⟩], quads := [] }
  let s := (((s.barSet 0x200000 0x20000).barSet 0x200008 4).barSet 0x200010 0x30000).barSet 0x200018 1
  s.store 0x20088 [1]
/-- The command at CRD, and a word at its field of another 64 bits. -/
def cmd (v : Nat) (s : State) : State := s.store 0x30000 (leBytes 32 v)
/-- Queue 1 of context 1, enabled, privileged, with one packet in its ring at 0x40000 and its records at 0x40800. -/
def queue1 (p : BitVec 1024) (s : State) : State :=
  let s := ((((s.setQd 1 0 64 0x40000).setQd 1 64 64 0x40800).setQd 1 136 16 1).setQd 1 154 1 1).setQd 1 155 1 1
  let s := (s.setIdx 1 0 1).setQueue 1 ⟨.active, 0, 0⟩
  { s with slots := [1] }.store 0x40000 (leBytes 128 p.toNat)
/-- A packet of benchPkt's shape that is no cooperative launch. -/
def plainPkt : BitVec 1024 := benchPkt &&& ~~~(1#1024 <<< 573)

def quietB (s : State) (pa n : Nat) : Bool :=
  !s.unreachable pa && !poisonedIn s.memPoison pa n && (List.range n).all (fun k => byteOk s [] (.phys (pa + k) false))
theorem quiet_of {s : State} {pa n : Nat} (h : quietB s pa n = true) : s.quiet pa n := by
  simp only [quietB, Bool.and_eq_true, Bool.not_eq_true', List.all_eq_true, List.mem_range] at h
  exact ⟨h.1.1, h.1.2, fun k hk => steady_of (h.2 k hk)⟩
def clearB (s : State) (x : Place) (n : Nat) : Bool := (List.range n).all (fun k => byteOk s [] (x.plus k) && !s.badAt (x.plus k))
theorem clear_of {s : State} {x : Place} {n : Nat} (h : clearB s x n = true) : s.clear x n := by
  simp only [clearB, Bool.and_eq_true, Bool.not_eq_true', List.all_eq_true, List.mem_range] at h
  exact fun k hk => ⟨steady_of (h k hk).1, (h k hk).2⟩
def mapHitB (s : State) (ctx va n : Nat) (wr : Bool) (pa : Nat) : Bool :=
  decide (va < 2 ^ 56) && s.inFlip (.phys pa false, n) == none && (match s.tlb.find? (fun e => e.covers (mapperMmu ctx) va) with
    | none => false
    | some e => (match s.leafCheck (mapperMmu ctx) (if wr then wantStore none else wantLoad none) va e.leaf e.level e.pteAt with
      | .ok x => !staleAd e.leaf wr && x.pa == pa
      | _ => false))
theorem mapHit_of {s : State} {ctx va n pa : Nat} {wr : Bool} (h : mapHitB s ctx va n wr pa = true) : MapperHit s ctx va n wr pa := by
  simp only [mapHitB, Bool.and_eq_true, decide_eq_true_eq, beq_iff_eq] at h
  obtain ⟨⟨h1, h2⟩, h3⟩ := h
  split at h3
  · cases h3
  · rename_i e he
    split at h3
    · rename_i x hx
      simp only [Bool.and_eq_true, Bool.not_eq_true', beq_iff_eq] at h3
      exact ⟨h1, h2, e, x, he, hx, h3.1, h3.2⟩
    · cases h3
def cmdB (s : State) (v : Nat) : Bool :=
  s.bu.phase != 15 && s.barFld 0x200018 0 32 != s.barFld 0x200018 32 32
    && (match s.canonPa (s.barFld 0x200010 12 52 * 4096 + 32 * (s.barFld 0x200018 32 32 % 2 ^ (s.barFld 0x200010 0 4 + 4))) with
      | none => false
      | some pa => quietB s pa 32 && !s.flipIn pa 32 && s.peekN pa 32 == v)
theorem cmd_of {s : State} {v : Nat} (h : cmdB s v = true) : s.CmdAt (BitVec.ofNat 256 v) := by
  simp only [cmdB, Bool.and_eq_true, bne_iff_ne] at h
  obtain ⟨⟨h1, h2⟩, h3⟩ := h
  split at h3
  · cases h3
  · rename_i pa hpa
    simp only [Bool.and_eq_true, Bool.not_eq_true', beq_iff_eq] at h3
    exact ⟨h1, h2, pa, hpa, quiet_of h3.1.1, h3.1.2, by rw [h3.2]⟩
/-- A job reaches an access in one place, which is clear. -/
def jobAt (s : State) (j : Job) (g : Group) (wr : Bool) (p n : Nat) : Option Place :=
  match s.locate g j.warp j.lane p n with
  | .place x => if clearB s x n then some x else none
  | .bad => none
  | .global => if 0 < n && p % 4096 + n ≤ 4096 then
      (match s.tlb.find? (fun e => e.covers j.mmu p) with
      | none => none
      | some e => (match s.leafCheck j.mmu (if wr then wantStore (some j.pkr) else wantLoad (some j.pkr)) p e.leaf e.level e.pteAt with
        | .ok y => let x : Place := .phys y.pa (pteNc y.leaf)
          if !staleAd e.leaf wr && s.inFlip (x, n) == none && clearB s x n then some x else none
        | _ => none))
    else none
theorem job_of {s : State} {j : Job} {g : Group} {wr : Bool} {p n : Nat} {x : Place} (h : jobAt s j g wr p n = some x) :
    s.JobHit j g wr p n x ∧ s.clear x n := by
  unfold jobAt at h
  split at h
  · rename_i y hy
    split at h
    · rename_i hc
      cases h
      exact ⟨Or.inl hy, clear_of hc⟩
    · cases h
  · cases h
  · rename_i hl
    split at h
    · rename_i hn
      simp only [Bool.and_eq_true, decide_eq_true_eq] at hn
      split at h
      · cases h
      · rename_i e he
        split at h
        · rename_i y hy
          simp only at h
          split at h
          · rename_i hc
            simp only [Bool.and_eq_true, Bool.not_eq_true', beq_iff_eq] at hc
            cases h
            exact ⟨Or.inr ⟨hl, hn.1, hn.2, hc.1.2, e, y, he, hy, hc.1.1, rfl⟩, clear_of hc.2⟩
          · cases h
        · cases h
    · cases h

/-! ## Palettes and shape records of the tests -/

/-- Palette p of a group: valid or not, its rows, their descriptor and its codebook. -/
def withPal (p : Nat) (valid : Bool) (src : DWord) (rows : Nat) (rcv : Bool) (kb : Nat) (g : Group) : Group :=
  { g with pals := [(p, { emptyPal with has := true, valid := valid, desc := some ⟨src, 4, rows, 1, rcv, 0, kb⟩,
                                        rows := List.replicate rows ⟨0, false, false, []⟩ })] }
/-- A shape record that the core holds for the address 0x10800. -/
def withShape (v : Nat) (s : State) : State := { s with shapes := [⟨0, 0, 0x10800, v⟩] }
def shapeHeld (s : State) (r : Rdy) (v : Nat) : Bool :=
  s.shapes.any (fun e => e.core == r.i.g.core && e.ctx == s.ctxOf r.i.g && e.addr == 0x10800 && e.shape == v)
/-- Its rows: address and length. -/
def shapeRows (v : Nat) : List (Nat × Nat) := (List.range (shRows v)).map (fun n => (shRow v n, shRowBytes v))
def low32 (v : DWord) : Nat := (v.extractLsb' 0 32).toNat
/-- Eight bytes at each active lane's address. -/
def reqs8 (r : Rdy) : List Req := (lanesOf r.act).map (fun u => ⟨u, (r.a u).toNat, 8⟩)

/-! ## Ill-formed terms: one for each check of step 1 and steps 4 to 7 of R154 -/

/-- A format the form does not admit, a source it leaves unused, a type, ATT bits on a form without a long latency, and a modifier. -/
theorem test_wf_refuses_fields : ∀ i ∈ ([.ffma ⟨⟨0, false⟩, 1, .v 2, .k 0 0 .f32 0⟩,
      .iadd ⟨⟨0, false⟩, 1, .v 0, .i 5⟩,
      .movi ⟨⟨0, false⟩, 1, .v 0, .r (.v 0) (.v 0) .i32 0⟩,
      .nop ⟨⟨0, false⟩, 0, .v 1, .r (.v 0) (.v 0) .i32 0⟩,
      .iabs ⟨⟨0, false⟩, 1, .v 2, .r (.v 3) (.v 0) .i32 0⟩,
      .iadd ⟨⟨0, false⟩, 1, .v 2, .r (.v 3) (.v 4) .i32 0⟩,
      .iabs ⟨⟨0, false⟩, 1, .v 2, .k 0 0 .i32 0⟩,
      .iadd ⟨⟨0, false⟩, 1, .v 2, .r (.v 3) (.v 0) .f32 0⟩,
      .fadd ⟨⟨0, false⟩, 1, .v 2, .r (.v 3) (.v 0) .i32 0⟩,
      .nop ⟨⟨0, false⟩, 0, .v 0, .r (.v 0) (.v 0) .n32 0⟩,
      .fdiv ⟨⟨0, false⟩, 1, .v 2, .r (.v 3) (.v 0) .f32 192⟩,
      .iadd ⟨⟨0, false⟩, 1, .v 2, .r (.v 3) (.v 0) .i32 64⟩,
      .iadd ⟨⟨0, false⟩, 1, .v 2, .r (.v 3) (.v 0) .i32 2⟩,
      .fadd ⟨⟨0, false⟩, 1, .v 2, .r (.v 3) (.v 0) .f32 5⟩,
      .icmp ⟨⟨0, false⟩, 1, .v 2, .r (.v 3) (.v 0) .i32 9⟩,
      .lfold ⟨⟨0, false⟩, 1, .v 2, .r (.v 0) (.v 0) .f32 3⟩,
      .cvt ⟨⟨0, false⟩, 1, .v 2, .r (.v 0) (.v 0) .i32 12⟩,
      .fcmp ⟨⟨0, false⟩, 1, .v 2, .r (.v 3) (.v 0) .f32 14⟩] : List Instr), i.wf = false :=
  by decide +kernel

/-- A source code the form does not admit, a destination outside its class, and a guard on TRET. -/
theorem test_wf_refuses_operands : ∀ i ∈ ([.iaddS ⟨⟨0, false⟩, 1, .v 2, .r (.s 3) (.v 0) .i32 0⟩,
      .iaddS ⟨⟨0, false⟩, 1, .sp 0, .r (.s 3) (.v 0) .i32 0⟩,
      .iaddS ⟨⟨0, false⟩, 1, .v 2, .k 0 0 .i32 0⟩,
      .lea ⟨⟨0, false⟩, 2, .imm 4, .r (.v 3) (.v 0) .i32 0⟩,
      .leaS ⟨⟨0, false⟩, 2, .v 4, .r (.s 3) (.v 0) .i32 0⟩,
      .ipick ⟨⟨0, false⟩, 1, .v 2, .r (.v 3) (.v 4) .i32 0⟩,
      .lxch ⟨⟨0, false⟩, 1, .v 2, .r (.imm 1) (.v 7) .i32 0⟩,
      .pset ⟨⟨0, false⟩, 1, .v 1, .r (.k 2) (.v 0) .i32 0⟩,
      .pset ⟨⟨0, false⟩, 1, .k 1, .r (.k 2) (.v 0) .i32 4⟩,
      .pmov ⟨⟨0, false⟩, 1, .v 1, .r (.v 0) (.v 0) .i32 0⟩,
      .jmp ⟨⟨0, false⟩, 0, .imm 8, .r (.v 0) (.v 0) .i32 0⟩,
      .ret ⟨⟨0, false⟩, 0, .v 255, .r (.v 0) (.v 0) .i32 0⟩,
      .jwait ⟨⟨0, false⟩, 0, .imm 16, .r (.v 0) (.v 0) .i32 0⟩,
      .give ⟨⟨0, false⟩, 0, .v 1, .r (.v 0) (.v 0) .i32 0⟩,
      .pkrwr ⟨⟨0, false⟩, 0, .s 1, .r (.v 1) (.v 0) .i32 0⟩,
      .qbind ⟨⟨0, false⟩, 0, .imm 8, .r (.s 1) (.v 0) .i32 0⟩,
      .qeos ⟨⟨0, false⟩, 0, .imm 8, .r (.v 0) (.v 0) .i32 0⟩,
      .bpack ⟨⟨0, false⟩, 8, .s 2, .r (.v 0) (.v 0) .f32 0⟩,
      .bunpack ⟨⟨0, false⟩, 1, .s 8, .r (.imm 3) (.v 0) .f32 3⟩,
      .iadd64 ⟨⟨0, false⟩, 2, .v 2, .r (.q 1) (.v 0) .i64 0⟩,
      .imadw ⟨⟨0, false⟩, 2, .v 1, .r (.v 2) (.k 1) .i32 0⟩,
      .nop ⟨⟨0, false⟩, 1, .v 0, .r (.v 0) (.v 0) .i32 0⟩,
      .iaddS ⟨⟨0, false⟩, 64, .s 1, .r (.s 2) (.v 0) .i32 0⟩,
      .iadd64S ⟨⟨0, false⟩, 80, .s 1, .r (.s 2) (.v 0) .i64 0⟩,
      .icmp ⟨⟨0, false⟩, 0, .v 1, .r (.v 2) (.v 0) .i32 0⟩,
      .icmp ⟨⟨0, false⟩, 8, .v 1, .r (.v 2) (.v 0) .i32 0⟩,
      .bpack ⟨⟨0, false⟩, 80, .v 2, .r (.v 0) (.v 0) .f32 0⟩,
      .tret ⟨⟨1, false⟩, 0, .v 0, .r (.v 0) (.v 0) .i32 0⟩] : List Instr), i.wf = false :=
  by decide +kernel

/-- The memory word, CAS64, FENCE, PREF, CCTL, ACOPY and BAR. -/
theorem test_wf_refuses_memory_fields : ∀ i ∈ ([.ld ⟨⟨0, false⟩, 5, .v 2, .v 0, 0, 0, 4, 0, 3, 0⟩,
      .ld ⟨⟨0, false⟩, 5, .v 2, .v 0, 0, 7, 4, 0, 0, 0⟩,
      .ld ⟨⟨0, false⟩, 5, .imm 2, .v 0, 0, 0, 4, 0, 0, 0⟩,
      .ld ⟨⟨0, false⟩, 5, .v 2, .v 1, 0, 0, 4, 0, 0, 0⟩,
      .ld ⟨⟨0, false⟩, 5, .v 2, .v 0, 2, 0, 4, 0, 0, 0⟩,
      .ld ⟨⟨0, false⟩, 5, .v 2, .v 0, 0, 0, 7, 0, 0, 0⟩,
      .ld ⟨⟨0, false⟩, 5, .v 2, .v 0, 0, 0, 4, 0, 0, 3⟩,
      .ldS ⟨⟨0, false⟩, 5, .v 2, .v 0, 0, 0, 4, 0, 0, 0⟩,
      .ldS ⟨⟨0, false⟩, 5, .s 2, .s 1, 0, 0, 7, 1, 0, 32⟩,
      .ldS ⟨⟨0, false⟩, 5, .s 2, .v 0, 0, 0, 7, 0, 0, 11⟩,
      .ldS ⟨⟨0, false⟩, 80, .s 2, .v 0, 0, 0, 5, 0, 0, 0⟩,
      .st ⟨⟨0, false⟩, 1, .v 2, .v 4, 0, 0, 4, 0, 0, 0⟩,
      .st ⟨⟨0, false⟩, 0, .v 2, .v 4, 1, 0, 4, 0, 0, 0⟩,
      .st ⟨⟨0, false⟩, 0, .v 2, .v 4, 0, 0, 1, 0, 0, 0⟩,
      .st ⟨⟨0, false⟩, 0, .v 2, .q 4, 0, 0, 5, 0, 0, 0⟩,
      .st ⟨⟨0, false⟩, 0, .v 2, .imm 4, 0, 0, 6, 0, 0, 0⟩,
      .st ⟨⟨0, false⟩, 0, .v 2, .s 4, 0, 0, 7, 0, 0, 0⟩,
      .atom ⟨⟨0, false⟩, 1, .v 2, .v 4, 0, 0, 0, 0, 0, 9⟩,
      .atom ⟨⟨0, false⟩, 1, .v 2, .v 4, 0, 0, 4, 0, 0, 3⟩,
      .atom ⟨⟨0, false⟩, 1, .v 2, .k 4, 0, 0, 2, 0, 0, 0⟩,
      .red ⟨⟨0, false⟩, 1, .v 2, .v 4, 0, 0, 4, 0, 0, 0⟩,
      .red ⟨⟨0, false⟩, 0, .v 2, .v 4, 0, 0, 4, 0, 0, 16⟩,
      .red ⟨⟨0, false⟩, 0, .v 2, .v 4, 1, 0, 4, 0, 0, 0⟩,
      .cas64 ⟨⟨0, false⟩, 2, .imm 4, .s 6, 3, 4, true, 8, 1, true⟩,
      .cas64 ⟨⟨0, false⟩, 2, .v 4, .q 6, 3, 4, true, 8, 1, true⟩,
      .fence ⟨⟨0, false⟩, 2, 7⟩,
      .pref ⟨⟨0, false⟩, .imm 1, 0, false, false⟩,
      .cctlIvl1 ⟨⟨0, false⟩, .v 1, 0, false, false⟩,
      .cctlIvline ⟨⟨0, false⟩, .imm 1, 0, false, false⟩,
      .cctlEvl2 ⟨⟨0, false⟩, .s 1, 0, true, false⟩,
      .acopy ⟨⟨0, false⟩, 64, .s 2, .s 4, .imm 64, 1⟩,
      .acopy ⟨⟨0, false⟩, 1, .s 2, .s 4, .v 1, 1⟩,
      .bar ⟨⟨0, false⟩, .imm 2, 300, false⟩,
      .bar ⟨⟨0, false⟩, .v 2, 300, true⟩,
      .barGrid ⟨⟨0, false⟩, .v 0, 1, false⟩] : List Instr), i.wf = false :=
  by decide +kernel

/-- Barrier objects, futures, watches, the dispenser and the palette forms. -/
theorem test_wf_refuses_object_and_palette_fields : ∀ i ∈ ([.syncset ⟨⟨0, false⟩, 1, .s 2, .imm 3, 2, 1⟩,
      .synchit ⟨⟨0, false⟩, 64, .s 2, .imm 3, 2, 1⟩,
      .synchold ⟨⟨0, false⟩, 0, .s 2, .imm 3, 2, 1⟩,
      .syncdrop ⟨⟨0, false⟩, 0, .s 2, .imm 3, 2, 1⟩,
      .fwait ⟨⟨0, false⟩, 7, .v 2, .v 0, 6, 1⟩,
      .fput ⟨⟨0, false⟩, 0, .v 2, .v 7, 6, 1⟩,
      .fput ⟨⟨0, false⟩, 0, .s 2, .v 7, 7, 1⟩,
      .watch ⟨⟨0, false⟩, 4, .v 2, .v 0, 1⟩,
      .watchClr ⟨⟨0, false⟩, 4, .s 2, .s 9, 0⟩,
      .disp ⟨⟨0, false⟩, 80, .s 2, .v 0, 0⟩,
      .disp ⟨⟨0, false⟩, 4, .s 2, .v 0, 3⟩,
      .pbuild ⟨⟨0, false⟩, 0, .s 3, .imm 1, .v 0, 3, 1, false⟩,
      .pbuild ⟨⟨0, false⟩, 0, .s 2, .imm 1, .s 9, 3, 1, false⟩,
      .pbuild ⟨⟨0, false⟩, 0, .s 2, .imm 1, .v 0, 4, 1, false⟩,
      .pinv ⟨⟨0, false⟩, 0, .v 0, .v 0, .v 0, 2, 1, false⟩,
      .pstat ⟨⟨0, false⟩, 64, .v 0, .v 0, .v 0, 1, 0, false⟩,
      .pspill ⟨⟨0, false⟩, 0, .v 2, .v 0, .v 0, 1, 1, false⟩,
      .pfill ⟨⟨0, false⟩, 0, .s 2, .v 0, .v 0, 3, 2, true⟩,
      .azero ⟨⟨0, false⟩, 0, .s 1, .imm 5, .imm 64, 15, 0, false⟩,
      .azero ⟨⟨0, false⟩, 0, .v 0, .v 5, .imm 64, 15, 0, false⟩,
      .aload ⟨⟨0, false⟩, 0, .s 6, .s 1, .v 0, 4, 1, true⟩,
      .aread ⟨⟨0, false⟩, 9, .s 1, .s 2, .s 3, 6, 1, false⟩,
      .aver ⟨⟨0, false⟩, 11, .v 0, .v 0, .v 0, 12, 1, false⟩,
      .adrain ⟨⟨0, false⟩, 0, .s 7, .s 1, .v 0, 4, 1, false⟩,
      .rfence ⟨⟨0, false⟩, 0, .v 0, .v 0, .v 0, 1, 0, false⟩,
      .srld ⟨⟨0, false⟩, 0, .s 9, .v 0, .v 0, 0, 2, false⟩,
      .plook ⟨⟨0, false⟩, .s 5, .s 7, 32, 2, 9, 1, 5, false, true, true⟩,
      .plook ⟨⟨0, false⟩, .s 4, .s 7, 32, 2, 9, 1, 5, true, true, true⟩] : List Instr), i.wf = false :=
  by decide +kernel

/-- The system and control forms; an event has no word. -/
theorem test_wf_refuses_system_and_control_fields : ∀ i ∈ ([.spawn ⟨⟨0, false⟩, 0, .s 3, 0, 1, false⟩,
      .ejob ⟨⟨0, false⟩, 64, .s 2, 0, 2, false⟩,
      .csrrd ⟨⟨0, false⟩, 1, .v 0, 26, 0, false⟩,
      .csrrd ⟨⟨0, false⟩, 1, .s 1, 52, 0, false⟩,
      .csrwr ⟨⟨0, false⟩, 0, .v 3, 48, 0, false⟩,
      .csrwr ⟨⟨0, false⟩, 1, .s 3, 48, 0, false⟩,
      .perfrd ⟨⟨0, false⟩, 8, .v 0, 12, 1, false⟩,
      .icinv ⟨⟨0, false⟩, 0, .v 0, 0, 0, true⟩,
      .icinv ⟨⟨0, false⟩, 0, .s 1, 0, 0, false⟩,
      .bias ⟨⟨0, false⟩, 0, .s 2, 1, 1, true⟩,
      .spawn ⟨⟨0, false⟩, 0, .s 2, 0, 3, false⟩,
      .call ⟨⟨0, false⟩, 255, 16⟩,
      .jset ⟨⟨0, false⟩, 11, .v 5, 9⟩,
      .loop ⟨⟨0, false⟩, 3, .imm 10, 291⟩,
      .loop ⟨⟨0, false⟩, 2, .v 1, 291⟩,
      .lbrk ⟨⟨1, false⟩, 3⟩,
      .groupEnd 1,
      .reset] : List Instr), i.wf = false :=
  by decide +kernel

/-! ## Words written out from the field tables of the manual -/

/-- Words of the integer forms. -/
def integerWords : List (Nat × Instr) :=
  [
   (0x0100100480400000, .iadd ⟨⟨0, false⟩, 4, .v 4, .r (.imm 1) (.v 0) .i32 0⟩),
   (0x021C1C0940C00701, .isub ⟨⟨3, true⟩, 7, .v 9, .r (.s 3) (.v 0) .n8x4 1⟩),
   (0x0300180100800400, .imul ⟨⟨0, false⟩, 6, .v 1, .r (.v 2) (.v 0) .i16x2 0⟩),
   (0x0500240100803500, .imad ⟨⟨0, false⟩, 9, .v 1, .r (.v 2) (.v 3) .n16x2 0⟩),
   (0x0600280140804000, .imadw ⟨⟨0, false⟩, 10, .v 1, .r (.s 2) (.v 4) .i32 0⟩),
   (0x0700300241000201, .iadd64 ⟨⟨0, false⟩, 12, .v 2, .r (.s 4) (.v 0) .i64 1⟩),
   (0x0A00180100800180, .irem ⟨⟨0, false⟩, 6, .v 1, .r (.v 2) (.v 0) .n32 128⟩),
   (0x0B000402BFC00600, .imin ⟨⟨0, false⟩, 1, .v 2, .r (.imm 255) (.v 0) .i8x4 0⟩),
   (0x0C00040256000500, .imax ⟨⟨0, false⟩, 1, .v 2, .r (.lit) (.v 0) .n16x2 0⟩),
   (0x0D00040200000401, .iabs ⟨⟨0, false⟩, 1, .v 2, .r (.v 0) (.v 0) .i16x2 1⟩),
   (0x0E00040200C00000, .and ⟨⟨0, false⟩, 1, .v 2, .r (.v 3) (.v 0) .i32 0⟩),
   (0x1000040255400000, .xor ⟨⟨0, false⟩, 1, .v 2, .r (.q 5) (.v 0) .i32 0⟩),
   (0x1100054000C00000, .andn ⟨⟨0, false⟩, 1, .sp 0, .r (.v 3) (.v 0) .i32 0⟩),
   (0x1200040281000000, .shl ⟨⟨0, false⟩, 1, .v 2, .r (.imm 4) (.v 0) .i32 0⟩),
   (0x1300040200C00700, .shr ⟨⟨0, false⟩, 1, .v 2, .r (.v 3) (.v 0) .n8x4 0⟩),
   (0x1400040200C00400, .sar ⟨⟨0, false⟩, 1, .v 2, .r (.v 3) (.v 0) .i16x2 0⟩),
   (0x1500040200C00100, .rot ⟨⟨0, false⟩, 1, .v 2, .r (.v 3) (.v 0) .n32 0⟩),
   (0x1600040200C00100, .bfe ⟨⟨0, false⟩, 1, .v 2, .r (.v 3) (.v 0) .n32 0⟩),
   (0x1700040200C04000, .bfi ⟨⟨0, false⟩, 1, .v 2, .r (.v 3) (.v 4) .i32 0⟩),
   (0x1800040200000000, .popc ⟨⟨0, false⟩, 1, .v 2, .r (.v 0) (.v 0) .i32 0⟩),
   (0x1900050200000000, .clz ⟨⟨0, false⟩, 1, .s 2, .r (.v 0) (.v 0) .i32 0⟩),
   (0x1A00040200000000, .ctz ⟨⟨0, false⟩, 1, .v 2, .r (.v 0) (.v 0) .i32 0⟩),
   (0x1B00040200000000, .brev ⟨⟨0, false⟩, 1, .v 2, .r (.v 0) (.v 0) .i32 0⟩),
   (0x1C00080400C0000A, .lea ⟨⟨0, false⟩, 2, .v 4, .r (.v 3) (.v 0) .i32 10⟩),
   (0x1D000C0200C0060D, .icmp ⟨⟨0, false⟩, 3, .v 2, .r (.v 3) (.v 0) .i8x4 13⟩),
   (0x1E00040200F04001, .ipick ⟨⟨0, false⟩, 1, .v 2, .r (.v 3) (.k 4) .i32 1⟩),
   (0x1F00090400000300, .mov ⟨⟨0, false⟩, 2, .s 4, .r (.v 0) (.v 0) .n64 0⟩),
   (0x209FF800DEADBEEF, .movi ⟨⟨3, true⟩, 254, .v 0, .i 3735928559⟩),
   (0x0400200501800100, .imulh ⟨⟨0, false⟩, 8, .v 5, .r (.v 6) (.v 0) .n32 0⟩),
   (0x0800380602000300, .isub64 ⟨⟨0, false⟩, 14, .v 6, .r (.v 8) (.v 0) .n64 0⟩),
   (0x0900140100800040, .idiv ⟨⟨0, false⟩, 5, .v 1, .r (.v 2) (.v 0) .i32 64⟩),
   (0x0F00040200C00000, .or ⟨⟨0, false⟩, 1, .v 2, .r (.v 3) (.v 0) .i32 0⟩)]
theorem test_decode_integer : ∀ p ∈ integerWords, decodeTableWord 64 p.1 = some p.2 :=
  by decide +kernel

theorem test_clears_integer : ∀ p ∈ integerWords, (bench p.1).clears p.2 = true :=
  by decide +kernel

/-- Words of the lane forms. -/
def laneWords : List (Nat × Instr) :=
  [
   (0x2100080300000003, .ltest ⟨⟨0, false⟩, 2, .v 3, .r (.v 0) (.v 0) .i32 3⟩),
   (0x2201470300000004, .ltestS ⟨⟨0, false⟩, 81, .k 3, .r (.v 0) (.v 0) .i32 4⟩),
   (0x230004028040702E, .lxch ⟨⟨0, false⟩, 1, .v 2, .r (.imm 1) (.v 7) .i32 46⟩),
   (0x2400140200000802, .lfold ⟨⟨0, false⟩, 5, .v 2, .r (.v 0) (.v 0) .f32 2⟩),
   (0x250018020000020D, .scan ⟨⟨0, false⟩, 6, .v 2, .r (.v 0) (.v 0) .i64 13⟩),
   (0x2600040200000100, .lsame ⟨⟨0, false⟩, 1, .v 2, .r (.v 0) (.v 0) .n32 0⟩),
   (0x27001F01C0800003, .pset ⟨⟨0, false⟩, 7, .k 1, .r (.k 2) (.v 0) .i32 3⟩),
   (0x2800180100000001, .pmov ⟨⟨0, false⟩, 6, .v 1, .r (.v 0) (.v 0) .i32 1⟩)]
theorem test_decode_lane : ∀ p ∈ laneWords, decodeTableWord 64 p.1 = some p.2 :=
  by decide +kernel

theorem test_clears_lane : ∀ p ∈ laneWords, (bench p.1).clears p.2 = true :=
  by decide +kernel

/-- Words of the control forms. -/
def controlWords : List (Nat × Instr) :=
  [
   (0x301C000000000000, .nop ⟨⟨3, true⟩, 0, .v 0, .r (.v 0) (.v 0) .i32 0⟩),
   (0x31DC0000FFFFFFFE, .bra ⟨⟨3, true⟩, 4294967294⟩),
   (0x3200000800000000, .jmp ⟨⟨0, false⟩, 0, .v 8, .r (.v 0) (.v 0) .i32 0⟩),
   (0x33C000FE00000010, .call ⟨⟨0, false⟩, 254, 16⟩),
   (0x3400000900000000, .ret ⟨⟨0, false⟩, 0, .v 9, .r (.v 0) (.v 0) .i32 0⟩),
   (0x35C2C10500000009, .jset ⟨⟨0, false⟩, 11, .s 5, 9⟩),
   (0x3600020B00000000, .jwait ⟨⟨0, false⟩, 0, .imm 11, .r (.v 0) (.v 0) .i32 0⟩),
   (0x37C2020A00000123, .loop ⟨⟨0, false⟩, 2, .imm 10, 291⟩),
   (0x38C9000000000000, .lbrk ⟨⟨1, false⟩, 1⟩),
   (0x3900000000000000, .exit ⟨⟨0, false⟩, 0, .v 0, .r (.v 0) (.v 0) .i32 0⟩),
   (0x3A00000000000000, .yield ⟨⟨0, false⟩, 0, .v 0, .r (.v 0) (.v 0) .i32 0⟩),
   (0x3B800000000055AA, .trap ⟨⟨0, false⟩, 0, .v 0, .i 21930⟩),
   (0x3C00000000000000, .tret ⟨⟨0, false⟩, 0, .v 0, .r (.v 0) (.v 0) .i32 0⟩)]
theorem test_decode_control : ∀ p ∈ controlWords, decodeTableWord 64 p.1 = some p.2 :=
  by decide +kernel

theorem test_clears_control : ∀ p ∈ controlWords, (bench p.1).clears p.2 = true :=
  by decide +kernel

/-- Words of the scalar forms. -/
def scalarWords : List (Nat × Instr) :=
  [
   (0x41000D0180800001, .iaddS ⟨⟨0, false⟩, 3, .s 1, .r (.imm 2) (.v 0) .i32 1⟩),
   (0x4201410140800100, .isubS ⟨⟨0, false⟩, 80, .s 1, .r (.s 2) (.v 0) .n32 0⟩),
   (0x43000D0140800500, .imulS ⟨⟨0, false⟩, 3, .s 1, .r (.s 2) (.v 0) .n16x2 0⟩),
   (0x45000D0140903000, .imadS ⟨⟨0, false⟩, 3, .s 1, .r (.s 2) (.s 3) .i32 0⟩),
   (0x4700110280400300, .iadd64S ⟨⟨0, false⟩, 4, .s 2, .r (.imm 1) (.v 0) .n64 0⟩),
   (0x4800110241800201, .isub64S ⟨⟨0, false⟩, 4, .s 2, .r (.s 6) (.v 0) .i64 1⟩),
   (0x49000D0140800040, .idivS ⟨⟨0, false⟩, 3, .s 1, .r (.s 2) (.v 0) .i32 64⟩),
   (0x4B000D0140800600, .iminS ⟨⟨0, false⟩, 3, .s 1, .r (.s 2) (.v 0) .i8x4 0⟩),
   (0x4C000D0140800000, .imaxS ⟨⟨0, false⟩, 3, .s 1, .r (.s 2) (.v 0) .i32 0⟩),
   (0x4D000D0100000600, .iabsS ⟨⟨0, false⟩, 3, .s 1, .r (.v 0) (.v 0) .i8x4 0⟩),
   (0x4E000D01C0800000, .andS ⟨⟨0, false⟩, 3, .s 1, .r (.k 2) (.v 0) .i32 0⟩),
   (0x4F000D0140800000, .orS ⟨⟨0, false⟩, 3, .s 1, .r (.s 2) (.v 0) .i32 0⟩),
   (0x50000D0140800000, .xorS ⟨⟨0, false⟩, 3, .s 1, .r (.s 2) (.v 0) .i32 0⟩),
   (0x51000D0140800000, .andnS ⟨⟨0, false⟩, 3, .s 1, .r (.s 2) (.v 0) .i32 0⟩),
   (0x52000D0180C00100, .shlS ⟨⟨0, false⟩, 3, .s 1, .r (.imm 3) (.v 0) .n32 0⟩),
   (0x53000D0140800100, .shrS ⟨⟨0, false⟩, 3, .s 1, .r (.s 2) (.v 0) .n32 0⟩),
   (0x54000D0140800000, .sarS ⟨⟨0, false⟩, 3, .s 1, .r (.s 2) (.v 0) .i32 0⟩),
   (0x55000D0140800400, .rotS ⟨⟨0, false⟩, 3, .s 1, .r (.s 2) (.v 0) .i16x2 0⟩),
   (0x56000D0156000000, .bfeS ⟨⟨0, false⟩, 3, .s 1, .r (.lit) (.v 0) .i32 0⟩),
   (0x57000D0140903000, .bfiS ⟨⟨0, false⟩, 3, .s 1, .r (.s 2) (.s 3) .i32 0⟩),
   (0x58000F0100000000, .popcS ⟨⟨0, false⟩, 3, .k 1, .r (.v 0) (.v 0) .i32 0⟩),
   (0x59000D0100000000, .clzS ⟨⟨0, false⟩, 3, .s 1, .r (.v 0) (.v 0) .i32 0⟩),
   (0x5A000D0100000000, .ctzS ⟨⟨0, false⟩, 3, .s 1, .r (.v 0) (.v 0) .i32 0⟩),
   (0x5B000D0100000000, .brevS ⟨⟨0, false⟩, 3, .s 1, .r (.v 0) (.v 0) .i32 0⟩),
   (0x5C00110251000003, .leaS ⟨⟨0, false⟩, 4, .s 2, .r (.sp 4) (.v 0) .i32 3⟩),
   (0x5E000D0140B05000, .ipickS ⟨⟨0, false⟩, 3, .s 1, .r (.s 2) (.k 5) .i32 0⟩),
   (0x5F00F94900000000, .movS ⟨⟨0, false⟩, 62, .sp 9, .r (.v 0) (.v 0) .i32 0⟩),
   (0x6080FC0000000007, .moviS ⟨⟨0, false⟩, 63, .v 0, .i 7⟩),
   (0x44000D0140800000, .imulhS ⟨⟨0, false⟩, 3, .s 1, .r (.s 2) (.v 0) .i32 0⟩),
   (0x4A00110241800300, .iremS ⟨⟨0, false⟩, 4, .s 2, .r (.s 6) (.v 0) .n64 0⟩)]
theorem test_decode_scalar : ∀ p ∈ scalarWords, decodeTableWord 64 p.1 = some p.2 :=
  by decide +kernel

theorem test_clears_scalar : ∀ p ∈ scalarWords, (bench p.1).clears p.2 = true :=
  by decide +kernel

/-- Words of the float forms. -/
def floatWords : List (Nat × Instr) :=
  [
   (0x7000040200C00804, .fadd ⟨⟨0, false⟩, 1, .v 2, .r (.v 3) (.v 0) .f32 4⟩),
   (0x7100040280400900, .fsub ⟨⟨0, false⟩, 1, .v 2, .r (.imm 1) (.v 0) .f16x2 0⟩),
   (0x7300040200C04801, .ffma ⟨⟨0, false⟩, 1, .v 2, .r (.v 3) (.v 4) .f32 1⟩),
   (0x7400040200C00801, .fmin ⟨⟨0, false⟩, 1, .v 2, .r (.v 3) (.v 0) .f32 1⟩),
   (0x7500040200C00900, .fmax ⟨⟨0, false⟩, 1, .v 2, .r (.v 3) (.v 0) .f16x2 0⟩),
   (0x7600080200C0091D, .fcmp ⟨⟨0, false⟩, 2, .v 2, .r (.v 3) (.v 0) .f16x2 29⟩),
   (0x7700040200F01800, .fpick ⟨⟨0, false⟩, 1, .v 2, .r (.v 3) (.k 1) .f32 0⟩),
   (0x7800040200000800, .fclass ⟨⟨0, false⟩, 1, .v 2, .r (.v 0) (.v 0) .f32 0⟩),
   (0x7900040200000803, .frnd ⟨⟨0, false⟩, 1, .v 2, .r (.v 0) (.v 0) .f32 3⟩),
   (0x7A00040200C00A00, .fscale ⟨⟨0, false⟩, 1, .v 2, .r (.v 3) (.v 0) .bf16x2 0⟩),
   (0x8000040200C00841, .fdiv ⟨⟨0, false⟩, 1, .v 2, .r (.v 3) (.v 0) .f32 65⟩),
   (0x8100040200000880, .rcp ⟨⟨0, false⟩, 1, .v 2, .r (.v 0) (.v 0) .f32 128⟩),
   (0x8200040200000900, .rsq ⟨⟨0, false⟩, 1, .v 2, .r (.v 0) (.v 0) .f16x2 0⟩),
   (0x8300040200000800, .sqrt ⟨⟨0, false⟩, 1, .v 2, .r (.v 0) (.v 0) .f32 0⟩),
   (0x8400040200000800, .log2 ⟨⟨0, false⟩, 1, .v 2, .r (.v 0) (.v 0) .f32 0⟩),
   (0x8500040200000800, .exp2 ⟨⟨0, false⟩, 1, .v 2, .r (.v 0) (.v 0) .f32 0⟩),
   (0x8600040200000800, .sin ⟨⟨0, false⟩, 1, .v 2, .r (.v 0) (.v 0) .f32 0⟩),
   (0x8700040200000800, .cos ⟨⟨0, false⟩, 1, .v 2, .r (.v 0) (.v 0) .f32 0⟩),
   (0x8800040200000A40, .tanh ⟨⟨0, false⟩, 1, .v 2, .r (.v 0) (.v 0) .bf16x2 64⟩),
   (0x8900040200000020, .cvt ⟨⟨0, false⟩, 1, .v 2, .r (.v 0) (.v 0) .i32 32⟩),
   (0x8C00090300000807, .cvtS ⟨⟨0, false⟩, 2, .s 3, .r (.v 0) (.v 0) .f32 7⟩),
   (0x8A00200200000843, .bpack ⟨⟨0, false⟩, 8, .v 2, .r (.v 0) (.v 0) .f32 67⟩),
   (0x8B0005088100090B, .bunpack ⟨⟨0, false⟩, 1, .s 8, .r (.imm 4) (.v 0) .f16x2 11⟩),
   (0x9000050240C00800, .faddS ⟨⟨0, false⟩, 1, .s 2, .r (.s 3) (.v 0) .f32 0⟩),
   (0x9100050240C00800, .fsubS ⟨⟨0, false⟩, 1, .s 2, .r (.s 3) (.v 0) .f32 0⟩),
   (0x9200050256000800, .fmulS ⟨⟨0, false⟩, 1, .s 2, .r (.lit) (.v 0) .f32 0⟩),
   (0x9300050240D04800, .ffmaS ⟨⟨0, false⟩, 1, .s 2, .r (.s 3) (.s 4) .f32 0⟩),
   (0x9400050240C00801, .fminS ⟨⟨0, false⟩, 1, .s 2, .r (.s 3) (.v 0) .f32 1⟩),
   (0x9500050240C00800, .fmaxS ⟨⟨0, false⟩, 1, .s 2, .r (.s 3) (.v 0) .f32 0⟩),
   (0x9700050240F07801, .fpickS ⟨⟨0, false⟩, 1, .s 2, .r (.s 3) (.k 7) .f32 1⟩),
   (0x7200040200C00A00, .fmul ⟨⟨0, false⟩, 1, .v 2, .r (.v 3) (.v 0) .bf16x2 0⟩)]
theorem test_decode_float : ∀ p ∈ floatWords, decodeTableWord 64 p.1 = some p.2 :=
  by decide +kernel

theorem test_clears_float : ∀ p ∈ floatWords, (bench p.1).clears p.2 = true :=
  by decide +kernel

/-- Words of the memory forms. -/
def memoryWords : List (Nat × Instr) :=
  [
   (0xB0C0140200150200, .ld ⟨⟨0, false⟩, 5, .v 2, .v 0, 1, 2, 4, 2, 0, 0⟩),
   (0xB2C00002012B9F81, .st ⟨⟨0, false⟩, 0, .v 2, .v 4, 2, 5, 6, 31, 2, 1⟩),
   (0xB4C00002010B0C20, .red ⟨⟨0, false⟩, 0, .v 2, .v 4, 0, 5, 4, 12, 0, 32⟩),
   (0xB5C0080441B90850, .cas64 ⟨⟨0, false⟩, 2, .v 4, .s 6, 3, 4, true, 8, 1, true⟩),
   (0xB6DC0000002A0000, .fence ⟨⟨3, true⟩, 2, 5⟩),
   (0xB7C0000200000043, .pref ⟨⟨0, false⟩, .v 2, 1, true, true⟩),
   (0xB8C0000000000000, .cctlIvl1 ⟨⟨0, false⟩, .v 0, 0, false, false⟩),
   (0xB8C0000200000081, .cctlIvline ⟨⟨0, false⟩, .v 2, 2, false, false⟩),
   (0xB8C0000000000002, .cctlIvconst ⟨⟨0, false⟩, .v 0, 0, false, false⟩),
   (0xB8C0010200000003, .cctlEvl2 ⟨⟨0, false⟩, .s 2, 0, false, false⟩),
   (0xB9C0510241240040, .acopy ⟨⟨0, false⟩, 20, .s 2, .s 4, .imm 64, 1⟩),
   (0xBAC0020296000800, .bar ⟨⟨0, false⟩, .imm 2, 300, true⟩),
   (0xBAC0000000400000, .barGrid ⟨⟨0, false⟩, .v 0, 0, false⟩),
   (0xBBC0010280C40040, .syncset ⟨⟨0, false⟩, 0, .s 2, .imm 3, 2, 1⟩),
   (0xBCC14D0241640000, .synchit ⟨⟨0, false⟩, 83, .s 2, .s 5, 2, 0⟩),
   (0xBDC0010241560000, .synchold ⟨⟨0, false⟩, 0, .s 2, .s 5, 3, 0⟩),
   (0xBEC0010200000000, .syncdrop ⟨⟨0, false⟩, 0, .s 2, .v 0, 0, 0⟩),
   (0xBFC01C02001C0000, .fwait ⟨⟨0, false⟩, 7, .v 2, .v 0, 6, 0⟩),
   (0xC0C0010201EC0080, .fput ⟨⟨0, false⟩, 0, .s 2, .v 7, 6, 2⟩),
   (0xC1C0110200000040, .watch ⟨⟨0, false⟩, 4, .s 2, .v 0, 1⟩),
   (0xC1C0100042400001, .watchClr ⟨⟨0, false⟩, 4, .v 0, .s 9, 0⟩),
   (0xC2C0190200000080, .disp ⟨⟨0, false⟩, 6, .s 2, .v 0, 2⟩),
   (0xC300020380800000, .qbind ⟨⟨0, false⟩, 0, .imm 3, .r (.imm 2) (.v 0) .i32 0⟩),
   (0xC400020700000000, .qeos ⟨⟨0, false⟩, 0, .imm 7, .r (.v 0) (.v 0) .i32 0⟩),
   (0xC5014A0200000000, .qstat ⟨⟨0, false⟩, 82, .imm 2, .r (.v 0) (.v 0) .i32 0⟩),
   (0xB1C0190400013F40, .ldS ⟨⟨0, false⟩, 6, .s 4, .v 0, 0, 0, 4, 63, 1, 0⟩),
   (0xB3C02806023CC058, .atom ⟨⟨0, false⟩, 10, .v 6, .v 8, 3, 6, 3, 0, 1, 24⟩)]
theorem test_decode_memory : ∀ p ∈ memoryWords, decodeTableWord 64 p.1 = some p.2 :=
  by decide +kernel

theorem test_clears_memory : ∀ p ∈ memoryWords, (bench p.1).clears p.2 = true :=
  by decide +kernel

/-- Words of the palette forms. -/
def paletteWords : List (Nat × Instr) :=
  [
   (0xD0C0010280509341, .pbuild ⟨⟨0, false⟩, 0, .s 2, .imm 1, .s 9, 3, 1, true⟩),
   (0xD1C0010441C8296B, .plook ⟨⟨0, false⟩, .s 4, .s 7, 32, 2, 9, 1, 5, false, true, true⟩),
   (0xD2C0000000000200, .pinv ⟨⟨0, false⟩, 0, .v 0, .v 0, .v 0, 2, 0, false⟩),
   (0xD3C1500000000100, .pstat ⟨⟨0, false⟩, 84, .v 0, .v 0, .v 0, 1, 0, false⟩),
   (0xD4C0010200000140, .pspill ⟨⟨0, false⟩, 0, .s 2, .v 0, .v 0, 1, 1, false⟩),
   (0xD5C0010200000380, .pfill ⟨⟨0, false⟩, 0, .s 2, .v 0, .v 0, 3, 2, false⟩),
   (0xD6C0000081640F01, .azero ⟨⟨0, false⟩, 0, .v 0, .imm 5, .imm 64, 15, 0, true⟩),
   (0xD7C0010640400440, .aload ⟨⟨0, false⟩, 0, .s 6, .s 1, .v 0, 4, 1, false⟩),
   (0xD8C0250140903641, .aread ⟨⟨0, false⟩, 9, .s 1, .s 2, .s 3, 6, 1, true⟩),
   (0xD9C02C0000000C00, .aver ⟨⟨0, false⟩, 11, .v 0, .v 0, .v 0, 12, 0, false⟩),
   (0xDAC0010640400441, .adrain ⟨⟨0, false⟩, 0, .s 6, .s 1, .v 0, 4, 1, true⟩),
   (0xDBC0000000000000, .rfence ⟨⟨0, false⟩, 0, .v 0, .v 0, .v 0, 0, 0, false⟩),
   (0xDCC0010800000080, .srld ⟨⟨0, false⟩, 0, .s 8, .v 0, .v 0, 0, 2, false⟩)]
theorem test_decode_palette : ∀ p ∈ paletteWords, decodeTableWord 64 p.1 = some p.2 :=
  by decide +kernel

theorem test_clears_palette : ∀ p ∈ paletteWords, (bench p.1).clears p.2 = true :=
  by decide +kernel

/-- Words of the system forms. -/
def systemWords : List (Nat × Instr) :=
  [
   (0xE0C0010200000040, .spawn ⟨⟨0, false⟩, 0, .s 2, 0, 1, false⟩),
   (0xE100020800000000, .give ⟨⟨0, false⟩, 0, .imm 8, .r (.v 0) (.v 0) .i32 0⟩),
   (0xE200010800000000, .claim ⟨⟨0, false⟩, 0, .s 8, .r (.v 0) (.v 0) .i32 0⟩),
   (0xE3C0310200000080, .ejob ⟨⟨0, false⟩, 12, .s 2, 0, 2, false⟩),
   (0xE4C1540003400000, .csrrd ⟨⟨0, false⟩, 85, .v 0, 52, 0, false⟩),
   (0xE5C0010303000000, .csrwr ⟨⟨0, false⟩, 0, .s 3, 48, 0, false⟩),
   (0xE6000102BFC00000, .pkrwr ⟨⟨0, false⟩, 0, .s 2, .r (.imm 255) (.v 0) .i32 0⟩),
   (0xE700180000000000, .tstamp ⟨⟨0, false⟩, 6, .v 0, .r (.v 0) (.v 0) .i32 0⟩),
   (0xE8C020000000B040, .perfrd ⟨⟨0, false⟩, 8, .v 0, 11, 1, false⟩),
   (0xE900015800000000, .sleep ⟨⟨0, false⟩, 0, .lit, .r (.v 0) (.v 0) .i32 0⟩),
   (0xEAC0000000000000, .icinv ⟨⟨0, false⟩, 0, .v 0, 0, 0, false⟩),
   (0xEBC0010200000041, .bias ⟨⟨0, false⟩, 0, .s 2, 0, 1, true⟩),
   (0xEC00000000000000, .halt ⟨⟨0, false⟩, 0, .v 0, .r (.v 0) (.v 0) .i32 0⟩)]
theorem test_decode_system : ∀ p ∈ systemWords, decodeTableWord 64 p.1 = some p.2 :=
  by decide +kernel

theorem test_clears_system : ∀ p ∈ systemWords, (bench p.1).clears p.2 = true :=
  by decide +kernel

/-- Words that decode, and on the small states meet a later check: a constant past the window, an odd pair, a flag of the task. -/
theorem test_decode_more : ∀ p ∈ ([
   (0x044020054004D100, .imulh ⟨⟨0, false⟩, 8, .v 5, .k 2 77 .n32 0⟩),
   (0x084038062000A300, .isub64 ⟨⟨0, false⟩, 14, .v 6, .k 1 10 .n64 0⟩),
   (0x0900140100800240, .idiv ⟨⟨0, false⟩, 5, .v 1, .r (.v 2) (.v 0) .i64 64⟩),
   (0x0F400402FFFFF000, .or ⟨⟨0, false⟩, 1, .v 2, .k 7 131071 .i32 0⟩),
   (0x44400D0100003000, .imulhS ⟨⟨0, false⟩, 3, .s 1, .k 0 3 .i32 0⟩),
   (0x4A000D0140800300, .iremS ⟨⟨0, false⟩, 3, .s 1, .r (.s 2) (.v 0) .n64 0⟩),
   (0x7240040260009A00, .fmul ⟨⟨0, false⟩, 1, .v 2, .k 3 9 .bf16x2 0⟩),
   (0xB1C0190400017F60, .ldS ⟨⟨0, false⟩, 6, .s 4, .v 0, 0, 0, 5, 63, 1, 32⟩),
   (0xB3C02406023CC058, .atom ⟨⟨0, false⟩, 9, .v 6, .v 8, 3, 6, 3, 0, 1, 24⟩)] : List (Nat × Instr)), decodeTableWord 64 p.1 = some p.2 :=
  by decide +kernel

/-! ## Results of one instruction, by hand from the rules they name -/

/-- The first warp after an instruction that runs. -/
def afterB (s : State) (ins : Instr) (p : State → Warp → Bool) : Bool :=
  match exec ins s with
  | .next t => (match t.groups.head? with
    | some g => (match g.warps.head? with
      | some w => p t w
      | none => false)
    | none => false)
  | _ => false

/-- R158, R159, R161, R162: saturation and wrap at the same operand; bytes that saturate at 0; both signs of the high half; a quotient and a remainder truncated toward zero; a borrow. -/
theorem test_result_integer : 
    afterB (onWarp 0x100100280400001 (fun w => vAll 2 0x7FFFFFFF w)) (.iadd ⟨⟨0, false⟩, 4, .v 2, .r (.imm 1) (.v 0) .i32 1⟩) (fun _ w => w.readV 4 31 == 0x7FFFFFFF) = true
    ∧ afterB (onWarp 0x100100280400000 (fun w => vAll 2 0x7FFFFFFF w)) (.iadd ⟨⟨0, false⟩, 4, .v 2, .r (.imm 1) (.v 0) .i32 0⟩) (fun _ w => w.readV 4 31 == 0x80000000) = true
    ∧ afterB (onWarp 0x200100280400701 (fun w => vAll 2 0xFF0102 w)) (.isub ⟨⟨0, false⟩, 4, .v 2, .r (.imm 1) (.v 0) .n8x4 1⟩) (fun _ w => w.readV 4 0 == 0xFE0001) = true
    ∧ afterB (onWarp 0x400100200800100 (fun w => vAll 2 0xFFFFFFFF w)) (.imulh ⟨⟨0, false⟩, 4, .v 2, .r (.v 2) (.v 0) .n32 0⟩) (fun _ w => w.readV 4 0 == 0xFFFFFFFE) = true
    ∧ afterB (onWarp 0x400100200800000 (fun w => vAll 2 0xFFFFFFFF w)) (.imulh ⟨⟨0, false⟩, 4, .v 2, .r (.v 2) (.v 0) .i32 0⟩) (fun _ w => w.readV 4 0 == 0x0) = true
    ∧ afterB (onWarp 0xD00100200000001 (fun w => vAll 2 0x80000000 w)) (.iabs ⟨⟨0, false⟩, 4, .v 2, .r (.v 0) (.v 0) .i32 1⟩) (fun _ w => w.readV 4 0 == 0x7FFFFFFF) = true
    ∧ afterB (onWarp 0x900100280800000 (fun w => vAll 2 0xFFFFFFF9 w)) (.idiv ⟨⟨0, false⟩, 4, .v 2, .r (.imm 2) (.v 0) .i32 0⟩) (fun _ w => w.readV 4 0 == 0xFFFFFFFD) = true
    ∧ afterB (onWarp 0xA00100280800000 (fun w => vAll 2 0xFFFFFFF9 w)) (.irem ⟨⟨0, false⟩, 4, .v 2, .r (.imm 2) (.v 0) .i32 0⟩) (fun _ w => w.readV 4 0 == 0xFFFFFFFF) = true
    ∧ afterB (onWarp 0x800100280400300 (fun w => vAll 2 0x0 w)) (.isub64 ⟨⟨0, false⟩, 4, .v 2, .r (.imm 1) (.v 0) .n64 0⟩) (fun _ w => w.readV 4 0 == 0xFFFFFFFF && w.readV 5 0 == 0xFFFFFFFF) = true :=
  by decide +kernel

/-- R163 to R167: counts at and past the width; a signed field at 4 of length 4; no set bit. -/
theorem test_result_bits : 
    afterB (onWarp 0x1200100288000000 (fun w => vAll 2 0xFFFFFFFF w)) (.shl ⟨⟨0, false⟩, 4, .v 2, .r (.imm 32) (.v 0) .i32 0⟩) (fun _ w => w.readV 4 0 == 0x0) = true
    ∧ afterB (onWarp 0x140010028A000000 (fun w => vAll 2 0x80000000 w)) (.sar ⟨⟨0, false⟩, 4, .v 2, .r (.imm 40) (.v 0) .i32 0⟩) (fun _ w => w.readV 4 0 == 0xFFFFFFFF) = true
    ∧ afterB (onWarp 0x1600100200C00000 (fun w => vAll 3 0x404 (vAll 2 0xE5 w))) (.bfe ⟨⟨0, false⟩, 4, .v 2, .r (.v 3) (.v 0) .i32 0⟩) (fun _ w => w.readV 4 0 == 0xFFFFFFFE) = true
    ∧ afterB (onWarp 0x1900100200000000 (fun w => vAll 2 0x0 w)) (.clz ⟨⟨0, false⟩, 4, .v 2, .r (.v 0) (.v 0) .i32 0⟩) (fun _ w => w.readV 4 0 == 0x20) = true
    ∧ afterB (onWarp 0x1A00100200000000 (fun w => vAll 2 0x30 w)) (.ctz ⟨⟨0, false⟩, 4, .v 2, .r (.v 0) (.v 0) .i32 0⟩) (fun _ w => w.readV 4 0 == 0x4) = true
    ∧ afterB (onWarp 0xF00100250000000 (fun w => vAll 2 0x100 w)) (.or ⟨⟨0, false⟩, 4, .v 2, .r (.sp 0) (.v 0) .i32 0⟩) (fun _ w => w.readV 4 5 == 0x105) = true :=
  by decide +kernel

/-- R186 to R188: the worked exchange of R187; 0 + … + 31; the sum of the lanes below lane 4. -/
theorem test_result_lanes : 
    afterB (onWarp 0x23000C0280600031 (fun w => (List.range 32).foldl (fun (w : Warp) l => w.writeV 2 l (BitVec.ofNat 32 l)) w)) (.lxch ⟨⟨0, false⟩, 3, .v 2, .r (.imm 1) (.imm 0) .i32 49⟩) (fun _ w => w.readV 3 0 == 0x0 && w.readV 3 31 == 0x1E) = true
    ∧ afterB (bench 0x2400154000000000) (.lfold ⟨⟨0, false⟩, 5, .sp 0, .r (.v 0) (.v 0) .i32 0⟩) (fun _ w => w.readS 5 == 0x1F0) = true
    ∧ afterB (bench 0x2500194000000008) (.scan ⟨⟨0, false⟩, 6, .sp 0, .r (.v 0) (.v 0) .i32 8⟩) (fun _ w => w.readV 6 0 == 0x0 && w.readV 6 4 == 0x6) = true
    ∧ afterB (onWarp 0x22000C0200000004 (fun w => w.writeV 2 9 7)) (.ltestS ⟨⟨0, false⟩, 3, .v 2, .r (.v 0) (.v 0) .i32 4⟩) (fun _ w => w.readS 3 == 0x1) = true :=
  by decide +kernel

/-- R192 to R206: 1 + 2; 2^127 squared; a NaN is not equal to itself; 2.5 to an integer, ties to even. -/
theorem test_result_float : 
    afterB (onWarp 0x7000100280800800 (fun w => vAll 2 0x3F800000 w)) (.fadd ⟨⟨0, false⟩, 4, .v 2, .r (.imm 2) (.v 0) .f32 0⟩) (fun _ w => w.readV 4 0 == 0x40400000) = true
    ∧ afterB (onWarp 0x7200100200800800 (fun w => vAll 2 0x7F000000 w)) (.fmul ⟨⟨0, false⟩, 4, .v 2, .r (.v 2) (.v 0) .f32 0⟩) (fun _ w => w.readV 4 0 == 0x7F800000) = true
    ∧ afterB (onWarp 0x7600080200800800 (fun w => vAll 2 0x7FC00000 w)) (.fcmp ⟨⟨0, false⟩, 2, .v 2, .r (.v 2) (.v 0) .f32 0⟩) (fun _ w => w.readK 2 == 0) = true
    ∧ afterB (onWarp 0x8900100200000000 (fun w => vAll 2 0x40200000 w)) (.cvt ⟨⟨0, false⟩, 4, .v 2, .r (.v 0) (.v 0) .i32 0⟩) (fun _ w => w.readV 4 0 == 0x2) = true :=
  by decide +kernel

/-- R216, R218, R226: little-endian bytes; one active lane stores; an atomic add that wraps. R250: rows of the worked sequence. -/
theorem test_result_memory : 
    afterB (benchOf 0xB0C0100200050100 (fun (w : Warp) => vPair 2 0x10800 w) id (fun (s : State) => s.store 0x10804 [0xAA, 0xBB, 0xCC, 0xDD])) (.ld ⟨⟨0, false⟩, 4, .v 2, .v 0, 0, 2, 4, 1, 0, 0⟩) (fun _ w => w.readV 4 0 == 0xDDCCBBAA) = true
    ∧ afterB (onWarp 0xB2C8000201050000 (fun w => ((vAll 4 7 (vPair 2 0 w)).writeV 2 3 0x10804).writeK 1 8)) (.st ⟨⟨1, false⟩, 0, .v 2, .v 4, 0, 2, 4, 0, 0, 0⟩) (fun t _ => t.peekN 0x10804 4 == 7 && t.peekN 0x10800 4 == 0) = true
    ∧ afterB (benchOf 0xB3C8180201040000 (fun (w : Warp) => ((vAll 4 7 (vPair 2 0 w)).writeV 2 3 0x10800).writeK 1 8) id (fun (s : State) => s.store 0x10800 (leBytes 4 0xFFFFFFFF))) (.atom ⟨⟨1, false⟩, 6, .v 2, .v 4, 0, 2, 0, 0, 0, 0⟩) (fun t w => w.readV 6 3 == 0xFFFFFFFF && t.peekN 0x10800 4 == 6) = true
    ∧ afterB (benchOf 0xC2C0190200000000 (fun (w : Warp) => sPair 2 0x10800 w) id (fun (s : State) => s.store 0x10800 (leBytes 16 (0 + 100 * 2 ^ 32 + 2 * 2 ^ 64 + 4 * 2 ^ 96 + 16 * 2 ^ 112)))) (.disp ⟨⟨0, false⟩, 6, .s 2, .v 0, 0⟩) (fun t w => w.readS 6 == 0x0 && w.readS 7 == 0x10 && t.peekN 0x10800 4 == 16 && t.peekN 0x10804 4 == 84) = true
    ∧ afterB (benchOf 0xC2C0190200000000 (fun (w : Warp) => sPair 2 0x10800 w) id (fun (s : State) => s.store 0x10800 (leBytes 16 (61 + 39 * 2 ^ 32 + 2 * 2 ^ 64 + 4 * 2 ^ 96 + 16 * 2 ^ 112)))) (.disp ⟨⟨0, false⟩, 6, .s 2, .v 0, 0⟩) (fun t w => w.readS 6 == 0x3D && w.readS 7 == 0xA && t.peekN 0x10800 4 == 71 && t.peekN 0x10804 4 == 29) = true
    ∧ afterB (benchOf 0xC2C0190200000000 (fun (w : Warp) => sPair 2 0x10800 w) id (fun (s : State) => s.store 0x10800 (leBytes 16 (93 + 7 * 2 ^ 32 + 2 * 2 ^ 64 + 4 * 2 ^ 96 + 16 * 2 ^ 112)))) (.disp ⟨⟨0, false⟩, 6, .s 2, .v 0, 0⟩) (fun t w => w.readS 6 == 0x5D && w.readS 7 == 0x4 && t.peekN 0x10800 4 == 97 && t.peekN 0x10804 4 == 3) = true
    ∧ afterB (benchOf 0xC2C0190200000000 (fun (w : Warp) => sPair 2 0x10800 w) id (fun (s : State) => s.store 0x10800 (leBytes 16 (97 + 3 * 2 ^ 32 + 2 * 2 ^ 64 + 4 * 2 ^ 96 + 16 * 2 ^ 112)))) (.disp ⟨⟨0, false⟩, 6, .s 2, .v 0, 0⟩) (fun t w => w.readS 6 == 0x61 && w.readS 7 == 0x3 && t.peekN 0x10800 4 == 100 && t.peekN 0x10804 4 == 0) = true
    ∧ afterB (benchOf 0xC2C0190200000000 (fun (w : Warp) => sPair 2 0x10800 w) id (fun (s : State) => s.store 0x10800 (leBytes 16 (100 + 0 * 2 ^ 32 + 2 * 2 ^ 64 + 4 * 2 ^ 96 + 16 * 2 ^ 112)))) (.disp ⟨⟨0, false⟩, 6, .s 2, .v 0, 0⟩) (fun t w => w.readS 6 == 0x64 && w.readS 7 == 0x0 && t.peekN 0x10800 4 == 100 && t.peekN 0x10804 4 == 0) = true :=
  by decide +kernel

/-- R241: the worked object, E = 3 and two arrivals of 2. -/
theorem test_result_object_hit : (⟨3, 3, 0⟩ : BarObj).hit 2 = ⟨3, 1, 0⟩ ∧ (⟨3, 1, 0⟩ : BarObj).hit 2 = ⟨3, 2, 1⟩ :=
  by decide

/-- R408, R409, R412: BSTAT after a full bring-up; the worked bring-up in which stack 5 fails. -/
theorem test_result_bring_up : let ok : StageResult := ⟨true, 15, 15, 255, true⟩
    let s := { State.reset with bu := { Bringup.reset with phase := 3 } }
    let bad : StageResult := ⟨true, 15, 15, 0xDF, true⟩
    (s.stage ok).bu.bstat = 0x10314 ∧ ((s.stage ok).stage ok).bu.bstat = 0xFFFF5
    ∧ ((s.stage ok).stage bad).bu.safe.bstat = 0x38500DFBF :=
  by decide +kernel

/-- R413: the first 64 bits of the digest of "abc", the example of FIPS 180. -/
theorem test_sha512_abc : beVal (sha512 [0x61, 0x62, 0x63]) / 2 ^ 448 = 0xDDAF35A193617ABA :=
  by decide +kernel

/-! ## Hypotheses met: integer and lane forms (R156 to R190) -/

/-- R162: no active lane with a zero divisor; one at lane 4; every lane; the scalar forms on both sides; no active lane. -/
theorem test_meets_division :
    Meets (bench 0x900100280C00000) (.idiv ⟨⟨0, false⟩, 4, .v 2, .r (.imm 3) (.v 0) .i32 0⟩) (fun _ r => ∀ l < 32, laneIn r.act l = true → (r.b l).extractLsb' 0 32 = (3 : Word))
    ∧ Meets (onWarp 0x900100202C00000 (fun w => (vAll 11 1 w).writeV 11 4 0)) (.idiv ⟨⟨0, false⟩, 4, .v 2, .r (.v 11) (.v 0) .i32 0⟩) (fun _ r => laneIn r.act 4 = true
      ∧ (r.b 4).extractLsb' 0 32 = (0 : Word) ∧ ∀ l < 32, l ≠ 4 → (r.b l).extractLsb' 0 32 ≠ (0 : Word))
    ∧ Meets (bench 0xA00100280000100) (.irem ⟨⟨0, false⟩, 4, .v 2, .r (.imm 0) (.v 0) .n32 0⟩) (fun _ r => laneIn r.act 0 = true ∧ (r.b 0).extractLsb' 0 32 = (0 : Word))
    ∧ Meets (bench 0x49000D01BFC00000) (.idivS ⟨⟨0, false⟩, 3, .s 1, .r (.imm 255) (.v 0) .i32 0⟩) (fun _ r => r.act ≠ 0 ∧ (r.b r.low).extractLsb' 0 32 ≠ (0 : Word))
    ∧ Meets (bench 0x4A00110241800300) (.iremS ⟨⟨0, false⟩, 4, .s 2, .r (.s 6) (.v 0) .n64 0⟩) (fun _ r => r.act ≠ 0 ∧ r.b r.low = 0)
    ∧ Meets (bench 0x49080D0140800000) (.idivS ⟨⟨1, false⟩, 3, .s 1, .r (.s 2) (.v 0) .i32 0⟩) (fun _ r => r.act = 0) :=
  by refine ⟨?_, ?_, ?_, ?_, ?_, ?_⟩ <;> exact Meets.of (by decide +kernel)

/-- R186, R190: with and without an active lane, in the modes that differ. -/
theorem test_meets_lane_tests :
    Meets (bench 0x2108080300000003) (.ltest ⟨⟨1, false⟩, 2, .v 3, .r (.v 0) (.v 0) .i32 3⟩) (fun _ r => r.act = 0)
    ∧ Meets (bench 0x2100080300000003) (.ltest ⟨⟨0, false⟩, 2, .v 3, .r (.v 0) (.v 0) .i32 3⟩) (fun _ r => r.act ≠ 0)
    ∧ Meets (bench 0x21000B0300000002) (.ltest ⟨⟨0, false⟩, 2, .k 3, .r (.v 0) (.v 0) .i32 2⟩) (fun _ r => r.act ≠ 0)
    ∧ Meets (bench 0x2201470300000004) (.ltestS ⟨⟨0, false⟩, 81, .k 3, .r (.v 0) (.v 0) .i32 4⟩) (fun _ r => r.act ≠ 0)
    ∧ Meets (bench 0x2800180100000001) (.pmov ⟨⟨0, false⟩, 6, .v 1, .r (.v 0) (.v 0) .i32 1⟩) (fun _ r => r.act ≠ 0)
    ∧ Meets (bench 0x28001B0100000000) (.pmov ⟨⟨0, false⟩, 6, .k 1, .r (.v 0) (.v 0) .i32 0⟩) (fun _ r => r.act ≠ 0)
    ∧ Meets (bench 0x2808190100000000) (.pmov ⟨⟨1, false⟩, 6, .s 1, .r (.v 0) (.v 0) .i32 0⟩) (fun _ r => r.act = 0) :=
  by refine ⟨?_, ?_, ?_, ?_, ?_, ?_, ?_⟩ <;> exact Meets.of (by decide +kernel)

theorem test_meets_scans :
    Meets (bench 0x2500180200000205) (.scan ⟨⟨0, false⟩, 6, .v 2, .r (.v 0) (.v 0) .i64 5⟩) (fun _ r => r.act ≠ 0)
    ∧ Meets (bench 0x250018020000080A) (.scan ⟨⟨0, false⟩, 6, .v 2, .r (.v 0) (.v 0) .f32 10⟩) (fun _ r => r.act ≠ 0)
    ∧ Meets (bench 0x2400140200000800) (.lfold ⟨⟨0, false⟩, 5, .v 2, .r (.v 0) (.v 0) .f32 0⟩) (fun _ r => r.act ≠ 0) :=
  by refine ⟨?_, ?_, ?_⟩ <;> exact Meets.of (by decide +kernel)

theorem test_meets_pick : Meets (onWarp 0x1E00100203304001 (fun w => w.writeK 4 5)) (.ipick ⟨⟨0, false⟩, 4, .v 2, .r (.v 12) (.k 4) .i32 1⟩) (fun _ r => laneIn r.act 2 = true ∧ (r.c 2).getLsbD 2 = true) :=
  Meets.of (by decide +kernel)

/-! ## Hypotheses met: floating forms (R191 to R214) -/

/-- R193: signalling and quiet NaNs, infinities of both signs, a zero, as the encodings of IEEE 754 stand. -/
theorem test_meets_nan_sums : (fmtF32.dec 0x7F800001).isSnan = true ∧ (fmtF32.dec 0x7FC00000).isNan = true ∧ (fmtF32.dec 0x7FC00000).isSnan = false
    ∧ (fmtF32.dec 0x7F800000).isInf = true ∧ (fmtF32.dec 0xFF800000).isInf = true ∧ (fmtF32.dec 0x7F800000).neg ≠ (fmtF32.dec 0xFF800000).neg
    ∧ (fmtF32.dec 0x80000000).isZero = true :=
  by decide +kernel

theorem test_meets_finite_sums : (∃ n m e, fmtF32.dec 0x3F800000 = .fin n m e) ∧ (∃ n m e, fmtF16.dec (fmtF16.flushIn true 0x8001) = .fin n m e)
    ∧ ∃ n m e, fmtE2m1.dec 0x7 = .fin n m e :=
  ⟨⟨_, _, _, rfl⟩, ⟨_, _, _, rfl⟩, ⟨_, _, _, rfl⟩⟩

theorem test_meets_conversions : (fmtF32.dec (fmtF32.flushIn false 0x7FC00000)).isNan = true ∧ (-128 : Int) ≤ 127
      ∧ ∃ n m e, fmtF32.dec (fmtF32.flushIn false 0x43000000) = .fin n m e :=
  ⟨by decide, by decide, ⟨_, _, _, rfl⟩⟩

/-- R212 to R214: nothing active; an infinity; all zeros; one value that is not zero; the zero block; the largest scale. -/
theorem test_meets_packing :
    Meets (bench 0x8A08200200000802) (.bpack ⟨⟨1, false⟩, 8, .v 2, .r (.v 0) (.v 0) .f32 2⟩) (fun _ r => r.act = 0)
    ∧ Meets (onWarp 0x8A00200200000802 (fun w => w.writeV 2 7 0xFF800000)) (.bpack ⟨⟨0, false⟩, 8, .v 2, .r (.v 0) (.v 0) .f32 2⟩) (fun _ r => laneIn r.act 7 = true
      ∧ (fmtF32.dec (r.a 7).toNat).isFinite = false)
    ∧ Meets (bench 0x8A00200200000802) (.bpack ⟨⟨0, false⟩, 8, .v 2, .r (.v 0) (.v 0) .f32 2⟩) (fun _ r => ∀ l < 32, laneIn r.act l = true → (fmtF32.dec (r.a l).toNat).isZero = true)
    ∧ Meets (onWarp 0x8A00200200000802 (fun w => w.writeV 2 31 0x40490FDB)) (.bpack ⟨⟨0, false⟩, 8, .v 2, .r (.v 0) (.v 0) .f32 2⟩) (fun _ r => laneIn r.act 31 = true
      ∧ (fmtF32.dec (r.a 31).toNat).isZero = false ∧ ∀ l < 32, (fmtF32.dec (r.a l).toNat).isFinite = true)
    ∧ Meets (onWarp 0x8B00050881000903 (fun w => w.writeS 8 0x80)) (.bunpack ⟨⟨0, false⟩, 1, .s 8, .r (.imm 4) (.v 0) .f16x2 3⟩) (fun _ r => ((r.i.w.readS 8).extractLsb' 0 8).toInt = -128)
    ∧ Meets (onWarp 0x8B00050882000807 (fun w => w.writeS 8 0x17F)) (.bunpack ⟨⟨0, false⟩, 1, .s 8, .r (.imm 8) (.v 0) .f32 7⟩) (fun _ r => ((r.i.w.readS 8).extractLsb' 0 8).toInt = 127) :=
  by refine ⟨?_, ?_, ?_, ?_, ?_, ?_⟩ <;> exact Meets.of (by decide +kernel)

/-- R97, R98: with exceptions enabled; scalar forms with and without an active lane. -/
theorem test_meets_float_ends :
    Meets (onWarp 0x7000040280400800 (fun w => { w with fpmode := 0x1F00 })) (.fadd ⟨⟨0, false⟩, 1, .v 2, .r (.imm 1) (.v 0) .f32 0⟩) (fun _ r => r.i.w.fpmode = 0x1F00 ∧ r.act ≠ 0)
    ∧ Meets (bench 0x9008050240C00800) (.faddS ⟨⟨1, false⟩, 1, .s 2, .r (.s 3) (.v 0) .f32 0⟩) (fun _ r => r.act = 0)
    ∧ Meets (bench 0x9300050240D04800) (.ffmaS ⟨⟨0, false⟩, 1, .s 2, .r (.s 3) (.s 4) .f32 0⟩) (fun _ r => r.act ≠ 0)
    ∧ Meets (bench 0x7600080200C0091D) (.fcmp ⟨⟨0, false⟩, 2, .v 2, .r (.v 3) (.v 0) .f16x2 29⟩) (fun _ r => r.act ≠ 0)
    ∧ Meets (bench 0x8C00090300000807) (.cvtS ⟨⟨0, false⟩, 2, .s 3, .r (.v 0) (.v 0) .f32 7⟩) (fun _ r => r.act ≠ 0) :=
  by refine ⟨?_, ?_, ?_, ?_, ?_⟩ <;> exact Meets.of (by decide +kernel)

/-- R94, R98: each floating form on the bench, whose `fpmode` enables no exception. -/
theorem test_meets_floats_that_complete : ∀ p ∈ ([(0x7000040200C00804, .fadd ⟨⟨0, false⟩, 1, .v 2, .r (.v 3) (.v 0) .f32 4⟩),
      (0x7100040280400900, .fsub ⟨⟨0, false⟩, 1, .v 2, .r (.imm 1) (.v 0) .f16x2 0⟩),
      (0x7200040200C00A00, .fmul ⟨⟨0, false⟩, 1, .v 2, .r (.v 3) (.v 0) .bf16x2 0⟩),
      (0x7300040200C04801, .ffma ⟨⟨0, false⟩, 1, .v 2, .r (.v 3) (.v 4) .f32 1⟩),
      (0x7400040200C00801, .fmin ⟨⟨0, false⟩, 1, .v 2, .r (.v 3) (.v 0) .f32 1⟩),
      (0x7500040200C00900, .fmax ⟨⟨0, false⟩, 1, .v 2, .r (.v 3) (.v 0) .f16x2 0⟩),
      (0x7900040200000803, .frnd ⟨⟨0, false⟩, 1, .v 2, .r (.v 0) (.v 0) .f32 3⟩),
      (0x7A00040200C00A00, .fscale ⟨⟨0, false⟩, 1, .v 2, .r (.v 3) (.v 0) .bf16x2 0⟩),
      (0x8000040200C00841, .fdiv ⟨⟨0, false⟩, 1, .v 2, .r (.v 3) (.v 0) .f32 65⟩),
      (0x8100040200000880, .rcp ⟨⟨0, false⟩, 1, .v 2, .r (.v 0) (.v 0) .f32 128⟩),
      (0x8300040200000800, .sqrt ⟨⟨0, false⟩, 1, .v 2, .r (.v 0) (.v 0) .f32 0⟩),
      (0x8200040200000900, .rsq ⟨⟨0, false⟩, 1, .v 2, .r (.v 0) (.v 0) .f16x2 0⟩),
      (0x8400040200000800, .log2 ⟨⟨0, false⟩, 1, .v 2, .r (.v 0) (.v 0) .f32 0⟩),
      (0x8500040200000800, .exp2 ⟨⟨0, false⟩, 1, .v 2, .r (.v 0) (.v 0) .f32 0⟩),
      (0x8600040200000800, .sin ⟨⟨0, false⟩, 1, .v 2, .r (.v 0) (.v 0) .f32 0⟩),
      (0x8700040200000800, .cos ⟨⟨0, false⟩, 1, .v 2, .r (.v 0) (.v 0) .f32 0⟩),
      (0x8800040200000A40, .tanh ⟨⟨0, false⟩, 1, .v 2, .r (.v 0) (.v 0) .bf16x2 64⟩),
      (0x9000050240C00800, .faddS ⟨⟨0, false⟩, 1, .s 2, .r (.s 3) (.v 0) .f32 0⟩),
      (0x9100050240C00800, .fsubS ⟨⟨0, false⟩, 1, .s 2, .r (.s 3) (.v 0) .f32 0⟩),
      (0x9200050256000800, .fmulS ⟨⟨0, false⟩, 1, .s 2, .r (.lit) (.v 0) .f32 0⟩),
      (0x9300050240D04800, .ffmaS ⟨⟨0, false⟩, 1, .s 2, .r (.s 3) (.s 4) .f32 0⟩),
      (0x9400050240C00801, .fminS ⟨⟨0, false⟩, 1, .s 2, .r (.s 3) (.v 0) .f32 1⟩),
      (0x9500050240C00800, .fmaxS ⟨⟨0, false⟩, 1, .s 2, .r (.s 3) (.v 0) .f32 0⟩),
      (0x7600080200C0091D, .fcmp ⟨⟨0, false⟩, 2, .v 2, .r (.v 3) (.v 0) .f16x2 29⟩),
      (0x2400140200000802, .lfold ⟨⟨0, false⟩, 5, .v 2, .r (.v 0) (.v 0) .f32 2⟩),
      (0x250018020000020D, .scan ⟨⟨0, false⟩, 6, .v 2, .r (.v 0) (.v 0) .i64 13⟩),
      (0x8900040200000020, .cvt ⟨⟨0, false⟩, 1, .v 2, .r (.v 0) (.v 0) .i32 32⟩),
      (0x8C00090300000807, .cvtS ⟨⟨0, false⟩, 2, .s 3, .r (.v 0) (.v 0) .f32 7⟩),
      (0x8B0005088100090B, .bunpack ⟨⟨0, false⟩, 1, .s 8, .r (.imm 4) (.v 0) .f16x2 11⟩),
      (0x8A00200200000843, .bpack ⟨⟨0, false⟩, 8, .v 2, .r (.v 0) (.v 0) .f32 67⟩)] : List (Nat × Instr)), (bench p.1).clears p.2 = true
    ∧ (bench p.1).issuer?.map (fun i => i.w.fpmode.extractLsb' 8 5) = some 0 :=
  by decide +kernel

/-- R194 to R204: NaNs, infinities, zeros of both signs, 1 and −1; EXP2 of −126 and of 128; angles past 2^20 and 2^10. -/
theorem test_meets_float_operations : (fmtF32.dec 0x7FC00000).isNan = true ∧ (fmtF32.dec 0x7F800001).isSnan = true ∧ fmtF32.dec 0x7F800000 = .inf false
      ∧ fmtF32.dec 0xFF800000 = .inf true
    ∧ (∃ e, fmtF32.dec 0 = .fin false 0 e) ∧ (∃ e, fmtF32.dec 0x80000000 = .fin true 0 e) ∧ fpOrder (fmtF32.dec 0) (fmtF32.dec 0x80000000) = some 0
    ∧ fpOrder (fmtF32.dec 0x3F800000) (fmtF32.dec 0x40000000) = some (-1)
    ∧ (∃ m e, fmtF32.dec 0x3F800000 = .fin false m e ∧ m ≠ 0 ∧ dyCmp m e 1 0 = 0) ∧ (∃ m e, fmtF32.dec 0xBF800000 = .fin true m e ∧ m ≠ 0)
    ∧ (∃ m e, fmtF32.dec 0xC2FC0000 = .fin true m e ∧ dyCmp m e 126 0 = 0 ∧ 1 - (fmtF32.bias : Int) ≤ signed true 126) ∧ (∃ m e, fmtF32.dec 0x43000000 = .fin false m e
      ∧ 0 ≤ dyCmp m e (2 ^ fmtF32.eb - 1 - fmtF32.bias) 0)
    ∧ (∃ m e, fmtF32.dec 0x49800001 = .fin false m e ∧ 0 < dyCmp m e 1 20) ∧ ∃ m e, fmtF16.dec 0x6401 = .fin false m e ∧ 0 < dyCmp m e 1 10 :=
  ⟨by decide, by decide, rfl, rfl, ⟨_, rfl⟩, ⟨_, rfl⟩, by decide, by decide, ⟨_, _, rfl, by decide, by decide⟩, ⟨_, _, rfl, by decide⟩, ⟨_, _, rfl, by decide, by decide⟩,
    ⟨_, _, rfl, by decide⟩, ⟨_, _, rfl, by decide⟩, _, _, rfl, by decide⟩

/-- R92, R93, R96: a value between two of a format, one past its largest, one that is tiny. -/
theorem test_meets_rounding : fmtE2m1 ∈ sixFormats ∧ (3 : Nat) ≠ 0 ∧ (fmtE2m1.round .rne false false true 3 (-3)).fl ≠ 0
      ∧ (fmtE4m3.round .rup false false false 449 0).fl = 5 ∧ (fmtF16.round .rne true false false 1 (-26)).fl = 3 :=
  by decide

/-! ## Hypotheses met: control forms (R172 to R184) -/

/-- R172 to R174: the lowest address a branch reaches and the one below it; targets of JMP on both sides of each check. -/
theorem test_meets_branches :
    Meets (bench 0x31C8000000000004) (.bra ⟨⟨1, false⟩, 4⟩) (fun _ r => r.act = 0)
    ∧ Meets (bench 0x31C00000FFFFDFFF) (.bra ⟨⟨0, false⟩, 4294959103⟩) (fun _ r => r.act ≠ 0 ∧ (r.i.c.head + (-0x2001 : BitVec 32).signExtend 64 * 8).extractLsb' 56 8 ≠ 0)
    ∧ Meets (bench 0x31C00000FFFFE000) (.bra ⟨⟨0, false⟩, 4294959104⟩) (fun _ r => r.act ≠ 0 ∧ (r.i.c.head + (-0x2000 : BitVec 32).signExtend 64 * 8).extractLsb' 56 8 = 0)
    ∧ Meets (bench 0x3208000800000000) (.jmp ⟨⟨1, false⟩, 0, .v 8, .r (.v 0) (.v 0) .i32 0⟩) (fun _ r => r.act = 0)
    ∧ Meets (onWarp 0x3200000800000000 (fun w => w.writeV 8 3 0x10004)) (.jmp ⟨⟨0, false⟩, 0, .v 8, .r (.v 0) (.v 0) .i32 0⟩) (fun _ r => laneIn r.act 3 = true
      ∧ badAddr (r.a 3) = some 4 ∧ ∀ k < 3, badAddr (r.a k) = none)
    ∧ Meets (onWarp 0x3200010800000000 (fun w => sPair 8 0x0100000000000000 w)) (.jmp ⟨⟨0, false⟩, 0, .s 8, .r (.v 0) (.v 0) .i32 0⟩) (fun _ r => laneIn r.act 0 = true
      ∧ badAddr (r.a 0) = some 5)
    ∧ Meets (onWarp 0x3200000800000000 (fun w => vPair 8 0x00FFFFFFFFFFFFF8 w)) (.jmp ⟨⟨0, false⟩, 0, .v 8, .r (.v 0) (.v 0) .i32 0⟩) (fun _ r => r.act ≠ 0
      ∧ ∀ l < 32, laneIn r.act l = true → badAddr (r.a l) = none) :=
  by refine ⟨?_, ?_, ?_, ?_, ?_, ?_, ?_⟩ <;> exact Meets.of (by decide +kernel)

/-- R175: the slots on both sides of the alignment and size checks, the last slot of the private area among them. -/
theorem test_meets_calls :
    Meets (bench 0x33C800FE00000010) (.call ⟨⟨1, false⟩, 254, 16⟩) (fun _ r => r.act = 0)
    ∧ Meets (bench 0x33C000FEFFFFDFFF) (.call ⟨⟨0, false⟩, 254, 4294959103⟩) (fun _ r => r.act ≠ 0 ∧ (r.i.c.head + (-0x2001 : BitVec 32).signExtend 64 * 8).extractLsb' 56 8 ≠ 0)
    ∧ Meets (onWarp 0x33C000FE00000010 (fun w => (vAll 254 16 w).writeV 254 2 17)) (.call ⟨⟨0, false⟩, 254, 16⟩) (fun _ r => laneIn r.act 2 = true
      ∧ ((r.a 2).extractLsb' 0 32 - (8 : Word)).toNat % 8 ≠ 0 ∧ ∀ k < 2, ((r.a k).extractLsb' 0 32 - (8 : Word)).toNat % 8 = 0)
    ∧ Meets (bench 0x33C000FE00000010) (.call ⟨⟨0, false⟩, 254, 16⟩) (fun s r => privSize (s.pktOf r.i.g) < ((r.a 0).extractLsb' 0 32 - (8 : Word)).toNat + 8
      ∧ ∀ l < 32, laneIn r.act l = true → ((r.a l).extractLsb' 0 32 - (8 : Word)).toNat % 8 = 0)
    ∧ Meets (onWarp 0x33C000FE00000010 (fun w => vAll 254 65536 w)) (.call ⟨⟨0, false⟩, 254, 16⟩) (fun s r => r.act ≠ 0
      ∧ ∀ l < 32, laneIn r.act l = true → ((r.a l).extractLsb' 0 32 - (8 : Word)).toNat % 8 = 0 ∧ ((r.a l).extractLsb' 0 32 - (8 : Word)).toNat + 8 = privSize (s.pktOf r.i.g))
    ∧ Meets (bench 0x3408000900000000) (.ret ⟨⟨1, false⟩, 0, .v 9, .r (.v 0) (.v 0) .i32 0⟩) (fun _ r => r.act = 0)
    ∧ Meets (onWarp 0x3400000900000000 (fun w => w.writeV 9 31 65536)) (.ret ⟨⟨0, false⟩, 0, .v 9, .r (.v 0) (.v 0) .i32 0⟩) (fun s r => privSize (s.pktOf r.i.g) < ((r.a 31).extractLsb' 0 32).toNat + 8 ∧ ∀ k < 31, ((r.a k).extractLsb' 0 32).toNat + 8 ≤ privSize (s.pktOf r.i.g))
    ∧ Meets (onWarp 0x3400000900000000 (fun w => { w with priv := putBytes [] (privKey 1 0) [4] })) (.ret ⟨⟨0, false⟩, 0, .v 9, .r (.v 0) (.v 0) .i32 0⟩) (fun _ r => badAddr (BitVec.ofNat 64 (leVal (getBytes r.i.w.priv (privKey 1 0) 8))) = some 4 ∧ badAddr (BitVec.ofNat 64 (leVal (getBytes r.i.w.priv (privKey 0 0) 8))) = none)
    ∧ Meets (bench 0x3400000900000000) (.ret ⟨⟨0, false⟩, 0, .v 9, .r (.v 0) (.v 0) .i32 0⟩) (fun _ r => r.act ≠ 0
      ∧ ∀ l < 32, laneIn r.act l = true → poisonedIn r.i.w.privPoison (privKey l 0) 8 = false ∧ badAddr (BitVec.ofNat 64 (leVal (getBytes r.i.w.priv (privKey l 0) 8))) = none) :=
  by refine ⟨?_, ?_, ?_, ?_, ?_, ?_, ?_, ?_, ?_⟩ <;> exact Meets.of (by decide +kernel)

theorem test_meets_joins :
    Meets (bench 0x35C2C10500000009) (.jset ⟨⟨0, false⟩, 11, .s 5, 9⟩) (fun _ r => r.i.u.st = .ready ∧ r.act ≠ 0
      ∧ (r.i.c.head + (9 : BitVec 32).signExtend 64 * 8).extractLsb' 56 8 = 0)
    ∧ Meets (bench 0x35C2C105FFFFDFFF) (.jset ⟨⟨0, false⟩, 11, .s 5, 4294959103⟩) (fun _ r => r.i.u.st = .ready ∧ r.act ≠ 0
      ∧ (r.i.c.head + (-0x2001 : BitVec 32).signExtend 64 * 8).extractLsb' 56 8 ≠ 0)
    ∧ Meets (bench 0x35CAC10500000009) (.jset ⟨⟨1, false⟩, 11, .s 5, 9⟩) (fun _ r => r.i.u.st = .ready ∧ r.act = 0)
    ∧ Meets (bench 0x3600020B00000000) (.jwait ⟨⟨0, false⟩, 0, .imm 11, .r (.v 0) (.v 0) .i32 0⟩) (fun _ r => r.act ≠ 0 ∧ (r.i.w.join 11).valid = false)
    ∧ Meets (onWarp 0x3600020B00000000 (fun w => w.setJoin 11 ⟨true, 0xFFFF, 0, 0x10000, []⟩)) (.jwait ⟨⟨0, false⟩, 0, .imm 11, .r (.v 0) (.v 0) .i32 0⟩) (fun _ r => r.act ≠ 0 ∧ (r.i.w.join 11).valid = true ∧ laneIn (r.i.w.join 11).mask 0 = true ∧ laneIn (r.i.w.join 11).mask 31 = false)
    ∧ Meets (bench 0x3608020B00000000) (.jwait ⟨⟨1, false⟩, 0, .imm 11, .r (.v 0) (.v 0) .i32 0⟩) (fun _ r => r.act = 0) :=
  by refine ⟨?_, ?_, ?_, ?_, ?_, ?_⟩ <;> exact Meets.of (by decide +kernel)

theorem test_meets_join_release : let u : SubGroup := { (default : SubGroup) with st := .join 3 }
    let w : Warp := { (default : Warp) with joins := [(3, ⟨true, 0xF, 0xF, 0x10000, []⟩)], live := 0xF, subs := [default, u] }
    (w.join 3).valid = true ∧ (w.join 3).mask &&& ~~~(w.join 3).arrived &&& w.live = 0 ∧ w.subs = [default] ++ u :: [] ∧ u.st = .join 3
      ∧ (∀ v ∈ [(default : SubGroup)], v.st ≠ .join 3) ∧ (w.join 4).valid = false :=
  by decide +kernel

/-- R142, R179, R180: bodies of 0, 1, 256 and 257 words; nesting inside and past the end of an outer level; counts 0 and 10. -/
theorem test_meets_loops :
    Meets (bench 0x37C1020A00000002) (.loop ⟨⟨0, false⟩, 1, .imm 10, 2⟩) (fun _ r => r.act ≠ 0 ∧ r.i.c.head + 2 * 8 = r.i.succ)
    ∧ Meets (bench 0x37C1020A00000003) (.loop ⟨⟨0, false⟩, 1, .imm 10, 3⟩) (fun _ r => r.act ≠ 0 ∧ (r.i.c.head + 3 * 8).toNat - r.i.succ.toNat = 8 ∧ r.i.u.loop.active = 0)
    ∧ Meets (bench 0x37C1020A00000102) (.loop ⟨⟨0, false⟩, 1, .imm 10, 258⟩) (fun _ r => r.act ≠ 0 ∧ ((r.i.c.head + 258 * 8).toNat - r.i.succ.toNat) / 8 = 256
      ∧ r.i.u.loop.active = 0)
    ∧ Meets (bench 0x37C1020A00000103) (.loop ⟨⟨0, false⟩, 1, .imm 10, 259⟩) (fun _ r => r.act ≠ 0 ∧ ((r.i.c.head + 259 * 8).toNat - r.i.succ.toNat) / 8 = 257)
    ∧ Meets (onWarp 0x37C0020A00000003 (fun w => onSubs (fun u => { u with loop := ⟨[5, 1, 1], [0x10010, 0, 0], [0x10020, 0, 0], 1⟩ }) w)) (.loop ⟨⟨0, false⟩, 0, .imm 10, 3⟩) (fun _ r => r.act ≠ 0 ∧ r.i.u.loop.active.getLsbD 0 = true)
    ∧ Meets (onWarp 0x37C1020A00000005 (fun w => onSubs (fun u => { u with loop := ⟨[5, 1, 1], [0x10010, 0, 0], [0x10020, 0, 0], 1⟩ }) w)) (.loop ⟨⟨0, false⟩, 1, .imm 10, 5⟩) (fun _ r => r.act ≠ 0 ∧ r.i.u.loop.active.getLsbD 0 = true ∧ (r.i.u.loop.stop.getD 0 0).toNat < (r.i.c.head + 5 * 8).toNat)
    ∧ Meets (onWarp 0x37C1020A00000004 (fun w => onSubs (fun u => { u with loop := ⟨[5, 1, 1], [0x10010, 0, 0], [0x10020, 0, 0], 1⟩ }) w)) (.loop ⟨⟨0, false⟩, 1, .imm 10, 4⟩) (fun _ r => r.act ≠ 0 ∧ r.i.u.loop.active.getLsbD 0 = true ∧ (r.i.u.loop.stop.getD 0 0).toNat = (r.i.c.head + 4 * 8).toNat)
    ∧ Meets (bench 0x37C1020000000003) (.loop ⟨⟨0, false⟩, 1, .imm 0, 3⟩) (fun _ r => r.act ≠ 0 ∧ (r.a r.low).extractLsb' 0 32 = (0 : Word))
    ∧ Meets (bench 0x37C9020000000003) (.loop ⟨⟨1, false⟩, 1, .imm 0, 3⟩) (fun _ r => r.act = 0)
    ∧ Meets (onWarp 0x38C0000000000000 (fun w => onSubs (fun u => { u with loop := ⟨[5, 1, 1], [0x10010, 0, 0], [0x10020, 0, 0], 1⟩ }) w)) (.lbrk ⟨⟨0, false⟩, 0⟩) (fun _ r => r.act ≠ 0 ∧ r.i.u.loop.active.getLsbD 0 = true)
    ∧ Meets (bench 0x38C0000000000000) (.lbrk ⟨⟨0, false⟩, 0⟩) (fun _ r => r.act ≠ 0 ∧ r.i.u.loop.active.getLsbD 0 = false)
    ∧ Meets (bench 0x38C8000000000000) (.lbrk ⟨⟨1, false⟩, 0⟩) (fun _ r => r.act = 0) :=
  by refine ⟨?_, ?_, ?_, ?_, ?_, ?_, ?_, ?_, ?_, ?_, ?_, ?_⟩ <;> exact Meets.of (by decide +kernel)

theorem test_meets_loop_test : let l : LoopState := ⟨[5, 1, 1], [0x10010, 0, 0], [0x10020, 0, 0], 1⟩
    l.active.getLsbD 0 = true ∧ l.stop.getD 0 0 = 0x10020 ∧ (∀ j < 3, 0 < j → l.active.getLsbD j = false) ∧ 1 < (l.count.getD 0 0).toNat :=
  by decide +kernel

theorem test_meets_stops :
    Meets (bench 0x3008000000000000) (.nop ⟨⟨1, false⟩, 0, .v 0, .r (.v 0) (.v 0) .i32 0⟩) (fun _ r => r.act = 0)
    ∧ Meets (bench 0x3A00000000000000) (.yield ⟨⟨0, false⟩, 0, .v 0, .r (.v 0) (.v 0) .i32 0⟩) (fun _ r => r.act ≠ 0)
    ∧ Meets (bench 0xE900020000000000) (.sleep ⟨⟨0, false⟩, 0, .imm 0, .r (.v 0) (.v 0) .i32 0⟩) (fun _ r => r.act ≠ 0 ∧ (r.a r.low).extractLsb' 0 32 = (0 : Word))
    ∧ Meets (bench 0xE90002FF00000000) (.sleep ⟨⟨0, false⟩, 0, .imm 255, .r (.v 0) (.v 0) .i32 0⟩) (fun _ r => r.act ≠ 0 ∧ (r.a r.low).extractLsb' 0 32 ≠ (0 : Word))
    ∧ Meets (bench 0xE908020100000000) (.sleep ⟨⟨1, false⟩, 0, .imm 1, .r (.v 0) (.v 0) .i32 0⟩) (fun _ r => r.act = 0)
    ∧ Meets (bench 0x3B80000000000007) (.trap ⟨⟨0, false⟩, 0, .v 0, .i 7⟩) (fun _ r => r.act ≠ 0)
    ∧ Meets (bench 0x3B88000000000007) (.trap ⟨⟨1, false⟩, 0, .v 0, .i 7⟩) (fun _ r => r.act = 0)
    ∧ Meets (bench 0x3900000000000000) (.exit ⟨⟨0, false⟩, 0, .v 0, .r (.v 0) (.v 0) .i32 0⟩) (fun _ r => r.act ≠ 0 ∧ ∀ n < 16, (r.i.w.join n).valid = false)
    ∧ Meets (bench 0x3908000000000000) (.exit ⟨⟨1, false⟩, 0, .v 0, .r (.v 0) (.v 0) .i32 0⟩) (fun _ r => r.act = 0) :=
  by refine ⟨?_, ?_, ?_, ?_, ?_, ?_, ?_, ?_, ?_⟩ <;> exact Meets.of (by decide +kernel)

/-! ## Hypotheses met: checks, traps and steps (R120 to R154, R310 to R314) -/

/-- R154: a type that the form does not take; a memory form in an integer clause; EXIT before the last place; BIAS without privilege; v4 in an allotment of 4. -/
theorem test_meets_static_checks :
    Issuing (bench 0x100100480400000) (fun _ => (Instr.iadd ⟨⟨0, false⟩, 4, .v 4, .r (.imm 1) (.v 0) .i64 0⟩).enc.wf = false)
    ∧ Issuing (bench 0x100100480400000) (fun i => let e := (Instr.ld ⟨⟨0, false⟩, 5, .v 2, .v 0, 0, 0, 4, 2, 0, 0⟩).enc; e.wf = true ∧ ¬ (e.home = .alu ∨ e.home.code = i.h.cls))
    ∧ Issuing (onWarp 0x3900000000000000 (onSubs (fun u => { u with run := u.run.map (fun c => { c with word := encodeHeader ⟨5, 2, 0, 15, 15, 0⟩, words := c.words ++ [0] }) }))) (fun i => let e := (Instr.exit ⟨⟨0, false⟩, 0, .v 0, .r (.v 0) (.v 0) .i32 0⟩).enc; e.wf = true ∧ e.home.code = i.h.cls ∧ e.last = true ∧ i.u.pc + 8 ≠ i.c.head + BitVec.ofNat 64 (8 * (i.h.count + 1)))
    ∧ Issuing (benchOf 0xEBC0010200000041 id id (fun s => { s with grids := s.grids.map (fun d => { d with pkt := 0 }) })) (fun i => let s := (benchOf 0xEBC0010200000041 id id (fun s => { s with grids := s.grids.map (fun d => { d with pkt := 0 }) })); (s.pktOf i.g).getLsbD 574 = false)
    ∧ Issuing (onWarp 0x100100480400000 (fun w => { w with av := 4 })) (fun i => (Instr.iadd ⟨⟨0, false⟩, 4, .v 4, .r (.imm 1) (.v 0) .i32 0⟩).enc.wf = true
      ∧ i.regBad (bench 0x100100480400000) (.vec 4 1) = some 4 ∧ i.regBad (bench 0x100100480400000) (.vec 255 1) = none) :=
  by refine ⟨?_, ?_, ?_, ?_, ?_⟩ <;> exact Issuing.of (by decide +kernel)

/-- R98, R292: the last word of its clause and one that is not; the allotment an instruction left with. -/
theorem test_meets_places :
    Issuing (onWarp 0x100100480400000 (onSubs (fun u => { u with allot := 8 }))) (fun i => i.isLast = true ∧ i.u.allot = 8 ∧ i.w.av = 256)
    ∧ Issuing (onWarp 0x100100480400000 (fun w => onSubs (fun u => { u with allot := 8, run := u.run.map (fun c => { c with word := c.word + 2 ^ 53, words := c.words ++ [0] }) }) { w with av := 4 })) (fun i => i.isLast = false ∧ i.regBad (bench 0x100100480400000) (.vec 7 1) = none ∧ i.regBad (bench 0x100100480400000) (.vec 8 1) = some 8) :=
  by refine ⟨?_, ?_⟩ <;> exact Issuing.of (by decide +kernel)

theorem test_meets_privileged_csr : ∃ f : SysF, f.num.toNat ∈ [0x012, 0x015, 0x016, 0x017, 0x018, 0x019, 0x020, 0x021, 0x031, 0x032, 0x034] ∧ (Instr.csrwr f).enc.wf = true :=
  ⟨⟨⟨0, false⟩, 0, .s 3, 0x34, 0, false⟩, by decide, by decide⟩

/-- R310, R312: a trap that may be taken, one in a handler, one without a handler, one that must wait. -/
theorem test_meets_traps :
    At (onWarp 0x100100480400000 (fun w => { onSubs (fun u => { u with run := none }) w with tvec := 0x10000 })) (fun g w u => u.run = none ∧ w.inh = false ∧ w.tvec ≠ 0
      ∧ trapReady g w = true)
    ∧ At (onWarp 0x100100480400000 (fun w => { onSubs (fun u => { u with run := none }) w with inh := true })) (fun _ w u => u.run = none ∧ w.inh = true)
    ∧ At (onWarp 0x100100480400000 (onSubs (fun u => { u with run := none }))) (fun _ w u => u.run = none ∧ w.tvec = 0)
    ∧ At (onWarp 0x100100480400000 (fun w => { onSubs (fun u => { u with run := none }) w with tvec := 0x10000, outst := [⟨1, none, .job 7⟩] })) (fun g w u => u.run = none ∧ w.inh = false ∧ w.tvec ≠ 0 ∧ trapReady g w = false) :=
  by refine ⟨?_, ?_, ?_, ?_⟩ <;> exact At.of (by decide +kernel)

theorem test_meets_trap_return :
    Meets (bench 0x3C00000000000000) (.tret ⟨⟨0, false⟩, 0, .v 0, .r (.v 0) (.v 0) .i32 0⟩) (fun _ r => r.i.w.inh = false)
    ∧ Meets (onWarp 0x3C00000000000000 (fun w => { w with inh := true, tpc := 0x10008 })) (.tret ⟨⟨0, false⟩, 0, .v 0, .r (.v 0) (.v 0) .i32 0⟩) (fun _ r => r.i.w.inh = true ∧ r.i.u.lanes ≠ 0) :=
  by refine ⟨?_, ?_⟩ <;> exact Meets.of (by decide +kernel)

theorem test_meets_step : let s := State.reset.withFetchWord 64 0x100100480400000
    let s0 : State := { s with agenda := [], cur := some 0 }
    s.agenda = .issue 0 :: [] ∧ Issuing s0 (fun i => s0.coreRuns i.g.core = true ∧ some i.u.pc ∉ (s0.ctx (s0.ctxOf i.g)).brk
      ∧ i.word? = some 0x100100480400000 ∧ i.mustWait s0 (Instr.iadd ⟨⟨0, false⟩, 4, .v 4, .r (.imm 1) (.v 0) .i32 0⟩).enc = false
      ∧ i.u.pc = i.c.head + BitVec.ofNat 64 (8 * (0 + 1))) :=
  ⟨by decide +kernel, Issuing.of (by decide +kernel)⟩

theorem test_meets_step_without_instruction : let s := State.reset.withFetchWord 64 0
    let s0 : State := { s with agenda := [], cur := some 0 }
    s.agenda = .issue 0 :: [] ∧ Issuing s0 (fun i => s0.coreRuns i.g.core = true ∧ i.word? = some 0) ∧ decode 0 = .error .opcode :=
  ⟨by decide +kernel, Issuing.of (by decide +kernel), by rfl⟩

/-- R74, R125, R234, R253, R259, R262: a token that has not landed; a tile that a drain still reads, and one whose drain waits for a version; a detected ACCCHK on the named tile, on another, and at a release; a token whose job failed; a push to an ended queue. -/
theorem test_meets_waits :
    Issuing (benchOf 0x41000D0180800000 (fun (w : Warp) => { w with tokens := [(1, ⟨9, false⟩)] }) (fun (g : Group) => g) id) (fun i => let s : State := (benchOf 0x41000D0180800000 (fun (w : Warp) => { w with tokens := [(1, ⟨9, false⟩)] }) (fun (g : Group) => g) id); let e := (Instr.iaddS ⟨⟨0, false⟩, 3, .s 1, .r (.imm 2) (.v 0) .i32 0⟩).enc; e.wf = true ∧ i.mustWait s e = true)
    ∧ Issuing (benchOf 0xD6C0000041D09701 (fun (w : Warp) => (w.writeS 9 64).writeS 7 0) (fun (g : Group) => { g with palOps := [⟨9, 0, 0, 0, .drain 7 0 0x10000400002000000130000000000000000 false 0, [], false, [], 0⟩] }) id) (fun i => let s : State := (benchOf 0xD6C0000041D09701 (fun (w : Warp) => (w.writeS 9 64).writeS 7 0) (fun (g : Group) => { g with palOps := [⟨9, 0, 0, 0, .drain 7 0 0x10000400002000000130000000000000000 false 0, [], false, [], 0⟩] }) id); let e := (Instr.azero ⟨⟨0, false⟩, 0, .v 0, .s 7, .s 9, 7, 0, true⟩).enc; e.wf = true ∧ i.mustWait s e = false ∧ i.palStall s e = true)
    ∧ Issuing (benchOf 0xD6C0000041D09701 (fun (w : Warp) => (w.writeS 9 64).writeS 7 0) (fun (g : Group) => { g with palOps := [⟨9, 0, 0, 0, .drain 7 1 0x10000400002000000130000000000000000 false 0, [], false, [], 0⟩] }) id) (fun i => let s : State := (benchOf 0xD6C0000041D09701 (fun (w : Warp) => (w.writeS 9 64).writeS 7 0) (fun (g : Group) => { g with palOps := [⟨9, 0, 0, 0, .drain 7 1 0x10000400002000000130000000000000000 false 0, [], false, [], 0⟩] }) id); let e := (Instr.azero ⟨⟨0, false⟩, 0, .v 0, .s 7, .s 9, 7, 0, true⟩).enc; let act := i.active e.guard; e.wf = true ∧ i.mustWait s e = false ∧ i.palStall s e = false ∧ act ≠ 0 ∧ i.behindPalette s e act = true ∧ (i.namedRun s e act).any (fun n => (drainTiles i.g i.w.idx).contains n) = true)
    ∧ Issuing (benchOf 0xD6C0000041D09701 (fun (w : Warp) => { ((w.writeS 9 64).writeS 7 0) with acc := [default], accTiles := [0x80] }) (fun (g : Group) => g) id) (fun i => let s : State := (benchOf 0xD6C0000041D09701 (fun (w : Warp) => { ((w.writeS 9 64).writeS 7 0) with acc := [default], accTiles := [0x80] }) (fun (g : Group) => g) id); let e := (Instr.azero ⟨⟨0, false⟩, 0, .v 0, .s 7, .s 9, 7, 0, true⟩).enc; let act := i.active e.guard; e.wf = true ∧ i.mustWait s e = false ∧ i.palStall s e = false ∧ act ≠ 0 ∧ i.behindPalette s e act = false ∧ i.accPoint s e act = some 0 ∧ releases e = false ∧ i.onStrong s e act = false ∧ i.w.acc.length = 1 ∧ i.namedRun s e act = [7])
    ∧ Issuing (benchOf 0xD6C0000041D09701 (fun (w : Warp) => { ((w.writeS 9 64).writeS 7 0) with acc := [default], accTiles := [0x10] }) (fun (g : Group) => g) id) (fun i => let s : State := (benchOf 0xD6C0000041D09701 (fun (w : Warp) => { ((w.writeS 9 64).writeS 7 0) with acc := [default], accTiles := [0x10] }) (fun (g : Group) => g) id); let e := (Instr.azero ⟨⟨0, false⟩, 0, .v 0, .s 7, .s 9, 7, 0, true⟩).enc; let act := i.active e.guard; e.wf = true ∧ i.mustWait s e = false ∧ i.palStall s e = false ∧ act ≠ 0 ∧ i.behindPalette s e act = false ∧ i.accPoint s e act = none ∧ releases e = false ∧ i.onStrong s e act = false ∧ i.w.acc.length = 1 ∧ i.namedRun s e act = [7])
    ∧ Issuing (benchOf 0xB6C00000002A0000 (fun (w : Warp) => { (w) with acc := [default], accTiles := [0x0] }) (fun (g : Group) => g) id) (fun i => let s : State := (benchOf 0xB6C00000002A0000 (fun (w : Warp) => { (w) with acc := [default], accTiles := [0x0] }) (fun (g : Group) => g) id); let e := (Instr.fence ⟨⟨0, false⟩, 2, 5⟩).enc; let act := i.active e.guard; e.wf = true ∧ i.mustWait s e = false ∧ i.palStall s e = false ∧ act ≠ 0 ∧ i.behindPalette s e act = false ∧ i.accPoint s e act = some 0 ∧ i.w.acc.length = 1 ∧ releases e = true)
    ∧ Issuing (benchOf 0x41000D0180800000 (fun (w : Warp) => { w with tokens := [(1, ⟨9, true⟩)], sregs := [(1, 0x20000000)] }) (fun (g : Group) => g) id) (fun i => let s : State := (benchOf 0x41000D0180800000 (fun (w : Warp) => { w with tokens := [(1, ⟨9, true⟩)], sregs := [(1, 0x20000000)] }) (fun (g : Group) => g) id); let e := (Instr.iaddS ⟨⟨0, false⟩, 3, .s 1, .r (.imm 2) (.v 0) .i32 0⟩).enc; let act := i.active e.guard; e.wf = true ∧ i.mustWait s e = false ∧ i.palStall s e = false ∧ act ≠ 0 ∧ i.behindPalette s e act = false ∧ i.accPoint s e act = none ∧ e.readsS = [] ++ 1 :: []
        ∧ (tfind i.w.tokens 1).map (fun t => t.landed) = some true ∧ (i.w.readS 1).toNat / 2 ^ 28 ∉ [0, 3])
    ∧ Issuing (benchOf 0x4101490180800000 (fun (w : Warp) => w) (fun (g : Group) => { g with queues := tins g.queues 2 { tget emptyQueue g.queues 2 with ended := true } }) id) (fun i => let s : State := (benchOf 0x4101490180800000 (fun (w : Warp) => w) (fun (g : Group) => { g with queues := tins g.queues 2 { tget emptyQueue g.queues 2 with ended := true } }) id); let e := (Instr.iaddS ⟨⟨0, false⟩, 82, .s 1, .r (.imm 2) (.v 0) .i32 0⟩).enc; e.wf = true ∧ (tget emptyQueue i.g.queues 2).ended = true ∧ i.mustWait s e = false ∧ i.palStall s e = false ∧ e.push = some 2) :=
  by refine ⟨?_, ?_, ?_, ?_, ?_, ?_, ?_, ?_⟩ <;> exact Issuing.of (by decide +kernel)

theorem test_meets_constant_read :
    Meets (benchOf 0x140100400003000 id id (fun (s : State) => { s with grids := s.grids.map (fun d => { d with wins := 0x10800 + 5 * 2 ^ 64 }) })) (.iadd ⟨⟨0, false⟩, 4, .v 4, .k 0 3 .i32 0⟩) (fun _ r => r.act ≠ 0) :=
  Meets.of (by decide +kernel)

/-- R139: a window of 5 words: offset 5 lies outside, a 64-bit constant at 4 reaches past it, one at 3 is odd. -/
theorem test_meets_constants :
    Issuing (benchOf 0x100100480400000 id id (fun s => { s with grids := s.grids.map (fun d => { d with wins := 0x10800 + 5 * 2 ^ 64 }) })) (fun i => let size := i.wins (benchOf 0x100100480400000 id id (fun s => { s with grids := s.grids.map (fun d => { d with wins := 0x10800 + 5 * 2 ^ 64 }) })) / 2 ^ (128 * 0 + 64) % 2 ^ 32; size = 5 ∧ i.active ⟨0, false⟩ ≠ 0 ∧ size ≤ 5 ∧ 4 < size ∧ 4 % 2 = 0 ∧ size ≤ 4 + 1 ∧ 3 < size ∧ 3 % 2 = 1) :=
  Issuing.of (by decide +kernel)

/-! ## Hypotheses met: memory forms (R46 to R71, R215 to R232) -/

/-- R46 to R52, R242: addresses on both sides of the ends of each aperture, of the private area and of a tag. -/
theorem test_meets_access_checks :
    Issuing (benchOf 0x3000000000000000 id (fun g => { g with lent := some 1, tags := [(4, ())] }) id) (fun i => let s := (benchOf 0x3000000000000000 id (fun g => { g with lent := some 1, tags := [(4, ())] }) id); s.locate i.g 0 5 0xFFFFFFFFFFFFF8 16 = .bad ∧ s.locate i.g 0 5 0xFFFFFFFFFFFFF8 8 = .global ∧ s.locate i.g 0 5 0xF00000000008FFF0 32 = .bad ∧ s.locate i.g 0 5 0xF00000000008FFF0 16 = .place (.scr i.g.id 589808) ∧ s.locate i.g 0 5 0xF10000000000FFFF 1 ≠ .bad ∧ s.locate i.g 0 5 0xF100000000010000 1 = .bad ∧ s.locate i.g 0 5 0xF2000000000EFFFC 4 ≠ .bad ∧ s.locate i.g 0 5 0xF2000000000F0000 4 = .bad ∧ s.locate i.g 0 5 0xF300000000000000 4 = .bad ∧ s.locate i.g 0 5 0xF500000000000000 1 = .bad ∧ 0xF000000000000002 % 4 ≠ 0 ∧ 0xF000000000000004 % 4 = 0 ∧ privSize (s.pktOf i.g) < 65532 + 8 ∧ 65528 + 8 ≤ privSize (s.pktOf i.g) ∧ s.tagged (.scr i.g.id 63) 1 = false ∧ s.tagged (.scr i.g.id 63) 2 = true ∧ s.tagged (.scr i.g.id 79) 4 = true ∧ s.tagged (.scr i.g.id 80) 4 = false) :=
  Issuing.of (by decide +kernel)

/-- R375: the clause page of the bench is reached; key 0 with WD set refuses a store. -/
theorem test_meets_hit_and_refused : Issuing (benchOf 0x3000000000000000 id (fun g => { g with lent := some 1, tags := [(4, ())] }) id) (fun i => Hit (benchOf 0x3000000000000000 id (fun g => { g with lent := some 1, tags := [(4, ())] }) id) i (wantLoad none) ⟨0, 0x10040, 64⟩ ⟨⟨0, 0x10040, 64⟩, [(.phys 0x10040 false, 64)], [⟨0x10040, benchLeaf, 0⟩]⟩)
    ∧ Issuing (benchOf 0x3000000000000000 id (fun g => { g with lent := some 1, tags := [(4, ())] }) id) (fun i => Refused (benchOf 0x3000000000000000 id (fun g => { g with lent := some 1, tags := [(4, ())] }) id) i (wantStore (some 2)) ⟨0, 0x10FC0, 64⟩) :=
  ⟨(Issuing.of (p := fun i => hitOf (benchOf 0x3000000000000000 id (fun g => { g with lent := some 1, tags := [(4, ())] }) id) i (wantLoad none) ⟨0, 0x10040, 64⟩ = some ⟨⟨0, 0x10040, 64⟩, [(.phys 0x10040 false, 64)], [⟨0x10040, benchLeaf, 0⟩]⟩) (by decide +kernel)).imp (fun _ h => hit_of h),
    (Issuing.of (p := fun i => refusedB (benchOf 0x3000000000000000 id (fun g => { g with lent := some 1, tags := [(4, ())] }) id) i (wantStore (some 2)) ⟨0, 0x10FC0, 64⟩ = true) (by decide +kernel)).imp (fun _ h => refused_of h)⟩

/-- R216 to R223: no lane active, every lane, one address; the block form on both sides of its three checks. -/
theorem test_meets_loads :
    Meets (bench 0xB0C8140200010000) (.ld ⟨⟨1, false⟩, 5, .v 2, .v 0, 0, 0, 4, 0, 0, 0⟩) (fun _ r => r.act = 0)
    ∧ Meets (onWarp 0xB0C0140200010000 (fun w => vPair 2 0xF000000000000100 w)) (.ld ⟨⟨0, false⟩, 5, .v 2, .v 0, 0, 0, 4, 0, 0, 0⟩) (fun s r => r.act ≠ 0
      ∧ goes s r 0 ⟨wantLoad (some r.i.w.pkr), false, none⟩ (r.memReqs ⟨⟨0, false⟩, 5, .v 2, .v 0, 0, 0, 4, 0, 0, 0⟩ 4 (lanesOf r.act)) 32 = true)
    ∧ Meets (bench 0xB1C8190400010000) (.ldS ⟨⟨1, false⟩, 6, .s 4, .v 0, 0, 0, 4, 0, 0, 0⟩) (fun _ r => r.act = 0)
    ∧ Meets (onWarp 0xB1C0190400010000 (fun w => sPair 4 0xF000000000000100 w)) (.ldS ⟨⟨0, false⟩, 6, .s 4, .v 0, 0, 0, 4, 0, 0, 0⟩) (fun s r => r.act ≠ 0
      ∧ goes s r 0 ⟨wantLoad (some r.i.w.pkr), false, none⟩ (r.memReqs ⟨⟨0, false⟩, 6, .s 4, .v 0, 0, 0, 4, 0, 0, 0⟩ 4 [r.low]) 1 = true)
    ∧ Meets (onWarp 0xB1C019044201C01B (fun w => sPair 4 0xF500000000000000 w)) (.ldS ⟨⟨0, false⟩, 6, .s 4, .s 8, 0, 0, 7, 0, 0, 27⟩) (fun s r => r.act ≠ 0
      ∧ s.locate r.i.g r.i.w.idx r.low (r.a r.low).toNat 1 = .bad)
    ∧ Meets (onWarp 0xB1C019044201C01B (fun w => sPair 4 0xF000000000000008 w)) (.ldS ⟨⟨0, false⟩, 6, .s 4, .s 8, 0, 0, 7, 0, 0, 27⟩) (fun s r => r.act ≠ 0
      ∧ s.locate r.i.g r.i.w.idx r.low (r.a r.low).toNat 1 ≠ .bad ∧ (r.a r.low).toNat % 16 = 8)
    ∧ Meets (onWarp 0xB1C019044201C01B (fun w => (sPair 4 0xF000000000000100 w).writeS 8 0x40004)) (.ldS ⟨⟨0, false⟩, 6, .s 4, .s 8, 0, 0, 7, 0, 0, 27⟩) (fun _ r => (r.a r.low).toNat % 16 = 0 ∧ (low32 (r.b r.low)) / 2 ^ 16 = (low32 (r.b r.low)) % 2 ^ 16)
    ∧ Meets (onWarp 0xB1C019044201C01B (fun w => (sPair 4 0xF000000000000100 w).writeS 8 0x40003)) (.ldS ⟨⟨0, false⟩, 6, .s 4, .s 8, 0, 0, 7, 0, 0, 27⟩) (fun s r => (r.a r.low).toNat % 16 = 0 ∧ (low32 (r.b r.low)) % 2 ^ 16 + 1 = (low32 (r.b r.low)) / 2 ^ 16 ∧ goes s r 0 ⟨{ wantLoad (some r.i.w.pkr) with fmt := bpFmt }, true, none⟩ (bpReqs r.low (r.a r.low).toNat 4 3 4) 5 = true) :=
  by refine ⟨?_, ?_, ?_, ?_, ?_, ?_, ?_, ?_⟩ <;> exact Meets.of (by decide +kernel)

theorem test_meets_stores :
    Meets (bench 0xB2C8000201010000) (.st ⟨⟨1, false⟩, 0, .v 2, .v 4, 0, 0, 4, 0, 0, 0⟩) (fun _ r => r.act = 0)
    ∧ Meets (onWarp 0xB2C0000201010000 (fun w => vPair 2 0xF000000000000100 w)) (.st ⟨⟨0, false⟩, 0, .v 2, .v 4, 0, 0, 4, 0, 0, 0⟩) (fun s r => r.act ≠ 0
      ∧ goes s r 0 ⟨wantStore (some r.i.w.pkr), false, none⟩ (r.memReqs ⟨⟨0, false⟩, 0, .v 2, .v 4, 0, 0, 4, 0, 0, 0⟩ 4 (lanesOf r.act)) 32 = true)
    ∧ Meets (onWarp 0xB2C001044201CA09 (fun w => sPair 4 0xF000000000000008 w)) (.st ⟨⟨0, false⟩, 0, .s 4, .s 8, 0, 0, 7, 10, 0, 9⟩) (fun s r => (r.a r.low).toNat % 16 = 8 ∧ s.locate r.i.g r.i.w.idx r.low (r.a r.low).toNat 1 ≠ .bad)
    ∧ Meets (onWarp 0xB2C001044201CA09 (fun w => (sPair 4 0xF000000000000100 w).writeS 8 0x0)) (.st ⟨⟨0, false⟩, 0, .s 4, .s 8, 0, 0, 7, 10, 0, 9⟩) (fun _ r => (low32 (r.b r.low)) / 2 ^ 16 ≤ (low32 (r.b r.low)) % 2 ^ 16)
    ∧ Meets (onWarp 0xB2C001044201CA09 (fun w => (sPair 4 0xF000000000000100 w).writeS 8 0x10000)) (.st ⟨⟨0, false⟩, 0, .s 4, .s 8, 0, 0, 7, 10, 0, 9⟩) (fun s r => goes s r 0 ⟨{ wantStore (some r.i.w.pkr) with fmt := bpFmt }, true, none⟩ (bpReqs r.low (r.a r.low).toNat 1 0 2) 3 = true) :=
  by refine ⟨?_, ?_, ?_, ?_, ?_⟩ <;> exact Meets.of (by decide +kernel)

theorem test_meets_atomics :
    Meets (bench 0xB3C8240202000010) (.atom ⟨⟨1, false⟩, 9, .v 2, .v 8, 0, 0, 0, 0, 0, 16⟩) (fun _ r => r.act = 0)
    ∧ Meets (onWarp 0xB3C0240202000010 (fun w => vPair 2 0xF000000000000000 w)) (.atom ⟨⟨0, false⟩, 9, .v 2, .v 8, 0, 0, 0, 0, 0, 16⟩) (fun s r => r.act ≠ 0
      ∧ goes s r 0 ⟨wantAtomic (some r.i.w.pkr), true, none⟩ (r.memReqs ⟨⟨0, false⟩, 9, .v 2, .v 8, 0, 0, 0, 0, 0, 16⟩ 4 (lanesOf r.act)) 32 = true)
    ∧ Meets (bench 0xB5C8080441800800) (.cas64 ⟨⟨1, false⟩, 2, .v 4, .s 6, 0, 0, false, 8, 0, false⟩) (fun _ r => r.act = 0)
    ∧ Meets (onWarp 0xB5C0080441800800 (fun w => vPair 4 0xF000000000000008 w)) (.cas64 ⟨⟨0, false⟩, 2, .v 4, .s 6, 0, 0, false, 8, 0, false⟩) (fun s r => r.act ≠ 0
      ∧ goes s r 0 ⟨wantAtomic (some r.i.w.pkr), true, none⟩ ((lanesOf r.act).map (fun u => ⟨u, (r.a u).toNat, 8⟩)) 32 = true) :=
  by refine ⟨?_, ?_, ?_, ?_⟩ <;> exact Meets.of (by decide +kernel)

/-- R228: a reduction on the scratchpad, which is not buffered, and one of one lane on memory, which is. -/
theorem test_meets_reductions :
    Meets (bench 0xB4C80002010A0000) (.red ⟨⟨1, false⟩, 0, .v 2, .v 4, 0, 5, 0, 0, 0, 0⟩) (fun _ r => r.act = 0)
    ∧ Meets (onWarp 0xB4C00002010A0000 (fun w => vPair 2 0xF000000000000000 w)) (.red ⟨⟨0, false⟩, 0, .v 2, .v 4, 0, 5, 0, 0, 0, 0⟩) (fun s r => r.act ≠ 0
      ∧ goes s r 0 ⟨wantAtomic (some r.i.w.pkr), true, none⟩ (r.memReqs ⟨⟨0, false⟩, 0, .v 2, .v 4, 0, 5, 0, 0, 0, 0⟩ 4 (lanesOf r.act)) 32 = true)
    ∧ Meets (onWarp 0xB4C80002010A0000 (fun w => ((vPair 2 0x10040 w).writeK 1 0x10))) (.red ⟨⟨1, false⟩, 0, .v 2, .v 4, 0, 5, 0, 0, 0, 0⟩) (fun s r => (match r.i.access s r.word 0 r.act ⟨wantAtomic (some r.i.w.pkr), true, none⟩ (r.memReqs ⟨⟨1, false⟩, 0, .v 2, .v 4, 0, 5, 0, 0, 0, 0⟩ 4 (lanesOf r.act)) with
        | .go s1 _ l => decide (l.length = 1) && soundB s1 l && l.all (fun q => redBuffered ⟨⟨1, false⟩, 0, .v 2, .v 4, 0, 5, 0, 0, 0, 0⟩ q && decide (q.parts = [(.phys 0x10040 false, 4)]) && decide (q.xs = [⟨0x10040, benchLeaf, 0⟩]))
        | .stop _ => false) = true ∧ s.redbuf = []) :=
  by refine ⟨?_, ?_, ?_⟩ <;> exact Meets.of (by decide +kernel)

theorem test_meets_merging : let e : RedEntry := ⟨0, 0x10040, 0, 0, 5, 2, [1], 0⟩
    let s : State := { bench 0 with redbuf := [] ++ e :: [] }
    e.core = 0 ∧ e.pa = 0x10040 ∧ e.op = 0 ∧ e.ty = 0 ∧ (∀ x ∈ ([] ++ [] : List RedEntry), x.core ≠ 0) ∧ s.redbuf = [] ++ e :: [] ∧ e.ty < 4 ∧ s.unreachable e.pa = false :=
  by decide +kernel

theorem test_meets_fences :
    Meets (bench 0xB6C8000000040000) (.fence ⟨⟨1, false⟩, 0, 2⟩) (fun _ r => r.act = 0)
    ∧ Meets (bench 0xB6C0000000040000) (.fence ⟨⟨0, false⟩, 0, 2⟩) (fun _ r => r.act ≠ 0 ∧ r.i.w.inRie = false)
    ∧ Meets (onWarp 0xB6C00000000C0000 (fun w => { w with inRie := true })) (.fence ⟨⟨0, false⟩, 0, 6⟩) (fun _ r => r.act ≠ 0 ∧ r.i.w.inRie = true)
    ∧ Meets (bench 0xB6C0000000140000) (.fence ⟨⟨0, false⟩, 1, 2⟩) (fun _ r => r.act ≠ 0)
    ∧ Meets (bench 0xB7C0000200000003) (.pref ⟨⟨0, false⟩, .v 2, 0, true, true⟩) (fun _ r => r.act ≠ 0)
    ∧ Meets (bench 0xB8C0000000000000) (.cctlIvl1 ⟨⟨0, false⟩, .v 0, 0, false, false⟩) (fun _ r => r.act ≠ 0)
    ∧ Meets (bench 0xB8C8000000000002) (.cctlIvconst ⟨⟨1, false⟩, .v 0, 0, false, false⟩) (fun _ r => r.act = 0)
    ∧ Meets (bench 0xB8C0000000000002) (.cctlIvconst ⟨⟨0, false⟩, .v 0, 0, false, false⟩) (fun _ r => r.act ≠ 0)
    ∧ Meets (bench 0xB8C0010200000003) (.cctlEvl2 ⟨⟨0, false⟩, .s 2, 0, false, false⟩) (fun _ r => r.act ≠ 0)
    ∧ Meets (onWarp 0xB7C0000200000003 (fun w => vPair 2 0x10800 w)) (.pref ⟨⟨0, false⟩, .v 2, 0, true, true⟩) (fun s r => (r.lines s).2.1 = none ∧ (r.lines s).1.isEmpty = false)
    ∧ Meets (benchOf 0xB7C0000200000003 (fun (w : Warp) => vPair 2 0x10800 w) id (fun (s : State) => { s with flips := [⟨0x10, true, [], []⟩] })) (.pref ⟨⟨0, false⟩, .v 2, 0, true, true⟩) (fun s r => (r.lines s).2.1 = some 0x10)
    ∧ Meets (onWarp 0xB8C0000200000001 (fun w => vPair 2 0x10FFF w)) (.cctlIvline ⟨⟨0, false⟩, .v 2, 0, false, false⟩) (fun s r => laneIn r.act 0 = true
      ∧ (r.a 0).toNat < 2 ^ 56 ∧ (match s.tlb.find? (fun e => e.covers (r.i.mmu s) (r.a 0).toNat) with
        | some e => (match s.leafCheck (r.i.mmu s) (wantLoad (some r.i.w.pkr)) (r.a 0).toNat e.leaf e.level e.pteAt with | .ok _ => !staleAd e.leaf false | _ => false)
        | none => false) = true) :=
  by refine ⟨?_, ?_, ?_, ?_, ?_, ?_, ?_, ?_, ?_, ?_, ?_, ?_⟩ <;> exact Meets.of (by decide +kernel)

/-! ## Hypotheses met: jobs, barriers, futures, watches and queues (R233 to R254) -/

/-- R233: each check of ACOPY on its own; lengths on both sides of 16 and of 2^20. -/
theorem test_meets_copies :
    Meets (bench 0xB9C8510241106000) (.acopy ⟨⟨1, false⟩, 20, .s 2, .s 4, .s 6, 0⟩) (fun _ r => r.act = 0)
    ∧ Meets (onWarp 0xB9C0510241106000 (fun w => (sPair 2 0xF100000000000000 (sPair 4 0xF000000000000000 w)).writeS 6 16)) (.acopy ⟨⟨0, false⟩, 20, .s 2, .s 4, .s 6, 0⟩) (fun s r => s.locate r.i.g r.i.w.idx r.low (r.a r.low).toNat 16 = .place (.priv r.i.g.id 0 0 0))
    ∧ Meets (onWarp 0xB9C0510241106000 (fun w => (sPair 2 0xF000000000000000 (sPair 4 0xFFFFFFFFFFFFF8 w)).writeS 6 16)) (.acopy ⟨⟨0, false⟩, 20, .s 2, .s 4, .s 6, 0⟩) (fun s r => s.locate r.i.g r.i.w.idx r.low (r.b r.low).toNat 16 = .bad)
    ∧ Meets (onWarp 0xB9C0510241106000 (fun w => (sPair 2 0xF000000000000008 (sPair 4 0xF000000000000000 w)).writeS 6 16)) (.acopy ⟨⟨0, false⟩, 20, .s 2, .s 4, .s 6, 0⟩) (fun s r => (r.a r.low).toNat % 16 = 8 ∧ (r.b r.low).toNat % 16 = 0 ∧ (low32 (r.c r.low)) = 16 ∧ s.locate r.i.g r.i.w.idx r.low (r.a r.low).toNat 16 ≠ .bad ∧ s.locate r.i.g r.i.w.idx r.low (r.b r.low).toNat 16 ≠ .bad)
    ∧ Meets (onWarp 0xB9C0510241106000 (fun w => (sPair 2 0xF000000000000000 (sPair 4 0xF000000000000008 w)).writeS 6 16)) (.acopy ⟨⟨0, false⟩, 20, .s 2, .s 4, .s 6, 0⟩) (fun s r => (r.a r.low).toNat % 16 = 0 ∧ (r.b r.low).toNat % 16 = 8 ∧ (low32 (r.c r.low)) = 16 ∧ s.locate r.i.g r.i.w.idx r.low (r.a r.low).toNat 16 ≠ .bad ∧ s.locate r.i.g r.i.w.idx r.low (r.b r.low).toNat 16 ≠ .bad)
    ∧ Meets (onWarp 0xB9C0510241106000 (fun w => (sPair 2 0x10000000 (sPair 4 0x20000000 w)).writeS 6 0)) (.acopy ⟨⟨0, false⟩, 20, .s 2, .s 4, .s 6, 0⟩) (fun s r => (r.a r.low).toNat % 16 = 0 ∧ (r.b r.low).toNat % 16 = 0 ∧ (low32 (r.c r.low)) = 0 ∧ s.locate r.i.g r.i.w.idx r.low (r.a r.low).toNat 0 ≠ .bad ∧ s.locate r.i.g r.i.w.idx r.low (r.b r.low).toNat 0 ≠ .bad)
    ∧ Meets (onWarp 0xB9C0510241106000 (fun w => (sPair 2 0x10000000 (sPair 4 0x20000000 w)).writeS 6 15)) (.acopy ⟨⟨0, false⟩, 20, .s 2, .s 4, .s 6, 0⟩) (fun s r => (r.a r.low).toNat % 16 = 0 ∧ (r.b r.low).toNat % 16 = 0 ∧ (low32 (r.c r.low)) = 15 ∧ s.locate r.i.g r.i.w.idx r.low (r.a r.low).toNat 15 ≠ .bad ∧ s.locate r.i.g r.i.w.idx r.low (r.b r.low).toNat 15 ≠ .bad)
    ∧ Meets (onWarp 0xB9C0510241106000 (fun w => (sPair 2 0x10000000 (sPair 4 0x20000000 w)).writeS 6 16)) (.acopy ⟨⟨0, false⟩, 20, .s 2, .s 4, .s 6, 0⟩) (fun s r => (r.a r.low).toNat % 16 = 0 ∧ (r.b r.low).toNat % 16 = 0 ∧ (low32 (r.c r.low)) = 16 ∧ s.locate r.i.g r.i.w.idx r.low (r.a r.low).toNat 16 ≠ .bad ∧ s.locate r.i.g r.i.w.idx r.low (r.b r.low).toNat 16 ≠ .bad)
    ∧ Meets (onWarp 0xB9C0510241106000 (fun w => (sPair 2 0x10000000 (sPair 4 0x20000000 w)).writeS 6 1048576)) (.acopy ⟨⟨0, false⟩, 20, .s 2, .s 4, .s 6, 0⟩) (fun s r => (r.a r.low).toNat % 16 = 0 ∧ (r.b r.low).toNat % 16 = 0 ∧ (low32 (r.c r.low)) = 1048576 ∧ s.locate r.i.g r.i.w.idx r.low (r.a r.low).toNat 1048576 ≠ .bad ∧ s.locate r.i.g r.i.w.idx r.low (r.b r.low).toNat 1048576 ≠ .bad)
    ∧ Meets (onWarp 0xB9C0510241106000 (fun w => (sPair 2 0x10000000 (sPair 4 0x20000000 w)).writeS 6 1048592)) (.acopy ⟨⟨0, false⟩, 20, .s 2, .s 4, .s 6, 0⟩) (fun s r => (r.a r.low).toNat % 16 = 0 ∧ (r.b r.low).toNat % 16 = 0 ∧ (low32 (r.c r.low)) = 1048592 ∧ s.locate r.i.g r.i.w.idx r.low (r.a r.low).toNat 1048592 ≠ .bad ∧ s.locate r.i.g r.i.w.idx r.low (r.b r.low).toNat 1048592 ≠ .bad) :=
  by refine ⟨?_, ?_, ?_, ?_, ?_, ?_, ?_, ?_, ?_, ?_⟩ <;> exact Meets.of (by decide +kernel)

/-- R293: cards in the last bytes of the scratchpad and of a page. -/
theorem test_meets_jobs :
    Meets (bench 0xE3C8310200000000) (.ejob ⟨⟨1, false⟩, 12, .s 2, 0, 0, false⟩) (fun _ r => r.act = 0)
    ∧ Meets (onWarp 0xE3C0310200000000 (fun w => sPair 2 0xF100000000000000 w)) (.ejob ⟨⟨0, false⟩, 12, .s 2, 0, 0, false⟩) (fun _ r => (r.a r.low).toNat / 2 ^ 56 = 0xF1)
    ∧ Meets (onWarp 0xE3C0310200000000 (fun w => sPair 2 0xF00000000008FF80 w)) (.ejob ⟨⟨0, false⟩, 12, .s 2, 0, 0, false⟩) (fun s r => s.locate r.i.g r.i.w.idx r.low (r.a r.low).toNat 256 = .bad)
    ∧ Meets (onWarp 0xE3C0310200000000 (fun w => sPair 2 0xF000000000000020 w)) (.ejob ⟨⟨0, false⟩, 12, .s 2, 0, 0, false⟩) (fun s r => s.locate r.i.g r.i.w.idx r.low (r.a r.low).toNat 256 ≠ .bad ∧ (r.a r.low).toNat % 64 = 32)
    ∧ Meets (onWarp 0xE3C0310200000000 (fun w => sPair 2 0xF00000000008FF00 w)) (.ejob ⟨⟨0, false⟩, 12, .s 2, 0, 0, false⟩) (fun s r => (r.a r.low).toNat = 0xF00000000008FF00 ∧ readsB s r (wantLoad (some r.i.w.pkr)) 0xF00000000008FF00 256 (fun _ => true) = true)
    ∧ Meets (onWarp 0xE3C0310200000000 (fun w => sPair 2 0x10F00 w)) (.ejob ⟨⟨0, false⟩, 12, .s 2, 0, 0, false⟩) (fun s r => (r.a r.low).toNat = 0x10F00
      ∧ readsB s r (wantLoad (some r.i.w.pkr)) 0x10F00 256 (fun _ => true) = true) :=
  by refine ⟨?_, ?_, ?_, ?_, ?_, ?_⟩ <;> exact Meets.of (by decide +kernel)

/-- R287: each check of SPAWN; a bad descriptor, a good one at depths 6 and 7, and one with a window table. -/
theorem test_meets_tasks :
    Meets (bench 0xE0C8010200000000) (.spawn ⟨⟨1, false⟩, 0, .s 2, 0, 0, false⟩) (fun _ r => r.act = 0)
    ∧ Meets (onWarp 0xE0C0010200000000 (fun w => sPair 2 0xF000000000000000 w)) (.spawn ⟨⟨0, false⟩, 0, .s 2, 0, 0, false⟩) (fun _ r => (r.a r.low).toNat / 2 ^ 56 ≠ 0)
    ∧ Meets (onWarp 0xE0C0010200000000 (fun w => sPair 2 0xFFFFFFFFFFFFC0 w)) (.spawn ⟨⟨0, false⟩, 0, .s 2, 0, 0, false⟩) (fun _ r => (r.a r.low).toNat / 2 ^ 56 = 0
      ∧ 2 ^ 56 < (r.a r.low).toNat + 128)
    ∧ Meets (onWarp 0xE0C0010200000000 (fun w => sPair 2 0xFFFFFFFFFFFF60 w)) (.spawn ⟨⟨0, false⟩, 0, .s 2, 0, 0, false⟩) (fun _ r => (r.a r.low).toNat + 128 ≤ 2 ^ 56
      ∧ (r.a r.low).toNat % 64 = 32)
    ∧ Meets (benchOf 0xE0C0010200000000 (fun (w : Warp) => sPair 2 0x10800 w) id (fun (s : State) => { s with grids := s.grids.map (fun d => { d with depth := 6 }) })) (.spawn ⟨⟨0, false⟩, 0, .s 2, 0, 0, false⟩) (fun s r => readsB s r (wantLoad (some r.i.w.pkr)) 0x10800 128 (fun _ => true) = true ∧ (match hitOf s r.i (wantLoad (some r.i.w.pkr)) ⟨r.low, 0x10800, 128⟩ with
        | some q => let p : BitVec 1024 := BitVec.ofNat 1024 (q.valueIn s.byteAt); (p.extractLsb' 128 64).toNat == 0 && taskBad s.pkg (((s.grid? r.i.g.grid).map (fun d => d.pkt.getLsbD 574)).getD false) p 0 == true && ((s.grid? r.i.g.grid).map (fun d => d.depth)) == some 6
        | none => false) = true)
    ∧ Meets (benchOf 0xE0C0010200000000 (fun (w : Warp) => sPair 2 0x10800 w) id (fun (s : State) => { s.store 0x10800 (leBytes 128 ((benchPkt &&& ~~~(1#1024 <<< 573)) + 0#1024 <<< 128).toNat) with grids := s.grids.map (fun d => { d with depth := 6 }) })) (.spawn ⟨⟨0, false⟩, 0, .s 2, 0, 0, false⟩) (fun s r => readsB s r (wantLoad (some r.i.w.pkr)) 0x10800 128 (fun _ => true) = true ∧ (match hitOf s r.i (wantLoad (some r.i.w.pkr)) ⟨r.low, 0x10800, 128⟩ with
        | some q => let p : BitVec 1024 := BitVec.ofNat 1024 (q.valueIn s.byteAt); (p.extractLsb' 128 64).toNat == 0 && taskBad s.pkg (((s.grid? r.i.g.grid).map (fun d => d.pkt.getLsbD 574)).getD false) p 0 == false && ((s.grid? r.i.g.grid).map (fun d => d.depth)) == some 6
        | none => false) = true)
    ∧ Meets (benchOf 0xE0C0010200000000 (fun (w : Warp) => sPair 2 0x10800 w) id (fun (s : State) => { s.store 0x10800 (leBytes 128 ((benchPkt &&& ~~~(1#1024 <<< 573)) + 0#1024 <<< 128).toNat) with grids := s.grids.map (fun d => { d with depth := 7 }) })) (.spawn ⟨⟨0, false⟩, 0, .s 2, 0, 0, false⟩) (fun s r => readsB s r (wantLoad (some r.i.w.pkr)) 0x10800 128 (fun _ => true) = true ∧ (match hitOf s r.i (wantLoad (some r.i.w.pkr)) ⟨r.low, 0x10800, 128⟩ with
        | some q => let p : BitVec 1024 := BitVec.ofNat 1024 (q.valueIn s.byteAt); (p.extractLsb' 128 64).toNat == 0 && taskBad s.pkg (((s.grid? r.i.g.grid).map (fun d => d.pkt.getLsbD 574)).getD false) p 0 == false && ((s.grid? r.i.g.grid).map (fun d => d.depth)) == some 7
        | none => false) = true)
    ∧ Meets (benchOf 0xE0C0010200000000 (fun (w : Warp) => sPair 2 0x10800 w) id (fun (s : State) => { s.store 0x10800 (leBytes 128 ((benchPkt &&& ~~~(1#1024 <<< 573)) + 0x10900#1024 <<< 128).toNat) with grids := s.grids.map (fun d => { d with depth := 0 }) })) (.spawn ⟨⟨0, false⟩, 0, .s 2, 0, 0, false⟩) (fun s r => readsB s r (wantLoad (some r.i.w.pkr)) 0x10800 128 (fun _ => true) = true ∧ readsB s r (wantLoad (some r.i.w.pkr)) 0x10900 128 (fun _ => true) = true ∧ (match hitOf s r.i (wantLoad (some r.i.w.pkr)) ⟨r.low, 0x10800, 128⟩ with
        | some q => let p : BitVec 1024 := BitVec.ofNat 1024 (q.valueIn s.byteAt); (p.extractLsb' 128 64).toNat == 67840 && taskBad s.pkg (((s.grid? r.i.g.grid).map (fun d => d.pkt.getLsbD 574)).getD false) p 0 == false && ((s.grid? r.i.g.grid).map (fun d => d.depth)) == some 0
        | none => false) = true) :=
  by refine ⟨?_, ?_, ?_, ?_, ?_, ?_, ?_, ?_⟩ <;> exact Meets.of (by decide +kernel)

/-- R236 to R239: counts 0, the group's size and one more; a phase that expects another count. -/
theorem test_meets_barriers :
    Meets (bench 0xBAC00000FF800000) (.bar ⟨⟨0, false⟩, .v 0, 511, false⟩) (fun _ r => r.act ≠ 0)
    ∧ Meets (bench 0xBAC8000000000000) (.bar ⟨⟨1, false⟩, .v 0, 0, false⟩) (fun _ r => r.act = 0)
    ∧ Meets (bench 0xBAC0020000000800) (.bar ⟨⟨0, false⟩, .imm 0, 0, true⟩) (fun _ r => (low32 (r.a r.low)) = 0)
    ∧ Meets (bench 0xBAC0020200000800) (.bar ⟨⟨0, false⟩, .imm 2, 0, true⟩) (fun _ r => r.i.g.warps.length + 1 = (low32 (r.a r.low)))
    ∧ Meets (bench 0xBAC0020100000800) (.bar ⟨⟨0, false⟩, .imm 1, 0, true⟩) (fun _ r => (low32 (r.a r.low)) = 1 ∧ r.i.g.warps.length = 1 ∧ r.i.g.expect (r.i.g.nbar 0) = none)
    ∧ Meets (benchOf 0xBAC0020100000800 id (fun (g : Group) => { g with bars := [(0, ⟨7, some 3, true, []⟩)] }) id) (.bar ⟨⟨0, false⟩, .imm 1, 0, true⟩) (fun _ r => (low32 (r.a r.low)) = 1 ∧ r.i.g.expect (r.i.g.nbar 0) = some 3)
    ∧ Meets (bench 0xBAC8000000400000) (.barGrid ⟨⟨1, false⟩, .v 0, 0, false⟩) (fun _ r => r.act = 0)
    ∧ Meets (bench 0xBAC0000000400000) (.barGrid ⟨⟨0, false⟩, .v 0, 0, false⟩) (fun s r => r.act ≠ 0 ∧ (s.pktOf r.i.g).getLsbD 573 = true
      ∧ ∀ k < 64, k ≠ s.pkg → (s.pktOf r.i.g).getLsbD (256 + k) = false)
    ∧ Meets (benchOf 0xBAC0000000400000 id id (fun (s : State) => { s with grids := s.grids.map (fun d => { d with pkt := d.pkt &&& ~~~(1#1024 <<< 573) }) })) (.barGrid ⟨⟨0, false⟩, .v 0, 0, false⟩) (fun s r => r.act ≠ 0 ∧ (s.pktOf r.i.g).getLsbD 573 = false) :=
  by refine ⟨?_, ?_, ?_, ?_, ?_, ?_, ?_, ?_, ?_⟩ <;> exact Meets.of (by decide +kernel)

theorem test_meets_barrier_phase : let g : Group := { State.reset.benchGroup (State.reset.newGrid benchPkt 0 0 none 0 0 0 .placing) 0 with bars := [(0, ⟨0, some 1, true, [(0, 0xFFFFFFFF)]⟩)] }
    let here (w : Warp) : Bool := w.live != 0 && w.live &&& ~~~(tget 0 (g.nbar 0).arrived w.idx) == 0
    g.expect (g.nbar 0) = some 1 ∧ (g.warps.filter here).length = 1 ∧ (∀ a ∈ g.warps, ∀ b ∈ g.warps, a.idx = b.idx → a = b)
      ∧ (g.nbar 1).expect = none ∧ ({ g with bars := [] } : Group).nbar 1 = g.nbar 1 :=
  by decide +kernel

/-- R238, R391: a barrier all have reached and one not; other packages told and not; a window at its time and before; a saved share; nine clusters that wait. -/
theorem test_meets_grid_barrier :
    (let s : State := onWarp 0x3000000000000000 (onSubs (fun u => { u with st := .gridBar 0, run := none })); (s.grids.map (fun d => (s.grid? d.id == some d, s.gridArrived d.id, d.gbSent, (s.others d.pkt).isEmpty))) = [(true, true, false, true)] ∧ s.groups.any (fun g => !g.ended && clusterOf g.core == 0) = true ∧ (s.ctx 0).image.isNone = true)
    ∧ (let s : State := bench 0x3000000000000000; (s.grids.map (fun d => (s.grid? d.id == some d, s.gridArrived d.id, d.gbSent, (s.others d.pkt).isEmpty))) = [(true, false, false, true)])
    ∧ (let s : State := State.reset; (s.grid? 9).isNone = true)
    ∧ (let s : State := let s : State := onWarp 0x3000000000000000 (onSubs (fun u => { u with st := .gridBar 0, run := none })); { s with grids := s.grids.map (fun d => { d with pkt := d.pkt ||| (6#1024 <<< 256) }) }; (s.grids.map (fun d => (s.grid? d.id == some d, s.gridArrived d.id, d.gbSent, (s.others d.pkt).isEmpty))) = [(true, true, false, false)])
    ∧ (let s : State := let s : State := onWarp 0x3000000000000000 (onSubs (fun u => { u with st := .gridBar 0, run := none })); { s with grids := s.grids.map (fun d => { d with pkt := d.pkt ||| (6#1024 <<< 256), gbSent := true }) }; (s.grids.map (fun d => (s.grid? d.id == some d, s.gridArrived d.id, d.gbSent, (s.others d.pkt).isEmpty))) = [(true, true, true, false)])
    ∧ (let s : State := { (let s : State := onWarp 0x3000000000000000 (onSubs (fun u => { u with st := .gridBar 0, run := none })); { s with grids := s.grids.map (fun d => { d with gbNext := some (0, 4) }) } : State) with timer := 147 }; s.grids.map (fun d => d.gbNext) = [some (0, 4)] ∧ 0 + (256 * 4 + 6) / 7 ≤ s.timer)
    ∧ (let s : State := { (let s : State := onWarp 0x3000000000000000 (onSubs (fun u => { u with st := .gridBar 0, run := none })); { s with grids := s.grids.map (fun d => { d with gbNext := some (0, 4) }) } : State) with timer := 146 }; s.grids.map (fun d => d.gbNext) = [some (0, 4)] ∧ s.timer < 0 + (256 * 4 + 6) / 7)
    ∧ (let s : State := let s : State := onWarp 0x3000000000000000 (onSubs (fun u => { u with st := .gridBar 0, run := none })); s.setCtx { s.ctx 0 with image := some { (default : Image) with groups := s.groups } }; (s.ctx 0).image.any (fun im => im.groups.any (fun g => s.grids.any (fun d => g.grid == d.id))) = true)
    ∧ (let s : State := let s : State := onWarp 0x3000000000000000 (onSubs (fun u => { u with st := .gridBar 0, run := none })); { s with groups := (List.range 9).flatMap (fun k => s.groups.map (fun g => { g with id := 10 + k, core := 6 * k })) }; s.grids.all (fun d => s.gridArrived d.id) = true ∧ (List.range 9).all (fun k => s.groups.any (fun g => clusterOf g.core == k)) = true) :=
  by refine ⟨?_, ?_, ?_, ?_, ?_, ?_, ?_, ?_, ?_⟩ <;> decide +kernel

/-- R240 to R242: pointers outside the scratchpad, past its end and misaligned; counts 0, 1, 65535 and 65536; phases one ahead, equal, behind, and on both sides of 2^31. -/
theorem test_meets_barrier_objects :
    Meets (bench 0xBBC8010241440000) (.syncset ⟨⟨1, false⟩, 0, .s 2, .s 5, 2, 0⟩) (fun _ r => r.act = 0)
    ∧ Meets (benchOf 0xBBC0010241440000 (fun (w : Warp) => sPair 2 0x10000 w) id id) (.syncset ⟨⟨0, false⟩, 0, .s 2, .s 5, 2, 0⟩) (fun s r => s.objPlace r.i (r.a r.low).toNat = none)
    ∧ Meets (benchOf 0xBBC0010241440000 (fun (w : Warp) => sPair 2 0xF00000000008FFF8 w) id id) (.syncset ⟨⟨0, false⟩, 0, .s 2, .s 5, 2, 0⟩) (fun s r => s.objPlace r.i (r.a r.low).toNat = none)
    ∧ Meets (benchOf 0xBBC0010241440000 (fun (w : Warp) => sPair 2 0xF000000000000008 w) id id) (.syncset ⟨⟨0, false⟩, 0, .s 2, .s 5, 2, 0⟩) (fun s r => s.objPlace r.i (r.a r.low).toNat ≠ none ∧ (r.a r.low).toNat % 16 = 8)
    ∧ Meets (benchOf 0xBBC0010241440000 (fun (w : Warp) => (sPair 2 0xF000000000000040 w).writeS 5 0x0) id id) (.syncset ⟨⟨0, false⟩, 0, .s 2, .s 5, 2, 0⟩) (fun s r => r.act ≠ 0 ∧ s.objPlace r.i (r.a r.low).toNat = some (r.i.g.id, 64) ∧ (r.a r.low).toNat % 16 = 0 ∧ s.isObj r.i.g.id 64 = false ∧ (low32 (r.b r.low)) = 0)
    ∧ Meets (benchOf 0xBBC0010241440000 (fun (w : Warp) => (sPair 2 0xF000000000000040 w).writeS 5 0x1) id id) (.syncset ⟨⟨0, false⟩, 0, .s 2, .s 5, 2, 0⟩) (fun s r => r.act ≠ 0 ∧ s.objPlace r.i (r.a r.low).toNat = some (r.i.g.id, 64) ∧ (r.a r.low).toNat % 16 = 0 ∧ s.isObj r.i.g.id 64 = false ∧ (low32 (r.b r.low)) = 1)
    ∧ Meets (benchOf 0xBBC0010241440000 (fun (w : Warp) => (sPair 2 0xF000000000000040 w).writeS 5 0xFFFF) id id) (.syncset ⟨⟨0, false⟩, 0, .s 2, .s 5, 2, 0⟩) (fun s r => r.act ≠ 0 ∧ s.objPlace r.i (r.a r.low).toNat = some (r.i.g.id, 64) ∧ (r.a r.low).toNat % 16 = 0 ∧ s.isObj r.i.g.id 64 = false ∧ (low32 (r.b r.low)) = 65535)
    ∧ Meets (benchOf 0xBBC0010241440000 (fun (w : Warp) => (sPair 2 0xF000000000000040 w).writeS 5 0x10000) id id) (.syncset ⟨⟨0, false⟩, 0, .s 2, .s 5, 2, 0⟩) (fun s r => r.act ≠ 0 ∧ s.objPlace r.i (r.a r.low).toNat = some (r.i.g.id, 64) ∧ (r.a r.low).toNat % 16 = 0 ∧ s.isObj r.i.g.id 64 = false ∧ (low32 (r.b r.low)) = 65536)
    ∧ Meets (benchOf 0xBBC0010241440000 (fun (w : Warp) => (sPair 2 0xF000000000000040 w).writeS 5 0x1) (fun (g : Group) => (fun (g : Group) => { g with tags := [(4, ())], scratch := putBytes [] 64 (leBytes 16 (3 + 2 * 2 ^ 32 + 7 * 2 ^ 64)) }) g) id) (.syncset ⟨⟨0, false⟩, 0, .s 2, .s 5, 2, 0⟩) (fun s r => r.act ≠ 0 ∧ s.objPlace r.i (r.a r.low).toNat = some (r.i.g.id, 64) ∧ (r.a r.low).toNat % 16 = 0 ∧ s.isObj r.i.g.id 64 = true)
    ∧ Meets (benchOf 0xBCC0250241640000 (fun (w : Warp) => (sPair 2 0xF000000000000040 w).writeS 5 0x1) id id) (.synchit ⟨⟨0, false⟩, 9, .s 2, .s 5, 2, 0⟩) (fun s r => r.act ≠ 0 ∧ s.objPlace r.i (r.a r.low).toNat = some (r.i.g.id, 64) ∧ (r.a r.low).toNat % 16 = 0 ∧ s.isObj r.i.g.id 64 = false)
    ∧ Meets (benchOf 0xBCC0250241640000 (fun (w : Warp) => (sPair 2 0xF000000000000040 w).writeS 5 0x0) (fun (g : Group) => (fun (g : Group) => { g with tags := [(4, ())], scratch := putBytes [] 64 (leBytes 16 (3 + 2 * 2 ^ 32 + 7 * 2 ^ 64)) }) g) id) (.synchit ⟨⟨0, false⟩, 9, .s 2, .s 5, 2, 0⟩) (fun s r => r.act ≠ 0 ∧ s.objPlace r.i (r.a r.low).toNat = some (r.i.g.id, 64) ∧ (r.a r.low).toNat % 16 = 0 ∧ s.isObj r.i.g.id 64 = true ∧ (low32 (r.b r.low)) = 0)
    ∧ Meets (benchOf 0xBCC0250241640000 (fun (w : Warp) => (sPair 2 0xF000000000000040 w).writeS 5 0x1) (fun (g : Group) => (fun (g : Group) => { g with tags := [(4, ())], scratch := putBytes [] 64 (leBytes 16 (3 + 2 * 2 ^ 32 + 7 * 2 ^ 64)) }) g) id) (.synchit ⟨⟨0, false⟩, 9, .s 2, .s 5, 2, 0⟩) (fun s r => r.act ≠ 0 ∧ s.objPlace r.i (r.a r.low).toNat = some (r.i.g.id, 64) ∧ (r.a r.low).toNat % 16 = 0 ∧ s.isObj r.i.g.id 64 = true ∧ (low32 (r.b r.low)) = 1 ∧ s.barObj r.i.g.id 64 = ⟨3, 2, 7⟩)
    ∧ Meets (bench 0xBCC8250241640000) (.synchit ⟨⟨1, false⟩, 9, .s 2, .s 5, 2, 0⟩) (fun _ r => r.act = 0)
    ∧ Meets (benchOf 0xBDC0010241560000 (fun (w : Warp) => (sPair 2 0xF000000000000040 w).writeS 5 0x1) id id) (.synchold ⟨⟨0, false⟩, 0, .s 2, .s 5, 3, 0⟩) (fun s r => r.act ≠ 0 ∧ s.objPlace r.i (r.a r.low).toNat = some (r.i.g.id, 64) ∧ (r.a r.low).toNat % 16 = 0 ∧ s.isObj r.i.g.id 64 = false)
    ∧ Meets (bench 0xBDC8010241560000) (.synchold ⟨⟨1, false⟩, 0, .s 2, .s 5, 3, 0⟩) (fun _ r => r.act = 0)
    ∧ Meets (benchOf 0xBDC0010241560000 (fun (w : Warp) => (sPair 2 0xF000000000000040 w).writeS 5 0x7) (fun (g : Group) => (fun (g : Group) => { g with tags := [(4, ())], scratch := putBytes [] 64 (leBytes 16 (3 + 2 * 2 ^ 32 + 7 * 2 ^ 64)) }) g) id) (.synchold ⟨⟨0, false⟩, 0, .s 2, .s 5, 3, 0⟩) (fun s r => r.act ≠ 0 ∧ s.objPlace r.i (r.a r.low).toNat = some (r.i.g.id, 64) ∧ (r.a r.low).toNat % 16 = 0 ∧ s.isObj r.i.g.id 64 = true ∧ (BitVec.ofNat 32 (s.barObj r.i.g.id 64).phase - ((r.b r.low).extractLsb' 0 32)).toNat = 0)
    ∧ Meets (benchOf 0xBDC0010241560000 (fun (w : Warp) => (sPair 2 0xF000000000000040 w).writeS 5 0x6) (fun (g : Group) => (fun (g : Group) => { g with tags := [(4, ())], scratch := putBytes [] 64 (leBytes 16 (3 + 2 * 2 ^ 32 + 7 * 2 ^ 64)) }) g) id) (.synchold ⟨⟨0, false⟩, 0, .s 2, .s 5, 3, 0⟩) (fun s r => r.act ≠ 0 ∧ s.objPlace r.i (r.a r.low).toNat = some (r.i.g.id, 64) ∧ (r.a r.low).toNat % 16 = 0 ∧ s.isObj r.i.g.id 64 = true ∧ (BitVec.ofNat 32 (s.barObj r.i.g.id 64).phase - ((r.b r.low).extractLsb' 0 32)).toNat = 1)
    ∧ Meets (benchOf 0xBDC0010241560000 (fun (w : Warp) => (sPair 2 0xF000000000000040 w).writeS 5 0x8) (fun (g : Group) => (fun (g : Group) => { g with tags := [(4, ())], scratch := putBytes [] 64 (leBytes 16 (3 + 2 * 2 ^ 32 + 7 * 2 ^ 64)) }) g) id) (.synchold ⟨⟨0, false⟩, 0, .s 2, .s 5, 3, 0⟩) (fun s r => r.act ≠ 0 ∧ s.objPlace r.i (r.a r.low).toNat = some (r.i.g.id, 64) ∧ (r.a r.low).toNat % 16 = 0 ∧ s.isObj r.i.g.id 64 = true ∧ (BitVec.ofNat 32 (s.barObj r.i.g.id 64).phase - ((r.b r.low).extractLsb' 0 32)).toNat = 4294967295)
    ∧ Meets (benchOf 0xBDC0010241560000 (fun (w : Warp) => (sPair 2 0xF000000000000040 w).writeS 5 0x80000008) (fun (g : Group) => (fun (g : Group) => { g with tags := [(4, ())], scratch := putBytes [] 64 (leBytes 16 (3 + 2 * 2 ^ 32 + 7 * 2 ^ 64)) }) g) id) (.synchold ⟨⟨0, false⟩, 0, .s 2, .s 5, 3, 0⟩) (fun s r => r.act ≠ 0 ∧ s.objPlace r.i (r.a r.low).toNat = some (r.i.g.id, 64) ∧ (r.a r.low).toNat % 16 = 0 ∧ s.isObj r.i.g.id 64 = true ∧ (BitVec.ofNat 32 (s.barObj r.i.g.id 64).phase - ((r.b r.low).extractLsb' 0 32)).toNat = 2147483647)
    ∧ Meets (benchOf 0xBDC0010241560000 (fun (w : Warp) => (sPair 2 0xF000000000000040 w).writeS 5 0x80000007) (fun (g : Group) => (fun (g : Group) => { g with tags := [(4, ())], scratch := putBytes [] 64 (leBytes 16 (3 + 2 * 2 ^ 32 + 7 * 2 ^ 64)) }) g) id) (.synchold ⟨⟨0, false⟩, 0, .s 2, .s 5, 3, 0⟩) (fun s r => r.act ≠ 0 ∧ s.objPlace r.i (r.a r.low).toNat = some (r.i.g.id, 64) ∧ (r.a r.low).toNat % 16 = 0 ∧ s.isObj r.i.g.id 64 = true ∧ (BitVec.ofNat 32 (s.barObj r.i.g.id 64).phase - ((r.b r.low).extractLsb' 0 32)).toNat = 2147483648)
    ∧ Meets (benchOf 0xBEC0010200000000 (fun (w : Warp) => sPair 2 0xF000000000000040 w) id id) (.syncdrop ⟨⟨0, false⟩, 0, .s 2, .v 0, 0, 0⟩) (fun s r => r.act ≠ 0
      ∧ s.objPlace r.i (r.a r.low).toNat = some (r.i.g.id, 64) ∧ (r.a r.low).toNat % 16 = 0 ∧ s.isObj r.i.g.id 64 = false)
    ∧ Meets (benchOf 0xBEC0010200000000 (fun (w : Warp) => sPair 2 0xF000000000000040 w) (fun (g : Group) => (fun (g : Group) => { g with tags := [(4, ())], scratch := putBytes [] 64 (leBytes 16 (3 + 2 * 2 ^ 32 + 7 * 2 ^ 64)) }) g) id) (.syncdrop ⟨⟨0, false⟩, 0, .s 2, .v 0, 0, 0⟩) (fun s r => r.act ≠ 0 ∧ s.objPlace r.i (r.a r.low).toNat = some (r.i.g.id, 64) ∧ (r.a r.low).toNat % 16 = 0 ∧ s.isObj r.i.g.id 64 = true) :=
  by refine ⟨?_, ?_, ?_, ?_, ?_, ?_, ?_, ?_, ?_, ?_, ?_, ?_, ?_, ?_, ?_, ?_, ?_, ?_, ?_, ?_, ?_, ?_⟩ <;> exact Meets.of (by decide +kernel)

/-- R241: the phase wraps; seven arrivals at an object of three. -/
theorem test_meets_object_hits : let o : BarObj := ⟨3, 1, 0xFFFFFFFF⟩
    1 ≤ o.pending ∧ o.pending ≤ o.expect ∧ o.phase < 2 ^ 32 ∧ o.hit 1 = ⟨3, 3, 0⟩ ∧ (⟨3, 3, 0⟩ : BarObj).hit 7 = ⟨3, 2, 2⟩ :=
  by decide +kernel

/-- R243 to R245: a future at the end of a page; a wait on an empty and on a full one. -/
theorem test_meets_futures :
    Meets (bench 0xC0C8010241EC0000) (.fput ⟨⟨1, false⟩, 0, .s 2, .s 7, 6, 0⟩) (fun _ r => r.act = 0)
    ∧ Meets (onWarp 0xC0C0010241EC0000 (fun w => sPair 2 0xF000000000000000 w)) (.fput ⟨⟨0, false⟩, 0, .s 2, .s 7, 6, 0⟩) (fun _ r => r.act ≠ 0 ∧ (r.a r.low).toNat / 2 ^ 56 ≠ 0)
    ∧ Meets (onWarp 0xC0C0010241EC0000 (fun w => sPair 2 0x10FF8 w)) (.fput ⟨⟨0, false⟩, 0, .s 2, .s 7, 6, 0⟩) (fun s r => (r.a r.low).toNat / 2 ^ 56 = 0
      ∧ goes s r 0 ⟨wantStore (some r.i.w.pkr), true, none⟩ [⟨r.low, (r.a r.low).toNat, 8⟩] 1 = true ∧ s.waits = [])
    ∧ Meets (benchOf 0xC0C0010241EC0000 (fun (w : Warp) => sPair 2 0x10FF8 w) id (fun (s : State) => { s with waits := [⟨0x10FF8, 99, 0, 1⟩] })) (.fput ⟨⟨0, false⟩, 0, .s 2, .s 7, 6, 0⟩) (fun s r => (r.a r.low).toNat = 0x10FF8 ∧ s.waits.map (fun w => w.pa) = [0x10FF8] ∧ s.flipAt 0x10FF8 = none)
    ∧ Meets (bench 0xBFC81C02001C0000) (.fwait ⟨⟨1, false⟩, 7, .v 2, .v 0, 6, 0⟩) (fun _ r => r.act = 0)
    ∧ Meets (onWarp 0xBFC01C02001C0000 (fun w => (vPair 2 0x10800 w).writeV 3 4 0xF0000000 |>.writeV 2 4 0)) (.fwait ⟨⟨0, false⟩, 7, .v 2, .v 0, 6, 0⟩) (fun _ r => (reqs8 r) = ((reqs8 r).take 4) ++ ⟨4, 0xF000000000000000, 8⟩ :: (reqs8 r).drop 5 ∧ (∀ x ∈ (reqs8 r).take 4, x.ptr / 2 ^ 56 = 0))
    ∧ Meets (onWarp 0xBFC81C02001C0000 (fun w => (vPair 2 0x10800 w).writeK 1 1)) (.fwait ⟨⟨1, false⟩, 7, .v 2, .v 0, 6, 0⟩) (fun s r => goes s r 0 ⟨wantLoad (some r.i.w.pkr), true, none⟩ (reqs8 r) 1 = true ∧ s.peekN 0x10800 8 < 2 ^ 63 ∧ s.waits.length + 32 ≤ 4096)
    ∧ Meets (benchOf 0xBFC81C02001C0000 (fun (w : Warp) => (vPair 2 0x10800 w).writeK 1 1) id (fun (s : State) => s.store 0x10800 (leBytes 8 (2 ^ 63 + 9)))) (.fwait ⟨⟨1, false⟩, 7, .v 2, .v 0, 6, 0⟩) (fun s r => goes s r 0 ⟨wantLoad (some r.i.w.pkr), true, none⟩ (reqs8 r) 1 = true ∧ 2 ^ 63 ≤ s.peekN 0x10800 8) :=
  by refine ⟨?_, ?_, ?_, ?_, ?_, ?_, ?_, ?_⟩ <;> exact Meets.of (by decide +kernel)

/-- R83, R245: a poll that is due and finds the future empty, one not yet due, one that finds it full; a parked wait on an empty and on a full future; a page that is being flipped. -/
theorem test_meets_polls :
    At (let s : State := onWarp 0x3000000000000000 (onSubs (fun u => { u with run := none, st := .fwait 7 [(0, 0x10800, 0x10800)] 64 0 })); s) (fun g w u => g.ended = false ∧ w.idx = 0 ∧ u.st = .fwait 7 [(0, 0x10800, 0x10800)] 64 0 ∧ ((let s : State := onWarp 0x3000000000000000 (onSubs (fun u => { u with run := none, st := .fwait 7 [(0, 0x10800, 0x10800)] 64 0 })); s) : State).timer = 0 ∧ ((let s : State := onWarp 0x3000000000000000 (onSubs (fun u => { u with run := none, st := .fwait 7 [(0, 0x10800, 0x10800)] 64 0 })); s) : State).full 0x10800 = false ∧ ((let s : State := onWarp 0x3000000000000000 (onSubs (fun u => { u with run := none, st := .fwait 7 [(0, 0x10800, 0x10800)] 64 0 })); s) : State).flips = [])
    ∧ At (let s : State := onWarp 0x3000000000000000 (onSubs (fun u => { u with run := none, st := .fwait 7 [(0, 0x10800, 0x10800)] 64 1 })); s) (fun g w u => g.ended = false ∧ w.idx = 0 ∧ u.st = .fwait 7 [(0, 0x10800, 0x10800)] 64 1 ∧ ((let s : State := onWarp 0x3000000000000000 (onSubs (fun u => { u with run := none, st := .fwait 7 [(0, 0x10800, 0x10800)] 64 1 })); s) : State).timer < 1)
    ∧ At (let s : State := onWarp 0x3000000000000000 (onSubs (fun u => { u with run := none, st := .fwait 7 [(0, 0x10800, 0x10800)] 64 0 })); { s with mem := (bench 0 |>.store 0x10800 (leBytes 8 (2 ^ 63 + 9))).mem }) (fun g w u => g.ended = false ∧ w.idx = 0 ∧ u.st = .fwait 7 [(0, 0x10800, 0x10800)] 64 0 ∧ ((let s : State := onWarp 0x3000000000000000 (onSubs (fun u => { u with run := none, st := .fwait 7 [(0, 0x10800, 0x10800)] 64 0 })); { s with mem := (bench 0 |>.store 0x10800 (leBytes 8 (2 ^ 63 + 9))).mem }) : State).full 0x10800 = true ∧ ((let s : State := onWarp 0x3000000000000000 (onSubs (fun u => { u with run := none, st := .fwait 7 [(0, 0x10800, 0x10800)] 64 0 })); { s with mem := (bench 0 |>.store 0x10800 (leBytes 8 (2 ^ 63 + 9))).mem }) : State).flips = [])
    ∧ At (let s : State := onWarp 0x3000000000000000 (onSubs (fun u => { u with run := none, st := .fwait 7 [(0, 0x10800, 0x10800)] 0 0 })); s) (fun g w u => g.ended = false ∧ w.idx = 0 ∧ u.st = .fwait 7 [(0, 0x10800, 0x10800)] 0 0 ∧ ((let s : State := onWarp 0x3000000000000000 (onSubs (fun u => { u with run := none, st := .fwait 7 [(0, 0x10800, 0x10800)] 0 0 })); s) : State).full 0x10800 = false ∧ ((let s : State := onWarp 0x3000000000000000 (onSubs (fun u => { u with run := none, st := .fwait 7 [(0, 0x10800, 0x10800)] 0 0 })); s) : State).flips = [])
    ∧ At (let s : State := onWarp 0x3000000000000000 (onSubs (fun u => { u with run := none, st := .fwait 7 [(0, 0x10800, 0x10800)] 0 0 })); { s with mem := (bench 0 |>.store 0x10800 (leBytes 8 (2 ^ 63 + 9))).mem }) (fun g w u => g.ended = false ∧ w.idx = 0 ∧ u.st = .fwait 7 [(0, 0x10800, 0x10800)] 0 0 ∧ ((let s : State := onWarp 0x3000000000000000 (onSubs (fun u => { u with run := none, st := .fwait 7 [(0, 0x10800, 0x10800)] 0 0 })); { s with mem := (bench 0 |>.store 0x10800 (leBytes 8 (2 ^ 63 + 9))).mem }) : State).full 0x10800 = true ∧ poisonedIn ((let s : State := onWarp 0x3000000000000000 (onSubs (fun u => { u with run := none, st := .fwait 7 [(0, 0x10800, 0x10800)] 0 0 })); { s with mem := (bench 0 |>.store 0x10800 (leBytes 8 (2 ^ 63 + 9))).mem }) : State).memPoison 0x10800 8 = false ∧ ((let s : State := onWarp 0x3000000000000000 (onSubs (fun u => { u with run := none, st := .fwait 7 [(0, 0x10800, 0x10800)] 0 0 })); { s with mem := (bench 0 |>.store 0x10800 (leBytes 8 (2 ^ 63 + 9))).mem }) : State).flips = [])
    ∧ At (let s : State := onWarp 0x3000000000000000 (onSubs (fun u => { u with run := none, st := .fwait 7 [(0, 0x10800, 0x10800)] 0 0 })); { s with flips := [⟨0x10, true, [], []⟩] }) (fun g w u => g.ended = false ∧ w.idx = 0 ∧ u.st = .fwait 7 [(0, 0x10800, 0x10800)] 0 0 ∧ ((let s : State := onWarp 0x3000000000000000 (onSubs (fun u => { u with run := none, st := .fwait 7 [(0, 0x10800, 0x10800)] 0 0 })); { s with flips := [⟨0x10, true, [], []⟩] }) : State).flipAt 0x10800 = some 0x10) :=
  by refine ⟨?_, ?_, ?_, ?_, ?_, ?_⟩ <;> exact At.of (by decide +kernel)

/-- R246, R247: lengths 0, 2, 4, 4096 and 4100; ranges up to the end of a page and past it; a misaligned base; the flags; a slice whose entries are all taken. -/
theorem test_meets_watches :
    Meets (bench 0xC1C8110200000000) (.watch ⟨⟨1, false⟩, 4, .s 2, .v 0, 0⟩) (fun _ r => r.act = 0)
    ∧ Meets (onWarp 0xC1C0110200000000 (fun w => sPair 2 0xF000000000000000 w)) (.watch ⟨⟨0, false⟩, 4, .s 2, .v 0, 0⟩) (fun _ r => (r.a r.low).toNat / 2 ^ 56 = 0xF0)
    ∧ Meets (onWarp 0xC1C0110200000000 (fun w => sPair 2 0x10810 w)) (.watch ⟨⟨0, false⟩, 4, .s 2, .v 0, 0⟩) (fun _ r => (r.a r.low).toNat % 32 = 16
      ∧ (r.a r.low).toNat / 2 ^ 56 = 0)
    ∧ Meets (benchOf 0xC1C0110200000000 (fun (w : Warp) => sPair 2 0x10800 w) id (fun (s : State) => s.store 0x10800 (leBytes 32 (0x10000 + 2 * 2 ^ 64 + 0 * 2 ^ 160)))) (.watch ⟨⟨0, false⟩, 4, .s 2, .v 0, 0⟩) (fun s r => readsB s r (wantLoad (some r.i.w.pkr)) 0x10800 32 (fun q => q.valueIn s.byteAt / 2 ^ 64 % 2 ^ 32 == 2 && q.valueIn s.byteAt % 2 ^ 64 == 0x10000 && q.valueIn s.byteAt / 2 ^ 160 % 2 ^ 32 == 0) = true)
    ∧ Meets (benchOf 0xC1C0110200000000 (fun (w : Warp) => sPair 2 0x10800 w) id (fun (s : State) => s.store 0x10800 (leBytes 32 (0x10000 + 0 * 2 ^ 64 + 0 * 2 ^ 160)))) (.watch ⟨⟨0, false⟩, 4, .s 2, .v 0, 0⟩) (fun s r => readsB s r (wantLoad (some r.i.w.pkr)) 0x10800 32 (fun q => q.valueIn s.byteAt / 2 ^ 64 % 2 ^ 32 == 0 && q.valueIn s.byteAt % 2 ^ 64 == 0x10000 && q.valueIn s.byteAt / 2 ^ 160 % 2 ^ 32 == 0) = true)
    ∧ Meets (benchOf 0xC1C0110200000000 (fun (w : Warp) => sPair 2 0x10800 w) id (fun (s : State) => s.store 0x10800 (leBytes 32 (0x10000 + 4 * 2 ^ 64 + 0 * 2 ^ 160)))) (.watch ⟨⟨0, false⟩, 4, .s 2, .v 0, 0⟩) (fun s r => readsB s r (wantLoad (some r.i.w.pkr)) 0x10800 32 (fun q => q.valueIn s.byteAt / 2 ^ 64 % 2 ^ 32 == 4 && q.valueIn s.byteAt % 2 ^ 64 == 0x10000 && q.valueIn s.byteAt / 2 ^ 160 % 2 ^ 32 == 0) = true)
    ∧ Meets (benchOf 0xC1C0110200000000 (fun (w : Warp) => sPair 2 0x10800 w) id (fun (s : State) => s.store 0x10800 (leBytes 32 (0x10000 + 4096 * 2 ^ 64 + 0 * 2 ^ 160)))) (.watch ⟨⟨0, false⟩, 4, .s 2, .v 0, 0⟩) (fun s r => readsB s r (wantLoad (some r.i.w.pkr)) 0x10800 32 (fun q => q.valueIn s.byteAt / 2 ^ 64 % 2 ^ 32 == 4096 && q.valueIn s.byteAt % 2 ^ 64 == 0x10000 && q.valueIn s.byteAt / 2 ^ 160 % 2 ^ 32 == 0) = true)
    ∧ Meets (benchOf 0xC1C0110200000000 (fun (w : Warp) => sPair 2 0x10800 w) id (fun (s : State) => s.store 0x10800 (leBytes 32 (0x10000 + 4100 * 2 ^ 64 + 0 * 2 ^ 160)))) (.watch ⟨⟨0, false⟩, 4, .s 2, .v 0, 0⟩) (fun s r => readsB s r (wantLoad (some r.i.w.pkr)) 0x10800 32 (fun q => q.valueIn s.byteAt / 2 ^ 64 % 2 ^ 32 == 4100 && q.valueIn s.byteAt % 2 ^ 64 == 0x10000 && q.valueIn s.byteAt / 2 ^ 160 % 2 ^ 32 == 0) = true)
    ∧ Meets (benchOf 0xC1C0110200000000 (fun (w : Warp) => sPair 2 0x10800 w) id (fun (s : State) => s.store 0x10800 (leBytes 32 (0x10FFC + 4 * 2 ^ 64 + 0 * 2 ^ 160)))) (.watch ⟨⟨0, false⟩, 4, .s 2, .v 0, 0⟩) (fun s r => readsB s r (wantLoad (some r.i.w.pkr)) 0x10800 32 (fun q => q.valueIn s.byteAt / 2 ^ 64 % 2 ^ 32 == 4 && q.valueIn s.byteAt % 2 ^ 64 == 0x10FFC && q.valueIn s.byteAt / 2 ^ 160 % 2 ^ 32 == 0) = true)
    ∧ Meets (benchOf 0xC1C0110200000000 (fun (w : Warp) => sPair 2 0x10800 w) id (fun (s : State) => s.store 0x10800 (leBytes 32 (0x10FFC + 8 * 2 ^ 64 + 0 * 2 ^ 160)))) (.watch ⟨⟨0, false⟩, 4, .s 2, .v 0, 0⟩) (fun s r => readsB s r (wantLoad (some r.i.w.pkr)) 0x10800 32 (fun q => q.valueIn s.byteAt / 2 ^ 64 % 2 ^ 32 == 8 && q.valueIn s.byteAt % 2 ^ 64 == 0x10FFC && q.valueIn s.byteAt / 2 ^ 160 % 2 ^ 32 == 0) = true)
    ∧ Meets (benchOf 0xC1C0110200000000 (fun (w : Warp) => sPair 2 0x10800 w) id (fun (s : State) => s.store 0x10800 (leBytes 32 (0x10002 + 4 * 2 ^ 64 + 0 * 2 ^ 160)))) (.watch ⟨⟨0, false⟩, 4, .s 2, .v 0, 0⟩) (fun s r => readsB s r (wantLoad (some r.i.w.pkr)) 0x10800 32 (fun q => q.valueIn s.byteAt / 2 ^ 64 % 2 ^ 32 == 4 && q.valueIn s.byteAt % 2 ^ 64 == 0x10002 && q.valueIn s.byteAt / 2 ^ 160 % 2 ^ 32 == 0) = true)
    ∧ Meets (benchOf 0xC1C0110200000000 (fun (w : Warp) => sPair 2 0x10800 w) id (fun (s : State) => s.store 0x10800 (leBytes 32 (0x10000 + 4 * 2 ^ 64 + 1 * 2 ^ 160)))) (.watch ⟨⟨0, false⟩, 4, .s 2, .v 0, 0⟩) (fun s r => readsB s r (wantLoad (some r.i.w.pkr)) 0x10800 32 (fun q => q.valueIn s.byteAt / 2 ^ 64 % 2 ^ 32 == 4 && q.valueIn s.byteAt % 2 ^ 64 == 0x10000 && q.valueIn s.byteAt / 2 ^ 160 % 2 ^ 32 == 1) = true)
    ∧ Meets (benchOf 0xC1C0110200000000 (fun (w : Warp) => sPair 2 0x10800 w) id (fun (s : State) => s.store 0x10800 (leBytes 32 (0x10000 + 4 * 2 ^ 64 + 2 * 2 ^ 160)))) (.watch ⟨⟨0, false⟩, 4, .s 2, .v 0, 0⟩) (fun s r => readsB s r (wantLoad (some r.i.w.pkr)) 0x10800 32 (fun q => q.valueIn s.byteAt / 2 ^ 64 % 2 ^ 32 == 4 && q.valueIn s.byteAt % 2 ^ 64 == 0x10000 && q.valueIn s.byteAt / 2 ^ 160 % 2 ^ 32 == 2) = true)
    ∧ Meets (benchOf 0xC1C0110200000000 (fun (w : Warp) => sPair 2 0x10800 w) id (fun (s : State) => { s.store 0x10800 (leBytes 32 (0x10000 + 4 * 2 ^ 64)) with watches := (List.range 64).map (fun k => ⟨64 * homeSlice 0x10000 + k, 9, 0, 4, 0, 0, false, 0, none, 0, 0, 0⟩) })) (.watch ⟨⟨0, false⟩, 4, .s 2, .v 0, 0⟩) (fun s r => readsB s r (wantLoad (some r.i.w.pkr)) 0x10800 32 (fun q => q.valueIn s.byteAt / 2 ^ 64 % 2 ^ 32 == 4 && q.valueIn s.byteAt % 2 ^ 64 == 0x10000 && q.valueIn s.byteAt / 2 ^ 160 % 2 ^ 32 == 0) = true ∧ (∀ k < 64, ∃ w ∈ s.watches, w.handle = 64 * homeSlice 0x10000 + k))
    ∧ Meets (bench 0xC1C8100042400001) (.watchClr ⟨⟨1, false⟩, 4, .v 0, .s 9, 0⟩) (fun _ r => r.act = 0)
    ∧ Meets (bench 0xC1C0100042400001) (.watchClr ⟨⟨0, false⟩, 4, .v 0, .s 9, 0⟩) (fun s r => s.watches = [] ∧ r.act ≠ 0)
    ∧ Meets (benchOf 0xC1C0100042400001 (fun (w : Warp) => w.writeS 9 65) id (fun (s : State) => { s with watches := [⟨65, 0, 0, 4, 0, 0, false, 0, none, 0, 0, 0⟩] })) (.watchClr ⟨⟨0, false⟩, 4, .v 0, .s 9, 0⟩) (fun s r => (low32 (r.b r.low)) = 65 ∧ s.watches.any (fun w => w.handle == 65 && w.ctx == s.ctxOf r.i.g) = true) :=
  by refine ⟨?_, ?_, ?_, ?_, ?_, ?_, ?_, ?_, ?_, ?_, ?_, ?_, ?_, ?_, ?_, ?_, ?_⟩ <;> exact Meets.of (by decide +kernel)

/-- R249, R250: objects that are not well formed for each reason; nothing left; one index left; a hundred in four shares. -/
theorem test_meets_dispenser :
    Meets (bench 0xC2C8190200000000) (.disp ⟨⟨1, false⟩, 6, .s 2, .v 0, 0⟩) (fun _ r => r.act = 0)
    ∧ Meets (onWarp 0xC2C0190200000000 (fun w => sPair 2 0xF000000000000000 w)) (.disp ⟨⟨0, false⟩, 6, .s 2, .v 0, 0⟩) (fun _ r => (r.a r.low).toNat / 2 ^ 56 = 0xF0)
    ∧ Meets (benchOf 0xC2C0190200000000 (fun (w : Warp) => sPair 2 0x10800 w) id (fun (s : State) => s.store 0x10800 (leBytes 16 (7 + 5 * 2 ^ 32 + 0 * 2 ^ 64 + 1 * 2 ^ 96 + 1 * 2 ^ 112)))) (.disp ⟨⟨0, false⟩, 6, .s 2, .v 0, 0⟩) (fun s r => goes s r 0 ⟨wantAtomic (some r.i.w.pkr), true, none⟩ [⟨r.low, (r.a r.low).toNat, 16⟩] 1 = true ∧ s.peekN 0x10804 4 = 5 ∧ s.peekN 0x10808 4 = 0 ∧ s.peekN 0x1080C 2 = 1 ∧ s.peekN 0x1080E 2 = 1)
    ∧ Meets (benchOf 0xC2C0190200000000 (fun (w : Warp) => sPair 2 0x10800 w) id (fun (s : State) => s.store 0x10800 (leBytes 16 (7 + 5 * 2 ^ 32 + 1 * 2 ^ 64 + 0 * 2 ^ 96 + 1 * 2 ^ 112)))) (.disp ⟨⟨0, false⟩, 6, .s 2, .v 0, 0⟩) (fun s r => goes s r 0 ⟨wantAtomic (some r.i.w.pkr), true, none⟩ [⟨r.low, (r.a r.low).toNat, 16⟩] 1 = true ∧ s.peekN 0x10804 4 = 5 ∧ s.peekN 0x10808 4 = 1 ∧ s.peekN 0x1080C 2 = 0 ∧ s.peekN 0x1080E 2 = 1)
    ∧ Meets (benchOf 0xC2C0190200000000 (fun (w : Warp) => sPair 2 0x10800 w) id (fun (s : State) => s.store 0x10800 (leBytes 16 (7 + 5 * 2 ^ 32 + 1 * 2 ^ 64 + 2 * 2 ^ 96 + 1 * 2 ^ 112)))) (.disp ⟨⟨0, false⟩, 6, .s 2, .v 0, 0⟩) (fun s r => goes s r 0 ⟨wantAtomic (some r.i.w.pkr), true, none⟩ [⟨r.low, (r.a r.low).toNat, 16⟩] 1 = true ∧ s.peekN 0x10804 4 = 5 ∧ s.peekN 0x10808 4 = 1 ∧ s.peekN 0x1080C 2 = 2 ∧ s.peekN 0x1080E 2 = 1)
    ∧ Meets (benchOf 0xC2C0190200000000 (fun (w : Warp) => sPair 2 0x10800 w) id (fun (s : State) => s.store 0x10800 (leBytes 16 (7 + 0 * 2 ^ 32 + 1 * 2 ^ 64 + 1 * 2 ^ 96 + 1 * 2 ^ 112)))) (.disp ⟨⟨0, false⟩, 6, .s 2, .v 0, 0⟩) (fun s r => goes s r 0 ⟨wantAtomic (some r.i.w.pkr), true, none⟩ [⟨r.low, (r.a r.low).toNat, 16⟩] 1 = true ∧ s.peekN 0x10804 4 = 0 ∧ s.peekN 0x10808 4 = 1 ∧ s.peekN 0x1080C 2 = 1 ∧ s.peekN 0x1080E 2 = 1)
    ∧ Meets (benchOf 0xC2C0190200000000 (fun (w : Warp) => sPair 2 0x10800 w) id (fun (s : State) => s.store 0x10800 (leBytes 16 (7 + 1 * 2 ^ 32 + 1 * 2 ^ 64 + 1 * 2 ^ 96 + 1 * 2 ^ 112)))) (.disp ⟨⟨0, false⟩, 6, .s 2, .v 0, 0⟩) (fun s r => goes s r 0 ⟨wantAtomic (some r.i.w.pkr), true, none⟩ [⟨r.low, (r.a r.low).toNat, 16⟩] 1 = true ∧ s.peekN 0x10804 4 = 1 ∧ s.peekN 0x10808 4 = 1 ∧ s.peekN 0x1080C 2 = 1 ∧ s.peekN 0x1080E 2 = 1)
    ∧ Meets (benchOf 0xC2C0190200000000 (fun (w : Warp) => sPair 2 0x10800 w) id (fun (s : State) => s.store 0x10800 (leBytes 16 (7 + 100 * 2 ^ 32 + 4 * 2 ^ 64 + 1 * 2 ^ 96 + 65535 * 2 ^ 112)))) (.disp ⟨⟨0, false⟩, 6, .s 2, .v 0, 0⟩) (fun s r => goes s r 0 ⟨wantAtomic (some r.i.w.pkr), true, none⟩ [⟨r.low, (r.a r.low).toNat, 16⟩] 1 = true ∧ s.peekN 0x10804 4 = 100 ∧ s.peekN 0x10808 4 = 4 ∧ s.peekN 0x1080C 2 = 1 ∧ s.peekN 0x1080E 2 = 65535) :=
  by refine ⟨?_, ?_, ?_, ?_, ?_, ?_, ?_, ?_⟩ <;> exact Meets.of (by decide +kernel)

/-- R251 to R254: producer counts 0, 1, 32 and 33; a queue that ended, and one whose warp has ended it. -/
theorem test_meets_queues :
    Meets (bench 0xC300020380000000) (.qbind ⟨⟨0, false⟩, 0, .imm 3, .r (.imm 0) (.v 0) .i32 0⟩) (fun _ r => (low32 (r.b r.low)) = 0)
    ∧ Meets (bench 0xC300020380400000) (.qbind ⟨⟨0, false⟩, 0, .imm 3, .r (.imm 1) (.v 0) .i32 0⟩) (fun _ r => (low32 (r.b r.low)) = 1)
    ∧ Meets (bench 0xC300020388000000) (.qbind ⟨⟨0, false⟩, 0, .imm 3, .r (.imm 32) (.v 0) .i32 0⟩) (fun _ r => (low32 (r.b r.low)) = 32)
    ∧ Meets (bench 0xC300020388400000) (.qbind ⟨⟨0, false⟩, 0, .imm 3, .r (.imm 33) (.v 0) .i32 0⟩) (fun _ r => (low32 (r.b r.low)) = 33)
    ∧ Meets (bench 0xC308020380400000) (.qbind ⟨⟨1, false⟩, 0, .imm 3, .r (.imm 1) (.v 0) .i32 0⟩) (fun _ r => r.act = 0)
    ∧ Meets (bench 0xC400020700000000) (.qeos ⟨⟨0, false⟩, 0, .imm 7, .r (.v 0) (.v 0) .i32 0⟩) (fun _ r => (tget emptyQueue r.i.g.queues 7).ended = false
      ∧ r.i.w.idx ∉ (tget emptyQueue r.i.g.queues 7).eos)
    ∧ Meets (benchOf 0xC400020200000000 id (fun (g : Group) => { g with queues := [(2, { emptyQueue with ended := true })] }) id) (.qeos ⟨⟨0, false⟩, 0, .imm 2, .r (.v 0) (.v 0) .i32 0⟩) (fun _ r => (tget emptyQueue r.i.g.queues 2).ended = true)
    ∧ Meets (benchOf 0xC400020200000000 id (fun (g : Group) => { g with queues := [(2, { emptyQueue with eos := [0], prod := 2 })] }) id) (.qeos ⟨⟨0, false⟩, 0, .imm 2, .r (.v 0) (.v 0) .i32 0⟩) (fun _ r => r.i.w.idx ∈ (tget emptyQueue r.i.g.queues 2).eos ∧ (tget emptyQueue r.i.g.queues 2).ended = false)
    ∧ Meets (bench 0xC500160200000000) (.qstat ⟨⟨0, false⟩, 5, .imm 2, .r (.v 0) (.v 0) .i32 0⟩) (fun _ r => r.act ≠ 0)
    ∧ Meets (bench 0xC5014A0200000000) (.qstat ⟨⟨0, false⟩, 82, .imm 2, .r (.v 0) (.v 0) .i32 0⟩) (fun _ r => r.act ≠ 0) :=
  by refine ⟨?_, ?_, ?_, ?_, ?_, ?_, ?_, ?_, ?_, ?_⟩ <;> exact Meets.of (by decide +kernel)

/-! ## Hypotheses met: palette forms and work (R99 to R110, R255 to R283) -/

/-- R264 to R271: a reader before the writer; a record at the end of memory, misaligned, read, of another kind or format; a row outside the groups memory; blocks and member masks at their limits. -/
theorem test_meets_builds :
    Meets (bench 0xD0C8010280000300) (.pbuild ⟨⟨1, false⟩, 0, .s 2, .imm 0, .v 0, 3, 0, false⟩) (fun _ r => r.act = 0)
    ∧ Meets (onWarp 0xD0C0010280000300 (fun w => onSubs (fun u => { u with pc := u.pc + 8, run := u.run.map (fun c => { c with words := [0xD3C1500000000300, 0xD0C0010280000300] }) }) (sPair 2 0x10800 w))) (.pbuild ⟨⟨0, false⟩, 0, .s 2, .imm 0, .v 0, 3, 0, false⟩) (fun _ r => r.act ≠ 0 ∧ r.i.readBefore 3 = true)
    ∧ Meets (onWarp 0xD0C0010280000300 (fun w => sPair 2 0xFFFFFFFFFFFF50 w)) (.pbuild ⟨⟨0, false⟩, 0, .s 2, .imm 0, .v 0, 3, 0, false⟩) (fun s r => s.shapes = []
      ∧ r.act ≠ 0 ∧ 2 ^ 56 < (r.a r.low).toNat + 192)
    ∧ Meets (onWarp 0xD0C0010280000300 (fun w => sPair 2 0xFFFFFFFFFFFF38 w)) (.pbuild ⟨⟨0, false⟩, 0, .s 2, .imm 0, .v 0, 3, 0, false⟩) (fun s r => s.shapes = []
      ∧ r.act ≠ 0 ∧ (r.a r.low).toNat + 192 = 2 ^ 56 - 8 ∧ (r.a r.low).toNat % 16 = 8)
    ∧ Meets (benchOf 0xD0C0010280000300 (fun (w : Warp) => sPair 2 0x10800 w) id (fun (s : State) => s.store 0x10800 (leBytes 192 0x1000040000200000011F000000000000000))) (.pbuild ⟨⟨0, false⟩, 0, .s 2, .imm 0, .v 0, 3, 0, false⟩) (fun s r => s.shapes = [] ∧ readsB s r (wantLoad (some r.i.w.pkr)) 0x10800 192 (fun q => q.valueIn s.byteAt == 0x1000040000200000011F000000000000000) = true)
    ∧ Meets (benchOf 0xD0C0010280000300 (fun (w : Warp) => sPair 2 0x10800 w) id (fun (s : State) => withShape 0x1000040000200000010F000000000000000 s)) (.pbuild ⟨⟨0, false⟩, 0, .s 2, .imm 0, .v 0, 3, 0, false⟩) (fun s r => shapeHeld s r 0x1000040000200000010F000000000000000 = true ∧ shapeReason 0x1000040000200000010F000000000000000 1 [1, 2, 3, 4, 5, 8] false ≠ 0)
    ∧ Meets (benchOf 0xD0C0010280000300 (fun (w : Warp) => sPair 2 0x10800 w) id (fun (s : State) => withShape 0x1000040000200000071F000000000000000 s)) (.pbuild ⟨⟨0, false⟩, 0, .s 2, .imm 0, .v 0, 3, 0, false⟩) (fun s r => shapeHeld s r 0x1000040000200000071F000000000000000 = true ∧ shapeReason 0x1000040000200000071F000000000000000 1 [1, 2, 3, 4, 5, 8] false ≠ 0)
    ∧ Meets (benchOf 0xD0C0010280000300 (fun (w : Warp) => sPair 2 0x10800 w) id (fun (s : State) => withShape 0x10000400002000000110000000000010000 s)) (.pbuild ⟨⟨0, false⟩, 0, .s 2, .imm 0, .v 0, 3, 0, false⟩) (fun s r => shapeHeld s r 0x10000400002000000110000000000010000 = true ∧ s.regionOk r false true 0x10000 256 = false)
    ∧ Meets (benchOf 0xD0C0010280400300 (fun (w : Warp) => sPair 2 0x10800 w) id (fun (s : State) => withShape 0x1000040000200000011F000000000000000 s)) (.pbuild ⟨⟨0, false⟩, 0, .s 2, .imm 1, .v 0, 3, 0, false⟩) (fun s r => shapeHeld s r 0x1000040000200000011F000000000000000 = true ∧ regionB s r false true (wantLoad (some r.i.w.pkr)) (shapeRows 0x1000040000200000011F000000000000000) = true ∧ (low32 (r.b r.low)) = 1)
    ∧ Meets (benchOf 0xD0C0010280800300 (fun (w : Warp) => sPair 2 0x10800 w) id (fun (s : State) => withShape 0x1000040000200000011F000000000000000 s)) (.pbuild ⟨⟨0, false⟩, 0, .s 2, .imm 2, .v 0, 3, 0, false⟩) (fun s r => shapeHeld s r 0x1000040000200000011F000000000000000 = true ∧ regionB s r false true (wantLoad (some r.i.w.pkr)) (shapeRows 0x1000040000200000011F000000000000000) = true ∧ (low32 (r.b r.low)) = 2)
    ∧ Meets (benchOf 0xD0C0010280509301 (fun (w : Warp) => sPair 2 0x10800 w |>.writeS 9 1) id (fun (s : State) => withShape 0x1000040000200000011F000000000000000 s)) (.pbuild ⟨⟨0, false⟩, 0, .s 2, .imm 1, .s 9, 3, 0, true⟩) (fun s r => shapeHeld s r 0x1000040000200000011F000000000000000 = true ∧ (low32 (r.c r.low)) = 1 ∧ s.teamSize r.i.g = 1 ∧ r.i.g.team = 0)
    ∧ Meets (benchOf 0xD0C0010280509301 (fun (w : Warp) => sPair 2 0x10800 w |>.writeS 9 2) id (fun (s : State) => withShape 0x1000040000200000011F000000000000000 s)) (.pbuild ⟨⟨0, false⟩, 0, .s 2, .imm 1, .s 9, 3, 0, true⟩) (fun s r => shapeHeld s r 0x1000040000200000011F000000000000000 = true ∧ (low32 (r.c r.low)) = 2 ∧ s.teamSize r.i.g = 1 ∧ r.i.g.team = 0)
    ∧ Meets (benchOf 0xD0C0010280509301 (fun (w : Warp) => sPair 2 0x10800 w |>.writeS 9 3) id (fun (s : State) => withShape 0x1000040000200000011F000000000000000 s)) (.pbuild ⟨⟨0, false⟩, 0, .s 2, .imm 1, .s 9, 3, 0, true⟩) (fun s r => shapeHeld s r 0x1000040000200000011F000000000000000 = true ∧ (low32 (r.c r.low)) = 3 ∧ s.teamSize r.i.g = 1 ∧ r.i.g.team = 0) :=
  by refine ⟨?_, ?_, ?_, ?_, ?_, ?_, ?_, ?_, ?_, ?_, ?_, ?_, ?_⟩ <;> exact Meets.of (by decide +kernel)

/-- R257, R261, R262, R264, R274: each check of PLOOK on both sides of its limit; versions 2^15 and 2^15 − 1 ahead. -/
theorem test_meets_lookups :
    Meets (bench 0xD1C8010241C01000) (.plook ⟨⟨1, false⟩, .s 2, .s 7, 0, 1, 0, 0, 0, false, false, false⟩) (fun _ r => r.act = 0)
    ∧ Meets (onWarp 0xD1C0010241C03001 (fun w => onSubs (fun u => { u with pc := u.pc + 8, run := u.run.map (fun c => { c with words := [0xD3C1500000000300, 0xD1C0010241C03001] }) }) (sPair 2 0x10800 w))) (.plook ⟨⟨0, false⟩, .s 2, .s 7, 0, 3, 0, 0, 0, false, false, true⟩) (fun _ r => r.act ≠ 0 ∧ r.i.readBefore 3 = true)
    ∧ Meets (benchOf 0xD1C0010241C01000 (fun (w : Warp) => sPair 2 0x10800 w) id (fun (s : State) => withShape 0x400040000200000172F000000000000000 s)) (.plook ⟨⟨0, false⟩, .s 2, .s 7, 0, 1, 0, 0, 0, false, false, false⟩) (fun s r => shapeHeld s r 0x400040000200000172F000000000000000 = true ∧ (r.i.g.view 1).has = false)
    ∧ Meets (benchOf 0xD1C0010241C01000 (fun (w : Warp) => sPair 2 0x10800 w |>.writeS 7 0) (fun (g : Group) => { (fun (g : Group) => withPal 1 false 0 64 false 1 g) g with lent := none }) (fun (s : State) => withShape 0x400040000200000172F000000000000000 s)) (.plook ⟨⟨0, false⟩, .s 2, .s 7, 0, 1, 0, 0, 0, false, false, false⟩) (fun s r => shapeHeld s r 0x400040000200000172F000000000000000 = true ∧ (r.i.g.view 1).has = true ∧ (r.i.g.view 1).valid = false ∧ regionB s r false false (wantLoad (some r.i.w.pkr)) (shapeRows 0x400040000200000172F000000000000000) = true)
    ∧ Meets (benchOf 0xD1C0010241C01001 (fun (w : Warp) => sPair 2 0x10800 w |>.writeS 7 0) (fun (g : Group) => { (fun (g : Group) => withPal 1 false 0 64 false 1 g) g with lent := none }) (fun (s : State) => withShape 0x400040000200000172F000000000000000 s)) (.plook ⟨⟨0, false⟩, .s 2, .s 7, 0, 1, 0, 0, 0, false, false, true⟩) (fun s r => shapeHeld s r 0x400040000200000172F000000000000000 = true ∧ (r.i.g.view 1).valid = false ∧ (r.i.g.view 1).can = true)
    ∧ Meets (benchOf 0xD1C0010241C01001 (fun (w : Warp) => sPair 2 0x10800 w |>.writeS 7 0) (fun (g : Group) => { (fun (g : Group) => withPal 1 false 0xF200000000000000 64 true 1 g) g with lent := none }) (fun (s : State) => withShape 0x400040000200000172F000000000000000 s)) (.plook ⟨⟨0, false⟩, .s 2, .s 7, 0, 1, 0, 0, 0, false, false, true⟩) (fun s r => shapeHeld s r 0x400040000200000172F000000000000000 = true ∧ (r.i.g.view 1).valid = false ∧ (r.i.g.view 1).can = false)
    ∧ Meets (benchOf 0xD1C0010241C01000 (fun (w : Warp) => sPair 2 0x10800 w |>.writeS 7 0) (fun (g : Group) => { (fun (g : Group) => withPal 1 true 0 64 false 2 g) g with lent := none }) (fun (s : State) => withShape 0x400040000200000172F000000000000000 s)) (.plook ⟨⟨0, false⟩, .s 2, .s 7, 0, 1, 0, 0, 0, false, false, false⟩) (fun s r => shapeHeld s r 0x400040000200000172F000000000000000 = true ∧ (r.i.g.view 1).has = true ∧ (r.i.g.view 1).valid = true ∧ (r.i.g.view 1).kb = 2)
    ∧ Meets (benchOf 0xD1C0010241C01000 (fun (w : Warp) => sPair 2 0x10800 w |>.writeS 7 0) (fun (g : Group) => { (fun (g : Group) => withPal 1 true 0 64 false 1 g) g with lent := none }) (fun (s : State) => withShape 0x400040000200000172F000000000000000 s)) (.plook ⟨⟨0, false⟩, .s 2, .s 7, 0, 1, 0, 0, 0, false, false, false⟩) (fun s r => shapeHeld s r 0x400040000200000172F000000000000000 = true ∧ (r.i.g.view 1).has = true ∧ (r.i.g.view 1).valid = true ∧ (r.i.g.view 1).kb = 1 ∧ shLen 0x400040000200000172F000000000000000 / 32 = 2 ∧ s.runOk r.i.g [0] = true)
    ∧ Meets (benchOf 0xD1C0010241C01700 (fun (w : Warp) => sPair 2 0x10800 w |>.writeS 7 0) (fun (g : Group) => { (fun (g : Group) => withPal 1 true 0 64 false 1 g) g with lent := none }) (fun (s : State) => withShape 0x400040000200000172F000000000000000 s)) (.plook ⟨⟨0, false⟩, .s 2, .s 7, 0, 1, 7, 0, 0, false, false, false⟩) (fun s r => shapeHeld s r 0x400040000200000172F000000000000000 = true ∧ (r.i.g.view 1).has = true ∧ (r.i.g.view 1).valid = true ∧ (r.i.g.view 1).rows = 64 ∧ s.runOk r.i.g [7] = true)
    ∧ Meets (benchOf 0xD1C0010241C01700 (fun (w : Warp) => sPair 2 0x10800 w |>.writeS 7 0) (fun (g : Group) => { (fun (g : Group) => withPal 1 true 0 65 false 1 g) g with lent := none }) (fun (s : State) => withShape 0x400040000200000172F000000000000000 s)) (.plook ⟨⟨0, false⟩, .s 2, .s 7, 0, 1, 7, 0, 0, false, false, false⟩) (fun s r => shapeHeld s r 0x400040000200000172F000000000000000 = true ∧ (r.i.g.view 1).has = true ∧ (r.i.g.view 1).valid = true ∧ (r.i.g.view 1).rows = 65 ∧ s.runOk r.i.g [7, 8] = false)
    ∧ Meets (benchOf 0xD1C0010241FF9000 (fun (w : Warp) => sPair 2 0x10800 w |>.writeS 7 0) (fun (g : Group) => { (fun (g : Group) => withPal 1 true 0 64 false 1 g) g with lent := none }) (fun (s : State) => withShape 0x400040000200000172F000000000000000 s)) (.plook ⟨⟨0, false⟩, .s 2, .s 7, 254, 1, 0, 0, 0, false, false, false⟩) (fun s r => shapeHeld s r 0x400040000200000172F000000000000000 = true ∧ (r.i.g.view 1).has = true ∧ (r.i.g.view 1).valid = true ∧ 254 + shRows 0x400040000200000172F000000000000000 = 256)
    ∧ Meets (benchOf 0xD1C0010241FFD000 (fun (w : Warp) => sPair 2 0x10800 w |>.writeS 7 0) (fun (g : Group) => { (fun (g : Group) => withPal 1 true 0 64 false 1 g) g with lent := none }) (fun (s : State) => withShape 0x400040000200000172F000000000000000 s)) (.plook ⟨⟨0, false⟩, .s 2, .s 7, 255, 1, 0, 0, 0, false, false, false⟩) (fun s r => shapeHeld s r 0x400040000200000172F000000000000000 = true ∧ (r.i.g.view 1).has = true ∧ (r.i.g.view 1).valid = true ∧ 255 + shRows 0x400040000200000172F000000000000000 = 257)
    ∧ Meets (benchOf 0xD1C0010241C01008 (fun (w : Warp) => sPair 2 0x10800 w |>.writeS 7 0) (fun (g : Group) => { (fun (g : Group) => withPal 1 true 0 64 false 1 g) g with lent := none }) (fun (s : State) => withShape 0x400040000200000172F000000000000000 s)) (.plook ⟨⟨0, false⟩, .s 2, .s 7, 0, 1, 0, 0, 1, false, false, false⟩) (fun s r => shapeHeld s r 0x400040000200000172F000000000000000 = true ∧ (r.i.g.view 1).has = true ∧ (r.i.g.view 1).valid = true ∧ shPln 0x400040000200000172F000000000000000 + 1 = 2)
    ∧ Meets (benchOf 0xD1C0010241C01010 (fun (w : Warp) => sPair 2 0x10800 w |>.writeS 7 0) (fun (g : Group) => { (fun (g : Group) => withPal 1 true 0 64 false 1 g) g with lent := none }) (fun (s : State) => withShape 0x400040000200000172F000000000000000 s)) (.plook ⟨⟨0, false⟩, .s 2, .s 7, 0, 1, 0, 0, 2, false, false, false⟩) (fun s r => shapeHeld s r 0x400040000200000172F000000000000000 = true ∧ (r.i.g.view 1).has = true ∧ (r.i.g.view 1).valid = true ∧ shPln 0x400040000200000172F000000000000000 + 1 < 3)
    ∧ Meets (benchOf 0xD1C0010241C01002 (fun (w : Warp) => sPair 2 0x10800 w |>.writeS 7 0) (fun (g : Group) => { (fun (g : Group) => withPal 1 true 0 64 false 1 g) g with lent := none }) (fun (s : State) => withShape 0x400040000200000172F000000000000000 s)) (.plook ⟨⟨0, false⟩, .s 2, .s 7, 0, 1, 0, 0, 0, false, true, false⟩) (fun s r => shapeHeld s r 0x400040000200000172F000000000000000 = true ∧ (r.i.g.view 1).has = true ∧ (r.i.g.view 1).valid = true)
    ∧ Meets (benchOf 0xD1C0010241C01604 (fun (w : Warp) => sPair 2 0x10800 w |>.writeS 7 0) (fun (g : Group) => { (fun (g : Group) => withPal 1 true 0 64 false 1 g) g with lent := none }) (fun (s : State) => withShape 0x400040000200000172F000000000000000 s)) (.plook ⟨⟨0, false⟩, .s 2, .s 7, 0, 1, 6, 0, 0, true, false, false⟩) (fun s r => shapeHeld s r 0x400040000200000172F000000000000000 = true ∧ (r.i.g.view 1).has = true ∧ (r.i.g.view 1).valid = true ∧ r.i.g.tyAt 6 0 = false)
    ∧ Meets (benchOf 0xD1C0010241C01704 (fun (w : Warp) => sPair 2 0x10800 w |>.writeS 7 0) (fun (g : Group) => { (fun (g : Group) => withPal 1 true 0 64 false 1 g) g with lent := none, tiles := [(7, { emptyTile with i32 := true })] }) (fun (s : State) => withShape 0x400040000200000172F000000000000000 s)) (.plook ⟨⟨0, false⟩, .s 2, .s 7, 0, 1, 7, 0, 0, true, false, false⟩) (fun s r => shapeHeld s r 0x400040000200000172F000000000000000 = true ∧ (r.i.g.view 1).has = true ∧ (r.i.g.view 1).valid = true ∧ r.i.g.tyAt 7 0 = true)
    ∧ Meets (benchOf 0xD1C0010241C01600 (fun (w : Warp) => sPair 2 0x10800 w |>.writeS 7 0) (fun (g : Group) => { (fun (g : Group) => withPal 1 true 0 128 false 1 g) g with lent := none, tiles := [(7, { emptyTile with i32 := true })] }) (fun (s : State) => withShape 0x400040000200000172F000000000000000 s)) (.plook ⟨⟨0, false⟩, .s 2, .s 7, 0, 1, 6, 0, 0, false, false, false⟩) (fun s r => shapeHeld s r 0x400040000200000172F000000000000000 = true ∧ (r.i.g.view 1).has = true ∧ (r.i.g.view 1).valid = true ∧ r.i.g.tyAt 7 0 = true ∧ r.i.g.tyAt 6 0 = false ∧ (r.i.g.view 1).rows = 128)
    ∧ Meets (benchOf 0xD1C0010241C01000 (fun (w : Warp) => sPair 2 0x10800 w |>.writeS 7 0) (fun (g : Group) => { (fun (g : Group) => withPal 1 true 0 64 false 1 g) g with lent := none, tiles := [(0, { emptyTile with ver := 0x8000 })] }) (fun (s : State) => withShape 0x400040000200000172F000000000000000 s)) (.plook ⟨⟨0, false⟩, .s 2, .s 7, 0, 1, 0, 0, 0, false, false, false⟩) (fun s r => shapeHeld s r 0x400040000200000172F000000000000000 = true ∧ (r.i.g.view 1).has = true ∧ (r.i.g.view 1).valid = true ∧ (0 - (r.i.g.tile 0).ver).toNat = 2 ^ 15)
    ∧ Meets (benchOf 0xD1C0010241C01000 (fun (w : Warp) => sPair 2 0x10800 w |>.writeS 7 0) (fun (g : Group) => { (fun (g : Group) => withPal 1 true 0 64 false 1 g) g with lent := none, tiles := [(0, { emptyTile with ver := 0x8001 })] }) (fun (s : State) => withShape 0x400040000200000172F000000000000000 s)) (.plook ⟨⟨0, false⟩, .s 2, .s 7, 0, 1, 0, 0, 0, false, false, false⟩) (fun s r => shapeHeld s r 0x400040000200000172F000000000000000 = true ∧ (r.i.g.view 1).has = true ∧ (r.i.g.view 1).valid = true ∧ (0 - (r.i.g.tile 0).ver).toNat = 2 ^ 15 - 1 ∧ ∀ j < 1, ¬ j < r.i.w.acc.length) :=
  by refine ⟨?_, ?_, ?_, ?_, ?_, ?_, ?_, ?_, ?_, ?_, ?_, ?_, ?_, ?_, ?_, ?_, ?_, ?_, ?_, ?_⟩ <;> exact Meets.of (by decide +kernel)

/-- R276 to R278, R281: heights 0, 1, 256 and 257 and runs of tiles past the group's; images of two rows at the end of a page, past the scratchpad, in a private area and misaligned; descriptors malformed and sound. -/
theorem test_meets_palette_moves :
    Meets (bench 0xD6C8000041D09001) (.azero ⟨⟨1, false⟩, 0, .v 0, .s 7, .s 9, 0, 0, true⟩) (fun _ r => r.act = 0)
    ∧ Meets (onWarp 0xD6C0000041D09001 (fun w => (w.writeS 9 0).writeS 7 0)) (.azero ⟨⟨0, false⟩, 0, .v 0, .s 7, .s 9, 0, 0, true⟩) (fun _ r => (low32 (r.c r.low)) = 0 ∧ r.act ≠ 0)
    ∧ Meets (onWarp 0xD6C0000041D09001 (fun w => (w.writeS 9 1).writeS 7 0)) (.azero ⟨⟨0, false⟩, 0, .v 0, .s 7, .s 9, 0, 0, true⟩) (fun s r => (low32 (r.c r.low)) = 1
      ∧ r.act ≠ 0 ∧ s.runOk r.i.g ((List.range ((1 + 63) / 64)).map (0 + ·)) = true)
    ∧ Meets (onWarp 0xD6C0000041D09001 (fun w => (w.writeS 9 256).writeS 7 0)) (.azero ⟨⟨0, false⟩, 0, .v 0, .s 7, .s 9, 0, 0, true⟩) (fun s r => (low32 (r.c r.low)) = 256 ∧ r.act ≠ 0 ∧ s.runOk r.i.g ((List.range ((256 + 63) / 64)).map (0 + ·)) = true)
    ∧ Meets (onWarp 0xD6C0000041D09001 (fun w => (w.writeS 9 257).writeS 7 0)) (.azero ⟨⟨0, false⟩, 0, .v 0, .s 7, .s 9, 0, 0, true⟩) (fun _ r => (low32 (r.c r.low)) = 257 ∧ r.act ≠ 0)
    ∧ Meets (onWarp 0xD6C0000041D09401 (fun w => (w.writeS 9 256).writeS 7 0)) (.azero ⟨⟨0, false⟩, 0, .v 0, .s 7, .s 9, 4, 0, true⟩) (fun s r => (low32 (r.c r.low)) = 256 ∧ r.act ≠ 0 ∧ s.runOk r.i.g ((List.range ((256 + 63) / 64)).map (4 + ·)) = true)
    ∧ Meets (onWarp 0xD6C0000041D09501 (fun w => (w.writeS 9 256).writeS 7 0)) (.azero ⟨⟨0, false⟩, 0, .v 0, .s 7, .s 9, 5, 0, true⟩) (fun s r => (low32 (r.c r.low)) = 256 ∧ r.act ≠ 0 ∧ s.runOk r.i.g ((List.range ((256 + 63) / 64)).map (5 + ·)) = false)
    ∧ Meets (onWarp 0xD6C0000041D09F01 (fun w => (w.writeS 9 64).writeS 7 0)) (.azero ⟨⟨0, false⟩, 0, .v 0, .s 7, .s 9, 15, 0, true⟩) (fun s r => (low32 (r.c r.low)) = 64
      ∧ r.act ≠ 0 ∧ s.runOk r.i.g ((List.range ((64 + 63) / 64)).map (15 + ·)) = true)
    ∧ Meets (onWarp 0xD6C0000041D09F01 (fun w => (w.writeS 9 65).writeS 7 0)) (.azero ⟨⟨0, false⟩, 0, .v 0, .s 7, .s 9, 15, 0, true⟩) (fun s r => (low32 (r.c r.low)) = 65
      ∧ r.act ≠ 0 ∧ s.runOk r.i.g ((List.range ((65 + 63) / 64)).map (15 + ·)) = false)
    ∧ Meets (benchOf 0xD4C0010200000100 (fun (w : Warp) => sPair 2 0x10BC0 w) (fun (g : Group) => (fun (g : Group) => withPal 1 true 0 2 false 0 g) g) id) (.pspill ⟨⟨0, false⟩, 0, .s 2, .v 0, .v 0, 1, 0, false⟩) (fun s r => (r.i.g.view 1).has = true ∧ (r.i.g.view 1).rows = 2 ∧ s.regionOk r true false (r.a r.low).toNat 1088 = true ∧ (r.a r.low).toNat % 16 = 0 ∧ regionB s r true false (wantStore (some r.i.w.pkr)) [(0x10BC0, 1088)] = true)
    ∧ Meets (benchOf 0xD4C0010200000100 (fun (w : Warp) => sPair 2 0xF00000000008FBD0 w) (fun (g : Group) => (fun (g : Group) => withPal 1 true 0 2 false 0 g) g) id) (.pspill ⟨⟨0, false⟩, 0, .s 2, .v 0, .v 0, 1, 0, false⟩) (fun s r => (r.i.g.view 1).has = true ∧ (r.i.g.view 1).rows = 2 ∧ s.regionOk r true false (r.a r.low).toNat 1088 = false)
    ∧ Meets (benchOf 0xD4C0010200000100 (fun (w : Warp) => sPair 2 0xF100000000000000 w) (fun (g : Group) => (fun (g : Group) => withPal 1 true 0 2 false 0 g) g) id) (.pspill ⟨⟨0, false⟩, 0, .s 2, .v 0, .v 0, 1, 0, false⟩) (fun s r => (r.i.g.view 1).has = true ∧ (r.i.g.view 1).rows = 2 ∧ s.regionOk r true false (r.a r.low).toNat 1088 = false)
    ∧ Meets (benchOf 0xD4C0010200000100 (fun (w : Warp) => sPair 2 0xF000000000000008 w) (fun (g : Group) => (fun (g : Group) => withPal 1 true 0 2 false 0 g) g) id) (.pspill ⟨⟨0, false⟩, 0, .s 2, .v 0, .v 0, 1, 0, false⟩) (fun s r => (r.i.g.view 1).has = true ∧ (r.i.g.view 1).rows = 2 ∧ s.regionOk r true false (r.a r.low).toNat 1088 = true ∧ (r.a r.low).toNat % 16 = 8)
    ∧ Meets (bench 0xD4C0010200000100) (.pspill ⟨⟨0, false⟩, 0, .s 2, .v 0, .v 0, 1, 0, false⟩) (fun _ r => (r.i.g.view 1).has = false ∧ r.act ≠ 0)
    ∧ Meets (bench 0xD4C8010200000100) (.pspill ⟨⟨1, false⟩, 0, .s 2, .v 0, .v 0, 1, 0, false⟩) (fun _ r => r.act = 0)
    ∧ Meets (bench 0xD5C8010200000100) (.pfill ⟨⟨1, false⟩, 0, .s 2, .v 0, .v 0, 1, 0, false⟩) (fun _ r => r.act = 0)
    ∧ Meets (onWarp 0xD5C0010200000100 (fun w => onSubs (fun u => { u with pc := u.pc + 8, run := u.run.map (fun c => { c with words := [0xD3C1500000000100, 0xD5C0010200000100] }) }) (sPair 2 0x10800 w))) (.pfill ⟨⟨0, false⟩, 0, .s 2, .v 0, .v 0, 1, 0, false⟩) (fun _ r => r.act ≠ 0 ∧ r.i.readBefore 1 = true)
    ∧ Meets (onWarp 0xD5C0010200000100 (fun w => sPair 2 0xF00000000008FFF0 w)) (.pfill ⟨⟨0, false⟩, 0, .s 2, .v 0, .v 0, 1, 0, false⟩) (fun s r => s.regionOk r true false (r.a r.low).toNat 32 = false)
    ∧ Meets (onWarp 0xD5C0010200000100 (fun w => sPair 2 0xF000000000000008 w)) (.pfill ⟨⟨0, false⟩, 0, .s 2, .v 0, .v 0, 1, 0, false⟩) (fun s r => s.regionOk r true false (r.a r.low).toNat 32 = true ∧ (r.a r.low).toNat % 16 = 8)
    ∧ Meets (benchOf 0xD5C0010200000100 (fun (w : Warp) => sPair 2 0x10800 w) id (fun (s : State) => s.store 0x10800 (leBytes 32 0x100000000000000000000000000))) (.pfill ⟨⟨0, false⟩, 0, .s 2, .v 0, .v 0, 1, 0, false⟩) (fun s r => readsB s r (wantLoad (some r.i.w.pkr)) 0x10800 32 (fun q => q.valueIn s.byteAt == 0x100000000000000000000000000) = true)
    ∧ Meets (benchOf 0xD5C0010200000100 (fun (w : Warp) => sPair 2 0x10800 w) id (fun (s : State) => s.store 0x10800 (leBytes 32 0x100000000010000000000000000))) (.pfill ⟨⟨0, false⟩, 0, .s 2, .v 0, .v 0, 1, 0, false⟩) (fun s r => readsB s r (wantLoad (some r.i.w.pkr)) 0x10800 32 (fun q => q.valueIn s.byteAt == 0x100000000010000000000000000) = true)
    ∧ Meets (benchOf 0xD5C0010200000100 (fun (w : Warp) => sPair 2 0x10800 w) id (fun (s : State) => s.store 0x10800 (leBytes 32 0x600000000000000000000000000))) (.pfill ⟨⟨0, false⟩, 0, .s 2, .v 0, .v 0, 1, 0, false⟩) (fun s r => readsB s r (wantLoad (some r.i.w.pkr)) 0x10800 32 (fun q => q.valueIn s.byteAt == 0x600000000000000000000000000) = true)
    ∧ Meets (benchOf 0xD5C0010200000100 (fun (w : Warp) => sPair 2 0x10800 w) id (fun (s : State) => s.store 0x10800 (leBytes 32 0x101000000000000000000000000))) (.pfill ⟨⟨0, false⟩, 0, .s 2, .v 0, .v 0, 1, 0, false⟩) (fun s r => readsB s r (wantLoad (some r.i.w.pkr)) 0x10800 32 (fun q => q.valueIn s.byteAt == 0x101000000000000000000000000) = true ∧ regionB s r true false (wantLoad (some r.i.w.pkr)) [(0x10800, 1088)] = true) :=
  by refine ⟨?_, ?_, ?_, ?_, ?_, ?_, ?_, ?_, ?_, ?_, ?_, ?_, ?_, ?_, ?_, ?_, ?_, ?_, ?_, ?_, ?_, ?_, ?_⟩ <;> exact Meets.of (by decide +kernel)

/-- R257, R262, R272, R279, R280, R282, R283: ALOAD and ADRAIN over two tiles; AREAD at the last column of each row it admits; the forms of RFENCE; a record of each kind for SRLD; PINV before and behind a writer. -/
theorem test_meets_tile_forms :
    Meets (bench 0xD7C8010241C00000) (.aload ⟨⟨1, false⟩, 0, .s 2, .s 7, .v 0, 0, 0, false⟩) (fun _ r => r.act = 0)
    ∧ Meets (benchOf 0xD7C0010241C00600 (fun (w : Warp) => sPair 2 0x10800 w) id (fun (s : State) => withShape 0x4000040004100000013F000000000000000 s)) (.aload ⟨⟨0, false⟩, 0, .s 2, .s 7, .v 0, 6, 0, false⟩) (fun s r => shapeHeld s r 0x4000040004100000013F000000000000000 = true ∧ regionB s r true false (wantLoad (some r.i.w.pkr)) (shapeRows 0x4000040004100000013F000000000000000) = true ∧ s.runOk r.i.g [6, 7] = true)
    ∧ Meets (benchOf 0xD7C0010241C00700 (fun (w : Warp) => sPair 2 0x10800 w) id (fun (s : State) => withShape 0x4000040004100000013F000000000000000 s)) (.aload ⟨⟨0, false⟩, 0, .s 2, .s 7, .v 0, 7, 0, false⟩) (fun s r => shapeHeld s r 0x4000040004100000013F000000000000000 = true ∧ s.runOk r.i.g [7, 8] = false)
    ∧ Meets (benchOf 0xD7C0010241C00600 (fun (w : Warp) => sPair 2 0x10800 w) (fun (g : Group) => { g with tiles := [(7, { emptyTile with ver := 0x8000 })] }) (fun (s : State) => withShape 0x4000040004100000013F000000000000000 s)) (.aload ⟨⟨0, false⟩, 0, .s 2, .s 7, .v 0, 6, 0, false⟩) (fun s r => shapeHeld s r 0x4000040004100000013F000000000000000 = true ∧ (0 - (r.i.g.tile 7).ver).toNat = 2 ^ 15 ∧ r.i.g.tyAt 7 0 = r.i.g.tyAt 6 0)
    ∧ Meets (bench 0xDAC8010241C00001) (.adrain ⟨⟨1, false⟩, 0, .s 2, .s 7, .v 0, 0, 0, true⟩) (fun _ r => r.act = 0)
    ∧ Meets (benchOf 0xDAC0010241C00601 (fun (w : Warp) => sPair 2 0x10800 w) id (fun (s : State) => withShape 0x4000040004100000013F000000000000000 s)) (.adrain ⟨⟨0, false⟩, 0, .s 2, .s 7, .v 0, 6, 0, true⟩) (fun s r => shapeHeld s r 0x4000040004100000013F000000000000000 = true ∧ regionB s r true false (wantStore (some r.i.w.pkr)) (shapeRows 0x4000040004100000013F000000000000000) = true ∧ s.runOk r.i.g [6, 7] = true)
    ∧ Meets (benchOf 0xDAC0010241C00701 (fun (w : Warp) => sPair 2 0x10800 w) id (fun (s : State) => withShape 0x4000040004100000013F000000000000000 s)) (.adrain ⟨⟨0, false⟩, 0, .s 2, .s 7, .v 0, 7, 0, true⟩) (fun s r => shapeHeld s r 0x4000040004100000013F000000000000000 = true ∧ s.runOk r.i.g [7, 8] = false)
    ∧ Meets (benchOf 0xDAC0010241C00601 (fun (w : Warp) => sPair 2 0x10800 w) (fun (g : Group) => { g with tiles := [(7, { emptyTile with ver := 0x8000 })] }) (fun (s : State) => withShape 0x4000040004100000013F000000000000000 s)) (.adrain ⟨⟨0, false⟩, 0, .s 2, .s 7, .v 0, 6, 0, true⟩) (fun s r => shapeHeld s r 0x4000040004100000013F000000000000000 = true ∧ (0 - (r.i.g.tile 7).ver).toNat = 2 ^ 15 ∧ r.i.g.tyAt 7 0 = r.i.g.tyAt 6 0)
    ∧ Meets (benchOf 0xDAC0010241C00601 (fun (w : Warp) => sPair 2 0x10800 w) (fun (g : Group) => { g with tiles := [(7, { emptyTile with i32 := true })] }) (fun (s : State) => withShape 0x4000040004100000013F000000000000000 s)) (.adrain ⟨⟨0, false⟩, 0, .s 2, .s 7, .v 0, 6, 0, true⟩) (fun s r => shapeHeld s r 0x4000040004100000013F000000000000000 = true ∧ r.i.g.tyAt 7 0 = true ∧ r.i.g.tyAt 6 0 = false)
    ∧ Meets (benchOf 0xD7C0010241C00600 (fun (w : Warp) => sPair 2 0x10800 w) id (fun (s : State) => withShape 0x4000040000200000073F000000000000000 s)) (.aload ⟨⟨0, false⟩, 0, .s 2, .s 7, .v 0, 6, 0, false⟩) (fun s r => shapeHeld s r 0x4000040000200000073F000000000000000 = true ∧ shapeReason 0x4000040000200000073F000000000000000 3 [1, 2, 3, 9] false = 2)
    ∧ Meets (onWarp 0xD8C0250100103600 (fun w => (w.writeS 1 63).writeS 3 224)) (.aread ⟨⟨0, false⟩, 9, .s 1, .v 0, .s 3, 6, 0, false⟩) (fun _ r => (low32 (r.a r.low)) = 63 ∧ (low32 (r.c r.low)) = 224 ∧ r.act ≠ 0)
    ∧ Meets (onWarp 0xD8C0250100103600 (fun w => (w.writeS 1 64).writeS 3 0)) (.aread ⟨⟨0, false⟩, 9, .s 1, .v 0, .s 3, 6, 0, false⟩) (fun _ r => (low32 (r.a r.low)) = 64
      ∧ (low32 (r.c r.low)) = 0 ∧ r.act ≠ 0)
    ∧ Meets (onWarp 0xD8C0250100103600 (fun w => (w.writeS 1 63).writeS 3 225)) (.aread ⟨⟨0, false⟩, 9, .s 1, .v 0, .s 3, 6, 0, false⟩) (fun _ r => (low32 (r.a r.low)) = 63 ∧ (low32 (r.c r.low)) = 225 ∧ r.act ≠ 0)
    ∧ Meets (onWarp 0xD8C0250140903601 (fun w => (w.writeS 1 257).writeS 3 224)) (.aread ⟨⟨0, false⟩, 9, .s 1, .s 2, .s 3, 6, 0, true⟩) (fun _ r => (low32 (r.a r.low)) = 257 ∧ (low32 (r.c r.low)) = 224 ∧ r.act ≠ 0)
    ∧ Meets (onWarp 0xD8C0250100103600 (fun w => (w.writeS 1 258).writeS 3 32)) (.aread ⟨⟨0, false⟩, 9, .s 1, .v 0, .s 3, 6, 0, false⟩) (fun _ r => (low32 (r.a r.low)) = 258 ∧ (low32 (r.c r.low)) = 32 ∧ r.act ≠ 0)
    ∧ Meets (onWarp 0xD8C0250100103600 (fun w => (w.writeS 1 258).writeS 3 33)) (.aread ⟨⟨0, false⟩, 9, .s 1, .v 0, .s 3, 6, 0, false⟩) (fun _ r => (low32 (r.a r.low)) = 258 ∧ (low32 (r.c r.low)) = 33 ∧ r.act ≠ 0)
    ∧ Meets (onWarp 0xD8C0250100103600 (fun w => (w.writeS 1 259).writeS 3 0)) (.aread ⟨⟨0, false⟩, 9, .s 1, .v 0, .s 3, 6, 0, false⟩) (fun _ r => (low32 (r.a r.low)) = 259 ∧ (low32 (r.c r.low)) = 0 ∧ r.act ≠ 0)
    ∧ Meets (onWarp 0xD8C0250140903601 (fun w => (w.writeS 1 0).writeS 3 0)) (.aread ⟨⟨0, false⟩, 9, .s 1, .s 2, .s 3, 6, 0, true⟩) (fun _ r => (low32 (r.a r.low)) = 0
      ∧ (low32 (r.c r.low)) = 0 ∧ r.act ≠ 0)
    ∧ Meets (bench 0xD8C8250140903601) (.aread ⟨⟨1, false⟩, 9, .s 1, .s 2, .s 3, 6, 0, true⟩) (fun _ r => r.act = 0)
    ∧ Meets (bench 0xDBC0000000000000) (.rfence ⟨⟨0, false⟩, 0, .v 0, .v 0, .v 0, 0, 0, false⟩) (fun _ r => r.act ≠ 0)
    ∧ Meets (bench 0xDBC8000000000000) (.rfence ⟨⟨1, false⟩, 0, .v 0, .v 0, .v 0, 0, 0, false⟩) (fun _ r => r.act = 0)
    ∧ Meets (onWarp 0xDBC0010800000000 (fun w => sPair 8 0x100000000000000 w)) (.rfence ⟨⟨0, false⟩, 0, .s 8, .v 0, .v 0, 0, 0, false⟩) (fun _ r => 2 ^ 56 ≤ (r.a r.low).toNat)
    ∧ Meets (onWarp 0xDBC0010800000000 (fun w => sPair 8 8 w)) (.rfence ⟨⟨0, false⟩, 0, .s 8, .v 0, .v 0, 0, 0, false⟩) (fun _ r => (r.a r.low).toNat < 2 ^ 56
      ∧ (r.a r.low).toNat % 16 = 8)
    ∧ Meets (onWarp 0xDBC0010800000000 (fun w => sPair 8 16 w)) (.rfence ⟨⟨0, false⟩, 0, .s 8, .v 0, .v 0, 0, 0, false⟩) (fun _ r => (r.a r.low).toNat = 16)
    ∧ Meets (bench 0xDCC8010800000000) (.srld ⟨⟨1, false⟩, 0, .s 8, .v 0, .v 0, 0, 0, false⟩) (fun _ r => r.act = 0)
    ∧ Meets (benchOf 0xDCC0010800000000 (fun (w : Warp) => sPair 8 0x10800 w) id (fun (s : State) => withShape 0x4000040000200000010F000000000000000 s)) (.srld ⟨⟨0, false⟩, 0, .s 8, .v 0, .v 0, 0, 0, false⟩) (fun s r => shapeHeld s r 0x4000040000200000010F000000000000000 = true ∧ shKind 0x4000040000200000010F000000000000000 = 0)
    ∧ Meets (benchOf 0xDCC0010800000000 (fun (w : Warp) => sPair 8 0x10800 w) id (fun (s : State) => withShape 0x4000040000200000011F000000000000000 s)) (.srld ⟨⟨0, false⟩, 0, .s 8, .v 0, .v 0, 0, 0, false⟩) (fun s r => shapeHeld s r 0x4000040000200000011F000000000000000 = true ∧ shKind 0x4000040000200000011F000000000000000 = 1)
    ∧ Meets (benchOf 0xDCC0010800000000 (fun (w : Warp) => sPair 8 0x10800 w) id (fun (s : State) => withShape 0x4000040000200000072F000000000000000 s)) (.srld ⟨⟨0, false⟩, 0, .s 8, .v 0, .v 0, 0, 0, false⟩) (fun s r => shapeHeld s r 0x4000040000200000072F000000000000000 = true ∧ shKind 0x4000040000200000072F000000000000000 = 2)
    ∧ Meets (benchOf 0xDCC0010800000000 (fun (w : Warp) => sPair 8 0x10800 w) id (fun (s : State) => withShape 0x4000040000200000013F000000000000000 s)) (.srld ⟨⟨0, false⟩, 0, .s 8, .v 0, .v 0, 0, 0, false⟩) (fun s r => shapeHeld s r 0x4000040000200000013F000000000000000 = true ∧ shKind 0x4000040000200000013F000000000000000 = 3)
    ∧ Meets (benchOf 0xDCC0010800000000 (fun (w : Warp) => sPair 8 0x10800 w) id (fun (s : State) => withShape 0x4000040000200000014F000000000000000 s)) (.srld ⟨⟨0, false⟩, 0, .s 8, .v 0, .v 0, 0, 0, false⟩) (fun s r => shapeHeld s r 0x4000040000200000014F000000000000000 = true ∧ shKind 0x4000040000200000014F000000000000000 = 4)
    ∧ Meets (benchOf 0xDCC0010800000000 (fun (w : Warp) => sPair 8 0x10800 w) id (fun (s : State) => withShape 0x4000040000200000015F000000000000000 s)) (.srld ⟨⟨0, false⟩, 0, .s 8, .v 0, .v 0, 0, 0, false⟩) (fun s r => shapeHeld s r 0x4000040000200000015F000000000000000 = true ∧ shKind 0x4000040000200000015F000000000000000 = 5)
    ∧ Meets (benchOf 0xDCC0010800000000 (fun (w : Warp) => sPair 8 0x10800 w) id (fun (s : State) => withShape 0x4000040000200000016F000000000000000 s)) (.srld ⟨⟨0, false⟩, 0, .s 8, .v 0, .v 0, 0, 0, false⟩) (fun s r => shapeHeld s r 0x4000040000200000016F000000000000000 = true ∧ shKind 0x4000040000200000016F000000000000000 = 6)
    ∧ Meets (bench 0xD2C8000000000200) (.pinv ⟨⟨1, false⟩, 0, .v 0, .v 0, .v 0, 2, 0, false⟩) (fun _ r => r.act = 0)
    ∧ Meets (bench 0xD2C0000000000200) (.pinv ⟨⟨0, false⟩, 0, .v 0, .v 0, .v 0, 2, 0, false⟩) (fun _ r => r.act ≠ 0 ∧ ∀ o ∈ r.i.g.palOps, o.kind.palUse ≠ some (2, true))
    ∧ Meets (benchOf 0xD2C0000000000200 id (fun (g : Group) => { g with palOps := [⟨9, 0, 0, 0, .build 2 0x1000040000200000011F000000000000000 0 0, [], false, [], 0⟩] }) id) (.pinv ⟨⟨0, false⟩, 0, .v 0, .v 0, .v 0, 2, 0, false⟩) (fun _ r => r.act ≠ 0 ∧ ∃ o ∈ r.i.g.palOps, o.kind.palUse = some (2, true)) :=
  by refine ⟨?_, ?_, ?_, ?_, ?_, ?_, ?_, ?_, ?_, ?_, ?_, ?_, ?_, ?_, ?_, ?_, ?_, ?_, ?_, ?_, ?_, ?_, ?_, ?_, ?_, ?_, ?_, ?_, ?_, ?_, ?_, ?_, ?_, ?_, ?_⟩ <;> exact Meets.of (by decide +kernel)

/-- R263: every reason, with the fields at their limits, and records that have none. -/
theorem test_meets_shape_reasons : shapeReason 0x3FF80FFE0010000000011F000000000000000 1 [1, 2, 3, 4, 5, 8] false = 0
      ∧ shapeReason 0x800020000100000012F000000000000000 1 [1, 2, 3, 4, 5, 8] false = 1 ∧ shapeReason 0x800020000100000071F000000000000000 1 [1, 2, 3, 4, 5, 8] false = 2
      ∧ shapeReason 0x800020000000000011F000000000000000 1 [1, 2, 3, 4, 5, 8] false = 3 ∧ shapeReason 0x800020010100000011F000000000000000 1 [1, 2, 3, 4, 5, 8] false = 3
      ∧ shapeReason 0x800000000100000011F000000000000000 1 [1, 2, 3, 4, 5, 8] false = 3 ∧ shapeReason 0x1000030000100000011F000000000000000 1 [1, 2, 3, 4, 5, 8] false = 3
      ∧ shapeReason 0x100000FFFF000100000011F000000000000000 1 [1, 2, 3, 4, 5, 8] false = 3
      ∧ shapeReason 0x800020000100000011F000000000000002 1 [1, 2, 3, 4, 5, 8] false = 4 ∧ shapeReason 0x7C0020000100000011F000000000000000 1 [1, 2, 3, 4, 5, 8] false = 4
      ∧ shapeReason 0x800020000100004011F000000000000000 1 [1, 2, 3, 4, 5, 8] false = 5
      ∧ shapeReason 0x1000000800020000100000011F000000000000000 1 [1, 2, 3, 4, 5, 8] false = 5
      ∧ shapeReason 0x800020000100000811F000000000000000 1 [1, 2, 3, 4, 5, 8] false = 6 ∧ shapeReason 0x800020000100000111F000000000000000 1 [1, 2, 3, 4, 5, 8] false = 6
    ∧ shapeReason 0x200020000100000372F000000000000000 2 [7] false = 0 ∧ shapeReason 0x100020000100000372F000000000000000 2 [7] false = 4
      ∧ shapeReason 0x4000100000100000013F000000000000000 3 [1, 9] true = 0 ∧ shapeReason 0x4040101000100000013F000000000000000 3 [1, 9] true = 3
      ∧ shapeReason 0x40001000100010093F000000000000000 3 [9] true = 6 :=
  by decide +kernel

/-! Palette arithmetic and work (R99 to R110, R258 to R282). -/

theorem test_meets_palette_blocks : (∃ n m e, (shapeFmt 1).dec 0x3F800000 = .fin n m e ∧ m ≠ 0) ∧ (∀ n m e, (shapeFmt 1).dec 0x7F800000 ≠ .fin n m e)
      ∧ (∀ n m e, (shapeFmt 1).dec 0 = .fin n m e → m = 0)
    ∧ (∃ n m e, fmtF32.dec 0x3F800000 = .fin n m e) ∧ fmtF32.dec 0xFF800000 = .inf true ∧ (∃ q, fmtF32.dec 0x7FC00000 = .nan q) ∧ (5 : Int) ≠ 0 ∧ (7 : Nat) < 8
      ∧ (15 : Nat) < 16 ∧ (255 : Nat) < 256 :=
  ⟨⟨_, _, _, rfl, by decide⟩, fun n m e h => by simp [show (shapeFmt 1).dec 0x7F800000 = .inf false from rfl] at h,
    fun n m e h => by have : (shapeFmt 1).dec 0 = .fin false 0 (-149) := rfl; rw [this] at h; simp at h; exact h.2.1.symm,
    ⟨_, _, _, rfl⟩, rfl, ⟨_, rfl⟩, by decide, by decide, by decide, by decide⟩

theorem test_meets_slab : let t : Tile := { emptyTile with elems := [(0, 0x3F800000)] }
    let good : PalRow := ⟨0, false, false, List.replicate 128 1⟩
    let bad : PalRow := ⟨0, true, false, []⟩
    let rows := [good, bad]
    rows[0]? = some good ∧ rows[1]? = some bad ∧ bad.nonFinite = true ∧ lookupSum good.t [1] 1 ≠ 0
      ∧ (∀ r < 4, t.rowXor r = tget 0 ({ t with xc := (List.range 4).map (fun r => (r, t.rowXor r)) } : Tile).xc r) :=
  by decide +kernel

/-- R258 to R282: an operation of each kind that may be performed; one whose version is not there; one whose time is not over. -/
theorem test_meets_palette_work :
    At (benchOf 0x3000000000000000 id (fun (g : Group) => { g with palOps := [{ (⟨9, 0, 0, 0, .zero 3 0 65 true, [], false, [], 0⟩ : PalOp) with dirty := false }] }) id) (fun g w u => g.ended = false ∧ w.idx = 0 ∧ u.lanes ≠ 0 ∧ g.palOps.find? (fun o => o.id == 9) = g.palOps.head? ∧ g.palOps.all (fun o => g.palReady o && !State.opStalls (benchOf 0x3000000000000000 id (fun (g : Group) => { g with palOps := [{ (⟨9, 0, 0, 0, .zero 3 0 65 true, [], false, [], 0⟩ : PalOp) with dirty := false }] }) id) o) = true)
    ∧ At (benchOf 0x3000000000000000 id (fun (g : Group) => { g with palOps := [{ (⟨9, 0, 0, 0, .read 0 (some 0) 258 32 4 1, [], false, [], 0⟩ : PalOp) with dirty := false }] }) id) (fun g w u => g.ended = false ∧ w.idx = 0 ∧ u.lanes ≠ 0 ∧ g.palOps.find? (fun o => o.id == 9) = g.palOps.head? ∧ g.palOps.all (fun o => g.palReady o && !State.opStalls (benchOf 0x3000000000000000 id (fun (g : Group) => { g with palOps := [{ (⟨9, 0, 0, 0, .read 0 (some 0) 258 32 4 1, [], false, [], 0⟩ : PalOp) with dirty := false }] }) id) o) = true)
    ∧ At (benchOf 0x3000000000000000 id (fun (g : Group) => { g with palOps := [{ (⟨9, 0, 0, 0, .inv 2, [], false, [], 0⟩ : PalOp) with dirty := false }] }) id) (fun g w u => g.ended = false ∧ w.idx = 0 ∧ u.lanes ≠ 0 ∧ g.palOps.find? (fun o => o.id == 9) = g.palOps.head? ∧ g.palOps.all (fun o => g.palReady o && !State.opStalls (benchOf 0x3000000000000000 id (fun (g : Group) => { g with palOps := [{ (⟨9, 0, 0, 0, .inv 2, [], false, [], 0⟩ : PalOp) with dirty := false }] }) id) o) = true)
    ∧ At (benchOf 0x3000000000000000 id (fun (g : Group) => { g with palOps := [{ (⟨9, 0, 0, 0, .build 3 0x1000040000200000011F000000000000000 1 1, [[(.scr 2 128, 128)], [(.scr 2 384, 128)]], false, [], 0⟩ : PalOp) with dirty := false }] }) id) (fun g w u => g.ended = false ∧ w.idx = 0 ∧ u.lanes ≠ 0 ∧ g.palOps.find? (fun o => o.id == 9) = g.palOps.head? ∧ g.palOps.all (fun o => g.palReady o && !State.opStalls (benchOf 0x3000000000000000 id (fun (g : Group) => { g with palOps := [{ (⟨9, 0, 0, 0, .build 3 0x1000040000200000011F000000000000000 1 1, [[(.scr 2 128, 128)], [(.scr 2 384, 128)]], false, [], 0⟩ : PalOp) with dirty := false }] }) id) o) = true)
    ∧ At (benchOf 0x3000000000000000 id (fun (g : Group) => { g with palOps := [{ (⟨9, 0, 0, 0, .look 1 0 0 0x400040000200000172F000000000000000 1 0 2 false false, [[(.scr 2 0, 64)], [(.scr 2 64, 64)]], false, [], 0⟩ : PalOp) with dirty := false }], pals := [(1, { emptyPal with has := true, valid := true, desc := some ⟨0, 4, 2, 1, false, 0, 1⟩, rows := List.replicate 2 ⟨0, false, false, List.replicate 128 1⟩, u := [List.replicate 128 2] })] }) id) (fun g w u => g.ended = false ∧ w.idx = 0 ∧ u.lanes ≠ 0 ∧ g.palOps.find? (fun o => o.id == 9) = g.palOps.head? ∧ g.palOps.all (fun o => g.palReady o && !State.opStalls (benchOf 0x3000000000000000 id (fun (g : Group) => { g with palOps := [{ (⟨9, 0, 0, 0, .look 1 0 0 0x400040000200000172F000000000000000 1 0 2 false false, [[(.scr 2 0, 64)], [(.scr 2 64, 64)]], false, [], 0⟩ : PalOp) with dirty := false }], pals := [(1, { emptyPal with has := true, valid := true, desc := some ⟨0, 4, 2, 1, false, 0, 1⟩, rows := List.replicate 2 ⟨0, false, false, List.replicate 128 1⟩, u := [List.replicate 128 2] })] }) id) o) = true)
    ∧ At (benchOf 0x3000000000000000 id (fun (g : Group) => { g with palOps := [{ (⟨9, 0, 0, 0, .load 0 0 0x4000004000100000093F000000000000000, [[(.scr 2 0, 16)]], false, [], 0⟩ : PalOp) with dirty := false }] }) id) (fun g w u => g.ended = false ∧ w.idx = 0 ∧ u.lanes ≠ 0 ∧ g.palOps.find? (fun o => o.id == 9) = g.palOps.head? ∧ g.palOps.all (fun o => g.palReady o && !State.opStalls (benchOf 0x3000000000000000 id (fun (g : Group) => { g with palOps := [{ (⟨9, 0, 0, 0, .load 0 0 0x4000004000100000093F000000000000000, [[(.scr 2 0, 16)]], false, [], 0⟩ : PalOp) with dirty := false }] }) id) o) = true)
    ∧ At (benchOf 0x3000000000000000 id (fun (g : Group) => { g with palOps := [{ (⟨9, 0, 0, 0, .drain 0 0 0x4000004000100000013F000000000000000 true 5, [[(.scr 2 0, 16)]], false, [], 0⟩ : PalOp) with dirty := false }] }) id) (fun g w u => g.ended = false ∧ w.idx = 0 ∧ u.lanes ≠ 0 ∧ g.palOps.find? (fun o => o.id == 9) = g.palOps.head? ∧ g.palOps.all (fun o => g.palReady o && !State.opStalls (benchOf 0x3000000000000000 id (fun (g : Group) => { g with palOps := [{ (⟨9, 0, 0, 0, .drain 0 0 0x4000004000100000013F000000000000000 true 5, [[(.scr 2 0, 16)]], false, [], 0⟩ : PalOp) with dirty := false }] }) id) o) = true)
    ∧ At (benchOf 0x3000000000000000 id (fun (g : Group) => { g with palOps := [{ (⟨9, 0, 0, 0, .spill 1 0xF000000000000000, [[(.scr 2 0, 1088)]], false, [], 0⟩ : PalOp) with dirty := false }] }) id) (fun g w u => g.ended = false ∧ w.idx = 0 ∧ u.lanes ≠ 0 ∧ g.palOps.find? (fun o => o.id == 9) = g.palOps.head? ∧ g.palOps.all (fun o => g.palReady o && !State.opStalls (benchOf 0x3000000000000000 id (fun (g : Group) => { g with palOps := [{ (⟨9, 0, 0, 0, .spill 1 0xF000000000000000, [[(.scr 2 0, 1088)]], false, [], 0⟩ : PalOp) with dirty := false }] }) id) o) = true)
    ∧ At (benchOf 0x3000000000000000 id (fun (g : Group) => { g with palOps := [{ (⟨9, 0, 0, 0, .fill 1 0xF000000000000000 0x101000000000000000000000000, [[(.scr 2 0, 1088)]], false, [], 0⟩ : PalOp) with dirty := false }] }) id) (fun g w u => g.ended = false ∧ w.idx = 0 ∧ u.lanes ≠ 0 ∧ g.palOps.find? (fun o => o.id == 9) = g.palOps.head? ∧ g.palOps.all (fun o => g.palReady o && !State.opStalls (benchOf 0x3000000000000000 id (fun (g : Group) => { g with palOps := [{ (⟨9, 0, 0, 0, .fill 1 0xF000000000000000 0x101000000000000000000000000, [[(.scr 2 0, 1088)]], false, [], 0⟩ : PalOp) with dirty := false }] }) id) o) = true)
    ∧ At (benchOf 0x3000000000000000 id (fun (g : Group) => { g with palOps := [{ (⟨9, 0, 0, 0, .zero 3 1 65 true, [], false, [], 0⟩ : PalOp) with dirty := false }] }) id) (fun g w u => u.id = u.id ∧ w.idx = 0 ∧ g.palOps.all (fun o => !g.palReady o) = true)
    ∧ At (benchOf 0x3000000000000000 id (fun (g : Group) => { g with palOps := [{ (⟨9, 0, 0, 0, .zero 3 0 65 true, [], false, [], 0⟩ : PalOp) with dirty := false, due := 5 }] }) id) (fun g w u => w.idx = 0 ∧ u.id = u.id ∧ g.palOps.all (fun o => State.opStalls (benchOf 0x3000000000000000 id (fun (g : Group) => { g with palOps := [{ (⟨9, 0, 0, 0, .zero 3 0 65 true, [], false, [], 0⟩ : PalOp) with dirty := false, due := 5 }] }) id) o) = true) :=
  by refine ⟨?_, ?_, ?_, ?_, ?_, ?_, ?_, ?_, ?_, ?_, ?_⟩ <;> exact At.of (by decide +kernel)

theorem test_meets_copy_install :
    At (benchOf 0x3000000000000000 id (fun (g : Group) => { g with palOps := [{ (⟨9, 0, 0, 0, .copy 1 { emptyPal with has := true, valid := true } 77 5, [], false, [], 0⟩ : PalOp) with dirty := false }] }) id) (fun g w u => u.id = u.id ∧ w.idx = 0 ∧ g.id ≠ 77 ∧ g.palOps.all (fun o => g.copyReady o) = true)
    ∧ At (benchOf 0x3000000000000000 id (fun (g : Group) => { g with palOps := [⟨8, 0, 0, 0, .spill 1 0, [], false, [], 0⟩, { (⟨9, 0, 0, 0, .copy 1 { emptyPal with has := true, valid := true } 77 5, [], false, [], 0⟩ : PalOp) with dirty := false }] }) id) (fun g w u => u.id = u.id ∧ w.idx = 0 ∧ g.palOps.all (fun o => o.id != 9 || !g.copyReady o) = true) :=
  by refine ⟨?_, ?_⟩ <;> exact At.of (by decide +kernel)

/-- R257: an AZERO before the version that a later word names. -/
theorem test_meets_tile_types : let o : PalOp := ⟨9, 0, 0, 0, .zero 3 0 65 true, [], false, [], 0⟩
    let g : Group := { State.reset.benchGroup (State.reset.newGrid benchPkt 0 0 none 0 0 0 .placing) 0 with palOps := [o] }
    g.palOps[0]? = some o ∧ o.kind.setsTy = some true ∧ o.kind.ver = some 0 ∧ 3 ∈ o.kind.tiles ∧ (0 - (g.tile 3).ver).toNat = 0 ∧ ((1 : BitVec 16) - (g.tile 3).ver).toNat = 1 :=
  by decide +kernel

/-! ## Hypotheses met: system forms and the events of issue (R22 to R40, R120 to R128, R290 to R310) -/

theorem test_meets_csr_reads :
    Meets (bench 0xE4C00C0000000000) (.csrrd ⟨⟨0, false⟩, 3, .v 0, 0, 0, false⟩) (fun _ r => r.act ≠ 0 ∧ r.i.w.rieCause < 32)
    ∧ Meets (bench 0xE4C00C0000100000) (.csrrd ⟨⟨0, false⟩, 3, .v 0, 1, 0, false⟩) (fun _ r => r.act ≠ 0 ∧ r.i.w.rieCause < 32)
    ∧ Meets (bench 0xE4C00C0001000000) (.csrrd ⟨⟨0, false⟩, 3, .v 0, 16, 0, false⟩) (fun _ r => r.act ≠ 0 ∧ r.i.w.rieCause < 32)
    ∧ Meets (bench 0xE4C00C0001100000) (.csrrd ⟨⟨0, false⟩, 3, .v 0, 17, 0, false⟩) (fun _ r => r.act ≠ 0 ∧ r.i.w.rieCause < 32)
    ∧ Meets (bench 0xE4C00C0001200000) (.csrrd ⟨⟨0, false⟩, 3, .v 0, 18, 0, false⟩) (fun _ r => r.act ≠ 0 ∧ r.i.w.rieCause < 32)
    ∧ Meets (bench 0xE4C00C0001300000) (.csrrd ⟨⟨0, false⟩, 3, .v 0, 19, 0, false⟩) (fun _ r => r.act ≠ 0 ∧ r.i.w.rieCause < 32)
    ∧ Meets (bench 0xE4C00C0001400000) (.csrrd ⟨⟨0, false⟩, 3, .v 0, 20, 0, false⟩) (fun _ r => r.act ≠ 0 ∧ r.i.w.rieCause < 32)
    ∧ Meets (bench 0xE4C00C0001500000) (.csrrd ⟨⟨0, false⟩, 3, .v 0, 21, 0, false⟩) (fun _ r => r.act ≠ 0 ∧ r.i.w.rieCause < 32)
    ∧ Meets (bench 0xE4C00C0001600000) (.csrrd ⟨⟨0, false⟩, 3, .v 0, 22, 0, false⟩) (fun _ r => r.act ≠ 0 ∧ r.i.w.rieCause < 32)
    ∧ Meets (bench 0xE4C00C0001700000) (.csrrd ⟨⟨0, false⟩, 3, .v 0, 23, 0, false⟩) (fun _ r => r.act ≠ 0 ∧ r.i.w.rieCause < 32)
    ∧ Meets (bench 0xE4C00C0001800000) (.csrrd ⟨⟨0, false⟩, 3, .v 0, 24, 0, false⟩) (fun _ r => r.act ≠ 0 ∧ r.i.w.rieCause < 32)
    ∧ Meets (bench 0xE4C00C0001900000) (.csrrd ⟨⟨0, false⟩, 3, .v 0, 25, 0, false⟩) (fun _ r => r.act ≠ 0 ∧ r.i.w.rieCause < 32)
    ∧ Meets (bench 0xE4C00C0002000000) (.csrrd ⟨⟨0, false⟩, 3, .v 0, 32, 0, false⟩) (fun _ r => r.act ≠ 0 ∧ r.i.w.rieCause < 32)
    ∧ Meets (bench 0xE4C00C0002100000) (.csrrd ⟨⟨0, false⟩, 3, .v 0, 33, 0, false⟩) (fun _ r => r.act ≠ 0 ∧ r.i.w.rieCause < 32)
    ∧ Meets (bench 0xE4C00C0003000000) (.csrrd ⟨⟨0, false⟩, 3, .v 0, 48, 0, false⟩) (fun _ r => r.act ≠ 0 ∧ r.i.w.rieCause < 32)
    ∧ Meets (bench 0xE4C00C0003100000) (.csrrd ⟨⟨0, false⟩, 3, .v 0, 49, 0, false⟩) (fun s r => r.act ≠ 0 ∧ r.i.w.rieCause < 32 ∧ s.clock r.i.g.core < 16)
    ∧ Meets (bench 0xE4C00C0003200000) (.csrrd ⟨⟨0, false⟩, 3, .v 0, 50, 0, false⟩) (fun _ r => r.act ≠ 0 ∧ r.i.w.rieCause < 32)
    ∧ Meets (bench 0xE4C00C0003300000) (.csrrd ⟨⟨0, false⟩, 3, .v 0, 51, 0, false⟩) (fun _ r => r.act ≠ 0 ∧ r.i.w.rieCause < 32)
    ∧ Meets (bench 0xE4C00C0003400000) (.csrrd ⟨⟨0, false⟩, 3, .v 0, 52, 0, false⟩) (fun _ r => r.act ≠ 0 ∧ r.i.w.rieCause < 32) :=
  by refine ⟨?_, ?_, ?_, ?_, ?_, ?_, ?_, ?_, ?_, ?_, ?_, ?_, ?_, ?_, ?_, ?_, ?_, ?_, ?_⟩ <;> exact Meets.of (by decide +kernel)

theorem test_meets_csr_writes :
    Meets (bench 0xE5C0010300000000) (.csrwr ⟨⟨0, false⟩, 0, .s 3, 0, 0, false⟩) (fun _ r => r.act ≠ 0)
    ∧ Meets (bench 0xE5C0010300100000) (.csrwr ⟨⟨0, false⟩, 0, .s 3, 1, 0, false⟩) (fun _ r => r.act ≠ 0)
    ∧ Meets (bench 0xE5C0010301000000) (.csrwr ⟨⟨0, false⟩, 0, .s 3, 16, 0, false⟩) (fun _ r => r.act ≠ 0)
    ∧ Meets (bench 0xE5C0010301100000) (.csrwr ⟨⟨0, false⟩, 0, .s 3, 17, 0, false⟩) (fun _ r => r.act ≠ 0)
    ∧ Meets (bench 0xE5C0010301300000) (.csrwr ⟨⟨0, false⟩, 0, .s 3, 19, 0, false⟩) (fun _ r => r.act ≠ 0)
    ∧ Meets (bench 0xE5C0010301400000) (.csrwr ⟨⟨0, false⟩, 0, .s 3, 20, 0, false⟩) (fun _ r => r.act ≠ 0)
    ∧ Meets (bench 0xE5C0010303300000) (.csrwr ⟨⟨0, false⟩, 0, .s 3, 51, 0, false⟩) (fun _ r => r.act ≠ 0)
    ∧ Meets (bench 0xE5C8010300000000) (.csrwr ⟨⟨1, false⟩, 0, .s 3, 0, 0, false⟩) (fun _ r => r.act = 0)
    ∧ Meets (onWarp 0xE5C0010303000000 (fun w => w.writeS 3 4)) (.csrwr ⟨⟨0, false⟩, 0, .s 3, 48, 0, false⟩) (fun _ r => ((r.a r.low).extractLsb' 0 32 : Word).extractLsb' 0 2 = 0 ∧ ∀ w ∈ r.i.g.warps, w.acq = false)
    ∧ Meets (onWarp 0xE5C0010303000000 (fun w => w.writeS 3 5)) (.csrwr ⟨⟨0, false⟩, 0, .s 3, 48, 0, false⟩) (fun _ r => ((r.a r.low).extractLsb' 0 32 : Word).extractLsb' 0 2 = 1 ∧ ∀ w ∈ r.i.g.warps, w.acq = false)
    ∧ Meets (onWarp 0xE5C0010303000000 (fun w => w.writeS 3 6)) (.csrwr ⟨⟨0, false⟩, 0, .s 3, 48, 0, false⟩) (fun _ r => ((r.a r.low).extractLsb' 0 32 : Word).extractLsb' 0 2 = 2 ∧ ∀ w ∈ r.i.g.warps, w.acq = false)
    ∧ Meets (onWarp 0xE5C0010303000000 (fun w => w.writeS 3 7)) (.csrwr ⟨⟨0, false⟩, 0, .s 3, 48, 0, false⟩) (fun _ r => ((r.a r.low).extractLsb' 0 32 : Word).extractLsb' 0 2 = 3 ∧ ∀ w ∈ r.i.g.warps, w.acq = false) :=
  by refine ⟨?_, ?_, ?_, ?_, ?_, ?_, ?_, ?_, ?_, ?_, ?_, ?_⟩ <;> exact Meets.of (by decide +kernel)

/-- R302: keys 31 and 32, bits 3 and 4. -/
theorem test_meets_keys :
    Meets (bench 0xE608010280C00000) (.pkrwr ⟨⟨1, false⟩, 0, .s 2, .r (.imm 3) (.v 0) .i32 0⟩) (fun _ r => r.act = 0)
    ∧ Meets (onWarp 0xE600010280C00000 (fun w => w.writeS 2 31)) (.pkrwr ⟨⟨0, false⟩, 0, .s 2, .r (.imm 3) (.v 0) .i32 0⟩) (fun _ r => (low32 (r.a r.low)) = 31
      ∧ (low32 (r.b r.low)) = 3)
    ∧ Meets (onWarp 0xE600010280C00000 (fun w => w.writeS 2 32)) (.pkrwr ⟨⟨0, false⟩, 0, .s 2, .r (.imm 3) (.v 0) .i32 0⟩) (fun _ r => (low32 (r.a r.low)) = 32
      ∧ (low32 (r.b r.low)) = 3)
    ∧ Meets (onWarp 0xE600010281000000 (fun w => w.writeS 2 31)) (.pkrwr ⟨⟨0, false⟩, 0, .s 2, .r (.imm 4) (.v 0) .i32 0⟩) (fun _ r => (low32 (r.a r.low)) = 31
      ∧ (low32 (r.b r.low)) = 4)
    ∧ Meets (onWarp 0xE600010280000000 (fun w => w.writeS 2 0)) (.pkrwr ⟨⟨0, false⟩, 0, .s 2, .r (.imm 0) (.v 0) .i32 0⟩) (fun _ r => (low32 (r.a r.low)) = 0
      ∧ (low32 (r.b r.low)) = 0)
    ∧ Meets (bench 0xE700180000000000) (.tstamp ⟨⟨0, false⟩, 6, .v 0, .r (.v 0) (.v 0) .i32 0⟩) (fun _ r => r.act ≠ 0)
    ∧ Meets (bench 0xE8C020000000B000) (.perfrd ⟨⟨0, false⟩, 8, .v 0, 11, 0, false⟩) (fun _ r => r.act ≠ 0)
    ∧ Meets (bench 0xE8C0200000000000) (.perfrd ⟨⟨0, false⟩, 8, .v 0, 0, 0, false⟩) (fun _ r => r.act ≠ 0) :=
  by refine ⟨?_, ?_, ?_, ?_, ?_, ?_, ?_, ?_⟩ <;> exact Meets.of (by decide +kernel)

/-- R22, R290, R291: numbers that are no multiple of 8, the least, the most that leaves 8 registers, and one more; an AREAD whose register stays and one whose register would go; pools of exactly n and of one less. -/
theorem test_meets_allotments :
    Meets (bench 0xE108010800000000) (.give ⟨⟨1, false⟩, 0, .s 8, .r (.v 0) (.v 0) .i32 0⟩) (fun _ r => r.act = 0)
    ∧ Meets (onWarp 0xE100010800000000 (fun w => w.writeS 8 0)) (.give ⟨⟨0, false⟩, 0, .s 8, .r (.v 0) (.v 0) .i32 0⟩) (fun _ r => (low32 (r.a r.low)) = 0
      ∧ r.i.w.av = 256 ∧ ∀ d ∈ r.i.pendingV, d < 8)
    ∧ Meets (onWarp 0xE100010800000000 (fun w => w.writeS 8 4)) (.give ⟨⟨0, false⟩, 0, .s 8, .r (.v 0) (.v 0) .i32 0⟩) (fun _ r => (low32 (r.a r.low)) = 4
      ∧ r.i.w.av = 256 ∧ ∀ d ∈ r.i.pendingV, d < 8)
    ∧ Meets (onWarp 0xE100010800000000 (fun w => w.writeS 8 8)) (.give ⟨⟨0, false⟩, 0, .s 8, .r (.v 0) (.v 0) .i32 0⟩) (fun _ r => (low32 (r.a r.low)) = 8
      ∧ r.i.w.av = 256 ∧ ∀ d ∈ r.i.pendingV, d < 8)
    ∧ Meets (onWarp 0xE100010800000000 (fun w => w.writeS 8 248)) (.give ⟨⟨0, false⟩, 0, .s 8, .r (.v 0) (.v 0) .i32 0⟩) (fun _ r => (low32 (r.a r.low)) = 248
      ∧ r.i.w.av = 256 ∧ ∀ d ∈ r.i.pendingV, d < 8)
    ∧ Meets (onWarp 0xE100010800000000 (fun w => w.writeS 8 256)) (.give ⟨⟨0, false⟩, 0, .s 8, .r (.v 0) (.v 0) .i32 0⟩) (fun _ r => (low32 (r.a r.low)) = 256
      ∧ r.i.w.av = 256 ∧ ∀ d ∈ r.i.pendingV, d < 8)
    ∧ Meets (benchOf 0xE100010800000000 (fun (w : Warp) => w.writeS 8 8) (fun (g : Group) => { g with palOps := [⟨9, 0, 0, 0, .read 0 none 0 0 247 1, [], false, [], 0⟩] }) id) (.give ⟨⟨0, false⟩, 0, .s 8, .r (.v 0) (.v 0) .i32 0⟩) (fun _ r => (low32 (r.a r.low)) = 8 ∧ r.i.w.av = 256 ∧ 247 ∈ r.i.pendingV)
    ∧ Meets (bench 0xE208010800000000) (.claim ⟨⟨1, false⟩, 0, .s 8, .r (.v 0) (.v 0) .i32 0⟩) (fun _ r => r.act = 0)
    ∧ Meets (benchOf 0xE200010800000000 (fun (w : Warp) => { (w.writeS 8 0) with av := 240 }) (fun (g : Group) => { g with pool := 99, claims := [] }) id) (.claim ⟨⟨0, false⟩, 0, .s 8, .r (.v 0) (.v 0) .i32 0⟩) (fun _ r => (low32 (r.a r.low)) = 0 ∧ r.i.w.av = 240 ∧ r.i.g.pool = 99 ∧ r.i.g.claims = [])
    ∧ Meets (benchOf 0xE200010800000000 (fun (w : Warp) => { (w.writeS 8 12) with av := 240 }) (fun (g : Group) => { g with pool := 99, claims := [] }) id) (.claim ⟨⟨0, false⟩, 0, .s 8, .r (.v 0) (.v 0) .i32 0⟩) (fun _ r => (low32 (r.a r.low)) = 12 ∧ r.i.w.av = 240 ∧ r.i.g.pool = 99 ∧ r.i.g.claims = [])
    ∧ Meets (benchOf 0xE200010800000000 (fun (w : Warp) => { (w.writeS 8 16) with av := 240 }) (fun (g : Group) => { g with pool := 16, claims := [] }) id) (.claim ⟨⟨0, false⟩, 0, .s 8, .r (.v 0) (.v 0) .i32 0⟩) (fun _ r => (low32 (r.a r.low)) = 16 ∧ r.i.w.av = 240 ∧ r.i.g.pool = 16 ∧ r.i.g.claims = [])
    ∧ Meets (benchOf 0xE200010800000000 (fun (w : Warp) => { (w.writeS 8 24) with av := 240 }) (fun (g : Group) => { g with pool := 99, claims := [] }) id) (.claim ⟨⟨0, false⟩, 0, .s 8, .r (.v 0) (.v 0) .i32 0⟩) (fun _ r => (low32 (r.a r.low)) = 24 ∧ r.i.w.av = 240 ∧ r.i.g.pool = 99 ∧ r.i.g.claims = [])
    ∧ Meets (benchOf 0xE200010800000000 (fun (w : Warp) => { (w.writeS 8 16) with av := 240 }) (fun (g : Group) => { g with pool := 15, claims := [] }) id) (.claim ⟨⟨0, false⟩, 0, .s 8, .r (.v 0) (.v 0) .i32 0⟩) (fun _ r => (low32 (r.a r.low)) = 16 ∧ r.i.w.av = 240 ∧ r.i.g.pool = 15 ∧ r.i.g.claims = [])
    ∧ Meets (benchOf 0xE200010800000000 (fun (w : Warp) => { (w.writeS 8 8) with av := 240 }) (fun (g : Group) => { g with pool := 16, claims := [(0, 9, 8)] }) id) (.claim ⟨⟨0, false⟩, 0, .s 8, .r (.v 0) (.v 0) .i32 0⟩) (fun _ r => (low32 (r.a r.low)) = 8 ∧ r.i.w.av = 240 ∧ r.i.g.pool = 16 ∧ r.i.g.claims = [(0, 9, 8)]) :=
  by refine ⟨?_, ?_, ?_, ?_, ?_, ?_, ?_, ?_, ?_, ?_, ?_, ?_, ?_, ?_⟩ <;> exact Meets.of (by decide +kernel)

/-- R259, R290: a GIVE whose last register an AREAD has still to write. -/
theorem test_meets_give_behind :
    Issuing (benchOf 0xE100010800000000 (fun (w : Warp) => w.writeS 8 8) (fun (g : Group) => { g with palOps := [⟨9, 0, 0, 0, .read 0 none 0 0 248 1, [], false, [], 0⟩] }) id) (fun i => 248 ∈ i.pendingV ∧ i.w.av = 256 ∧ ((i.operand (benchOf 0xE100010800000000 (fun (w : Warp) => w.writeS 8 8) (fun (g : Group) => { g with palOps := [⟨9, 0, 0, 0, .read 0 none 0 0 248 1, [], false, [], 0⟩] }) id) (.rk 0xE1 ⟨⟨0, false⟩, 0, .s 8, .r (.v 0) (.v 0) .i32 0⟩) 0 (lowLane i.u.lanes)).extractLsb' 0 32).toNat = 8) :=
  Issuing.of (by decide +kernel)

theorem test_meets_claims : let g : Group := { State.reset.benchGroup (State.reset.newGrid benchPkt 0 0 none 0 0 0 .placing) 0 with claims := [(0, 1, 16)] }
    ({ g with pool := 16 } : Group).claims = (0, 1, 16) :: [] ∧ 16 ≤ ({ g with pool := 16 } : Group).pool ∧ ({ g with pool := 15 } : Group).pool < 16 :=
  by decide +kernel

theorem test_meets_claim_deadlock :
    At (idleOf 0 (fun w => onSubs (fun u => { u with st := .claim 16 5 }) { w with tvec := 0x10000 }) (fun g => { g with claims := [(0, (g.warps.headD default).subs.headD default |>.id, 16)] }) id) (fun g w u => w.live ≠ 0 ∧ w.inh = false ∧ w.stopped = false ∧ u.pend = none ∧ u.st = .claim 16 5 ∧ g.claims = [] ++ (w.idx, u.id, 16) :: [] ∧ g.warps.length = 1 ∧ w.tvec ≠ 0 ∧ trapReady g w = true)
    ∧ At (idleOf 0 id id id) (fun g w u => w.live ≠ 0 ∧ g.claims = [] ∧ u.st = .ready) :=
  by refine ⟨?_, ?_⟩ <;> exact At.of (by decide +kernel)

/-- R307 to R309: a line at the end of a page; a page without memory, of this package under both biases, and of the host. -/
theorem test_meets_code_and_bias :
    Meets (bench 0xEAC0000000000000) (.icinv ⟨⟨0, false⟩, 0, .v 0, 0, 0, false⟩) (fun _ r => r.act ≠ 0)
    ∧ Meets (bench 0xEAC8000000000000) (.icinv ⟨⟨1, false⟩, 0, .v 0, 0, 0, false⟩) (fun _ r => r.act = 0)
    ∧ Meets (onWarp 0xEAC0010200000000 (fun w => sPair 2 0x100000000000000 w)) (.icinv ⟨⟨0, false⟩, 0, .s 2, 0, 0, false⟩) (fun _ r => 2 ^ 56 ≤ (r.a r.low).toNat)
    ∧ Meets (onWarp 0xEAC0010200000000 (fun w => sPair 2 0x10FFF w)) (.icinv ⟨⟨0, false⟩, 0, .s 2, 0, 0, false⟩) (fun s r => (r.a r.low).toNat < 2 ^ 56
      ∧ (match s.tlb.find? (fun e => e.covers (r.i.mmu s) (r.a r.low).toNat) with
        | some e => (match s.leafCheck (r.i.mmu s) wantAny (r.a r.low).toNat e.leaf e.level e.pteAt with | .ok _ => !staleAd e.leaf false && true | .prot => false | _ => false)
        | none => false) = true)
    ∧ Meets (benchOf 0xEAC0010200000000 (fun (w : Warp) => sPair 2 0x10000 w) id (fun (s : State) => { s with tlb := [⟨0, 0, 0, 16, 0x200000000000007D, 3⟩] })) (.icinv ⟨⟨0, false⟩, 0, .s 2, 0, 0, false⟩) (fun s r => (match s.tlb.find? (fun e => e.covers (r.i.mmu s) (r.a r.low).toNat) with
        | some e => (match s.leafCheck (r.i.mmu s) wantAny (r.a r.low).toNat e.leaf e.level e.pteAt with | .ok _ => !staleAd e.leaf false && false | .prot => true | _ => false)
        | none => false) = true)
    ∧ Meets (bench 0xEBC8010200000001) (.bias ⟨⟨1, false⟩, 0, .s 2, 0, 0, true⟩) (fun _ r => r.act = 0)
    ∧ Meets (onWarp 0xEBC0010200000001 (fun w => sPair 2 0x100000000000000 w)) (.bias ⟨⟨0, false⟩, 0, .s 2, 0, 0, true⟩) (fun _ r => 2 ^ 56 ≤ (r.a r.low).toNat)
    ∧ Meets (onWarp 0xEBC0010200000001 (fun w => sPair 2 0x10800 w)) (.bias ⟨⟨0, false⟩, 0, .s 2, 0, 0, true⟩) (fun _ r => (r.a r.low).toNat < 2 ^ 56
      ∧ (r.a r.low).toNat % 4096 = 2048)
    ∧ Meets (onWarp 0xEBC0010200000001 (fun w => sPair 2 0x10000 w)) (.bias ⟨⟨0, false⟩, 0, .s 2, 0, 0, true⟩) (fun s r => (match hitOf s r.i wantAny ⟨r.low, (r.a r.low).toNat, 4096⟩ with
        | some q => q.parts.all (fun p => s.inFlip p == none) && q.xs.all (fun x => isOwn x.pa == true && thas s.bias (x.pa / 4096) == false)
        | none => false) = true)
    ∧ Meets (onWarp 0xEBC0010200000000 (fun w => sPair 2 0x10000 w)) (.bias ⟨⟨0, false⟩, 0, .s 2, 0, 0, false⟩) (fun s r => (match hitOf s r.i wantAny ⟨r.low, (r.a r.low).toNat, 4096⟩ with
        | some q => q.parts.all (fun p => s.inFlip p == none) && q.xs.all (fun x => isOwn x.pa == true && thas s.bias (x.pa / 4096) == false)
        | none => false) = true)
    ∧ Meets (benchOf 0xEBC0010200000001 (fun (w : Warp) => sPair 2 0x10000 w) id (fun (s : State) => { s with bias := [(16, ())] })) (.bias ⟨⟨0, false⟩, 0, .s 2, 0, 0, true⟩) (fun s r => (match hitOf s r.i wantAny ⟨r.low, (r.a r.low).toNat, 4096⟩ with
        | some q => q.parts.all (fun p => s.inFlip p == none) && q.xs.all (fun x => isOwn x.pa == true && thas s.bias (x.pa / 4096) == true)
        | none => false) = true)
    ∧ Meets (benchOf 0xEBC0010200000001 (fun (w : Warp) => sPair 2 0x10000 w) id (fun (s : State) => { s with tlb := [⟨0, 0, 0, 16, 0x100000001000007D, 3⟩] })) (.bias ⟨⟨0, false⟩, 0, .s 2, 0, 0, true⟩) (fun s r => (match hitOf s r.i wantAny ⟨r.low, (r.a r.low).toNat, 4096⟩ with
        | some q => q.parts.all (fun p => s.inFlip p == none) && q.xs.all (fun x => isOwn x.pa == false && thas s.bias (x.pa / 4096) == false)
        | none => false) = true)
    ∧ Meets (bench 0xEC00000000000000) (.halt ⟨⟨0, false⟩, 0, .v 0, .r (.v 0) (.v 0) .i32 0⟩) (fun _ r => r.act ≠ 0)
    ∧ Meets (bench 0xEC08000000000000) (.halt ⟨⟨1, false⟩, 0, .v 0, .r (.v 0) (.v 0) .i32 0⟩) (fun _ r => r.act = 0) :=
  by refine ⟨?_, ?_, ?_, ?_, ?_, ?_, ?_, ?_, ?_, ?_, ?_, ?_, ?_, ?_⟩ <;> exact Meets.of (by decide +kernel)

/-- R121, R122, R307, R377: a cached word, one in memory, a page without X; a clause and a word that is no header. -/
theorem test_meets_fetches :
    At (idleOf 0x3A00000000000000 id id (fun s => { s with icache := [(0x10000, BitVec.ofNat 64 (benchHeader 0x3A00000000000000)), (0x10008, 0x3A00000000000000)] })) (fun g w u => u.id = u.id ∧ w.idx = 0 ∧ (match (idleOf 0x3A00000000000000 id id (fun s => { s with icache := [(0x10000, BitVec.ofNat 64 (benchHeader 0x3A00000000000000)), (0x10008, 0x3A00000000000000)] })).tlb.find? (fun e => e.covers ((idleOf 0x3A00000000000000 id id (fun s => { s with icache := [(0x10000, BitVec.ofNat 64 (benchHeader 0x3A00000000000000)), (0x10008, 0x3A00000000000000)] })).mmuOf g) 0x10000) with
        | some e => (match (idleOf 0x3A00000000000000 id id (fun s => { s with icache := [(0x10000, BitVec.ofNat 64 (benchHeader 0x3A00000000000000)), (0x10008, 0x3A00000000000000)] })).leafCheck ((idleOf 0x3A00000000000000 id id (fun s => { s with icache := [(0x10000, BitVec.ofNat 64 (benchHeader 0x3A00000000000000)), (0x10008, 0x3A00000000000000)] })).mmuOf g) wantFetch 0x10000 e.leaf e.level e.pteAt with | .ok x => !staleAd e.leaf false && (idleOf 0x3A00000000000000 id id (fun s => { s with icache := [(0x10000, BitVec.ofNat 64 (benchHeader 0x3A00000000000000)), (0x10008, 0x3A00000000000000)] })).inFlip (.phys x.pa false, 8) == none && (tfind (idleOf 0x3A00000000000000 id id (fun s => { s with icache := [(0x10000, BitVec.ofNat 64 (benchHeader 0x3A00000000000000)), (0x10008, 0x3A00000000000000)] })).icache (g.core * 2 ^ 64 + x.pa)).isSome | .prot => false | _ => false)
        | none => false) = true)
    ∧ At (idleOf 0x3A00000000000000 id id id) (fun g w u => u.id = u.id ∧ w.idx = 0 ∧ (idleOf 0x3A00000000000000 id id id).redbuf = []
      ∧ (idleOf 0x3A00000000000000 id id id).unreachable 0x10000 = false ∧ poisonedIn (idleOf 0x3A00000000000000 id id id).memPoison 0x10000 8 = false
      ∧ (match (idleOf 0x3A00000000000000 id id id).tlb.find? (fun e => e.covers ((idleOf 0x3A00000000000000 id id id).mmuOf g) 0x10000) with
        | some e => (match (idleOf 0x3A00000000000000 id id id).leafCheck ((idleOf 0x3A00000000000000 id id id).mmuOf g) wantFetch 0x10000 e.leaf e.level e.pteAt with | .ok x => !staleAd e.leaf false && (idleOf 0x3A00000000000000 id id id).inFlip (.phys x.pa false, 8) == none && (tfind (idleOf 0x3A00000000000000 id id id).icache (g.core * 2 ^ 64 + x.pa)).isNone | .prot => false | _ => false)
        | none => false) = true)
    ∧ At (idleOf 0x3A00000000000000 id id (fun s => { s with tlb := [⟨0, 0, 0, 16, 0x1000006D, 3⟩] })) (fun g w u => u.id = u.id ∧ w.idx = 0
      ∧ (match (idleOf 0x3A00000000000000 id id (fun s => { s with tlb := [⟨0, 0, 0, 16, 0x1000006D, 3⟩] })).tlb.find? (fun e => e.covers ((idleOf 0x3A00000000000000 id id (fun s => { s with tlb := [⟨0, 0, 0, 16, 0x1000006D, 3⟩] })).mmuOf g) 0x10000) with
        | some e => (match (idleOf 0x3A00000000000000 id id (fun s => { s with tlb := [⟨0, 0, 0, 16, 0x1000006D, 3⟩] })).leafCheck ((idleOf 0x3A00000000000000 id id (fun s => { s with tlb := [⟨0, 0, 0, 16, 0x1000006D, 3⟩] })).mmuOf g) wantFetch 0x10000 e.leaf e.level e.pteAt with | .ok x => !staleAd e.leaf false && (idleOf 0x3A00000000000000 id id (fun s => { s with tlb := [⟨0, 0, 0, 16, 0x1000006D, 3⟩] })).inFlip (.phys x.pa false, 8) == none && false | .prot => true | _ => false)
        | none => false) = true)
    ∧ At (idleOf 0x3A00000000000000 id id (fun s => { s with icache := [(0x10000, BitVec.ofNat 64 (benchHeader 0x3A00000000000000)), (0x10008, 0x3A00000000000000)] })) (fun g w u => u.id = u.id ∧ w.idx = 0 ∧ (decodeHeader (benchHeader 0x3A00000000000000)).map (fun h => h.count) = some 1 ∧ (idleOf 0x3A00000000000000 id id (fun s => { s with icache := [(0x10000, BitVec.ofNat 64 (benchHeader 0x3A00000000000000)), (0x10008, 0x3A00000000000000)] })).fetchWord g 0x10000 = (.ok (benchHeader 0x3A00000000000000), (idleOf 0x3A00000000000000 id id (fun s => { s with icache := [(0x10000, BitVec.ofNat 64 (benchHeader 0x3A00000000000000)), (0x10008, 0x3A00000000000000)] }))) ∧ (idleOf 0x3A00000000000000 id id (fun s => { s with icache := [(0x10000, BitVec.ofNat 64 (benchHeader 0x3A00000000000000)), (0x10008, 0x3A00000000000000)] })).fetchWord g 0x10008 = (.ok 0x3A00000000000000, (idleOf 0x3A00000000000000 id id (fun s => { s with icache := [(0x10000, BitVec.ofNat 64 (benchHeader 0x3A00000000000000)), (0x10008, 0x3A00000000000000)] }))))
    ∧ At (idleOf 0x3A00000000000000 id id (fun s => { s with icache := [(0x10000, 5)] })) (fun g w u => u.id = u.id ∧ w.idx = 0 ∧ decodeHeader 5 = none
      ∧ (idleOf 0x3A00000000000000 id id (fun s => { s with icache := [(0x10000, 5)] })).fetchWord g 0x10000 = (.ok 5, (idleOf 0x3A00000000000000 id id (fun s => { s with icache := [(0x10000, 5)] })))) :=
  by refine ⟨?_, ?_, ?_, ?_, ?_⟩ <;> exact At.of (by decide +kernel)

/-- R30, R43, R44: a lock holder short of its share, a warp ready for 512 slices, the same share in the reorder engine, its oldest warp, the warp that ran last, the first by priority. -/
theorem test_meets_choices :
    At (idleOf 0x3A00000000000000 id id id) (fun g w u => w.idx = 0 ∧ u.id = u.id
      ∧ (let s : State := { (idleOf 0x3A00000000000000 id id id) with timer := 10 ^ 6 }; let l : List (Group × Warp × Start) := [(g, { w with idx := 0, readyAt := 10 ^ 6 }, .wait), (g, { w with idx := 1, locks := 1, readyAt := 10 ^ 6 }, .wait)]; (s.choose 0 l).isSome = true ∧ l.any (fun y => y.2.1.inRie == false && decide (0 < y.2.1.locks ∧ (y.2.1.lockWin.filter id).length < 8)) = true))
    ∧ At (idleOf 0x3A00000000000000 id id id) (fun g w u => w.idx = 0 ∧ u.id = u.id
      ∧ (let s : State := { (idleOf 0x3A00000000000000 id id id) with timer := 10 ^ 6 }; let l : List (Group × Warp × Start) := [(g, { w with idx := 0, readyAt := 10 ^ 6 }, .wait), (g, { w with idx := 1, readyAt := 0 }, .wait)]; (s.choose 0 l).isSome = true ∧ l.any (fun y => y.2.1.inRie == false && decide (0 < y.2.1.locks ∧ (y.2.1.lockWin.filter id).length < 8)) = false ∧ l.any (fun y => !y.2.1.inRie && decide (y.2.1.readyAt + s.sliceNs y.1.core 512 ≤ s.timer)) = true))
    ∧ At (idleOf 0x3A00000000000000 id id id) (fun g w u => w.idx = 0 ∧ u.id = u.id
      ∧ (let s : State := { (idleOf 0x3A00000000000000 id id id) with timer := 10 ^ 6 }; let l : List (Group × Warp × Start) := [(g, { w with idx := 0, readyAt := 10 ^ 6 }, .wait), (g, { w with idx := 1, inRie := true, readyAt := 10 ^ 6 }, .wait), (g, { w with idx := 2, inRie := true, locks := 2, readyAt := 10 ^ 6 }, .wait)]; (s.choose 0 l).isSome = true ∧ l.any (fun y => y.2.1.inRie == false && decide (0 < y.2.1.locks ∧ (y.2.1.lockWin.filter id).length < 8)) = false ∧ l.any (fun y => !y.2.1.inRie && decide (y.2.1.readyAt + s.sliceNs y.1.core 512 ≤ s.timer)) = false ∧ l.any (fun y => y.2.1.inRie == true && decide (0 < y.2.1.locks ∧ (y.2.1.lockWin.filter id).length < 8)) = true))
    ∧ At (idleOf 0x3A00000000000000 id id id) (fun g w u => w.idx = 0 ∧ u.id = u.id
      ∧ (let s : State := { (idleOf 0x3A00000000000000 id id id) with timer := 10 ^ 6 }; let l : List (Group × Warp × Start) := [(g, { w with idx := 0, readyAt := 10 ^ 6 }, .wait), (g, { w with idx := 1, inRie := true, readyAt := 10 ^ 6 }, .wait), (g, { w with idx := 2, inRie := true, readyAt := 9 }, .wait)]; (s.choose 0 l).isSome = true ∧ l.any (fun y => y.2.1.inRie == false && decide (0 < y.2.1.locks ∧ (y.2.1.lockWin.filter id).length < 8)) = false ∧ l.any (fun y => !y.2.1.inRie && decide (y.2.1.readyAt + s.sliceNs y.1.core 512 ≤ s.timer)) = false ∧ l.any (fun y => y.2.1.inRie == true && decide (0 < y.2.1.locks ∧ (y.2.1.lockWin.filter id).length < 8)) = false ∧ l.any (fun y => y.2.1.inRie) = true))
    ∧ At (idleOf 0x3A00000000000000 id id id) (fun g w u => w.idx = 0 ∧ u.id = u.id
      ∧ (let s : State := ({ (idleOf 0x3A00000000000000 id id id) with timer := 10 ^ 6 } : State).setQuad 0 { idleQuad with prev := some (g.id, 1) }; let l : List (Group × Warp × Start) := [(g, { w with idx := 0, readyAt := 10 ^ 6 }, .wait), (g, { w with idx := 1, readyAt := 10 ^ 6 }, .wait)]; (s.choose 0 l).isSome = true ∧ l.any (fun y => y.2.1.inRie == false && decide (0 < y.2.1.locks ∧ (y.2.1.lockWin.filter id).length < 8)) = false ∧ l.any (fun y => !y.2.1.inRie && decide (y.2.1.readyAt + s.sliceNs y.1.core 512 ≤ s.timer)) = false ∧ l.any (fun y => y.2.1.inRie) = false ∧ (s.quad 0).prev = some (g.id, 1) ∧ (s.quad 0).skip = none ∧ (s.quad 0).next = 0))
    ∧ At (idleOf 0x3A00000000000000 id id id) (fun g w u => w.idx = 0 ∧ u.id = u.id
      ∧ (let s : State := { (idleOf 0x3A00000000000000 id id id) with timer := 10 ^ 6 }; let l : List (Group × Warp × Start) := [(g, { w with idx := 0, readyAt := 10 ^ 6 }, .wait), (g, { w with idx := 1, readyAt := 10 ^ 6 }, .wait)]; (s.choose 0 l).isSome = true ∧ l.any (fun y => y.2.1.inRie == false && decide (0 < y.2.1.locks ∧ (y.2.1.lockWin.filter id).length < 8)) = false ∧ l.any (fun y => !y.2.1.inRie && decide (y.2.1.readyAt + s.sliceNs y.1.core 512 ≤ s.timer)) = false ∧ l.any (fun y => y.2.1.inRie) = false ∧ (s.quad 0).prev = none)) :=
  by refine ⟨?_, ?_, ?_, ?_, ?_, ?_⟩ <;> exact At.of (by decide +kernel)

/-- R125, R30: a clause that starts, one that traps at its header, no warp that is ready. -/
theorem test_meets_starts :
    At (idleOf 0x3A00000000000000 id id id) (fun g w u => u.mid = none
      ∧ (match (idleOf 0x3A00000000000000 id id id).tryStart g w u with | .go _ => true | .other _ => false | .wait => false) = true)
    ∧ At (idleOf 0 (onSubs (fun u => { u with pc := 0x10004 })) id id) (fun g w u => u.mid = none
      ∧ (match (idleOf 0 (onSubs (fun u => { u with pc := 0x10004 })) id id).tryStart g w u with | .go _ => false | .other _ => true | .wait => false) = true)
    ∧ At (idleOf 0x3A00000000000000 id id id) (fun g w u => u.id = u.id
      ∧ (match (idleOf 0x3A00000000000000 id id id).pick (quadOf g.core w.slot) with | some p => p.1.id == g.id && p.2.1.idx == w.idx && (match p.2.2 with | .go _ => true | .other _ => false | .wait => false) | none => false) = true)
    ∧ At (idleOf 0 (onSubs (fun u => { u with pc := 0x10004 })) id id) (fun g w u => u.id = u.id
      ∧ (match (idleOf 0 (onSubs (fun u => { u with pc := 0x10004 })) id id).pick (quadOf g.core w.slot) with | some p => p.1.id == g.id && p.2.1.idx == w.idx && (match p.2.2 with | .go _ => false | .other _ => true | .wait => false) | none => false) = true)
    ∧ At (idleOf 0x3A00000000000000 (fun w => { w with live := 0 }) id id) (fun g w u => u.id = u.id
      ∧ (match (idleOf 0x3A00000000000000 (fun w => { w with live := 0 }) id id).pick (quadOf g.core w.slot) with | some p => p.1.id == g.id && p.2.1.idx == w.idx && (match p.2.2 with | .go _ => false | .other _ => false | .wait => false) | none => true) = true) :=
  by refine ⟨?_, ?_, ?_, ?_, ?_⟩ <;> exact At.of (by decide +kernel)

/-- R310: a handler, none, nothing pending, inside a handler, and an acquire still pending. -/
theorem test_meets_trap_entries :
    At (idleOf 0 (fun w => onSubs (fun u => { u with pend := some { (default : TrapRec) with cause := 3 } }) { w with tvec := 0x10000 }) id id) (fun g w u => g.ended = false ∧ g.stop = none ∧ w.live ≠ 0 ∧ w.inh = false ∧ w.stopped = false ∧ (∀ v ∈ w.subs, v.run = none) ∧ w.tvec ≠ 0 ∧ trapReady g w = true ∧ w.subs = [] ++ u :: [] ∧ (u.pend.map (fun x => x.cause)) = some 3 ∧ (idleOf 0 (fun w => onSubs (fun u => { u with pend := some { (default : TrapRec) with cause := 3 } }) { w with tvec := 0x10000 }) id id).coreRuns g.core = true)
    ∧ At (idleOf 0 (fun w => onSubs (fun u => { u with pend := some { (default : TrapRec) with cause := 3 } }) { w with tvec := 0 }) id id) (fun g w u => g.ended = false
      ∧ g.stop = none ∧ w.live ≠ 0 ∧ w.inh = false ∧ w.stopped = false ∧ (∀ v ∈ w.subs, v.run = none) ∧ w.tvec = 0 ∧ w.subs = [] ++ u :: []
      ∧ (u.pend.map (fun x => x.cause)) = some 3)
    ∧ At (idleOf 0x3A00000000000000 id id id) (fun g w u => g.ended = false ∧ g.stop = none ∧ w.live ≠ 0 ∧ w.inh = false ∧ w.stopped = false
      ∧ (∀ v ∈ w.subs, v.run = none) ∧ u.pend = none)
    ∧ At (idleOf 0 (fun w => onSubs (fun u => { u with pend := some { (default : TrapRec) with cause := 3 } }) { w with inh := true }) id id) (fun _ w u => w.inh = true
      ∧ u.pend.isSome = true)
    ∧ At (idleOf 0 (fun w => onSubs (fun u => { u with pend := some { (default : TrapRec) with cause := 3 } }) { w with tvec := 8, acq := true }) id id) (fun g w u => u.id = u.id ∧ w.tvec ≠ 0 ∧ trapReady g w = false) :=
  by refine ⟨?_, ?_, ?_, ?_, ?_⟩ <;> exact At.of (by decide +kernel)

/-- R22, R32 to R35, R306: a sleep at its deadline and before; no trigger, a lock, mode always; a slot for the holder; the interval of 256 cycles not begun, running and over; a load whose words the core holds, one to repeat, one that lost its words, one on a page being flipped, one that finds poison. -/
theorem test_meets_warp_events :
    At (idleOf 0 (fun w => onSubs (fun u => { u with st := .sleep 7 }) w) (fun g => g) (fun (s : State) => let s : State := { s with grids := s.grids.map (fun (d : Grid) => { d with next := 0 }) }; { s with timer := 7 })) (fun g w u => u.id = u.id ∧ w.idx = 0 ∧ g.ended = false ∧ u.st = .sleep 7 ∧ ((idleOf 0 (fun w => onSubs (fun u => { u with st := .sleep 7 }) w) (fun g => g) (fun (s : State) => let s : State := { s with grids := s.grids.map (fun (d : Grid) => { d with next := 0 }) }; { s with timer := 7 }))).timer = 7)
    ∧ At (idleOf 0 (fun w => onSubs (fun u => { u with st := .sleep 7 }) w) (fun g => g) (fun (s : State) => let s : State := { s with grids := s.grids.map (fun (d : Grid) => { d with next := 0 }) }; { s with timer := 6 })) (fun g w u => u.id = u.id ∧ w.idx = 0 ∧ g.ended = false ∧ u.st = .sleep 7 ∧ ((idleOf 0 (fun w => onSubs (fun u => { u with st := .sleep 7 }) w) (fun g => g) (fun (s : State) => let s : State := { s with grids := s.grids.map (fun (d : Grid) => { d with next := 0 }) }; { s with timer := 6 }))).timer < 7)
    ∧ At (idleOf 0 (fun w => { w with locks := 1 }) (fun g => { g with ooo := 1 }) (fun (s : State) => let s : State := { s with grids := s.grids.map (fun (d : Grid) => { d with next := 0 }) }; s)) (fun g w u => u.id = u.id ∧ w.idx = 0 ∧ g.ended = false ∧ (idleOf 0 (fun w => { w with locks := 1 }) (fun g => { g with ooo := 1 }) (fun (s : State) => let s : State := { s with grids := s.grids.map (fun (d : Grid) => { d with next := 0 }) }; s)).trigger g w = 0)
    ∧ At (idleOf 0 (fun w => { w with locks := 1 }) (fun g => g) (fun (s : State) => let s : State := { s with grids := s.grids.map (fun (d : Grid) => { d with next := 0 }) }; s)) (fun g w u => u.id = u.id ∧ w.idx = 0 ∧ g.ended = false ∧ (idleOf 0 (fun w => { w with locks := 1 }) (fun g => g) (fun (s : State) => let s : State := { s with grids := s.grids.map (fun (d : Grid) => { d with next := 0 }) }; s)).trigger g w = 1)
    ∧ At (idleOf 0 (fun w => w) (fun g => { g with ooo := 2 }) (fun (s : State) => let s : State := { s with grids := s.grids.map (fun (d : Grid) => { d with next := 0 }) }; s)) (fun g w u => u.id = u.id ∧ w.idx = 0 ∧ g.ended = false ∧ (idleOf 0 (fun w => w) (fun g => { g with ooo := 2 }) (fun (s : State) => let s : State := { s with grids := s.grids.map (fun (d : Grid) => { d with next := 0 }) }; s)).trigger g w = 4)
    ∧ At (idleOf 0 (fun w => { w with locks := 1 }) (fun g => g) (fun (s : State) => let s : State := { s with grids := s.grids.map (fun (d : Grid) => { d with next := 0 }) }; s)) (fun g w u => u.id = u.id ∧ w.idx = 0 ∧ g.ended = false ∧ ((idleOf 0 (fun w => { w with locks := 1 }) (fun g => g) (fun (s : State) => let s : State := { s with grids := s.grids.map (fun (d : Grid) => { d with next := 0 }) }; s)).riePick 0).map (fun p => (p.1.id, p.2.idx)) = some (g.id, w.idx))
    ∧ At (idleOf 0 (fun w => w) (fun g => g) (fun (s : State) => let s : State := { s with grids := s.grids.map (fun (d : Grid) => { d with next := 0 }) }; s)) (fun g w u => u.id = u.id ∧ w.idx = 0 ∧ g.ended = false ∧ ((idleOf 0 (fun w => w) (fun g => g) (fun (s : State) => let s : State := { s with grids := s.grids.map (fun (d : Grid) => { d with next := 0 }) }; s)).riePick 0).isNone = true)
    ∧ At (idleOf 0 (fun w => { w with inRie := false }) (fun g => { g with ooo := 0 }) (fun (s : State) => let s : State := { s with grids := s.grids.map (fun (d : Grid) => { d with next := 0 }) }; { s with timer := 0 })) (fun g w u => u.id = u.id ∧ w.idx = 0 ∧ g.ended = false ∧ w.inRie = false)
    ∧ At (idleOf 0 (fun w => { w with inRie := true, locks := 1 }) (fun g => { g with ooo := 0 }) (fun (s : State) => let s : State := { s with grids := s.grids.map (fun (d : Grid) => { d with next := 0 }) }; { s with timer := 0 })) (fun g w u => u.id = u.id ∧ w.idx = 0 ∧ g.ended = false ∧ w.inRie = true ∧ (idleOf 0 (fun w => { w with inRie := true, locks := 1 }) (fun g => { g with ooo := 0 }) (fun (s : State) => let s : State := { s with grids := s.grids.map (fun (d : Grid) => { d with next := 0 }) }; { s with timer := 0 })).trigger g w ≠ 0)
    ∧ At (idleOf 0 (fun w => { w with inRie := true, rieEnd := none }) (fun g => { g with ooo := 0 }) (fun (s : State) => let s : State := { s with grids := s.grids.map (fun (d : Grid) => { d with next := 0 }) }; { s with timer := 0 })) (fun g w u => u.id = u.id ∧ w.idx = 0 ∧ g.ended = false ∧ w.inRie = true ∧ w.acq = false ∧ (idleOf 0 (fun w => { w with inRie := true, rieEnd := none }) (fun g => { g with ooo := 0 }) (fun (s : State) => let s : State := { s with grids := s.grids.map (fun (d : Grid) => { d with next := 0 }) }; { s with timer := 0 })).trigger g w = 0 ∧ w.rieEnd = none)
    ∧ At (idleOf 0 (fun w => { w with inRie := true, rieEnd := some 147 }) (fun g => { g with ooo := 0 }) (fun (s : State) => let s : State := { s with grids := s.grids.map (fun (d : Grid) => { d with next := 0 }) }; { s with timer := 146 })) (fun g w u => u.id = u.id ∧ w.idx = 0 ∧ g.ended = false ∧ w.inRie = true ∧ w.acq = false ∧ (idleOf 0 (fun w => { w with inRie := true, rieEnd := some 147 }) (fun g => { g with ooo := 0 }) (fun (s : State) => let s : State := { s with grids := s.grids.map (fun (d : Grid) => { d with next := 0 }) }; { s with timer := 146 })).trigger g w = 0 ∧ w.rieEnd = some 147 ∧ (idleOf 0 (fun w => { w with inRie := true, rieEnd := some 147 }) (fun g => { g with ooo := 0 }) (fun (s : State) => let s : State := { s with grids := s.grids.map (fun (d : Grid) => { d with next := 0 }) }; { s with timer := 146 })).timer < 147)
    ∧ At (idleOf 0 (fun w => { w with inRie := true, rieEnd := some 147 }) (fun g => { g with ooo := 0 }) (fun (s : State) => let s : State := { s with grids := s.grids.map (fun (d : Grid) => { d with next := 0 }) }; { s with timer := 147 })) (fun g w u => u.id = u.id ∧ w.idx = 0 ∧ g.ended = false ∧ w.inRie = true ∧ w.acq = false ∧ (idleOf 0 (fun w => { w with inRie := true, rieEnd := some 147 }) (fun g => { g with ooo := 0 }) (fun (s : State) => let s : State := { s with grids := s.grids.map (fun (d : Grid) => { d with next := 0 }) }; { s with timer := 147 })).trigger g w = 0 ∧ w.rieEnd = some 147 ∧ (idleOf 0 (fun w => { w with inRie := true, rieEnd := some 147 }) (fun g => { g with ooo := 0 }) (fun (s : State) => let s : State := { s with grids := s.grids.map (fun (d : Grid) => { d with next := 0 }) }; { s with timer := 147 })).timer = 147)
    ∧ At (idleOf 0 (fun w => { w with acq := true, spec := [⟨0, default, default, 9, 2, true, [⟨3, 0x10800, [(0x10800, 2)], true, [7]⟩]⟩] }) (fun g => { g with ooo := 0 }) (fun (s : State) => let s : State := { s with grids := s.grids.map (fun (d : Grid) => { d with next := 0 }) }; { s with owner := [(0x4200, (0, 0))] })) (fun g w u => u.id = u.id ∧ w.idx = 0 ∧ g.ended = false ∧ w.acq = true ∧ w.spec.map (fun l => (l.d, l.size, l.lanes.length)) = [(9, 2, 1)] ∧ wordsOf 0x10800 2 = [0x4200] ∧ ((idleOf 0 (fun w => { w with acq := true, spec := [⟨0, default, default, 9, 2, true, [⟨3, 0x10800, [(0x10800, 2)], true, [7]⟩]⟩] }) (fun g => { g with ooo := 0 }) (fun (s : State) => let s : State := { s with grids := s.grids.map (fun (d : Grid) => { d with next := 0 }) }; { s with owner := [(0x4200, (0, 0))] })).ownerOf 0x4200 == some g.core) = true)
    ∧ At (idleOf 0 (fun w => { w with acq := true, spec := [⟨0, default, default, 9, 2, true, [⟨3, 0x10800, [(0x10800, 2)], false, [7]⟩]⟩] }) (fun g => { g with ooo := 0 }) (fun (s : State) => let s : State := { s with grids := s.grids.map (fun (d : Grid) => { d with next := 0 }) }; s)) (fun g w u => u.id = u.id ∧ w.idx = 0 ∧ g.ended = false ∧ w.acq = true ∧ w.spec.map (fun l => (l.d, l.size, l.lanes.length)) = [(9, 2, 1)] ∧ ((idleOf 0 (fun w => { w with acq := true, spec := [⟨0, default, default, 9, 2, true, [⟨3, 0x10800, [(0x10800, 2)], false, [7]⟩]⟩] }) (fun g => { g with ooo := 0 }) (fun (s : State) => let s : State := { s with grids := s.grids.map (fun (d : Grid) => { d with next := 0 }) }; s)).inFlip (.phys 0x10800 false, 2)).isNone = true ∧ quietB (idleOf 0 (fun w => { w with acq := true, spec := [⟨0, default, default, 9, 2, true, [⟨3, 0x10800, [(0x10800, 2)], false, [7]⟩]⟩] }) (fun g => { g with ooo := 0 }) (fun (s : State) => let s : State := { s with grids := s.grids.map (fun (d : Grid) => { d with next := 0 }) }; s)) 0x10800 2 = true)
    ∧ At (idleOf 0 (fun w => { w with acq := true, spec := [⟨0, default, default, 9, 2, true, [⟨3, 0x10800, [(0x10800, 2)], true, [7]⟩]⟩] }) (fun g => { g with ooo := 0 }) (fun (s : State) => let s : State := { s with grids := s.grids.map (fun (d : Grid) => { d with next := 0 }) }; { s with owner := [(0x4200, (1, 0))] })) (fun g w u => u.id = u.id ∧ w.idx = 0 ∧ g.ended = false ∧ w.acq = true ∧ w.spec.map (fun l => (l.d, l.size, l.lanes.length)) = [(9, 2, 1)] ∧ ((idleOf 0 (fun w => { w with acq := true, spec := [⟨0, default, default, 9, 2, true, [⟨3, 0x10800, [(0x10800, 2)], true, [7]⟩]⟩] }) (fun g => { g with ooo := 0 }) (fun (s : State) => let s : State := { s with grids := s.grids.map (fun (d : Grid) => { d with next := 0 }) }; { s with owner := [(0x4200, (1, 0))] })).ownerOf 0x4200 != some g.core && ((idleOf 0 (fun w => { w with acq := true, spec := [⟨0, default, default, 9, 2, true, [⟨3, 0x10800, [(0x10800, 2)], true, [7]⟩]⟩] }) (fun g => { g with ooo := 0 }) (fun (s : State) => let s : State := { s with grids := s.grids.map (fun (d : Grid) => { d with next := 0 }) }; { s with owner := [(0x4200, (1, 0))] })).inFlip (.phys 0x10800 false, 2)).isNone && quietB (idleOf 0 (fun w => { w with acq := true, spec := [⟨0, default, default, 9, 2, true, [⟨3, 0x10800, [(0x10800, 2)], true, [7]⟩]⟩] }) (fun g => { g with ooo := 0 }) (fun (s : State) => let s : State := { s with grids := s.grids.map (fun (d : Grid) => { d with next := 0 }) }; { s with owner := [(0x4200, (1, 0))] })) 0x10800 2) = true)
    ∧ At (idleOf 0 (fun w => { w with acq := true, spec := [⟨0, default, default, 9, 2, true, [⟨3, 0x10800, [(0x10800, 2)], false, [7]⟩]⟩] }) (fun g => { g with ooo := 0 }) (fun (s : State) => let s : State := { s with grids := s.grids.map (fun (d : Grid) => { d with next := 0 }) }; { s with flips := [⟨0x10, false, [], []⟩] })) (fun g w u => u.id = u.id ∧ w.idx = 0 ∧ g.ended = false ∧ w.acq = true ∧ w.spec.map (fun l => (l.d, l.size, l.lanes.length)) = [(9, 2, 1)] ∧ ((idleOf 0 (fun w => { w with acq := true, spec := [⟨0, default, default, 9, 2, true, [⟨3, 0x10800, [(0x10800, 2)], false, [7]⟩]⟩] }) (fun g => { g with ooo := 0 }) (fun (s : State) => let s : State := { s with grids := s.grids.map (fun (d : Grid) => { d with next := 0 }) }; { s with flips := [⟨0x10, false, [], []⟩] })).inFlip (.phys 0x10800 false, 2)).isSome = true)
    ∧ At (idleOf 0 (fun w => { w with acq := true, spec := [⟨0, default, default, 9, 2, true, [⟨3, 0x10800, [(0x10800, 2)], false, [7]⟩]⟩] }) (fun g => { g with ooo := 0 }) (fun (s : State) => let s : State := { s with grids := s.grids.map (fun (d : Grid) => { d with next := 0 }) }; { s with memPoison := [(0x4200, ())] })) (fun g w u => u.id = u.id ∧ w.idx = 0 ∧ g.ended = false ∧ w.acq = true ∧ w.spec.map (fun l => (l.d, l.size, l.lanes.length)) = [(9, 2, 1)] ∧ (((idleOf 0 (fun w => { w with acq := true, spec := [⟨0, default, default, 9, 2, true, [⟨3, 0x10800, [(0x10800, 2)], false, [7]⟩]⟩] }) (fun g => { g with ooo := 0 }) (fun (s : State) => let s : State := { s with grids := s.grids.map (fun (d : Grid) => { d with next := 0 }) }; { s with memPoison := [(0x4200, ())] })).inFlip (.phys 0x10800 false, 2)).isNone && !(idleOf 0 (fun w => { w with acq := true, spec := [⟨0, default, default, 9, 2, true, [⟨3, 0x10800, [(0x10800, 2)], false, [7]⟩]⟩] }) (fun g => { g with ooo := 0 }) (fun (s : State) => let s : State := { s with grids := s.grids.map (fun (d : Grid) => { d with next := 0 }) }; { s with memPoison := [(0x4200, ())] })).unreachable 0x10800 && poisonedIn (idleOf 0 (fun w => { w with acq := true, spec := [⟨0, default, default, 9, 2, true, [⟨3, 0x10800, [(0x10800, 2)], false, [7]⟩]⟩] }) (fun g => { g with ooo := 0 }) (fun (s : State) => let s : State := { s with grids := s.grids.map (fun (d : Grid) => { d with next := 0 }) }; { s with memPoison := [(0x4200, ())] })).memPoison 0x10800 2 && (List.range 2).all (fun k => byteOk (idleOf 0 (fun w => { w with acq := true, spec := [⟨0, default, default, 9, 2, true, [⟨3, 0x10800, [(0x10800, 2)], false, [7]⟩]⟩] }) (fun g => { g with ooo := 0 }) (fun (s : State) => let s : State := { s with grids := s.grids.map (fun (d : Grid) => { d with next := 0 }) }; { s with memPoison := [(0x4200, ())] })) [] (.phys (0x10800 + k) false))) = true)
    ∧ At (idleOf 0 (fun w => { w with acq := false }) (fun g => { g with ooo := 0 }) (fun (s : State) => let s : State := { s with grids := s.grids.map (fun (d : Grid) => { d with next := 0 }) }; { s with timer := 0 })) (fun g w u => u.id = u.id ∧ w.idx = 0 ∧ g.ended = false ∧ w.acq = false) :=
  by refine ⟨?_, ?_, ?_, ?_, ?_, ?_, ?_, ?_, ?_, ?_, ?_, ?_, ?_, ?_, ?_, ?_, ?_, ?_⟩ <;> exact At.of (by decide +kernel)

/-- R22, R62: a drained warp, one with a token outstanding, a group whose warps have all ended. -/
theorem test_meets_exits : let p (s : State) (k : Group → Warp → Bool) : Bool := (s.groups.head?.bind (fun g => g.warps.head?.map (k g))).getD false
    p (idleOf 0 (fun w => { w with live := 0, subs := [], outst := [⟨1, none, .free⟩], tokens := [(1, ⟨9, true⟩)] }) (fun g => g) id) (fun g w => w.live == 0 && !w.exited && w.outst.all (fun o => o.kind == .free) && w.tokens.all (fun x => x.2.landed) && g.palOps.all (fun o => o.warp != w.idx) && w.subs.isEmpty) = true
    ∧ p (idleOf 0 (fun w => { w with live := 0, subs := [], tokens := [(1, ⟨9, false⟩)] }) (fun g => g) id) (fun _ w => w.tokens.any (fun x => !x.2.landed)) = true
    ∧ p (idleOf 0 (fun w => { w with live := 0, subs := [], exited := true }) (fun g => g) id) (fun g w => w.exited && !g.ended && g.palOps.isEmpty) = true
    ∧ (idleOf 0 (fun w => { w with live := 0, subs := [], exited := true }) (fun g => g) id).jobs = [] :=
  by decide +kernel

/-! ## Hypotheses met: registers, queues and launches (R348 to R366) -/

theorem test_meets_registers :
    (let s : State := up; s.bu.phase ≠ 15 ∧ s.barFld 0x300300 6 1 = 0)
    ∧ (let s : State := up.barPut 0x300300 6 1 1; s.barFld 0x300300 6 1 = 1)
    ∧ (let s : State := (up.barPut 0x300000 15 1 1).barPut 0x300300 6 1 1; s.bu.phase = 5 ∧ s.barFld 0x300000 15 1 = 1 ∧ s.barFld 0x300300 6 1 = 1
      ∧ s.barFld 0x300000 0 2 = 0 ∧ (0x300300 : Nat) % 8 = 0)
    ∧ (let s : State := up.barPut 0x3002F8 0 2 1; s.bu.phase ≠ 15 ∧ s.barFld 0x3002F8 15 1 = 0 ∧ s.barFld 0x3002F8 0 2 = 1 ∧ 0x300000 + 8 * 95 = 0x3002F8)
    ∧ (let s : State := up.barPut 0x300000 0 2 2; s.bu.phase ≠ 15 ∧ s.barFld 0x300000 0 2 = 2)
    ∧ (let s : State := up; s.bu.busy = false ∧ ((0x103 : DWord).extractLsb' 0 8).toNat = 3 ∧ s.bu.phase ∈ [3, 4, 5, 15])
    ∧ (let s : State := { up with bu := { up.bu with busy := true } }; s.bu.busy = true)
    ∧ (let s : State := up; ¬ (((4 : DWord).extractLsb' 0 8).toNat = 4 → s.bu.phase = 15) ∧ (7 : Nat) > 6 ∧ (512 : Nat) * 8 = 0x1000)
    ∧ (let s : State := { up with bu := { up.bu with phase := 15, failC := 7 } }; s.bu.phase = 15 ∧ (s.bu.failC = 6 ∨ s.bu.failC = 7))
    ∧ (let s : State := up; s.qd 1023 154 1 = 0)
    ∧ (let s : State := up.setQd 1023 154 1 1; s.qd 1023 154 1 = 1 ∧ s.waitsReply (.ringRead 1023) = false)
    ∧ (let s : State := { up.setQd 1 154 1 1 with faults := [(⟨7, some 3, 1, 0, 0, 1, 0, 3, 0, 0, 0, 0, 0, 0, 0, 0, 0, 0, [.ringRead 1], 0, 0⟩ : FaultEv)] }; s.qd 1 154 1 = 1 ∧ s.waitsReply (.ringRead 1) = true)
    ∧ (let s : State := up.setQd 1 157 1 1; s.qd 1 157 1 = 1) :=
  by refine ⟨?_, ?_, ?_, ?_, ?_, ?_, ?_, ?_, ?_, ?_, ?_, ?_, ?_⟩ <;> decide +kernel

/-- R349, R350: writes of exactly the ring's size past RDIDX and one more, across the wrap; CRDIDX up to CWRIDX and past it. -/
theorem test_meets_indices :
    (let s : State := up.setIdx 1 1 0xFFFFFFF8; (8 : Word) ≠ s.idx 1 0 ∧ ((8 : Word) - s.idx 1 1).toNat = 2 ^ (max 4 (s.qd 1 128 4)))
    ∧ (let s : State := up.setIdx 1 1 0xFFFFFFF8; (9 : Word) ≠ s.idx 1 0 ∧ ((9 : Word) - s.idx 1 1).toNat = 2 ^ (max 4 (s.qd 1 128 4)) + 1)
    ∧ (let s : State := up.setQueue 1 ⟨.idle, 0, 0⟩; (s.queue 1).st = .idle ∧ (1 : Word) ≠ s.idx 1 0 ∧ (1 : Word) ≠ s.idx 1 1)
    ∧ (let s : State := up; (s.queue 1).st ≠ .idle)
    ∧ (let s : State := (up.setIdx 1 2 2).setIdx 1 3 0xFFFFFFFF; ((2 : Word) - s.idx 1 3).toNat = (s.idx 1 2 - s.idx 1 3).toNat
      ∧ (s.idx 1 2 - s.idx 1 3).toNat < ((3 : Word) - s.idx 1 3).toNat)
    ∧ (let s : State := (up.setQd 1 154 1 1).setQueue 1 ⟨.stopped, 0, 0⟩; (s.queue 1).st = .stopped ∧ s.qd 1 154 1 = 1 ∧ s.idx 1 0 = s.idx 1 1) :=
  by refine ⟨?_, ?_, ?_, ?_, ?_, ?_⟩ <;> decide +kernel

/-- R352: waits on both sides of 4 and 12 ms; a slice at its end and before. -/
theorem test_meets_slots :
    (let s : State := { (up.setQueue 1 ⟨.ready, 0, 0⟩).setQueue 2 ⟨.ready, 0, 0⟩ with timer := 0, slots := [] }; s.bu.phase = 5 ∧ s.bu.stopping = false
      ∧ s.slots.length < 32 ∧ ∃ e ∈ s.queues, e.2.st = .ready)
    ∧ (let s : State := { (up.setQueue 1 ⟨.ready, 0, 0⟩).setQueue 2 ⟨.ready, 0, 0⟩ with timer := 0, slots := List.range 32 }; 32 ≤ s.slots.length)
    ∧ (let s : State := { (up.setQueue 1 ⟨.ready, 0, 0⟩).setQueue 2 ⟨.ready, 0, 0⟩ with timer := 11999999, slots := [] }; s.effPrio 1 = 2
      ∧ (s.timer - (s.queue 1).since) / 4000000 = 2)
    ∧ (let s : State := { (up.setQueue 1 ⟨.ready, 0, 0⟩).setQueue 2 ⟨.ready, 0, 0⟩ with timer := 12000000, slots := [] }; s.effPrio 1 = 3)
    ∧ (let s : State := { (up.setQueue 1 ⟨.active, 0, 5⟩).setQueue 2 ⟨.ready, 0, 0⟩ with slots := [1], timer := 1000005 }; 1 ∈ s.slots
      ∧ s.waitsReply (.ringRead 1) = false ∧ (s.queue 1).slotAt + 1000 * max 1 (s.qd 1 176 16) = s.timer ∧ ∃ r ∈ s.readyQueues, s.qd 1 152 2 ≤ s.effPrio r)
    ∧ (let s : State := { (up.setQueue 1 ⟨.active, 0, 5⟩).setQueue 2 ⟨.ready, 0, 0⟩ with slots := [1], timer := 1000005, faults := [(⟨7, some 3, 1, 0, 0, 1, 0, 3, 0, 0, 0, 0, 0, 0, 0, 0, 0, 0, [.ringRead 1], 0, 0⟩ : FaultEv)] }; 1 ∈ s.slots ∧ s.waitsReply (.ringRead 1) = true)
    ∧ (let s : State := { (up.setQueue 1 ⟨.active, 0, 5⟩).setQueue 2 ⟨.ready, 0, 0⟩ with slots := [1], timer := 1000004 }; s.timer < (s.queue 1).slotAt + 1000 * max 1 (s.qd 1 176 16)) :=
  by refine ⟨?_, ?_, ?_, ?_, ?_, ?_, ?_⟩ <;> decide +kernel

/-- R350 to R356: no packet due, a context that is not valid, a ring outside memory, a packet in order, a malformed one, a SERIAL one that waits, a launch stamp in use. -/
theorem test_meets_packets :
    (let s : State := up; s.packetDue 1 = false)
    ∧ (let s : State := (queue1 plainPkt up).setQd 1 136 16 2; s.packetDue 1 = true ∧ s.qd 1 136 16 = 2 ∧ s.ctxValid 2 = false)
    ∧ (let s : State := (queue1 plainPkt up).setQd 1 0 64 (2 ^ 56); s.packetDue 1 = true ∧ s.qd 1 136 16 = 1 ∧ s.ctxValid 1 = true
      ∧ 2 ^ 56 ≤ s.qd 1 0 64 + 128 * ((s.idx 1 1).toNat % 2 ^ max 4 (s.qd 1 128 4)))
    ∧ (let s : State := queue1 plainPkt up; s.packetDue 1 = true ∧ s.qd 1 136 16 = 1 ∧ mapHitB s 1 0x40000 128 false 0x40000 = true ∧ quietB s 0x40000 128 = true
      ∧ s.ctxValid 1 = true ∧ BitVec.ofNat 1024 (s.peekN 0x40000 128) = plainPkt ∧ s.others plainPkt = [] ∧ cwtRead plainPkt = false ∧ plainPkt.getLsbD 573 = false
      ∧ packetBad s.pkg (s.qd 1 155 1 == 1) plainPkt 0 = false ∧ s.grids = [])
    ∧ (let s : State := queue1 0 up; s.packetDue 1 = true ∧ s.qd 1 136 16 = 1 ∧ mapHitB s 1 0x40000 128 false 0x40000 = true ∧ quietB s 0x40000 128 = true
      ∧ s.ctxValid 1 = true ∧ BitVec.ofNat 1024 (s.peekN 0x40000 128) = 0 ∧ s.others 0 = [] ∧ cwtRead 0 = false ∧ packetBad s.pkg (s.qd 1 155 1 == 1) 0 0 = true)
    ∧ (let s : State := let p := plainPkt ||| (1#1024 <<< 575); { queue1 p up with grids := [{ up.newGrid p 0 1 (some 1) 0 0 3 .placing with done := false }] }; s.packetDue 1 = true ∧ s.openLaunches 1 = true)
    ∧ (let s : State := { queue1 plainPkt up with grids := [up.newGrid plainPkt 0 1 (some 2) 0 0 3 .placing] }; s.packetDue 1 = true ∧ s.qd 1 136 16 = 1
      ∧ mapHitB s 1 0x40000 128 false 0x40000 = true ∧ quietB s 0x40000 128 = true ∧ s.ctxValid 1 = true ∧ BitVec.ofNat 1024 (s.peekN 0x40000 128) = plainPkt
      ∧ packetBad s.pkg (s.qd 1 155 1 == 1) plainPkt 0 = false ∧ ∃ e ∈ s.grids, e.ctx = 1 ∧ e.done = false ∧ e.gen = plainPkt.extractLsb' 384 32) :=
  by refine ⟨?_, ?_, ?_, ?_, ?_, ?_, ?_⟩ <;> decide +kernel

/-- R25, R361: the rotor at the last core; no core that admits; a wait of 1 ms and of less. -/
theorem test_meets_placements :
    (let s : State := up; s.placement.isNone = true)
    ∧ (let s : State := { up with grids := [{ up.newGrid plainPkt 0 1 none 0 0 3 .placing with next := 0 }], rotor := 575 }; (s.servedGrids.map (fun d => d.id)) = s.grids.map (fun d => d.id) ∧ s.resumeBlock = none ∧ s.bu.tripped = false ∧ plainPkt.getLsbD 573 = false ∧ teamT plainPkt = 1
      ∧ (List.range 3).any (fun k => s.admits ((s.rotor + k) % 576) plainPkt) = true)
    ∧ (let s : State := { { up with grids := [{ up.newGrid plainPkt 0 1 none 0 0 3 .placing with next := 0 }], rotor := 0 } with bu := { up.bu with dieRun := 0 } }; (List.range 576).all (fun c => !s.admits c plainPkt) = true)
    ∧ (let s : State := { { up with grids := [{ up.newGrid plainPkt 0 1 none 0 0 3 .placing with next := 0 }], rotor := 0 } with timer := 1000000 }; s.grids.all (fun d => s.wants d && !d.blocking && decide (d.waitSince + 1000000 ≤ s.timer)) = true)
    ∧ (let s : State := { { up with grids := [{ up.newGrid plainPkt 0 1 none 0 0 3 .placing with next := 0 }], rotor := 0 } with timer := 999999 }; s.grids.all (fun d => decide (s.timer < d.waitSince + 1000000)) = true) :=
  by refine ⟨?_, ?_, ?_, ?_, ?_⟩ <;> decide +kernel

/-- R248, R289: a task accepted, held, the last that a die holds and one more, one still to be read, one malformed. -/
theorem test_meets_task_acceptance :
    (let s : State := { up with tasks := [(⟨5, 0, plainPkt, 0, 1, 1, 0, 3, none, 0x40000, false, true, false⟩ : Task)] }; s.tasks.head?.map (fun k => (k.accepted, k.unread, k.held)) = some (true, false, false))
    ∧ (let s : State := { up with tasks := [(⟨5, 0, plainPkt, 0, 1, 1, 0, 3, none, 0x40000, false, false, false⟩ : Task)], bu := { up.bu with stopping := true } }; s.tasks.head?.map (fun k => (k.accepted, k.unread, k.held)) = some (false, false, false) ∧ s.bu.stopping = true)
    ∧ (let s : State := { up with tasks := [(⟨5, 0, plainPkt, 0, 1, 1, 0, 3, none, 0x40000, false, false, true⟩ : Task)] }; s.tasks.head?.map (fun k => (k.accepted, k.unread, k.held)) = some (false, false, true))
    ∧ (let s : State := { up with tasks := (⟨5, 0, plainPkt, 0, 1, 1, 0, 3, none, 0x40000, false, false, false⟩ : Task) :: ((List.range 1024).map (fun k => { (⟨5, 0, plainPkt, 0, 1, 1, 0, 3, none, 0x40000, false, true, false⟩ : Task) with id := k + 9 })).take 1023 }; s.tasks.head?.map (fun k => (k.accepted, k.unread, k.held)) = some (false, false, false) ∧ (s.tasks.filter (fun x => x.accepted && x.die == 0)).length = 1023 ∧ s.bu.stopping = false)
    ∧ (let s : State := { up with tasks := (⟨5, 0, plainPkt, 0, 1, 1, 0, 3, none, 0x40000, false, false, false⟩ : Task) :: (List.range 1024).map (fun k => { (⟨5, 0, plainPkt, 0, 1, 1, 0, 3, none, 0x40000, false, true, false⟩ : Task) with id := k + 9 }) }; s.tasks.head?.map (fun k => (k.accepted, k.unread, k.held)) = some (false, false, false) ∧ (s.tasks.filter (fun x => x.accepted && x.die == 0)).length = 1024)
    ∧ (let s : State := { (queue1 (plainPkt &&& ~~~(1#1024 <<< 574)) up) with tasks := [(⟨5, 0, 0, 0, 1, 1, 0, 3, none, 0x40000, true, false, false⟩ : Task)] }; s.tasks.head?.map (fun k => (k.accepted, k.unread, k.held)) = some (false, true, false) ∧ mapHitB s 1 0x40000 128 false 0x40000 = true ∧ quietB s 0x40000 128 = true ∧ (let p : BitVec 1024 := BitVec.ofNat 1024 (s.peekN 0x40000 128); cwtRead p = false ∧ taskBad s.pkg false p 0 = false))
    ∧ (let s : State := { (queue1 0 up) with tasks := [(⟨5, 0, 0, 0, 1, 1, 0, 3, none, 0x40000, true, false, false⟩ : Task)] }; mapHitB s 1 0x40000 128 false 0x40000 = true ∧ quietB s 0x40000 128 = true ∧ s.tasks.all (fun k => taskBad s.pkg (s.rootPriv k) (BitVec.ofNat 1024 (s.peekN 0x40000 128)) 0) = true) :=
  by refine ⟨?_, ?_, ?_, ?_, ?_, ?_, ?_⟩ <;> decide +kernel

/-- R364, R365: a launch on packages 0 to 2: its first ARM, its last, its deadline; GO or ABORT awaited; reports due, made and awaited. -/
theorem test_meets_several_packages :
    (let s : State := up; s.pkg = 0 ∧ s.ctxValid 1 = true ∧ s.ctxValid 2 = false ∧ s.bu.phase = 5
      ∧ packetBad s.pkg true (plainPkt + (2#1024 <<< 320) ||| (7#1024 <<< 256)) 0 = false ∧ packetBad s.pkg true 0 0 = true
      ∧ (plainPkt + (2#1024 <<< 320) ||| (7#1024 <<< 256)).getLsbD 573 = false ∧ s.grids = [] ∧ s.stamped 1 0 = none)
    ∧ (let s : State := { up with bu := { up.bu with phase := 4 } }; s.bu.phase ≠ 5 ∧ s.ctxValid 1 = true)
    ∧ (let s : State := { up with grids := [{ up.newGrid (plainPkt + (2#1024 <<< 320) ||| (7#1024 <<< 256)) 0 1 (some 1) 0 0 3 (.arming 9) with armed := [0], dones := [] }], timer := 8, groups := [] }; (s.stamped 1 0).map (fun d => (d.phase, s.others d.pkt, s.pkgs d.pkt)) = some (.arming 9, [1, 2], [0, 1, 2]) ∧ s.grids.all (fun d => d.armed == [0]) = true ∧ s.timer < 9)
    ∧ (let s : State := { up with grids := [{ up.newGrid (plainPkt + (2#1024 <<< 320) ||| (7#1024 <<< 256)) 0 1 (some 1) 0 0 3 (.arming 9) with armed := [0, 1], dones := [] }], timer := 9, groups := [] }; (s.stamped 1 0).map (fun d => (d.phase, s.others d.pkt, s.pkgs d.pkt)) = some (.arming 9, [1, 2], [0, 1, 2]) ∧ s.grids.all (fun d => (s.pkgs d.pkt).all (fun k => d.armed.contains k || k == 2)) = true ∧ 9 ≤ s.timer)
    ∧ (let s : State := { up with grids := [{ up.newGrid (plainPkt + (2#1024 <<< 320) ||| (7#1024 <<< 256)) 0 1 (some 1) 1 0 3 .await with armed := [], dones := [] }], timer := 0, groups := [] }; (s.stamped 1 0).map (fun d => (d.phase, s.others d.pkt, s.pkgs d.pkt)) = some (.await, [1, 2], [0, 1, 2]))
    ∧ (let s : State := { up with grids := [{ up.newGrid (plainPkt + (2#1024 <<< 320) ||| (7#1024 <<< 256)) 0 1 (some 1) 1 0 3 .placing with armed := [], dones := [] }], timer := 0, groups := [] }; (s.stamped 1 0).map (fun d => (d.phase, s.others d.pkt, s.pkgs d.pkt)) = some (.placing, [1, 2], [0, 1, 2]) ∧ s.grids.all (fun d => d.origin != s.pkg && !s.doneDue d) = true)
    ∧ (let s : State := let s : State := { up with grids := [{ up.newGrid (plainPkt + (2#1024 <<< 320) ||| (7#1024 <<< 256)) 0 1 (some 1) 1 0 3 .placing with armed := [], dones := [] }], timer := 0, groups := [] }; { s with grids := s.grids.map (fun d => { d with next := d.last }) }; s.grids.all (fun d => s.doneDue d) = true)
    ∧ (let s : State := { up with grids := [{ up.newGrid (plainPkt + (2#1024 <<< 320) ||| (7#1024 <<< 256)) 0 1 (some 1) 0 0 3 .placing with armed := [], dones := [1] }], timer := 0, groups := [] }; s.grids.all (fun d => d.origin == s.pkg && (s.others d.pkt).contains 2 && !d.dones.contains 2 && d.dones.contains 1 && (s.grid? d.id == some d)) = true)
    ∧ (let s : State := let s : State := { up with grids := [{ up.newGrid (plainPkt + (2#1024 <<< 320) ||| (7#1024 <<< 256)) 0 1 (some 1) 0 0 3 .placing with armed := [], dones := [1] }], timer := 0, groups := [] }; { s with grids := s.grids.map (fun d => { d with tstart := 7, counts := [(3, 0xFFFFFFFE)] }) }; s.grids.all (fun d => d.tstart != 0 && decide (tget 0 d.counts 3 < 2 ^ 32)) = true ∧ tget 0 (⟨9, [(3, 2)]⟩ : DoneReport).counts 3 < 2 ^ 32) :=
  by refine ⟨?_, ?_, ?_, ?_, ?_, ?_, ?_, ?_, ?_⟩ <;> decide +kernel

/-- R357: a task with and without SIGNAL; a launch whose record is written, whose context is not valid, whose ring is refused. -/
theorem test_meets_records :
    (let s : State := up; s.grid? 9 = none)
    ∧ (let s : State := { queue1 plainPkt up with grids := [{ up.newGrid plainPkt 0 1 none 0 0 3 .refused with id := 9, status := some 1 }] }; (s.grid? 9).map (fun d => (d.queue, s.recordDue d, s.signalStalls d, signalOk d.pkt)) = some (none, true, false, false))
    ∧ (let s : State := { queue1 (plainPkt ||| (0x40100#1024 <<< 640) ||| (77#1024 <<< 704)) up with grids := [{ up.newGrid (plainPkt ||| (0x40100#1024 <<< 640) ||| (77#1024 <<< 704)) 0 1 none 0 0 3 .refused with id := 9, status := some 1 }] }; (s.grid? 9).map (fun d => (d.queue, s.recordDue d, s.signalStalls d, signalOk d.pkt)) = some (none, true, false, true) ∧ mapHitB s 1 0x40100 8 true 0x40100 = true ∧ quietB s 0x40100 8 = true ∧ s.ctxValid 1 = true)
    ∧ (let s : State := { queue1 plainPkt up with grids := [{ up.newGrid plainPkt 0 1 (some 1) 0 0 3 .refused with id := 9, status := some 1 }] }; (s.grid? 9).map (fun d => (d.queue, s.recordDue d, s.signalStalls d, signalOk d.pkt)) = some (some 1, true, false, false) ∧ mapHitB s 1 0x40800 128 true 0x40800 = true ∧ quietB s 0x40800 128 = true ∧ s.qd 1 136 16 = 1 ∧ s.idx 1 2 = 0)
    ∧ (let s : State := let s : State := { queue1 plainPkt up with grids := [{ up.newGrid plainPkt 0 1 (some 1) 0 0 3 .refused with id := 9, status := some 1 }] }; { s with grids := s.grids.map (fun d => { d with lastEnd := 4 }) ++ s.grids.map (fun d => { d with id := 10, lastEnd := 5 }) }; (s.grid? 9).map (fun d => (s.recordDue d, s.gridOver d, d.lastEnd)) = some (true, true, 4) ∧ (s.grid? 10).map (fun d => (d.queue, s.recordDue d, s.gridOver d, d.lastEnd)) = some (some 1, false, true, 5))
    ∧ (let s : State := ({ queue1 plainPkt up with grids := [{ up.newGrid plainPkt 0 1 (some 1) 0 0 3 .refused with id := 9, status := some 1 }] }).setQd 1 136 16 2; (s.grid? 9).map (fun d => (d.queue, s.recordDue d, s.signalStalls d, signalOk d.pkt)) = some (some 1, true, false, false) ∧ s.ctxValid 2 = false)
    ∧ (let s : State := ({ queue1 plainPkt up with grids := [{ up.newGrid plainPkt 0 1 (some 1) 0 0 3 .refused with id := 9, status := some 1 }] }).setQd 1 64 64 (2 ^ 56); (s.grid? 9).map (fun d => (d.queue, s.recordDue d, s.signalStalls d, signalOk d.pkt)) = some (some 1, true, false, false) ∧ 2 ^ 56 ≤ s.qd 1 64 64) :=
  by refine ⟨?_, ?_, ?_, ?_, ?_, ?_, ?_⟩ <;> decide +kernel

/-! ## Hypotheses met: the driver (R367 to R392) -/

/-- R383: every operation and the numbers below and above them; a block; a reserved field; no command; a context that is not valid. -/
theorem test_meets_commands :
    (let s : State := cmd (0 + 1 * 2 ^ 16 + 0) up; cmdB s (0 + 1 * 2 ^ 16 + 0) = true ∧ s.ctxValid 1 = true ∧ s.ctxFlips 1 = false)
    ∧ (let s : State := cmd (1 + 1 * 2 ^ 16 + 0) up; cmdB s (1 + 1 * 2 ^ 16 + 0) = true ∧ s.ctxValid 1 = true ∧ s.ctxFlips 1 = false)
    ∧ (let s : State := cmd (2 + 1 * 2 ^ 16 + 0) up; cmdB s (2 + 1 * 2 ^ 16 + 0) = true ∧ s.ctxValid 1 = true ∧ s.ctxFlips 1 = false)
    ∧ (let s : State := cmd (3 + 1 * 2 ^ 16 + 0) up; cmdB s (3 + 1 * 2 ^ 16 + 0) = true ∧ s.ctxValid 1 = true ∧ s.ctxFlips 1 = false)
    ∧ (let s : State := cmd (4 + 1 * 2 ^ 16 + 0) up; cmdB s (4 + 1 * 2 ^ 16 + 0) = true ∧ s.ctxValid 1 = true ∧ s.ctxFlips 1 = false)
    ∧ (let s : State := cmd (5 + 1 * 2 ^ 16 + 0) up; cmdB s (5 + 1 * 2 ^ 16 + 0) = true ∧ s.ctxValid 1 = true ∧ s.ctxFlips 1 = false)
    ∧ (let s : State := cmd (6 + 1 * 2 ^ 16 + 0) up; cmdB s (6 + 1 * 2 ^ 16 + 0) = true ∧ s.ctxValid 1 = true ∧ s.ctxFlips 1 = false)
    ∧ (let s : State := cmd (7 + 1 * 2 ^ 16 + 0) up; cmdB s (7 + 1 * 2 ^ 16 + 0) = true ∧ s.ctxValid 1 = true ∧ s.ctxFlips 1 = false)
    ∧ (let s : State := cmd (8 + 1 * 2 ^ 16 + 0) up; cmdB s (8 + 1 * 2 ^ 16 + 0) = true ∧ s.ctxValid 1 = true ∧ s.ctxFlips 1 = false)
    ∧ (let s : State := cmd (9 + 1 * 2 ^ 16 + 0) up; cmdB s (9 + 1 * 2 ^ 16 + 0) = true ∧ s.ctxValid 1 = true ∧ s.ctxFlips 1 = false)
    ∧ (let s : State := cmd (10 + 1 * 2 ^ 16 + 0) up; cmdB s (10 + 1 * 2 ^ 16 + 0) = true ∧ s.ctxValid 1 = true ∧ s.ctxFlips 1 = false)
    ∧ (let s : State := cmd (11 + 1 * 2 ^ 16 + 0) up; cmdB s (11 + 1 * 2 ^ 16 + 0) = true ∧ s.ctxValid 1 = true ∧ s.ctxFlips 1 = false)
    ∧ (let s : State := cmd (1 + 1 * 2 ^ 16 + 0x40000 * 2 ^ 64 + 0x1000 * 2 ^ 128) up; cmdB s (1 + 1 * 2 ^ 16 + 0x40000 * 2 ^ 64 + 0x1000 * 2 ^ 128) = true
      ∧ s.ctxValid 1 = true ∧ s.ctxFlips 1 = false ∧ s.tlb.all (fun e => e.ctx == 1 && e.vpn == 0x40) = true)
    ∧ (let s : State := cmd (2 + 1 * 2 ^ 16 + 2 ^ 192) up; cmdB s (2 + 1 * 2 ^ 16 + 2 ^ 192) = true ∧ s.ctxValid 1 = true ∧ s.ctxFlips 1 = false)
    ∧ (let s : State := up.barSet 0x200018 0; s.barFld 0x200018 0 32 = s.barFld 0x200018 32 32)
    ∧ (let s : State := { cmd (1 + 2 ^ 16) up with flips := [⟨0x20, true, [], []⟩] }; cmdB s (1 + 2 ^ 16) = true ∧ s.ctxValid 1 = true ∧ s.ctxFlips 1 = true)
    ∧ (let s : State := cmd (1 + 2 * 2 ^ 16) up; cmdB s (1 + 2 * 2 ^ 16) = true ∧ s.ctxValid 2 = false) :=
  by refine ⟨?_, ?_, ?_, ?_, ?_, ?_, ?_, ?_, ?_, ?_, ?_, ?_, ?_, ?_, ?_, ?_, ?_⟩ <;> decide +kernel

/-- R385, R386: a reply to each kind of waiter, to none, and to the log of 251 and of 252 entries and without a save area. -/
theorem test_meets_replies :
    (let s : State := let s : State := cmd (5 + 2 ^ 16 + 3 * 2 ^ 32 + 0) up; { (s.ctxPut 1 96 2 1) with faults := [(⟨7, some 3, 1, 0, 0, 1, 0, 3, 0, 0, 0, 0, 0, 0, 0, 0, 0, 0, [.ringRead 1], 0, 0⟩ : FaultEv)] }; cmdB s (5 + 2 ^ 16 + 3 * 2 ^ 32 + 0) = true ∧ s.ctxState 1 = 1 ∧ s.epoch 1 = 0 ∧ s.faults.map (fun f => (f.seq, f.ctx, f.kind, f.waiters.length)) = [(some 3, 1, 1, 1)])
    ∧ (let s : State := let s : State := cmd (5 + 2 ^ 16 + 3 * 2 ^ 32 + 2 ^ 8) up; { (s.ctxPut 1 96 2 1) with faults := [(⟨7, some 3, 1, 0, 0, 1, 0, 3, 0, 0, 0, 0, 0, 0, 0, 0, 0, 0, [.ringWrite 9], 0, 0⟩ : FaultEv)], grids := [{ up.newGrid plainPkt 0 1 (some 1) 0 0 3 .placing with id := 9 }] }; cmdB s (5 + 2 ^ 16 + 3 * 2 ^ 32 + 2 ^ 8) = true ∧ s.ctxState 1 = 1 ∧ s.epoch 1 = 0 ∧ s.faults.map (fun f => (f.seq, f.ctx, f.kind, f.waiters.length)) = [(some 3, 1, 1, 1)] ∧ (s.grid? 9).map (fun d => d.queue) = some (some 1))
    ∧ (let s : State := let s : State := cmd (5 + 2 ^ 16 + 3 * 2 ^ 32 + 0) up; { (s.ctxPut 1 96 2 1) with faults := [(⟨7, some 3, 1, 0, 0, 1, 0, 3, 0, 0, 0, 0, 0, 0, 0, 0, 0, 0, [.job 4], 0, 0⟩ : FaultEv)], jobs := [(⟨4, 1, 0, 0, 5, 2, 0, false, false, 0, 1, 0, (.stalled 7), 0, 0, [], true, 0, false, false, 0, 0, 0, [], 0, 0, 0, 0, 0, []⟩ : Job)] }; cmdB s (5 + 2 ^ 16 + 3 * 2 ^ 32 + 0) = true ∧ s.ctxState 1 = 1 ∧ s.epoch 1 = 0 ∧ s.faults.map (fun f => (f.seq, f.ctx, f.kind, f.waiters.length)) = [(some 3, 1, 1, 1)] ∧ (s.job? 4).map (fun j => (j.st, j.lock)) = some (.stalled 7, true))
    ∧ (let s : State := let s : State := cmd (5 + 2 ^ 16 + 3 * 2 ^ 32) (benchOf 0 (onSubs (fun u => { u with st := .parked 7, run := none })) id (fun s => { s with bar := up.bar, mem := up.mem })); let u := ((s.groups.head?.bind (fun g => g.warps.head?)).bind (fun w => w.subs.head?)).map (fun u => u.id); { (s.ctxPut 1 96 2 1) with faults := [{ (⟨7, some 3, 1, 0, 0, 1, 0, 3, 0, 0, 0, 0, 0, 0, 0, 0, 0, 0, [], 0, 0⟩ : FaultEv) with waiters := [.sub 2 0 (u.getD 0) default] }] }; cmdB s (5 + 2 ^ 16 + 3 * 2 ^ 32 + 0) = true ∧ s.ctxState 1 = 1 ∧ s.epoch 1 = 0 ∧ s.faults.map (fun f => (f.seq, f.ctx, f.kind, f.waiters.length)) = [(some 3, 1, 1, 1)] ∧ s.faults.all (fun f => f.waiters.all (fun w => match w with | .sub g k u _ => (match s.sub? g k u with | some x => x.st == .parked 7 | none => false) | _ => false)) = true)
    ∧ (let s : State := let s : State := cmd (5 + 2 ^ 16 + 3 * 2 ^ 32 + 0) up; { (s.ctxPut 1 96 2 1) with faults := [] }; s.ctxState 1 = 1 ∧ s.faults = [])
    ∧ (let s : State := let s : State := cmd (5 + 2 ^ 16 + 3 * 2 ^ 32 + 0xFFFF * 2 ^ 128) up; (((s.ctxPut 1 96 2 2).ctxPut 1 128 64 0x50000).ctxPut 1 80 16 0).store 0x50010 (leBytes 4 251); s.ctxState 1 = 2 ∧ (0xFFFF : BitVec 16) = s.epoch 1 - 1 ∧ s.saveAt 1 = some 0x50000 ∧ s.saveStalls 1 = false ∧ s.peekN 0x50010 4 < 252)
    ∧ (let s : State := let s : State := let s : State := cmd (5 + 2 ^ 16 + 3 * 2 ^ 32 + 0xFFFF * 2 ^ 128) up; (((s.ctxPut 1 96 2 2).ctxPut 1 128 64 0x50000).ctxPut 1 80 16 0).store 0x50010 (leBytes 4 0); { s with flips := [⟨0x50, true, [], []⟩] }; s.ctxState 1 = 2 ∧ s.saveStalls 1 = true)
    ∧ (let s : State := let s : State := cmd (5 + 2 ^ 16 + 3 * 2 ^ 32 + 0xFFFF * 2 ^ 128) up; (((s.ctxPut 1 96 2 2).ctxPut 1 128 64 0x50000).ctxPut 1 80 16 0).store 0x50010 (leBytes 4 252); s.saveAt 1 = some 0x50000 ∧ 252 ≤ s.peekN 0x50010 4)
    ∧ (let s : State := let s : State := cmd (5 + 2 ^ 16 + 3 * 2 ^ 32 + 0xFFFF * 2 ^ 128) up; (((s.ctxPut 1 96 2 2).ctxPut 1 128 64 (2 ^ 49)).ctxPut 1 80 16 0).store 0x50010 (leBytes 4 0); 2 ≤ s.ctxState 1 ∧ s.saveAt 1 = none) :=
  by refine ⟨?_, ?_, ?_, ?_, ?_, ?_, ?_, ?_, ?_⟩ <;> decide +kernel

/-- R380, R382: a ring with one place left, across the wrap of its index, and full rings. -/
theorem test_meets_fault_records :
    (let s : State := { (up.barSet 0x200020 0x60000).barSet 0x200028 0xFFFFFFFF with faults := [{ (⟨7, some 3, 1, 0, 0, 1, 0, 3, 0, 0, 0, 0, 0, 0, 0, 0, 0, 0, [], 0, 0⟩ : FaultEv) with seq := none }] }; s.barFld 0x200028 0 32 = 0xFFFFFFFF ∧ 16 ≤ (s.barFld 0x200028 0 32 + 2 ^ 32 - s.barFld 0x200028 32 32) % 2 ^ 32)
    ∧ (let s : State := { (up.barSet 0x200020 0x60000).barSet 0x200028 0xFFFFFFF00000000E with faults := [{ (⟨7, some 3, 1, 0, 0, 1, 0, 3, 0, 0, 0, 0, 0, 0, 0, 0, 0, 0, [], 0, 0⟩ : FaultEv) with seq := none }] }; (s.barFld 0x200028 0 32 + 2 ^ 32 - s.barFld 0x200028 32 32) % 2 ^ 32 ≥ 16)
    ∧ (let s : State := { (up.barSet 0x200020 0x60000).barSet 0x200028 (0x5 + 0xFFFFFFF6 * 2 ^ 32) with faults := [{ (⟨7, some 3, 1, 0, 0, 1, 0, 3, 0, 0, 0, 0, 0, 0, 0, 0, 0, 0, [], 0, 0⟩ : FaultEv) with seq := none }] }; (s.barFld 0x200028 0 32 + 2 ^ 32 - s.barFld 0x200028 32 32) % 2 ^ 32 = 15 ∧ s.canonPa (0x60000 + 64 * (5 % 16)) = some 0x60140 ∧ s.unreachable 0x60140 = false ∧ s.faults.all (fun f => f.seq.isNone) = true ∧ s.flipIn 0x60140 64 = false)
    ∧ (let s : State := { { (up.barSet 0x200020 0x60000).barSet 0x200028 (0x5 + 0xFFFFFFF6 * 2 ^ 32) with faults := [{ (⟨7, some 3, 1, 0, 0, 1, 0, 3, 0, 0, 0, 0, 0, 0, 0, 0, 0, 0, [], 0, 0⟩ : FaultEv) with seq := none }] } with flips := [⟨0x60, true, [], []⟩] }; s.canonPa (0x60000 + 64 * (5 % 16)) = some 0x60140 ∧ s.flipIn 0x60140 64 = true)
    ∧ (let s : State := { (up.barSet 0x200020 0x60000).barSet 0x200028 7 with faults := [{ (⟨7, some 3, 1, 0, 0, 1, 0, 3, 0, 0, 0, 0, 0, 0, 0, 0, 0, 0, [], 0, 0⟩ : FaultEv) with merged := 70000, wrote := 65534 }, { (⟨7, some 3, 1, 0, 0, 1, 0, 3, 0, 0, 0, 0, 0, 0, 0, 0, 0, 0, [], 0, 0⟩ : FaultEv) with fid := 8, seq := none }] }; s.faults.map (fun f => (f.fid, f.seq, decide (f.wrote < min f.merged 65535))) = [(7, some 3, true), (8, none, false)] ∧ s.barFld 0x200028 0 32 = 7 ∧ s.canonPa (0x60000 + 64 * 3) = some 0x600C0 ∧ s.flipIn 0x600C0 64 = false ∧ s.unreachable 0x600C0 = false) :=
  by refine ⟨?_, ?_, ?_, ?_, ?_⟩ <;> decide +kernel

theorem test_meets_walks :
    (let s : State := let s : State := { up with tlb := [] }; ((s.ctxPut 1 0 64 0x50000).store 0x50000 (leBytes 8 0x51000001)).store 0x51000 (leBytes 8 (0x7D + 0x80000000 * 0)); s.tlb.find? (fun e => e.covers ⟨some 575, 575 / 144, 1⟩ 0x40000) = none ∧ s.walkCache = [] ∧ s.coreRuns 575 = true ∧ s.ctxValid 1 = true ∧ s.canonPa 0x50000 = some 0x50000 ∧ quietB s 0x50000 8 = true)
    ∧ (let s : State := up; s.canonPa (leafPa 0x4000007D 3 0x40FFF) = some 0x40FFF ∧ (0x4000007D : DWord).getLsbD 2 = true ∧ (0x40000075 : DWord).getLsbD 3 = false
      ∧ s.ctxFld 1 65 1 = 0)
    ∧ (let s : State := up; s.flipAt 0x50000 = none ∧ (0x4000005D : DWord).getLsbD 5 = false)
    ∧ (let s : State := { up with flips := [⟨0x50, true, [], []⟩] }; s.flipAt 0x50000 = some 0x50 ∧ (0x4000005D : DWord).getLsbD 2 = true ∧ (0x4000005D : DWord).getLsbD 5 = false)
    ∧ (let s : State := up; s.tlb.any (fun e => e.covers ⟨some 3, 3 / 144, 1⟩ 0x40FFF) = true) :=
  by refine ⟨?_, ?_, ?_, ?_, ?_⟩ <;> decide +kernel

/-- A packet with the least footprint, and a group of it that is to be saved. -/
def smallPkt : BitVec 1024 := BitVec.ofNat 1024 (benchAt + 2 ^ 320 + 2 ^ 352 + 2 ^ 368 + 2 ^ 448 + 2 ^ 574)
def smallGroup (s : State) : Group :=
  let g := State.benchGroup s (s.newGrid smallPkt 0 1 none 0 0 3 .placing) 0
  { g with lent := none, warps := g.warps.map (fun w => { w with av := 8, as := 8, subs := w.subs.map (fun u => { u with run := none }) }) }
/-- The driver's context 1 with a save area of `n` pages at 0x50000, in a state. -/
def areaOf (st n : Nat) (s : State) : State := ((s.ctxPut 1 128 64 0x50000).ctxPut 1 192 32 n).ctxPut 1 96 2 st
/-- A grid of `smallPkt` with its one group placed, and the context being saved. -/
def smallSave (s : State) : State :=
  let d := { s.newGrid smallPkt 0 1 none 0 0 3 .placing with next := 1 }
  { s.setCtx { s.ctx 1 with hold := true, saving := true } with grids := [d], groups := [smallGroup { s with grids := [d] }] }
/-- The context saved, its image kept. -/
def smallImage (s : State) : State :=
  let d := { s.newGrid smallPkt 0 1 none 0 0 3 .placing with next := 1 }
  let s : State := { s with grids := [d] }
  s.setCtx { s.ctx 1 with image := some ⟨[smallGroup s], [], [d], [], [], 0⟩ }

/-- R387 to R390: PREEMPT before and after a save; a save of nothing, one that does not fit, one that does; RESUME without and with an image. -/
theorem test_meets_contexts :
    (let s : State := let s : State := areaOf 1 0 (cmd (6 + 2 ^ 16) up); s; cmdB s (6 + 2 ^ 16) = true ∧ (s.ctx 1).saving = false ∧ s.ctxState 1 < 2)
    ∧ (let s : State := let s : State := areaOf 1 0 (cmd (6 + 2 ^ 16) up); s.ctxPut 1 96 2 2; (s.ctx 1).saving = false ∧ 2 ≤ s.ctxState 1)
    ∧ (let s : State := let s : State := areaOf 1 0 (cmd (6 + 2 ^ 16) up); s.setCtx { s.ctx 1 with saving := true }; (s.ctx 1).saving = true ∧ s.drained 1 = true
      ∧ s.nothingSaved 1 = true)
    ∧ (let s : State := let s : State := areaOf 1 0 (cmd (6 + 2 ^ 16) up); smallSave s; (s.ctx 1).saving = true ∧ s.drained 1 = true ∧ s.nothingSaved 1 = false
      ∧ s.saveFits 1 = false)
    ∧ (let s : State := let s : State := areaOf 1 1048576 (cmd (6 + 2 ^ 16) up); smallSave s; (s.ctx 1).saving = true ∧ s.drained 1 = true ∧ s.nothingSaved 1 = false
      ∧ s.saveFits 1 = true ∧ s.saveStalls 1 = false ∧ s.saveAt 1 = some 0x50000 ∧ s.redbuf = [] ∧ s.ctxAddr 1 + 16 ≤ 0x50000 ∧ s.saveBytes 1 < 2 ^ 32
      ∧ s.canonPa (s.ctxAddr 1 + 8) = some (s.ctxAddr 1 + 8)
      ∧ (s.savedGroups 1).map (fun g => (g.warps.length, g.warps.map (fun w => w.exited), g.ended, g.lent.isNone, g.palOps.length)) = [(1, [false], false, true, 0)]
      ∧ smallPkt.getLsbD 573 = false
      ∧ s.ctxJobs 1 = [] ∧ s.heldCount 1 = 0 ∧ s.coopGrids 1 = [])
    ∧ (let s : State := cmd (7 + 2 ^ 16) up; cmdB s (7 + 2 ^ 16) = true ∧ (s.ctx 1).image = none)
    ∧ (let s : State := smallImage (areaOf 3 9 (cmd (7 + 2 ^ 16) up)); cmdB s (7 + 2 ^ 16) = true ∧ s.ctxFlips 1 = false ∧ s.ctxState 1 = 3 ∧ s.saveAt 1 = some 0x50000
      ∧ s.saveStalls 1 = false ∧ (s.ctx 1).image.any (fun im => s.kept 0x50000 im) = true ∧ s.bu.tripped = false ∧ s.faults = [] ∧ s.peekN 0x50018 4 = 0
      ∧ (let im := s.reread 0x50000 (s.imageAt 1 0x50000); im.jobs = [] ∧ im.grids.all (fun d => s.grids.any (fun e => e.id == d.id) && !isCoop d.pkt && d.pkt == smallPkt) = true
          ∧ im.groups.map (fun g => (g.team, (s.findUnit (s.pktOf g)).map (fun l => l.length), g.ended, s.ctxOf g, g.palOps.length, g.lent.isNone)) = [(0, some 1, false, 1, 0, true)]))
    ∧ (let s : State := { smallImage (areaOf 3 9 (cmd (7 + 2 ^ 16) up)) with bu := { up.bu with tripped := true } }; s.bu.tripped = true ∧ cmdB s (7 + 2 ^ 16) = true
      ∧ s.ctxState 1 = 3)
    ∧ (let s : State := smallImage (areaOf 3 0 (cmd (7 + 2 ^ 16) (up.ctxPut 1 128 64 (2 ^ 49))) |>.ctxPut 1 128 64 (2 ^ 49)); s.ctxState 1 = 3 ∧ s.saveAt 1 = none)
    ∧ (let s : State := { areaOf 1 9 (cmd (6 + 2 ^ 16) up) with flips := [⟨0x20, true, [], []⟩] }; cmdB s (6 + 2 ^ 16) = true ∧ s.ctxFlips 1 = true)
    ∧ (let s : State := { smallSave (areaOf 1 9 (cmd (6 + 2 ^ 16) up)) with flips := [⟨0x51, true, [], []⟩] }; (s.ctx 1).saving = true ∧ s.drained 1 = true
      ∧ s.nothingSaved 1 = false ∧ s.saveStalls 1 = true) :=
  by refine ⟨?_, ?_, ?_, ?_, ?_, ?_, ?_, ?_, ?_, ?_, ?_⟩ <;> decide +kernel

theorem test_every_low_address_is_reached : ∀ (s : State) (a : Nat), a < 2 ^ 40 → s.unreachable a = false :=
  by
  intro s a h
  have h2 : paTop a = 0 := by unfold paTop; omega
  simp [State.unreachable, isPeer, h2]

/-! ## Hypotheses met: engines, the host, power and bring-up (R73 to R84, R233 to R235, R293 to R298, R325 to R429) -/

/-- R73: the first of a warp, a later one, an accepted one, and an engine that holds 64. -/
theorem test_meets_job_acceptance :
    (let s : State := { (bench 0) with jobs := [(⟨4, 2, 0, 0, 5, 1, 0x0, false, false, 0, 0, 0, .queued, 0, 0, [], false, 0, false, false, 0, 0, 0, [], 0, 0, 0, 0, 0, []⟩ : Job)] }; (match s.job? 4, s.group? 2 with | some j, some _ => j.st == .queued && s.jobs.all (fun e => decide (j.id ≤ e.id)) | _, _ => false) = true)
    ∧ (let s : State := { (bench 0) with jobs := [(⟨4, 2, 0, 0, 5, 1, 0x0, false, false, 0, 0, 0, .queued, 0, 0, [], false, 0, false, false, 0, 0, 0, [], 0, 0, 0, 0, 0, []⟩ : Job), (⟨3, 2, 0, 0, 5, 1, 0x0, false, false, 0, 0, 0, .queued, 0, 0, [], false, 0, false, false, 0, 0, 0, [], 0, 0, 0, 0, 0, []⟩ : Job)] }; (match s.job? 4, s.group? 2 with | some j, some _ => s.jobs.any (fun e => decide (e.id < j.id)) | _, _ => false) = true)
    ∧ (let s : State := { (bench 0) with jobs := [(⟨4, 2, 0, 0, 5, 1, 0x0, false, false, 0, 0, 0, .accepted, 0, 0, [], false, 0, false, false, 0, 0, 0, [], 0, 0, 0, 0, 0, []⟩ : Job)] }; (match s.job? 4, s.group? 2 with | some j, some _ => j.st != .queued | _, _ => false) = true)
    ∧ (let s : State := bench 0; s.job? 4 = none)
    ∧ (let s : State := { (bench 0) with jobs := (⟨4, 2, 0, 0, 5, 1, 0x0, false, false, 0, 0, 0, .queued, 0, 0, [], false, 0, false, false, 0, 0, 0, [], 0, 0, 0, 0, 0, []⟩ : Job) :: (List.range 64).map (fun k => { (⟨4, 2, 0, 0, 5, 1, 0x0, false, false, 0, 0, 0, .accepted, 0, 0, [], false, 0, false, false, 0, 0, 0, [], 0, 0, 0, 0, 0, []⟩ : Job) with id := k + 9 }) }; (match s.job? 4, s.group? 2 with | some j, some _ => j.st == .queued && (s.jobs.filter (fun e => e.die == j.die && e.kind == j.kind && e.st != .queued && e.st != .ended)).length == 64 | _, _ => false) = true) :=
  by refine ⟨?_, ?_, ?_, ?_, ?_⟩ <;> decide +kernel

/-- R233, R295: the last unit of a copy; a row copied, gathered, scattered and filled; an index outside the record; a target on tagged words; records misaligned, outside memory, sound and malformed. -/
theorem test_meets_tile_copies :
    (let s : State := bench 0; s.job? 4 = none)
    ∧ (let s : State := { (bench 0) with jobs := [(⟨4, 2, 0, 0, 5, 1, 0x0, false, false, 0, 0, 0, .queued, 0, 0, [], false, 0, false, false, 0, 0, 0, [], 0, 0, 0, 0, 0, []⟩ : Job)] }; (match s.job? 4, s.group? 2 with | some j, some _ => j.st != .accepted | _, _ => false) = true)
    ∧ (let s : State := { (bench 0) with jobs := [(⟨4, 2, 0, 0, 5, 1, 0x20F000000000001000F000000000000000, true, false, 0, 0, 0, .accepted, 0, 0, [], false, 1, false, false, 0, 0, 0, [], 0, 0, 0, 0, 0, []⟩ : Job)] }; (match s.job? 4, s.group? 2 with | some j, some g => j.kind == 1 && j.st == .accepted && !s.jobWaits g j && j.inRegion false 0xF000000000000010 16 && (jobAt s j g false 0xF000000000000010 16).isSome && j.inRegion true 0xF000000000001010 16 && (jobAt s j g true 0xF000000000001010 16).isSome && (j.card.extractLsb' 128 64).toNat / 16 == j.unit + 1 | _, _ => false) = true)
    ∧ (let s : State := { (bench 0) with jobs := [(⟨4, 2, 0, 0, 5, 1, 0xF0000000000008000000000000000000000000000000000000000000000000000000000000000000000000000000000000000000000000000000000000001000F0000000000010000000000000000000000000000000000000000000000000000000000000000000000000000000000000000000000000000000000000001000F0000000000000000000000000000000000000000000000000000000000000000000000000000001, false, false, 0, 0, 0, .accepted, 0, 0, [0x100010000400000004F000000000000000, 0x100010000400000004F000000000001000], false, 3, false, false, 0, 0, 0, [], 0, 0, 0, 0, 0, []⟩ : Job)], groups := (bench 0).groups.map (fun g => { g with scratch := putBytes [] 2060 (leBytes 4 0x3) }) }; (match s.job? 4, s.group? 2 with | some j, some g => j.kind == 1 && j.st == .accepted && !s.jobWaits g j && j.inRegion false 0xF000000000000030 16 && (jobAt s j g false 0xF000000000000030 16).isSome && j.inRegion true 0xF000000000001030 16 && (jobAt s j g true 0xF000000000001030 16).isSome | _, _ => false) = true)
    ∧ (let s : State := { (bench 0) with jobs := [(⟨4, 2, 0, 0, 5, 1, 0xF0000000000008000000000000000000000000000000000000000000000000000000000000000000000000000000000000000000000000000000000000001000F0000000000010000000000000000000000000000000000000000000000000000000000000000000000000000000000000000000000000000000000000001000F0000000000000000000000000000000000000000000000000000000000000000000000000000011, false, false, 0, 0, 0, .accepted, 0, 0, [0x100010000400000004F000000000000000, 0x100010000400000004F000000000001000], false, 3, false, false, 0, 0, 0, [], 0, 0, 0, 0, 0, []⟩ : Job)], groups := (bench 0).groups.map (fun g => { g with scratch := putBytes [] 2060 (leBytes 4 0x3) }) }; (match s.job? 4, s.group? 2 with | some j, some g => j.kind == 1 && j.st == .accepted && !s.jobWaits g j && j.inRegion false 0xF000000000000030 16 && (jobAt s j g false 0xF000000000000030 16).isSome && j.inRegion true 0xF000000000001030 16 && (jobAt s j g true 0xF000000000001030 16).isSome && j.inRegion false 0xF00000000000080C 4 && (jobAt s j g false 0xF00000000000080C 4).isSome && s.valueAt (.scr 2 0x80C) 4 == 3 | _, _ => false) = true)
    ∧ (let s : State := { (bench 0) with jobs := [(⟨4, 2, 0, 0, 5, 1, 0xF0000000000008000000000000000000000000000000000000000000000000000000000000000000000000000000000000000000000000000000000000001000F0000000000010000000000000000000000000000000000000000000000000000000000000000000000000000000000000000000000000000000000000001000F0000000000000000000000000000000000000000000000000000000000000000000000000000021, false, false, 0, 0, 0, .accepted, 0, 0, [0x100010000400000004F000000000000000, 0x100010000400000004F000000000001000], false, 3, false, false, 0, 0, 0, [], 0, 0, 0, 0, 0, []⟩ : Job)], groups := (bench 0).groups.map (fun g => { g with scratch := putBytes [] 2060 (leBytes 4 0x3) }) }; (match s.job? 4, s.group? 2 with | some j, some g => j.kind == 1 && j.st == .accepted && !s.jobWaits g j && j.inRegion false 0xF000000000000030 16 && (jobAt s j g false 0xF000000000000030 16).isSome && j.inRegion true 0xF000000000001030 16 && (jobAt s j g true 0xF000000000001030 16).isSome && j.inRegion false 0xF00000000000080C 4 && (jobAt s j g false 0xF00000000000080C 4).isSome && s.valueAt (.scr 2 0x80C) 4 == 3 | _, _ => false) = true)
    ∧ (let s : State := { (bench 0) with jobs := [(⟨4, 2, 0, 0, 5, 1, 0x1000F0000000000010000000000000000000000000000000000000000000000000000000000000000000000000000000000000000000000000000000000000001000F0000000000000000000000000000000000000000000000000000000000000000000000000000001, false, false, 0, 0, 0, .accepted, 0, 0, [0x100010000400000004F000000000000000, 0x100010000400000004F000000000001000], false, 2, false, false, 0, 0, 0, [], 0, 0, 0, 0, 0, []⟩ : Job)], groups := (bench 0).groups.map (fun g => { g with tags := [(0x102, ())] }) }; (match s.job? 4, s.group? 2 with | some j, some g => j.kind == 1 && j.st == .accepted && !s.jobWaits g j && j.inRegion false 0xF000000000000020 16 && (jobAt s j g false 0xF000000000000020 16).isSome && j.inRegion true 0xF000000000001020 16 && (jobAt s j g true 0xF000000000001020 16).isSome && s.tagged (.scr 2 0x1020) 16 | _, _ => false) = true)
    ∧ (let s : State := { (bench 0) with jobs := [(⟨4, 2, 0, 0, 5, 1, 0xF0000000000008000000000000000000000000000000000000000000000000000000000000000000000000000000000000000000000000000000000000001000F0000000000010000000000000000000000000000000000000000000000000000000000000000000000000000000000000000000000000000000000000001000F0000000000000000000000000000000000000000000000000000000000000000000000000000011, false, false, 0, 0, 0, .accepted, 0, 0, [0x100010000400000004F000000000000000, 0x100010000400000004F000000000001000], false, 3, false, false, 0, 0, 0, [], 0, 0, 0, 0, 0, []⟩ : Job)], groups := (bench 0).groups.map (fun g => { g with scratch := putBytes [] 2060 (leBytes 4 0x4) }) }; (match s.job? 4, s.group? 2 with | some j, some g => j.kind == 1 && j.st == .accepted && !s.jobWaits g j && j.inRegion false 0xF00000000000080C 4 && (jobAt s j g false 0xF00000000000080C 4).isSome && s.valueAt (.scr 2 0x80C) 4 == shRows 0x100010000400000004F000000000000000 | _, _ => false) = true)
    ∧ (let s : State := { (bench 0) with jobs := [(⟨4, 2, 0, 0, 5, 1, 0x1000F0000000000010000000000000000000000000000000000000000000000000000000000000000000000000000000000000000000000000000000000000001000F0000000000000000000000000000000000000000000000000000000000000000000000000000031, false, false, 0, 0, 0, .accepted, 0, 0, [0x100010000400000004F000000000001000], false, 3, false, false, 0, 0, 0, [], 0, 0, 0, 0, 0, []⟩ : Job)] }; (match s.job? 4, s.group? 2 with | some j, some g => j.kind == 1 && j.st == .accepted && !s.jobWaits g j && j.inRegion true 0xF000000000001030 16 && (jobAt s j g true 0xF000000000001030 16).isSome && j.unit + 1 == shRows 0x100010000400000004F000000000001000 | _, _ => false) = true)
    ∧ (let s : State := { (bench 0) with jobs := [(⟨4, 2, 0, 0, 5, 1, 0x10808000000000000000000000000000000000000000000000031, false, false, 0, 0, 0, .accepted, 0, 0, [], false, 0, false, false, 0, 0, 0, [], 0, 0, 0, 0, 0, []⟩ : Job)] }; (match s.job? 4, s.group? 2 with | some j, some g => j.kind == 1 && j.st == .accepted && !s.jobWaits g j && (j.card.extractLsb' 192 64).toNat % 16 == 8 | _, _ => false) = true)
    ∧ (let s : State := { (bench 0) with jobs := [(⟨4, 2, 0, 0, 5, 1, 0x100000000000000000000000000000000000000000000000000000000000031, false, false, 0, 0, 0, .accepted, 0, 0, [], false, 0, false, false, 0, 0, 0, [], 0, 0, 0, 0, 0, []⟩ : Job)] }; (match s.job? 4, s.group? 2 with | some j, some g => j.kind == 1 && j.st == .accepted && !s.jobWaits g j | _, _ => false) = true)
    ∧ (let s : State := { (bench 0) with jobs := [(⟨4, 2, 0, 0, 5, 1, 0x10800000000000000000000000000000000000000000000000031, false, false, 0, 0, 0, .accepted, 0, 0, [], false, 0, false, false, 0, 0, 0, [], 0, 0, 0, 0, 0, []⟩ : Job)], mem := (((bench 0).store 0x10400 (leBytes 192 0x100010000400000004F000000000000000)).store 0x10800 (leBytes 192 0x100010000400000004F000000000001000)).mem, tlb := [⟨576, 0, 0, 16, benchLeaf, 3⟩] }; (match s.job? 4, s.group? 2 with | some j, some g => j.kind == 1 && j.st == .accepted && !s.jobWaits g j&& (jobAt s j g false 0x10800 192).isSome && copyRecOk (BitVec.ofNat 1536 (s.valueAt (.phys 0x10800 false) 192)) | _, _ => false) = true)
    ∧ (let s : State := { (bench 0) with jobs := [(⟨4, 2, 0, 0, 5, 1, 0x10800000000000000000000000000000000000000000000000031, false, false, 0, 0, 0, .accepted, 0, 0, [], false, 0, false, false, 0, 0, 0, [], 0, 0, 0, 0, 0, []⟩ : Job)], mem := (((bench 0).store 0x10400 (leBytes 192 0x100010000400000004F000000000000000)).store 0x10800 (leBytes 192 0x0)).mem, tlb := [⟨576, 0, 0, 16, benchLeaf, 3⟩] }; (match s.job? 4, s.group? 2 with | some j, some g => j.kind == 1 && j.st == .accepted && !s.jobWaits g j&& (jobAt s j g false 0x10800 192).isSome && !copyRecOk (BitVec.ofNat 1536 (s.valueAt (.phys 0x10800 false) 192)) | _, _ => false) = true)
    ∧ (let s : State := { (bench 0) with jobs := [(⟨4, 2, 0, 0, 5, 1, 0x10800000000000001040000000000000000000000000000000001, false, false, 0, 0, 0, .accepted, 0, 0, [], false, 0, false, false, 0, 0, 0, [], 0, 0, 0, 0, 0, []⟩ : Job)], mem := (((bench 0).store 0x10400 (leBytes 192 0x100010000400000004F000000000000000)).store 0x10800 (leBytes 192 0x100010000400000004F000000000001000)).mem, tlb := [⟨576, 0, 0, 16, benchLeaf, 3⟩] }; (match s.job? 4, s.group? 2 with | some j, some g => j.kind == 1 && j.st == .accepted && !s.jobWaits g j&& (jobAt s j g false 0x10400 192).isSome&& (jobAt s j g false 0x10800 192).isSome && copyRecOk 0x100010000400000004F000000000000000 && copyRecOk 0x100010000400000004F000000000001000 && shRows 0x100010000400000004F000000000000000 == shRows 0x100010000400000004F000000000001000 && shLen 0x100010000400000004F000000000000000 == shLen 0x100010000400000004F000000000001000 | _, _ => false) = true) :=
  by refine ⟨?_, ?_, ?_, ?_, ?_, ?_, ?_, ?_, ?_, ?_, ?_, ?_, ?_, ?_⟩ <;> decide +kernel

theorem test_meets_job_ends :
    (let s : State := { (bench 0) with jobs := [(⟨4, 2, 0, 0, 5, 1, 0x0, false, false, 0, 0, 0, .ended, 0, 0, [], false, 0, false, false, 0, 0, 0, [], 0, 0, 0, 0, 0, []⟩ : Job)], groups := (bench 0).groups.map (fun g => { g with warps := g.warps.map (fun w => { w with tokens := [(5, ⟨4, false⟩)] }) }) }; (match s.job? 4, s.group? 2 with | some j, some g => j.st == .ended && (j.card.extractLsb' 64 64).toNat == 0 && (match g.warp? j.warp with | some w => (match tfind w.tokens j.tok with | some k => k.job == 4 | none => false) | none => false) | _, _ => false) = true)
    ∧ (let s : State := { (bench 0) with jobs := [(⟨4, 2, 0, 0, 5, 1, 0x108000000000000000001, false, false, 0, 0, 0, .ended, 0, 0, [], false, 0, false, false, 0, 0, 0, [], 0, 0, 0, 0, 0, []⟩ : Job)], groups := (bench 0).groups.map (fun g => { g with warps := g.warps.map (fun w => { w with tokens := [(5, ⟨3, false⟩)] }) }) }; (match s.job? 4, s.group? 2 with | some j, some g => j.st == .ended && !j.acopy && (j.card.extractLsb' 64 64).toNat / 2 ^ 56 == 0 && !(match g.warp? j.warp with | some w => (match tfind w.tokens j.tok with | some k => k.job == 4 | none => false) | none => false) | _, _ => false) = true)
    ∧ (let s : State := { (bench 0) with jobs := [(⟨4, 2, 0, 0, 5, 1, 0x0, false, false, 0, 0, 0, .accepted, 0, 0, [], false, 0, false, false, 0, 0, 0, [], 0, 0, 0, 0, 0, []⟩ : Job)] }; (match s.job? 4, s.group? 2 with | some j, some _ => j.st != .ended | _, _ => false) = true) :=
  by refine ⟨?_, ?_, ?_⟩ <;> decide +kernel

/-- R298, R325, R330: LOCK free and held, a malformed state, a misaligned one, four engines busy and three; a job that has its frames. -/
theorem test_meets_video_jobs :
    (let s : State := { (bench 0) with jobs := [(⟨4, 2, 0, 0, 5, 2, 0xF0000000000000400000000000000000000000000000000000000000000000000000000000000000000000000000000000000000000000000000000000001000F0000000000000000000000000000000000000000000000000000000000000000000000000000000000000000000000000000000000000000000000000001000F0000000000000000000000000000000000000000000000000000000000000000000000000000002, false, false, 0, 0, 0, .accepted, 0, 0, [0], false, 0, false, false, 0, 0, 0, [], 0, 0, 0, 0, 0, []⟩ : Job)] }; (match s.job? 4, s.group? 2 with | some j, some g => j.kind == 2 && j.st == .accepted && !s.jobWaits g j && j.inRegion false 0xF000000000000040 512 && (jobAt s j g false 0xF000000000000040 512).isSome && j.inRegion true 0xF000000000000040 4 && (jobAt s j g true 0xF000000000000040 4).isSome && j.recs != [] && (j.card.extractLsb' 1280 64).toNat % 64 == 0 && !streamBad (s.valueAt (.scr 2 64) 512) && s.valueAt (.scr 2 64) 512 % 2 ^ 32 == 0 && (s.jobs.filter (fun x => x.die == j.die && x.kind == 2 && x.lock && x.st != .suspended)).length == 0 | _, _ => false) = true)
    ∧ (let s : State := { (bench 0) with jobs := [(⟨4, 2, 0, 0, 5, 2, 0xF0000000000000400000000000000000000000000000000000000000000000000000000000000000000000000000000000000000000000000000000000001000F0000000000000000000000000000000000000000000000000000000000000000000000000000000000000000000000000000000000000000000000000001000F0000000000000000000000000000000000000000000000000000000000000000000000000000002, false, false, 0, 0, 0, .accepted, 0, 0, [0], false, 0, false, false, 0, 0, 0, [], 0, 0, 0, 0, 0, []⟩ : Job)], groups := (bench 0).groups.map (fun g => { g with scratch := putBytes [] 64 (leBytes 4 0x1) }) }; (match s.job? 4, s.group? 2 with | some j, some g => j.kind == 2 && j.st == .accepted && !s.jobWaits g j && j.inRegion false 0xF000000000000040 512 && (jobAt s j g false 0xF000000000000040 512).isSome && j.inRegion true 0xF000000000000040 4 && (jobAt s j g true 0xF000000000000040 4).isSome && j.recs != [] && (j.card.extractLsb' 1280 64).toNat % 64 == 0 && !streamBad (s.valueAt (.scr 2 64) 512) && s.valueAt (.scr 2 64) 512 % 2 ^ 32 == 1 | _, _ => false) = true)
    ∧ (let s : State := { (bench 0) with jobs := [(⟨4, 2, 0, 0, 5, 2, 0xF0000000000000400000000000000000000000000000000000000000000000000000000000000000000000000000000000000000000000000000000000001000F0000000000000000000000000000000000000000000000000000000000000000000000000000000000000000000000000000000000000000000000000001000F0000000000000000000000000000000000000000000000000000000000000000000000000000002, false, false, 0, 0, 0, .accepted, 0, 0, [0], false, 0, false, false, 0, 0, 0, [], 0, 0, 0, 0, 0, []⟩ : Job)], groups := (bench 0).groups.map (fun g => { g with scratch := putBytes [] 72 (leBytes 4 0x1) }) }; (match s.job? 4, s.group? 2 with | some j, some g => j.kind == 2 && j.st == .accepted && !s.jobWaits g j && j.inRegion false 0xF000000000000040 512 && (jobAt s j g false 0xF000000000000040 512).isSome && j.inRegion true 0xF000000000000040 4 && (jobAt s j g true 0xF000000000000040 4).isSome && j.recs != [] && (j.card.extractLsb' 1280 64).toNat % 64 == 0 && streamBad (s.valueAt (.scr 2 64) 512) | _, _ => false) = true)
    ∧ (let s : State := { (bench 0) with jobs := [(⟨4, 2, 0, 0, 5, 2, 0xF00000000000002000000000000000000000000000000000000000000000000000000000000000000000000000000000000000000000000000000000000000000000000000000000000000000000000000000000000000000000000000000000000000000000000000000000000000000000000000000000000000000000000000000000000000000000000000000000000000000000000000000000000000000000000000000002, false, false, 0, 0, 0, .accepted, 0, 0, [0], false, 0, false, false, 0, 0, 0, [], 0, 0, 0, 0, 0, []⟩ : Job)] }; (match s.job? 4, s.group? 2 with | some j, some g => j.kind == 2 && j.st == .accepted && !s.jobWaits g j && (j.card.extractLsb' 1280 64).toNat % 64 == 32 | _, _ => false) = true)
    ∧ (let s : State := { (bench 0) with jobs := [(⟨4, 2, 0, 0, 5, 2, 0xF0000000000000400000000000000000000000000000000000000000000000000000000000000000000000000000000000000000000000000000000000001000F0000000000000000000000000000000000000000000000000000000000000000000000000000000000000000000000000000000000000000000000000001000F0000000000000000000000000000000000000000000000000000000000000000000000000000002, false, false, 0, 0, 0, .suspended, 0, 0, [], false, 0, false, false, 0, 0, 0, [], 0, 0, 0, 0, 0, []⟩ : Job)] }; (match s.job? 4, s.group? 2 with | some j, some _ => j.st == .suspended && (s.jobs.filter (fun x => x.die == j.die && x.kind == 2 && x.lock && x.st != .suspended)).length == 0 | _, _ => false) = true)
    ∧ (let s : State := { (bench 0) with jobs := [(⟨4, 2, 0, 0, 5, 2, 0xF0000000000000400000000000000000000000000000000000000000000000000000000000000000000000000000000000000000000000000000000000001000F0000000000000000000000000000000000000000000000000000000000000000000000000000000000000000000000000000000000000000000000000001000F0000000000000000000000000000000000000000000000000000000000000000000000000000002, false, false, 0, 0, 0, .accepted, 0, 0, [0], false, 0, false, false, 0, 0, 0, [], 0, 0, 0, 0, 0, []⟩ : Job), (⟨9, 2, 0, 0, 5, 2, 0xF0000000000000400000000000000000000000000000000000000000000000000000000000000000000000000000000000000000000000000000000000001000F0000000000000000000000000000000000000000000000000000000000000000000000000000000000000000000000000000000000000000000000000001000F0000000000000000000000000000000000000000000000000000000000000000000000000000002, false, false, 0, 0, 0, .locked, 0, 0, [], true, 0, false, false, 0, 0, 0, [], 0, 0, 0, 0, 0, []⟩ : Job), (⟨10, 2, 0, 0, 5, 2, 0xF0000000000000400000000000000000000000000000000000000000000000000000000000000000000000000000000000000000000000000000000000001000F0000000000000000000000000000000000000000000000000000000000000000000000000000000000000000000000000000000000000000000000000001000F0000000000000000000000000000000000000000000000000000000000000000000000000000002, false, false, 0, 0, 0, .locked, 0, 0, [], true, 0, false, false, 0, 0, 0, [], 0, 0, 0, 0, 0, []⟩ : Job), (⟨11, 2, 0, 0, 5, 2, 0xF0000000000000400000000000000000000000000000000000000000000000000000000000000000000000000000000000000000000000000000000000001000F0000000000000000000000000000000000000000000000000000000000000000000000000000000000000000000000000000000000000000000000000001000F0000000000000000000000000000000000000000000000000000000000000000000000000000002, false, false, 0, 0, 0, .locked, 0, 0, [], true, 0, false, false, 0, 0, 0, [], 0, 0, 0, 0, 0, []⟩ : Job), (⟨12, 2, 0, 0, 5, 2, 0xF0000000000000400000000000000000000000000000000000000000000000000000000000000000000000000000000000000000000000000000000000001000F0000000000000000000000000000000000000000000000000000000000000000000000000000000000000000000000000000000000000000000000000001000F0000000000000000000000000000000000000000000000000000000000000000000000000000002, false, false, 0, 0, 0, .locked, 0, 0, [], true, 0, false, false, 0, 0, 0, [], 0, 0, 0, 0, 0, []⟩ : Job)] }; (match s.job? 4, s.group? 2 with | some j, some _ => (s.jobs.filter (fun x => x.die == j.die && x.kind == 2 && x.lock && x.st != .suspended)).length == 4 | _, _ => false) = true)
    ∧ (let s : State := { (bench 0) with jobs := [(⟨4, 2, 0, 0, 5, 2, 0xF0000000000000400000000000000000000000000000000000000000000000000000000000000000000000000000000000000000000000000000000000001000F0000000000000000000000000000000000000000000000000000000000000000000000000000000000000000000000000000000000000000000000000001000F0000000000000000000000000000000000000000000000000000000000000000000000000000002, false, false, 0, 0, 0, .accepted, 0, 0, [0], false, 0, false, false, 0, 0, 0, [], 0, 0, 0, 0, 0, []⟩ : Job), (⟨9, 2, 0, 0, 5, 2, 0xF0000000000000400000000000000000000000000000000000000000000000000000000000000000000000000000000000000000000000000000000000001000F0000000000000000000000000000000000000000000000000000000000000000000000000000000000000000000000000000000000000000000000000001000F0000000000000000000000000000000000000000000000000000000000000000000000000000002, false, false, 0, 0, 0, .locked, 0, 0, [], true, 0, false, false, 0, 0, 0, [], 0, 0, 0, 0, 0, []⟩ : Job), (⟨10, 2, 0, 0, 5, 2, 0xF0000000000000400000000000000000000000000000000000000000000000000000000000000000000000000000000000000000000000000000000000001000F0000000000000000000000000000000000000000000000000000000000000000000000000000000000000000000000000000000000000000000000000001000F0000000000000000000000000000000000000000000000000000000000000000000000000000002, false, false, 0, 0, 0, .locked, 0, 0, [], true, 0, false, false, 0, 0, 0, [], 0, 0, 0, 0, 0, []⟩ : Job), (⟨11, 2, 0, 0, 5, 2, 0xF0000000000000400000000000000000000000000000000000000000000000000000000000000000000000000000000000000000000000000000000000001000F0000000000000000000000000000000000000000000000000000000000000000000000000000000000000000000000000000000000000000000000000001000F0000000000000000000000000000000000000000000000000000000000000000000000000000002, false, false, 0, 0, 0, .locked, 0, 0, [], true, 0, false, false, 0, 0, 0, [], 0, 0, 0, 0, 0, []⟩ : Job)] }; (match s.job? 4, s.group? 2 with | some j, some _ => (s.jobs.filter (fun x => x.die == j.die && x.kind == 2 && x.lock && x.st != .suspended)).length == 3 && j.st == .accepted | _, _ => false) = true)
    ∧ (let s : State := { (bench 0) with jobs := [(⟨4, 2, 0, 0, 5, 2, 0xF0000000000000400000000000000000000000000000000000000000000000000000000000000000000000000000000000000000000000000000000000001000F0000000000000000000000000000000000000000000000000000000000000000000000000000000000000000000000000000000000000000000000000001000F0000000000000000000000000000000000000000000000000000000000000000000000000000002, false, false, 0, 0, 0, .locked, 0, 0, [], false, 0, false, false, 0, 0, 0, [], 0, 0, 0, 0, 0, []⟩ : Job)] }; (match s.job? 4, s.group? 2 with | some j, some _ => j.st == .locked | _, _ => false) = true)
    ∧ (let s : State := { (bench 0) with jobs := [(⟨4, 2, 0, 0, 5, 2, 0xF0000000000000400000000000000000000000000000000000000000000000000000000000000000000000000000000000000000000000000000000000001000F0000000000000000000000000000000000000000000000000000000000000000000000000000000000000000000000000000000000000000000000000001000F0000000000000000000000000000000000000000000000000000000000000000000000000000002, false, false, 0, 0, 0, .locked, 0, 0, [], true, 0, false, false, 0, 0, 0, [], 0, 0, 0, 0, 0, []⟩ : Job)] }; (match s.job? 4, s.group? 2 with | some j, some g => j.st == .locked && j.kind == 2 && j.inRegion false 0xF000000000000040 512 && (jobAt s j g false 0xF000000000000040 512).isSome && j.inRegion true 0xF000000000000060 12 && (jobAt s j g true 0xF000000000000060 12).isSome && j.inRegion true 0xF000000000000070 124 && (jobAt s j g true 0xF000000000000070 124).isSome && j.inRegion true 0xF000000000000040 4 && (jobAt s j g true 0xF000000000000040 4).isSome && decide ((j.card.extractLsb' 32 5).toNat ≤ j.unit) | _, _ => false) = true)
    ∧ (let s : State := { (bench 0) with jobs := [(⟨4, 2, 0, 0, 5, 2, 0xF0000000000000400000000000000000000000000000000000000000000000000000000000000000000000000000000000000000000000000000000000001000F0000000000000000000000000000000000000000000000000000000000000000000000000000000000000000000000000000000000000000000000000001000F0000000000000000000000000000000000000000000000000000000000000000000000000000002, false, false, 0, 0, 0, .accepted, 0, 0, [], false, 0, false, false, 0, 0, 0, [], 0, 0, 0, 0, 0, []⟩ : Job)] }; (match s.job? 4, s.group? 2 with | some j, some _ => j.st != .locked | _, _ => false) = true) :=
  by refine ⟨?_, ?_, ?_, ?_, ?_, ?_, ?_, ?_, ?_, ?_⟩ <;> decide +kernel

/-- R403 to R406: a gather and a sum of two ranks; the time of a collective over and not; a lost peer. -/
theorem test_meets_collectives :
    (let s : State := { (bench 0) with jobs := [(⟨4, 2, 0, 0, 5, 3, 0x1000F0000000000010000000000000000000000000000000000000000000000000000000000000000000000000000000000000000000000000000000000000001000F0000000000000000000000000000000000000000000000000000000000000000000000800000023, false, false, 0, 0, 0, .accepted, 0, 0, [0x800080000100000004F000000000000000, 0x1000100000100000004F000000000001000, 0x10000000007000000000000000000000002], true, 0, false, false, 0, 0, 0, [], 0, 0, 0, 5, 0, []⟩ : Job)] }; (match s.job? 4, s.group? 2 with | some j, some g => j.kind == 3 && j.st == .accepted && !s.jobWaits g j && j.lock && (j.recs.getD 2 0).extractLsb' 0 8 == 2 && (j.recs.getD 2 0).extractLsb' 8 8 == 0 && j.inRegion false 0xF000000000000000 128 && (jobAt s j g false 0xF000000000000000 128).isSome && j.inRegion true 0xF000000000001000 256 && (jobAt s j g true 0xF000000000001000 256).isSome && shRows 0x800080000100000004F000000000000000 == 1 && shRows 0x1000100000100000004F000000000001000 == 1 && shLen 0x1000100000100000004F000000000001000 == 256 | _, _ => false) = true)
    ∧ (let s : State := { (bench 0) with jobs := [(⟨4, 2, 0, 0, 5, 3, 0x1000F0000000000010000000000000000000000000000000000000000000000000000000000000000000000000000000000000000000000000000000000000001000F0000000000000000000000000000000000000000000000000000000000000000000000800000003, false, false, 0, 0, 0, .accepted, 0, 0, [0x800080000100000004F000000000000000, 0x800080000100000004F000000000001000, 0x10000000007000000000000000000000102], true, 0, false, false, 0, 0, 0, [], 0, 0, 0, 0, 0, []⟩ : Job)] }; (match s.job? 4, s.group? 2 with | some j, some g => j.kind == 3 && j.st == .accepted && !s.jobWaits g j && j.lock && (j.recs.getD 2 0).extractLsb' 0 8 == 2 && (j.recs.getD 2 0).extractLsb' 8 8 == 1 && j.inRegion false 0xF000000000000000 128 && (jobAt s j g false 0xF000000000000000 128).isSome && j.inRegion true 0xF000000000001000 128 && (jobAt s j g true 0xF000000000001000 128).isSome && shRows 0x800080000100000004F000000000000000 == 1 && shRows 0x800080000100000004F000000000001000 == 1 && shLen 0x800080000100000004F000000000001000 == 128 | _, _ => false) = true)
    ∧ (let s : State := { (bench 0) with jobs := [(⟨4, 2, 0, 0, 5, 3, 0x0, false, false, 0, 0, 0, .queued, 0, 0, [], false, 0, false, false, 0, 0, 0, [], 0, 0, 0, 0, 0, []⟩ : Job)] }; (match s.job? 4, s.group? 2 with | some j, some _ => j.st != .accepted | _, _ => false) = true)
    ∧ (let s : State := { { (bench 0) with jobs := [(⟨4, 2, 0, 0, 5, 3, 0x1000F0000000000010000000000000000000000000000000000000000000000000000000000000000000000000000000000000000000000000000000000000001000F0000000000000000000000000000000000000000000000000000000000000000000000800000023, false, false, 0, 0, 0, .accepted, 0, 0, [0x800080000100000004F000000000000000, 0x1000100000100000004F000000000001000, 0x10000000007000000000000000000000002], true, 0, false, false, 0, 0, 0, [], 0, 0, 0, 5, 0, []⟩ : Job)] } with timer := 7004, peers := [(1, true)] }; (match s.job? 4, s.group? 2 with | some j, some _ => j.since + 1000 * 7 != s.timer && decide (s.timer < j.since + 7000) && j.peer / 2 ^ 96 % 2 ^ 32 == 7 && tget false s.peers 1 | _, _ => false) = true)
    ∧ (let s : State := { { (bench 0) with jobs := [(⟨4, 2, 0, 0, 5, 3, 0x1000F0000000000010000000000000000000000000000000000000000000000000000000000000000000000000000000000000000000000000000000000000001000F0000000000000000000000000000000000000000000000000000000000000000000000800000023, false, false, 0, 0, 0, .accepted, 0, 0, [0x800080000100000004F000000000000000, 0x1000100000100000004F000000000001000, 0x10000000007000000000000000000000002], true, 0, false, false, 0, 0, 0, [], 0, 0, 0, 5, 0, []⟩ : Job)] } with timer := 7005, peers := [(1, true)] }; (match s.job? 4, s.group? 2 with | some j, some _ => j.since + 7000 == s.timer && j.lock && j.st == .accepted | _, _ => false) = true)
    ∧ (let s : State := { { (bench 0) with jobs := [(⟨4, 2, 0, 0, 5, 3, 0x1000F0000000000010000000000000000000000000000000000000000000000000000000000000000000000000000000000000000000000000000000000000001000F0000000000000000000000000000000000000000000000000000000000000000000000800000023, false, false, 0, 0, 0, .accepted, 0, 0, [0x800080000100000004F000000000000000, 0x1000100000100000004F000000000001000, 0x10000000007000000000000000000000002], true, 0, false, false, 0, 0, 0, [], 0, 0, 0, 5, 0, []⟩ : Job)] } with timer := 0, peers := [(1, false)] }; (match s.job? 4, s.group? 2 with | some j, some _ => j.peer / 2 ^ 136 % 2 ^ 8 == 1 && 1 != s.pkg && !tget false s.peers 1 | _, _ => false) = true) :=
  by refine ⟨?_, ?_, ?_, ?_, ?_, ?_⟩ <;> decide +kernel

/-- R402 to R404: a start, sizes that do not fit, a set of another package, a malformed record, a misaligned set, a key in use; a part that agrees, and parts of another operation, too short and of no rank. -/
theorem test_meets_collective_starts :
    (let s : State := { (bench 0) with jobs := [(⟨4, 2, 0, 0, 5, 3, 0x10C000000000000000000000000000000000000000000000000000000000000000000000000000000000000000000000000000000000000001000F000000000001000000000000000000000000000000000000000000000000000000000000000000000000000000000800000000000010C000000000000001000F0000000000000000000000000010800000000000001040000000000000000000000000800000023, false, false, 0, 0, 0, .accepted, 0, 0, [], false, 0, false, false, 0, 0, 0, [], 0, 0, 0, 0, 0, []⟩ : Job)], mem := ((((bench 0).store 0x10400 (leBytes 192 0x800080000100000004F000000000000000)).store 0x10800 (leBytes 192 0x1000100000100000004F000000000001000)).store 0x10C00 (leBytes 128 0x10000000007000000000000000000000002)).mem, tlb := [⟨576, 0, 0, 16, benchLeaf, 3⟩] }; (match s.job? 4, s.group? 2 with | some j, some g => j.kind == 3 && j.st == .accepted && !s.jobWaits g j && !j.lock&& (jobAt s j g false 0x10400 192).isSome&& (jobAt s j g false 0x10800 192).isSome && s.valueAt (.phys 0x10400 false) 192 == 0x800080000100000004F000000000000000 && s.valueAt (.phys 0x10800 false) 192 == 0x1000100000100000004F000000000001000 && j.inRegion false 0x10C00 128 && (jobAt s j g false 0x10C00 128).isSome && s.valueAt (.phys 0x10C00 false) 128 == 0x10000000007000000000000000000000002 && !peerBad s.pkg 0x10000000007000000000000000000000002 && j.sizesOk (shRows 0x800080000100000004F000000000000000 * shLen 0x800080000100000004F000000000000000) (shRows 0x1000100000100000004F000000000001000 * shLen 0x1000100000100000004F000000000001000) 2 && !s.jobs.any (fun e => e.id != j.id && e.kind == 3 && e.lock && e.running && e.collKey == (j.ctx, 0x10000000007000000000000000000000002 / 2 ^ 32 % 2 ^ 32, 0x10000000007000000000000000000000002 / 2 ^ 64 % 2 ^ 32)) && j.inRegion false 0xF000000000000000 128 && (jobAt s j g false 0xF000000000000000 128).isSome && shRows 0x800080000100000004F000000000000000 == 1 | _, _ => false) = true)
    ∧ (let s : State := { (bench 0) with jobs := [(⟨4, 2, 0, 0, 5, 3, 0x10C000000000000000000000000000000000000000000000000000000000000000000000000000000000000000000000000000000000000001000F000000000001000000000000000000000000000000000000000000000000000000000000000000000000000000000800000000000010C000000000000001000F0000000000000000000000000010800000000000001040000000000000000000000000800000023, false, false, 0, 0, 0, .accepted, 0, 0, [], false, 0, false, false, 0, 0, 0, [], 0, 0, 0, 0, 0, []⟩ : Job)], mem := ((((bench 0).store 0x10400 (leBytes 192 0x800080000100000004F000000000000000)).store 0x10800 (leBytes 192 0x800080000100000004F000000000001000)).store 0x10C00 (leBytes 128 0x10000000007000000000000000000000002)).mem, tlb := [⟨576, 0, 0, 16, benchLeaf, 3⟩] }; (match s.job? 4, s.group? 2 with | some j, some g => j.kind == 3 && j.st == .accepted && !s.jobWaits g j && !j.lock&& (jobAt s j g false 0x10400 192).isSome&& (jobAt s j g false 0x10800 192).isSome && s.valueAt (.phys 0x10400 false) 192 == 0x800080000100000004F000000000000000 && s.valueAt (.phys 0x10800 false) 192 == 0x800080000100000004F000000000001000 && j.inRegion false 0x10C00 128 && (jobAt s j g false 0x10C00 128).isSome && s.valueAt (.phys 0x10C00 false) 128 == 0x10000000007000000000000000000000002 && !peerBad s.pkg 0x10000000007000000000000000000000002 && !j.sizesOk (shRows 0x800080000100000004F000000000000000 * shLen 0x800080000100000004F000000000000000) (shRows 0x800080000100000004F000000000001000 * shLen 0x800080000100000004F000000000001000) 2 | _, _ => false) = true)
    ∧ (let s : State := { (bench 0) with jobs := [(⟨4, 2, 0, 0, 5, 3, 0x10C000000000000000000000000000000000000000000000000000000000000000000000000000000000000000000000000000000000000001000F000000000001000000000000000000000000000000000000000000000000000000000000000000000000000000000800000000000010C000000000000001000F0000000000000000000000000010800000000000001040000000000000000000000000800000023, false, false, 0, 0, 0, .accepted, 0, 0, [], false, 0, false, false, 0, 0, 0, [], 0, 0, 0, 0, 0, []⟩ : Job)], mem := ((((bench 0).store 0x10400 (leBytes 192 0x800080000100000004F000000000000000)).store 0x10800 (leBytes 192 0x1000100000100000004F000000000001000)).store 0x10C00 (leBytes 128 0x10000000007000000000000000000000102)).mem, tlb := [⟨576, 0, 0, 16, benchLeaf, 3⟩] }; (match s.job? 4, s.group? 2 with | some j, some g => j.kind == 3 && j.st == .accepted && !s.jobWaits g j && !j.lock&& (jobAt s j g false 0x10400 192).isSome&& (jobAt s j g false 0x10800 192).isSome && s.valueAt (.phys 0x10400 false) 192 == 0x800080000100000004F000000000000000 && s.valueAt (.phys 0x10800 false) 192 == 0x1000100000100000004F000000000001000 && j.inRegion false 0x10C00 128 && (jobAt s j g false 0x10C00 128).isSome && s.valueAt (.phys 0x10C00 false) 128 == 0x10000000007000000000000000000000102 && peerBad s.pkg 0x10000000007000000000000000000000102 | _, _ => false) = true)
    ∧ (let s : State := { (bench 0) with jobs := [(⟨4, 2, 0, 0, 5, 3, 0x10C000000000000000000000000000000000000000000000000000000000000000000000000000000000000000000000000000000000000001000F000000000001000000000000000000000000000000000000000000000000000000000000000000000000000000000800000000000010C000000000000001000F0000000000000000000000000010800000000000001040000000000000000000000000800000023, false, false, 0, 0, 0, .accepted, 0, 0, [], false, 0, false, false, 0, 0, 0, [], 0, 0, 0, 0, 0, []⟩ : Job)], mem := ((((bench 0).store 0x10400 (leBytes 192 0x800080000100000004F000000000000000)).store 0x10800 (leBytes 192 0x0)).store 0x10C00 (leBytes 128 0x10000000007000000000000000000000002)).mem, tlb := [⟨576, 0, 0, 16, benchLeaf, 3⟩] }; (match s.job? 4, s.group? 2 with | some j, some g => j.kind == 3 && j.st == .accepted && !s.jobWaits g j && !j.lock&& (jobAt s j g false 0x10400 192).isSome&& (jobAt s j g false 0x10800 192).isSome && s.valueAt (.phys 0x10400 false) 192 == 0x800080000100000004F000000000000000 && s.valueAt (.phys 0x10800 false) 192 == 0x0 && !copyRecOk 0 | _, _ => false) = true)
    ∧ (let s : State := { (bench 0) with jobs := [(⟨4, 2, 0, 0, 5, 3, 0x10C200000000000000000000000000000000000000000000000000000000000000000000000000000000000000000000000000000000000001000F000000000001000000000000000000000000000000000000000000000000000000000000000000000000000000000800000000000010C000000000000001000F0000000000000000000000000010800000000000001040000000000000000000000000800000023, false, false, 0, 0, 0, .accepted, 0, 0, [], false, 0, false, false, 0, 0, 0, [], 0, 0, 0, 0, 0, []⟩ : Job)], mem := ((((bench 0).store 0x10400 (leBytes 192 0x800080000100000004F000000000000000)).store 0x10800 (leBytes 192 0x1000100000100000004F000000000001000)).store 0x10C00 (leBytes 128 0x10000000007000000000000000000000002)).mem, tlb := [⟨576, 0, 0, 16, benchLeaf, 3⟩] }; (match s.job? 4, s.group? 2 with | some j, some g => j.kind == 3 && j.st == .accepted && !s.jobWaits g j && !j.lock&& (jobAt s j g false 0x10400 192).isSome&& (jobAt s j g false 0x10800 192).isSome && s.valueAt (.phys 0x10400 false) 192 == 0x800080000100000004F000000000000000 && s.valueAt (.phys 0x10800 false) 192 == 0x1000100000100000004F000000000001000 && (j.card.extractLsb' 1280 64).toNat % 64 == 32 | _, _ => false) = true)
    ∧ (let s : State := { (bench 0) with jobs := [(⟨4, 2, 0, 0, 5, 3, 0x10C000000000000000000000000000000000000000000000000000000000000000000000000000000000000000000000000000000000000001000F000000000001000000000000000000000000000000000000000000000000000000000000000000000000000000000800000000000010C000000000000001000F0000000000000000000000000010800000000000001040000000000000000000000000800000023, false, false, 0, 0, 0, .accepted, 0, 0, [], false, 0, false, false, 0, 0, 0, [], 0, 0, 0, 0, 0, []⟩ : Job), (⟨9, 2, 0, 0, 5, 3, 0x1000F0000000000010000000000000000000000000000000000000000000000000000000000000000000000000000000000000000000000000000000000000001000F0000000000000000000000000000000000000000000000000000000000000000000000800000023, false, false, 0, 0, 0, .accepted, 0, 0, [0x800080000100000004F000000000000000, 0x1000100000100000004F000000000001000, 0x10000000007000000000000000000000002], true, 0, false, false, 0, 0, 0, [], 0, 0, 0, 0, 0, []⟩ : Job)], mem := ((((bench 0).store 0x10400 (leBytes 192 0x800080000100000004F000000000000000)).store 0x10800 (leBytes 192 0x1000100000100000004F000000000001000)).store 0x10C00 (leBytes 128 0x10000000007000000000000000000000002)).mem, tlb := [⟨576, 0, 0, 16, benchLeaf, 3⟩] }; (match s.job? 4, s.group? 2 with | some j, some g => j.kind == 3 && j.st == .accepted && !s.jobWaits g j && !j.lock&& (jobAt s j g false 0x10400 192).isSome&& (jobAt s j g false 0x10800 192).isSome && s.valueAt (.phys 0x10400 false) 192 == 0x800080000100000004F000000000000000 && s.valueAt (.phys 0x10800 false) 192 == 0x1000100000100000004F000000000001000 && j.inRegion false 0x10C00 128 && (jobAt s j g false 0x10C00 128).isSome && s.valueAt (.phys 0x10C00 false) 128 == 0x10000000007000000000000000000000002 && s.jobs.any (fun e => e.id != j.id && e.kind == 3 && e.lock && e.running && e.collKey == (j.ctx, 0x10000000007000000000000000000000002 / 2 ^ 32 % 2 ^ 32, 0x10000000007000000000000000000000002 / 2 ^ 64 % 2 ^ 32)) | _, _ => false) = true)
    ∧ (let s : State := { (bench 0) with jobs := [(⟨4, 2, 0, 0, 5, 3, 0x1000F0000000000010000000000000000000000000000000000000000000000000000000000000000000000000000000000000000000000000000000000000001000F0000000000000000000000000000000000000000000000000000000000000000000000800000023, false, false, 0, 0, 0, .accepted, 0, 0, [0x800080000100000004F000000000000000, 0x1000100000100000004F000000000001000, 0x10000000007000000000000000000000002], true, 0, false, false, 0, 0, 0, [], 0, 0, 0, 0, 0, [⟨0, 2, 8, 2, [0, 1], 128, 256, List.replicate 128 (1, false)⟩]⟩ : Job)] }; (match s.job? 4, s.group? 2 with | some j, some g => let d : RankData := ⟨1, 2, 8, 2, [0, 1], 128, 256, List.replicate 128 (2, false)⟩; j.lock && j.ranks.all (fun e => e.rank == 0) && j.agrees d && d.data.length == 128 && j.kind == 3 && j.st == .accepted && !s.jobWaits g j | _, _ => false) = true)
    ∧ (let s : State := { (bench 0) with jobs := [(⟨4, 2, 0, 0, 5, 3, 0x1000F0000000000010000000000000000000000000000000000000000000000000000000000000000000000000000000000000000000000000000000000000001000F0000000000000000000000000000000000000000000000000000000000000000000000800000023, false, false, 0, 0, 0, .accepted, 0, 0, [0x800080000100000004F000000000000000, 0x1000100000100000004F000000000001000, 0x10000000007000000000000000000000002], true, 0, false, false, 0, 0, 0, [], 0, 0, 0, 0, 0, [⟨0, 2, 8, 2, [0, 1], 128, 256, List.replicate 128 (1, false)⟩]⟩ : Job)] }; (match s.job? 4, s.group? 2 with | some j, some g => let d : RankData := ⟨1, 0, 8, 2, [0, 1], 128, 256, List.replicate 128 (2, false)⟩; j.lock && j.ranks.all (fun e => e.rank == 0) && !j.agrees d && d.data.length == 128 && j.kind == 3 && j.st == .accepted && !s.jobWaits g j | _, _ => false) = true)
    ∧ (let s : State := { (bench 0) with jobs := [(⟨4, 2, 0, 0, 5, 3, 0x1000F0000000000010000000000000000000000000000000000000000000000000000000000000000000000000000000000000000000000000000000000000001000F0000000000000000000000000000000000000000000000000000000000000000000000800000023, false, false, 0, 0, 0, .accepted, 0, 0, [0x800080000100000004F000000000000000, 0x1000100000100000004F000000000001000, 0x10000000007000000000000000000000002], true, 0, false, false, 0, 0, 0, [], 0, 0, 0, 0, 0, [⟨0, 2, 8, 2, [0, 1], 128, 256, List.replicate 128 (1, false)⟩]⟩ : Job)] }; (match s.job? 4, s.group? 2 with | some j, some g => let d : RankData := ⟨1, 2, 8, 2, [0, 1], 128, 256, []⟩; j.lock && j.ranks.all (fun e => e.rank == 0) && !j.agrees d && d.data.length != 128 && j.kind == 3 && j.st == .accepted && !s.jobWaits g j | _, _ => false) = true)
    ∧ (let s : State := { (bench 0) with jobs := [(⟨4, 2, 0, 0, 5, 3, 0x1000F0000000000010000000000000000000000000000000000000000000000000000000000000000000000000000000000000000000000000000000000000001000F0000000000000000000000000000000000000000000000000000000000000000000000800000023, false, false, 0, 0, 0, .accepted, 0, 0, [0x800080000100000004F000000000000000, 0x1000100000100000004F000000000001000, 0x10000000007000000000000000000000002], true, 0, false, false, 0, 0, 0, [], 0, 0, 0, 0, 0, [⟨0, 2, 8, 2, [0, 1], 128, 256, List.replicate 128 (1, false)⟩]⟩ : Job)] }; (match s.job? 4, s.group? 2 with | some j, some g => let d : RankData := ⟨2, 2, 8, 2, [0, 1], 128, 256, List.replicate 128 (2, false)⟩; j.lock && j.ranks.all (fun e => e.rank == 0) && !j.agrees d && d.data.length == 128 && j.kind == 3 && j.st == .accepted && !s.jobWaits g j | _, _ => false) = true) :=
  by refine ⟨?_, ?_, ?_, ?_, ?_, ?_, ?_, ?_, ?_, ?_⟩ <;> decide +kernel

/-- R343 to R345, R396: the safe state; memory and the line after its end; a page being flipped, with requests held. -/
theorem test_meets_host_accesses :
    (let s : State := { up with bu := { up.bu with phase := 15 } }; s.bu.phase = 15)
    ∧ (let s : State := up; s.installed 0x10040 = true ∧ s.installed (4 * dieBytes) = false ∧ s.installed (4 * dieBytes - 64) = true ∧ s.flips = [] ∧ quietB s 0x10040 64 = true)
    ∧ (let s : State := { up with flips := [⟨16, true, [0, 3], []⟩] }; (∃ f ∈ s.flips, f.page = 0x10040 / 4096 ∧ f.birsp ≠ []) ∧ (∃ f ∈ s.flips, f.page = 0x103 / 16
      ∧ 0x103 % 16 ∈ f.birsp) ∧ s.flips.any (fun f => f.page == 0x10340 / 4096 && f.birsp.contains (0x10340 % 4096 / 256)) = true ∧ s.unreachable 0x103F0 = false
      ∧ 0x103F0 / 256 = 0x103 ∧ 0x103F0 % 256 + 16 = 256)
    ∧ (let s : State := { up with flips := [⟨16, true, [], [.read 0x10040]⟩] }; (∃ f ∈ s.flips, f.page = 16 ∧ f.birsp = [] ∧ f.held = [.read 0x10040])
      ∧ 0x10040 / 4096 = 16 ∧ quietB s 0x10040 64 = true ∧ s.teleq = [])
    ∧ (let s : State := { up with flips := [⟨16, true, [], [.write 0x10FFF [1]]⟩] }; (∃ f ∈ s.flips, f.birsp = [] ∧ f.held = [.write 0x10FFF [1]])
      ∧ s.unreachable 0x10FFF = false ∧ s.teleq = [])
    ∧ (let s : State := { up with flips := [⟨16, true, [], []⟩] }; (∃ f ∈ s.flips, f.birsp = [] ∧ f.held = []) ∧ s.teleq = [])
    ∧ (let s : State := up; paTop (2 ^ 48 + 5) = 1 ∧ isPeer (8 * 2 ^ 48 + 3 * 2 ^ 45) = true ∧ paPkg (8 * 2 ^ 48 + 3 * 2 ^ 45) = 3 ∧ s.pkg ≠ 3 ∧ isPeer 0x10040 = false
      ∧ (95 : Nat) < 96)
    ∧ (let s : State := up.barPut 0x3002F8 16 16 0xFFFE; s.barFld (0x300000 + 8 * 95) 16 16 = 65534)
    ∧ (let s : State := up.store 0x10040 (leBytes 8 9); quietB s 0x10040 8 = true ∧ s.peekN 0x10040 8 = 9 ∧ s.installed 0x10040 = true ∧ s.flips = [])
    ∧ (let s : State := up.store 0x10040 (leBytes 16 (7 + 100 * 2 ^ 32 + 2 * 2 ^ 64 + 4 * 2 ^ 96 + 16 * 2 ^ 112)); quietB s 0x10040 16 = true ∧ s.peekN 0x10044 4 = 100
      ∧ s.peekN 0x10048 4 = 2 ∧ s.peekN 0x1004C 2 ≤ s.peekN 0x1004E 2)
    ∧ (let s : State := { up with bridge := [(5, .m)] }; tget .i s.bridge (0 * 2 ^ 46 + 5) ≠ .i)
    ∧ (let s : State := up; tget .i s.bridge 5 = .i ∧ 0x10FC0 % 4096 + 64 ≤ 4096) :=
  by refine ⟨?_, ?_, ?_, ?_, ?_, ?_, ?_, ?_, ?_, ?_, ?_, ?_⟩ <;> decide +kernel

/-- R399, R401: the last port; a peer whose last port has failed, and one with a port. -/
theorem test_meets_ports :
    (let s : State := { ((up.barPut 0x3002F8 15 1 1).barPut 0x300300 6 1 1).barPut 0x3002F8 0 2 0 with timer := 4 }; (95 : Nat) < 96 ∧ s.bu.phase = 5
      ∧ s.barFld (0x300000 + 8 * 95) 15 1 = 1 ∧ s.barFld 0x300300 6 1 = 1 ∧ s.barFld (0x300000 + 8 * 95) 0 2 ≠ 2)
    ∧ (let s : State := { ((up.barPut 0x3002F8 15 1 1).barPut 0x300300 6 1 1).barPut 0x3002F8 0 2 2 with timer := 4 }; s.barFld (0x300000 + 8 * 95) 0 2 = 2)
    ∧ (let s : State := up; s.barFld 0x300300 6 1 = 0 ∧ s.barFld 0x300000 15 1 = 0)
    ∧ (let s : State := { ({ ((((up.barPut 0x3002F0 0 2 2).barPut 0x3002F0 2 6 9).barPut 0x3002F8 15 1 1).barPut 0x300300 6 1 1).barPut 0x3002F8 0 2 0 with timer := 4 } : State) with idents := [(94, 5)] }; (94 : Nat) < 96 ∧ s.barFld (0x300000 + 8 * 94) 0 2 = 2 ∧ s.barFld (0x300000 + 8 * 94) 2 6 = 9 ∧ tfind s.idents 94 = some 5 ∧ s.barFld (0x300000 + 8 * 95) 15 1 = 1 ∧ s.barFld 0x300300 6 1 = 1)
    ∧ (let s : State := { up with peers := [(9, true)] }; thas s.peers 9 = true ∧ ∀ p < 96, s.barFld (0x300000 + 8 * p) 0 2 = 2 → s.barFld (0x300000 + 8 * p) 2 6 ≠ 9)
    ∧ (let s : State := (up.barPut 0x300000 0 2 2).barPut 0x300000 2 6 9; s.barFld 0x300000 0 2 = 2 ∧ s.barFld 0x300000 2 6 = 9) :=
  by refine ⟨?_, ?_, ?_, ?_, ?_, ?_⟩ <;> decide +kernel

/-- R420: above the limit at the top step, at the bottom step and at the end of the pass counts; one cluster at TWARN; room to recover. -/
theorem test_meets_power_ticks :
    (let s : State := up; (s.bu.phase = 4 ∨ s.bu.phase = 5) ∧ 100 < s.barFld 0x400000 28 8
      ∧ (List.range 96).all (fun c => decide (s.barFld (0x500008 + 0x1000 * c) 28 8 < s.barFld 0x400000 28 8)) = true)
    ∧ (let s : State := up.barPut (0x500008 + 0x1000 * 95) 28 8 255; (s.bu.phase = 4 ∨ s.bu.phase = 5) ∧ s.barFld 0x400000 28 8 ≤ s.barFld (0x500008 + 0x1000 * 95) 28 8)
    ∧ (let s : State := up; (s.bu.phase = 4 ∨ s.bu.phase = 5) ∧ max 600 (min 2400 (s.barFld 0x400000 0 12)) < 2401
      ∧ (List.range 576).all (fun c => s.ratio c == s.ratio 0) = true ∧ 4 < s.ratio 0)
    ∧ (let s : State := { up with bu := { up.bu with phase := 3 } }; ¬ (s.bu.phase = 4 ∨ s.bu.phase = 5))
    ∧ (let s : State := { up with bu := { up.bu with phase := 4 } }; (List.range 576).all (fun c => s.ratio c == 4) = true ∧ (List.range 96).all (fun c => s.passes c == 1) = true)
    ∧ (let s : State := { up with pw := { Power.reset with passes := (List.range 96).map (fun c => (c, 4)) }, timer := 0 }; (List.range 96).all (fun c => s.passes c == 4) = true)
    ∧ (let s : State := (up.barPut (0x500008 + 0x1000 * 3) 28 8 (up.barFld 0x400000 12 8)); s.barFld (0x500008 + 0x1000 * 3) 28 8 = s.barFld 0x400000 12 8
      ∧ (List.range 96).all (fun c => decide (s.barFld 0x400000 12 8 ≤ s.barFld (0x500008 + 0x1000 * c) 28 8) == (c == 3)) = true ∧ 4 < s.ratio 18)
    ∧ (let s : State := { up with pw := { Power.reset with passes := [(7, 2)], ratio := [(9, 8)] }, timer := 0 }; (List.range 96).all (fun c => decide (s.barFld (0x500008 + 0x1000 * c) 28 8 + 3 ≤ s.barFld 0x400000 12 8)) = true ∧ tget 1 s.pw.passes 7 = 2)
    ∧ (let s : State := { up with pw := { Power.reset with ratio := [(9, 7)] }, timer := 0 }; s.ratioPick 9 = 7 ∧ 7 < s.ratioCeil 9
      ∧ (List.range 96).all (fun c => decide (tget 1 s.pw.passes c ≤ 1)) = true) :=
  by refine ⟨?_, ?_, ?_, ?_, ?_, ?_, ?_, ?_, ?_⟩ <;> decide +kernel

/-- R340, R421, R422: the last cluster, with each interval over and one tick short. -/
theorem test_meets_power_events :
    (let s : State := up; (s.bu.phase = 4 ∨ s.bu.phase = 5) ∧ s.barFld (0x500008 + 0x1000 * 95) 3 1 = 0 ∧ min 100 (s.barFld 0x400000 20 8) ≤ 100)
    ∧ (let s : State := up.barPut (0x500008 + 0x1000 * 95) 3 1 1; s.barFld (0x500008 + 0x1000 * 95) 3 1 = 1 ∧ 0 + 5 < min 100 (s.barFld 0x400000 20 8))
    ∧ (let s : State := { up with pw := { Power.reset with caps := [(95, 1, 6)] }, timer := 0 }; (∃ e ∈ s.pw.caps, e.1 = 95) ∧ tfind s.pw.stepAt 95 = none
      ∧ 0 < s.barFld 0x400000 12 8 ∧ s.barFld (0x500008 + 0x1000 * 95) 3 1 = 0)
    ∧ (let s : State := { up.barPut (0x500008 + 0x1000 * 95) 3 1 1 with pw := { Power.reset with caps := [(95, 1, 6)] }, timer := 0 }; (∃ e ∈ s.pw.caps, e.1 = 95)
      ∧ tfind s.pw.stepAt 95 = none ∧ s.barFld (0x500008 + 0x1000 * 95) 3 1 = 1)
    ∧ (let s : State := let a := 7 + 1000 * max 100 (up.barFld 0x400000 40 16); { up with pw := { Power.reset with caps := [(95, 1, 6), (3, 1, 9)], stepAt := [(95, 7)] }, timer := a }; tfind s.pw.stepAt 95 = some 7 ∧ 7 + 1000 * max 100 (s.barFld 0x400000 40 16) = s.timer)
    ∧ (let s : State := { up with pw := { Power.reset with caps := [(95, 1, 6)], stepAt := [(95, 7)] }, timer := 7 }; s.timer < 7 + 1000 * max 100 (s.barFld 0x400000 40 16))
    ∧ (let s : State := up.barPut 0x55F000 31 1 1; (s.barGet (0x500000 + 0x1000 * 95)).getLsbD 31 = true ∧ tfind s.pw.droop 95 = none)
    ∧ (let s : State := up.barPut 0x55F000 31 1 0; (s.barGet (0x500000 + 0x1000 * 95)).getLsbD 31 = false)
    ∧ (let s : State := { up with pw := { Power.reset with droop := [(95, .stretch [] [] 3 false)] }, timer := 10 }; tfind s.pw.droop 95 = some (.stretch [] [] 3 false)
      ∧ s.groups = [] ∧ 3 + (12 * 4 + 6) / 7 = s.timer)
    ∧ (let s : State := { up with pw := { Power.reset with droop := [(95, .stretch [] [] 3 false)] }, timer := 9 }; s.timer < 3 + (12 * 4 + 6) / 7)
    ∧ (let s : State := { bench 0 with pw := { Power.reset with droop := [(0, .stretch [(0, 0)] [] 3 false)] } }; s.groups.all (fun g => !g.ended && g.core == 0) = true
      ∧ tget 0 [(0, 0)] 0 = 0)
    ∧ (let s : State := { up with pw := { Power.reset with droop := [(95, .hold 37)] }, timer := 37 }; tfind s.pw.droop 95 = some (.hold 37) ∧ 37 ≤ s.timer)
    ∧ (let s : State := { up with pw := { Power.reset with droop := [(95, .hold 37)] }, timer := 36 }; s.timer < 37) :=
  by refine ⟨?_, ?_, ?_, ?_, ?_, ?_, ?_, ?_, ?_, ?_, ?_, ?_, ?_⟩ <;> decide +kernel

/-- R424: a word of memory and one past its end, of an owned and a cached line, of the reduction buffer, a group, a tile, palettes that can and cannot be rebuilt; a team to relaunch. -/
theorem test_meets_scrubs :
    (let s : State := up; s.installed (4 * 0x4000) = true ∧ s.installed (4 * dieBytes) = false)
    ∧ (let s : State := { up with owner := [(0x4000, (7, 3))] }; s.ownerOf 0x4000 = some 7)
    ∧ (let s : State := { up with l1 := [(l1Key 7 0x10000, (0, 9))] }; s.ownerOf 0x4000 ≠ some 7 ∧ thas s.l1 (l1Key 7 (4 * 0x4000)) = true)
    ∧ (let s : State := { up with redbuf := [⟨0, 0x10040, 0, 0, 5, 2, [1], 0⟩] }; s.bu.phase ≠ 15 ∧ s.redbuf[0]?.map (fun r => r.pa) = some 0x10040 ∧ s.unreachable 0x10040 = false)
    ∧ (let s : State := up; s.bu.phase ≠ 15)
    ∧ (let s : State := bench 0; (match s.group? 2 with | some g => !g.ended && g.stop == none && s.runOk g [7] | none => false) = true)
    ∧ (let s : State := { bench 0 with groups := (bench 0).groups.map (fun g => { g with pals := [(1, { emptyPal with has := true, valid := true, fromFill := false, desc := some ⟨0, 4, 1, 1, false, 0, 0⟩ })] }) }; (match s.group? 2 with | some g => !g.ended && g.stop == none && (g.pal 1).has && (g.pal 1).valid && !((g.pal 1).fromFill || !(g.pal 1).canRebuild) | none => false) = true)
    ∧ (let s : State := { bench 0 with groups := (bench 0).groups.map (fun g => { g with pals := [(1, { emptyPal with has := true, valid := true, fromFill := true, desc := some ⟨0, 4, 1, 1, false, 0, 0⟩ })] }) }; (match s.group? 2 with | some g => !g.ended && g.stop == none && (g.pal 1).valid && (g.pal 1).fromFill | none => false) = true)
    ∧ (let s : State := { bench 0 with groups := (bench 0).groups.map (fun g => { g with ended := true, stop := some (4, 9) }) }; (match s.group? 2 with | some g => g.ended && g.stop != none && !g.killed && (s.teamOf g).all (fun x => x.ended) | none => false) = true)
    ∧ (let s : State := { up with bu := { up.bu with stopping := true } }; s.bu.stopping = true)
    ∧ (let s : State := let s : State := bench 0; { s with grids := s.grids.map (fun d => { d with pkt := (d.pkt ||| (1#1024 <<< 572)) &&& ~~~(1#1024 <<< 573) }) }; (match s.group? 2 with | some g => (s.pktOf g).getLsbD 572 && !(s.pktOf g).getLsbD 573 && !g.ended && g.stop == none && (s.teamOf g).all (fun x => !x.ended && !x.killed && x.stop == none && decide (x.relaunches < 3)) | none => false) = true)
    ∧ (let s : State := { up with bu := { up.bu with failU := 65, failC := 2 } }; s.bu.phase ≠ 15 ∧ s.bu.failU ≠ 0)
    ∧ (let s : State := up; s.bu.failU = 0) :=
  by refine ⟨?_, ?_, ?_, ?_, ?_, ?_, ?_, ?_, ?_, ?_, ?_, ?_, ?_⟩ <;> decide +kernel

/-- R408 to R417: every phase; failures new and listed; every mailbox command; firmware of 1151, 1152 and 1153 bytes. What FLASH holds is a free value. -/
theorem test_meets_bring_up :
    (let s : State := { State.reset with bu := { Bringup.reset with phase := 0 } }; s.bu.phase = 0)
    ∧ (let s : State := { State.reset with bu := { Bringup.reset with phase := 1 } }; s.bu.phase = 1)
    ∧ (let s : State := { State.reset with bu := { Bringup.reset with phase := 2 } }; s.bu.phase = 2)
    ∧ (let s : State := { State.reset with bu := { Bringup.reset with phase := 3 } }; s.bu.phase = 3)
    ∧ (let s : State := { State.reset with bu := { Bringup.reset with phase := 4 } }; s.bu.phase = 4)
    ∧ (let s : State := { State.reset with bu := { Bringup.reset with phase := 5 } }; s.bu.phase = 5)
    ∧ (let s : State := { State.reset with bu := { Bringup.reset with phase := 6 } }; s.bu.phase = 6)
    ∧ (let s : State := { State.reset with bu := { Bringup.reset with phase := 4, dieOk := 1 } }; s.bu.dieOk = 1 ∧ s.bu.failures = [])
    ∧ (let s : State := { State.reset with bu := { Bringup.reset with phase := 5, failures := [(0xC0, 4)] } }; (0xC0, 4) ∈ s.bu.failures)
    ∧ (let s : State := { State.reset with bu := { Bringup.reset with phase := 4 } }; (64 * 1 + 1, 1) ∉ s.bu.failures ∧ s.bu.failU = 0)
    ∧ (let s : State := { State.reset with bu := { Bringup.reset with phase := 4, failures := [(65, 1)], failU := 65 } }; (64 * 1 + 1, 1) ∈ s.bu.failures ∧ s.bu.failU ≠ 0)
    ∧ (let s : State := { State.reset with bu := { Bringup.reset with stopping := true } }; s.bu.stopping = true ∧ s.groups = [] ∧ s.grids = [])
    ∧ (let s : State := { up with grids := [{ up.newGrid plainPkt 0 1 none 0 0 3 .placing with last := 4 }] }; s.grids.all (fun d => !d.done && d.phase == .placing && decide (d.next < d.last)) = true)
    ∧ (let s : State := { State.reset with bu := { Bringup.reset with busy := true, op := 1 } }; s.bu.busy = true ∧ s.bu.op = 1)
    ∧ (let s : State := { State.reset with bu := { Bringup.reset with busy := true, op := 2, idKey := true } }; s.bu.busy = true ∧ s.bu.op = 2)
    ∧ (let s : State := { State.reset with bu := { Bringup.reset with busy := true, op := 2 } }; s.bu.busy = true ∧ s.bu.op = 2)
    ∧ (let s : State := { State.reset with bu := { Bringup.reset with busy := true, op := 3, inLen := 64, idKey := true } }; s.bu.busy = true ∧ s.bu.op = 3)
    ∧ (let s : State := { State.reset with bu := { Bringup.reset with busy := true, op := 3, inLen := 64 } }; s.bu.busy = true ∧ s.bu.op = 3)
    ∧ (let s : State := { State.reset with bu := { Bringup.reset with busy := true, op := 3, inLen := 63 } }; s.bu.busy = true ∧ s.bu.op = 3)
    ∧ (let s : State := { State.reset with bu := { Bringup.reset with busy := true, op := 4, inLen := 12 } }; s.bu.busy = true ∧ s.bu.op = 4)
    ∧ (let s : State := { State.reset with bu := { Bringup.reset with busy := true, op := 5 } }; s.bu.busy = true ∧ s.bu.op = 5)
    ∧ (let s : State := { State.reset with bu := { Bringup.reset with busy := true, op := 6 } }; s.bu.busy = true ∧ s.bu.op = 6)
    ∧ (let s : State := { State.reset with bu := { Bringup.reset with busy := true, op := 4, inLen := 12, buf := putBytes [] 8 (leBytes 4 1152) } }; leVal (getBytes s.bu.buf 0 8) = 0 ∧ leVal (getBytes s.bu.buf 8 4) = 1152 ∧ 1152 = 1152 + fwBody (s.peek (2 ^ 48) 1152))
    ∧ (let s : State := { State.reset with bu := { Bringup.reset with busy := true, op := 4, inLen := 12, buf := putBytes [] 8 (leBytes 4 1151) } }; leVal (getBytes s.bu.buf 8 4) < 1152)
    ∧ (let s : State := { State.reset with bu := { Bringup.reset with busy := true, op := 4, inLen := 12, buf := putBytes [] 8 (leBytes 4 1153) } }; leVal (getBytes s.bu.buf 8 4) = 1153 ∧ 1153 ≠ 1152 + fwBody (s.peek (2 ^ 48) 1153)) :=
  by refine ⟨?_, ?_, ?_, ?_, ?_, ?_, ?_, ?_, ?_, ?_, ?_, ?_, ?_, ?_, ?_, ?_, ?_, ?_, ?_, ?_, ?_, ?_, ?_, ?_, ?_⟩ <;> decide +kernel

end Sys2Proof.Tests
end

section
/-! PROOFS. Memory reads what was written (R5, R52). -/
namespace Sys2Proof.Machine

@[simp] theorem State.peek_length (s : State) (pa n : Nat) : (s.peek pa n).length = n := by
  simp [State.peek]

theorem State.peek_getElem (s : State) (pa n k : Nat) (hk : k < (s.peek pa n).length) :
    (s.peek pa n)[k] = tget 0 s.mem (pa + k) := by
  simp only [State.peek, List.getElem_map, List.getElem_range]

/-- R5, R52: a read of the range of a store gives the bytes stored. -/
theorem State.peek_store_same (s : State) (pa : Nat) (b : List Byte) : (s.store pa b).peek pa b.length = b := by
  refine List.ext_getElem (State.peek_length ..) fun k _ hk => ?_
  rw [State.peek_getElem, State.store_get, if_pos (by omega), Nat.add_sub_cancel_left, List.getD_eq_getElem?_getD,
    List.getElem?_eq_getElem hk, Option.getD_some]

/-- R5: the k-th byte of a value, from the lowest address, is its k-th digit to base 256. -/
theorem leBytes_getElem? {n k : Nat} (v : Nat) (hk : k < n) : (leBytes n v)[k]? = some (BitVec.ofNat 8 (v / 256 ^ k)) := by
  induction n generalizing v k with
  | zero => omega
  | succ n ih =>
    cases k with
    | zero => simp [leBytes]
    | succ k => rw [leBytes, List.getElem?_cons_succ, ih _ (by omega), Nat.div_div_eq_div_mul, Nat.pow_succ']

/-- Settles O30: what a store does to each byte, `State.store_get`, gives the read of its range and the frame; the canonical
form is kept by every write, and fixes a memory by its bytes. -/
theorem memoryReadsWhatWasWritten : Obligations.MemoryReadsWhatWasWritten := by
  unfold Obligations.MemoryReadsWhatWasWritten
  refine ⟨fun s pa b => ⟨s.peek_store_same pa b, ?frame, (quiet_store s pa b).wf⟩, ?roundTrip,
    fun _ v _ hk => leBytes_getElem? v hk, fun _ _ => twf_ext 0⟩
  case frame =>
    intro a ha
    rw [State.store_get, if_neg (by omega)]
  case roundTrip =>
    intro n v hv
    exact ⟨by rw [leVal_leBytes, Nat.mod_eq_of_lt hv], leBytes_length n v⟩

end Sys2Proof.Machine
end

section
/-! PROOFS. The checks before execution trap in the order of R154. -/
namespace Sys2Proof.Machine

/-! ## Instruction words run behind their checks -/

/-- Whatever is not an event of the device has its meaning behind the checks of `State.issue`. -/
theorem exec_eq_issue {ins : Instr} (h : ins.enc ≠ .event) (s : State) : ∃ f, exec ins s = s.issue ins f := by
  cases ins
  any_goals exact absurd rfl h
  all_goals exact ⟨_, rfl⟩

/-- A word that its checks end does nothing else, whatever its meaning. -/
theorem exec_of_gate_halt {s t : State} {ins : Instr} {i : Iss} (hi : s.issuer? = some i) (h : ins.enc ≠ .event)
    (hg : s.gate i ins.enc = .halt t) : exec ins s = .next t := by
  obtain ⟨f, hf⟩ := exec_eq_issue h s
  simp only [hf, State.issue, hi, hg]

/-! ## Steps 1 to 7 of R154 -/

/-- A word's encoding is defined, its class admits it, and it stands last where it must (steps 1 to 7 of R154). -/
def Iss.Admits (i : Iss) (e : Enc) : Prop :=
  e.wf = true ∧ (e.home = .alu ∨ e.home.code = i.h.cls)
    ∧ (e.last = false ∨ i.u.pc + 8 = i.c.head + BitVec.ofNat 64 (8 * (i.h.count + 1)))

theorem Iss.isLast_iff (i : Iss) : i.isLast = true ↔ i.u.pc + 8 = i.c.head + BitVec.ofNat 64 (8 * (i.h.count + 1)) :=
  beq_iff_eq

/-- The three tests that `State.gate` makes of them, none of which fires. -/
theorem Iss.admits_iff (i : Iss) (e : Enc) : i.Admits e ↔
    (!e.wf) = false ∧ (e.home != .alu && e.home.code != i.h.cls) = false ∧ (e.last && !i.isLast) = false := by
  simp only [Iss.Admits, ← Iss.isLast_iff, Bool.and_eq_false_iff, Bool.not_eq_false', bne_eq_false_iff_eq]

theorem State.gate_of_not_admits {s : State} {i : Iss} {e : Enc} (h : ¬ i.Admits e) :
    s.gate i e = .halt (i.fault s causeIllop (e.word.getD 0) (i.active e.guard) 0) := by
  unfold State.gate
  dsimp only
  split
  case isTrue => rfl
  split
  case isTrue => rfl
  split
  case isTrue => rfl
  case isFalse hwf hhome hlast =>
    exact absurd ((i.admits_iff e).2 ⟨eq_false_of_ne_true hwf, eq_false_of_ne_true hhome, eq_false_of_ne_true hlast⟩) h

/-! ## Step 8 -/

theorem pfld_one_eq_zero_iff (p : BitVec 1024) (k : Nat) : pfld p k 1 = 0 ↔ p.getLsbD k = false := by
  simp [pfld, fld, BitVec.getLsbD, Nat.testBit_eq_decide_div_mod_eq]

/-- R155, R299: BIAS and HALT without the privilege of their launch, and a write of a CSR that is read-only throughout. -/
theorem Iss.privBad_iff (i : Iss) (s : State) (ins : Instr) : i.privBad s ins.enc = true ↔
    ((∃ f, ins = .bias f) ∨ ∃ f, ins = .halt f) ∧ (s.pktOf i.g).getLsbD 574 = false
      ∨ ∃ f, ins = .csrwr f ∧ f.num.toNat ∈ [0x012, 0x015, 0x016, 0x017, 0x018, 0x019, 0x020, 0x021, 0x031, 0x032, 0x034] := by
  rw [← pfld_one_eq_zero_iff]
  cases ins
  case bias f => simp [Instr.enc, Iss.privBad]
  case halt f => simp [Instr.enc, Iss.privBad]
  case csrwr f => simp [Instr.enc, Iss.privBad, csrAllRo]
  all_goals simp [Instr.enc, Iss.privBad]

theorem State.gate_of_privBad {s : State} {i : Iss} {e : Enc} (h : i.Admits e) (hp : i.privBad s e = true) :
    s.gate i e = .halt (i.fault s causePriv (e.word.getD 0) (i.active e.guard) 0) := by
  obtain ⟨hwf, hhome, hlast⟩ := (i.admits_iff e).1 h
  simp only [State.gate, hwf, hhome, hlast, hp, Bool.false_eq_true, if_false, if_true]

/-! ## Step 9 -/

theorem State.gate_of_regBad {s : State} {i : Iss} {e : Enc} {n : Nat} (h : i.Admits e) (hp : i.privBad s e = false)
    (hn : (e.dstUses ++ e.srcUses).findSome? (i.regBad s) = some n) :
    s.gate i e = .halt (i.fault s causeIllop (e.word.getD 0) (i.active e.guard) n) := by
  obtain ⟨hwf, hhome, hlast⟩ := (i.admits_iff e).1 h
  simp only [State.gate, hwf, hhome, hlast, hp, hn, Bool.false_eq_true, if_false]

/-- R21: v255 is no register of the allotment, and passes. -/
theorem Iss.regBad_vec (i : Iss) (s : State) (n : Nat) :
    i.regBad s (.vec n 1) = if n = 255 ∨ n < max i.w.av i.u.allot then none else some n := by
  change _ = if n = 255 ∨ n < i.av then none else some n
  simp only [Iss.regBad, if_true, Bool.or_eq_true, decide_eq_true_eq]

theorem Iss.regBad_vecPair (i : Iss) (s : State) (n : Nat) :
    i.regBad s (.vec n 2) = if n % 2 = 1 ∨ n = 254 ∨ max i.w.av i.u.allot ≤ n then some n else none := by
  change _ = if n % 2 = 1 ∨ n = 254 ∨ i.av ≤ n then some n else none
  simp only [Iss.regBad, Nat.reduceEqDiff, if_false, decide_true, Bool.true_and, Bool.or_eq_true, bne_iff_ne, ne_eq,
    Nat.mod_two_not_eq_zero, decide_eq_true_eq, or_assoc]

theorem Iss.regBad_sca (i : Iss) (s : State) (n : Nat) :
    i.regBad s (.sca n 1) = if n < i.w.as then none else some n := by
  rw [← ite_not]
  simp only [Iss.regBad, Nat.mod_one, bne_self_eq_false, Bool.false_or, decide_eq_true_eq, Nat.not_lt]

theorem Iss.regBad_scaPair (i : Iss) (s : State) (n : Nat) :
    i.regBad s (.sca n 2) = if n % 2 = 1 ∨ i.w.as ≤ n then some n else none := by
  simp only [Iss.regBad, Bool.or_eq_true, bne_iff_ne, ne_eq, Nat.mod_two_not_eq_zero, decide_eq_true_eq]

/-- Settles O21: the tests of `State.gate` in their order, each with the trap it answers, and what fails of each kind of
register. -/
theorem decodeAndRegisterChecksTrapInOrder : Obligations.DecodeAndRegisterChecksTrapInOrder := by
  unfold Obligations.DecodeAndRegisterChecksTrapInOrder
  refine ⟨fun s ins i hi hins => ⟨?illegal, ?privileged, ?register⟩, fun i s n =>
    ⟨i.regBad_vec s n, fun _ => i.regBad_vecPair s n, i.regBad_sca s n, i.regBad_scaPair s n⟩⟩
  case illegal =>
    intro h
    refine exec_of_gate_halt hi hins (State.gate_of_not_admits ?_)
    rintro ⟨hwf, hhome, hlast⟩
    rcases h with h | h | h
    · exact absurd (hwf.symm.trans h) (by decide)
    · exact h hhome
    · exact h hlast
  case privileged =>
    intro hwf hhome hlast hp
    exact exec_of_gate_halt hi hins (State.gate_of_privBad ⟨hwf, hhome, hlast⟩ ((i.privBad_iff s ins).2 hp))
  case register =>
    intro hwf hhome hlast hp a u b n huses ha hu
    have first : (ins.enc.dstUses ++ ins.enc.srcUses).findSome? (i.regBad s) = some n :=
      List.findSome?_eq_some_iff.2 ⟨a, u, b, huses, hu, ha⟩
    have unpriv : i.privBad s ins.enc = false := eq_false_of_ne_true fun h => hp ((i.privBad_iff s ins).1 h)
    exact exec_of_gate_halt hi hins (State.gate_of_regBad ⟨hwf, hhome, hlast⟩ unpriv first)

end Sys2Proof.Machine
end
